-- ==== Sys2Proof/Word.lean ====
section
/-! DEFINITION. The word types of the Trelsorov B2 and the plainest arithmetic on them (03_instruction_word.md, 01 R8). -/

namespace Sys2Proof

/-- One byte of memory. -/
abbrev Byte := BitVec 8
/-- The contents of one x register or one k register. -/
abbrev W32 := BitVec 32
/-- The contents of an even pair (R8), an address, an instruction word. -/
abbrev W64 := BitVec 64
/-- A byte address as memory is keyed. -/
abbrev Addr := Nat

/-- The pair `lo : hi` as one 64-bit value: the even register holds bits [31:0] (R8). -/
def pairOf (lo hi : W32) : W64 := hi ++ lo

/-- Bits [31:0] of a pair. -/
def loOf (v : W64) : W32 := v.setWidth 32

/-- Bits [63:32] of a pair. -/
def hiOf (v : W64) : W32 := (v >>> 32).setWidth 32

/-- Bits `[lo + len - 1 : lo]` of a natural number. -/
def bitsOf (v lo len : Nat) : Nat := (v >>> lo) % 2 ^ len

/-- Bit `i` of a natural number. -/
def bitOf (v i : Nat) : Bool := v.testBit i

end Sys2Proof
end

