-- ==== Sys2Proof/Syntax.lean ====
section
/-! DEFINITION. The instruction words of the core formats (03 R36-R42), of format P (13 R258) and of the walker (15 R291), and
the steps of the part (95_what_each_step_holds.md): one constructor of `Instr` for each row of spec/opcode_table.json. -/

namespace Sys2Proof

/-- Format R (R36), less its op field. -/
structure RWord where
  d : BitVec 7
  a : BitVec 7
  b : BitVec 7
  c : BitVec 7
  g : BitVec 3
  gn : BitVec 1
  /-- Bit 2 belongs to a, bit 1 to b, bit 0 to c (R9). -/
  fe : BitVec 3
  ty : BitVec 4
  rm : BitVec 3
  tk : BitVec 4
  md : BitVec 8
  deriving DecidableEq, Repr

/-- Format I (R38), less its op field. -/
structure IWord where
  d : BitVec 7
  a : BitVec 7
  g : BitVec 3
  gn : BitVec 1
  fe : BitVec 1
  md : BitVec 3
  imm : BitVec 32
  deriving DecidableEq, Repr

/-- Format B (R39), less its op field. -/
structure BWord where
  g : BitVec 3
  gn : BitVec 1
  bs : BitVec 3
  a : BitVec 7
  md : BitVec 8
  off : BitVec 32
  deriving DecidableEq, Repr

/-- Format K (R40), less its op field. -/
structure KWord where
  kd : BitVec 6
  ka : BitVec 6
  kb : BitVec 6
  md : BitVec 4
  imm : BitVec 32
  deriving DecidableEq, Repr

/-- Format M (R41), less its op field. -/
structure MWord where
  d : BitVec 7
  a : BitVec 7
  b : BitVec 7
  g : BitVec 3
  gn : BitVec 1
  /-- Bit 2 belongs to a, bit 1 to b, bit 0 to d (R41). -/
  fe : BitVec 3
  w : BitVec 3
  sc : BitVec 3
  ord : BitVec 2
  tk : BitVec 4
  off : BitVec 14
  deriving DecidableEq, Repr

/-- Format C (R42), less its op field. -/
structure CWord where
  d : BitVec 7
  a : BitVec 7
  b : BitVec 7
  c : BitVec 7
  g : BitVec 3
  gn : BitVec 1
  fe : BitVec 3
  md : BitVec 7
  tk : BitVec 4
  cp : BitVec 8
  deriving DecidableEq, Repr

/-- Format P (R258), less its mop field. `ka kb kc km` are bits [46:23]; MJMP and MLOOP read bits [46:15] as one offset,
MKADD reads bits [34:15] as one immediate (`PWord.off32`, `PWord.imm20`). -/
structure PWord where
  wb : BitVec 4
  sb : BitVec 4
  ru : BitVec 1
  ka : BitVec 6
  kb : BitVec 6
  kc : BitVec 6
  km : BitVec 6
  fa : BitVec 4
  fo : BitVec 4
  sp : BitVec 3
  ch : BitVec 2
  tr : BitVec 2
  md : BitVec 8
  deriving DecidableEq, Repr

/-- Bits [46:15] of a format-P word: the byte offset of MJMP and MLOOP (R258). -/
def PWord.off32 (w : PWord) : BitVec 32 :=
  w.ka ++ w.kb ++ w.kc ++ w.km ++ w.fa ++ w.fo

/-- Bits [34:15] of a format-P word: the immediate of MKADD (R258). -/
def PWord.imm20 (w : PWord) : BitVec 20 :=
  w.kc ++ w.km ++ w.fa ++ w.fo

/-- The steps of the part: core instructions, Prompter stream words, walker words and events. -/
inductive Instr where
  /-- MOV (R126; core, format R). Copies register a to d at the width of the type. -/
  | mov (w : RWord)
  /-- IADD (R127; core, format R). Integer addition, with optional saturation and operand modifiers. -/
  | iadd (w : RWord)
  /-- ISUB (R127; core, format R). Integer subtraction. -/
  | isub (w : RWord)
  /-- IADDC (R127; core, format R). Add or subtract with a carry predicate, writing the carry out. -/
  | iaddc (w : RWord)
  /-- IMUL (R126; core, format R). Integer multiplication, keeping the low part. -/
  | imul (w : RWord)
  /-- IMULH (R126; core, format R). High half of the exact integer product. -/
  | imulh (w : RWord)
  /-- IMAD (R126; core, format R). Integer multiply-add. -/
  | imad (w : RWord)
  /-- IMADW (R128; core, format R). 32-bit multiply-add into a 64-bit pair. -/
  | imadw (w : RWord)
  /-- IDIV (R129; core, format R). Long-latency integer division truncated toward zero. -/
  | idiv (w : RWord)
  /-- IREM (R129; core, format R). Long-latency integer remainder. -/
  | irem (w : RWord)
  /-- IMIN (R126; core, format R). Lesser of two integers. -/
  | imin (w : RWord)
  /-- IMAX (R126; core, format R). Greater of two integers. -/
  | imax (w : RWord)
  /-- IABS (R126; core, format R). Integer absolute value. -/
  | iabs (w : RWord)
  /-- ICMP (R130; core, format R). Integer comparison into a predicate or a mask. -/
  | icmp (w : RWord)
  /-- ISEL (R130; core, format R). Selects a or b by a predicate. -/
  | isel (w : RWord)
  /-- LEA (R131; core, format R). Computes a 64-bit address from a base and a scaled index. -/
  | lea (w : RWord)
  /-- AND (R132; core, format R). Bitwise AND. -/
  | and (w : RWord)
  /-- OR (R132; core, format R). Bitwise OR. -/
  | or (w : RWord)
  /-- XOR (R132; core, format R). Bitwise XOR. -/
  | xor (w : RWord)
  /-- ANDN (R132; core, format R). a AND NOT b. -/
  | andn (w : RWord)
  /-- NOT (R132; core, format R). Bitwise complement. -/
  | not (w : RWord)
  /-- SHL (R132; core, format R). Logical left shift. -/
  | shl (w : RWord)
  /-- SHR (R132; core, format R). Logical right shift. -/
  | shr (w : RWord)
  /-- SHA (R132; core, format R). Arithmetic right shift. -/
  | sha (w : RWord)
  /-- ROT (R132; core, format R). Left rotation. -/
  | rot (w : RWord)
  /-- BFE (R133; core, format R). Bit-field extraction. -/
  | bfe (w : RWord)
  /-- BFI (R133; core, format R). Bit-field insertion. -/
  | bfi (w : RWord)
  /-- POPC (R132; core, format R). Population count. -/
  | popc (w : RWord)
  /-- CLZ (R132; core, format R). Count of leading zeros. -/
  | clz (w : RWord)
  /-- CTZ (R132; core, format R). Count of trailing zeros. -/
  | ctz (w : RWord)
  /-- BREV (R132; core, format R). Bit reversal. -/
  | brev (w : RWord)
  /-- BYTEP (R134; core, format R). Byte permutation from a pool of eight bytes. -/
  | bytep (w : RWord)
  /-- PLOP (R135; core, format R). Logic operation on predicates. -/
  | plop (w : RWord)
  /-- IDOT4 (R128; core, format R). Four-element 8-bit dot product with accumulation. -/
  | idot4 (w : RWord)
  /-- SHFL (R139; core, format R). Collective exchange of values between lanes of a group. -/
  | shfl (w : RWord)
  /-- VOTE (R140; core, format R). Collective vote over predicates or values. -/
  | vote (w : RWord)
  /-- GSCAN (R141; core, format R). Collective prefix scan over the group. -/
  | gscan (w : RWord)
  /-- GRED (R141; core, format R). Collective reduction over the group. -/
  | gred (w : RWord)
  /-- MOVI (R136; core, format I). Loads a 32-bit immediate, or sign-extends it into a pair. -/
  | movi (w : IWord)
  /-- IADDI (R38; core, format I). Immediate form of IADD. -/
  | iaddi (w : IWord)
  /-- ISUBI (R38; core, format I). Immediate form of ISUB. -/
  | isubi (w : IWord)
  /-- IADDCI (R136; core, format I). Immediate form of IADDC. -/
  | iaddci (w : IWord)
  /-- IMULI (R38; core, format I). Immediate form of IMUL. -/
  | imuli (w : IWord)
  /-- IMULHI (R38; core, format I). Immediate form of IMULH. -/
  | imulhi (w : IWord)
  /-- IMADI (R38; core, format I). Immediate form of IMAD. -/
  | imadi (w : IWord)
  /-- IMADWI (R136; core, format I). Immediate form of IMADW. -/
  | imadwi (w : IWord)
  /-- IDIVI (R38; core, format I). Immediate form of IDIV, long-latency. -/
  | idivi (w : IWord)
  /-- IREMI (R38; core, format I). Immediate form of IREM, long-latency. -/
  | iremi (w : IWord)
  /-- IMINI (R38; core, format I). Immediate form of IMIN. -/
  | imini (w : IWord)
  /-- IMAXI (R38; core, format I). Immediate form of IMAX. -/
  | imaxi (w : IWord)
  /-- IABSI (R136; core, format I). Immediate form of IABS. -/
  | iabsi (w : IWord)
  /-- ICMPI (R136; core, format I). Immediate comparison into a predicate. -/
  | icmpi (w : IWord)
  /-- ISELI (R136; core, format I). Immediate form of ISEL. -/
  | iseli (w : IWord)
  /-- LEAI (R136; core, format I). Immediate form of LEA. -/
  | leai (w : IWord)
  /-- ANDI (R38; core, format I). Immediate form of AND. -/
  | andi (w : IWord)
  /-- ORI (R38; core, format I). Immediate form of OR. -/
  | ori (w : IWord)
  /-- XORI (R38; core, format I). Immediate form of XOR. -/
  | xori (w : IWord)
  /-- ANDNI (R38; core, format I). Immediate form of ANDN. -/
  | andni (w : IWord)
  /-- NOTI (R136; core, format I). Complement of the immediate. -/
  | noti (w : IWord)
  /-- SHLI (R38; core, format I). Immediate form of SHL. -/
  | shli (w : IWord)
  /-- SHRI (R38; core, format I). Immediate form of SHR. -/
  | shri (w : IWord)
  /-- SHAI (R38; core, format I). Immediate form of SHA. -/
  | shai (w : IWord)
  /-- ROTI (R38; core, format I). Immediate form of ROT. -/
  | roti (w : IWord)
  /-- BFEI (R38; core, format I). Immediate form of BFE. -/
  | bfei (w : IWord)
  /-- BFII (R38; core, format I). Immediate form of BFI. -/
  | bfii (w : IWord)
  /-- MOVIH (R137; core, format I). Writes the immediate into the odd register of a pair. -/
  | movih (w : IWord)
  /-- FADD (R143; core, format R). Floating-point addition, rounded once. -/
  | fadd (w : RWord)
  /-- FSUB (R143; core, format R). Floating-point subtraction. -/
  | fsub (w : RWord)
  /-- FMUL (R143; core, format R). Floating-point multiplication. -/
  | fmul (w : RWord)
  /-- FFMA (R144; core, format R). Fused multiply-add with one rounding. -/
  | ffma (w : RWord)
  /-- FMIN (R145; core, format R). IEEE minimumNumber. -/
  | fmin (w : RWord)
  /-- FMAX (R145; core, format R). IEEE maximumNumber. -/
  | fmax (w : RWord)
  /-- FCMP (R146; core, format R). Floating-point comparison into a predicate or mask. -/
  | fcmp (w : RWord)
  /-- FCLASS (R147; core, format R). Classifies a floating-point value into a one-hot mask. -/
  | fclass (w : RWord)
  /-- FDIV (R143; core, format R). Long-latency correctly rounded division. -/
  | fdiv (w : RWord)
  /-- FSQRT (R143; core, format R). Long-latency square root. -/
  | fsqrt (w : RWord)
  /-- FRCP (R143; core, format R). Long-latency reciprocal. -/
  | frcp (w : RWord)
  /-- FRSQ (R143; core, format R). Long-latency reciprocal square root. -/
  | frsq (w : RWord)
  /-- FEXP2 (R143; core, format R). Long-latency base-2 exponential. -/
  | fexp2 (w : RWord)
  /-- FLOG2 (R143; core, format R). Long-latency base-2 logarithm. -/
  | flog2 (w : RWord)
  /-- FSIN (R143; core, format R). Long-latency sine. -/
  | fsin (w : RWord)
  /-- FCOS (R143; core, format R). Long-latency cosine. -/
  | fcos (w : RWord)
  /-- FDOT2 (R144; core, format R). Two-element dot product plus F32 c with one rounding. -/
  | fdot2 (w : RWord)
  /-- CVTF (R149; core, format R). Float-to-float conversion per element. -/
  | cvtf (w : RWord)
  /-- CVTFI (R149; core, format R). Float-to-integer conversion with clamping. -/
  | cvtfi (w : RWord)
  /-- CVTIF (R149; core, format R). Integer-to-float conversion. -/
  | cvtif (w : RWord)
  /-- CVTQ (R150; core, format R). Collective block quantisation of one value per lane. -/
  | cvtq (w : RWord)
  /-- CVTDQ (R151; core, format R). Decodes one block-scaled element per lane. -/
  | cvtdq (w : RWord)
  /-- CBK (R152; core, format R). Decodes or encodes through the core codebook. -/
  | cbk (w : RWord)
  /-- RNGK (R153; core, format R). Keyed counter-based random value. -/
  | rngk (w : RWord)
  /-- NOISE (R154; core, format R). Long-latency: two draws from the cluster noise source per lane. -/
  | noise (w : RWord)
  /-- LD (R187; core, format M). Loads from device or host memory; destination empty until the data arrives. -/
  | ld (w : MWord)
  /-- ST (R187; core, format M). Stores to device or host memory, writing through to the home. -/
  | st (w : MWord)
  /-- LDS (R190; core, format M). Loads from the team's scratchpad. -/
  | lds (w : MWord)
  /-- STS (R190; core, format M). Stores to the team's scratchpad. -/
  | sts (w : MWord)
  /-- ATS (R191; core, format M). Read-modify-write on scratchpad, returning the old value. -/
  | ats (w : MWord)
  /-- LDSUB (R192; core, format M). Subscribed load of F32 elements rounded to a narrow format. -/
  | ldsub (w : MWord)
  /-- LDV (R193; core, format M). Loads a value and its line's sequence tag at the home. -/
  | ldv (w : MWord)
  /-- PREF (R194; core, format M). Prefetches a line into L1 or L2, never stopping. -/
  | pref (w : MWord)
  /-- FENCE (R195; core, format M). Orders the lane's earlier and later accesses at a scope. -/
  | fence (w : MWord)
  /-- WACK (R196; core, format M). Waits until earlier stores, reductions and scatters are acknowledged at a scope. -/
  | wack (w : MWord)
  /-- CCTL (R197; core, format M). Cache control on non-coherent lines: invalidate, write back or instruction invalidate. -/
  | cctl (w : MWord)
  /-- LDVOL (R199; core, format M). Loads an element of a sparse volume, or its background. -/
  | ldvol (w : MWord)
  /-- STVOL (R199; core, format M). Stores an element of a sparse volume, allocating its tile. -/
  | stvol (w : MWord)
  /-- VOLINV (R201; core, format M). Removes CLB entries of a volume over an extent. -/
  | volinv (w : MWord)
  /-- ATOM (R357; core, format R). Atomic RMW at the home slice, returning the old value. -/
  | atom (w : RWord)
  /-- RED (R357; core, format R). Atomic reduction at the home slice, returning nothing. -/
  | red (w : RWord)
  /-- GATH (R359; core, format M). Gathers a list of elements from memory into scratchpad. -/
  | gath (w : MWord)
  /-- SCAT (R359; core, format M). Scatters scratchpad elements to memory. -/
  | scat (w : MWord)
  /-- SCATA (R359; core, format M). Scatters scratchpad elements as additions at the home. -/
  | scata (w : MWord)
  /-- CAS4 (R361; core, format M). Commits up to four lines at one slice if their tags match. -/
  | cas4 (w : MWord)
  /-- SFLUSH (R362; core, format M). Writes back or invalidates a range of lines. -/
  | sflush (w : MWord)
  /-- REGMODE (R363; core, format M). Switches a 64 KiB region between coherent and software-managed. -/
  | regmode (w : MWord)
  /-- RECLAIM (R364; core, format M). Rewrites a LOST line and clears its mark. -/
  | reclaim (w : MWord)
  /-- RBIND (R382; core, format R). Makes a region live at its home Usher. -/
  | rbind (w : RWord)
  /-- ENTER (R383; core, format R). Demands a room of a region and waits for admission. -/
  | enter (w : RWord)
  /-- ENTERM (R384; core, format R). Takes seats in several regions in ascending descriptor address. -/
  | enterm (w : RWord)
  /-- ETRY (R383; core, format R). Demands a room, giving up after the wait budget. -/
  | etry (w : RWord)
  /-- LEAVE (R385; core, format R). Ends the lane's occupancy after its stores are acknowledged. -/
  | leave (w : RWord)
  /-- PUSH (R386; core, format R). Appends an element into a reserved queue slot. -/
  | push (w : RWord)
  /-- POP (R387; core, format R). Takes the next queue element through the Usher. -/
  | pop (w : RWord)
  /-- RACC (R388; core, format R). Sends an exact reduction into an array element, committed at the curtain. -/
  | racc (w : RWord)
  /-- RSTAT (R389; core, format R). Reads a snapshot of a region's Usher state. -/
  | rstat (w : RWord)
  /-- RUNBIND (R382; core, format R). Unbinds an idle region, writing back head and tail. -/
  | runbind (w : RWord)
  /-- CUENEW (R324; core, format C). Defines a cue with a predecessor count. -/
  | cuenew (w : CWord)
  /-- CUEDEP (R325; core, format C). Adds a dependence edge between two cues. -/
  | cuedep (w : CWord)
  /-- CUEARM (R326; core, format C). Arms a defined cue or re-arms a faulted one. -/
  | cuearm (w : CWord)
  /-- COPY (R324; core, format C). Defines and arms a bulk-copy cue. -/
  | copy (w : CWord)
  /-- COPYT (R324; core, format C). Defines and arms a copy cue, or reports no free slot. -/
  | copyt (w : CWord)
  /-- CUEWAIT (R328; core, format I). Waits with acquire until a completion counter reaches a target. -/
  | cuewait (w : IWord)
  /-- CUEPROG (R329; core, format I). Reads a cue's progress or state. -/
  | cueprog (w : IWord)
  /-- CUEKILL (R327; core, format C). Kills a cue and joins it. -/
  | cuekill (w : CWord)
  /-- WLKGO (R324; core, format C). Defines and arms a walker-job cue. -/
  | wlkgo (w : CWord)
  /-- BRA (R157; core, format B). Relative branch, optionally recording a reconvergence slot. -/
  | bra (w : BWord)
  /-- BRX (R157; core, format B). Branch through the dispatch table. -/
  | brx (w : BWord)
  /-- CALL (R157; core, format B). Relative call writing the link to x6:x7. -/
  | call (w : BWord)
  /-- CALLX (R157; core, format B). Call through the dispatch table. -/
  | callx (w : BWord)
  /-- RET (R157; core, format B). Return to the address in a register pair. -/
  | ret (w : BWord)
  /-- RECON (R160; core, format B). Waits until every recorded thread of a slot has arrived. -/
  | recon (w : BWord)
  /-- YIELD (R161; core, format B). Ends the clause and may cause a fairness switch. -/
  | yield (w : BWord)
  /-- NAP (R162; core, format B). Makes lanes ineligible for a number of cycles. -/
  | nap (w : BWord)
  /-- BARA (R164; core, format B). Arrives at a team barrier with release. -/
  | bara (w : BWord)
  /-- BARW (R164; core, format B). Waits for a barrier phase and acquires. -/
  | barw (w : BWord)
  /-- BARS (R164; core, format B). Sets a barrier's expected count. -/
  | bars (w : BWord)
  /-- EXIT (R166; core, format B). Ends active threads for good. -/
  | exit (w : BWord)
  /-- LAUNCH (R167; core, format B). Enqueues a child launch per lane, parking lanes without room. -/
  | launch (w : BWord)
  /-- LAUNCHT (R167; core, format B). Enqueues a child launch per lane, reporting lack of room. -/
  | launcht (w : BWord)
  /-- TRAP (R168; core, format B). Raises a USER trap with a code. -/
  | trap (w : BWord)
  /-- RAISE (R168; core, format B). Raises an EXCEPTION carrying an object. -/
  | raise (w : BWord)
  /-- TRET (R170; core, format B). Returns from a user handler, or to a landing pad. -/
  | tret (w : BWord)
  /-- TFENCE (R171; core, format B). Waits for registers and joined flags, trapping ARITH on enabled flags. -/
  | tfence (w : BWord)
  /-- ELECT (R175; core, format R). Elects the lowest participant of the group. -/
  | elect (w : RWord)
  /-- ROLE (R176; core, format B). Moves a converged group into another role. -/
  | role (w : BWord)
  /-- TMRSET (R172; core, format I). Writes the group's timer comparator. -/
  | tmrset (w : IWord)
  /-- BRK (R168; core, format B). Raises BREAK at the instruction. -/
  | brk (w : BWord)
  /-- KMOV (R177; core, format K). Copies one k register to another. -/
  | kmov (w : KWord)
  /-- KMOVI (R177; core, format K). Writes an immediate to a k register. -/
  | kmovi (w : KWord)
  /-- KLD (R177; core, format K). Loads a k register from memory. -/
  | kld (w : KWord)
  /-- KPUT (R177; core, format I). Writes a k register from the lowest active lane. -/
  | kput (w : IWord)
  /-- KGET (R177; core, format I). Reads a k register into an x register. -/
  | kget (w : IWord)
  /-- KADD (R177; core, format K). Adds two k registers and an immediate. -/
  | kadd (w : KWord)
  /-- SREAD (R179; core, format I). Reads a named state. -/
  | sread (w : IWord)
  /-- SWRITE (R179; core, format I). Writes a named state. -/
  | swrite (w : IWord)
  /-- TLBINV (R180; core, format K). Invalidates translations over an extent and waits for acknowledgement. -/
  | tlbinv (w : KWord)
  /-- ASIDSET (R180; core, format K). Sets the team's ASID. -/
  | asidset (w : KWord)
  /-- CTXEVICT (R226; core, format K). Marks or unmarks a team's gang as evictable. -/
  | ctxevict (w : KWord)
  /-- MSTART (R180; core, format K). Starts the team's Prompter context at a stream header. -/
  | mstart (w : KWord)
  /-- MNOP (R280; Prompter stream, format P). Stream word that does nothing. -/
  | mnop (w : PWord)
  /-- MLDW (R263; Prompter stream, format P). Loads a weight tile into the context's slot. -/
  | mldw (w : PWord)
  /-- MLDWT (R266; Prompter stream, format P). Loads a weight tile from accumulator rows. -/
  | mldwt (w : PWord)
  /-- MLDWS (R265; Prompter stream, format P). Loads a structured-sparse weight tile with positions. -/
  | mldws (w : PWord)
  /-- MLDCB (R263; Prompter stream, format P). Loads the 16-entry CB4 codebook. -/
  | mldcb (w : PWord)
  /-- MMA (R267; Prompter stream, format P). Posts a dense matrix pass accumulating A rows. -/
  | mma (w : PWord)
  /-- MMAC (R267; Prompter stream, format P). Posts a sparse matrix pass. -/
  | mmac (w : PWord)
  /-- MZERO (R268; Prompter stream, format P). Posts a pass zeroing accumulator rows. -/
  | mzero (w : PWord)
  /-- MSTC (R270; Prompter stream, format P). Posts a pass storing converted accumulator rows. -/
  | mstc (w : PWord)
  /-- MTURN (R272; Prompter stream, format P). Posts a pass writing the transpose of a tile. -/
  | mturn (w : PWord)
  /-- MRULE (R273; Prompter stream, format P). Reads an update rule record. -/
  | mrule (w : PWord)
  /-- MDRAIN (R274; Prompter stream, format P). Posts a pass applying the optimiser rule to master weights. -/
  | mdrain (w : PWord)
  /-- MSAVE (R275; Prompter stream, format P). Posts a pass saving accumulator rows and progress. -/
  | msave (w : PWord)
  /-- MLOAD (R275; Prompter stream, format P). Posts a pass restoring saved accumulator rows. -/
  | mload (w : PWord)
  /-- MWAIT (R276; Prompter stream, format P). Consumes one barrier phase. -/
  | mwait (w : PWord)
  /-- MSIG (R276; Prompter stream, format P). Signals a barrier after earlier passes complete. -/
  | msig (w : PWord)
  /-- MQCFG (R277; Prompter stream, format P). Sets the context's quantisation block shape and scale bases. -/
  | mqcfg (w : PWord)
  /-- MEPI (R269; Prompter stream, format P). Posts an epilogue pass with bias and activation. -/
  | mepi (w : PWord)
  /-- MPROG (R278; Prompter stream, format P). Reads MPROG into a k register or sets the next pass's start row. -/
  | mprog (w : PWord)
  /-- MJMP (R279; Prompter stream, format P). Continues the stream at another clause. -/
  | mjmp (w : PWord)
  /-- MLOOP (R279; Prompter stream, format P). Counted stream loop. -/
  | mloop (w : PWord)
  /-- MEND (R279; Prompter stream, format P). Stops fetching; idle after passes complete. -/
  | mend (w : PWord)
  /-- MKADD (R280; Prompter stream, format P). Adds an immediate to a k register from the stream. -/
  | mkadd (w : PWord)
  /-- WNOP (R293; walker). Walker no-operation. -/
  | wnop
  /-- WMOVI (R293; walker). Loads a sign-extended 14-bit immediate. -/
  | wmovi (d : BitVec 4) (i : BitVec 14)
  /-- WMOVI_SH (R293; walker). Shifts wd left by 14 and ORs in the immediate. -/
  | wmoviSh (d : BitVec 4) (i : BitVec 14)
  /-- WMOV (R293; walker). Walker register move. -/
  | wmov (d a : BitVec 4)
  /-- WADD (R293; walker). Walker addition with carry. -/
  | wadd (d a b : BitVec 4)
  /-- WADDI (R293; walker). Walker immediate addition. -/
  | waddi (d a : BitVec 4) (i : BitVec 14)
  /-- WSUB (R293; walker). Walker subtraction with borrow. -/
  | wsub (d a b : BitVec 4)
  /-- WAND (R293; walker). Walker bitwise AND. -/
  | wand (d a b : BitVec 4)
  /-- WOR (R293; walker). Walker bitwise OR. -/
  | wor (d a b : BitVec 4)
  /-- WSHL (R293; walker). Walker left shift. -/
  | wshl (d a b : BitVec 4) (r : BitVec 1) (n : BitVec 5)
  /-- WSHR (R293; walker). Walker logical right shift. -/
  | wshr (d a b : BitVec 4) (r : BitVec 1) (n : BitVec 5)
  /-- WMIN (R293; walker). Walker unsigned minimum. -/
  | wmin (d a b : BitVec 4)
  /-- WPOPC (R293; walker). Walker population count. -/
  | wpopc (d a : BitVec 4)
  /-- WFFS (R293; walker). Walker index of the lowest set bit. -/
  | wffs (d a : BitVec 4)
  /-- WCMP (R293; walker). Walker comparison setting flags. -/
  | wcmp (a b : BitVec 4)
  /-- WCMPI (R293; walker). Walker immediate comparison. -/
  | wcmpi (a : BitVec 4) (i : BitVec 14)
  /-- WLD (R294; walker). Walker 32-bit load. -/
  | wld (d a : BitVec 4) (k : BitVec 3) (i : BitVec 14)
  /-- WLDH (R294; walker). Walker 16-bit load, zero-extended. -/
  | wldh (d a : BitVec 4) (k : BitVec 3) (i : BitVec 14)
  /-- WST (R294; walker). Walker 32-bit store. -/
  | wst (d a : BitVec 4) (k : BitVec 3) (i : BitVec 14)
  /-- WST_C (R295; walker). Walker counted store, raising WPROG when sent. -/
  | wstC (d a : BitVec 4) (k : BitVec 3) (i : BitVec 14)
  /-- WBR (R296; walker). Walker conditional branch. -/
  | wbr (c : BitVec 4) (o : BitVec 22)
  /-- WJMP (R296; walker). Walker jump. -/
  | wjmp (o : BitVec 22)
  /-- WJMP_LINK (R296; walker). Walker jump writing the return index to w15. -/
  | wjmpLink (o : BitVec 22)
  /-- WJMP_RET (R296; walker). Walker return to the index in w15. -/
  | wjmpRet
  /-- WEMIT (R297; walker). Writes an element into the fill buffer and counts it. -/
  | wemit (a b : BitVec 4) (i : BitVec 14)
  /-- WTILE (R297; walker). Ends the fill buffer, making it ready or writing it to scratchpad. -/
  | wtile (a : BitVec 4)
  /-- WWAIT (R296; walker). Waits for store acknowledgements or taken tile buffers. -/
  | wwait (s : BitVec 2)
  /-- WMERGE (R299; walker). Binds the merge unit to two index streams. -/
  | wmerge (a b : BitVec 4)
  /-- WMNEXT (R300; walker). Delivers the next element of the sorted union. -/
  | wmnext (d a : BitVec 4)
  /-- WSCAN (R301; walker). In-place exclusive prefix sum over an array. -/
  | wscan (d a b : BitVec 4) (k : BitVec 3)
  /-- WYIELD (R287; walker). Gives up the walker issue slot. -/
  | wyield
  /-- WHALT (R296; walker). Ends the walker job after its stores and buffers settle. -/
  | whalt
  /-- WPROG (R296; walker). Reads WPROG into a register. -/
  | wprog (d : BitVec 4)
  /-- WPROG_SET (R296; walker). Writes WPROG from a register. -/
  | wprogSet (a : BitVec 4)
  /-- BUNDLE_CAST (R101; event). At a clause boundary the Casting unit reads the header, delivers pending traps and forms a bundle from the running PC set. -/
  | bundleCast (team : Nat)
  /-- DPF_EXPIRY (R105; event). The team's DPF counter reaches its period. -/
  | dpfExpiry (team : Nat)
  /-- WATCHDOG_EXPIRY (R106; event). The watchdog counter reaches WDOG and the running set is stopped. -/
  | watchdogExpiry (team : Nat)
  /-- TIMER_EXPIRY (R173; event). CLOCK reaches a group's TMRCMP and TIMER becomes due. -/
  | timerExpiry (team group : Nat)
  /-- NAP_END (R162; event). A napping lane's cycle count elapses and it becomes eligible. -/
  | napEnd (team tid : Nat)
  /-- LOAD_RETURN (R114; event). Load data arrives and is written to the register or the image, marking it full. -/
  | loadReturn (op : Nat)
  /-- STORE_ACKNOWLEDGEMENT (R34; event). A store, reduction or scatter is acknowledged and its token decremented. -/
  | storeAcknowledgement (op : Nat)
  /-- TRANSIT_RESUME (R185; event). A lane parked on a transit page issues its access once the cue is done. -/
  | transitResume (team tid : Nat)
  /-- LAUNCH_RETRY (R122; event). Lanes parked by LAUNCH enqueue as task-queue entries free. -/
  | launchRetry (die : Nat)
  /-- CALLEE_QUEUE_TAKE (R108; event). The fullest callee queue takes a freed PC table entry. -/
  | calleeQueueTake (team : Nat)
  /-- TRAP_RECORD_WRITE (R220; event). A waiting trap record is written to the die's ring and the trap interrupt raised. -/
  | trapRecordWrite (die : Nat)
  /-- RESUME (R222; event). Resume command action 0 re-executes a parked sub-group. -/
  | resume (die : Nat) (handle : BitVec 32) (tid : BitVec 16) (mask : BitVec 64)
  /-- RESUME_STEPPED (R222; event). Resume command action 1 re-executes with single-step set. -/
  | resumeStepped (die : Nat) (handle : BitVec 32) (tid : BitVec 16) (mask : BitVec 64)
  /-- SKIP (R222; event). Resume command action 2 continues at the next instruction. -/
  | skip (die : Nat) (handle : BitVec 32) (tid : BitVec 16) (mask : BitVec 64)
  /-- END_TEAM (R222; event). Resume command action 3 ends the team and kills its engines. -/
  | endTeam (die : Nat) (handle : BitVec 32) (tid : BitVec 16) (mask : BitVec 64)
  /-- SAVE_AREA_COMMAND (R227; event). Records a save area against a resident handle. -/
  | saveAreaCommand (die : Nat) (handle size : BitVec 32) (addr : BitVec 64)
  /-- SAVE_AREA_WITHDRAW (R227; event). A save-area command of zero address and size withdraws the area. -/
  | saveAreaWithdraw (die : Nat) (handle : BitVec 32)
  /-- RE_ARM (R330; event). Cue-control command 1 re-arms a faulted cue. -/
  | reArm (die : Nat) (handle cue : BitVec 32)
  /-- KILL (R330; event). Cue-control command 2 kills a cue. -/
  | kill (die : Nat) (handle cue : BitVec 32)
  /-- COUNTER_RETRY (R432; event). Retries a held completion-counter increment. -/
  | counterRetry (die : Nat) (counter record : BitVec 64)
  /-- CONSUMED_INDEX_WRITE (R220; event). The supervisor raises the trap ring's consumed index. -/
  | consumedIndexWrite (die : Nat) (value : BitVec 64)
  /-- COUNTER_INCREMENT (R432; event). A distributor's completion-counter RMW, held on a fault. -/
  | counterIncrement (die : Nat)
  /-- TEAM_PLACEMENT (R118; event). The distributor places a gang when resources free and initialises its threads. -/
  | teamPlacement (die : Nat) (cores : List Nat)
  /-- TASK_QUEUE_TAKE (R122; event). The die distributor takes a task-queue entry for placement. -/
  | taskQueueTake (die : Nat)
  /-- TEAM_RETIRE (R166; event). A team retires after its exits, acknowledgements and engines complete, releasing the grid counter at the last team. -/
  | teamRetire (team : Nat)
  /-- TEAM_REMOVAL (R228; event). A marked team is removed to its save area when resources are needed. -/
  | teamRemoval (team : Nat)
  /-- TEAM_RETURN (R229; event). A removed gang is placed again and restored. -/
  | teamReturn (gang : Nat) (cores : List Nat)
  /-- SHOOT_DOWN_ACKNOWLEDGE (R211; event). A translation unit acknowledges a shoot-down once named entries and their accesses are done. -/
  | shootDownAcknowledge (shoot unit : Nat)
  /-- VOL_ALLOC_REQUEST (R200; event). The parent's home slice allocates and publishes a volume tile or node. -/
  | volAllocRequest (request : Nat)
  /-- HOME_WRITE (R344; event). A write arrives at the home slice, raises the tag and probes subscribers. -/
  | homeWrite (req : Nat)
  /-- HOME_READ (R343; event). A read or LDSUB request is served at the home directory. -/
  | homeRead (req : Nat)
  /-- PRECISION_UPGRADE (R346; event). A request at higher precision to a P(f) line is served by the home. -/
  | precisionUpgrade (req : Nat)
  /-- READ_FOR_OWNERSHIP (R343; event). A write-back agent obtains a line in E. -/
  | readForOwnership (agent line : Nat)
  /-- PROBE (R339; event). A sharer applies an invalidate, update or census and answers a half mask. -/
  | probe (line sharer : Nat)
  /-- RDC_PROBE (R348; event). An RDC applies a probe and forwards actions to its L1s. -/
  | rdcProbe (line die : Nat)
  /-- PROBE_ANSWER (R345; event). The home gathers probe replies, splits on conflict and acknowledges the write. -/
  | probeAnswer (line : Nat)
  /-- DIRECTORY_MERGE (R341; event). Sibling entries merge after 65,536 quiet cycles. -/
  | directoryMerge (base level : Nat)
  /-- RECALL (R343; event). An owner writes back a modified line on request. -/
  | recall (line : Nat) (cells : List (Nat × BitVec 8))
  /-- OWNER_WRITE_BACK (R343; event). An owner evicts a modified line with one write. -/
  | ownerWriteBack (agent line : Nat) (cells : List (Nat × BitVec 8))
  /-- HOST_READ_SHARED (R349; event). The host reads a device line shared over CXL.mem. -/
  | hostReadShared (line : Nat)
  /-- HOST_READ_EXCLUSIVE (R349; event). The host reads a device line for ownership. -/
  | hostReadExclusive (line : Nat)
  /-- HOST_WRITE (R349; event). Host write-back or direct write applied at the home. -/
  | hostWrite (line : Nat) (cells : List (Nat × BitVec 8))
  /-- LOST_MARK (R353; event). An owner stops answering and its lines are marked LOST. -/
  | lostMark (agent line : Nat)
  /-- ECC_ERROR (R427; event). A read fails ECC, is retried and classed transient or lasting. -/
  | eccError (storage unit : Nat) (addr : Nat) (lasting : Bool)
  /-- USHER_DEMAND (R374; event). A room demand arrives at the Usher and is admitted or queued. -/
  | usherDemand (demand : Nat)
  /-- USHER_LEAVE (R374; event). A LEAVE reaches the Usher, possibly falling the curtain and opening the next room. -/
  | usherLeave (leave : Nat)
  /-- TENURE_EXPIRY (R374; event). The open room's tenure expires with demand waiting and it closes. -/
  | tenureExpiry (region : Nat)
  /-- ETRY_BUDGET_EXPIRY (R383; event). An ETRY's budget passes and its demand is withdrawn. -/
  | etryBudgetExpiry (team tid : Nat)
  /-- ROOM_ADMISSION (R378; event). A waiting lane receives its Usher answer and resumes. -/
  | roomAdmission (team tid : Nat)
  /-- CUE_START (R315; event). An ACTIVE cue obtains its resource or page marks and begins. -/
  | cueStart (core slot : Nat)
  /-- CUE_COMPLETION (R315; event). A cue becomes DONE, increments its counter and decrements successors. -/
  | cueCompletion (core slot : Nat)
  /-- CUE_FAULT (R330; event). A cue stops on a fault with its progress. -/
  | cueFault (core slot : Nat)
  /-- WALKER_JOB_START (R290; event). A walker job starts when its context frees. -/
  | walkerJobStart (cluster ctx : Nat)
  /-- WALKER_SLOT_ROTATION (R287; event). A walker context passes the issue slot after 256 instructions. -/
  | walkerSlotRotation (cluster : Nat)
  /-- PASS_GRANT (R252; event). The reservation arbiter grants the engine to an eligible pass. -/
  | passGrant (cluster : Nat)
  /-- PASS_AGING (R252; event). A waiting pass's class is lowered by 1 after each 4,096 cycles. -/
  | passAging (cluster : Nat)
  /-- PASS_COMPLETION (R253; event). A pass completes and signals its sb phase. -/
  | passCompletion (cluster : Nat)
  /-- NOISE_HEALTH_FAILURE (R76; event). The noise conditioning stage reports a health-test failure. -/
  | noiseHealthFailure (cluster : Nat)
  /-- REHEARSAL_RECORD (R79; event). A draw is written to the rehearsal ring once the limit allows. -/
  | rehearsalRecord (cluster : Nat)
  /-- REPLAY_DRAW (R80; event). A consumer takes its replayed draw once the record is present. -/
  | replayDraw (cluster request : Nat)
  /-- HOST_DOORBELL (R420; event). The host's tail doorbell write makes the front distributor read queue entries. -/
  | hostDoorbell (queue : Nat) (tail : BitVec 32)
  /-- HOST_COMPLETION_WRITE (R419; event). A completion entry is written when the completion ring has room. -/
  | hostCompletionWrite (queue : Nat)
  /-- COMPLETION_HEAD_WRITE (R419; event). The host raises the completion head, freeing room. -/
  | completionHeadWrite (queue : Nat) (head : BitVec 32)
  /-- QUEUE_ENABLE (R423; event). A port reads a queue descriptor when its enable bit rises. -/
  | queueEnable (port queue : Nat)
  /-- ACCESS_TABLE_WRITE (R424; event). A control processor changes an access-table entry. -/
  | accessTableWrite (offset : Nat) (value : BitVec 64)
  /-- ATTESTATION_REQUEST (R426; event). The host requests a signed attestation report. -/
  | attestationRequest (nonce : BitVec 256)
  /-- CONTROL_REGISTER_WRITE (R417; event). A write to a control-space register with no behaviour of its own. -/
  | controlRegisterWrite (offset : Nat) (value : BitVec 64)
  /-- PATH_DOWN (R422; event). A link path down for 1 ms is removed and its writes re-sent. -/
  | pathDown (device path : Nat)
  /-- DEVICE_UNREACHABLE (R422; event). No path to a device remains; waiting accesses stop and its lines are lost. -/
  | deviceUnreachable (device : Nat)
  /-- THERMAL_TRIP (R429; event). An island at 105 °C throttles issue and logs. -/
  | thermalTrip (island : Nat)
  /-- POWER_CAP (R429; event). An island over the cap lowers voltage or skips issue. -/
  | powerCap (island : Nat)
  /-- BRING_UP (R430; event). At reset control processor 0 verifies firmware and writes the bring-up block. -/
  | bringUp (verified : Bool) (block : List (Nat × BitVec 64))
  /-- PASS_STOP (R255; event). A running pass stops at A row i on a fault, ACCESS or MATRIX_FORMAT, setting MPROG and writing a kind-1 trap record. -/
  | passStop (cluster : Nat)
  /-- LONG_LATENCY_RESULT (R33; event). The result of a long-latency arithmetic producer (IDIV, IREM, FDIV, FSQRT and the like) is written and its destination marked full. -/
  | longLatencyResult (result : Nat)
  /-- REGISTER_LINE_FILL (R113; event). A register or state line missed in the register cache is filled from the context image, releasing the held instruction. -/
  | registerLineFill (team tid line : Nat)
  /-- WALKER_LOAD_RETURN (R294; event). Data for a walker WLD or WLDH arrives and the waiting walker context becomes ready again. -/
  | walkerLoadReturn (cluster ctx : Nat)
  /-- NOISE_DRAW_DELIVERY (R76; event). The cluster noise arbiter serves a draw request in arrival order and delivers the 16-bit draw to its consumer. -/
  | noiseDrawDelivery (cluster : Nat)
  /-- NOISE_HEALTH_PASS (R76; event). The conditioning stage's health test passes again and draws that waited during the failure are served. -/
  | noiseHealthPass (cluster : Nat)
  /-- FLUSH_MARKER_ARRIVAL (R94; event). A domain-scope flush marker arrives at the destination device on one path, and the release is applied once markers of all paths are gathered. -/
  | flushMarkerArrival (req path : Nat)
  /-- PORT_WORK_COMPLETION (R423; event). A network or storage port finishes a work entry and writes its work completion with release at system scope. -/
  | portWorkCompletion (port queue : Nat) (cells : List (Nat × BitVec 8))
  deriving DecidableEq, Repr

end Sys2Proof
end

