-- ==== Sys2Proof/Machine/State.lean ====
section
/-! DEFINITION. The state of the whole module as plain data: memory and coherence, translation units, teams with their threads,
groups, barriers and registers, bundles, accesses in flight, the Ushers, the cue engines, the walkers, the matrix engines and
Prompters, the noise sources, the distributors, the trap rings and the control space; and the state after reset.
A list that is said to be a map is a list of pairs with ascending keys and no pair whose value is the one read for a key that
is not listed (Sys2Proof/Machine/Ops.lean, `look` and `keep`). -/

namespace Sys2Proof.Machine

open Sys2Proof

/-! ## Threads, groups and teams (06, 08) -/

/-- Why a thread is not eligible (R103, R105, R160-R164, R185, R378); `ready` waits for nothing. -/
inductive Wait where
  | ready
  /-- Waits at RECON for its group's slot (R160). -/
  | recon (slot : Nat)
  /-- Waits at BARW (R164). -/
  | barrier (b : Nat)
  /-- Naps until this cycle (R162). -/
  | nap (until_ : Nat)
  /-- Parked by LAUNCH on a full task queue; the number is its place in parking order (R122). -/
  | taskQueue (order : Nat)
  /-- In a callee queue (R108). -/
  | callee
  /-- A CUEWAIT whose counter, at this address, is below the target (R328). -/
  | cueWait (addr target : W64)
  /-- A demand of ENTER, ETRY or ENTERM is not yet answered (R378). -/
  | usher
  /-- Parked on a page in a transit state (R185). -/
  | transit
  /-- ROLE's switch waits until no register of the group is empty (R110). -/
  | role (n : Nat)
  /-- A stopped lane of the parked sub-group with this number (R219). -/
  | stopped (sub : Nat)
  deriving DecidableEq, Repr

/-- One (region, mode) pair that a thread holds (R112, R377). -/
structure Held where
  /-- Virtual address of the region's descriptor. -/
  desc : W64
  mode : Nat
  /-- Bytes 8-11 of the entry: the next unused reserved slot, or the index kept by a stopped POP. -/
  next : W32
  /-- Bytes 12-15: reserved slots left, or 1 while a kept index is held. -/
  left : W32
  deriving DecidableEq, Repr

/-- One thread (R98, R112, R178). -/
structure Thread where
  tid : Nat
  /-- PC record: address of the current clause header (R26). -/
  pc : W64
  /-- PC record: instruction index, 0 to 15. -/
  idx : Nat
  /-- x0 to x127, a map from register number (R31). -/
  x : List (Nat × W32)
  /-- Registers that are empty (R33); every other one is full. -/
  empty : List Nat
  /-- p0 to p6 (R6). -/
  preds : BitVec 7
  /-- Scoreboard tokens 0 to 7, a map (R34). -/
  tokens : List (Nat × Nat)
  fpflags : W32
  fpenable : W32
  prog : W64
  srkc : W64
  exited : Bool
  /-- The parked bit of the state line (R112). -/
  parked : Bool
  singleStep : Bool
  /-- Pending traps TIMER, WATCHDOG, MATRIX_ILLEGAL (R433). -/
  pendTimer : Bool
  pendWatchdog : Bool
  pendMatrix : Bool
  held : List Held
  uhnd : W64
  tcause : W32
  tepc : W64
  /-- PRIV bit 0: supervisor mode (R178). -/
  priv : Bool
  wait : Wait
  /-- The cycle at which the wait of its PC set began (R105). -/
  since : Nat
  /-- Lines of its context image that the register cache does not hold: 0 the state line, 1 + j register line j (R113). -/
  absent : List Nat
  /-- The cycle at which it last issued, and for each of its lines the cycle of its last use, a map (R113). -/
  issuedAt : Nat
  used : List (Nat × Nat)
  /-- The bytes with which each line was filled, a map; a line that still holds them is clean (R113). -/
  filled : List (Nat × List Byte)
  deriving DecidableEq, Repr

/-- A group (R98). -/
structure Group where
  role : Nat
  tmrcmp : W64
  /-- Open reconvergence slots with their recorded sets (R159). -/
  slots : List (Nat × List Nat)
  /-- Waited phase of each barrier, a map (R163). -/
  waited : List (Nat × Nat)
  /-- Role that ROLE has named, until the end of its clause and the switch (R110, R176). -/
  next : Option Nat
  deriving DecidableEq, Repr

/-- One team barrier: expected count, arrivals, phase (R163). -/
structure Barrier where
  expect : Nat
  arrived : Nat
  phase : W32
  /-- Flags of the passes that have arrived in the open phase, and of each phase that is complete, a map (R65). -/
  pending : W32
  flags : List (Nat × W32)
  deriving DecidableEq, Repr

/-- One role: entry PC, allotment, priority class (R109). -/
structure Role where
  entry : W64
  allot : Nat
  cls : Nat
  deriving DecidableEq, Repr

/-- A launch record as checked (R115). -/
structure Launch where
  addr : W64
  width : Nat
  progress : Bool
  pair : Bool
  split : Bool
  size : Nat
  gx : Nat
  gy : Nat
  gz : Nat
  roles : List Role
  spadBytes : Nat
  accRows : Nat
  dpf : Nat
  wdog : Nat
  gangP : Nat
  gangF : Nat
  iters : Nat
  perTile : Nat
  stack : Nat
  stream : W64
  dtBase : W64
  dtLen : W32
  segBase : W64
  segSize : Nat
  counter : W64
  /-- k7 to k15. -/
  kInit : List W32
  deriving DecidableEq, Repr

/-- A team (R98, R111, R117, R225-R229). -/
structure Team where
  id : Nat
  handle : W32
  grid : Nat
  teamNo : Nat
  gang : Nat
  rank : Nat
  /-- Teams of its gang (R118). -/
  gangSize : Nat
  /-- The core, or the lower core of the pair (R100). -/
  core : Nat
  asid : BitVec 16
  launch : Launch
  threads : List Thread
  groups : List Group
  barriers : List Barrier
  /-- k0 to k63, a map (R40). -/
  k : List (Nat × W32)
  /-- k registers that wait for a KLD (R49). -/
  kWait : List Nat
  /-- The scratchpad allocation, a map from byte offset (R115). -/
  spad : List Host.Cell
  dpf : W32
  wdog : W32
  /-- The DPF counter and the watchdog counter (R105, R106). -/
  dpfCount : Nat
  wdogCount : Nat
  /-- The running PC set: its threads, and the PC record and role at which it stands (R103). -/
  running : List Nat
  front : W64 × Nat × Nat
  /-- The model's own: the cycle at which the running set came to stand there, so that a thread that has issued since has left it. -/
  turned : Nat
  /-- Sets of threads that entered their next clause by fall-through from one bundle (R28). -/
  fell : List (List Nat)
  /-- CTXEVICT's mark (R226). -/
  marked : Bool
  /-- Save area: physical address and size (R227). -/
  saveArea : Option (Nat × Nat)
  removed : Bool
  /-- What removal saved of the timers: TMRCMP less CLOCK for each group that was armed (R173). -/
  timerLeft : List (Nat × Nat)
  rehearsal : Nat
  ringBase : W64
  ringSize : Nat
  /-- Draws taken under each tag (kind and TID), a map (R78). -/
  draws : List (Nat × Nat)
  /-- First accumulator row of its range (R246). -/
  accBase : Nat
  /-- Its Prompter context, 0 to 7, of the cluster (R251). -/
  ctx : Option Nat
  deriving DecidableEq, Repr

/-! ## Bundles and callee queues (06) -/

/-- A bundle that issues a clause (R101). -/
structure Bundle where
  id : Nat
  team : Nat
  /-- Port slot of its threads (R100). -/
  slot : Nat
  tids : List Nat
  /-- Index of the PC record that its threads were cast from; with their header and role it names the issuing PC set (R101, R138). -/
  start : Nat
  /-- Words of the clause it issues. -/
  count : Nat
  /-- The clause class (R20); the header's NG bit is spent at cast. -/
  cls : Nat
  /-- The cycle before which its first instruction does not issue: the header's stall (R29). -/
  notBefore : Nat
  /-- Its instruction could not issue when it last came up (R33, R34, R104). -/
  stalled : Bool
  deriving DecidableEq, Repr

/-- A callee queue (R108). -/
structure Callee where
  core : Nat
  team : Nat
  pc : W64
  idx : Nat
  role : Nat
  tids : List Nat
  order : Nat
  deriving DecidableEq, Repr

/-! ## Memory, directory and copies (18) -/

/-- An agent that may hold a copy of a line (R337, R349). -/
inductive Sharer where
  | l1 (core : Nat)
  | rdc (die : Nat)
  | control (n : Nat)
  /-- Network port (0) or storage port (1). -/
  | port (n : Nat)
  | host
  /-- The device's own agent for host lines (R349). -/
  | hostPort
  /-- Another device of the domain, which can hold a line of this one in M (R422, log 52). -/
  | device (n : Nat)
  deriving DecidableEq, Repr

/-- State of a copy (R343); `loose` is an untracked copy of a non-coherent access (R351). -/
inductive CopyState where
  | m | o | e | s
  /-- A subscription: format 0 BF16, 1 F16, 2 E4M3, 3 E5M2, and the update bit (R192). -/
  | p (fmt : Nat) (upd : Bool)
  | loose
  deriving DecidableEq, Repr

/-- One agent's copy of one line. -/
structure Copy where
  who : Sharer
  /-- Physical address of the line's first byte. -/
  line : Nat
  st : CopyState
  /-- The line, or under P(f) its rounded elements. -/
  data : List Byte
  deriving DecidableEq, Repr

/-- A directory entry (R338). -/
structure DirEntry where
  /-- Home slice: 64 x die + slice. -/
  slice : Nat
  /-- First byte of the aligned block that the region's lines lie in. -/
  block : Nat
  level : Nat
  sharers : List (Sharer × BitVec 9)
  owner : Option (Sharer × CopyState)
  /-- The cycle from which its region has been quiet (R341). -/
  quiet : Nat
  deriving DecidableEq, Repr

/-- What a probe asks for (R339). Under `update` the holder of a changed format updates its copy where its code carries update, and
otherwise drops it; a copy in a format that has not changed stays (R344). -/
inductive Action where
  | invalidate | update | census
  deriving DecidableEq, Repr

/-- A probe in progress with its reply (R339, R344). -/
structure Probe where
  dest : Sharer
  act : Action
  /-- For each format in the entry's codes: the format and whether changed(f) holds (R344). -/
  changed : List (Nat × Bool)
  /-- The half mask, once answered. -/
  reply : Option Nat
  deriving DecidableEq, Repr

/-- A write applied at its home whose probes are not all answered (R345). -/
structure Txn where
  line : Nat
  /-- The request that the acknowledgement answers. -/
  req : Option Nat
  probes : List Probe
  /-- The line's bytes after the write, and its 4-byte elements that hold a written byte: the E of R344. -/
  data : List Byte
  elems : List Nat
  deriving DecidableEq, Repr

/-- A frame of a slice: four sectors, up to four lines (R334). -/
structure Frame where
  /-- Home slice: 64 x die + slice. -/
  slice : Nat
  lines : List Nat
  deriving DecidableEq, Repr

/-- The slices' storage state (R334-R353). -/
structure Coh where
  /-- Sequence tags, a map from line address (R336). -/
  tags : List (Nat × Nat)
  /-- Lines marked LOST (R353). -/
  lost : List Nat
  /-- Software-managed 64 KiB regions (R352). -/
  managed : List Nat
  /-- The frames in use, the newest first (R334), and the resident lines that are newer than memory (R353). -/
  frames : List Frame
  dirty : List Nat
  /-- The cycle of the last write to each line, a map from line address (R341). -/
  written : List (Nat × Nat)
  copies : List Copy
  dir : List DirEntry
  txns : List Txn
  /-- Counters of R335: key 16 x slice + row, a map. -/
  counters : List (Nat × Nat)
  /-- Frames and entries that lasting errors have taken out of use: key 4096 x storage + unit, a map (R427). -/
  worn : List (Nat × Nat)
  deriving DecidableEq, Repr

/-! ## Translation units (10) -/

/-- A translation held by a unit: a core's L1 TLB, a cluster TLB, a port's or a control processor's (R203, R208). -/
structure Tlb where
  unit : Nat
  asid : Nat
  /-- First virtual byte and length of the block or run. -/
  va : Nat
  len : Nat
  pa : Nat
  /-- Low 15 bits of the leaf entry: its attributes (R206). -/
  attr : Nat
  /-- Physical address of the leaf entry. -/
  leaf : Nat
  deriving DecidableEq, Repr

/-- A shoot-down in progress (R211). -/
structure Shoot where
  id : Nat
  /-- 0 pages, 1 an ASID, 2 all (R180). -/
  kind : Nat
  vas : List Nat
  asid : Nat
  /-- Units that have not yet acknowledged. -/
  units : List Nat
  /-- The bundle that waits for it; none for the cue engine's. -/
  owner : Option Nat
  /-- It clears the marks of a transit (R210). -/
  clears : Bool
  deriving DecidableEq, Repr

/-- A CLB entry: a leaf tile of a volume (R213). -/
structure Clb where
  core : Nat
  asid : Nat
  desc : W64
  tile : Nat
  addr : W64
  deriving DecidableEq, Repr

/-- The answer to a STVOL lane's request (R200, R216): the tile, a stop with its code, level and address, or a page in transit, on which
the lane parks (R185). -/
inductive AllocEnd where
  | tile (va : W64)
  | stop (code level : Nat) (va : W64)
  | park
  deriving DecidableEq, Repr

/-- A STVOL lane's request for a tile (R200): its descriptor, its coordinates, and the answer once it has come. -/
structure Alloc where
  id : Nat
  team : Nat
  tid : Nat
  desc : W64
  tx : Nat
  ty : Nat
  tz : Nat
  answer : Option AllocEnd
  deriving DecidableEq, Repr

/-- Translation units and the caches beside them. -/
structure Units where
  tlb : List Tlb
  /-- Window blocks cached with an ASID's translations: unit, ASID and the 512 bytes (R350). -/
  windows : List (Nat × Nat × List Byte)
  clb : List Clb
  /-- Volume descriptors in use: core, ASID, address and bytes; a change takes effect after a VOLINV of the whole volume (R199). -/
  volumes : List (Nat × Nat × W64 × List Byte)
  allocs : List Alloc
  /-- Instruction words held: core, physical address, word (R30). -/
  icache : List (Nat × Nat × W64)
  shoots : List Shoot
  deriving DecidableEq, Repr

/-! ## Accesses in flight (05, 09, 19) -/

/-- What an operation of a lane delivers when it completes. -/
inductive OpKind where
  /-- A load into consecutive registers; the number is how many. -/
  | load (regs : Nat)
  /-- A subscribed load of this format (R192). -/
  | sub (fmt : Nat)
  /-- LDV: the value, then the tag (R193). -/
  | ldv (regs : Nat)
  | store
  /-- STS (R190). -/
  | sts
  | atom (regs : Nat)
  | red
  /-- GATH: n elements of a size to a scratchpad offset (R359). -/
  | gath (n size off : Nat)
  | scat
  | scata
  | cas4
  /-- A load into one or two k registers (R177). -/
  | kload (regs : Nat)
  /-- POP's element (R387): how many registers, the address of the region's descriptor, the queue index. -/
  | pop (regs : Nat) (desc : W64) (index : W32)
  /-- A prefetch or cache operation that only completes. -/
  | plain
  deriving DecidableEq, Repr

/-- One lane's operation: it completes when every request of it is done. -/
structure Op where
  id : Nat
  team : Nat
  tid : Nat
  core : Nat
  kind : OpKind
  /-- Destination register. -/
  dst : Nat
  tok : Option Nat
  /-- Width of the access in bytes. -/
  bytes : Nat
  /-- Flags that enter FPFLAGS at completion (R357). -/
  flags : W32
  /-- PC record of the instruction that posted it: where its lane stops when its request cannot be served (R353, R422). -/
  pc : W64 := 0
  idx : Nat := 0
  /-- Threads that join with it: those of the bundle that a KLD loads for (R177). -/
  mates : List Nat := []
  deriving DecidableEq, Repr

/-- How far a request has come. -/
inductive Stage where
  /-- In the group's store queue, or not yet sampled. -/
  | queued
  /-- Left the store queue (R88), or on its way to the home. -/
  | sent
  /-- Applied or sampled at the home; probes may be out. -/
  | performed
  /-- Acknowledged. -/
  | done
  deriving DecidableEq, Repr

/-- What a request does at the home. -/
inductive ReqKind where
  | load
  | store
  /-- A scratchpad store in its group's queue: an entry of the store-to-load forwarding table; its address is the offset (R190). -/
  | sts
  | sub (fmt : Nat) (upd : Bool)
  | ldv
  /-- ATOM or RED: operation and type of R356. -/
  | rmw (op ty : Nat)
  /-- An element of a SCAT: the elements of one list operation on one line are one write (R336, R360). -/
  | scat
  /-- CAS4: keys of the entries with tags and lengths (R361). -/
  | cas4 (entries : List (Nat × Nat × Nat))
  deriving DecidableEq, Repr

/-- One request of an operation: the bytes of one line. -/
structure Req where
  id : Nat
  op : Nat
  team : Nat
  tid : Nat
  core : Nat
  kind : ReqKind
  pa : Nat
  len : Nat
  /-- Data to write, or the operand; once performed, what was read. -/
  data : List Byte
  /-- Comparison value of a compare-and-swap; once applied, the tag that the acknowledgement carries (R85, R336). -/
  cmp : List Byte
  /-- Place of these bytes in the whole access, or the element's position in a list. -/
  pos : Nat
  ord : Nat
  sc : Nat
  /-- A non-coherent access (R351). -/
  nc : Bool
  /-- Coherence mode of the page (R209). -/
  cm : Nat
  /-- Virtual address and ASID of its translation, for shoot-downs (R211). -/
  va : Nat
  asid : BitVec 16
  /-- Number of the instruction issue: its lanes' stores to one line are one write (R336). -/
  batch : Nat
  stage : Stage
  /-- Link paths of a domain-scope release whose flush markers are still out (R94). -/
  paths : List Nat
  deriving DecidableEq, Repr

/-- A result of a long-latency arithmetic instruction that is not yet written (R33). -/
structure Result where
  id : Nat
  team : Nat
  tid : Nat
  regs : List (Nat × W32)
  flags : W32
  deriving DecidableEq, Repr

/-- A counter's increment that a later acquire may observe, with the flags that the join delivers (R16, R65). -/
structure Joined where
  /-- Physical key of the counter, and its value after the increment. -/
  key : Nat
  value : Nat
  team : Nat
  core : Nat
  scope : Nat
  flags : W32
  deriving DecidableEq, Repr

/-- A load that read the bytes of a store which has not completed at its home: the thread's later writes wait for it (R88, R90; log 9). -/
structure Seen where
  team : Nat
  tid : Nat
  /-- Numbers of the load's and of the store's request. -/
  load : Nat
  store : Nat
  deriving DecidableEq, Repr

/-- Accesses and results on their way. -/
structure Flight where
  ops : List Op
  reqs : List Req
  results : List Result
  joins : List Joined
  seen : List Seen
  deriving DecidableEq, Repr

/-! ## Ushers (21) -/

/-- An exact sum or extremum of RACC (R388): a NaN, an infinity, or mant * 2^exp. -/
inductive Exact where
  | nan
  | inf (neg : Bool)
  | fin (mant : Int) (exp : Int)
  /-- Negative zero, as long as nothing else has been added. -/
  | negZero
  deriving DecidableEq, Repr

/-- A thread that waits for admission (R374, R384). -/
structure Waiter where
  team : Nat
  tid : Nat
  /-- Slots to reserve (R383). -/
  count : Nat
  deriving DecidableEq, Repr

/-- A live region at its home Usher (R371, R373). -/
structure Region where
  /-- Physical address of the descriptor. -/
  desc : Nat
  base : W64
  n : Nat
  esize : Nat
  queue : Bool
  mask : Nat
  red : Nat
  caps : List Nat
  budget : Nat
  tenure : Nat
  fill : W64
  mode : Option Nat
  occ : Nat
  closing : Bool
  line : List Waiter
  q : List (Nat × List Waiter)
  /-- The cycle at which the open room opened. -/
  opened : Nat
  head : W32
  tail : W32
  rtail : W32
  pidx : W32
  /-- Pending reductions: physical address of the element and exact value of each packed part. -/
  pend : List (Nat × List Exact)
  /-- Occupants of the open room, seats of ENTERM included. -/
  occupants : List (Nat × Nat)
  deriving DecidableEq, Repr

/-- Which instruction placed a demand (R383, R384). -/
inductive EnterKind where
  | enter
  | etry (pred : Nat)
  /-- The pairs seated so far, with the physical addresses of their descriptors, and those still to seat: virtual address, physical
  address, mode. -/
  | enterm (seated : List (Nat × Held)) (rest : List (W64 × Nat × Nat))
  deriving DecidableEq, Repr

/-- A demand: on its way to the Usher, placed there, or answered (R378). -/
structure Demand where
  id : Nat
  team : Nat
  tid : Nat
  /-- Virtual and physical address of the descriptor. -/
  va : W64
  desc : Nat
  mode : Nat
  count : Nat
  kind : EnterKind
  /-- The number of the first demand of its instruction: the demands of one bundle's lanes arrive together (R375). -/
  batch : Nat
  placed : Bool
  /-- The cycle at which it reached the Usher. -/
  at_ : Nat
  /-- The answer: admitted with its first reserved slot and their number, or false. -/
  answer : Option (Bool × W32 × W32)
  deriving DecidableEq, Repr

/-- A LEAVE on its way (R385). -/
structure LeaveMsg where
  id : Nat
  team : Nat
  tid : Nat
  desc : Nat
  deriving DecidableEq, Repr

/-- The Ushers and their messages. -/
structure Ushers where
  regions : List Region
  demands : List Demand
  leaves : List LeaveMsg
  deriving DecidableEq, Repr

/-! ## Cue engines (17) -/

/-- States of a cue in the codes of R315. -/
inductive CueState where
  | free | defined | armed | active | done | faulted | killed
  deriving DecidableEq, Repr

/-- A cue template's node kind (R316). -/
inductive CueKind where
  | copy | walker | launch | stream
  deriving DecidableEq, Repr

/-- A tensor shape record (R318). -/
structure Shape where
  base : W64
  fmt : Nat
  scaled : Bool
  rank : Nat
  flags : Nat
  dims : List Nat
  box : List Nat
  /-- Strides of dims 1 to 3. -/
  strides : List Nat
  deriving DecidableEq, Repr

/-- A cue slot (R314-R330). -/
structure Cue where
  core : Nat
  slot : Nat
  gen : Nat
  st : CueState
  team : Nat
  /-- The thread on whose behalf it runs (R43). -/
  tid : Nat
  asid : BitVec 16
  kind : CueKind
  scope : Nat
  /-- The registers give the destination origin (R316). -/
  regDst : Bool
  rm : Nat
  recA : W64
  recB : W64
  srcScale : W64
  dstScale : W64
  /-- Fixed origin of the other side, and the origin from the registers. -/
  fixed : List W32
  origin : List W32
  src : Option Shape
  dst : Option Shape
  counter : W64
  /-- The count it was defined with, what is left of it, and the edges that reach it (R325). -/
  preds : Nat
  count : Nat
  reached : Nat
  /-- Successors: core and slot, generation. -/
  edges : List (Nat × Nat × Nat)
  progress : Nat
  /-- Page marks are set: leaf entry addresses (R321). -/
  marks : List Nat
  /-- Shoot-down that it waits for (R210). -/
  shoot : Option Nat
  /-- The copy has been started at its resource. -/
  started : Bool
  /-- Every element is performed; only the counter increment is left (R330). -/
  counting : Bool
  /-- A kill has reached it, and it becomes KILLED once it has stopped: a walker job at its instruction boundary, a stream when its
  posted passes are complete (R307, R327). -/
  killing : Bool
  restartable : Bool
  /-- k56-k59 and k61 at definition (R324). -/
  key : List W32
  stream : W32
  flags : W32
  cls : Nat
  /-- Its place in the order in which cues became ACTIVE (R290). -/
  order : Nat
  /-- The order in which it ended, for reuse of its slot (R314). -/
  ended : Nat
  deriving DecidableEq, Repr

/-! ## Format walkers (15) -/

/-- A walker job record (R288). -/
structure Job where
  program : W64
  len : Nat
  fmt : Nat
  dest : Nat
  dropZero : Bool
  ctx : Nat
  rows : Nat
  stride : Nat
  save : W64
  /-- Base slots b0 to b7. -/
  bases : List W64
  /-- Initial w0 to w15. -/
  init : List W32
  deriving DecidableEq, Repr

/-- What a walker context waits for (R287). -/
inductive WalkWait where
  | none
  /-- A load: destination, key of its first byte, bytes, virtual address. -/
  | load (d pa len va : Nat)
  /-- Loads of an element of WMNEXT or WSCAN: key of the first byte and virtual address of each (R300, R301). -/
  | elements (l : List (Nat × Nat))
  /-- WWAIT for ready buffers (R296). -/
  | tiles
  /-- WHALT (R296). -/
  | halt
  /-- WTILE waits until the other buffer is empty (R297). -/
  | buffer
  /-- An access of these bytes, a write or a read, meets a page in a transit state (R185, R294). -/
  | transit (va : W64) (n : Nat) (write : Bool)
  /-- The words of the program, read again, lie on a page in a transit state (R305). -/
  | reload
  deriving DecidableEq, Repr

/-- A tile buffer: empty, or ready with rows taken so far (R297, R298). -/
structure Tile where
  /-- A map from element position to code. -/
  codes : List (Nat × Nat)
  ready : Bool
  taken : Nat
  /-- Place in WTILE order. -/
  order : Nat
  deriving DecidableEq, Repr

/-- A walker context (R286). -/
structure Walker where
  cluster : Nat
  ctx : Nat
  /-- The cue whose job it runs: core and slot. -/
  cue : Option (Nat × Nat)
  team : Nat
  asid : BitVec 16
  job : Job
  /-- The record that it was read from. -/
  record : List Byte
  /-- w0 to w15, a map. -/
  w : List (Nat × W32)
  z : Bool
  n : Bool
  c : Bool
  pc : Nat
  /-- Program memory, a map from word index. -/
  prog : List (Nat × W32)
  /-- Input buffer: the lines that its loads have fetched, with their bytes, the newest first, at most 128. -/
  input : List (Nat × List Byte)
  tiles : List Tile
  /-- Index of the fill buffer. -/
  fill : Nat
  /-- Bound streams of the merge unit: the two position registers (R299). -/
  merge : Option (Nat × Nat)
  wprog : W32
  flags : W32
  wait : WalkWait
  /-- It holds a job. A free context keeps the registers, flags and WPROG of its last job (R313). -/
  running : Bool
  /-- Stopped on a fault, waiting for its cue (R304). -/
  stopped : Bool
  /-- It stands between two elements of a WMNEXT or WSCAN (R300, R301). -/
  mid : Bool
  /-- Its state still lies in the save area of its job (R306). -/
  stored : Bool
  deriving DecidableEq, Repr

/-- A walker cue that waits for a context (R290), with its job record as read when it became ACTIVE; `saved` says that its state lies in
the save area of the record (R306). -/
structure JobLine where
  cluster : Nat
  ctx : Nat
  core : Nat
  slot : Nat
  record : List Byte
  saved : Bool
  deriving DecidableEq, Repr

/-- The walkers with their issue slots (R287) and the jobs that wait for a context (R290). -/
structure Walk where
  ctxs : List Walker
  /-- Context that holds the issue slot of a cluster, a map. -/
  slot : List (Nat × Nat)
  /-- Instructions it has issued since it took the slot, a map. -/
  issued : List (Nat × Nat)
  /-- Cues that wait for a context, in the order in which they became ACTIVE. -/
  jobs : List JobLine
  deriving DecidableEq, Repr

/-! ## Matrix engines and Prompters (12, 13) -/

/-- A weight slot or latch (R238). -/
structure Weights where
  fmt : Nat
  /-- Element codes: key 128 x weight row + column, a map. -/
  codes : List (Nat × Nat)
  scaled : Bool
  /-- Shape of its scale blocks: 0 square, 1 along N, 2 along K (R239, R243). -/
  shape : Nat
  /-- Scale words of blocks, a map: key 16 x block row + block column, 16 x row + block column, or 128 x block row + column. -/
  scales : List (Nat × Nat)
  /-- Weights kept of each 24, or 0 for a dense tile (R244). -/
  keep : Nat
  /-- Positions, keyed as the codes. -/
  pos : List (Nat × Nat)
  deriving DecidableEq, Repr

/-- The quantisation state of MQCFG (R277). -/
structure QuantCfg where
  square : Bool
  baseA : W64
  baseW : W64
  baseO : W64
  deriving DecidableEq, Repr

/-- The update-rule record of MRULE (R273). -/
structure UpdateRule where
  rule : Nat
  rm : Nat
  zero : Bool
  fmt : Nat
  lr : W32
  beta1 : W32
  beta2 : W32
  eps : W32
  decay : W32
  gain : W32
  c1 : W32
  c2 : W32
  copy : W64
  deriving DecidableEq, Repr

/-- Mnemonics that post a pass (R260). -/
inductive PassKind where
  | mma | mmac | mzero | mstc | mturn | mdrain | msave | mload | mepi
  deriving DecidableEq, Repr

/-- A pass in the reservation table (R251-R255). -/
structure Pass where
  id : Nat
  ctx : Nat
  team : Nat
  kind : PassKind
  word : PWord
  hdr : W64
  idx : Nat
  /-- Operand words as read when it was posted: ka pair, kb, kc pair, km pair (R260, R261). -/
  ka : W64
  kb : W32
  kc : W64
  km : W64
  cfg : QuantCfg
  rule : Option UpdateRule
  cls : Nat
  posted : Nat
  /-- The team's ASID when it was posted (R203). -/
  asid : BitVec 16
  granted : Bool
  /-- Its engine is kept for it until the engines of its chain are kept for it as well (R245). -/
  reserved : Bool
  wbDone : Bool
  /-- Next row. -/
  row : Nat
  stopped : Bool
  /-- It has stopped since it was posted: no load behind it commits before it has completed (R264). -/
  halted : Bool
  weights : Option Weights
  codebook : List Nat
  /-- It has been granted, and has latched its weights (R238). -/
  latched : Bool
  /-- It takes A from the reuse latch; it captures A into it (R242). -/
  fromLatch : Bool
  capture : Bool
  flags : W32
  /-- Blocks that have been quantised, row by row (R243, R270): key 1024 x row + column; scale words plus 1. -/
  aCodes : List (Nat × Nat)
  aScales : List (Nat × Nat)
  /-- Members of its chain, the head first; none but itself without one (R245). -/
  partners : List Nat
  /-- Key, stream, first coordinate and row length of the keyed generator, as read when it was posted (R271). -/
  key : List W32
  stream : W32
  coord : W64
  rowLen : W32
  /-- The header that MLOAD has read (R275). -/
  header : List Byte
  /-- 1 - beta1 and 1 - beta2, rounded when posted (R274). -/
  omb1 : W32
  omb2 : W32
  /-- Rows were written, and nothing but completion is left. -/
  finished : Bool
  /-- The cycle at which it last took the engine: cycles from then to a stop are not waited (R252). -/
  grantedAt : Nat
  deriving DecidableEq, Repr

/-- Run state of a Prompter context (R251, R255). -/
inductive PromptState where
  | idle | running | stopped
  /-- MEND was executed; posted passes are not all complete (R279). -/
  | ending
  deriving DecidableEq, Repr

/-- A Prompter context (R251-R257). -/
structure Prompter where
  cluster : Nat
  ctx : Nat
  team : Nat
  st : PromptState
  hdr : W64
  idx : Nat
  /-- Words of the clause, once its header has been read; 0 before. -/
  count : Nat
  slot : Option Weights
  codebook : Option (List Nat)
  /-- MPROG: the next row of the pass in progress, or the row at which the next pass starts (R255, R278). -/
  mprog : Nat
  /-- Phases consumed of each barrier, a map (R165). -/
  consumed : List (Nat × W32)
  ckpt : Nat
  cfg : QuantCfg
  rule : Option UpdateRule
  /-- Flags of loads, for the pass that next joins (R266). -/
  flags : W32
  /-- The word in hand has consumed its wb phase. -/
  wbDone : Bool
  /-- The staged load of the word in hand, waiting for its commit (R264). -/
  staged : Option (Option Weights × Option (List Nat) × W32)
  /-- The walker context and the ready buffer, by its place in WTILE order, that the commit takes (R298). -/
  stagedFrom : Option (Nat × Nat)
  /-- The cue that started its stream (R317). -/
  cue : Option (Nat × Nat)
  deriving DecidableEq, Repr

/-- The reuse latch (R242). -/
structure Reuse where
  ctx : Nat
  /-- What names its A source: format, kind, location, extent, mode word, tr, tile depth and scale base. -/
  fmt : Nat
  kind : Nat
  loc : W64
  extent : W32
  mode : W32
  tr : Nat
  depth : Nat
  base : W64
  /-- The first row that was captured. -/
  first : Nat
  /-- Captured codes and scale words plus 1: key 1024 x row + k, maps. -/
  codes : List (Nat × Nat)
  scales : List (Nat × Nat)
  /-- Flags that the read of each captured row sets, a map. -/
  flags : List (Nat × W32)
  deriving DecidableEq, Repr

/-- One cluster's matrix engine (R236, R246, R252). -/
structure Engine where
  cluster : Nat
  /-- Accumulator words: key 128 x row + column, a map. -/
  acc : List (Nat × W32)
  /-- Checkpoint ID of each 64-row block, a map (R256). -/
  tags : List (Nat × Nat)
  reuse : Option Reuse
  table : List Pass
  deriving DecidableEq, Repr

/-- The matrix engines. -/
structure Matrix where
  engines : List Engine
  ctxs : List Prompter
  /-- Contexts and passes of teams that have been removed (R228). -/
  awayCtxs : List Prompter
  away : List Pass
  /-- Next checkpoint ID (R256). -/
  nextCkpt : Nat
  deriving DecidableEq, Repr

/-! ## Noise sources (04 R76-R81) -/

/-- Who consumes the draws of a request. -/
inductive Drawer where
  /-- NOISE of a lane in live mode: the two draws are delivered to this register (R154). -/
  | noise (dst : Nat)
  /-- An instruction of a lane under rm 5, or a NOISE in rehearsal or replay mode: it issues once it has them all (R67, R81). -/
  | lane
  /-- An element of the copy in a cue slot (R320). -/
  | cue (core slot : Nat)
  /-- A row of the pass of this number. -/
  | pass (id : Nat)
  deriving DecidableEq, Repr

/-- A request for draws with the record kind and TID of its tag (R76, R78). -/
structure DrawReq where
  id : Nat
  cluster : Nat
  team : Nat
  kind : Nat
  tid : Nat
  who : Drawer
  need : Nat
  /-- Draws received so far. -/
  got : List Nat
  /-- In replay mode, the indices of the records that the last draws come from and that are not taken yet (log 54). -/
  slots : List Nat
  /-- A fault has stopped the consumer between two draws; the request goes on when the consumer asks again (R81). -/
  held : Bool
  deriving DecidableEq, Repr

/-- The clusters' noise sources. -/
structure Noise where
  /-- Clusters whose health test reports a failure. -/
  failing : List Nat
  /-- Requests in order of receipt. -/
  reqs : List DrawReq
  /-- Draws delivered so far: the counter that the free draws are read by. -/
  drawn : Nat
  /-- Records of replayed rings that have been taken and lie beyond an earlier one that has not: the launch, which has one ring, and the
  index (R80, R111). -/
  taken : List (Nat × Nat)
  deriving DecidableEq, Repr

/-! ## Distribution (06, 10) -/

/-- Who launched a grid: its completion goes there (R166, R317, R419). -/
inductive Origin where
  | queue (q : Nat) (tag : W64)
  | thread (team : Nat)
  | cue (core slot gen : Nat)
  deriving DecidableEq, Repr

/-- A grid at its die distributor. -/
structure Grid where
  id : Nat
  die : Nat
  recAddr : W64
  asid : BitVec 16
  launch : Launch
  origin : Origin
  cls : Nat
  /-- Teams placed so far, and teams retired. -/
  placed : Nat
  retired : Nat
  status : Nat
  deriving DecidableEq, Repr

/-- A task-queue entry: the copy of a child launch record (R122). -/
structure Task where
  die : Nat
  addr : W64
  asid : BitVec 16
  bytes : List Byte
  origin : Origin
  cls : Nat
  deriving DecidableEq, Repr

/-- A completion-counter increment that is held (R432), or has not yet been made. -/
structure Increment where
  die : Nat
  counter : W64
  recAddr : W64
  asid : BitVec 16
  /-- It stopped, and waits for a counter-retry command. -/
  held : Bool
  grid : Nat
  origin : Origin
  status : Nat
  /-- The counter has its increment; the completion entry waits for launches of the same queue that retired before (R420). -/
  made : Bool := false
  deriving DecidableEq, Repr

/-- The distributors. -/
structure Dist where
  grids : List Grid
  tasks : List Task
  increments : List Increment
  /-- Generation of each resident-table slot: key 16384 x die + slot, a map (R225). -/
  gens : List (Nat × Nat)
  deriving DecidableEq, Repr

/-! ## Traps (10) -/

/-- A trap record (R219), and the parked lanes or engine behind it. -/
structure TrapRec where
  /-- Number of the parked sub-group. -/
  sub : Nat
  die : Nat
  handle : W32
  team : Nat
  tid : Nat
  code : Nat
  kind : Nat
  restart : Bool
  mask : W64
  pc : W64
  idx : Nat
  under : Nat
  access : Nat
  level : Nat
  ident : W32
  va : W64
  progress : W64
  /-- Already in the ring. -/
  written : Bool
  deriving DecidableEq, Repr

/-- One die's trap ring (R220, R430). -/
structure Ring where
  base : Nat
  size : Nat
  server : Nat
  set_ : Bool
  produced : W64
  consumed : W64
  deriving DecidableEq, Repr

/-- Trap records and rings. -/
structure Traps where
  records : List TrapRec
  rings : List Ring
  /-- Trap interrupts raised at each control processor, a map (R220). -/
  raised : List (Nat × Nat)
  deriving DecidableEq, Repr

/-! ## Control space, host, ports and links (25) -/

/-- A completion entry that the front distributor holds (R419). -/
structure Completion where
  queue : Nat
  tag : W64
  status : Nat
  deriving DecidableEq, Repr

/-- One port queue that is enabled (R423). -/
structure PortQueue where
  port : Nat
  queue : Nat
  subBase : W64
  compBase : W64
  asid : BitVec 16
  size : Nat
  /-- Work completions written so far. -/
  done : Nat
  deriving DecidableEq, Repr

/-- An entry of the stage-door log (R428). -/
structure LogEntry where
  clock : W64
  kind : Nat
  die : Nat
  unit : Nat
  detail : W32
  addr : Nat
  deriving DecidableEq, Repr

/-- Control space and what hangs on it. -/
structure Ctl where
  /-- Registers of control space by byte offset, eight bytes each, a map (R417): the bring-up block, the host queue blocks, the
  apertures, the access tables, the telemetry and the mailbox. -/
  regs : List (Nat × W64)
  /-- The supervisor reached ready (R430 step 8). -/
  ready : Bool
  halted : Bool
  log : List LogEntry
  /-- Entries ever logged (R428). -/
  logged : Nat
  completions : List Completion
  ports : List PortQueue
  /-- Link paths that are down: device and path (R422). -/
  down : List (Nat × Nat)
  unreachable : List Nat
  /-- SM3 of the bring-up block and the access tables as they stood at ready (R426). -/
  measured : List Byte
  /-- The lower words of 16-byte commands whose upper word has not come, by port offset (R417). -/
  halves : List (Nat × W64)
  /-- The ASID that each control processor's software has loaded, a map (R203). -/
  asids : List (Nat × BitVec 16)
  deriving DecidableEq, Repr

/-! ## Who moves -/

/-- A cache whose entry may leave at any time (R338, R343; 10 R208; 03 R30). -/
inductive Cache where
  | tlb (unit va : Nat)
  /-- A copy in S, P(f), E or an untracked one: a silent eviction. -/
  | copy (who : Sharer) (line : Nat)
  | clb (core tile : Nat)
  | code (core pa : Nat)
  | frame (line : Nat)
  deriving DecidableEq, Repr

/-- What moves in one step. Every turn is an arbitration choice that the spec leaves open (R12, R104). -/
inductive Turn where
  /-- A bundle issues its next instruction. -/
  | bundle (id : Nat)
  /-- A Prompter context executes or posts its next word. -/
  | prompter (cluster ctx : Nat)
  /-- A walker issues one word of the context that holds the slot. -/
  | walker (cluster : Nat)
  /-- A step of the part that has a row of its own. -/
  | event (i : Instr)
  /-- The oldest store of a group leaves its queue (R88). -/
  | drain (team group : Nat)
  /-- A copy performs its next element, or its next block (R317). -/
  | element (core slot : Nat)
  /-- A pass performs its next row (R248). -/
  | row (cluster : Nat)
  /-- A wait of a thread is looked at again (R110, R196, R328). -/
  | wake (team tid : Nat)
  /-- A cache drops an entry. -/
  | evict (c : Cache)
  /-- A write-back agent stores to a line that it owns (R343). -/
  | own (who : Sharer) (line : Nat) (cells : List Host.Cell)
  /-- A control processor reads a line shared (R343). -/
  | share (who : Sharer) (line : Nat)
  /-- A port reads a line of its rings or of a buffer, at a virtual address of one of its queues (R343, R423). -/
  | portRead (port queue : Nat) (va : W64)
  /-- Another device reads a line of this device's memory, or writes bytes of it (R94, R424). -/
  | remote (dev line : Nat) (cells : List Host.Cell)
  /-- The sensors of an island write its telemetry block (R429, log 7). -/
  | sense (island : Nat)
  /-- A warm reset from outside (R428, log 85). -/
  | warmReset
  /-- The supervisor software of a control processor loads the ASID of its translation unit (R203; log 79). -/
  | loadAsid (n : Nat) (asid : BitVec 16)
  /-- A control processor reads the line of a virtual address under the ASID it has loaded (R203; log 79). -/
  | controlRead (n : Nat) (va : W64)
  deriving DecidableEq, Repr, Inhabited

/-- Who issues the instruction that `exec` runs. -/
inductive Agent where
  | none
  | bundle (id : Nat)
  | prompter (cluster ctx : Nat)
  | walker (cluster ctx : Nat)
  deriving DecidableEq, Repr

/-- The module. -/
structure State where
  /-- Memory, a map from physical address; a byte that is not listed is zero (log 5). Host memory and remote memory have their
  physical addresses too; a remote line is named by device, so that two apertures of one device name one line. -/
  mem : List Host.Cell
  coh : Coh
  units : Units
  teams : List Team
  bundles : List Bundle
  callees : List Callee
  flight : Flight
  ushers : Ushers
  cues : List Cue
  walk : Walk
  mx : Matrix
  noise : Noise
  dist : Dist
  traps : Traps
  ctl : Ctl
  /-- Cycles since reset; an island's CLOCK is this and a free skew (log 7). -/
  time : Nat
  /-- Free choices read so far: the model's own (log 8). -/
  choices : Nat
  /-- Turns that are already chosen: the model's own (log 1). -/
  agenda : List Turn
  /-- Who issues: the model's own (log 8). -/
  cur : Agent
  /-- Next number for bundles, requests, demands and the like: the model's own (log 8). -/
  nextId : Nat
  deriving DecidableEq, Repr

/-- Why a step stops with a fault. -/
inductive Fault where
  /-- Raised by `exec` when no bundle, Prompter context or walker context issues the instruction it is given. `step` never
  asks for that, so it is safe. -/
  | noIssuer
  deriving DecidableEq, Repr

/-- Why a step has no meaning. -/
inductive Refusal where
  /-- Raised by an arm of `exec` whose instruction has no meaning yet; safe, since nothing can be proved of a next state. -/
  | notModelled (mnemonic : String)
  deriving DecidableEq, Repr

/-- A ring that bring-up has not set: it counts as full (R220). -/
def State.ringAtReset : Ring where
  base := 0
  size := 0
  server := 0
  set_ := false
  produced := 0
  consumed := 0

/-- The module right after reset: no team, no job, no request; every tag 0 and every access table invalid (R336, R424, R430). -/
def State.reset : State where
  mem := []
  coh := { tags := [], lost := [], managed := [], frames := [], dirty := [], written := [], copies := [], dir := [], txns := [], counters := [],
           worn := [] }
  units := { tlb := [], windows := [], clb := [], volumes := [], allocs := [], icache := [], shoots := [] }
  teams := []
  bundles := []
  callees := []
  flight := { ops := [], reqs := [], results := [], joins := [], seen := [] }
  ushers := { regions := [], demands := [], leaves := [] }
  cues := []
  walk := { ctxs := [], slot := [], issued := [], jobs := [] }
  mx := { engines := [], ctxs := [], awayCtxs := [], away := [], nextCkpt := 1 }
  noise := { failing := [], reqs := [], drawn := 0, taken := [] }
  dist := { grids := [], tasks := [], increments := [], gens := [] }
  traps := { records := [], rings := List.replicate 8 State.ringAtReset, raised := [] }
  ctl := { regs := [], ready := false, halted := false, log := [], logged := 0, completions := [], ports := [], down := [],
           unreachable := [], measured := [], halves := [], asids := [] }
  time := 0
  choices := 0
  agenda := []
  cur := .none
  nextId := 0

end Sys2Proof.Machine
end

