-- ==== Sys2Proof/Machine/Maps.lean ====
section
/-! DEFINITION. Maps held as lists of pairs, little-endian bytes, and the physical address space (02 R11, 25 R416, R421, R424). -/

namespace Sys2Proof.Machine

open Sys2Proof

/-- The value at key `a`, or `d` where the map lists none. -/
def look {α : Type} (d : α) : List (Nat × α) → Nat → α
  | [], _ => d
  | (k, v) :: r, a => if k = a then v else look d r a

/-- Inserts a pair before the first larger key. -/
def insertKey {α : Type} (a : Nat) (v : α) : List (Nat × α) → List (Nat × α)
  | [] => [(a, v)]
  | (k, w) :: r => if a < k then (a, v) :: (k, w) :: r else (k, w) :: insertKey a v r

/-- The map with key `a` given value `v`; the value `d` is not listed. -/
def keep {α : Type} [DecidableEq α] (d : α) (m : List (Nat × α)) (a : Nat) (v : α) : List (Nat × α) :=
  if v = d then m.filter (fun c => c.1 ≠ a) else insertKey a v (m.filter fun c => c.1 ≠ a)

/-- Strictly ascending keys, all above `lo`. -/
def ascending {α : Type} : List (Nat × α) → Bool
  | [] => true
  | [_] => true
  | a :: b :: r => a.1 < b.1 && ascending (b :: r)

/-- The canonical form of a map: keys strictly ascending, no entry equal to what an unlisted key reads as. -/
def wfMap {α : Type} [DecidableEq α] (d : α) (m : List (Nat × α)) : Bool :=
  ascending m && m.all fun c => c.2 ≠ d

/-- What a byte of memory that nothing has written reads as (R430 step 2 clears device memory; log 5). -/
def blankByte : Byte := 0

/-- The canonical form of memory. -/
def Memory.wf (m : List Host.Cell) : Bool := wfMap blankByte m

/-- One byte of a memory. -/
def getByte (m : List Host.Cell) (a : Nat) : Byte := look blankByte m a

/-- A memory with one byte written. -/
def putByte (m : List Host.Cell) (a : Nat) (b : Byte) : List Host.Cell := keep blankByte m a b

/-- `n` bytes from `a` upwards. -/
def getBytes (m : List Host.Cell) (a : Nat) : Nat → List Byte
  | 0 => []
  | n + 1 => getByte m a :: getBytes m (a + 1) n

/-- A memory with the bytes of a list written from `a` upwards. -/
def putBytes (m : List Host.Cell) (a : Nat) : List Byte → List Host.Cell
  | [] => m
  | b :: r => putBytes (putByte m a b) (a + 1) r

/-- The number that bytes make, lowest address first (R1). -/
def ofBytes : List Byte → Nat
  | [] => 0
  | b :: r => b.toNat + 256 * ofBytes r

/-- The `n` low bytes of a number, lowest first. -/
def toBytes : Nat → Nat → List Byte
  | 0, _ => []
  | n + 1, v => BitVec.ofNat 8 v :: toBytes n (v / 256)

/-- A little-endian field of a record. -/
def fieldOf (b : List Byte) (i n : Nat) : Nat := ofBytes ((b.drop i).take n)

/-- A little-endian number in memory. -/
def getLe (m : List Host.Cell) (a n : Nat) : Nat := ofBytes (getBytes m a n)

/-- A memory with a little-endian number written. -/
def putLe (m : List Host.Cell) (a n v : Nat) : List Host.Cell := putBytes m a (toBytes n v)

/-- The members of a list that a test picks, changed; the others as they were. -/
def updWhere {α : Type} (l : List α) (p : α → Bool) (f : α → α) : List α :=
  l.map fun a => if p a then f a else a

/-- The first `n` members of a list that a test picks, and every other member. -/
def firstOf {α : Type} (p : α → Bool) : Nat → List α → List α
  | _, [] => []
  | 0, a :: r => if p a then firstOf p 0 r else a :: firstOf p 0 r
  | n + 1, a :: r => if p a then a :: firstOf p n r else a :: firstOf p (n + 1) r

/-- The first line byte of an address (R5: lines of 128 bytes). -/
def lineOf (a : Nat) : Nat := a / 128 * 128

/-- Home die of a device address (R11). -/
def homeDie (a : Nat) : Nat := bitsOf a 37 3

/-- Home slice of a device address on its die (R11). -/
def homeSlice (a : Nat) : Nat :=
  bitsOf a 7 6 ^^^ bitsOf a 13 6 ^^^ bitsOf a 19 6 ^^^ bitsOf a 25 6 ^^^ bitsOf a 31 6

/-- HOME of a device address as one number, 64 x die + slice (R11, R424). -/
def home (a : Nat) : Nat := 64 * homeDie a + homeSlice a

/-- The parts of the physical address space (R416). -/
inductive Space where
  | device
  | control
  | host
  /-- A remote device's memory: device ID and offset (R421). -/
  | remote (dev off : Nat)
  | nowhere
  deriving DecidableEq, Repr

/-- A control-space register (R417). -/
def Ctl.reg (c : Ctl) (off : Nat) : W64 := look 0 c.regs off

/-- A control-space register written. -/
def Ctl.setReg (c : Ctl) (off : Nat) (v : W64) : Ctl := { c with regs := keep 0 c.regs off v }

/-- The device ID, as bring-up sets it (R430). -/
def deviceId (c : Ctl) : Nat := bitsOf (c.reg 0x38).toNat 0 14

/-- The part of the address space that holds a physical address (R416, R421). -/
def spaceOf (c : Ctl) (pa : Nat) : Space :=
  if pa < 2 ^ 40 then .device
  else if pa < 2 ^ 41 then .control
  else if 2 ^ 50 ≤ pa ∧ pa < 2 ^ 51 then .host
  else if 2 ^ 51 ≤ pa ∧ pa < 2 ^ 52 then
    let e := c.reg (0x1000000 + 8 * bitsOf pa 40 11)
    let dev := bitsOf e.toNat 0 14
    if bitOf e.toNat 14 ∧ dev < 9216 ∧ dev ≠ deviceId c ∧ ¬ c.unreachable.contains dev then .remote dev (bitsOf pa 0 40) else .nowhere
  else .nowhere

/-- The key in memory of a physical address; a remote line is named by its device. -/
def memKey (c : Ctl) (pa : Nat) : Nat :=
  match spaceOf c pa with
  | .remote dev off => 2 ^ 52 + dev * 2 ^ 40 + off
  | _ => pa

/-- A copy that is newer than its home copy (R343). -/
def Copy.modified (c : Copy) : Bool := c.st = .m || c.st = .o

/-- One byte as a coherent read at its home delivers it: an owner's modified copy, or memory. -/
def State.peek (s : State) (a : Nat) : Byte :=
  match s.coh.copies.find? fun c => c.line = lineOf a && c.modified with
  | some c => c.data.getD (a - c.line) 0
  | none => getByte s.mem a

/-- `n` bytes of coherent reads from `a` upwards. -/
def State.peekBytes (s : State) (a n : Nat) : List Byte := (List.range n).map fun i => s.peek (a + i)

/-- A little-endian number of a coherent read. -/
def State.peekLe (s : State) (a n : Nat) : Nat := ofBytes (s.peekBytes a n)

/-- The target of R424 that a physical address belongs to. -/
def targetOf (c : Ctl) (pa : Nat) : Nat :=
  match spaceOf c pa with
  | .device => home pa
  | .host => 512
  | .remote _ _ => 513
  | _ => 515

/-- Entry `e` of the access table of target `t` for master class `cls` lets an access through (R424). -/
def entryPasses (c : Ctl) (t cls e pa : Nat) (write : Bool) : Bool :=
  let lo := (c.reg (0x2000000 + 0x1000 * t + 0x100 * cls + 16 * e)).toNat
  let hi := (c.reg (0x2000000 + 0x1000 * t + 0x100 * cls + 16 * e + 8)).toNat
  let all := lo + 2 ^ 64 * hi
  let base := bitsOf all 0 48 * 16
  let limit := bitsOf all 48 48 * 16
  let rights := bitsOf all 96 8
  bitOf rights 2 && bitOf rights (if write then 1 else 0) && base ≤ pa && pa < limit

/-- Some valid entry of the target's table covers the address with the right (R424). -/
def accessPasses (c : Ctl) (cls pa : Nat) (write : Bool) : Bool :=
  (List.range 16).any fun e => entryPasses c (targetOf c pa) cls e pa write

/-- The master class of an agent that takes lines for itself (R424): control processors 1, the host 2, the network ports 3 and the storage
port 4, other devices 5. The device's own caches act for the compute cores. -/
def Sharer.master (who : Sharer) : Nat :=
  match who with
  | .control _ => 1
  | .host => 2
  | .port n => 3 + n
  | .device _ => 5
  | _ => 0

/-- The home of a line lets an agent read it, or write it (R424). -/
def State.lets (s : State) (who : Sharer) (line : Nat) (write : Bool) : Bool := accessPasses s.ctl who.master line write

/-- How many frames or entries of a unit's storage are out of use, by the storage numbers of log 19 (R427). -/
def Coh.wornOut (c : Coh) (storage unit : Nat) : Nat := look 0 c.worn (4096 * storage + unit)

/-- A unit's storage that is disabled since a bring-up which found no spare for it (R427). -/
def Coh.off (c : Coh) (storage unit : Nat) : Bool := 2 ^ 40 ≤ c.wornOut storage unit

/-- One more frame or entry of a unit's storage is out of use (R427). -/
def Coh.wear (c : Coh) (storage unit : Nat) : Coh :=
  { c with worn := keep 0 c.worn (4096 * storage + unit) (c.wornOut storage unit + 1) }

/-- The cluster and the die of a core (R10). A number from 2,048 on names the cue slots that a removed team has taken with it from a
core (R331); their running copies stay with that core's cluster. -/
def coreCluster (core : Nat) : Nat := core % 2048 / 4
def coreDie (core : Nat) : Nat := core % 2048 / 256
def clusterDie (cluster : Nat) : Nat := cluster / 64

end Sys2Proof.Machine
end

