-- ==== Sys2Proof/Machine/Flags.lean ====
section
/-! DEFINITION. The sticky flags (04 R64), the number formats (R51-R56), rounding with its flags (R57-R63, R66) and the integer
clamp (07 R127). -/

namespace Sys2Proof.Machine

open Sys2Proof

/-! ## The flag bits of R64 -/

abbrev Flag := W32

def flagNX : Flag := 0x01
def flagUF : Flag := 0x02
def flagOF : Flag := 0x04
def flagDZ : Flag := 0x08
def flagNV : Flag := 0x10
def flagIW : Flag := 0x20
def flagSA : Flag := 0x40

/-- A flag when a condition holds. -/
def flagIf (b : Bool) (f : Flag) : Flag := if b then f else 0

/-! ## Formats -/

/-- What a format's all-ones exponent means (R52). -/
inductive Top where
  /-- Infinities and NaNs. -/
  | ieee
  /-- One NaN per sign, S.1111.111; no infinity. -/
  | oneNan
  /-- Finite numbers only. -/
  | finite
  deriving DecidableEq, Repr

/-- A floating-point format (R52). -/
structure Fmt where
  exp : Nat
  frac : Nat
  bias : Nat
  top : Top
  deriving DecidableEq, Repr

def fmtF64 : Fmt := ⟨11, 52, 1023, .ieee⟩
def fmtF32 : Fmt := ⟨8, 23, 127, .ieee⟩
def fmtF16 : Fmt := ⟨5, 10, 15, .ieee⟩
def fmtBF16 : Fmt := ⟨8, 7, 127, .ieee⟩
def fmtE4M3 : Fmt := ⟨4, 3, 7, .oneNan⟩
def fmtE5M2 : Fmt := ⟨5, 2, 15, .ieee⟩
def fmtE3M2 : Fmt := ⟨3, 2, 3, .finite⟩
def fmtE2M3 : Fmt := ⟨2, 3, 1, .finite⟩
def fmtE2M1 : Fmt := ⟨2, 1, 1, .finite⟩

/-- Bits of an element. -/
def Fmt.bits (f : Fmt) : Nat := 1 + f.exp + f.frac
/-- Precision, counting the hidden bit (R66). -/
def Fmt.prec (f : Fmt) : Nat := f.frac + 1
/-- Exponent of the minimum normal. -/
def Fmt.emin (f : Fmt) : Int := 1 - (f.bias : Int)
/-- Encoding of the largest finite magnitude (R52). -/
def Fmt.maxCode (f : Fmt) : Nat :=
  match f.top with
  | .ieee => (2 ^ f.exp - 1) * 2 ^ f.frac - 1
  | .oneNan => 2 ^ (f.exp + f.frac) - 2
  | .finite => 2 ^ (f.exp + f.frac) - 1
/-- Encoding of +infinity. -/
def Fmt.infCode (f : Fmt) : Nat := (2 ^ f.exp - 1) * 2 ^ f.frac
/-- The canonical NaN (R62). -/
def Fmt.nanCode (f : Fmt) : Nat :=
  match f.top with
  | .ieee => f.infCode + 2 ^ (f.frac - 1)
  | .oneNan => 2 ^ (f.exp + f.frac) - 1
  | .finite => 0
def Fmt.signBit (f : Fmt) (neg : Bool) : Nat := if neg then 2 ^ (f.exp + f.frac) else 0

/-! ## Values -/

/-- An exact value, or one known to lie strictly between m * 2^e and (m + 1) * 2^e when `sticky` holds. -/
inductive Val where
  /-- Sign, signalling, and the fraction with its quiet bit, left-aligned in 52 bits. -/
  | nan (neg sig : Bool) (top : Nat)
  | inf (neg : Bool)
  | zero (neg : Bool)
  /-- m is not zero, unless the value is sticky. -/
  | num (neg : Bool) (m : Nat) (e : Int) (sticky : Bool)
  deriving DecidableEq, Repr

/-- The value a code encodes (R52). -/
def Fmt.decode (f : Fmt) (code : Nat) : Val :=
  let neg := bitOf code (f.exp + f.frac)
  let e := bitsOf code f.frac f.exp
  let m := bitsOf code 0 f.frac
  let ones := 2 ^ f.exp - 1
  if f.top = .ieee ∧ e = ones then
    if m = 0 then .inf neg else .nan neg (!bitOf m (f.frac - 1)) (m * 2 ^ (52 - f.frac))
  else if f.top = .oneNan ∧ e = ones ∧ m = 2 ^ f.frac - 1 then .nan neg false (2 ^ 51)
  else if e = 0 then
    if m = 0 then .zero neg else .num neg m (f.emin - f.frac) false
  else .num neg (m + 2 ^ f.frac) ((e : Int) - f.bias - f.frac) false

/-- `n` bits needed for a number. -/
def bitLen (n : Nat) : Nat := if n = 0 then 0 else Nat.log2 n + 1

/-- m * 2^e for e ≥ 0, or m / 2^(-e) rounded down. -/
def shiftNat (m : Nat) (e : Int) : Nat :=
  match e with
  | .ofNat k => m * 2 ^ k
  | .negSucc k => m / 2 ^ (k + 1)

/-- The multiple of 2^unit below a magnitude, what is left over, and the size of 2^unit in the same measure. -/
def splitAt (m : Nat) (e unit : Int) : Nat × Nat × Nat :=
  if unit ≤ e then (m * 2 ^ (e - unit).toNat, 0, 1)
  else
    let d := (unit - e).toNat
    (m / 2 ^ d, m % 2 ^ d, 2 ^ d)

/-- Whether a magnitude n + rem/den (a little more when sticky) rounds up to n + 1 (R58, R66). `draw` is the 16-bit draw of SR. -/
def roundsUp (rm : Nat) (neg : Bool) (draw n rem den : Nat) (sticky : Bool) : Bool :=
  let inexact := rem ≠ 0 || sticky
  match rm with
  | 0 => 2 * rem > den || (2 * rem = den && (sticky || n % 2 = 1))
  | 1 => false
  | 2 => neg && inexact
  | 3 => !neg && inexact
  | 4 => 2 * rem ≥ den
  | _ => inexact && 65536 * rem + draw * den ≥ 65536 * den

/-- A nonzero magnitude rounded at spacing 2^unit: the multiple and whether it differs from the exact value. -/
def roundAt (rm : Nat) (neg : Bool) (draw m : Nat) (e unit : Int) (sticky : Bool) : Nat × Bool :=
  let (n, rem, den) := splitAt m e unit
  (if roundsUp rm neg draw n rem den sticky then n + 1 else n, rem ≠ 0 || sticky)

/-- An infinite result (R59): its code and the SA flag. -/
def Fmt.infResult (f : Fmt) (neg sat : Bool) : Nat × Flag :=
  match f.top with
  | .ieee => if sat then (f.signBit neg + f.maxCode, flagSA) else (f.signBit neg + f.infCode, 0)
  | .oneNan => if sat then (f.signBit neg + f.maxCode, flagSA) else (f.signBit neg + f.nanCode, 0)
  | .finite => (f.signBit neg + f.maxCode, flagSA)

/-- An overflow under a rounding code (R58, R59): OF and NX, and the value of the mode's table. -/
def Fmt.overflow (f : Fmt) (rm : Nat) (neg sat : Bool) : Nat × Flag :=
  if rm = 1 || (rm = 2 && !neg) || (rm = 3 && neg) then (f.signBit neg + f.maxCode, flagOF ||| flagNX)
  else
    let (c, g) := f.infResult neg sat
    (c, g ||| flagOF ||| flagNX)

/-- A tiny result: nonzero, and below the minimum normal after rounding with an unbounded exponent (R60). -/
def Fmt.tiny (f : Fmt) (rm : Nat) (neg : Bool) (draw m : Nat) (e : Int) (sticky : Bool) : Bool :=
  let lg := e + (bitLen m : Int) - 1
  if f.emin ≤ lg then false else
  let unit := lg - f.frac
  let (n, _) := roundAt rm neg draw m e unit sticky
  -- n * 2^unit < 2^emin
  n < shiftNat 1 (f.emin - unit)

/-- A nonzero exact result rounded once to a format (R57-R60, R66). -/
def Fmt.roundNum (f : Fmt) (rm draw : Nat) (sat neg : Bool) (m : Nat) (e : Int) (sticky : Bool) : Nat × Flag :=
  let lg := e + (bitLen m : Int) - 1
  let ex := if lg < f.emin then f.emin else lg
  let (n, inexact) := roundAt rm neg draw m e (ex - f.frac) sticky
  let (n', ex') := if n = 2 ^ f.prec then (2 ^ f.frac, ex + 1) else (n, ex)
  let code := if n' < 2 ^ f.frac then n' else ((ex' + f.bias).toNat - 1) * 2 ^ f.frac + n'
  if 2 ^ f.frac ≤ n' ∧ f.maxCode < code then f.overflow rm neg sat
  else
    let fl := flagIf inexact flagNX ||| flagIf (inexact && f.tiny rm neg draw m e sticky) flagUF
    (f.signBit neg + code, fl)

/-- A NaN delivered in a format (R62); the formats without NaN take +0 with the invalid flag (R63). -/
def Fmt.nanOf (f : Fmt) (neg : Bool) (top : Nat) : Nat × Flag :=
  match f.top with
  | .ieee => (f.signBit neg + f.infCode + (top ||| 2 ^ 51) / 2 ^ (52 - f.frac), 0)
  | .oneNan => (f.signBit neg + f.nanCode, 0)
  | .finite => (0, flagNV)

/-- ROUND_TO of an exact result (R57): special values by R62 and R63, zero by its sign. `conv` says that an infinite value here is a
conversion's source, which the formats without infinity turn away with the invalid flag (R63). -/
def Fmt.round (f : Fmt) (rm draw : Nat) (sat : Bool) (v : Val) : Nat × Flag :=
  match v with
  | .nan neg sig top =>
    let (c, g) := f.nanOf neg top
    (c, g ||| flagIf sig flagNV)
  | .inf neg =>
    match f.top with
    | .ieee => (f.signBit neg + f.infCode, 0)
    | _ =>
      let (c, g) := f.infResult neg sat
      (c, g ||| flagNV)
  | .zero neg => (f.signBit neg, 0)
  | .num neg m e sticky => f.roundNum rm draw sat neg m e sticky

/-! ## Exact arithmetic on values -/

/-- m * 2^e as an integer multiple of 2^lo, for lo ≤ e. -/
def scaled (neg : Bool) (m : Nat) (e lo : Int) : Int :=
  let v : Int := (m * 2 ^ (e - lo).toNat : Nat)
  if neg then -v else v

/-- The value of an integer times 2^e; zero takes the sign that R61 gives an exact cancellation. -/
def ofInt (i : Int) (e : Int) (rm : Nat) : Val :=
  if i = 0 then .zero (rm = 2) else .num (i < 0) i.natAbs e false

def Val.isNan : Val → Bool
  | .nan _ _ _ => true
  | _ => false

def Val.isSig : Val → Bool
  | .nan _ s _ => s
  | _ => false

def Val.isInf : Val → Bool
  | .inf _ => true
  | _ => false

def Val.isZero : Val → Bool
  | .zero _ => true
  | _ => false

def Val.neg : Val → Bool
  | .nan n _ _ => n
  | .inf n => n
  | .zero n => n
  | .num n _ _ _ => n

/-- The first NaN among sources, quieted, and NV for a signalling one (R62). -/
def firstNan (l : List Val) : Option (Val × Flag) :=
  match l.find? Val.isNan with
  | some (.nan n _ t) => some (.nan n false t, flagIf (l.any Val.isSig) flagNV)
  | _ => none

/-- The canonical NaN of an invalid operation; it takes the destination's form when it is delivered. -/
def invalid : Val × Flag := (.nan false false (2 ^ 51), flagNV)

/-- The exact sum of two values that are not NaN. -/
def addFin (rm : Nat) (a b : Val) : Val × Flag :=
  match a, b with
  | .inf n, .inf k => if n = k then (.inf n, 0) else invalid
  | .inf n, _ => (.inf n, 0)
  | _, .inf n => (.inf n, 0)
  | .zero n, .zero k => (.zero (if n = k then n else rm = 2), 0)
  | .zero _, v => (v, 0)
  | v, .zero _ => (v, 0)
  | .num n m e _, .num k p g _ =>
    let lo := min e g
    (ofInt (scaled n m e lo + scaled k p g lo) lo rm, 0)
  | .nan _ _ _, v => (v, 0)
  | v, .nan _ _ _ => (v, 0)

/-- The exact product of two values that are not NaN. -/
def mulFin (a b : Val) : Val × Flag :=
  let neg := a.neg != b.neg
  match a, b with
  | .inf _, .zero _ => invalid
  | .zero _, .inf _ => invalid
  | .inf _, _ => (.inf neg, 0)
  | _, .inf _ => (.inf neg, 0)
  | .zero _, _ => (.zero neg, 0)
  | _, .zero _ => (.zero neg, 0)
  | .num _ m e _, .num _ p g _ => (.num neg (m * p) (e + g) false, 0)
  | v, _ => (v, 0)

/-- Negation of a value. -/
def Val.negate : Val → Val
  | .nan n s t => .nan (!n) s t
  | .inf n => .inf (!n)
  | .zero n => .zero (!n)
  | .num n m e s => .num (!n) m e s

/-- a + b (R143). -/
def vAdd (rm : Nat) (a b : Val) : Val × Flag := (firstNan [a, b]).getD (addFin rm a b)

/-- a * b. -/
def vMul (a b : Val) : Val × Flag := (firstNan [a, b]).getD (mulFin a b)

/-- a * b + c, exact (R144). -/
def vFma (rm : Nat) (a b c : Val) : Val × Flag :=
  match firstNan [a, b, c] with
  | some r => r
  | none =>
    let p := mulFin a b
    if p.1.isNan then p else addFin rm p.1 c

/-- a0 * b0 + a1 * b1 + c, exact; NaN sources in the order a0, a1, b0, b1, c (R144). -/
def vDot2 (rm : Nat) (a0 a1 b0 b1 c : Val) : Val × Flag :=
  match firstNan [a0, a1, b0, b1, c] with
  | some r => r
  | none =>
    let p := mulFin a0 b0
    let q := mulFin a1 b1
    if p.1.isNan then p else if q.1.isNan then q else
    let r := addFin rm p.1 q.1
    if r.1.isNan then r else addFin rm r.1 c

/-- a / b, its quotient taken to 160 binary places (R143, R148). -/
def vDiv (a b : Val) : Val × Flag :=
  match firstNan [a, b] with
  | some r => r
  | none =>
    let neg := a.neg != b.neg
    match a, b with
    | .inf _, .inf _ => invalid
    | .zero _, .zero _ => invalid
    | .inf _, _ => (.inf neg, 0)
    | _, .inf _ => (.zero neg, 0)
    | .zero _, _ => (.zero neg, 0)
    | .num _ _ _ _, .zero _ => (.inf neg, flagDZ)
    | .num _ m e _, .num _ p g _ =>
      let q := m * 2 ^ 160 / p
      (.num neg q (e - g - 160) (m * 2 ^ 160 % p ≠ 0), 0)
    | v, _ => (v, 0)

/-- The integer square root, one bit at a time. -/
def isqrtFrom (n r : Nat) : Nat → Nat
  | 0 => r
  | k + 1 => isqrtFrom n (if (r + 2 ^ k) * (r + 2 ^ k) ≤ n then r + 2 ^ k else r) k

def isqrt (n : Nat) : Nat := isqrtFrom n 0 (bitLen n / 2 + 1)

/-- √a (R143, R148). -/
def vSqrt (a : Val) : Val × Flag :=
  match firstNan [a] with
  | some r => r
  | none =>
    match a with
    | .zero n => (.zero n, 0)
    | .inf false => (.inf false, 0)
    | .num false m e _ =>
      let (m', e') := if e % 2 = 0 then (m * 2 ^ 240, e - 240) else (m * 2 ^ 241, e - 241)
      let r := isqrt m'
      (.num false r (e' / 2) (r * r ≠ m'), 0)
    | _ => invalid

/-- 1 / a. -/
def vRcp (a : Val) : Val × Flag := vDiv (.num false 1 0 false) a

/-- 1 / √a: the quotient of 2^k by a square root taken to k more bits (R143, R148). -/
def vRsqrt (a : Val) : Val × Flag :=
  match firstNan [a] with
  | some r => r
  | none =>
    match a with
    | .zero n => (.inf n, flagDZ)
    | .inf false => (.zero false, 0)
    | .num false m e _ =>
      -- 1/√(m 2^e) = √(2^(2k) / m') 2^(-e'/2 - k), for even e'
      let (m', e') := if e % 2 = 0 then (m, e) else (2 * m, e - 1)
      let k := 200 + bitLen m'
      let q := 2 ^ (2 * k) / m'
      let r := isqrt q
      (.num false r (-(e' / 2) - k) (r * r ≠ q || 2 ^ (2 * k) % m' ≠ 0), 0)
    | _ => invalid

/-! ## Comparison -/

/-- Order of two values that are not NaN: less, equal, greater. -/
def vCmp (a b : Val) : Ordering :=
  match a, b with
  | .zero _, .zero _ => .eq
  | .inf n, .inf k => if n = k then .eq else if n then .lt else .gt
  | .inf n, _ => if n then .lt else .gt
  | _, .inf k => if k then .gt else .lt
  | .zero _, .num k _ _ _ => if k then .gt else .lt
  | .num n _ _ _, .zero _ => if n then .lt else .gt
  | .num n m e _, .num k p g _ =>
    let lo := min e g
    compare (scaled n m e lo) (scaled k p g lo)
  | _, _ => .eq

/-- minimumNumber and maximumNumber (R145): `lesser` selects. Both NaN gives `none`, the canonical NaN. -/
def vMinMax (lesser : Bool) (a b : Val) : Option Bool × Flag :=
  let fl := flagIf (a.isSig || b.isSig) flagNV
  if a.isNan && b.isNan then (none, fl)
  else if a.isNan then (some false, fl)
  else if b.isNan then (some true, fl)
  else
    let takeA :=
      match vCmp a b with
      | .lt => lesser
      | .gt => !lesser
      | .eq => if a.isZero && b.isZero then a.neg = lesser else true
    (some takeA, fl)

/-! ## Integers -/

/-- An integer type of R44: width and signedness. -/
structure IntTy where
  w : Nat
  signed : Bool
  deriving DecidableEq, Repr

def IntTy.lo (t : IntTy) : Int := if t.signed then -(2 ^ (t.w - 1)) else 0
def IntTy.hi (t : IntTy) : Int := if t.signed then 2 ^ (t.w - 1) - 1 else 2 ^ t.w - 1

/-- The integer that the low bits of a number hold. -/
def IntTy.of (t : IntTy) (n : Nat) : Int :=
  let m := n % 2 ^ t.w
  if t.signed ∧ 2 ^ (t.w - 1) ≤ m then (m : Int) - 2 ^ t.w else m

/-- The low w bits of an integer. -/
def IntTy.code (t : IntTy) (i : Int) : Nat := (i % (2 ^ t.w : Int)).toNat

/-- Clamp to a range. -/
def clamp (lo hi i : Int) : Int := if i < lo then lo else if hi < i then hi else i

/-- The arithmetic rule of R127: wrap without a flag, or clamp with SA when the clamp changes the result. -/
def IntTy.finish (t : IntTy) (sat : Bool) (r : Int) : Nat × Flag :=
  if sat then (t.code (clamp t.lo t.hi r), flagIf (clamp t.lo t.hi r ≠ r) flagSA) else (t.code r, 0)

/-- A value rounded to an integer type (R63): NaN gives 0 and the ends of the range stand for what lies outside, both invalid. -/
def IntTy.ofVal (t : IntTy) (rm draw : Nat) (v : Val) : Nat × Flag :=
  match v with
  | .nan _ _ _ => (0, flagNV)
  | .inf n => (t.code (if n then t.lo else t.hi), flagNV)
  | .zero _ => (0, 0)
  | .num neg m e sticky =>
    let (n, inexact) := roundAt rm neg draw m e 0 sticky
    let r : Int := if neg then -(n : Int) else n
    if r < t.lo ∨ t.hi < r then (t.code (clamp t.lo t.hi r), flagNV ||| flagNX)
    else (t.code r, flagIf inexact flagNX)

/-- An integer as an exact value. -/
def valOfInt (i : Int) : Val := if i = 0 then .zero false else .num (i < 0) i.natAbs 0 false

end Sys2Proof.Machine
end

