-- ==== Sys2Proof/Config.lean ====
section
/-! DEFINITION. What the spec leaves free, as constants without a body: nothing can evaluate them, so a claim holds for every
value they may have. -/

namespace Sys2Proof.Config

open Sys2Proof Sys2Proof.Machine

/-- The turn taken when the agenda is empty: arbitration, latency and arrival order (R12, R82-R97; log 1). -/
opaque freeTurn : Nat → Turn

/-- Cycles that a step takes beyond one (log 7). -/
opaque elapsed : Nat → Nat

/-- What an island's CLOCK reads at time 0 (R95; log 7). -/
opaque clockSkew : Nat → W64

/-- The island of a cluster; the spec numbers 128 islands and does not say which cluster lies in which (R5, R429; log 7). -/
opaque islandOf : Nat → Nat

/-- The draws of the physical noise sources, in order of delivery (R76; log 10). -/
opaque noiseDraw : Nat → BitVec 16

/-- SM3 of a string of bytes (R425, R426; log 13). -/
opaque sm3 : List Byte → List Byte

/-- The SM2 signature of a digest under the identity key (R426; log 13). -/
opaque sm2 : List Byte → List Byte

/-- The running firmware and the fused serial number (R425, R426; log 13). -/
opaque firmware : List Byte
opaque serial : List Byte

/-- What a port writes as the body of a work completion: the published formats are not in the spec (R423; log 16). -/
opaque portByte : Nat → Byte

/-- The same for a work completion with error (R424; log 16). -/
opaque portError : Nat → Byte

/-- Other lines of the HBM row that holds a line (R427; log 53). -/
opaque rowLines : Nat → List Nat

/-- How many spares a unit's storage has (R427; log 53). -/
opaque spares : Nat → Nat

/-- The phase bit of a completion ring's first pass (R419; log 19). -/
opaque firstPhase : Bool

/-- What an island's sensors read: power, temperature, voltage and issue fraction (R429; log 7). -/
opaque telemetry : Nat → W64

/-- The die that an island lies on (R5, R429; log 7). -/
opaque islandDie : Nat → Nat

/-- The die that the front distributor hands a launch to (R118, R419; log 19). -/
opaque frontDie : Nat → Nat

/-- Element codes of a chained A row beyond the tile depth of the head that fetches it (R245; log 42). -/
opaque chainCode : Nat → Nat

/-- Bytes of the team state in a context segment and in a save area, whose layout the spec does not give (R111, R228; log 15). -/
opaque areaByte : Nat → Byte

end Sys2Proof.Config
end

