-- ==== Sys2Proof/WellFormed.lean ====
section
/-! DEFINITION. Step 4 of R46: which fields, codes and modifiers the entry of each instruction accepts (R31, R32, R34, R37-R45 and
the entries), the field checks of format P (R259) and the legal walker words (R291-R301). -/

namespace Sys2Proof

/-- What an entry lets a 7-bit field name (R31, R32). -/
inductive FieldUse where
  /-- The entry does not use the field: it is zero, and so is its fe bit. -/
  | none
  /-- The field names an x register. -/
  | reg
  /-- The field names a predicate in bits [2:0]; the other bits and the fe bit are zero (R31, R33). -/
  | pred
  deriving DecidableEq, Repr

/-- The check of one register field with its fe bit. -/
def FieldUse.ok (u : FieldUse) (f : BitVec 7) (fe : Bool) : Bool :=
  match u with
  | .none => f = 0 && !fe
  | .reg => true
  | .pred => f.toNat < 8 && !fe

/-- INT of R126: I32, N32, I64, N64. -/
def tInt : List Nat := [0, 1, 2, 3]
/-- PK of R126: I16x2, I8x4. -/
def tPk : List Nat := [4, 5]
/-- FL of R143: F32, F64, F16, BF16. -/
def tFl : List Nat := [6, 7, 10, 11]
/-- PF of R143: F16x2, BF16x2. -/
def tPf : List Nat := [8, 9]
/-- Every ty of R44. -/
def tAny : List Nat := [0, 1, 2, 3, 4, 5, 6, 7, 8, 9, 10, 11, 12, 13]
/-- Every rounding mode of R45. -/
def rAll : List Nat := [0, 1, 2, 3, 4, 5, 6]
/-- Every scope code of R4, for ATOM and RED, whose rm field carries the scope (R355). -/
def rScope : List Nat := [0, 1, 2, 3, 4, 5, 6, 7]

namespace RWord

/-- md bit 2: the destination is a predicate (R37). -/
def pd (w : RWord) : Bool := bitOf w.md.toNat 2
/-- md bits [1:0]. -/
def mode2 (w : RWord) : Nat := bitsOf w.md.toNat 0 2

/-- The field uses, types, rounding codes and md bits that an entry accepts; `mask` is the set of md bits it lists. -/
def fitsTk (w : RWord) (d a b c : FieldUse) (tys rms : List Nat) (mask : BitVec 8) : Bool :=
  d.ok w.d false && a.ok w.a (bitOf w.fe.toNat 2) && b.ok w.b (bitOf w.fe.toNat 1) && c.ok w.c (bitOf w.fe.toNat 0)
    && tys.contains w.ty.toNat && rms.contains w.rm.toNat && w.md &&& ~~~mask = 0

/-- `fitsTk` for an entry that allows no token: tk = 15 (R34). -/
def fits (w : RWord) (d a b c : FieldUse) (tys rms : List Nat) (mask : BitVec 8) : Bool :=
  w.fitsTk d a b c tys rms mask && w.tk = 15

/-- A tk of 8 to 14 names no token and is not 15 (R34). -/
def tkOk (w : RWord) : Bool := w.tk.toNat ≤ 7 || w.tk = 15

/-- The source type code of a conversion, md[3:0] (R149, R150), is one of `codes`. -/
def srcIn (w : RWord) (codes : List Nat) : Bool := codes.contains (bitsOf w.md.toNat 0 4)

/-- GSCAN and GRED: an integer type, and every `.W` input, has rm = 0 (R45, R141). -/
def collective (w : RWord) : Bool := w.rm = 0 || (!bitOf w.md.toNat 1 && (w.ty = 6 || w.ty = 7))

/-- The operation and type pairs of R356. -/
def atomTypeOk (w : RWord) : Bool :=
  match bitsOf w.md.toNat 0 4 with
  | 0 | 2 | 3 | 4 | 5 | 6 => tInt.contains w.ty.toNat
  | 1 => [6, 7, 9].contains w.ty.toNat
  | 7 | 8 => [0, 1, 2, 3, 6, 7].contains w.ty.toNat
  | 9 | 10 => [1, 3].contains w.ty.toNat
  | _ => false

/-- Any ord other than plain needs a scope (R355). -/
def atomOrdOk (w : RWord) : Bool := bitsOf w.md.toNat 4 2 = 0 || w.rm ≠ 0

/-- RED takes neither `.xch` nor `.cas`, and ord 0 or 2 (R355). -/
def redOk (w : RWord) : Bool :=
  let op := bitsOf w.md.toNat 0 4
  op ≠ 7 && op ≠ 8 && (bitsOf w.md.toNat 4 2 = 0 || bitsOf w.md.toNat 4 2 = 2)

end RWord

/-- Format I: field a is unused (R32). -/
def IWord.noA (w : IWord) : Bool := w.a = 0 && w.fe = 0

/-- Format B: bs and the offset are unused. -/
def BWord.bare (w : BWord) : Bool := w.bs = 0 && w.off = 0

namespace MWord

/-- fe(a), bit 2 of fe (R41). -/
def feA (w : MWord) : Bool := bitOf w.fe.toNat 2
/-- fe(b), bit 1 of fe. -/
def feB (w : MWord) : Bool := bitOf w.fe.toNat 1
/-- fe(d), bit 0 of fe. -/
def feD (w : MWord) : Bool := bitOf w.fe.toNat 0
/-- Any ord other than plain needs a scope (R41). -/
def ordOk (w : MWord) : Bool := w.ord = 0 || w.sc ≠ 0
/-- fe(d) is zero: a load, or d unused. -/
def noFeD (w : MWord) : Bool := !w.feD
/-- Field d is unused. -/
def noD (w : MWord) : Bool := w.d = 0 && !w.feD
/-- Field b is unused. -/
def noB (w : MWord) : Bool := w.b = 0 && !w.feB
/-- Fields a, b and d are unused (R195). -/
def noABD (w : MWord) : Bool := w.a = 0 && w.b = 0 && w.d = 0 && w.fe = 0
/-- b = 0 names no register, so its fe bit is zero (R33, R41). -/
def idx (w : MWord) : Bool := w.b ≠ 0 || !w.feB
/-- The kinds of ordering the entry accepts. -/
def ordIn (w : MWord) (l : List Nat) : Bool := l.contains w.ord.toNat
/-- A token is 0 to 7, or 15 (R34). -/
def tkOk (w : MWord) : Bool := w.tk.toNat ≤ 7 || w.tk = 15

/-- ATS: w is 2 or 3, offset[13:10] an operation, `.fadd2` 32 bits wide only, fe(d) zero (R191, R41). -/
def atsOk (w : MWord) : Bool :=
  let op := bitsOf w.off.toNat 10 4
  (w.w = 2 || w.w = 3) && op ≤ 13 && (op ≠ 2 || w.w = 2) && !w.feD

/-- CCTL: the operation in w fixes the scopes it accepts (R197). -/
def cctlOk (w : MWord) : Bool :=
  match w.w.toNat with
  | 0 | 3 => 1 ≤ w.sc.toNat && w.sc.toNat ≤ 5
  | 1 => 1 ≤ w.sc.toNat && w.sc.toNat ≤ 5 && w.a = 0 && !w.feA && w.off = 0
  | 2 => w.sc = 7
  | _ => false

/-- SCATA: offset[13:12] is the kind, which fixes w (R358). -/
def scataOk (w : MWord) : Bool :=
  match bitsOf w.off.toNat 12 2 with
  | 0 | 1 => w.w = 2 || w.w = 3
  | 2 => w.w = 2
  | _ => false

end MWord

namespace CWord

/-- Class and priority: bits [3:0] zero, traffic class not 3 (R42). -/
def cpOk (w : CWord) : Bool := bitsOf w.cp.toNat 0 4 = 0 && bitsOf w.cp.toNat 4 2 ≠ 3
/-- Field b is unused. -/
def noB (w : CWord) : Bool := w.b = 0 && !bitOf w.fe.toNat 1
/-- Field c is unused. -/
def noC (w : CWord) : Bool := w.c = 0 && !bitOf w.fe.toNat 0

end CWord

namespace PWord

/-- An sp of 4 to 7 and a ch of 3 are reserved (R258, R259). -/
def codesOk (w : PWord) : Bool := w.sp.toNat ≤ 3 && w.ch.toNat ≤ 2
/-- md[1:0], the location kind (R261). -/
def kind (w : PWord) : Nat := bitsOf w.md.toNat 0 2
/-- A location kind up to `k`; the memory kind names an even pair (R261). -/
def kindOk (w : PWord) (k : Nat) : Bool := w.kind ≤ k && (w.kind ≠ 1 || bitsOf w.ka.toNat 0 1 = 0)
/-- md has no bit at or above `n`. -/
def mdHigh (w : PWord) (n : Nat) : Bool := w.md.toNat < 2 ^ n

end PWord

/-- Step 4 of R46 for a core word, R259 for a stream word, R291 for a walker word. A step of the part that has no word is always
well formed. Opcodes are checked by the decoder, so this reads the fields only. PLOP.mov accepts nb, and MLDWS with sp = 0 is ill formed (log 76). -/
def Instr.wellFormed : Instr → Bool
  | .mov w => w.fits .reg .reg .none .none tAny [0] 0x00
  | .iadd w => w.fits .reg .reg .reg .none (tInt ++ tPk) [0] 0xF8
  | .isub w => w.fits .reg .reg .reg .none (tInt ++ tPk) [0] 0xF8
  | .iaddc w => w.fits .reg .reg .reg .pred [1, 3] [0] 0x01
  | .imul w => w.fits .reg .reg .reg .none (tInt ++ tPk) [0] 0xE0
  | .imulh w => w.fits .reg .reg .reg .none tInt [0] 0x00
  | .imad w => w.fits .reg .reg .reg .reg (tInt ++ tPk) [0] 0xE0
  | .imadw w => w.fits .reg .reg .reg .reg [0, 1] [0] 0x80
  | .idiv w => w.fits .reg .reg .reg .none tInt [0] 0x80
  | .irem w => w.fits .reg .reg .reg .none tInt [0] 0x00
  | .imin w => w.fits .reg .reg .reg .none (tInt ++ tPk) [0] 0x00
  | .imax w => w.fits .reg .reg .reg .none (tInt ++ tPk) [0] 0x00
  | .iabs w => w.fits .reg .reg .none .none [0, 2, 4, 5] [0] 0x80
  | .icmp w => (if w.pd then w.fits .pred .reg .reg .none tInt [0] 0x07 else w.fits .reg .reg .reg .none (tInt ++ tPk) [0] 0x03)
  | .isel w => w.fits .reg .reg .reg .pred [0, 1, 2, 3, 6, 7] [0] 0x00
  | .lea w => w.fits .reg .reg .reg .none tInt [0] 0x03
  | .and w => w.fits .reg .reg .reg .none tInt [0] 0x00
  | .or w => w.fits .reg .reg .reg .none tInt [0] 0x00
  | .xor w => w.fits .reg .reg .reg .none tInt [0] 0x00
  | .andn w => w.fits .reg .reg .reg .none tInt [0] 0x00
  | .not w => w.fits .reg .reg .none .none tInt [0] 0x00
  | .shl w => w.fits .reg .reg .reg .none tInt [0] 0x00
  | .shr w => w.fits .reg .reg .reg .none tInt [0] 0x00
  | .sha w => w.fits .reg .reg .reg .none tInt [0] 0x00
  | .rot w => w.fits .reg .reg .reg .none tInt [0] 0x00
  | .bfe w => w.fits .reg .reg .reg .none tInt [0] 0x00
  | .bfi w => w.fits .reg .reg .reg .reg tInt [0] 0x00
  | .popc w => w.fits .reg .reg .none .none tInt [0] 0x00
  | .clz w => w.fits .reg .reg .none .none tInt [0] 0x00
  | .ctz w => w.fits .reg .reg .none .none tInt [0] 0x00
  | .brev w => w.fits .reg .reg .none .none tInt [0] 0x00
  | .bytep w => w.fits .reg .reg .reg .reg [0, 1] [0] 0x00
  | .plop w => (if w.mode2 = 3 then w.fits .pred .pred .none .none [0] [0] 0x67 else w.fits .pred .pred .pred .none [0] [0] 0x67) && w.pd
  | .idot4 w => w.fits .reg .reg .reg .reg [5] [0] 0x83
  | .shfl w => w.fits .reg .reg .reg .pred [0, 1, 2, 3, 6, 7] [0] 0x03
  | .vote w => (match w.mode2 with
    | 0 | 1 => w.pd && w.fits .pred .pred .none .none [0] [0] 0x07
    | 2 => !w.pd && w.fits .reg .pred .none .none [1, 3] [0] 0x07
    | _ => w.pd && w.fits .pred .reg .none .none tInt [0] 0x07)
  | .gscan w => w.collective && w.fits .reg .reg .none .none (if bitOf w.md.toNat 1 then [1, 4, 5] else [0, 1, 2, 3, 6, 7]) [0, 1, 2, 3, 4] 0x03
  | .gred w => w.collective && w.fits .reg .reg .none .none (if bitOf w.md.toNat 1 then [1, 4, 5] else [0, 1, 2, 3, 6, 7])
      (if bitOf w.md.toNat 0 then [0] else [0, 1, 2, 3, 4]) 0x03
  | .movi w => w.noA && w.md.toNat ≤ 1
  | .iaddi w => w.md.toNat ≤ 3
  | .isubi w => w.md.toNat ≤ 3
  | .iaddci _ => true
  | .imuli w => w.md.toNat ≤ 3
  | .imulhi w => (w.md = 0 || w.md = 2)
  | .imadi w => w.md.toNat ≤ 3
  | .imadwi w => w.md.toNat ≤ 3
  | .idivi w => w.md.toNat ≤ 3
  | .iremi w => (w.md = 0 || w.md = 2)
  | .imini w => (w.md = 0 || w.md = 2)
  | .imaxi w => (w.md = 0 || w.md = 2)
  | .iabsi w => w.noA && w.md.toNat ≤ 1
  | .icmpi w => w.d.toNat < 8
  | .iseli _ => true
  | .leai _ => true
  | .andi w => (w.md = 0 || w.md = 2)
  | .ori w => (w.md = 0 || w.md = 2)
  | .xori w => (w.md = 0 || w.md = 2)
  | .andni w => (w.md = 0 || w.md = 2)
  | .noti w => w.noA && (w.md = 0 || w.md = 2)
  | .shli w => (w.md = 0 || w.md = 2)
  | .shri w => (w.md = 0 || w.md = 2)
  | .shai w => (w.md = 0 || w.md = 2)
  | .roti w => (w.md = 0 || w.md = 2)
  | .bfei w => (w.md = 0 || w.md = 2)
  | .bfii w => (w.md = 0 || w.md = 2)
  | .movih w => w.noA && w.md = 0
  | .fadd w => w.fits .reg .reg .reg .none (tFl ++ tPf) rAll 0xF8
  | .fsub w => w.fits .reg .reg .reg .none (tFl ++ tPf) rAll 0xF8
  | .fmul w => w.fits .reg .reg .reg .none (tFl ++ tPf) rAll 0xF8
  | .ffma w => w.fits .reg .reg .reg .reg (tFl ++ tPf) rAll 0xF9
  | .fmin w => w.fits .reg .reg .reg .none (tFl ++ tPf) [0] 0x78
  | .fmax w => w.fits .reg .reg .reg .none (tFl ++ tPf) [0] 0x78
  | .fcmp w => (if w.pd then w.fits .pred .reg .reg .none tFl [0] 0x7F else w.fits .reg .reg .reg .none (tFl ++ tPf) [0] 0x7B)
  | .fclass w => w.fits .reg .reg .none .none tFl [0] 0x00
  | .fdiv w => w.fits .reg .reg .reg .none tFl rAll 0xF8
  | .fsqrt w => w.fits .reg .reg .none .none tFl [0, 1, 2, 3, 4] 0xD0
  | .frcp w => w.fits .reg .reg .none .none tFl [0, 1, 2, 3, 4] 0xD0
  | .frsq w => w.fits .reg .reg .none .none tFl [0, 1, 2, 3, 4] 0xD0
  | .fexp2 w => w.fits .reg .reg .none .none tFl [0, 1, 2, 3, 4] 0xD0
  | .flog2 w => w.fits .reg .reg .none .none tFl [0, 1, 2, 3, 4] 0xD0
  | .fsin w => w.fits .reg .reg .none .none tFl [0, 1, 2, 3, 4] 0xD0
  | .fcos w => w.fits .reg .reg .none .none tFl [0, 1, 2, 3, 4] 0xD0
  | .fdot2 w => w.fits .reg .reg .reg .reg tPf rAll 0xE1
  | .cvtf w => w.fits .reg .reg .none .none (tFl ++ tPf ++ [12, 13]) rAll 0x8F && w.srcIn (tFl ++ tPf ++ [12, 13])
  | .cvtfi w => w.fits .reg .reg .none .none (tInt ++ tPk) rAll 0x0F && w.srcIn (tFl ++ tPf ++ [12, 13])
  | .cvtif w => w.fits .reg .reg .none .none (tFl ++ tPf ++ [12, 13]) rAll 0x8F && w.srcIn (tInt ++ tPk)
  | .cvtq w => w.fits .reg .reg .none .none [6, 11] [0] 0x0F && w.srcIn [3, 4, 5, 6, 7, 8, 10, 11]
  | .cvtdq w => w.fits .reg .reg .none .none [6, 10, 11] [0, 1, 2, 3, 4] 0x0F && w.srcIn [3, 4, 5, 6, 7, 8, 10, 11]
  | .cbk w => w.fits .reg .reg .none .none [6, 11] [0] 0x01
  | .rngk w => w.fits .reg .reg .reg .none [1] [0] 0x00
  | .noise w => w.fits .reg .none .none .none [1] [0] 0x00
  | .ld w => w.ordOk && w.noFeD && w.idx && w.w.toNat ≤ 6 && w.ordIn [0, 1] && w.tk = 15
  | .st w => w.ordOk && w.idx && w.w.toNat ≤ 6 && w.ordIn [0, 2] && w.tkOk
  | .lds w => w.ordOk && w.noFeD && w.idx && w.w.toNat ≤ 6 && w.ordIn [0, 1] && w.sc.toNat ≤ 3 && w.tk = 15
  | .sts w => w.ordOk && w.idx && w.w.toNat ≤ 6 && w.ordIn [0, 2] && w.sc.toNat ≤ 3 && w.tkOk
  | .ats w => w.ordOk && w.sc.toNat ≤ 3 && w.tk = 15 && w.atsOk
  | .ldsub w => w.ordOk && w.noFeD && w.w = 7 && w.ordIn [0, 1] && w.tk = 15 && bitsOf w.b.toNat 3 4 = 0 && !w.feB
  | .ldv w => w.ordOk && w.noFeD && !w.feB && 2 ≤ w.w.toNat && w.w.toNat ≤ 6 && w.ordIn [0, 1] && w.tk = 15
  | .pref w => w.noD && w.noB && w.w = 0 && w.ord = 0 && (w.sc = 0 || w.sc = 4) && w.tkOk
  | .fence w => w.noABD && w.w.toNat ≤ 2 && w.sc ≠ 0 && w.ord = 0 && w.tk = 15 && w.off = 0
  | .wack w => w.noABD && w.w = 0 && w.sc ≠ 0 && w.ord = 0 && w.tk = 15 && w.off = 0
  | .cctl w => w.noD && w.noB && w.ord = 0 && w.tkOk && w.cctlOk
  | .ldvol w => w.ordOk && w.noFeD && w.w.toNat ≤ 3 && w.ordIn [0, 1] && w.off = 0 && w.tk = 15
  | .stvol w => w.ordOk && w.w.toNat ≤ 3 && w.ordIn [0, 2] && w.off = 0 && w.tkOk
  | .volinv w => w.noD && w.ord = 0 && w.off = 0 && w.tkOk && 1 ≤ w.sc.toNat && w.sc.toNat ≤ 5 && (w.w = 0 || (w.w = 1 && w.noB))
  | .atom w => w.fits .reg .reg .reg (if bitsOf w.md.toNat 0 4 = 8 then .reg else .none) [0, 1, 2, 3, 6, 7, 9] rScope 0x3F && w.atomTypeOk && w.atomOrdOk
  | .red w => w.fitsTk .none .reg .reg .none [0, 1, 2, 3, 6, 7, 9] rScope 0x3F && w.atomTypeOk && w.atomOrdOk && w.redOk && w.tkOk
  | .gath w => w.ord = 0 && w.w.toNat ≤ 3 && w.noFeD && w.tk = 15
  | .scat w => w.ord = 0 && w.w.toNat ≤ 3 && w.noD && w.tkOk
  | .scata w => w.ord = 0 && w.noD && w.tkOk && w.scataOk
  | .cas4 w => w.ordOk && w.a = 0 && !w.feA && w.noFeD && w.off = 0 && w.w.toNat ≤ 3 && w.tk = 15
  | .sflush w => w.noD && w.ord = 0 && w.w.toNat ≤ 1 && (w.sc = 4 || w.sc = 5) && w.tkOk
  | .regmode w => w.noD && w.noB && w.ord = 0 && w.sc = 0 && w.w.toNat ≤ 1 && w.tkOk
  | .reclaim w => w.noD && w.ord = 0 && w.sc = 0 && w.w = 0 && w.tkOk
  | .rbind w => w.fits .reg .reg .none .none [0] [0] 0x00
  | .enter w => w.fits .none .reg (if w.md = 3 then .reg else .none) .none [0] [0] 0x07 && w.md.toNat ≤ 5 && (w.md ≠ 3 || w.b ≠ 0 || !bitOf w.fe.toNat 1)
  | .enterm w => w.fits .none .reg .reg .none [0] [0] 0x03
  | .etry w => w.fits .none .reg (if w.md = 3 then .reg else .none) .pred [0] [0] 0x07 && w.md.toNat ≤ 5 && (w.md ≠ 3 || w.b ≠ 0 || !bitOf w.fe.toNat 1)
  | .leave w => w.fits .none .reg .none .none [0] [0] 0x00
  | .push w => w.fits .none .reg .reg .pred [0] [0] 0x00
  | .pop w => w.fits .reg .reg .none .pred [0] [0] 0x00
  | .racc w => w.fits .none .reg .reg .reg [0] [0] 0x00
  | .rstat w => w.fits .reg .reg .none .none [0] [0] 0x01
  | .runbind w => w.fits .reg .reg .none .none [0] [0] 0x00
  | .cuenew w => w.cpOk && w.tk = 15
  | .cuedep w => w.cpOk && w.tk = 15 && w.md = 0 && w.d = 0 && w.noB && w.noC
  | .cuearm w => w.cpOk && w.tk = 15 && w.md = 0 && w.noB && w.noC
  | .copy w => w.cpOk && w.tk = 15 && w.md = 0
  | .copyt w => w.cpOk && w.tk = 15 && w.md = 0
  | .cuewait w => if bitOf w.md.toNat 0 then w.imm = 0 else w.d = 0
  | .cueprog w => w.md.toNat ≤ 1 && w.imm = 0
  | .cuekill w => w.cpOk && w.tk = 15 && w.md = 0 && w.noB && w.noC
  | .wlkgo w => w.cpOk && w.tk = 15 && w.md = 0
  | .bra w => w.a = 0 && (w.md = 1 || (w.md = 0 && w.bs = 0)) && bitsOf w.off.toNat 0 3 = 0
  | .brx w => (w.md = 1 || (w.md = 0 && w.bs = 0)) && w.off = 0
  | .call w => w.a = 0 && (w.md = 1 || (w.md = 0 && w.bs = 0)) && bitsOf w.off.toNat 0 3 = 0
  | .callx w => (w.md = 1 || (w.md = 0 && w.bs = 0)) && w.off = 0
  | .ret w => (w.md = 1 || (w.md = 0 && w.bs = 0)) && w.off = 0
  | .recon w => w.md = 1 && w.g = 7 && w.gn = 0 && w.a = 0 && w.off = 0
  | .yield w => w.bare && w.a = 0 && w.md = 0
  | .nap w => w.bare && w.md = 0
  | .bara w => w.bare && w.a = 0 && w.md.toNat ≤ 15
  | .barw w => w.bare && w.a = 0 && w.md.toNat ≤ 15
  | .bars w => w.bare && w.md.toNat ≤ 15
  | .exit w => w.bare && w.a = 0 && w.md = 0
  | .launch w => w.bare && w.md = 0
  | .launcht w => w.bare && w.md.toNat ≤ 7
  | .trap w => w.bare && w.a = 0
  | .raise w => w.bare && w.md = 0
  | .tret w => w.bare && (w.md = 2 || (w.md = 0 && w.a = 0))
  | .tfence w => w.bare && w.a = 0 && w.md = 0
  | .elect w => w.fits .reg .none .none .pred [0] [0] 0x00
  | .role w => w.bare && w.a = 0 && w.md.toNat ≤ 7
  | .tmrset w => w.d = 0 && (if w.md = 0 then w.noA else w.md = 1 && w.imm = 0)
  | .brk w => w.bare && w.a = 0
  | .kmov w => w.kb = 0 && w.imm = 0 && w.md.toNat ≤ 1
  | .kmovi w => w.ka = 0 && w.kb = 0 && w.md.toNat ≤ 1
  | .kld w => w.kb = 0
  | .kput w => w.d.toNat < 64 && w.md.toNat ≤ 1 && w.imm = 0
  | .kget w => w.a.toNat < 64 && w.fe = 0 && w.md.toNat ≤ 1 && w.imm = 0
  | .kadd w => w.md.toNat ≤ 1
  | .sread w => w.noA && w.md = 0
  | .swrite w => w.d = 0 && w.md = 0
  | .tlbinv w => bitsOf w.md.toNat 0 2 ≠ 3 && w.kd = 0 && w.imm = 0
  | .asidset w => w.kd = 0 && w.kb = 0 && w.md = 0 && w.imm = 0
  | .ctxevict w => w.kd = 0 && w.kb = 0 && w.md.toNat ≤ 1 && w.imm = 0
  | .mstart w => w.kd = 0 && w.kb = 0 && w.md = 0 && w.imm = 0
  | .mnop w => w.codesOk && w.wb = 15 && w.sb = 15 && w.ru = 0 && w.ka = 0 && w.kb = 0 && w.kc = 0 && w.km = 0 && w.fa = 0 && w.fo = 0 && w.sp = 0 && w.ch = 0 && w.tr = 0 && w.md = 0
  | .mldw w => w.codesOk && w.sb = 15 && w.ru = 0 && w.kc = 0 && w.fo = 0 && w.sp = 0 && w.ch = 0 && w.kindOk 2 && w.mdHigh 2
  | .mldwt w => w.codesOk && w.sb = 15 && w.ru = 0 && w.ka = 0 && w.fo = 0 && w.sp = 0 && w.ch = 0 && w.tr = 0 && w.md = 0
  | .mldws w => w.codesOk && w.sb = 15 && w.ru = 0 && w.fo = 0 && w.ch = 0 && w.tr = 0 && w.sp ≠ 0 && w.kindOk 1 && w.mdHigh 2 && (w.kind = 0 || bitsOf w.kc.toNat 0 1 = 0)
  | .mldcb w => w.codesOk && w.sb = 15 && w.ru = 0 && w.kb = 0 && w.kc = 0 && w.km = 0 && w.fa = 0 && w.fo = 0 && w.sp = 0 && w.ch = 0 && w.tr = 0 && w.kindOk 1 && w.mdHigh 2
  | .mma w => w.codesOk && w.sp = 0 && w.kindOk 2 && w.mdHigh 2 && w.fo.toNat ≤ 1
  | .mmac w => w.codesOk && w.kindOk 2 && w.mdHigh 2 && w.fo.toNat ≤ 1 && w.sp ≠ 0
  | .mzero w => w.codesOk && w.ru = 0 && w.ka = 0 && w.km = 0 && w.fa = 0 && w.fo = 0 && w.sp = 0 && w.ch = 0 && w.tr = 0 && w.md = 0
  | .mstc w => w.codesOk && w.ru = 0 && w.fa = 0 && w.sp = 0 && w.ch = 0 && w.tr = 0 && w.kindOk 1 && bitsOf w.md.toNat 4 3 ≤ 6
  | .mturn w => w.codesOk && w.ru = 0 && w.fo = 0 && w.sp = 0 && w.ch = 0 && w.tr = 0 && w.kindOk 1 && bitsOf w.md.toNat 2 2 ≤ 1 && w.mdHigh 4 && (bitsOf w.md.toNat 2 2 = 0 || bitsOf w.kc.toNat 0 1 = 0)
  | .mrule w => w.codesOk && w.sb = 15 && w.ru = 0 && w.kb = 0 && w.kc = 0 && w.km = 0 && w.fa = 0 && w.fo = 0 && w.sp = 0 && w.ch = 0 && w.tr = 0 && w.kindOk 1 && w.mdHigh 2
  | .mdrain w => w.codesOk && w.ru = 0 && w.fa = 0 && w.fo = 0 && w.sp = 0 && w.ch = 0 && w.tr = 0 && w.md = 0 && bitsOf w.ka.toNat 0 1 = 0 && bitsOf w.km.toNat 0 1 = 0
  | .msave w => w.codesOk && w.ru = 0 && w.km = 0 && w.fa = 0 && w.fo = 0 && w.sp = 0 && w.ch = 0 && w.tr = 0 && w.md = 1 && bitsOf w.ka.toNat 0 1 = 0
  | .mload w => w.codesOk && w.ru = 0 && w.km = 0 && w.fa = 0 && w.fo = 0 && w.sp = 0 && w.ch = 0 && w.tr = 0 && w.md = 1 && bitsOf w.ka.toNat 0 1 = 0
  | .mwait w => w.codesOk && w.sb = 15 && w.ru = 0 && w.ka = 0 && w.kb = 0 && w.kc = 0 && w.km = 0 && w.fa = 0 && w.fo = 0 && w.sp = 0 && w.ch = 0 && w.tr = 0 && w.md = 0 && w.wb ≠ 15
  | .msig w => w.codesOk && w.ru = 0 && w.ka = 0 && w.kb = 0 && w.kc = 0 && w.km = 0 && w.fa = 0 && w.fo = 0 && w.sp = 0 && w.ch = 0 && w.tr = 0 && w.md = 0
  | .mqcfg w => w.codesOk && w.sb = 15 && w.ru = 0 && w.km = 0 && w.fa = 0 && w.fo = 0 && w.sp = 0 && w.ch = 0 && w.tr = 0 && w.md.toNat ≤ 1 && bitsOf w.ka.toNat 0 1 = 0 && bitsOf w.kb.toNat 0 1 = 0 && bitsOf w.kc.toNat 0 1 = 0
  | .mepi w => w.codesOk && w.ru = 0 && w.fa = 0 && w.sp = 0 && w.ch = 0 && w.tr = 0 && w.kindOk 1 && bitsOf w.md.toNat 2 2 ≤ 2 && w.mdHigh 4 && w.fo.toNat ≤ 1
  | .mprog w => w.codesOk && w.wb = 15 && w.sb = 15 && w.ru = 0 && w.kb = 0 && w.kc = 0 && w.km = 0 && w.fa = 0 && w.fo = 0 && w.sp = 0 && w.ch = 0 && w.tr = 0 && w.md.toNat ≤ 1 && (w.md = 1 || 16 ≤ w.ka.toNat)
  | .mjmp w => w.codesOk && w.wb = 15 && w.sb = 15 && w.ru = 0 && w.sp = 0 && w.ch = 0 && w.tr = 0 && w.md = 0 && bitsOf w.off32.toNat 0 3 = 0
  | .mloop w => w.codesOk && w.wb = 15 && w.sb = 15 && w.ru = 0 && w.sp = 0 && w.ch = 0 && w.tr = 0 && bitsOf w.off32.toNat 0 3 = 0 && 16 ≤ w.md.toNat && w.md.toNat ≤ 63
  | .mend w => w.codesOk && w.wb = 15 && w.sb = 15 && w.ru = 0 && w.ka = 0 && w.kb = 0 && w.kc = 0 && w.km = 0 && w.fa = 0 && w.fo = 0 && w.sp = 0 && w.ch = 0 && w.tr = 0 && w.md = 0
  | .mkadd w => w.codesOk && w.wb = 15 && w.sb = 15 && w.ru = 0 && w.sp = 0 && w.ch = 0 && w.tr = 0 && w.md.toNat ≤ 1 && 16 ≤ w.ka.toNat && (w.md = 0 || (bitsOf w.ka.toNat 0 1 = 0 && bitsOf w.kb.toNat 0 1 = 0))
  | .wnop => true
  | .wmovi _ _ => true
  | .wmoviSh _ _ => true
  | .wmov _ _ => true
  | .wadd _ _ _ => true
  | .waddi _ _ _ => true
  | .wsub _ _ _ => true
  | .wand _ _ _ => true
  | .wor _ _ _ => true
  | .wshl _ _ b r _ => r = 1 || b = 0
  | .wshr _ _ b r _ => r = 1 || b = 0
  | .wmin _ _ _ => true
  | .wpopc _ _ => true
  | .wffs _ _ => true
  | .wcmp _ _ => true
  | .wcmpi _ _ => true
  | .wld _ _ _ _ => true
  | .wldh _ _ _ _ => true
  | .wst _ _ _ _ => true
  | .wstC _ _ _ _ => true
  | .wbr c _ => c.toNat ≤ 8
  | .wjmp _ => true
  | .wjmpLink _ => true
  | .wjmpRet => true
  | .wemit _ _ _ => true
  | .wtile _ => true
  | .wwait _ => true
  | .wmerge a b => bitsOf a.toNat 0 1 = 0 && bitsOf b.toNat 0 1 = 0 && a ≠ b
  | .wmnext d a => d ≠ a
  | .wscan d a b _ => d ≠ a && d ≠ b && a ≠ b
  | .wyield => true
  | .whalt => true
  | .wprog _ => true
  | .wprogSet _ => true
  | .bundleCast _ => true
  | .dpfExpiry _ => true
  | .watchdogExpiry _ => true
  | .timerExpiry _ _ => true
  | .napEnd _ _ => true
  | .loadReturn _ => true
  | .storeAcknowledgement _ => true
  | .transitResume _ _ => true
  | .launchRetry _ => true
  | .calleeQueueTake _ => true
  | .trapRecordWrite _ => true
  | .resume _ _ _ _ => true
  | .resumeStepped _ _ _ _ => true
  | .skip _ _ _ _ => true
  | .endTeam _ _ _ _ => true
  | .saveAreaCommand _ _ _ _ => true
  | .saveAreaWithdraw _ _ => true
  | .reArm _ _ _ => true
  | .kill _ _ _ => true
  | .counterRetry _ _ _ => true
  | .consumedIndexWrite _ _ => true
  | .counterIncrement _ => true
  | .teamPlacement _ _ => true
  | .taskQueueTake _ => true
  | .teamRetire _ => true
  | .teamRemoval _ => true
  | .teamReturn _ _ => true
  | .shootDownAcknowledge _ _ => true
  | .volAllocRequest _ => true
  | .homeWrite _ => true
  | .homeRead _ => true
  | .precisionUpgrade _ => true
  | .readForOwnership _ _ => true
  | .probe _ _ => true
  | .rdcProbe _ _ => true
  | .probeAnswer _ => true
  | .directoryMerge _ _ => true
  | .recall _ _ => true
  | .ownerWriteBack _ _ _ => true
  | .hostReadShared _ => true
  | .hostReadExclusive _ => true
  | .hostWrite _ _ => true
  | .lostMark _ _ => true
  | .eccError _ _ _ _ => true
  | .usherDemand _ => true
  | .usherLeave _ => true
  | .tenureExpiry _ => true
  | .etryBudgetExpiry _ _ => true
  | .roomAdmission _ _ => true
  | .cueStart _ _ => true
  | .cueCompletion _ _ => true
  | .cueFault _ _ => true
  | .walkerJobStart _ _ => true
  | .walkerSlotRotation _ => true
  | .passGrant _ => true
  | .passAging _ => true
  | .passCompletion _ => true
  | .noiseHealthFailure _ => true
  | .rehearsalRecord _ => true
  | .replayDraw _ _ => true
  | .hostDoorbell _ _ => true
  | .hostCompletionWrite _ => true
  | .completionHeadWrite _ _ => true
  | .queueEnable _ _ => true
  | .accessTableWrite _ _ => true
  | .attestationRequest _ => true
  | .controlRegisterWrite _ _ => true
  | .pathDown _ _ => true
  | .deviceUnreachable _ => true
  | .thermalTrip _ => true
  | .powerCap _ => true
  | .bringUp _ _ => true
  | .passStop _ => true
  | .longLatencyResult _ => true
  | .registerLineFill _ _ _ => true
  | .walkerLoadReturn _ _ => true
  | .noiseDrawDelivery _ => true
  | .noiseHealthPass _ => true
  | .flushMarkerArrival _ _ => true
  | .portWorkCompletion _ _ _ => true

end Sys2Proof
end

