-- ==== Sys2Proof/Decode.lean ====
section
/-! DEFINITION. The decoders of the three kinds of word: core words of 64 bits (03 R20-R48), Prompter stream words of 64 bits
(03 R50, 13 R258-R260) and walker words of 32 bits (15 R291-R301); clause headers (R20); and the encoder. A word that is no
instruction is rejected by the name of the stop the spec gives it. -/

namespace Sys2Proof

/-- Why a word is no instruction: the stop that the spec gives the word in the place of an instruction. -/
inductive Reject where
  /-- The marker 0b111110 where a core instruction is expected (R23, step 2 of R46). -/
  | badHeader
  /-- A core opcode that R48 does not assign (R47, step 3 of R46). -/
  | illegalInstruction
  /-- A reserved field, code or modifier of a core instruction (step 4 of R46). -/
  | illegalEncoding
  /-- A stream word that R50 or R259 turns away. -/
  | matrixIllegal
  /-- A walker word that R291 turns away. -/
  | walkerIllegal
  deriving DecidableEq, Repr

/-- Bits [63:58] of a clause header (R20). -/
def marker : BitVec 6 := 0b111110

/-- The marker in bits [63:58]. -/
def isHeader (w : W64) : Bool := w.extractLsb' 58 6 = marker

/-- A clause header (R20). -/
structure Header where
  cls : Nat
  /-- Words of the clause, 1 to 16. -/
  count : Nat
  /-- Wait mask over tokens 0 to 7. -/
  waitMask : BitVec 8
  ng : Bool
  stall : Nat
  /-- Bits [35:0] are zero, as R20 asks. -/
  lowZero : Bool
  deriving DecidableEq, Repr

/-- The fields of a header word (R20). -/
def headerOf (w : W64) : Header where
  cls := (w.extractLsb' 54 4).toNat
  count := (w.extractLsb' 50 4).toNat + 1
  waitMask := w.extractLsb' 42 8
  ng := w.getLsbD 41
  stall := (w.extractLsb' 36 5).toNat
  lowZero := w.extractLsb' 0 36 = 0

/-- The fields of a format-R word (R36). -/
def rOf (w : W64) : RWord where
  d := w.extractLsb' 47 7
  a := w.extractLsb' 40 7
  b := w.extractLsb' 33 7
  c := w.extractLsb' 26 7
  g := w.extractLsb' 23 3
  gn := w.extractLsb' 22 1
  fe := w.extractLsb' 19 3
  ty := w.extractLsb' 15 4
  rm := w.extractLsb' 12 3
  tk := w.extractLsb' 8 4
  md := w.extractLsb' 0 8

/-- A format-R word from its op and its fields (R36). -/
def rBits (op : BitVec 10) (w : RWord) : W64 :=
  op ++ w.d ++ w.a ++ w.b ++ w.c ++ w.g ++ w.gn ++ w.fe ++ w.ty ++ w.rm ++ w.tk ++ w.md

/-- The fields of a format-I word (R38). -/
def iOf (w : W64) : IWord where
  d := w.extractLsb' 47 7
  a := w.extractLsb' 40 7
  g := w.extractLsb' 37 3
  gn := w.extractLsb' 36 1
  fe := w.extractLsb' 35 1
  md := w.extractLsb' 32 3
  imm := w.extractLsb' 0 32

/-- A format-I word from its op and its fields (R38). -/
def iBits (op : BitVec 10) (w : IWord) : W64 :=
  op ++ w.d ++ w.a ++ w.g ++ w.gn ++ w.fe ++ w.md ++ w.imm

/-- The fields of a format-B word (R39). -/
def bOf (w : W64) : BWord where
  g := w.extractLsb' 51 3
  gn := w.extractLsb' 50 1
  bs := w.extractLsb' 47 3
  a := w.extractLsb' 40 7
  md := w.extractLsb' 32 8
  off := w.extractLsb' 0 32

/-- A format-B word from its op and its fields (R39). -/
def bBits (op : BitVec 10) (w : BWord) : W64 :=
  op ++ w.g ++ w.gn ++ w.bs ++ w.a ++ w.md ++ w.off

/-- The fields of a format-K word (R40). -/
def kOf (w : W64) : KWord where
  kd := w.extractLsb' 48 6
  ka := w.extractLsb' 42 6
  kb := w.extractLsb' 36 6
  md := w.extractLsb' 32 4
  imm := w.extractLsb' 0 32

/-- A format-K word from its op and its fields (R40). -/
def kBits (op : BitVec 10) (w : KWord) : W64 :=
  op ++ w.kd ++ w.ka ++ w.kb ++ w.md ++ w.imm

/-- The fields of a format-M word (R41). -/
def mOf (w : W64) : MWord where
  d := w.extractLsb' 47 7
  a := w.extractLsb' 40 7
  b := w.extractLsb' 33 7
  g := w.extractLsb' 30 3
  gn := w.extractLsb' 29 1
  fe := w.extractLsb' 26 3
  w := w.extractLsb' 23 3
  sc := w.extractLsb' 20 3
  ord := w.extractLsb' 18 2
  tk := w.extractLsb' 14 4
  off := w.extractLsb' 0 14

/-- A format-M word from its op and its fields (R41). -/
def mBits (op : BitVec 10) (w : MWord) : W64 :=
  op ++ w.d ++ w.a ++ w.b ++ w.g ++ w.gn ++ w.fe ++ w.w ++ w.sc ++ w.ord ++ w.tk ++ w.off

/-- The fields of a format-C word (R42). -/
def cOf (w : W64) : CWord where
  d := w.extractLsb' 47 7
  a := w.extractLsb' 40 7
  b := w.extractLsb' 33 7
  c := w.extractLsb' 26 7
  g := w.extractLsb' 23 3
  gn := w.extractLsb' 22 1
  fe := w.extractLsb' 19 3
  md := w.extractLsb' 12 7
  tk := w.extractLsb' 8 4
  cp := w.extractLsb' 0 8

/-- A format-C word from its op and its fields (R42). -/
def cBits (op : BitVec 10) (w : CWord) : W64 :=
  op ++ w.d ++ w.a ++ w.b ++ w.c ++ w.g ++ w.gn ++ w.fe ++ w.md ++ w.tk ++ w.cp

/-- The fields of a format-P word (R258). -/
def pOf (w : W64) : PWord where
  wb := w.extractLsb' 52 4
  sb := w.extractLsb' 48 4
  ru := w.extractLsb' 47 1
  ka := w.extractLsb' 41 6
  kb := w.extractLsb' 35 6
  kc := w.extractLsb' 29 6
  km := w.extractLsb' 23 6
  fa := w.extractLsb' 19 4
  fo := w.extractLsb' 15 4
  sp := w.extractLsb' 12 3
  ch := w.extractLsb' 10 2
  tr := w.extractLsb' 8 2
  md := w.extractLsb' 0 8

/-- A format-P word from its mop and its fields (R258). -/
def pBits (op : BitVec 8) (w : PWord) : W64 :=
  op ++ w.wb ++ w.sb ++ w.ru ++ w.ka ++ w.kb ++ w.kc ++ w.km ++ w.fa ++ w.fo ++ w.sp ++ w.ch ++ w.tr ++ w.md

/-- The opcode map of R48; `none` is a code that no block assigns (R47). -/
def coreOf (w : W64) : Option Instr :=
  match (w.extractLsb' 54 10).toNat with
  | 0x000 => some (.mov (rOf w))
  | 0x001 => some (.iadd (rOf w))
  | 0x002 => some (.isub (rOf w))
  | 0x003 => some (.iaddc (rOf w))
  | 0x004 => some (.imul (rOf w))
  | 0x005 => some (.imulh (rOf w))
  | 0x006 => some (.imad (rOf w))
  | 0x007 => some (.imadw (rOf w))
  | 0x008 => some (.idiv (rOf w))
  | 0x009 => some (.irem (rOf w))
  | 0x00A => some (.imin (rOf w))
  | 0x00B => some (.imax (rOf w))
  | 0x00C => some (.iabs (rOf w))
  | 0x00D => some (.icmp (rOf w))
  | 0x00E => some (.isel (rOf w))
  | 0x00F => some (.lea (rOf w))
  | 0x010 => some (.and (rOf w))
  | 0x011 => some (.or (rOf w))
  | 0x012 => some (.xor (rOf w))
  | 0x013 => some (.andn (rOf w))
  | 0x014 => some (.not (rOf w))
  | 0x015 => some (.shl (rOf w))
  | 0x016 => some (.shr (rOf w))
  | 0x017 => some (.sha (rOf w))
  | 0x018 => some (.rot (rOf w))
  | 0x019 => some (.bfe (rOf w))
  | 0x01A => some (.bfi (rOf w))
  | 0x01B => some (.popc (rOf w))
  | 0x01C => some (.clz (rOf w))
  | 0x01D => some (.ctz (rOf w))
  | 0x01E => some (.brev (rOf w))
  | 0x01F => some (.bytep (rOf w))
  | 0x020 => some (.plop (rOf w))
  | 0x021 => some (.idot4 (rOf w))
  | 0x022 => some (.shfl (rOf w))
  | 0x023 => some (.vote (rOf w))
  | 0x024 => some (.gscan (rOf w))
  | 0x025 => some (.gred (rOf w))
  | 0x080 => some (.movi (iOf w))
  | 0x081 => some (.iaddi (iOf w))
  | 0x082 => some (.isubi (iOf w))
  | 0x083 => some (.iaddci (iOf w))
  | 0x084 => some (.imuli (iOf w))
  | 0x085 => some (.imulhi (iOf w))
  | 0x086 => some (.imadi (iOf w))
  | 0x087 => some (.imadwi (iOf w))
  | 0x088 => some (.idivi (iOf w))
  | 0x089 => some (.iremi (iOf w))
  | 0x08A => some (.imini (iOf w))
  | 0x08B => some (.imaxi (iOf w))
  | 0x08C => some (.iabsi (iOf w))
  | 0x08D => some (.icmpi (iOf w))
  | 0x08E => some (.iseli (iOf w))
  | 0x08F => some (.leai (iOf w))
  | 0x090 => some (.andi (iOf w))
  | 0x091 => some (.ori (iOf w))
  | 0x092 => some (.xori (iOf w))
  | 0x093 => some (.andni (iOf w))
  | 0x094 => some (.noti (iOf w))
  | 0x095 => some (.shli (iOf w))
  | 0x096 => some (.shri (iOf w))
  | 0x097 => some (.shai (iOf w))
  | 0x098 => some (.roti (iOf w))
  | 0x099 => some (.bfei (iOf w))
  | 0x09A => some (.bfii (iOf w))
  | 0x0FE => some (.movih (iOf w))
  | 0x100 => some (.fadd (rOf w))
  | 0x101 => some (.fsub (rOf w))
  | 0x102 => some (.fmul (rOf w))
  | 0x103 => some (.ffma (rOf w))
  | 0x104 => some (.fmin (rOf w))
  | 0x105 => some (.fmax (rOf w))
  | 0x106 => some (.fcmp (rOf w))
  | 0x107 => some (.fclass (rOf w))
  | 0x108 => some (.fdiv (rOf w))
  | 0x109 => some (.fsqrt (rOf w))
  | 0x10A => some (.frcp (rOf w))
  | 0x10B => some (.frsq (rOf w))
  | 0x10C => some (.fexp2 (rOf w))
  | 0x10D => some (.flog2 (rOf w))
  | 0x10E => some (.fsin (rOf w))
  | 0x10F => some (.fcos (rOf w))
  | 0x110 => some (.fdot2 (rOf w))
  | 0x180 => some (.cvtf (rOf w))
  | 0x181 => some (.cvtfi (rOf w))
  | 0x182 => some (.cvtif (rOf w))
  | 0x183 => some (.cvtq (rOf w))
  | 0x184 => some (.cvtdq (rOf w))
  | 0x185 => some (.cbk (rOf w))
  | 0x186 => some (.rngk (rOf w))
  | 0x187 => some (.noise (rOf w))
  | 0x200 => some (.ld (mOf w))
  | 0x201 => some (.st (mOf w))
  | 0x202 => some (.lds (mOf w))
  | 0x203 => some (.sts (mOf w))
  | 0x204 => some (.ats (mOf w))
  | 0x205 => some (.ldsub (mOf w))
  | 0x206 => some (.ldv (mOf w))
  | 0x207 => some (.pref (mOf w))
  | 0x208 => some (.fence (mOf w))
  | 0x209 => some (.wack (mOf w))
  | 0x20A => some (.cctl (mOf w))
  | 0x20B => some (.ldvol (mOf w))
  | 0x20C => some (.stvol (mOf w))
  | 0x20D => some (.volinv (mOf w))
  | 0x280 => some (.atom (rOf w))
  | 0x281 => some (.red (rOf w))
  | 0x282 => some (.gath (mOf w))
  | 0x283 => some (.scat (mOf w))
  | 0x284 => some (.scata (mOf w))
  | 0x285 => some (.cas4 (mOf w))
  | 0x286 => some (.sflush (mOf w))
  | 0x287 => some (.regmode (mOf w))
  | 0x288 => some (.reclaim (mOf w))
  | 0x2C0 => some (.rbind (rOf w))
  | 0x2C1 => some (.enter (rOf w))
  | 0x2C2 => some (.enterm (rOf w))
  | 0x2C3 => some (.etry (rOf w))
  | 0x2C4 => some (.leave (rOf w))
  | 0x2C5 => some (.push (rOf w))
  | 0x2C6 => some (.pop (rOf w))
  | 0x2C7 => some (.racc (rOf w))
  | 0x2C8 => some (.rstat (rOf w))
  | 0x2C9 => some (.runbind (rOf w))
  | 0x2E0 => some (.cuenew (cOf w))
  | 0x2E1 => some (.cuedep (cOf w))
  | 0x2E2 => some (.cuearm (cOf w))
  | 0x2E3 => some (.copy (cOf w))
  | 0x2E4 => some (.copyt (cOf w))
  | 0x2E5 => some (.cuewait (iOf w))
  | 0x2E6 => some (.cueprog (iOf w))
  | 0x2E7 => some (.cuekill (cOf w))
  | 0x2E8 => some (.wlkgo (cOf w))
  | 0x300 => some (.bra (bOf w))
  | 0x301 => some (.brx (bOf w))
  | 0x302 => some (.call (bOf w))
  | 0x303 => some (.callx (bOf w))
  | 0x304 => some (.ret (bOf w))
  | 0x305 => some (.recon (bOf w))
  | 0x306 => some (.yield (bOf w))
  | 0x307 => some (.nap (bOf w))
  | 0x308 => some (.bara (bOf w))
  | 0x309 => some (.barw (bOf w))
  | 0x30A => some (.bars (bOf w))
  | 0x30B => some (.exit (bOf w))
  | 0x30C => some (.launch (bOf w))
  | 0x30D => some (.launcht (bOf w))
  | 0x30E => some (.trap (bOf w))
  | 0x30F => some (.raise (bOf w))
  | 0x310 => some (.tret (bOf w))
  | 0x311 => some (.tfence (bOf w))
  | 0x312 => some (.elect (rOf w))
  | 0x313 => some (.role (bOf w))
  | 0x314 => some (.tmrset (iOf w))
  | 0x315 => some (.brk (bOf w))
  | 0x360 => some (.kmov (kOf w))
  | 0x361 => some (.kmovi (kOf w))
  | 0x362 => some (.kld (kOf w))
  | 0x363 => some (.kput (iOf w))
  | 0x364 => some (.kget (iOf w))
  | 0x365 => some (.kadd (kOf w))
  | 0x366 => some (.sread (iOf w))
  | 0x367 => some (.swrite (iOf w))
  | 0x368 => some (.tlbinv (kOf w))
  | 0x369 => some (.asidset (kOf w))
  | 0x36A => some (.ctxevict (kOf w))
  | 0x36B => some (.mstart (kOf w))
  | _ => none

/-- The stream opcodes of R260. -/
def streamOf (w : W64) : Option Instr :=
  match (w.extractLsb' 56 8).toNat with
  | 0x00 => some (.mnop (pOf w))
  | 0x01 => some (.mldw (pOf w))
  | 0x02 => some (.mldwt (pOf w))
  | 0x03 => some (.mldws (pOf w))
  | 0x04 => some (.mldcb (pOf w))
  | 0x05 => some (.mma (pOf w))
  | 0x06 => some (.mmac (pOf w))
  | 0x07 => some (.mzero (pOf w))
  | 0x08 => some (.mstc (pOf w))
  | 0x09 => some (.mturn (pOf w))
  | 0x0A => some (.mrule (pOf w))
  | 0x0B => some (.mdrain (pOf w))
  | 0x0C => some (.msave (pOf w))
  | 0x0D => some (.mload (pOf w))
  | 0x0E => some (.mwait (pOf w))
  | 0x0F => some (.msig (pOf w))
  | 0x10 => some (.mqcfg (pOf w))
  | 0x11 => some (.mepi (pOf w))
  | 0x12 => some (.mprog (pOf w))
  | 0x13 => some (.mjmp (pOf w))
  | 0x14 => some (.mloop (pOf w))
  | 0x15 => some (.mend (pOf w))
  | 0x16 => some (.mkadd (pOf w))
  | _ => none

/-- The walker opcodes and the fields their entries name (R291-R301), without the check that the unnamed fields are zero. -/
def walkerOf (w : W32) : Option Instr :=
  let d := w.extractLsb' 22 4
  let a := w.extractLsb' 18 4
  let b := w.extractLsb' 14 4
  let i := w.extractLsb' 0 14
  let k := w.extractLsb' 14 3
  let o := w.extractLsb' 0 22
  match (w.extractLsb' 26 6).toNat with
  | 0x00 => some .wnop
  | 0x01 => if b = 0 then some (.wmovi d i) else if b = 1 then some (.wmoviSh d i) else none
  | 0x02 => some (.wmov d a)
  | 0x03 => some (.wadd d a b)
  | 0x04 => some (.waddi d a i)
  | 0x05 => some (.wsub d a b)
  | 0x06 => some (.wand d a b)
  | 0x07 => some (.wor d a b)
  | 0x08 => some (.wshl d a b (w.extractLsb' 5 1) (w.extractLsb' 0 5))
  | 0x09 => some (.wshr d a b (w.extractLsb' 5 1) (w.extractLsb' 0 5))
  | 0x0A => some (.wmin d a b)
  | 0x0B => some (.wpopc d a)
  | 0x0C => some (.wffs d a)
  | 0x0D => some (.wcmp a b)
  | 0x0E => some (.wcmpi a i)
  | 0x10 => some (.wld d a k i)
  | 0x11 => some (.wldh d a k i)
  | 0x12 => if w.getLsbD 17 then some (.wstC d a k i) else some (.wst d a k i)
  | 0x13 => some (.wbr d o)
  | 0x14 => if d = 0 then some (.wjmp o) else if d = 1 then some (.wjmpLink o) else if d = 2 then some .wjmpRet else none
  | 0x18 => some (.wemit a b i)
  | 0x19 => some (.wtile a)
  | 0x1A => some (.wwait (w.extractLsb' 0 2))
  | 0x1C => some (.wmerge a b)
  | 0x1D => some (.wmnext d a)
  | 0x1E => some (.wscan d a b (w.extractLsb' 0 3))
  | 0x20 => some .wyield
  | 0x21 => some .whalt
  | 0x22 => if i = 0 then some (.wprog d) else if i = 1 then some (.wprogSet a) else none
  | _ => none

/-- An ordinary walker word (R291). -/
def wBits (op : BitVec 6) (d a b : BitVec 4) (i : BitVec 14) : W32 := op ++ d ++ a ++ b ++ i

/-- A branch walker word (R291). -/
def wbBits (op : BitVec 6) (c : BitVec 4) (o : BitVec 22) : W32 := op ++ c ++ o

/-- The word of a walker instruction; zero for what is none. -/
def encodeWalker : Instr → W32
  | .wnop => wBits 0x00 0 0 0 0
  | .wmovi d i => wBits 0x01 d 0 0 i
  | .wmoviSh d i => wBits 0x01 d 0 1 i
  | .wmov d a => wBits 0x02 d a 0 0
  | .wadd d a b => wBits 0x03 d a b 0
  | .waddi d a i => wBits 0x04 d a 0 i
  | .wsub d a b => wBits 0x05 d a b 0
  | .wand d a b => wBits 0x06 d a b 0
  | .wor d a b => wBits 0x07 d a b 0
  | .wshl d a b r n => wBits 0x08 d a b ((0 : BitVec 8) ++ r ++ n)
  | .wshr d a b r n => wBits 0x09 d a b ((0 : BitVec 8) ++ r ++ n)
  | .wmin d a b => wBits 0x0A d a b 0
  | .wpopc d a => wBits 0x0B d a 0 0
  | .wffs d a => wBits 0x0C d a 0 0
  | .wcmp a b => wBits 0x0D 0 a b 0
  | .wcmpi a i => wBits 0x0E 0 a 0 i
  | .wld d a k i => wBits 0x10 d a ((0 : BitVec 1) ++ k) i
  | .wldh d a k i => wBits 0x11 d a ((0 : BitVec 1) ++ k) i
  | .wst d a k i => wBits 0x12 d a ((0 : BitVec 1) ++ k) i
  | .wstC d a k i => wBits 0x12 d a ((1 : BitVec 1) ++ k) i
  | .wbr c o => wbBits 0x13 c o
  | .wjmp o => wbBits 0x14 0 o
  | .wjmpLink o => wbBits 0x14 1 o
  | .wjmpRet => wbBits 0x14 2 0
  | .wemit a b i => wBits 0x18 0 a b i
  | .wtile a => wBits 0x19 0 a 0 0
  | .wwait s => wBits 0x1A 0 0 0 ((0 : BitVec 12) ++ s)
  | .wmerge a b => wBits 0x1C 0 a b 0
  | .wmnext d a => wBits 0x1D d a 0 0
  | .wscan d a b k => wBits 0x1E d a b ((0 : BitVec 11) ++ k)
  | .wyield => wBits 0x20 0 0 0 0
  | .whalt => wBits 0x21 0 0 0 0
  | .wprog d => wBits 0x22 d 0 0 0
  | .wprogSet a => wBits 0x22 0 a 0 1
  | _ => 0

/-- Steps 2 to 4 of R46 on a core word, less the position of an instruction that ends its clause. -/
def decodeCore (w : W64) : Except Reject Instr :=
  if isHeader w then .error .badHeader else
  match coreOf w with
  | none => .error .illegalInstruction
  | some i => if i.wellFormed then .ok i else .error .illegalEncoding

/-- R50, R259 and R260 on a stream word, less the position of MJMP, MLOOP and MEND. -/
def decodeStream (w : W64) : Except Reject Instr :=
  if isHeader w then .error .matrixIllegal else
  match streamOf w with
  | none => .error .matrixIllegal
  | some i => if i.wellFormed then .ok i else .error .matrixIllegal

/-- R291 on a walker word: an assigned op, legal values, and zero in every field that the entry does not name. -/
def decodeWalker (w : W32) : Except Reject Instr :=
  match walkerOf w with
  | none => .error .walkerIllegal
  | some i => if i.wellFormed && encodeWalker i = w then .ok i else .error .walkerIllegal

/-- The 64-bit word of a core instruction or of a stream word; zero for what has none. -/
def encodeWord : Instr → W64
  | .mov w => rBits 0x000 w
  | .iadd w => rBits 0x001 w
  | .isub w => rBits 0x002 w
  | .iaddc w => rBits 0x003 w
  | .imul w => rBits 0x004 w
  | .imulh w => rBits 0x005 w
  | .imad w => rBits 0x006 w
  | .imadw w => rBits 0x007 w
  | .idiv w => rBits 0x008 w
  | .irem w => rBits 0x009 w
  | .imin w => rBits 0x00A w
  | .imax w => rBits 0x00B w
  | .iabs w => rBits 0x00C w
  | .icmp w => rBits 0x00D w
  | .isel w => rBits 0x00E w
  | .lea w => rBits 0x00F w
  | .and w => rBits 0x010 w
  | .or w => rBits 0x011 w
  | .xor w => rBits 0x012 w
  | .andn w => rBits 0x013 w
  | .not w => rBits 0x014 w
  | .shl w => rBits 0x015 w
  | .shr w => rBits 0x016 w
  | .sha w => rBits 0x017 w
  | .rot w => rBits 0x018 w
  | .bfe w => rBits 0x019 w
  | .bfi w => rBits 0x01A w
  | .popc w => rBits 0x01B w
  | .clz w => rBits 0x01C w
  | .ctz w => rBits 0x01D w
  | .brev w => rBits 0x01E w
  | .bytep w => rBits 0x01F w
  | .plop w => rBits 0x020 w
  | .idot4 w => rBits 0x021 w
  | .shfl w => rBits 0x022 w
  | .vote w => rBits 0x023 w
  | .gscan w => rBits 0x024 w
  | .gred w => rBits 0x025 w
  | .movi w => iBits 0x080 w
  | .iaddi w => iBits 0x081 w
  | .isubi w => iBits 0x082 w
  | .iaddci w => iBits 0x083 w
  | .imuli w => iBits 0x084 w
  | .imulhi w => iBits 0x085 w
  | .imadi w => iBits 0x086 w
  | .imadwi w => iBits 0x087 w
  | .idivi w => iBits 0x088 w
  | .iremi w => iBits 0x089 w
  | .imini w => iBits 0x08A w
  | .imaxi w => iBits 0x08B w
  | .iabsi w => iBits 0x08C w
  | .icmpi w => iBits 0x08D w
  | .iseli w => iBits 0x08E w
  | .leai w => iBits 0x08F w
  | .andi w => iBits 0x090 w
  | .ori w => iBits 0x091 w
  | .xori w => iBits 0x092 w
  | .andni w => iBits 0x093 w
  | .noti w => iBits 0x094 w
  | .shli w => iBits 0x095 w
  | .shri w => iBits 0x096 w
  | .shai w => iBits 0x097 w
  | .roti w => iBits 0x098 w
  | .bfei w => iBits 0x099 w
  | .bfii w => iBits 0x09A w
  | .movih w => iBits 0x0FE w
  | .fadd w => rBits 0x100 w
  | .fsub w => rBits 0x101 w
  | .fmul w => rBits 0x102 w
  | .ffma w => rBits 0x103 w
  | .fmin w => rBits 0x104 w
  | .fmax w => rBits 0x105 w
  | .fcmp w => rBits 0x106 w
  | .fclass w => rBits 0x107 w
  | .fdiv w => rBits 0x108 w
  | .fsqrt w => rBits 0x109 w
  | .frcp w => rBits 0x10A w
  | .frsq w => rBits 0x10B w
  | .fexp2 w => rBits 0x10C w
  | .flog2 w => rBits 0x10D w
  | .fsin w => rBits 0x10E w
  | .fcos w => rBits 0x10F w
  | .fdot2 w => rBits 0x110 w
  | .cvtf w => rBits 0x180 w
  | .cvtfi w => rBits 0x181 w
  | .cvtif w => rBits 0x182 w
  | .cvtq w => rBits 0x183 w
  | .cvtdq w => rBits 0x184 w
  | .cbk w => rBits 0x185 w
  | .rngk w => rBits 0x186 w
  | .noise w => rBits 0x187 w
  | .ld w => mBits 0x200 w
  | .st w => mBits 0x201 w
  | .lds w => mBits 0x202 w
  | .sts w => mBits 0x203 w
  | .ats w => mBits 0x204 w
  | .ldsub w => mBits 0x205 w
  | .ldv w => mBits 0x206 w
  | .pref w => mBits 0x207 w
  | .fence w => mBits 0x208 w
  | .wack w => mBits 0x209 w
  | .cctl w => mBits 0x20A w
  | .ldvol w => mBits 0x20B w
  | .stvol w => mBits 0x20C w
  | .volinv w => mBits 0x20D w
  | .atom w => rBits 0x280 w
  | .red w => rBits 0x281 w
  | .gath w => mBits 0x282 w
  | .scat w => mBits 0x283 w
  | .scata w => mBits 0x284 w
  | .cas4 w => mBits 0x285 w
  | .sflush w => mBits 0x286 w
  | .regmode w => mBits 0x287 w
  | .reclaim w => mBits 0x288 w
  | .rbind w => rBits 0x2C0 w
  | .enter w => rBits 0x2C1 w
  | .enterm w => rBits 0x2C2 w
  | .etry w => rBits 0x2C3 w
  | .leave w => rBits 0x2C4 w
  | .push w => rBits 0x2C5 w
  | .pop w => rBits 0x2C6 w
  | .racc w => rBits 0x2C7 w
  | .rstat w => rBits 0x2C8 w
  | .runbind w => rBits 0x2C9 w
  | .cuenew w => cBits 0x2E0 w
  | .cuedep w => cBits 0x2E1 w
  | .cuearm w => cBits 0x2E2 w
  | .copy w => cBits 0x2E3 w
  | .copyt w => cBits 0x2E4 w
  | .cuewait w => iBits 0x2E5 w
  | .cueprog w => iBits 0x2E6 w
  | .cuekill w => cBits 0x2E7 w
  | .wlkgo w => cBits 0x2E8 w
  | .bra w => bBits 0x300 w
  | .brx w => bBits 0x301 w
  | .call w => bBits 0x302 w
  | .callx w => bBits 0x303 w
  | .ret w => bBits 0x304 w
  | .recon w => bBits 0x305 w
  | .yield w => bBits 0x306 w
  | .nap w => bBits 0x307 w
  | .bara w => bBits 0x308 w
  | .barw w => bBits 0x309 w
  | .bars w => bBits 0x30A w
  | .exit w => bBits 0x30B w
  | .launch w => bBits 0x30C w
  | .launcht w => bBits 0x30D w
  | .trap w => bBits 0x30E w
  | .raise w => bBits 0x30F w
  | .tret w => bBits 0x310 w
  | .tfence w => bBits 0x311 w
  | .elect w => rBits 0x312 w
  | .role w => bBits 0x313 w
  | .tmrset w => iBits 0x314 w
  | .brk w => bBits 0x315 w
  | .kmov w => kBits 0x360 w
  | .kmovi w => kBits 0x361 w
  | .kld w => kBits 0x362 w
  | .kput w => iBits 0x363 w
  | .kget w => iBits 0x364 w
  | .kadd w => kBits 0x365 w
  | .sread w => iBits 0x366 w
  | .swrite w => iBits 0x367 w
  | .tlbinv w => kBits 0x368 w
  | .asidset w => kBits 0x369 w
  | .ctxevict w => kBits 0x36A w
  | .mstart w => kBits 0x36B w
  | .mnop w => pBits 0x00 w
  | .mldw w => pBits 0x01 w
  | .mldwt w => pBits 0x02 w
  | .mldws w => pBits 0x03 w
  | .mldcb w => pBits 0x04 w
  | .mma w => pBits 0x05 w
  | .mmac w => pBits 0x06 w
  | .mzero w => pBits 0x07 w
  | .mstc w => pBits 0x08 w
  | .mturn w => pBits 0x09 w
  | .mrule w => pBits 0x0A w
  | .mdrain w => pBits 0x0B w
  | .msave w => pBits 0x0C w
  | .mload w => pBits 0x0D w
  | .mwait w => pBits 0x0E w
  | .msig w => pBits 0x0F w
  | .mqcfg w => pBits 0x10 w
  | .mepi w => pBits 0x11 w
  | .mprog w => pBits 0x12 w
  | .mjmp w => pBits 0x13 w
  | .mloop w => pBits 0x14 w
  | .mend w => pBits 0x15 w
  | .mkadd w => pBits 0x16 w
  | _ => 0

/-- How an instruction comes to be executed. -/
inductive WordKind where
  | core | stream | walker
  /-- A step of the part that has no word. -/
  | event
  deriving DecidableEq, Repr

/-- Which decoder reads the instruction's word. -/
def Instr.kind : Instr → WordKind
  | .mov _ => .core
  | .iadd _ => .core
  | .isub _ => .core
  | .iaddc _ => .core
  | .imul _ => .core
  | .imulh _ => .core
  | .imad _ => .core
  | .imadw _ => .core
  | .idiv _ => .core
  | .irem _ => .core
  | .imin _ => .core
  | .imax _ => .core
  | .iabs _ => .core
  | .icmp _ => .core
  | .isel _ => .core
  | .lea _ => .core
  | .and _ => .core
  | .or _ => .core
  | .xor _ => .core
  | .andn _ => .core
  | .not _ => .core
  | .shl _ => .core
  | .shr _ => .core
  | .sha _ => .core
  | .rot _ => .core
  | .bfe _ => .core
  | .bfi _ => .core
  | .popc _ => .core
  | .clz _ => .core
  | .ctz _ => .core
  | .brev _ => .core
  | .bytep _ => .core
  | .plop _ => .core
  | .idot4 _ => .core
  | .shfl _ => .core
  | .vote _ => .core
  | .gscan _ => .core
  | .gred _ => .core
  | .movi _ => .core
  | .iaddi _ => .core
  | .isubi _ => .core
  | .iaddci _ => .core
  | .imuli _ => .core
  | .imulhi _ => .core
  | .imadi _ => .core
  | .imadwi _ => .core
  | .idivi _ => .core
  | .iremi _ => .core
  | .imini _ => .core
  | .imaxi _ => .core
  | .iabsi _ => .core
  | .icmpi _ => .core
  | .iseli _ => .core
  | .leai _ => .core
  | .andi _ => .core
  | .ori _ => .core
  | .xori _ => .core
  | .andni _ => .core
  | .noti _ => .core
  | .shli _ => .core
  | .shri _ => .core
  | .shai _ => .core
  | .roti _ => .core
  | .bfei _ => .core
  | .bfii _ => .core
  | .movih _ => .core
  | .fadd _ => .core
  | .fsub _ => .core
  | .fmul _ => .core
  | .ffma _ => .core
  | .fmin _ => .core
  | .fmax _ => .core
  | .fcmp _ => .core
  | .fclass _ => .core
  | .fdiv _ => .core
  | .fsqrt _ => .core
  | .frcp _ => .core
  | .frsq _ => .core
  | .fexp2 _ => .core
  | .flog2 _ => .core
  | .fsin _ => .core
  | .fcos _ => .core
  | .fdot2 _ => .core
  | .cvtf _ => .core
  | .cvtfi _ => .core
  | .cvtif _ => .core
  | .cvtq _ => .core
  | .cvtdq _ => .core
  | .cbk _ => .core
  | .rngk _ => .core
  | .noise _ => .core
  | .ld _ => .core
  | .st _ => .core
  | .lds _ => .core
  | .sts _ => .core
  | .ats _ => .core
  | .ldsub _ => .core
  | .ldv _ => .core
  | .pref _ => .core
  | .fence _ => .core
  | .wack _ => .core
  | .cctl _ => .core
  | .ldvol _ => .core
  | .stvol _ => .core
  | .volinv _ => .core
  | .atom _ => .core
  | .red _ => .core
  | .gath _ => .core
  | .scat _ => .core
  | .scata _ => .core
  | .cas4 _ => .core
  | .sflush _ => .core
  | .regmode _ => .core
  | .reclaim _ => .core
  | .rbind _ => .core
  | .enter _ => .core
  | .enterm _ => .core
  | .etry _ => .core
  | .leave _ => .core
  | .push _ => .core
  | .pop _ => .core
  | .racc _ => .core
  | .rstat _ => .core
  | .runbind _ => .core
  | .cuenew _ => .core
  | .cuedep _ => .core
  | .cuearm _ => .core
  | .copy _ => .core
  | .copyt _ => .core
  | .cuewait _ => .core
  | .cueprog _ => .core
  | .cuekill _ => .core
  | .wlkgo _ => .core
  | .bra _ => .core
  | .brx _ => .core
  | .call _ => .core
  | .callx _ => .core
  | .ret _ => .core
  | .recon _ => .core
  | .yield _ => .core
  | .nap _ => .core
  | .bara _ => .core
  | .barw _ => .core
  | .bars _ => .core
  | .exit _ => .core
  | .launch _ => .core
  | .launcht _ => .core
  | .trap _ => .core
  | .raise _ => .core
  | .tret _ => .core
  | .tfence _ => .core
  | .elect _ => .core
  | .role _ => .core
  | .tmrset _ => .core
  | .brk _ => .core
  | .kmov _ => .core
  | .kmovi _ => .core
  | .kld _ => .core
  | .kput _ => .core
  | .kget _ => .core
  | .kadd _ => .core
  | .sread _ => .core
  | .swrite _ => .core
  | .tlbinv _ => .core
  | .asidset _ => .core
  | .ctxevict _ => .core
  | .mstart _ => .core
  | .mnop _ => .stream
  | .mldw _ => .stream
  | .mldwt _ => .stream
  | .mldws _ => .stream
  | .mldcb _ => .stream
  | .mma _ => .stream
  | .mmac _ => .stream
  | .mzero _ => .stream
  | .mstc _ => .stream
  | .mturn _ => .stream
  | .mrule _ => .stream
  | .mdrain _ => .stream
  | .msave _ => .stream
  | .mload _ => .stream
  | .mwait _ => .stream
  | .msig _ => .stream
  | .mqcfg _ => .stream
  | .mepi _ => .stream
  | .mprog _ => .stream
  | .mjmp _ => .stream
  | .mloop _ => .stream
  | .mend _ => .stream
  | .mkadd _ => .stream
  | .wnop => .walker
  | .wmovi _ _ => .walker
  | .wmoviSh _ _ => .walker
  | .wmov _ _ => .walker
  | .wadd _ _ _ => .walker
  | .waddi _ _ _ => .walker
  | .wsub _ _ _ => .walker
  | .wand _ _ _ => .walker
  | .wor _ _ _ => .walker
  | .wshl _ _ _ _ _ => .walker
  | .wshr _ _ _ _ _ => .walker
  | .wmin _ _ _ => .walker
  | .wpopc _ _ => .walker
  | .wffs _ _ => .walker
  | .wcmp _ _ => .walker
  | .wcmpi _ _ => .walker
  | .wld _ _ _ _ => .walker
  | .wldh _ _ _ _ => .walker
  | .wst _ _ _ _ => .walker
  | .wstC _ _ _ _ => .walker
  | .wbr _ _ => .walker
  | .wjmp _ => .walker
  | .wjmpLink _ => .walker
  | .wjmpRet => .walker
  | .wemit _ _ _ => .walker
  | .wtile _ => .walker
  | .wwait _ => .walker
  | .wmerge _ _ => .walker
  | .wmnext _ _ => .walker
  | .wscan _ _ _ _ => .walker
  | .wyield => .walker
  | .whalt => .walker
  | .wprog _ => .walker
  | .wprogSet _ => .walker
  | .bundleCast _ => .event
  | .dpfExpiry _ => .event
  | .watchdogExpiry _ => .event
  | .timerExpiry _ _ => .event
  | .napEnd _ _ => .event
  | .loadReturn _ => .event
  | .storeAcknowledgement _ => .event
  | .transitResume _ _ => .event
  | .launchRetry _ => .event
  | .calleeQueueTake _ => .event
  | .trapRecordWrite _ => .event
  | .resume _ _ _ _ => .event
  | .resumeStepped _ _ _ _ => .event
  | .skip _ _ _ _ => .event
  | .endTeam _ _ _ _ => .event
  | .saveAreaCommand _ _ _ _ => .event
  | .saveAreaWithdraw _ _ => .event
  | .reArm _ _ _ => .event
  | .kill _ _ _ => .event
  | .counterRetry _ _ _ => .event
  | .consumedIndexWrite _ _ => .event
  | .counterIncrement _ => .event
  | .teamPlacement _ _ => .event
  | .taskQueueTake _ => .event
  | .teamRetire _ => .event
  | .teamRemoval _ => .event
  | .teamReturn _ _ => .event
  | .shootDownAcknowledge _ _ => .event
  | .volAllocRequest _ => .event
  | .homeWrite _ => .event
  | .homeRead _ => .event
  | .precisionUpgrade _ => .event
  | .readForOwnership _ _ => .event
  | .probe _ _ => .event
  | .rdcProbe _ _ => .event
  | .probeAnswer _ => .event
  | .directoryMerge _ _ => .event
  | .recall _ _ => .event
  | .ownerWriteBack _ _ _ => .event
  | .hostReadShared _ => .event
  | .hostReadExclusive _ => .event
  | .hostWrite _ _ => .event
  | .lostMark _ _ => .event
  | .eccError _ _ _ _ => .event
  | .usherDemand _ => .event
  | .usherLeave _ => .event
  | .tenureExpiry _ => .event
  | .etryBudgetExpiry _ _ => .event
  | .roomAdmission _ _ => .event
  | .cueStart _ _ => .event
  | .cueCompletion _ _ => .event
  | .cueFault _ _ => .event
  | .walkerJobStart _ _ => .event
  | .walkerSlotRotation _ => .event
  | .passGrant _ => .event
  | .passAging _ => .event
  | .passCompletion _ => .event
  | .noiseHealthFailure _ => .event
  | .rehearsalRecord _ => .event
  | .replayDraw _ _ => .event
  | .hostDoorbell _ _ => .event
  | .hostCompletionWrite _ => .event
  | .completionHeadWrite _ _ => .event
  | .queueEnable _ _ => .event
  | .accessTableWrite _ _ => .event
  | .attestationRequest _ => .event
  | .controlRegisterWrite _ _ => .event
  | .pathDown _ _ => .event
  | .deviceUnreachable _ => .event
  | .thermalTrip _ => .event
  | .powerCap _ => .event
  | .bringUp _ _ => .event
  | .passStop _ => .event
  | .longLatencyResult _ => .event
  | .registerLineFill _ _ _ => .event
  | .walkerLoadReturn _ _ => .event
  | .noiseDrawDelivery _ => .event
  | .noiseHealthPass _ => .event
  | .flushMarkerArrival _ _ => .event
  | .portWorkCompletion _ _ _ => .event

/-- The words of an instruction as they stand in memory, lowest address first: bytes of a 64-bit or 32-bit little-endian word
(R1, R291); nothing for a step of the part. -/
def encode (i : Instr) : List Byte :=
  match i.kind with
  | .core | .stream => (List.range 8).map fun k => (encodeWord i).extractLsb' (8 * k) 8
  | .walker => (List.range 4).map fun k => (encodeWalker i).extractLsb' (8 * k) 8
  | .event => []

/-- The 64-bit word that eight bytes make, lowest address first. -/
def wordOfBytes (l : List Byte) : Nat := l.foldr (fun b n => b.toNat + 256 * n) 0

/-- Decoding from bytes by the kind of the fetching unit; too few bytes are no word. -/
def decodeBytes (k : WordKind) (l : List Byte) : Except Reject Instr :=
  match k with
  | .core => if 8 ≤ l.length then decodeCore (BitVec.ofNat 64 (wordOfBytes (l.take 8))) else .error .illegalInstruction
  | .stream => if 8 ≤ l.length then decodeStream (BitVec.ofNat 64 (wordOfBytes (l.take 8))) else .error .matrixIllegal
  | .walker => if 4 ≤ l.length then decodeWalker (BitVec.ofNat 32 (wordOfBytes (l.take 4))) else .error .walkerIllegal
  | .event => .error .illegalInstruction

/-- The instruction of a word given by its bits. A walker word has 32 bits or fewer. A wider word is a core word, or, where its
opcode is no core opcode that fits, a stream word: the two maps share the 64-bit space and the fetching unit tells them apart. -/
def decodeTableWord (nbits w : Nat) : Option Instr :=
  if nbits ≤ 32 then (decodeWalker (BitVec.ofNat 32 w)).toOption
  else
    match decodeCore (BitVec.ofNat 64 w) with
    | .ok i => some i
    | .error _ => (decodeStream (BitVec.ofNat 64 w)).toOption

end Sys2Proof
end

