-- ==== Sys2Proof/Machine/Coherence.lean ====
section
/-! DEFINITION. Coherence at the home slice: sequence tags (18 R336), copies and directory entries (R337-R342), probes and their
answers (R339, R344, R345, R348), owners (R343) and a write applied with everything that follows from it. -/

namespace Sys2Proof.Machine

open Sys2Proof

/-! ## Lines, tags and counters -/

/-- The line is device memory, which has a home slice, a tag and a directory (R11, R336, R349). -/
def isDeviceLine (line : Nat) : Bool := line < 2 ^ 40

/-- The line is host memory (R416). -/
def isHostLine (line : Nat) : Bool := 2 ^ 50 ≤ line && line < 2 ^ 51

/-- The sequence tag of a line (R336). -/
def State.tag (s : State) (line : Nat) : Nat := look 0 s.coh.tags line

/-- Counters of R335 in the order of its table: 2 writes, 4 splits, 5 merges, 6 spared checks, 7 invalidations, 8 updates,
9 replacements, 10 lost marks. Rows 0, 1 and 3 say what is held now and are not stored. -/
def Coh.count (c : Coh) (slice row n : Nat) : Coh :=
  { c with counters := keep 0 c.counters (16 * slice + row) ((look 0 c.counters (16 * slice + row) + n) % 2 ^ 64) }

/-- Bytes of a list replaced from a place on. -/
def overlay (l : List Byte) (off : Nat) (d : List Byte) : List Byte := l.take off ++ d ++ l.drop (off + d.length)

/-- The bytes of `d`, which begin at address `a`, that lie in a line, laid over the line's bytes. -/
def overlayAt (line : Nat) (l : List Byte) (a : Nat) (d : List Byte) : List Byte :=
  if a < line then overlay l 0 ((d.drop (line - a)).take 128) else overlay l (a - line) (d.take (line + 128 - a))

/-! ## Formats of subscriptions (R192) -/

/-- The format of a subscription code: 0 BF16, 1 F16, 2 E4M3, 3 E5M2. -/
def subFmt (f : Nat) : Fmt :=
  match f with
  | 0 => fmtBF16
  | 1 => fmtF16
  | 2 => fmtE4M3
  | _ => fmtE5M2

/-- Bytes of a rounded element. -/
def subBytes (f : Nat) : Nat := if f ≤ 1 then 2 else 1

/-- Rank by fraction bits (R346); plain data ranks 4. -/
def subRank (f : Nat) : Nat :=
  match f with
  | 0 => 2
  | 1 => 3
  | 2 => 1
  | 3 => 0
  | _ => 4

/-- RNE(v, f) of one F32 element, without saturation (R192). -/
def roundSub (f v : Nat) : Nat := ((subFmt f).round 0 0 false (fmtF32.decode v)).1

/-- The rounded elements of a line's bytes. -/
def roundLine (f : Nat) (l : List Byte) : List Byte :=
  ((List.range (l.length / 4)).map fun i => toBytes (subBytes f) (roundSub f (ofBytes ((l.drop (4 * i)).take 4)))).flatten

/-- changed(f) of R344 over the elements of a line that hold at least one byte in [lo, hi). -/
def changedFmt (f : Nat) (old new_ : List Byte) (lo hi : Nat) : Bool :=
  (List.range 32).any fun i =>
    decide (4 * i < hi) && decide (lo < 4 * i + 4)
      && roundSub f (ofBytes ((old.drop (4 * i)).take 4)) ≠ roundSub f (ofBytes ((new_.drop (4 * i)).take 4))

/-! ## Copies -/

/-- An agent's copy of a line. -/
def Coh.copy? (c : Coh) (who : Sharer) (line : Nat) : Option Copy := c.copies.find? fun k => k.who = who && k.line = line

def Coh.dropCopy (c : Coh) (who : Sharer) (line : Nat) : Coh :=
  { c with copies := c.copies.filter fun k => !(k.who = who && k.line = line) }

def Coh.setCopy (c : Coh) (k : Copy) : Coh := { c with copies := k :: (c.dropCopy k.who k.line).copies }

/-- The untracked copies of a line that a core could read are dropped: its L1's and its die's RDC's (R198, R351). -/
def Coh.dropLoose (c : Coh) (core line : Nat) : Coh :=
  { c with copies := c.copies.filter fun k =>
      !(k.line = line && k.st = CopyState.loose && (k.who = .l1 core || k.who = .rdc (coreDie core))) }

/-- The bit of a code in a code set (R338). -/
def codeBit (st : CopyState) : BitVec 9 :=
  match st with
  | .p f upd => BitVec.ofNat 9 (2 ^ (1 + 2 * f + if upd then 1 else 0))
  | _ => 1

/-! ## Directory entries (R338) -/

/-- Bytes of the aligned block of a level. -/
def levelSize (level : Nat) : Nat := 65536 / 2 ^ level

/-- An entry's region covers a line. -/
def DirEntry.covers (e : DirEntry) (line : Nat) : Bool :=
  e.slice = home line && e.block ≤ line && line < e.block + levelSize e.level

def Coh.entry? (c : Coh) (line : Nat) : Option DirEntry := if isDeviceLine line then c.dir.find? fun e => e.covers line else none

/-- The half of an entry's region that a line lies in: 0 lower, 1 upper; at level 3 there is one. -/
def DirEntry.half (e : DirEntry) (line : Nat) : Nat := if e.level = 3 then 0 else (line - e.block) / levelSize (e.level + 1)

/-- The half mask that a sharer answers: which halves of the entry's region it still holds a line of (R339). -/
def Coh.mask (c : Coh) (e : DirEntry) (who : Sharer) : Nat :=
  let mine := c.copies.filter fun (k : Copy) => k.who = who && e.covers k.line && k.st ≠ CopyState.loose
  (if mine.any fun k => e.half k.line = 0 then 1 else 0) + (if mine.any fun k => e.half k.line = 1 then 2 else 0)

/-- An entry in place of another; an entry left with no sharer and no owner is freed (R339). -/
def Coh.putEntry (c : Coh) (old new_ : DirEntry) : Coh :=
  { c with dir := (if new_.sharers.isEmpty && new_.owner.isNone then [] else [new_]) ++ c.dir.filter fun e => e ≠ old }

/-- Blocks of two entries overlap. -/
def overlaps (b n b' n' : Nat) : Bool := b < b' + n' && b' < b + n

/-- The largest region that contains a line and overlaps no live entry of its slice (R338). -/
def Coh.freeLevel (c : Coh) (line : Nat) : Nat :=
  ((List.range 4).find? fun k =>
    !c.dir.any fun e => e.slice = home line
      && overlaps (line / levelSize k * levelSize k) (levelSize k) e.block (levelSize e.level)).getD 3

/-! ## Probes (R339, R344, R348) -/

/-- The record that a write makes for each format. -/
def changedList (old new_ : List Byte) (lo hi : Nat) : List (Nat × Bool) :=
  (List.range 4).map fun f => (f, changedFmt f old new_ lo hi)

/-- Formats that a code set holds a subscription of. -/
def setFormats (set : BitVec 9) : List Nat :=
  (List.range 4).filter fun f => set.getLsbD (1 + 2 * f) || set.getLsbD (2 + 2 * f)

/-- The probe that a write sends to one sharer, or none when it is spared (R344). -/
def probeFor (changed : List (Nat × Bool)) (who : Sharer) (set : BitVec 9) : Option Probe :=
  let hot := (setFormats set).filter fun f => changed.contains (f, true)
  if set.getLsbD 0 then some { dest := who, act := .invalidate, changed := changed, reply := none }
  else if hot.isEmpty then none
  else some { dest := who, act := .update, changed := changed, reply := none }

/-- The rounded elements `es` of a line laid over a copy's (R344). -/
def patchRounded (f : Nat) (es : List Nat) (sub line : List Byte) : List Byte :=
  es.foldl (fun l e => overlay l (e * subBytes f) (toBytes (subBytes f) (roundSub f (ofBytes ((line.drop (4 * e)).take 4))))) sub

/-- A sharer's copy after a probe of a write to the elements `es`: dropped by an invalidate; under P(f), updated or dropped where f
changed, else kept. -/
def Coh.applyTo (c : Coh) (who : Sharer) (line : Nat) (act : Action) (changed : List (Nat × Bool)) (es : List Nat) (data : List Byte) : Coh :=
  match c.copy? who line with
  | none => c
  | some k =>
    match act, k.st with
    | .census, _ => c
    | _, .loose => c
    | .invalidate, _ => c.dropCopy who line
    | .update, .p f upd =>
      if changed.contains (f, true) then
        if upd then c.setCopy { k with data := patchRounded f es k.data data } else c.dropCopy who line
      else c
    | .update, _ => c

/-- The L1s of a die that hold a line. -/
def Coh.l1sOf (c : Coh) (die line : Nat) : List Copy :=
  c.copies.filter fun (k : Copy) => k.line = line && k.st ≠ CopyState.loose
    && (match k.who with
        | .l1 core => coreDie core = die
        | _ => false)

/-- What an RDC does with a probe: its own copy, then its L1s: those in S are invalidated, those in P(f) follow the record of f (R348). -/
def Coh.applyRdc (c : Coh) (die line : Nat) (p : Probe) (es : List Nat) (data : List Byte) : Coh :=
  if p.act = .census then c else
  let c1 := c.applyTo (.rdc die) line p.act p.changed es data
  (c1.l1sOf die line).foldl (fun c k =>
    match k.st with
    | .s => c.dropCopy k.who line
    | _ => c.applyTo k.who line .update p.changed es data) c1

/-- A probe applied by whoever it goes to. -/
def Coh.applyProbe (c : Coh) (line : Nat) (p : Probe) (es : List Nat) (data : List Byte) : Coh :=
  match p.dest with
  | .rdc die => c.applyRdc die line p es data
  | who => c.applyTo who line p.act p.changed es data

/-- The mask that the receiver of a probe answers; an RDC holds what its L1s hold (R348). -/
def Coh.answer (c : Coh) (line : Nat) (who : Sharer) : Nat :=
  match c.entry? line with
  | none => 0
  | some e =>
    match who with
    | .rdc die =>
      let l1s := c.copies.filter fun (k : Copy) => e.covers k.line && k.st ≠ CopyState.loose
        && (match k.who with
            | .l1 core => coreDie core = die
            | _ => false)
      let own := c.mask e who
      let lo := bitOf own 0 || l1s.any fun k => e.half k.line = 0
      let hi := bitOf own 1 || l1s.any fun k => e.half k.line = 1
      (if lo then 1 else 0) + (if hi then 2 else 0)
    | _ => c.mask e who

/-- Sharers that answered a zero mask leave the entry (R339). -/
def Coh.leaveEntry (c : Coh) (line : Nat) (gone : List Sharer) : Coh :=
  match c.entry? line with
  | none => c
  | some e => c.putEntry e { e with sharers := e.sharers.filter fun x => !gone.contains x.1 }

/-- An entry leaves with every copy of its region: each sharer is probed with invalidate for each line (R342, R352). -/
def Coh.dropEntry (c : Coh) (e : DirEntry) : Coh :=
  ({ c with
    dir := c.dir.filter fun x => x ≠ e
    copies := c.copies.filter fun (k : Copy) => !(e.covers k.line && k.st ≠ CopyState.loose) } : Coh).count e.slice 7
      (e.sharers.length * (8 / 2 ^ e.level))

/-- A write to a line of an entry's region has probes out (R345). -/
def Coh.openIn (c : Coh) (e : DirEntry) : Bool := c.txns.any fun t => e.covers t.line

/-! ## Frames (R334) -/

/-- Granules of a line that are not zero. -/
def granules (l : List Byte) : Nat := ((List.range 64).filter fun g => ofBytes ((l.drop (2 * g)).take 2) ≠ 0).length

/-- Sectors that a line occupies, 0 to 4. -/
def sectors (l : List Byte) : Nat := (2 * granules l + 31) / 32

/-- Sectors of a line as its home copy stands. -/
def State.sectorsOf (s : State) (line : Nat) : Nat := sectors (getBytes s.mem line 128)

/-- A frame has room for a line beside its others: at most four lines, at most four sectors. -/
def State.fits (s : State) (line : Nat) (f : Frame) : Bool :=
  let others := f.lines.filter fun l => l ≠ line
  decide (others.length < 4) && decide ((others.map s.sectorsOf).foldl (· + ·) 0 + s.sectorsOf line ≤ 4)

/-- Frames without a line. -/
def framesLess (fs : List Frame) (line : Nat) : List Frame :=
  (fs.map fun f => { f with lines := f.lines.filter fun l => l ≠ line }).filter fun f => !f.lines.isEmpty

/-- A line leaves its frame: it is in memory alone. -/
def Coh.leaveFrame (c : Coh) (line : Nat) : Coh :=
  { c with frames := framesLess c.frames line, dirty := c.dirty.filter fun l => l ≠ line }

/-- The oldest frame of a slice. -/
def Coh.oldest (c : Coh) (slice : Nat) : Option Frame := (c.frames.filter fun f => f.slice = slice).getLast?

/-- A line placed in the first frame of its slice with room, or in a new one; when all of the slice's frames are in use, 12,288 less
those that are retired (R427), the oldest gives way (log 72). -/
def State.place (s : State) (line : Nat) : State :=
  let mine := s.coh.frames.filter fun f => f.slice = home line
  match mine.find? (s.fits line) with
  | some f => { s with coh := { s.coh with frames := updWhere s.coh.frames (fun x => x = f) fun x => { x with lines := line :: x.lines } } }
  | none =>
    if 12288 ≤ s.coh.wornOut 1 (home line) then s else
    let out := if mine.length < 12288 - s.coh.wornOut 1 (home line) then [] else ((s.coh.oldest (home line)).map Frame.lines).getD []
    let c := out.foldl Coh.leaveFrame s.coh
    { s with coh := { c with frames := ({ slice := home line, lines := [line] } : Frame) :: c.frames } }

/-- A line is in a frame of its slice from now on; one that its frame has no room for any more moves (R334). -/
def State.hold (s : State) (line : Nat) : State :=
  if !isDeviceLine line then s else
  match s.coh.frames.find? fun f => f.lines.contains line with
  | some f => if s.fits line f then s else ({ s with coh := { s.coh with frames := framesLess s.coh.frames line } } : State).place line
  | none => s.place line

/-- Lines and sectors that a slice holds, and its live entries (R335). -/
def State.linesHeld (s : State) (slice : Nat) : List Nat := ((s.coh.frames.filter fun f => f.slice = slice).map Frame.lines).flatten
def State.sectorsInUse (s : State) (slice : Nat) : Nat := ((s.linesHeld slice).map s.sectorsOf).foldl (· + ·) 0
def Coh.entriesLive (c : Coh) (slice : Nat) : Nat := (c.dir.filter fun e => e.slice = slice).length

/-- A row of a slice's counter block (R335, R417). -/
def State.sliceCounter (s : State) (slice row : Nat) : Nat :=
  match row with
  | 0 => (s.linesHeld slice).length
  | 1 => s.sectorsInUse slice
  | 3 => s.coh.entriesLive slice
  | _ => look 0 s.coh.counters (16 * slice + row)

/-! ## Owners (R343) -/

/-- The owner that the directory records for a line. -/
def Coh.owner? (c : Coh) (line : Nat) : Option (Sharer × CopyState) := (c.entry? line).bind DirEntry.owner

/-- A write raises the tag by 1 modulo 2^24 (R336); host lines carry no tag (R349). -/
def Coh.raiseTag (c : Coh) (line : Nat) : Coh :=
  let c1 := if isDeviceLine line || 2 ^ 52 ≤ line then { c with tags := keep 0 c.tags line ((look 0 c.tags line + 1) % 2 ^ 24) } else c
  if isDeviceLine line then ({ c1 with dirty := line :: c1.dirty.filter fun l => l ≠ line }).count (home line) 2 1 else c1

/-- The quiet time of a line's entry starts again (R341). -/
def Coh.noteWrite (c : Coh) (now line : Nat) : Coh :=
  let c1 := if isDeviceLine line then { c with written := keep 0 c.written line now } else c
  match c1.entry? line with
  | some e => c1.putEntry e { e with quiet := now }
  | none => c1

/-- One write at home: the line's bytes, its tag, its residence and the quiet time of its entry (R336, R341). -/
def State.putLine (s : State) (line : Nat) (data : List Byte) : State :=
  ({ s with mem := putBytes s.mem line data, coh := (s.coh.raiseTag line).noteWrite s.time line } : State).hold line

/-- An owner writes back a modified copy, one write, and keeps the line in `after` (R336, R343). An owner in M or E carries with it
stores that it has not shown yet; one in O has none. A clean copy only changes state. -/
def State.writeBack (s : State) (line : Nat) (cells : List Host.Cell) (after : Option CopyState) : State :=
  match s.coh.owner? line, s.coh.entry? line with
  | some (who, st0), some e =>
    match s.coh.copy? who line with
    | none => { s with coh := s.coh.putEntry e { e with owner := none } }
    | some k =>
      let mine := if st0 = .o then [] else cells.filter fun x => line ≤ x.1 && x.1 < line + 128
      let data := mine.foldl (fun d x => overlay d (x.1 - line) [x.2]) k.data
      let s1 := if k.modified || !mine.isEmpty then s.putLine line data else s
      match after, s1.coh.entry? line with
      | none, some e1 =>
        { s1 with coh := (s1.coh.dropCopy who line).putEntry e1 { e1 with owner := none, sharers := e1.sharers.filter fun x => x.1 ≠ who } }
      | some st, some e1 =>
        let e2 := { e1 with owner := if st = .s then none else some (who, st),
                            sharers := if st = .s then (who, 1) :: e1.sharers.filter fun x => x.1 ≠ who else e1.sharers }
        { s1 with coh := (s1.coh.setCopy { k with st := st, data := data }).putEntry e1 e2 }
      | _, none => s1
  | _, _ => s

/-! ## Room in the directory (R342) -/

/-- A full slice replaces an entry other than `spare`, the oldest that has no write open or else the oldest: its owner writes back, every
sharer is probed with invalidate for each line of its region (R342, log 72). -/
def State.makeRoom (s : State) (slice : Nat) (spare : Option DirEntry) : State :=
  if s.coh.entriesLive slice < 16384 then s else
  let may := s.coh.dir.filter fun e => e.slice = slice && some e ≠ spare
  match ((may.filter fun e => !s.coh.openIn e).getLast?).orElse fun _ => may.getLast? with
  | none => s
  | some e =>
    let s1 := match s.coh.copies.find? fun k => e.covers k.line && e.owner.map Prod.fst = some k.who with
      | some k => s.writeBack k.line [] none
      | none => s
    let c := (s1.coh.dir.filter fun x => x.slice = e.slice && x.block = e.block && x.level = e.level).foldl Coh.dropEntry s1.coh
    { s1 with coh := c.count slice 9 1 }

/-- The last write to a line of a block's region, cycle 0 where there was none (R341). -/
def Coh.lastWrite (c : Coh) (slice block level : Nat) : Nat :=
  ((c.written.filter fun w => home w.1 = slice && block ≤ w.1 && w.1 < block + levelSize level).map Prod.snd).foldl max 0

/-- A code added for a sharer of a line, in the entry that covers the line or in a new one (R338). -/
def State.addSharer (s : State) (line : Nat) (who : Sharer) (st : CopyState) : State :=
  if !isDeviceLine line then s else
  match s.coh.entry? line with
  | some e =>
    let set := ((e.sharers.find? fun x => x.1 = who).map Prod.snd).getD 0 ||| codeBit st
    { s with coh := s.coh.putEntry e { e with sharers := (who, set) :: e.sharers.filter fun x => x.1 ≠ who } }
  | none =>
    let s1 := s.makeRoom (home line) none
    let k := s1.coh.freeLevel line
    let block := line / levelSize k * levelSize k
    { s1 with coh := { s1.coh with dir := { slice := home line, block := block, level := k, sharers := [(who, codeBit st)], owner := none,
                                            quiet := s1.coh.lastWrite (home line) block k } :: s1.coh.dir } }

/-- An entry replaced by its two halves, each with the sharers whose mask has its bit (R340). -/
def State.splitBy (s : State) (e : DirEntry) (mask : Sharer → Nat) : State :=
  let half (i : Nat) : DirEntry :=
    { e with level := e.level + 1, block := e.block + i * levelSize (e.level + 1), quiet := s.time,
             sharers := e.sharers.filter fun x => bitOf (mask x.1) i }
  let two := ([half 0, half 1]).filter fun (h : DirEntry) => !h.sharers.isEmpty
  let s1 := if two.length = 2 then s.makeRoom e.slice (some e) else s
  { s1 with coh := ({ s1.coh with dir := two ++ s1.coh.dir.filter fun x => x ≠ e } : Coh).count e.slice 4 1 }

/-- The entry that covers a line split until it covers that line alone. -/
def State.isolate (s : State) (line : Nat) : Nat → State
  | 0 => s
  | n + 1 =>
    match s.coh.entry? line with
    | some e => if e.level < 3 then (s.splitBy e (s.coh.answer line)).isolate line n else s
    | none => s

/-! ## Requests of a write -/

def State.req? (s : State) (id : Nat) : Option Req := s.flight.reqs.find? fun r => r.id = id

/-- Requests picked by a test, changed. -/
def State.updReqs (s : State) (p : Req → Bool) (f : Req → Req) : State :=
  { s with flight := { s.flight with reqs := updWhere s.flight.reqs p f } }

/-- The key of a request's first byte, and its line. -/
def State.keyOf (s : State) (r : Req) : Nat := memKey s.ctl r.pa
def State.lineOf' (s : State) (r : Req) : Nat := lineOf (s.keyOf r)

/-- The lines that a request names: those of its entries for a CAS4 (R361), else its own. -/
def State.linesFor (s : State) (r : Req) : List Nat :=
  match r.kind with
  | .cas4 es => es.map fun e => lineOf e.1
  | _ => [s.lineOf' r]

/-- The home is busy with a write to the line (R345). -/
def State.busy (s : State) (line : Nat) : Bool := s.coh.txns.any fun t => t.line = line

/-- A write to the line, or to another line under its entry, has probes out: an entry does not split during a write (R341, R345). -/
def State.blocked (s : State) (line : Nat) : Bool := s.busy line || ((s.coh.entry? line).map s.coh.openIn).getD false

/-! ## A write at home -/

/-- Bytes written to one line: place in the line and data. -/
abbrev Pieces := List (Nat × List Byte)

/-- The line's bytes after pieces are written in order. -/
def applyPieces (l : List Byte) (ps : Pieces) : List Byte := ps.foldl (fun l p => overlay l p.1 p.2) l

/-- The 4-byte elements that hold a byte of the pieces: E of R344. -/
def elemsOf (ps : Pieces) : List Nat :=
  (List.range 32).filter fun e => ps.any fun p => decide (p.1 < 4 * e + 4) && decide (4 * e < p.1 + p.2.length)

/-- changed(f) of a write for each format. -/
def changedBy (old new_ : List Byte) (ps : Pieces) : List (Nat × Bool) :=
  (List.range 4).map fun f => (f, ps.any fun p => changedFmt f old new_ p.1 (p.1 + p.2.length))

/-- The probes of a write to a line (R344): to every sharer but the writing core's L1. -/
def Coh.probes (c : Coh) (line : Nat) (writer : Option Sharer) (changed : List (Nat × Bool)) : List Probe :=
  match c.entry? line with
  | none => []
  | some e => (e.sharers.filter fun x => some x.1 ≠ writer).filterMap fun x => probeFor changed x.1 x.2

/-- The receiver of a probe by formats has a changed code with the update bit; without one its action is invalidate (R344). -/
def Coh.asksUpdate (c : Coh) (line : Nat) (p : Probe) : Bool :=
  match (c.entry? line).bind fun e => e.sharers.find? fun x => x.1 = p.dest with
  | some x => p.act = .update && (List.range 4).any fun f => p.changed.contains (f, true) && x.2.getLsbD (2 + 2 * f)
  | none => false

/-- Counts what a write's probes did (R335): spared pairs, invalidations and updates. -/
def Coh.countProbes (c : Coh) (line : Nat) (ps : List Probe) (spared : Nat) : Coh :=
  let sl := home line
  let ups := (ps.filter (c.asksUpdate line)).length
  ((c.count sl 7 ((ps.filter fun p => p.act ≠ .census).length - ups)).count sl 8 ups).count sl 6 spared

/-- Subscriber and format pairs that a write leaves untouched. -/
def Coh.sparedPairs (c : Coh) (line : Nat) (writer : Option Sharer) (changed : List (Nat × Bool)) : Nat :=
  match c.entry? line with
  | none => 0
  | some e => (((e.sharers.filter fun x => some x.1 ≠ writer && !x.2.getLsbD 0).map fun x =>
      ((setFormats x.2).filter fun f => !changed.contains (f, true)).length)).foldl (· + ·) 0

/-- A write applied to a line: bytes, tag, residence and counters, with its probes sent to be answered (R336, R344, R345). Windows and
managed regions send none (R351). -/
def State.openWrite (s : State) (line : Nat) (req : Option Nat) (ps : Pieces) (writer : Option Sharer) (nc : Bool) : State :=
  let old := getBytes s.mem line 128
  let new_ := applyPieces old ps
  let changed := changedBy old new_ ps
  let probes := if nc then [] else s.coh.probes line writer changed
  let spared := if nc then 0 else s.coh.sparedPairs line writer changed
  let s1 := s.putLine line new_
  let c := s1.coh.countProbes line probes spared
  { s1 with coh := if probes.isEmpty then c else
      { c with txns := c.txns ++ [{ line := line, req := req, probes := probes, data := new_, elems := elemsOf ps }] } }

/-! ## Probes answered, a write complete (R339, R340, R345) -/

/-- The transaction on a line. -/
def State.txn? (s : State) (line : Nat) : Option Txn := s.coh.txns.find? fun t => t.line = line

/-- A probe that is not answered yet is applied by its receiver and answered with a half mask (R339). -/
def State.answerProbe (s : State) (line : Nat) (who : Sharer) : State :=
  match s.txn? line with
  | none => s
  | some t =>
    match t.probes.find? fun p => p.dest = who && p.reply.isNone with
    | none => s
    | some p =>
      let c := s.coh.applyProbe line p t.elems t.data
      let m := c.answer line who
      { s with coh := { c with txns := updWhere c.txns (fun x => x.line = line) fun x =>
          { x with probes := updWhere x.probes (fun q => q = p) fun q => { q with reply := some m } } } }

/-- A conflict (R340): some sharer answered a nonzero mask without the half of the line. -/
def conflicts (e : DirEntry) (line : Nat) (answers : List Nat) : Bool :=
  e.level < 3 && answers.any fun m => m ≠ 0 && !bitOf m (e.half line)

/-- What the sharers of a write's entry hold of its region: what they answered, and what they have taken since (R338, R339). -/
def Coh.held (c : Coh) (t : Txn) (who : Sharer) : Nat :=
  ((t.probes.find? fun p => p.dest = who).bind Probe.reply).getD 0 ||| c.answer t.line who

/-- What remains at home once every probe is answered: a conflict splits the entry; else sharers that hold nothing leave (R339,
R340). -/
def State.settle (s : State) (t : Txn) : State :=
  match s.coh.entry? t.line with
  | none => s
  | some e =>
    if conflicts e t.line ((t.probes.filter fun p => p.act ≠ .census).filterMap Probe.reply) then s.splitBy e (s.coh.held t)
    else
      let gone := (t.probes.map Probe.dest).filter fun w => s.coh.held t w = 0
      { s with coh := s.coh.leaveEntry t.line gone }

/-- The censuses that a conflict still asks for: to every sharer that the write did not probe (R340). -/
def Coh.censuses (c : Coh) (t : Txn) : List Probe :=
  match c.entry? t.line with
  | none => []
  | some e =>
    let rest := e.sharers.filter fun x => !t.probes.any fun p => p.dest = x.1
    if conflicts e t.line ((t.probes.filter fun p => p.act ≠ .census).filterMap Probe.reply) then
      rest.map fun x => { dest := x.1, act := .census, changed := [], reply := none }
    else []

/-- Requests that a transaction's end completes: all the bytes of one instruction on the line, or the request. -/
def State.endTxn (s : State) (t : Txn) : State :=
  let s1 := { s with coh := { s.coh with txns := s.coh.txns.filter fun x => x ≠ t } }
  match t.req.bind s.req? with
  | none => s1
  | some r =>
    match r.kind with
    | .store => s1.updReqs (fun q => q.kind = .store && q.batch = r.batch && s.lineOf' q = t.line && q.stage = .performed)
        fun q => { q with stage := .done }
    | .scat => s1.updReqs (fun q => q.kind = .scat && q.op = r.op && s.lineOf' q = t.line && q.stage = .performed)
        fun q => { q with stage := .done }
    | _ => if s1.coh.txns.any fun x => x.req = some r.id then s1
           else s1.updReqs (fun q => q.id = r.id) fun q => { q with stage := .done }

/-- The transactions that complete together: that of the line, and those of the other lines of its CAS4 (R83, R361). -/
def State.mates (s : State) (line : Nat) : List Txn :=
  match s.txn? line with
  | none => []
  | some t => s.coh.txns.filter fun x => x.line = line || (t.req.isSome && x.req = t.req)

/-- A write whose probes are all answered completes at home, after the census of a conflict (R340, R345). -/
def State.closeTxn (s : State) (line : Nat) : State :=
  let ts := s.mates line
  if ts.any fun t => t.probes.any fun p => p.reply.isNone then s
  else if ts.any fun t => !(s.coh.censuses t).isEmpty then
    { s with coh := { s.coh with txns := s.coh.txns.map fun t => if ts.contains t then { t with probes := t.probes ++ s.coh.censuses t } else t } }
  else ts.foldl (fun s t => (s.settle t).endTxn t) s

/-- Every probe of the line's write answered. -/
def State.answerAll (s : State) (line : Nat) : State :=
  (s.mates line).foldl (fun s t => t.probes.foldl (fun s p => s.answerProbe t.line p.dest) s) s

/-- The line's write completed now: probes, then the censuses of a conflict. An access that is one step of this model comes when the
write before it is complete (R345, log 2). -/
def State.push (s : State) (line : Nat) : State :=
  if s.busy line then (((s.answerAll line).closeTxn line).answerAll line).closeTxn line else s

/-- No write is open on the line or under its entry any more. -/
def State.pushRegion (s : State) (line : Nat) : State :=
  let s1 := s.push line
  match s1.coh.entry? line with
  | none => s1
  | some e => ((s1.coh.txns.filter fun t => e.covers t.line).map Txn.line).foldl State.push s1

/-- Before a host line is written, what the device's host-port agent holds dirty of it goes to host memory, and every copy that the device
holds coherently is gone (R87, R349). -/
def State.hostSnoop (s : State) (line : Nat) : State :=
  if !isHostLine line then s else
  { s with
    mem := match s.coh.copy? .hostPort line with
      | some k => if k.modified then putBytes s.mem line k.data else s.mem
      | none => s.mem
    coh := { s.coh with copies := s.coh.copies.filter fun (k : Copy) => !(k.line = line && k.st ≠ CopyState.loose) } }

/-- A write as one step, with its probes answered at once: an engine's, a port's, the host's or the device's own (log 2). A recorded
owner is recalled first (R343). -/
def State.writeLine (s : State) (line : Nat) (ps : Pieces) (nc : Bool) : State :=
  let s0 := (s.hostSnoop line).pushRegion line
  let s1 := if (s0.coh.owner? line).isSome then s0.writeBack line [] none else s0
  (s1.openWrite line none ps none nc).push line

/-- Pieces of one line of a run of bytes. -/
def pieceOf (line a : Nat) (d : List Byte) : Nat × List Byte :=
  if a < line then (0, (d.drop (line - a)).take 128) else (a - line, d.take (line + 128 - a))

/-- Lines that a run of bytes touches. -/
def linesOf (a n : Nat) : List Nat := if n = 0 then [] else (List.range ((a + n - 1) / 128 - a / 128 + 1)).map fun i => lineOf a + 128 * i

/-- Bytes written at a key, line by line, with all effects of a write (R336: one write per line). -/
def State.writeNow (s : State) (key : Nat) (d : List Byte) (nc : Bool) : State :=
  (linesOf key d.length).foldl (fun s line => s.writeLine line [pieceOf line key d] nc) s

/-- Writes of several runs of bytes as one request: one write to each line that they touch (R336). -/
def State.writeRuns (s : State) (runs : List (Nat × List Byte)) : State :=
  let lines := ((runs.map fun r => linesOf r.1 r.2.length).flatten).eraseDups
  lines.foldl (fun s line => s.writeLine line
    ((runs.filter fun r => (linesOf r.1 r.2.length).contains line).map fun r => pieceOf line r.1 r.2) false) s

/-! ## Copies taken in (R5, R14, R343) -/

/-- Lines that an L1 and an RDC have room for: 64 KiB and 32 MiB (R5, R14). -/
def Sharer.room (who : Sharer) : Nat :=
  match who with
  | .l1 _ => 512
  | .rdc _ => 262144
  | _ => 2 ^ 40

/-- Lines that an agent has room for, less those whose entries are disabled (R427). -/
def Coh.roomOf (c : Coh) (who : Sharer) : Nat :=
  who.room - (match who with
    | .l1 core => c.wornOut 2 core
    | .rdc die => c.wornOut 3 die
    | _ => 0)

/-- A copy held by an agent; the oldest gives way where the agent has no room (log 72). -/
def Coh.keepCopy (c : Coh) (k : Copy) : Coh :=
  { c with copies := firstOf (fun x => decide (x.who = k.who)) (c.roomOf k.who) (c.setCopy k).copies }

/-- The sharer that the home records for an agent's copy: an RDC stands for the L1s of its die (R348). -/
def listedAs (who : Sharer) (line : Nat) : Sharer :=
  match who with
  | .l1 core => if coreDie core = homeDie line then who else .rdc (coreDie core)
  | _ => who

/-- The bytes of a copy in a state. -/
def dataFor (st : CopyState) (l : List Byte) : List Byte :=
  match st with
  | .p f _ => roundLine f l
  | _ => l

/-- A copy of a line taken in from the home's data, with the code recorded (R338, R343). -/
def State.takeCopy (s : State) (who : Sharer) (line : Nat) (st : CopyState) (l : List Byte) : State :=
  ({ s with coh := s.coh.keepCopy { who := who, line := line, st := st, data := dataFor st l } } : State).addSharer line (listedAs who line) st

/-- What the owner does before a read, and none where it must first be recalled (R343, R349). -/
def State.ownerForRead (s : State) (line : Nat) (needHome : Bool) : Option State :=
  match s.coh.owner? line, s.coh.entry? line with
  | some (who, .m), some e =>
    match who with
    | .control _ =>
      if needHome then none else
      match s.coh.copy? who line with
      | some k => some { s with coh := (s.coh.setCopy { k with st := .o }).putEntry e { e with owner := some (who, .o) } }
      | none => some { s with coh := s.coh.putEntry e { e with owner := none } }
    | _ => none
  | some (_, .o), _ => if needHome then none else some s
  | some (_, _), _ => some (s.writeBack line [] (some .s))
  | none, _ => some s

/-- A line of the home's data for a read as one step: a write that is open completes first, an owner supplies its data or writes
back (R343, R345). -/
def State.readHome (s : State) (line : Nat) : State × List Byte :=
  let s0 := s.push line
  let s1 := ((s0.ownerForRead line false).getD (s0.writeBack line [] (some .s))).hold line
  (s1, s1.peekBytes line 128)

/-- A host line as the device's host-port agent has it (R349). -/
def State.hostData (s : State) (line : Nat) : List Byte :=
  match s.coh.copy? .hostPort line with
  | some k => k.data
  | none => s.peekBytes line 128

/-- A line as a non-coherent read has it beyond the caches: the home's bytes once no write to it is open (R345, R351). -/
def State.readBeside (s : State) (line : Nat) : State × List Byte :=
  if !isDeviceLine line then (s, s.hostData line) else
  let s1 := (s.push line).hold line
  (s1, getBytes s1.mem line 128)

/-- A line as an engine of a die reads it: the die's RDC serves and keeps a line that is homed on another die (R14, R294, R348); a page
that is not coherent memory is served at its home (R209); in a window or a managed region the copy of a line that is not homed on the die
is untracked (R351). -/
def State.readFor (s : State) (die line cm : Nat) (nc : Bool) : State × List Byte :=
  let rdc := s.coh.copy? (.rdc die) line
  let far := cm = 0 && (isHostLine line || (isDeviceLine line && die ≠ homeDie line))
  if nc then
    match rdc with
    | some k => if far && k.st = .loose then (s, k.data) else s.readBeside line
    | none =>
      let r := s.readBeside line
      if far then ({ r.1 with coh := r.1.coh.keepCopy { who := .rdc die, line := line, st := .loose, data := r.2 } }, r.2) else r
  else if !isDeviceLine line then (s, s.hostData line)
  else if !far then s.readHome line
  else
    match rdc with
    | some k =>
      if k.st = .s then (s, k.data)
      else
        let r := s.readHome line
        (r.1.takeCopy (.rdc die) line .s r.2, r.2)
    | none =>
      let r := s.readHome line
      (r.1.takeCopy (.rdc die) line .s r.2, r.2)

end Sys2Proof.Machine
end

