-- ==== Sys2Proof/Machine/Translate.lean ====
section
/-! DEFINITION. Translation (10 R203-R209): the five-level walk, the translation units, the checks of steps 10.2, 10.4 and 10.5 of
R184, the protected context areas (09 R186) and the non-coherent windows (18 R350, R352). -/

namespace Sys2Proof.Machine

open Sys2Proof

/-- Why an access stops, with what a trap record says of it (R219). -/
structure Stop where
  code : Nat
  va : W64 := 0
  /-- Bit 0 write, bit 1 fetch, bit 2 RMW. -/
  access : Nat := 0
  level : Nat := 0
  under : Nat := 0
  ident : W32 := 0
  progress : W64 := 0
  deriving DecidableEq, Repr

/-- A translated address. -/
structure Xlat where
  pa : Nat
  /-- Bits [23:0] of the leaf (R206). -/
  attr : Nat
  /-- Physical address of the leaf entry. -/
  leaf : Nat
  deriving DecidableEq, Repr

/-- Trap codes of R218. -/
def trapIllegalInstruction : Nat := 0x01
def trapIllegalEncoding : Nat := 0x02
def trapBadHeader : Nat := 0x03
def trapEmptySource : Nat := 0x04
def trapAllotment : Nat := 0x05
def trapBadTarget : Nat := 0x06
def trapPrivilege : Nat := 0x07
def trapIllegalOperand : Nat := 0x08
def trapPageFault : Nat := 0x10
def trapAccess : Nat := 0x11
def trapAlign : Nat := 0x12
def trapLostLine : Nat := 0x13
def trapAtomicUnsupported : Nat := 0x14
def trapVolAlloc : Nat := 0x15
def trapNcWindow : Nat := 0x16
def trapAtomicSpan : Nat := 0x17
def trapArith : Nat := 0x20
def trapMatrixFormat : Nat := 0x21
def trapMatrixIllegal : Nat := 0x22
def trapMatrixState : Nat := 0x23
def trapRoomState : Nat := 0x30
def trapRoomWait : Nat := 0x31
def trapRoomHoldLimit : Nat := 0x32
def trapTimer : Nat := 0x40
def trapWatchdog : Nat := 0x41
def trapUser : Nat := 0x42
def trapException : Nat := 0x43
def trapDebugStep : Nat := 0x44
def trapBreak : Nat := 0x45
def trapPartialMask : Nat := 0x50
def trapRolePartial : Nat := 0x51
def trapWalkerIllegal : Nat := 0x60
def trapWalkerFault : Nat := 0x61
def trapCueFault : Nat := 0x62

/-- The restart column of R218. -/
def restartable (code : Nat) : Bool :=
  [0x04, 0x10, 0x11, 0x13, 0x15, 0x20, 0x21, 0x23, 0x31, 0x40, 0x41, 0x42, 0x43, 0x44, 0x45, 0x61, 0x62].contains code

/-- Fields of a leaf's attributes (R206). -/
def attrW (a : Nat) : Bool := bitOf a 1
def attrX (a : Nat) : Bool := bitOf a 2
def attrCm (a : Nat) : Nat := bitsOf a 5 2
def attrTi (a : Nat) : Bool := bitOf a 7
/-- TO alone: with TI also set, the page acts as transit-in. -/
def attrTo (a : Nat) : Bool := bitOf a 8 && !bitOf a 7
def attrAc (a : Nat) : Nat := bitsOf a 9 3
def attrSub (a : Nat) : Bool := bitOf a 12

/-- The master class of a translation unit's accesses (R424): control processors 1, the network ports 3, the storage port 4, and the
compute cores and their engines 0. -/
def unitClass (unit : Nat) : Nat :=
  if unit < 2560 then 0 else if unit < 2562 then 3 else if unit = 2562 then 4 else if 2564 ≤ unit && unit < 2580 then 1 else 0

/-- A table or table-entry address that reaches device or host memory and that the unit's class may read (R205, R424). -/
def tableReadable (c : Ctl) (cls pa : Nat) : Bool :=
  (match spaceOf c pa with
   | .device | .host => true
   | _ => false) && accessPasses c cls pa false

/-- The levels of a walk from `level` on, `n` of them left (R205-R207). -/
def walkFrom (s : State) (cls va table : Nat) : Nat → Nat → Except Stop Xlat
  | 0, _ => .error { code := trapPageFault, level := 5 }
  | n + 1, level =>
    let ea := table + 8 * bitsOf va (57 - 9 * level) 9
    if !tableReadable s.ctl cls ea then .error { code := trapAccess } else
    let e := s.peekLe ea 8
    let pa := bitsOf e 24 40 * 4096
    if !bitOf e 0 then .error { code := trapPageFault, level := level }
    else if level ≤ 2 ∧ bitOf e 3 then .error { code := trapPageFault, level := level }
    else if level = 5 ∨ bitOf e 3 then
      let size := if level = 3 then 2 ^ 30 else if level = 4 then 2 ^ 21 else if bitOf e 4 then 2 ^ 16 else 2 ^ 12
      .ok { pa := pa / size * size + va % size, attr := e % 2 ^ 24, leaf := ea }
    else walkFrom s cls va pa n (level + 1)

/-- A walk under an ASID for a client of a class (R204, R205). -/
def walk (s : State) (cls asid va : Nat) : Except Stop Xlat :=
  let ea := (s.ctl.reg 0x08).toNat + 16 * asid
  if !tableReadable s.ctl cls ea then .error { code := trapAccess } else
  let e := s.peekLe ea 8
  if !bitOf e 0 ∨ bitsOf e 52 12 ≠ 0 then .error { code := trapPageFault, level := 0 }
  else walkFrom s cls va (bitsOf e 12 40 * 4096) 5 1

/-- The table entries that a walk reads from `level` on. -/
def walkPathFrom (s : State) (cls va table : Nat) : Nat → Nat → List Nat
  | 0, _ => []
  | n + 1, level =>
    let ea := table + 8 * bitsOf va (57 - 9 * level) 9
    if !tableReadable s.ctl cls ea then [] else
    let e := s.peekLe ea 8
    ea :: (if !bitOf e 0 || level = 5 || bitOf e 3 then [] else walkPathFrom s cls va (bitsOf e 24 40 * 4096) n (level + 1))

/-- The entries that a walk under an ASID reads: the address-space table's, then one of each level (R204, R205). -/
def walkPath (s : State) (cls asid va : Nat) : List Nat :=
  let ea := (s.ctl.reg 0x08).toNat + 16 * asid
  if !tableReadable s.ctl cls ea then [] else
  let e := s.peekLe ea 8
  ea :: (if !bitOf e 0 || bitsOf e 52 12 ≠ 0 then [] else walkPathFrom s cls va (bitsOf e 12 40 * 4096) 5 1)

/-- The writes that are open on lines which an access reads in one step are complete before it reads them (R345, log 2). -/
def State.pushLines (s : State) (lines : List Nat) : State := lines.foldl State.push s

/-- The level at which a walk ends: 3, 4 or 5. -/
def walkLevel (s : State) (va table : Nat) : Nat → Nat → Nat
  | 0, level => level
  | n + 1, level =>
    let e := s.peekLe (table + 8 * bitsOf va (57 - 9 * level) 9) 8
    if level = 5 ∨ bitOf e 3 then level else walkLevel s va (bitsOf e 24 40 * 4096) n (level + 1)

/-- The entry that a translation unit makes of a completed walk: the block, or the whole run where RL declares one, TI and TO are
clear and the run stays in its table (R208). -/
def tlbOf (s : State) (unit asid va : Nat) (x : Xlat) : Tlb :=
  let root := bitsOf (s.peekLe ((s.ctl.reg 0x08).toNat + 16 * asid) 8) 12 40 * 4096
  let level := walkLevel s va root 5 1
  let size := if level = 3 then 2 ^ 30 else if level = 4 then 2 ^ 21 else if bitOf x.attr 4 then 2 ^ 16 else 2 ^ 12
  let step := if level = 5 ∧ bitOf x.attr 4 then 16 else 1
  let rl := bitsOf x.attr 15 9
  let i := bitsOf va (57 - 9 * level) 9 / step * step
  let n := if bitOf x.attr 7 ∨ bitOf x.attr 8 ∨ i + step * rl > 511 then 0 else rl
  { unit := unit, asid := asid, va := va / size * size, len := (n + 1) * size, pa := x.pa / size * size, attr := x.attr,
    leaf := x.leaf }

/-- The units that hold translations for a client, nearest first: a core's L1 TLB is backed by its cluster's (R203). Cores are
0 to 2,047, clusters 2,048 + n, ports 2,560 + n, control processors 2,564 + n. A number from 2,600 on is a cluster's unit as an agent uses
it that works for none of the cluster's teams: a distributor. -/
def unitsOf (unit : Nat) : List Nat := if unit < 2048 then [unit, 2048 + unit / 4] else if unit < 2600 then [unit] else [unit - 552]

/-- An entry of one of the units that covers the address. -/
def tlbHit (l : List Tlb) (units : List Nat) (asid va : Nat) : Option Tlb :=
  l.find? fun e => units.contains e.unit && e.asid = asid && e.va ≤ va && va < e.va + e.len

/-- Where the window block of an ASID lies (R350). -/
def windowBase (s : State) (asid : Nat) : Nat := (s.ctl.reg 0x10).toNat + 512 * asid

/-- The windows of an ASID as the units of a client have them: cached with the ASID's translations, or as memory holds them (R350). -/
def windowBlock (s : State) (unit asid : Nat) : List Byte :=
  match s.units.windows.find? fun w => (unitsOf unit).contains w.1 && w.2.1 = asid with
  | some w => w.2.2
  | none => s.peekBytes (windowBase s asid) 512

/-- The units of a client hold the window block with the ASID's translations: each that has none takes it (R350). -/
def State.keepWindows (s : State) (unit asid : Nat) : State :=
  let missing := (unitsOf unit).filter fun u => !s.units.windows.any fun w => w.1 = u && w.2.1 = asid
  if missing.isEmpty then s else
  let s1 := s.pushLines ((List.range 4).map fun i => lineOf (windowBase s asid + 128 * i))
  let blk := windowBlock s1 unit asid
  { s1 with units := { s1.units with windows := missing.map (fun u => (u, asid, blk)) ++ s1.units.windows } }

/-- What a walk has found, kept by the units of a client in place of what they held for the address. A cluster TLB holds 2,048
entries, and a new one replaces its oldest (R15, log 66). -/
def keepWalk (s : State) (unit asid va : Nat) (x : Xlat) : State :=
  let us := unitsOf unit
  let old := s.units.tlb.filter fun e => !(us.contains e.unit && e.asid = asid && e.va ≤ va && va < e.va + e.len)
  let tlb := (us.filter fun u => !s.coh.off 4 u).map (fun u => tlbOf s u asid va x) ++ old
  let kept := us.foldl (fun l u => if 2048 ≤ u && u < 2560 then
    firstOf (fun e => decide (e.unit = u)) (2048 - s.coh.wornOut 4 u) l else l) tlb
  ({ s with units := { s.units with tlb := kept } } : State).keepWindows unit asid

/-- Translation of one address by a client of a unit: the entry it holds, or a walk, which it keeps when it succeeds (R203, R205,
R209); with it the window block is taken (R350). -/
def translate (s : State) (unit : Nat) (asid : BitVec 16) (va : W64) : Except Stop Xlat × State :=
  let v := bitsOf va.toNat 0 57
  let a := asid.toNat
  match tlbHit s.units.tlb (unitsOf unit) a v with
  | some e => (.ok { pa := e.pa + (v - e.va), attr := e.attr, leaf := e.leaf }, s)
  | none =>
    let s1 := s.pushLines ((walkPath s (unitClass unit) a v).map lineOf)
    match walk s1 (unitClass unit) a v with
    | .error f => (.error { f with va := va }, s1)
    | .ok x => (.ok x, keepWalk s1 unit a v x)

/-- Bytes of one context image (R111). -/
def imageSize (l : Launch) : Nat := 128 * (1 + ((l.roles.map Role.allot).foldl max 0 + 31) / 32)

/-- Bytes of one team area, A of R111. -/
def areaSize (l : Launch) : Nat := (4096 + l.size * (imageSize l + l.stack) + 4095) / 4096 * 4096

/-- Whether a byte of a launch's context segment is protected: k registers, team state or a context image (R186). -/
def protectedByte (l : Launch) (va : Nat) : Bool :=
  let off := va - l.segBase.toNat
  l.segBase.toNat + 4096 ≤ va && off < 4096 + l.gx * l.gy * l.gz * areaSize l
    && (off - 4096) % areaSize l < 4096 + l.size * imageSize l

/-- A physical address lies in a protected area of a launch: its page is mapped at that place of the launch's context segment, under the
launch's ASID, and the byte is protected (R186). -/
def Grid.protects (s : State) (g : Grid) (pa : Nat) : Bool :=
  let first := g.launch.segBase.toNat / 4096 + 1
  (List.range (g.launch.gx * g.launch.gy * g.launch.gz * (areaSize g.launch / 4096))).any fun i =>
    let va := 4096 * (first + i)
    protectedByte g.launch va && (match walk s 0 g.asid.toNat (bitsOf va 0 57) with
      | .ok x => x.pa / 4096 = pa / 4096 && protectedByte g.launch (va + pa % 4096)
      | .error _ => false)

/-- An access outside supervisor mode touches a protected context area, by whatever mapping it comes there (R186, log 17). -/
def touchesContext (s : State) (pa n : Nat) : Bool := s.dist.grids.any fun g => g.protects s pa || g.protects s (pa + (n - 1))

/-- Bits [63:57] all equal to bit 56 (step 10.2 of R184). -/
def canonical (va : W64) : Bool :=
  let hi := bitsOf va.toNat 56 8
  hi = 0 || hi = 255

/-- What an access does, for its permission check. -/
inductive Use where
  | read | write | rmw | fetch
  deriving DecidableEq, Repr

/-- Bits of byte 26 of a trap record (R219). -/
def Use.accessBits : Use → Nat
  | .read => 0
  | .write => 1
  | .rmw => 4
  | .fetch => 2

/-- Step 10.5 and the address map on a translated address: CM 3, W, X, reserved space, the control space and the access tables
(R184, R209, R416, R417, R424). -/
def permitted (s : State) (unit : Nat) (x : Xlat) (u : Use) : Bool :=
  let write := u = .write || u = .rmw
  attrCm x.attr ≠ 3 && (!write || attrW x.attr) && (u ≠ .fetch || attrX x.attr)
    && (match spaceOf s.ctl x.pa with
        | .device | .host | .remote _ _ => true
        | _ => false)
    && accessPasses s.ctl (unitClass unit) x.pa write && (u ≠ .rmw || accessPasses s.ctl (unitClass unit) x.pa false)

/-- A translated access of `n` bytes is permitted (steps 10.4 and 10.5 of R184, R186). -/
def mayAccess (s : State) (unit : Nat) (priv : Bool) (x : Xlat) (n : Nat) (u : Use) : Bool :=
  permitted s unit x u && (priv || !touchesContext s x.pa n)

/-- A translation that an access may use, or none where it may not. No unit keeps a translation because of an access that is not
permitted, and an entry that does not permit an access is walked for again (R209). -/
def translateFor (s : State) (unit : Nat) (asid : BitVec 16) (va : W64) (may : State → Xlat → Bool) : Except Stop (Option Xlat) × State :=
  match translate s unit asid va with
  | (.error f, t) => (.error f, t)
  | (.ok x, t) =>
    if may t x then (.ok (some x), t)
    else
      let s1 := s.pushLines ((walkPath s (unitClass unit) asid.toNat (bitsOf va.toNat 0 57)).map lineOf)
      match walk s1 (unitClass unit) asid.toNat (bitsOf va.toNat 0 57) with
      | .error f => (.error { f with va := va }, s1)
      | .ok y =>
        if may s1 y then (.ok (some y), keepWalk s1 unit asid.toNat (bitsOf va.toNat 0 57) y) else (.ok none, s1)

/-- Steps 10.4 and 10.5 of R184 on `n` bytes that lie in one page. -/
def checkPage (s : State) (unit : Nat) (asid : BitVec 16) (priv : Bool) (va : W64) (n : Nat) (u : Use) :
    Except Stop Xlat × State :=
  match translateFor s unit asid va fun s x => mayAccess s unit priv x n u with
  | (.error f, t) => (.error { f with access := u.accessBits }, t)
  | (.ok none, t) => (.error { code := trapAccess, va := va, access := u.accessBits }, t)
  | (.ok (some x), t) => (.ok x, t)

/-- Steps 10.2, 10.4 and 10.5 of R184 on `n` bytes that lie in one page. -/
def checkAccess (s : State) (unit : Nat) (asid : BitVec 16) (priv : Bool) (va : W64) (n : Nat) (u : Use) :
    Except Stop Xlat × State :=
  if !canonical va then (.error { code := trapAccess, va := va, access := u.accessBits }, s)
  else checkPage s unit asid priv va n u

/-- Window `j` of a window block covers the address (R350). -/
def windowCovers (blk : List Byte) (j va : Nat) : Bool :=
  let base := ofBytes ((blk.drop (256 + 16 * j)).take 8)
  let fin := ofBytes ((blk.drop (264 + 16 * j)).take 8)
  bitOf base 0 && bitsOf base 1 11 = 0 && bitsOf fin 0 12 = 0 && base / 4096 * 4096 < fin
    && base / 4096 * 4096 ≤ va && va < fin

/-- REGMODE is in use by the address space: bit 0 of its window block (R350). -/
def regmodeUsed (s : State) (unit : Nat) (asid : BitVec 16) : Bool :=
  bitOf (ofBytes ((windowBlock s unit asid.toNat).take 1)) 0

/-- A window access (R350). -/
def windowAccess (s : State) (unit : Nat) (asid : BitVec 16) (va : W64) : Bool :=
  let blk := windowBlock s unit asid.toNat
  ofBytes (blk.take 1) = 0 && (List.range 16).any fun j => windowCovers blk j va.toNat

/-- A non-coherent access: a window access, or a line of a software-managed region (R351). -/
def nonCoherent (s : State) (unit : Nat) (asid : BitVec 16) (va : W64) (pa : Nat) : Bool :=
  s.coh.managed.contains (pa / 65536 * 65536) || windowAccess s unit asid va

/-- A location marked LOST (R353). -/
def isLost (s : State) (pa : Nat) : Bool := s.coh.lost.contains (lineOf (memKey s.ctl pa))

end Sys2Proof.Machine
end

