-- ==== Sys2Proof/Machine/Ops.lean ====
section
/-! DEFINITION. The named operations over teams, threads and their registers, the register cache (06 R111-R114), and taking a
trap: stopping lanes with a record (10 R218-R221), delivering a user trap (08 R169) and the return from one (08 R170). -/

namespace Sys2Proof.Machine

open Sys2Proof

abbrev Out := Host.Outcome State Fault Refusal

/-! ## Registers of a thread -/

/-- x register `n`; a register that nothing has written is zero (R117). -/
def Thread.reg (t : Thread) (n : Nat) : W32 := look 0 t.x n

/-- x register `n` written and full. -/
def Thread.setReg (t : Thread) (n : Nat) (v : W32) : Thread :=
  { t with x := keep 0 t.x n v, empty := t.empty.filter fun r => r ≠ n }

/-- The pair that begins at `n` (R8). -/
def Thread.pair (t : Thread) (n : Nat) : W64 := pairOf (t.reg n) (t.reg (n + 1))

def Thread.setPair (t : Thread) (n : Nat) (v : W64) : Thread := (t.setReg n (loOf v)).setReg (n + 1) (hiOf v)

/-- `n` registers from `r` as one number, lowest register lowest. -/
def Thread.regsNat (t : Thread) (r : Nat) : Nat → Nat
  | 0 => 0
  | n + 1 => (t.reg r).toNat + 2 ^ 32 * t.regsNat (r + 1) n

/-- `n` registers from `r` written from one number. -/
def Thread.setRegs (t : Thread) (r v : Nat) : Nat → Thread
  | 0 => t
  | n + 1 => (t.setReg r (BitVec.ofNat 32 v)).setRegs (r + 1) (v / 2 ^ 32) n

/-- Registers marked empty (R33). -/
def Thread.markEmpty (t : Thread) (rs : List Nat) : Thread := { t with empty := t.empty ++ rs.filter fun r => !t.empty.contains r }

/-- Registers marked full, their values unchanged. -/
def Thread.markFull (t : Thread) (rs : List Nat) : Thread := { t with empty := t.empty.filter fun r => !rs.contains r }

/-- Predicate `n`; p7 reads true (R6). -/
def Thread.pred (t : Thread) (n : Nat) : Bool := if n ≥ 7 then true else t.preds.getLsbD n

/-- Predicate `n` written; a write to p7 is discarded (R6). -/
def Thread.setPred (t : Thread) (n : Nat) (v : Bool) : Thread :=
  if n ≥ 7 then t else
  { t with preds := if v then t.preds ||| BitVec.ofNat 7 (2 ^ n) else t.preds &&& ~~~BitVec.ofNat 7 (2 ^ n) }

/-- The guard of fields g and gn (R6, R35). -/
def Thread.guard (t : Thread) (g : BitVec 3) (gn : BitVec 1) : Bool := t.pred g.toNat != (gn = 1)

/-- Sticky flags ORed in (R65). -/
def Thread.addFlags (t : Thread) (f : W32) : Thread := { t with fpflags := t.fpflags ||| f }

def Thread.token (t : Thread) (n : Nat) : Nat := look 0 t.tokens n
def Thread.addToken (t : Thread) (n : Nat) : Thread := { t with tokens := keep 0 t.tokens n (t.token n + 1) }
def Thread.subToken (t : Thread) (n : Nat) : Thread := { t with tokens := keep 0 t.tokens n (t.token n - 1) }

/-- The address of the instruction word that a PC record names, and of the word after it (R26). -/
def Thread.wordAddr (t : Thread) : W64 := t.pc + BitVec.ofNat 64 (8 + 8 * t.idx)
def Thread.nextAddr (t : Thread) : W64 := t.pc + BitVec.ofNat 64 (16 + 8 * t.idx)

/-- The thread at another PC record. -/
def Thread.goto (t : Thread) (pc : W64) (idx : Nat) : Thread := { t with pc := pc, idx := idx }

/-! ## Teams and threads of the state -/

def State.team? (s : State) (id : Nat) : Option Team := s.teams.find? fun t => t.id = id

def State.updTeam (s : State) (id : Nat) (f : Team → Team) : State :=
  { s with teams := updWhere s.teams (fun t => t.id = id) f }

def Team.thread? (t : Team) (tid : Nat) : Option Thread := t.threads.find? fun h => h.tid = tid

def Team.updThread (t : Team) (tid : Nat) (f : Thread → Thread) : Team :=
  { t with threads := updWhere t.threads (fun h => h.tid = tid) f }

def State.thread? (s : State) (team tid : Nat) : Option Thread := (s.team? team).bind fun t => t.thread? tid

def State.updThread (s : State) (team tid : Nat) (f : Thread → Thread) : State :=
  s.updTeam team fun t => t.updThread tid f

def State.updThreads (s : State) (team : Nat) (tids : List Nat) (f : Thread → Thread) : State :=
  s.updTeam team fun t => { t with threads := updWhere t.threads (fun h => tids.contains h.tid) f }

/-- A fresh number. -/
def State.fresh (s : State) : State := { s with nextId := s.nextId + 1 }

def Launch.cls (l : Launch) : Nat := ((l.roles[0]?).map Role.cls).getD 0

def Team.width (t : Team) : Nat := max 1 t.launch.width
def Team.lane (t : Team) (tid : Nat) : Nat := tid % t.width
def Team.groupOf (t : Team) (tid : Nat) : Nat := tid / t.width
def Team.group (t : Team) (g : Nat) : Group := (t.groups[g]?).getD { role := 0, tmrcmp := 0, slots := [], waited := [], next := none }
def Team.updGroup (t : Team) (g : Nat) (f : Group → Group) : Team := { t with groups := t.groups.modify g f }
def Team.role (t : Team) (tid : Nat) : Nat := (t.group (t.groupOf tid)).role
def Team.die (t : Team) : Nat := coreDie t.core
def Team.cluster (t : Team) : Nat := coreCluster t.core
/-- Register allotment of a thread (R31, R109). -/
def Team.allot (t : Team) (tid : Nat) : Nat := ((t.launch.roles[t.role tid]?).map Role.allot).getD 0

/-- Threads of one group. -/
def Team.groupThreads (t : Team) (g : Nat) : List Thread := t.threads.filter fun h => t.groupOf h.tid = g

/-- k register `n` (R40). -/
def Team.kreg (t : Team) (n : Nat) : W32 := look 0 t.k n
def Team.setK (t : Team) (n : Nat) (v : W32) : Team := { t with k := keep 0 t.k n v }
def Team.kpair (t : Team) (n : Nat) : W64 := pairOf (t.kreg n) (t.kreg (n + 1))
def Team.setKpair (t : Team) (n : Nat) (v : W64) : Team := (t.setK n (loOf v)).setK (n + 1) (hiOf v)

/-- Port slots of a team: two on one core, four on a pair (R100). A team whose flags let it span a pair always does (R115; log 75). -/
def Team.portSlots (t : Team) : Nat := if t.launch.pair then 4 else 2

/-- Port slot and lane of a thread's register position (R100). -/
def Team.position (t : Team) (tid : Nat) : Nat × Nat :=
  let g := t.groupOf tid
  let l := t.lane tid
  let n := t.portSlots
  if t.width = 16 then (g / 2 % n, l + 16 * (g % 2))
  else if t.width = 32 then (g % n, l)
  else (2 * (g % (n / 2)) + l / 32, l % 32)

/-- The core that holds a thread's register position (R100). -/
def Team.coreOf (t : Team) (tid : Nat) : Nat := t.core + (t.position tid).1 / 2

/-- Ascending (LANE, GROUP) order of threads (R84, R101). -/
def Team.before (t : Team) (a b : Nat) : Bool :=
  t.lane a < t.lane b || (t.lane a = t.lane b && t.groupOf a ≤ t.groupOf b)

/-- Inserts into a list kept in an order. -/
def insertBy {α : Type} (le : α → α → Bool) (a : α) : List α → List α
  | [] => [a]
  | b :: r => if le a b then a :: b :: r else b :: insertBy le a r

def sortBy {α : Type} (le : α → α → Bool) (l : List α) : List α := l.foldr (insertBy le) []

/-- Threads in ascending (LANE, GROUP) order. -/
def Team.inOrder (t : Team) (tids : List Nat) : List Nat := sortBy t.before tids

/-- The CLOCK of a cluster's island (R95). -/
def State.clock (s : State) (cluster : Nat) : W64 :=
  BitVec.ofNat 64 s.time + Config.clockSkew (Config.islandOf cluster % 128)

/-- An entry of the stage-door log (R428). -/
def State.log (s : State) (kind die unit : Nat) (detail : W32) (addr : Nat) : State :=
  let e : LogEntry := { clock := BitVec.ofNat 64 s.time, kind := kind, die := die, unit := unit, detail := detail, addr := addr }
  { s with ctl := { s.ctl with log := (s.ctl.log ++ [e]).drop (s.ctl.log.length + 1 - 4096), logged := s.ctl.logged + 1 } }

/-! ## Context images (R111, R112) and the register cache (R113) -/

/-- Virtual address of a thread's context image (R111). -/
def Team.imageAddr (t : Team) (tid : Nat) : W64 :=
  t.launch.segBase + BitVec.ofNat 64 (4096 + t.teamNo * areaSize t.launch + 4096 + tid * imageSize t.launch)

/-- One past the end of a thread's stack: the initial x0:x1 (R111, R117). -/
def Team.stackTop (t : Team) (tid : Nat) : W64 :=
  t.launch.segBase + BitVec.ofNat 64 (4096 + t.teamNo * areaSize t.launch + 4096 + t.launch.size * imageSize t.launch
    + (tid + 1) * t.launch.stack)

/-- A bit as a number. -/
def bit (b : Bool) : Nat := if b then 1 else 0

/-- A held-set entry as it stands in the image (R112). -/
def Held.bytes (h : Held) : List Byte :=
  toBytes 8 (h.desc.toNat / 64 * 64 + 8 + h.mode) ++ toBytes 4 h.next.toNat ++ toBytes 4 h.left.toNat

/-- The state line of a thread (R112). -/
def Thread.stateLine (t : Thread) (role : Nat) : List Byte :=
  toBytes 8 t.pc.toNat ++ toBytes 1 t.idx
    ++ toBytes 1 (role + 8 * bit t.parked + 16 * bit t.exited + 32 * bit t.singleStep)
    ++ toBytes 1 t.preds.toNat
    ++ toBytes 1 (bit t.pendTimer + 2 * bit t.pendWatchdog + 4 * bit t.pendMatrix)
    ++ toBytes 4 t.fpflags.toNat ++ toBytes 4 t.fpenable.toNat
    ++ toBytes 6 ((List.range 8).foldl (fun a n => a + 2 ^ (6 * n) * t.token n) 0) ++ toBytes 6 0
    ++ toBytes 16 (2 ^ 128 - 1 - t.empty.foldl (fun a r => a + 2 ^ r) 0)
    ++ toBytes 8 t.prog.toNat ++ toBytes 8 t.srkc.toNat
    ++ (let h := (t.held.map Held.bytes).flatten
        h ++ List.replicate (64 - h.length) 0)

/-- Register line `j` of a thread (R112). -/
def Thread.regLine (t : Thread) (j : Nat) : List Byte :=
  ((List.range 32).map fun n => toBytes 4 (t.reg (32 * j + n)).toNat).flatten

/-- A held-set entry read from an image; `none` for an entry that is not valid. -/
def heldOf (l : List Byte) : Option Held :=
  let d := ofBytes (l.take 8)
  if bitOf d 3 then
    some { desc := BitVec.ofNat 64 (d / 64 * 64), mode := d % 8, next := BitVec.ofNat 32 (ofBytes ((l.drop 8).take 4)),
           left := BitVec.ofNat 32 (ofBytes ((l.drop 12).take 4)) }
  else none

/-- A thread with its state line taken from an image (R112); reserved bytes and the reserved bits
of FPFLAGS and FPENABLE are ignored (R64). The role is the group's. -/
def Thread.ofStateLine (t : Thread) (l : List Byte) : Thread :=
  let fld (i n : Nat) : Nat := ofBytes ((l.drop i).take n)
  let full := fld 32 16
  { t with
    pc := BitVec.ofNat 64 (fld 0 8)
    idx := fld 8 1 % 16
    parked := bitOf (fld 9 1) 3
    exited := bitOf (fld 9 1) 4
    singleStep := bitOf (fld 9 1) 5
    preds := BitVec.ofNat 7 (fld 10 1)
    pendTimer := bitOf (fld 11 1) 0
    pendWatchdog := bitOf (fld 11 1) 1
    pendMatrix := bitOf (fld 11 1) 2
    fpflags := BitVec.ofNat 32 (fld 12 4 % 128)
    fpenable := BitVec.ofNat 32 (fld 16 4 % 128)
    tokens := (List.range 8).foldl (fun m n => keep 0 m n (bitsOf (fld 20 6) (6 * n) 6)) []
    empty := (List.range 128).filter fun n => !bitOf full n
    prog := BitVec.ofNat 64 (fld 48 8)
    srkc := BitVec.ofNat 64 (fld 56 8)
    held := (List.range 4).filterMap fun j => heldOf ((l.drop (64 + 16 * j)).take 16) }

/-- A thread with register line `j` taken from an image. -/
def Thread.ofRegLine (t : Thread) (j : Nat) (l : List Byte) : Thread :=
  let word (n : Nat) : W32 := BitVec.ofNat 32 (ofBytes ((l.drop (4 * n)).take 4))
  { t with x := (List.range 32).foldl (fun m n => keep 0 m (32 * j + n) (word n)) t.x }

/-- Physical key of a byte of an image; `none` where its page does not translate (log 18). -/
def Team.imageKey (s : State) (t : Team) (tid line : Nat) : Option Nat :=
  match (translate s (2048 + t.cluster) t.asid (t.imageAddr tid + BitVec.ofNat 64 (128 * line))).1 with
  | .ok x => some (memKey s.ctl x.pa)
  | .error _ => none

/-- The register cache no longer holds one line of a thread; a dirty one is written to its image (R113). A line whose page does not
translate stays (log 18). -/
def State.spillLine (s : State) (team tid line : Nat) : State :=
  match s.team? team with
  | none => s
  | some t =>
    match t.thread? tid, t.imageKey s tid line with
    | some h, some key =>
      if h.absent.contains line then s else
      let bytes := if line = 0 then h.stateLine (t.role tid) else h.regLine (line - 1)
      let out := s.updThread team tid fun h => { h with absent := line :: h.absent }
      if look [] h.filled line = bytes then out else out.writeNow key bytes false
    | _, _ => s

/-- Lines of a thread's image: the state line and the register lines of its allotment. -/
def Team.lines (t : Team) (tid : Nat) : List Nat := List.range (1 + (t.allot tid + 31) / 32)

/-- Every line of a thread written back (R219). -/
def State.spillThread (s : State) (team tid : Nat) : State :=
  match s.team? team with
  | none => s
  | some t => (t.lines tid).foldl (fun s l => s.spillLine team tid l) s

/-- A line filled from its image (R113). -/
def State.fillLine (s : State) (team tid line : Nat) : State :=
  match s.team? team with
  | none => s
  | some t =>
    match t.thread? tid, t.imageKey s tid line with
    | some h, some key =>
      if !h.absent.contains line then s else
      let bytes := s.peekBytes key 128
      s.updThread team tid fun h =>
        let h := if line = 0 then h.ofStateLine bytes else h.ofRegLine (line - 1) bytes
        { h with absent := h.absent.filter fun l => l ≠ line, filled := keep [] h.filled line bytes }
    | _, _ => s

/-! A core's register cache holds 1,024 lines (R113). -/

/-- Lines of the threads on a core that its register cache holds: team, thread, line. Those of a removed team stay until others push
them out. -/
def State.heldLines (s : State) (core : Nat) : List (Team × Thread × Nat) :=
  (s.teams.map fun t =>
    ((t.threads.filter fun h => t.coreOf h.tid = core).map fun h =>
      ((t.lines h.tid).filter fun l => !h.absent.contains l).map fun l => (t, h, l)).flatten).flatten

/-- The cycle at which a line of a thread was last used. -/
def Thread.usedAt (h : Thread) (line : Nat) : Nat := look 0 h.used line

/-- The first of a list that is least under a measure. -/
def leastBy {α : Type} (f : α → Nat) : List α → Option α
  | [] => none
  | a :: r => some (r.foldl (fun x y => if f y < f x then y else x) a)

def State.inBundle (s : State) (team tid : Nat) : Bool := s.bundles.any fun b => b.team = team && b.tids.contains tid

/-- How long ago a thread issued, as the cycle to compare by: one that a bundle carries is issuing, and comes after all others (log 68). -/
def State.issueAge (s : State) (t : Team) (h : Thread) : Nat := if s.inBundle t.id h.tid then s.time + 1 + h.issuedAt else h.issuedAt

/-- The line that a core evicts (R113): of the lines of marked teams the least recently used, and without one a line of the thread that
has gone longest without issue, its least recently used. A line whose page does not translate stays (log 18). -/
def State.victim (s : State) (core : Nat) : Option (Nat × Nat × Nat) :=
  let all := (s.heldLines core).filter fun x => (x.1.imageKey s x.2.1.tid x.2.2).isSome
  let name (x : Team × Thread × Nat) : Nat × Nat × Nat := (x.1.id, x.2.1.tid, x.2.2)
  let used (x : Team × Thread × Nat) : Nat := x.2.1.usedAt x.2.2
  match leastBy used (all.filter fun x => x.1.marked) with
  | some x => some (name x)
  | none =>
    match leastBy (fun x => s.issueAge x.1 x.2.1) all with
    | none => none
    | some x => (leastBy used (all.filter fun y => y.1.id = x.1.id && y.2.1.tid = x.2.1.tid)).map name

/-- Lines of a core evicted until it holds `limit` at most. -/
def State.evictTo (s : State) (core limit : Nat) : Nat → State
  | 0 => s
  | n + 1 =>
    if (s.heldLines core).length ≤ limit then s else
    match s.victim core with
    | some x => (s.spillLine x.1 x.2.1 x.2.2).evictTo core limit n
    | none => s

/-- A core that holds no more lines than fit, of 1,024. -/
def State.fitLines (s : State) (core : Nat) : State := s.evictTo core 1024 (s.heldLines core).length

/-- A core with room for one more line. -/
def State.lineRoom (s : State) (core : Nat) : State := s.evictTo core 1023 (s.heldLines core).length

/-- Registers that an operation has left empty. -/
def Op.regs (o : Op) : List Nat :=
  let run (d n : Nat) : List Nat := (List.range n).map fun i => d + i
  match o.kind with
  | .load n => run o.dst n
  | .sub _ => [o.dst]
  | .ldv n => run (o.dst % 128) n ++ (if o.dst / 128 = 0 then [] else [o.dst / 128])
  | .atom n => run o.dst n
  | .gath _ _ _ => if o.dst < 128 then [o.dst] else []
  | .cas4 => [o.dst]
  | .pop n _ _ => run o.dst (if o.dst % 2 = 0 then 2 else n)
  | _ => []

/-- The operation writes a register of its lane when its data return. -/
def OpKind.toRegs : OpKind → Bool
  | .load _ | .sub _ | .ldv _ | .atom _ | .gath _ _ _ | .cas4 | .pop _ _ _ => true
  | _ => false

/-- A request table entry targets the thread's image: a register that it writes, or the full bits, are not resident (R114). -/
def State.targetsImage (s : State) (team : Nat) (h : Thread) : Bool :=
  s.flight.ops.any fun o => o.team = team && o.tid = h.tid && o.kind.toRegs
    && o.regs.any fun r => h.absent.contains 0 || h.absent.contains (1 + r / 32)

/-- A miss served: a line evicted where the cache is full, and the line filled (R113); a fill waits while a request table entry targets
the image (R114). -/
def State.bringLine (s : State) (team tid line : Nat) : State :=
  match s.team? team, s.thread? team tid with
  | some t, some h => if h.absent.contains line && !s.targetsImage team h then (s.lineRoom (t.coreOf tid)).fillLine team tid line else s
  | _, _ => s

/-- The lines of a team's threads are within what its cores hold: what is too much is pushed out (R113, R117). -/
def State.fitTeam (s : State) (t : Team) : State := (t.threads.map fun h => t.coreOf h.tid).eraseDups.foldl State.fitLines s

/-- A thread that issues an instruction which needs these lines. -/
def Thread.touch (h : Thread) (lines : List Nat) (now : Nat) : Thread :=
  { h with issuedAt := now, used := lines.foldl (fun m l => keep 0 m l now) h.used }

/-- What a thread waited for has come: its bundle is to be looked at again (R104). -/
def State.stir (s : State) (team tid : Nat) : State :=
  { s with bundles := s.bundles.map fun b => if b.team = team && b.tids.contains tid then { b with stalled := false } else b }

/-- A result delivered to a register: to the register line where it is resident, otherwise to the image, data before full bit
(R114). -/
def State.deliver (s : State) (team tid : Nat) (regs : List (Nat × W32)) : State :=
  regs.foldl (fun s rv =>
    match s.team? team with
    | none => s
    | some t =>
      match t.thread? tid with
      | none => s
      | some h =>
        let line := 1 + rv.1 / 32
        let s1 :=
          if h.absent.contains line then
            match t.imageKey s tid line with
            | some key => s.writeNow (key + 4 * (rv.1 % 32)) (toBytes 4 rv.2.toNat) false
            | none => s
          else s
        let s2 :=
          if h.absent.contains 0 then
            match t.imageKey s1 tid 0 with
            | some key =>
              let w := s1.peekLe (key + 32) 16
              s1.writeNow (key + 32) (toBytes 16 (if bitOf w rv.1 then w else w + 2 ^ rv.1)) false
            | none => s1
          else s1
        (s2.updThread team tid fun h => h.setReg rv.1 rv.2).stir team tid) s

/-- A change of a thread's state line: made in the image too when the register cache does not hold the line (R34, R114). -/
def State.updLine0 (s : State) (team tid : Nat) (f : Thread → Thread) : State :=
  match s.team? team with
  | none => s
  | some t =>
    match t.thread? tid with
    | none => s
    | some h =>
      if h.absent.contains 0 then
        match t.imageKey s tid 0 with
        | some key =>
          let h' := f (h.ofStateLine (s.peekBytes key 128))
          (s.updThread team tid fun _ => h').writeNow key (h'.stateLine (t.role tid)) false
        | none => s.updThread team tid f
      else s.updThread team tid f

/-! ## Fetch -/

/-- A fetched 64-bit word and the state with the translation and the instruction-cache entry made (R30); a fetch outside
supervisor mode does not reach the protected bytes of a context segment (R186). -/
def State.fetch (s : State) (core : Nat) (asid : BitVec 16) (priv : Bool) (va : W64) : Except Stop W64 × State :=
  match checkAccess s core asid priv va 8 .fetch with
  | (.error f, t) => (.error f, t)
  | (.ok x, t) =>
    let key := memKey t.ctl x.pa
    match t.units.icache.find? fun e => e.1 = core && e.2.1 = key with
    | some e => (.ok e.2.2, t)
    | none =>
      let w := BitVec.ofNat 64 (t.peekLe key 8)
      (.ok w, { t with units := { t.units with icache := (core, key, w) :: t.units.icache } })

/-- R25: a transfer target is 8-byte aligned and names a header of class 0 or 1. A target whose page is not present or not
executable passes; the fetch stops there (R21). -/
def State.targetStop (s : State) (core : Nat) (asid : BitVec 16) (priv : Bool) (va : W64) : Option Nat :=
  if bitsOf va.toNat 0 3 ≠ 0 then some trapBadTarget else
  match s.fetch core asid priv va with
  | (.error _, _) => none
  | (.ok w, _) => if isHeader w && (headerOf w).cls ≤ 1 then none else some trapBadHeader

/-! ## Taking a trap -/

/-- The lowest of some threads in (LANE, GROUP) order. -/
def Team.lowest (t : Team) (tids : List Nat) : Nat := ((t.inOrder tids)[0]?).getD 0

/-- Lane mask of threads of one group (R219). -/
def Team.laneMask (t : Team) (tids : List Nat) : W64 :=
  tids.foldl (fun m tid => m ||| BitVec.ofNat 64 (2 ^ t.lane tid)) 0

/-- Lanes that stop at one instruction, each with its stop. -/
abbrev Stops := List (Nat × Stop)

/-- One parked sub-group (R219): its threads are `stopped`, their lines are written back, they leave their bundle, and the record of
the sub-group waits for its place in the die's ring. `info` is the stop of the lowest lane. -/
def State.parkGroup (s : State) (team : Nat) (tids : List Nat) (info : Stop) : State :=
  match s.team? team with
  | none => s
  | some t =>
    let low := t.lowest tids
    match t.thread? low with
    | none => s
    | some h =>
      let sub := s.nextId
      let rec_ : TrapRec :=
        { sub := sub, die := t.die, handle := t.handle, team := team, tid := low, code := info.code, kind := 0,
          restart := restartable info.code, mask := t.laneMask tids, pc := h.pc, idx := h.idx, under := info.under,
          access := info.access, level := info.level, ident := info.ident, va := info.va, progress := info.progress,
          written := false }
      let s1 := tids.foldl (fun s tid => s.updLine0 team tid fun h => { h with wait := .stopped sub, parked := true }) s.fresh
      let s2 := tids.foldl (fun s tid => s.spillThread team tid) s1
      { s2 with
        bundles := (s2.bundles.map fun b => { b with tids := b.tids.filter fun x => !(b.team = team && tids.contains x) }).filter
          fun b => !b.tids.isEmpty
        traps := { s2.traps with records := s2.traps.records ++ [rec_] } }

/-- The sub-groups of a list of stops: one for each group and code, in ascending order of lowest lane, group and code (R219). -/
def Team.subGroups (t : Team) (stops : Stops) : List (Nat × Nat) :=
  let keys := (stops.map fun x => (t.groupOf x.1, x.2.code)).eraseDups
  let low (k : Nat × Nat) : Nat := t.lowest ((stops.filter fun x => (t.groupOf x.1, x.2.code) = k).map Prod.fst)
  sortBy (fun a b =>
    t.lane (low a) < t.lane (low b) || (t.lane (low a) = t.lane (low b) && (a.1 < b.1 || (a.1 = b.1 && a.2 ≤ b.2)))) keys

/-- Lanes of one bundle stop at one instruction: taking a trap that the supervisor handles (R219, R221). -/
def State.stopLanes (s : State) (team : Nat) (stops : Stops) : State :=
  match s.team? team with
  | none => s
  | some t =>
    (t.subGroups stops).foldl (fun s k =>
      let mine := stops.filter fun x => (t.groupOf x.1, x.2.code) = k
      let low := t.lowest (mine.map Prod.fst)
      match mine.find? fun x => x.1 = low with
      | some x => s.parkGroup team (mine.map Prod.fst) x.2
      | none => s) s

/-- The record of an engine that stops (R219, R223): source kind 1 to 4. -/
def State.stopEngine (s : State) (r : TrapRec) : State :=
  { s.fresh with traps := { s.traps with records := s.traps.records ++ [{ r with sub := s.nextId, written := false }] } }

/-- Whether a user trap is delivered to the thread itself (R169). -/
def Thread.takesUser (t : Thread) : Bool := t.uhnd ≠ 0 && !t.tcause.getLsbD 12

/-- Delivery of a user trap: TEPC and TCAUSE are saved, the PC record becomes the handler's (R169). `pc` and `idx` are the saved PC
record, `n` the user code. -/
def Thread.enterUser (t : Thread) (code : Nat) (pc : W64) (idx n : Nat) : Thread :=
  { t with tepc := pc, tcause := BitVec.ofNat 32 (code + 2 ^ 8 * idx + 2 ^ 12 + 2 ^ 16 * n), pc := t.uhnd, idx := 0 }

/-- What stops a thread that is to enter its handler: UHND is checked under R25 when it is used (R179; log 69). -/
def State.handlerStop (s : State) (t : Team) (h : Thread) : Option Nat :=
  if h.takesUser then s.targetStop (t.coreOf h.tid) t.asid h.priv h.uhnd else none

/-- The user code of TRAP or BRK in TCAUSE bits [23:16] (R168; log 73). -/
def Thread.setUserCode (t : Thread) (n : Nat) : Thread :=
  { t with tcause := (t.tcause &&& ~~~BitVec.ofNat 32 (255 * 2 ^ 16)) ||| BitVec.ofNat 32 (n % 256 * 2 ^ 16) }

/-- A user trap on threads of a team, each with the PC record at which it stands; `act` is what taking it does to the thread. It goes to
the thread's own handler, or to the supervisor under the same code (R169). -/
def State.userTrap (s : State) (team : Nat) (tids : List Nat) (code n : Nat) (act : Thread → Thread) : State :=
  match s.team? team with
  | none => s
  | some t =>
    let hs := t.threads.filter fun h => tids.contains h.tid
    let bad := hs.filterMap fun h => (s.handlerStop t h).map fun c => (h.tid, { code := c : Stop })
    let good := hs.filter fun h => !bad.any fun x => x.1 = h.tid
    let take (h : Thread) : Thread := if h.takesUser then (act h).enterUser code h.pc h.idx n else act h
    let s1 := good.foldl (fun s h => s.updLine0 team h.tid take) s
    s1.stopLanes team (bad ++ (good.filter fun h => !h.takesUser).map fun h => (h.tid, { code := code }))

/-- The return from a user handler: TCAUSE bit 12 is cleared, the thread resumes at a PC record (R170). -/
def Thread.leaveUser (t : Thread) (pc : W64) (idx : Nat) : Thread :=
  { t with tcause := t.tcause &&& ~~~BitVec.ofNat 32 (2 ^ 12), pc := pc, idx := idx }

/-- The PC record that TRET resumes at: TEPC with the index in TCAUSE bits [11:8] (R170). -/
def Thread.savedPc (t : Thread) : W64 × Nat := (t.tepc, bitsOf t.tcause.toNat 8 4)

end Sys2Proof.Machine
end

