-- ==== Sys2Proof/Machine/Operands.lean ====
section
/-! DEFINITION. Operand forms: the types of R44 with their elements, the modifiers of R37, register groups (03 R31), the sources
and destinations that an instruction names for steps 5 to 9 of R46, and memory operands (09 R181, R182). -/

namespace Sys2Proof.Machine

open Sys2Proof

/-! ## Types (R44) -/

/-- Registers that a type takes. -/
def tyRegs (ty : Nat) : Nat := if ty = 2 ∨ ty = 3 ∨ ty = 7 then 2 else 1

/-- Element width in bits. -/
def tyWidth (ty : Nat) : Nat :=
  match ty with
  | 2 | 3 | 7 => 64
  | 4 | 8 | 9 | 10 | 11 => 16
  | 5 | 12 | 13 => 8
  | _ => 32

/-- Elements packed into one register (e of R149). -/
def tyCount (ty : Nat) : Nat :=
  match ty with
  | 4 | 8 | 9 => 2
  | 5 | 12 | 13 => 4
  | _ => 1

/-- Slot width of an element (s of R149). -/
def tySlot (ty : Nat) : Nat :=
  match ty with
  | 4 | 8 | 9 => 16
  | 5 | 12 | 13 => 8
  | 2 | 3 | 7 => 64
  | _ => 32

/-- The integer type of a ty code. -/
def intTy (ty : Nat) : IntTy :=
  match ty with
  | 0 => ⟨32, true⟩
  | 1 => ⟨32, false⟩
  | 2 => ⟨64, true⟩
  | 3 => ⟨64, false⟩
  | 4 => ⟨16, true⟩
  | _ => ⟨8, true⟩

/-- The floating format of a ty code. -/
def fmtTy (ty : Nat) : Fmt :=
  match ty with
  | 7 => fmtF64
  | 8 | 10 => fmtF16
  | 9 | 11 => fmtBF16
  | 12 => fmtE4M3
  | 13 => fmtE5M2
  | _ => fmtF32

def isInt (ty : Nat) : Bool := ty ≤ 5

/-- Element `i` of width `w` in a bit string. -/
def elem (v w i : Nat) : Nat := bitsOf v (w * i) w

/-- A bit string from elements of width `w`, the first lowest. -/
def pack (w : Nat) : List Nat → Nat
  | [] => 0
  | e :: r => e % 2 ^ w + 2 ^ w * pack w r

/-- Operand register contents of a type as one number. -/
def Thread.tyVal (t : Thread) (ty r : Nat) : Nat := t.regsNat r (tyRegs ty)

/-- A value of a type written to its registers. -/
def Thread.setTy (t : Thread) (ty r v : Nat) : Thread := t.setRegs r v (tyRegs ty)

/-! ## Modifiers (R37) -/

/-- Absolute value, then negation, of an integer element modulo 2^w (R127). |a| is that of the bits read in two's complement under
every type, since I and N types give the same bits (R126). -/
def modInt (t : IntTy) (neg abs : Bool) (v : Nat) : Int :=
  let s := ({ t with signed := true } : IntTy).of v
  let a := if abs ∧ s < 0 then t.of (t.code (-s)) else t.of v
  if neg then t.of (t.code (-a)) else a

/-- The same on the sign bit of a floating element. -/
def modFloat (f : Fmt) (neg abs : Bool) (v : Nat) : Nat :=
  let s := 2 ^ (f.exp + f.frac)
  let m := v % s
  let n := if abs then false else bitOf v (f.exp + f.frac)
  if n != neg then m + s else m

end Sys2Proof.Machine

namespace Sys2Proof

open Sys2Proof.Machine

def RWord.sat (w : RWord) : Bool := bitOf w.md.toNat 7
def RWord.na (w : RWord) : Bool := bitOf w.md.toNat 6
def RWord.nb (w : RWord) : Bool := bitOf w.md.toNat 5
def RWord.aa (w : RWord) : Bool := bitOf w.md.toNat 4
def RWord.ab (w : RWord) : Bool := bitOf w.md.toNat 3

/-! ## Sources and destinations of an instruction -/

end Sys2Proof

namespace Sys2Proof.Machine

open Sys2Proof

/-- Registers that a field names: the first, how many, and the fe bit for a source. -/
structure Span where
  r : Nat
  n : Nat
  fe : Bool := false
  deriving DecidableEq, Repr

/-- A register group is named by a multiple of its size (R31). -/
def Span.aligned (p : Span) : Bool := p.n ≤ 1 || p.r % p.n = 0

/-- The registers of a span. -/
def Span.regs (p : Span) : List Nat := (List.range p.n).map fun i => p.r + i

/-- What steps 5 to 9 of R46 need to know of an instruction. -/
structure Form where
  g : BitVec 3 := 7
  gn : BitVec 1 := 0
  srcs : List Span := []
  dsts : List Span := []
  /-- Marks its destinations empty at issue (E of R48). -/
  long : Bool := false
  /-- Token that an issue adds to (R34). -/
  tok : Option Nat := none
  /-- Privileged (P of R48). -/
  priv : Bool := false
  /-- A violation of step 6 beyond the alignment of the spans. -/
  bad : Bool := false
  /-- A register that must be a multiple of 4 below the allotment (R199, R358). -/
  quad : Option Nat := none
  /-- k registers that it reads or writes: it waits while a KLD has one of them to deliver (R49). -/
  ks : List Nat := []
  /-- Ends its clause (R24). -/
  ends : Bool := false
  deriving DecidableEq, Repr

/-- Step 6 of R46 on a form. -/
def Form.misformed (f : Form) : Bool := f.bad || !(f.srcs.all Span.aligned && f.dsts.all Span.aligned)

/-- The rule of `quad` is broken. -/
def Form.quadBad (f : Form) (allot : Nat) : Bool :=
  match f.quad with
  | some r => r % 4 ≠ 0 || allot ≤ r
  | none => false

/-- Registers that a form names. -/
def Form.regs (f : Form) : List Nat := (f.srcs.map Span.regs).flatten ++ (f.dsts.map Span.regs).flatten

/-- The first register number that a form's fields name beyond an allotment (step 7 of R46). -/
def Form.beyond (f : Form) (allot : Nat) : Bool := f.regs.any fun r => allot ≤ r

end Sys2Proof.Machine

namespace Sys2Proof

open Sys2Proof.Machine

/-- fe bits of a format-R word. -/
def RWord.feA (w : RWord) : Bool := bitOf w.fe.toNat 2
def RWord.feB (w : RWord) : Bool := bitOf w.fe.toNat 1
def RWord.feC (w : RWord) : Bool := bitOf w.fe.toNat 0

/-- Source spans of a format-R word with `n` registers each. -/
def RWord.srcA (w : RWord) (n : Nat) : Span := { r := w.a.toNat, n := n, fe := w.feA }
def RWord.srcB (w : RWord) (n : Nat) : Span := { r := w.b.toNat, n := n, fe := w.feB }
def RWord.srcC (w : RWord) (n : Nat) : Span := { r := w.c.toNat, n := n, fe := w.feC }
def RWord.dst (w : RWord) (n : Nat) : Span := { r := w.d.toNat, n := n }

/-- The form of a format-R word with the given spans. -/
def RWord.form (w : RWord) (srcs dsts : List Span) : Form := { g := w.g, gn := w.gn, srcs := srcs, dsts := dsts }

/-- The form of a format-I word with one register source and one destination. -/
def IWord.form (w : IWord) (srcs dsts : List Span) : Form := { g := w.g, gn := w.gn, srcs := srcs, dsts := dsts }
def IWord.srcA (w : IWord) (n : Nat) : Span := { r := w.a.toNat, n := n, fe := w.fe = 1 }
def IWord.dst (w : IWord) (n : Nat) : Span := { r := w.d.toNat, n := n }

/-- The form of a format-B word; register a blocks as under fe = 0 (R155). -/
def BWord.form (w : BWord) (srcs : List Span) : Form := { g := w.g, gn := w.gn, srcs := srcs }

end Sys2Proof

namespace Sys2Proof.Machine

open Sys2Proof

/-- Token of a tk field (R34). -/
def tokenOf (tk : BitVec 4) : Option Nat := if tk.toNat ≤ 7 then some tk.toNat else none

/-! ## Memory operands (R181, R182) -/

/-- Bytes of a width code. -/
def widthBytes (w : BitVec 3) : Nat := 2 ^ w.toNat

/-- Registers of a width code: one up to 32 bits, then a group. -/
def widthRegs (w : BitVec 3) : Nat := if w.toNat ≤ 2 then 1 else 2 ^ (w.toNat - 2)

end Sys2Proof.Machine

namespace Sys2Proof

open Sys2Proof.Machine

def MWord.srcBase (w : MWord) : Span := { r := w.a.toNat, n := 2, fe := w.feA }
def MWord.srcIndex (w : MWord) : List Span := if w.b = 0 then [] else [{ r := w.b.toNat, n := 1, fe := w.feB }]
def MWord.srcB (w : MWord) (n : Nat) : Span := { r := w.b.toNat, n := n, fe := w.feB }
def MWord.srcData (w : MWord) (n : Nat) : Span := { r := w.d.toNat, n := n, fe := w.feD }
def MWord.dst (w : MWord) (n : Nat) : Span := { r := w.d.toNat, n := n }
def MWord.form (w : MWord) (srcs dsts : List Span) : Form := { g := w.g, gn := w.gn, srcs := srcs, dsts := dsts }

/-- The effective address of a lane (R181). -/
def MWord.ea (w : MWord) (t : Thread) : W64 :=
  let ix : W64 := if w.b = 0 then 0 else (t.reg w.b.toNat).signExtend 64 * BitVec.ofNat 64 (widthBytes w.w)
  t.pair w.a.toNat + ix + w.off.signExtend 64

/-- The base and offset alone, for the instructions that name no width (R181). -/
def MWord.eaPlain (w : MWord) (t : Thread) : W64 := t.pair w.a.toNat + w.off.signExtend 64

def CWord.form (w : CWord) (srcs dsts : List Span) : Form := { g := w.g, gn := w.gn, srcs := srcs, dsts := dsts }
def CWord.srcA (w : CWord) : Span := { r := w.a.toNat, n := 2, fe := bitOf w.fe.toNat 2 }
def CWord.srcB (w : CWord) : Span := { r := w.b.toNat, n := 4, fe := bitOf w.fe.toNat 1 }
def CWord.srcC (w : CWord) : Span := { r := w.c.toNat, n := 2, fe := bitOf w.fe.toNat 0 }

end Sys2Proof
end

