-- ==== Sys2Proof/Machine/Issue.lean ====
section
/-! DEFINITION. How a bundle issues one instruction: steps 5 to 9 of R46, the lanes, the convergence of group operations (R43) and
of collectives (R138), the advance of the PC records and the end of the clause (R24, R26, R101), single-step (R230). -/

namespace Sys2Proof.Machine

open Sys2Proof

/-- What one unit of an instruction answers: one active lane, one group, or the bundle. -/
inductive Res where
  | ok (s : State)
  /-- Complete, with the cue, walker or child number that a single-step record carries (R230). -/
  | okId (ident : W32) (s : State)
  /-- Stops exactly; the state holds only what the entry lets a stop leave. -/
  | stop (x : Stop) (s : State)
  /-- Leaves the bundle at the instruction and waits. -/
  | leave (w : Wait) (s : State)
  /-- Complete, with the PC record already set. -/
  | moved (s : State)
  /-- The instruction cannot issue yet: the bundle waits and nothing has happened. -/
  | hold
  /-- The instruction goes on by itself and has not completed: the bundle waits, and only this much has happened. -/
  | holdAfter (f : State → State)

/-- One unit: its active lanes in ascending (LANE, GROUP) order, and all of its threads that issue. -/
structure Unit_ where
  acts : List Nat
  all : List Nat

/-- The bundle that issues and its team. -/
def State.issuer (s : State) : Option (Bundle × Team) :=
  match s.cur with
  | .bundle id =>
    match s.bundles.find? fun b => b.id = id with
    | some b => (s.team? b.team).map fun t => (b, t)
    | none => none
  | _ => none

/-! ## PC sets and the PC table (R101, R108) -/

/-- The thread stands in its PC set: it waits for nothing and no bundle carries it. -/
def State.stands (s : State) (t : Team) (h : Thread) : Bool := h.wait = .ready && !h.exited && !s.inBundle t.id h.tid

/-- The header at which a thread stands, if it can be read and is one of a core stream (R21). -/
def State.headerAt (s : State) (t : Team) (h : Thread) : Option Header :=
  match (s.fetch (t.coreOf h.tid) t.asid h.priv h.pc).1 with
  | .ok w => if isHeader w && (headerOf w).cls ≤ 1 && (headerOf w).lowZero then some (headerOf w) else none
  | .error _ => none

/-- The tokens of a wait mask are clear for a thread (R27). -/
def Thread.tokensClear (h : Thread) (m : BitVec 8) : Bool := (List.range 8).all fun n => !m.getLsbD n || h.token n = 0

/-- Eligible (R27); a thread at a header that cannot be read or is none is cast, and stops there (R21). -/
def State.eligible (s : State) (t : Team) (h : Thread) : Bool :=
  s.stands t h && ((s.headerAt t h).map fun x => h.tokensClear x.waitMask).getD true

/-- The PC record and role that name a PC set. -/
abbrev PcKey := W64 × Nat × Nat

def Team.pcKey (t : Team) (h : Thread) : PcKey := (h.pc, h.idx, t.role h.tid)

/-- The PC set of a thread: that at its PC record, or for a thread in a bundle the set that the bundle was cast from (R101). -/
def State.setKey (s : State) (t : Team) (h : Thread) : PcKey :=
  match s.bundles.find? fun b => b.team = t.id && b.tids.contains h.tid with
  | some b => (h.pc, b.start, t.role h.tid)
  | none => t.pcKey h

/-- PC sets of a team, but for some threads. -/
def State.pcSets (s : State) (t : Team) (but : List Nat) : List PcKey :=
  ((t.threads.filter fun h => !h.exited && h.wait ≠ .callee && !but.contains h.tid).map (s.setKey t)).eraseDups

/-- How threads come to stand at their targets: with a PC set, in a callee queue, or not at all. -/
structure Seating where
  sets : List PcKey
  callees : List Callee
  queued : List Nat := []
  refused : List Nat := []
  next : Nat

/-- One thread sent to a PC record (R108): an entry that is free while a callee queue of the team waits is that queue's. -/
def Seating.send (p : Seating) (t : Team) (core : Nat) (tid : Nat) (k : PcKey) : Seating :=
  if p.sets.contains k then p
  else if p.sets.length < 64 && !p.callees.any (fun q => q.team = t.id) then { p with sets := k :: p.sets }
  else
    let mine (q : Callee) : Bool := q.core = core && q.team = t.id && q.pc = k.1 && q.idx = k.2.1 && q.role = k.2.2
    if p.callees.any mine then
      { p with callees := updWhere p.callees mine (fun q => { q with tids := q.tids ++ [tid] }), queued := tid :: p.queued }
    else if (p.callees.filter fun q => q.core = core).length < 16 then
      { p with
        callees := p.callees ++ [{ core := core, team := t.id, pc := k.1, idx := k.2.1, role := k.2.2, tids := [tid], order := p.next }]
        queued := tid :: p.queued
        next := p.next + 1 }
    else { p with refused := tid :: p.refused }

/-- The cycle at which the wait of a PC set began that already has threads other than `but` (R105). -/
def State.setBegan (s : State) (t : Team) (but : List Nat) (k : PcKey) : Option Nat :=
  match (t.threads.filter fun h => !h.exited && !but.contains h.tid && s.setKey t h = k).map Thread.since with
  | [] => none
  | a :: r => some (r.foldl min a)

/-- Threads that have come to other PC records without a transfer (by fall-through, at the entry of a role or of a handler, at the end of
a wait) join the PC sets there or form new ones, whose wait begins; without a free entry of the PC table they go to a callee queue, and
without a free queue they wait for one (R102, R105, R108; log 71). -/
def State.arrive (s : State) (team : Nat) (tids : List Nat) : State :=
  match s.team? team with
  | none => s
  | some t =>
    let new := (t.threads.filter fun h => tids.contains h.tid && h.wait = .ready && !h.exited && !s.inBundle team h.tid).map Thread.tid
    let seat := (t.inOrder new).foldl (fun (p : Seating) x =>
      match t.thread? x with
      | some h => p.send t (t.coreOf x) x (t.pcKey h)
      | none => p) { sets := s.pcSets t new, callees := s.callees, next := s.nextId }
    let out := seat.queued ++ seat.refused
    { s with callees := seat.callees, nextId := seat.next }.updThreads team new fun h =>
      { h with since := (s.setBegan t new (t.pcKey h)).getD s.time, wait := if out.contains h.tid then .callee else h.wait }

/-- Threads of a team that wait for a callee queue. -/
def State.unseated (s : State) (t : Team) : List Nat :=
  (t.threads.filter fun h => h.wait = .callee && !s.callees.any fun q => q.team = t.id && q.tids.contains h.tid).map Thread.tid

/-- They are seated anew (R108). -/
def State.reseat (s : State) (t : Team) : State :=
  let l := s.unseated t
  if l.isEmpty then s else (s.updThreads t.id l fun h => { h with wait := .ready }).arrive t.id l

/-! ## One instruction of a bundle -/

/-- Threads of a bundle as they stand. -/
def Bundle.threads (b : Bundle) (t : Team) : List Thread := t.threads.filter fun h => b.tids.contains h.tid

/-- Index at which a bundle stands. -/
def Bundle.idx (b : Bundle) (t : Team) : Nat := ((b.threads t).map Thread.idx).foldl max 0

/-- Threads among `tids` whose guard holds, in issue order (R35, R84). -/
def Team.active (t : Team) (f : Form) (tids : List Nat) : List Nat :=
  t.inOrder (tids.filter fun tid => ((t.thread? tid).map fun h => h.guard f.g f.gn).getD false)

/-- Lines of the context image that an instruction needs (R113). -/
def Form.lines (f : Form) : List Nat := 0 :: f.regs.map fun r => 1 + r / 32

/-- What keeps an issue from passing steps 5 to 9 (R46). -/
inductive Gate where
  | pass
  /-- These threads stop. -/
  | stops (l : Stops)
  /-- The bundle waits: an empty source or destination, a full token, or a line that the register cache does not hold. -/
  | wait
  deriving DecidableEq, Repr

/-- A source of the active lane is empty and its fe bit is set (step 9). -/
def emptySource (f : Form) (h : Thread) : Bool := f.srcs.any fun p => p.fe && p.regs.any h.empty.contains

/-- The lane waits at the instruction (R33, R34). -/
def laneWaits (f : Form) (h : Thread) : Bool :=
  (f.srcs.any fun p => p.regs.any h.empty.contains) || (f.dsts.any fun p => p.regs.any h.empty.contains)
    || (match f.tok with
        | some n => h.token n ≥ 63
        | none => false)

/-- Steps 5 to 7 of R46 on threads, and the lines and k registers that the instruction needs (R113, R49). -/
def gateHead (f : Form) (t : Team) (hs : List Thread) : Gate :=
  if f.priv && hs.any fun h => !h.priv then
    .stops ((hs.filter fun h => !h.priv).map fun h => (h.tid, { code := trapPrivilege }))
  else if f.misformed || hs.any fun h => f.quadBad (t.allot h.tid) then .stops (hs.map fun h => (h.tid, { code := trapIllegalOperand }))
  else if hs.any fun h => f.beyond (t.allot h.tid) then
    .stops ((hs.filter fun h => f.beyond (t.allot h.tid)).map fun h => (h.tid, { code := trapAllotment }))
  else if (hs.any fun h => f.lines.any h.absent.contains) || f.ks.any t.kWait.contains then .wait
  else .pass

/-- Step 9 of R46 and the scoreboard on threads (R33, R34). -/
def gateTail (f : Form) (hs : List Thread) : Gate :=
  let act := hs.filter fun h => h.guard f.g f.gn
  if act.any (emptySource f) then
    .stops ((act.filter (emptySource f)).map fun h => (h.tid, { code := trapEmptySource }))
  else if act.any (laneWaits f) then .wait
  else .pass

/-- Threads of a team by number. -/
def Team.pick (t : Team) (tids : List Nat) : List Thread := t.threads.filter fun h => tids.contains h.tid

/-- Steps 5 to 9 of R46 on the threads `tids` of a team, but for convergence. -/
def gate (f : Form) (t : Team) (tids : List Nat) : Gate :=
  match gateHead f t (t.pick tids) with
  | .pass => gateTail f (t.pick tids)
  | g => g

/-- Destinations marked empty and the token raised, at issue (R33, R34). -/
def Form.atIssue (f : Form) (h : Thread) : Thread :=
  let h1 := if f.long then h.markEmpty (f.dsts.map Span.regs).flatten else h
  match f.tok with
  | some n => h1.addToken n
  | none => h1

/-- What `Form.atIssue` did, undone on a lane that stops or leaves without effect: its destinations were full (R33). -/
def Form.unIssue (f : Form) (h : Thread) : Thread :=
  let h1 := if f.long then h.markFull (f.dsts.map Span.regs).flatten else h
  match f.tok with
  | some n => h1.subToken n
  | none => h1

/-- A thread that has issued one instruction of a clause of `count` words: the next index, or the next header (R26). -/
def Thread.advance (h : Thread) (count : Nat) : Thread :=
  if h.idx + 1 < count then h.goto h.pc (h.idx + 1) else h.goto h.nextAddr 0

/-- Outcome of running the units of an instruction. -/
structure Run where
  s : State
  stops : Stops := []
  left : List (Nat × Wait) := []
  moved : List Nat := []
  held : Bool := false
  keep : State → State := id
  /-- What a single-step record of a thread carries (R230). -/
  idents : List (Nat × W32) := []

/-- One unit added to a run. -/
def Run.add (f : Form) (team : Nat) (r : Run) (u : Unit_) (res : Res) : Run :=
  match res with
  | .ok s => { r with s := s }
  | .okId i s => { r with s := s, idents := u.all.map (fun x => (x, i)) ++ r.idents }
  | .stop x s => { r with s := s.updThreads team u.acts f.unIssue, stops := r.stops ++ u.all.map fun tid => (tid, x) }
  | .leave w s => { r with s := s.updThreads team u.acts f.unIssue, left := r.left ++ u.all.map fun tid => (tid, w) }
  | .moved s => { r with s := s, moved := r.moved ++ u.all }
  | .hold => { r with held := true }
  | .holdAfter g => { r with held := true, keep := g }

/-- The units in order; nothing runs after a unit that holds. -/
def runUnits (f : Form) (team : Nat) (body : List Nat → State → Res) (r : Run) : List Unit_ → Run
  | [] => r
  | u :: us => if r.held then r else runUnits f team body (r.add f team u (body u.acts r.s)) us

/-- Bundles after an issue: `stay` are the threads that go on, and a clause that is `over` leaves none. -/
def trimBundles (ids stay : List Nat) (closes : Bool) (bs : List Bundle) : List Bundle :=
  (bs.map fun b => if ids.contains b.id then { b with tids := if closes then [] else b.tids.filter stay.contains } else b).filter
    fun b => !b.tids.isEmpty

/-- Threads that fell through together from each bundle, noted for NG (R28). -/
def State.noteFall (s : State) (team : Nat) (sets : List (List Nat)) : State :=
  s.updTeam team fun t => { t with fell := t.fell ++ sets.filter fun l => !l.isEmpty }

/-- A stepped thread whose instruction is complete: it stops now, or where its group's ROLE waits, once the switch is made. -/
def Thread.stepOver (h : Thread) : Bool :=
  h.singleStep && !h.exited && (match h.wait with
    | .role _ => false
    | _ => true)

/-- Stepped threads stop after their instruction with DEBUG_STEP (R230). -/
def State.stepStops (s : State) (team : Nat) (tids : List Nat) (idents : List (Nat × W32)) : State :=
  s.stopLanes team ((tids.filter fun x => ((s.thread? team x).map Thread.stepOver).getD false).map fun x =>
    (x, { code := trapDebugStep, ident := look 0 idents x }))

/-- Threads that wait from now on. -/
def State.setWaits (s : State) (team : Nat) (left : List (Nat × Wait)) : State :=
  left.foldl (fun s lw => s.updThread team lw.1 fun h => { h with wait := lw.2 }) s

/-- Threads that have come to the end of a clause in which their group's ROLE stood wait for the switch (R176). -/
def State.holdRoles (s : State) (team : Nat) (tids : List Nat) : State :=
  match s.team? team with
  | none => s
  | some t =>
    let mine := tids.filter fun x => (t.group (t.groupOf x)).next.isSome
    if mine.isEmpty then s else
    let s1 := s.updThreads team mine fun h =>
      if h.exited then h else { h with wait := .role (((t.group (t.groupOf h.tid)).next).getD 0) }
    { s1 with callees := s1.callees.map fun q => if q.team = team then { q with tids := q.tids.filter fun x => !mine.contains x } else q }

/-- A bundle whose instruction cannot issue keeps its place and is not ready (R104). -/
def State.stall (s : State) (b : Bundle) : State :=
  { s with bundles := updWhere s.bundles (fun c => c.id = b.id) fun c => { c with stalled := true } }

/-- After an instruction has run on the bundles `bs` of one team: every thread that neither stopped, left nor moved advances; the
bundles lose the threads that left; a clause that is over ends its bundles (R26, R101). -/
def State.finish (s : State) (f : Form) (team : Nat) (bs : List Bundle) (idx : Nat) (r : Run) : State :=
  let tids := (bs.map Bundle.tids).flatten
  let gone := r.stops.map Prod.fst ++ r.left.map Prod.fst
  let count := (bs.map Bundle.count).foldl max 0
  let closes := decide (count ≤ idx + 1)
  let stay := tids.filter fun x => !gone.contains x
  let walk := stay.filter fun x => !r.moved.contains x
  let s0 := s.updThreads team tids fun h => h.touch f.lines s.time
  let s1 := (s0.updThreads team walk fun h => h.advance count).setWaits team r.left
  let s2 := { s1 with bundles := trimBundles (bs.map Bundle.id) stay closes s1.bundles }
  let s3 := if closes && !f.ends then s2.noteFall team (bs.map fun b => b.tids.filter walk.contains) else s2
  let s4 := if closes then (s3.holdRoles team stay).arrive team stay else s3
  (s4.stopLanes team r.stops).stepStops team stay r.idents

/-- A thread that waited at its instruction goes on behind it: the next index, or the next header (R26). What the wait has delayed
comes first: a pending ROLE and the stop of a stepped thread (R176, R230). -/
def State.resumePast (s : State) (team tid : Nat) (ident : W32) : State :=
  match s.team? team, s.thread? team tid with
  | some t, some h =>
    let count := match (s.fetch (t.coreOf tid) t.asid h.priv h.pc).1 with
      | .ok w => (headerOf w).count
      | .error _ => 15
    let s1 := (s.updLine0 team tid fun h => h.advance count).updThread team tid fun x => { x with wait := .ready }
    let s2 := if count ≤ h.idx + 1 then s1.holdRoles team [tid] else s1
    (s2.arrive team [tid]).stepStops team [tid] [(tid, ident)]
  | _, _ => s

/-- Runs an instruction of form `f` over units on the bundles `bs`. -/
def State.runOn (s : State) (f : Form) (t : Team) (bs : List Bundle) (units : List Unit_)
    (body : List Nat → State → Res) : State :=
  let idx := (bs.map fun c => c.idx t).foldl max 0
  let acts := (units.map Unit_.acts).flatten
  let r := runUnits f t.id body { s := s.updThreads t.id acts f.atIssue } units
  if r.held then bs.foldl State.stall (r.keep s) else r.s.finish f t.id bs idx r

/-- An instruction that acts lane by lane. -/
def issueLanes (f : Form) (body : Nat → Nat → State → Res) (s : State) : Out :=
  match s.issuer with
  | none => .fault .noIssuer
  | some (b, t) =>
    match gate f t b.tids with
    | .stops l => .next (s.stopLanes t.id l)
    | .wait => .next (s.stall b)
    | .pass =>
      let units := (t.active f b.tids).map fun x => ({ acts := [x], all := [x] } : Unit_)
      .next (s.runOn f t [b] units fun l s => body t.id (l.headD 0) s)

/-- An instruction that changes only the lane's own thread: all active lanes at once. -/
def issueThread (f : Form) (g : Team → Thread → Thread) (s : State) : Out :=
  match s.issuer with
  | none => .fault .noIssuer
  | some (b, t) =>
    match gate f t b.tids with
    | .stops l => .next (s.stopLanes t.id l)
    | .wait => .next (s.stall b)
    | .pass =>
      let s1 := s.updThreads t.id (t.active f b.tids) fun h => g t (f.atIssue h)
      .next (s1.finish f t.id [b] (b.idx t) { s := s1 })

/-- A long-latency producer (R33, R124): each active lane reads its sources at issue; its results and flags come later. -/
def issueLong (f : Form) (g : Team → Thread → List (Nat × W32) × W32) (s : State) : Out :=
  issueLanes { f with long := true } (fun team tid s =>
    match s.team? team, s.thread? team tid with
    | some t, some h =>
      let r := g t h
      let res : Result := { id := s.nextId, team := team, tid := tid, regs := r.1, flags := r.2 }
      .ok { s.fresh with flight := { s.flight with results := s.flight.results ++ [res] } }
    | _, _ => .hold) s

/-- An instruction that acts once for the issuing bundle (formats K and R180): a stop stops every thread of the bundle. -/
def issueOnce (f : Form) (body : Nat → State → Res) (s : State) : Out :=
  match s.issuer with
  | none => .fault .noIssuer
  | some (b, t) =>
    match gate f t b.tids with
    | .stops l => .next (s.stopLanes t.id l)
    | .wait => .next (s.stall b)
    | .pass => .next (s.runOn f t [b] [{ acts := [], all := b.tids }] fun _ s => body t.id s)

/-- Groups of some threads, ascending. -/
def Team.groupsOf (t : Team) (tids : List Nat) : List Nat :=
  (List.range t.groups.length).filter fun g => tids.any fun x => t.groupOf x = g

/-- Threads of some groups in the PC set that a bundle issues from (R102, R138). -/
def State.members (s : State) (t : Team) (b : Bundle) (gs : List Nat) : List Thread :=
  match (b.threads t)[0]? with
  | none => []
  | some h0 => t.threads.filter fun h => h.wait = .ready && !h.exited && gs.contains (t.groupOf h.tid) && s.setKey t h = s.setKey t h0

/-- Bundles that carry some threads of a team. -/
def State.carriers (s : State) (t : Team) (hs : List Thread) : List Bundle :=
  s.bundles.filter fun c => c.team = t.id && hs.any fun h => c.tids.contains h.tid

/-- Groups that complete together with those of a list: each shares a bundle of the issuing PC set with another of them (R138). -/
def State.bound (s : State) (t : Team) (b : Bundle) : Nat → List Nat → List Nat
  | 0, gs => gs
  | n + 1, gs => s.bound t b n (t.groupsOf ((s.members t b gs).map Thread.tid ++ ((s.carriers t (s.members t b gs)).map Bundle.tids).flatten))

/-- The groups that an operation of a bundle brings together. -/
def State.boundGroups (s : State) (t : Team) (b : Bundle) : List Nat := s.bound t b t.groups.length (t.groupsOf b.tids)

/-- A thread stands at the instruction with this index, in a bundle. -/
def State.standsAt (s : State) (t : Team) (idx : Nat) (h : Thread) : Bool := h.idx = idx && s.inBundle t.id h.tid

/-- With a stepped thread among the threads brought together, those that stand eligible at the instruction without a bundle issue with it
(R231). -/
def State.joinsStep (s : State) (t : Team) (set : List Thread) (idx : Nat) (h : Thread) : Bool :=
  set.any Thread.singleStep && h.idx = idx && s.eligible t h

/-- A thread brought together stands at the instruction. -/
def State.comes (s : State) (t : Team) (set : List Thread) (idx : Nat) (h : Thread) : Bool :=
  s.standsAt t idx h || s.joinsStep t set idx h

/-- The bundles that issue for some threads of a team: those that carry them, and one for the threads that no bundle carries (R231). -/
def State.issuing (s : State) (t : Team) (b : Bundle) (hs : List Thread) : List Bundle :=
  s.carriers t hs ++
    match hs.filter fun h => !s.inBundle t.id h.tid with
    | [] => []
    | l => [{ b with id := s.nextId, tids := l.map Thread.tid }]

/-- The bundles that issue for the threads of the issuing PC set in the groups brought together, when all of those threads stand at the
instruction; `none` while one has not come there, or has not come there again (R138). -/
def State.paired (s : State) (t : Team) (b : Bundle) (idx : Nat) : Option (List Bundle) :=
  let set := s.members t b (s.boundGroups t b)
  if set.all (s.comes t set idx) then some (s.issuing t b set) else none

/-- Whether a group is converged at an instruction (R43). -/
inductive Convergence where
  | yes
  /-- One half of a 64-wide group waits for the other. -/
  | waits
  | no
  deriving DecidableEq, Repr

/-- A half of a 64-wide group is at the instruction as a whole, or none of it is. -/
def halfWhole (t : Team) (live here : List Thread) (half : Nat) : Bool :=
  let mine := live.filter fun h => t.lane h.tid / 32 = half
  mine.all here.contains || mine.all fun h => !here.contains h

/-- Convergence of a group: its threads that have not exited stand here, and all of them are active or none. Only the halves of a 64-wide
group wait for each other, as long as the whole group is in the issuing PC set. -/
def Team.convergence (t : Team) (set here : List Thread) (act : List Nat) (g : Nat) : Convergence :=
  let live := (t.groupThreads g).filter fun h => !h.exited
  if live.all here.contains then
    if (live.all fun h => act.contains h.tid) || (live.all fun h => !act.contains h.tid) then .yes else .no
  else if t.width = 64 && live.all set.contains && halfWhole t live here 0 && halfWhole t live here 1 then .waits
  else .no

/-- The units of an operation that acts once for each group: the active lanes of each. -/
def Team.groupUnits (t : Team) (tids act : List Nat) : List Unit_ :=
  (t.groupsOf tids).filterMap fun k =>
    let mine := act.filter fun x => t.groupOf x = k
    if mine.isEmpty then none else some { acts := mine, all := mine }

/-- A word with g = 7 and gn = 1 runs on no lane and changes no state (R6). -/
def Form.idle (f : Form) : Bool := f.g = 7 && f.gn = 1

/-- A group operation (R43): every thread of the group that has not exited stands here with one guard value; it executes once, on
behalf of the lowest active lane. Otherwise every thread of the issuing bundle stops with `code`. -/
def issueGroups (f : Form) (code : Nat) (body : Nat → Nat → List Nat → State → Res) (s : State) : Out :=
  match s.issuer with
  | none => .fault .noIssuer
  | some (b, t) =>
    let gs := s.boundGroups t b
    let set := s.members t b gs
    let here := set.filter (s.comes t set (b.idx t))
    let bs := if f.idle then [b] else s.issuing t b here
    let tids := (bs.map Bundle.tids).flatten
    match gateHead f t (t.pick tids) with
    | .stops l => .next (s.stopLanes t.id l)
    | .wait => .next (s.stall b)
    | .pass =>
      let act := t.active f tids
      let conv := if f.idle then [] else gs.map (t.convergence set here act)
      if conv.contains .no then .next (s.stopLanes t.id (b.tids.map fun x => (x, { code := code })))
      else if conv.contains .waits then .next (s.stall b)
      else
        match gateTail f (t.pick tids) with
        | .stops l => .next (s.stopLanes t.id l)
        | .wait => .next (s.stall b)
        | .pass => .next (s.runOn f t bs (t.groupUnits tids act) fun l s => body t.id (t.groupOf (l.headD 0)) l s)

/-- A collective (R138): the participants of each group are its threads in the issuing PC set whose guard holds; the bundles that
carry them complete together. -/
def issueCollective (f : Form) (body : Nat → List Nat → State → Res) (s : State) : Out :=
  match s.issuer with
  | none => .fault .noIssuer
  | some (b, t) =>
    match (if f.idle then some [b] else s.paired t b (b.idx t)) with
    | none => .next (s.stall b)
    | some bs =>
      let tids := (bs.map Bundle.tids).flatten
      match gate f t tids with
      | .stops l => .next (s.stopLanes t.id l)
      | .wait => .next (s.stall b)
      | .pass =>
        .next (s.runOn f t bs (t.groupUnits tids (t.active f tids)) fun l s => body t.id l s)

end Sys2Proof.Machine
end

