-- ==== Sys2Proof/Machine/Fetch.lean ====
section
/-! DEFINITION. How a bundle comes to its next instruction: the fetch and steps 1 to 4 of R46 (03 R23, R24). -/

namespace Sys2Proof.Machine

open Sys2Proof

/-- What an agent's turn comes to before the instruction runs. -/
inductive Ready where
  /-- This instruction runs in this state. -/
  | run (i : Instr) (s : State)
  /-- The turn is over. -/
  | done (s : State)

/-- The instructions that end their clause (R24). -/
def endsClause : Instr → Bool
  | .bra _ | .brx _ | .call _ | .callx _ | .ret _ | .recon _ | .yield _ | .nap _ => true
  | .barw _ | .exit _ | .launch _ | .launcht _ | .trap _ | .raise _ | .tret _ | .brk _ => true
  | _ => false

/-- The trap code of a word that is no instruction (R46 steps 2 to 4). -/
def rejectCode : Reject → Nat
  | .badHeader => trapBadHeader
  | .illegalInstruction => trapIllegalInstruction
  | .illegalEncoding => trapIllegalEncoding
  | .matrixIllegal => trapMatrixIllegal
  | .walkerIllegal => trapWalkerIllegal

/-- Every thread of a bundle stops. -/
def State.stopBundle (s : State) (b : Bundle) (x : Stop) : State := s.stopLanes b.team (b.tids.map fun t => (t, x))

/-- A bundle fetches and decodes its next word (steps 1 to 4 of R46); it goes behind the others of its team (R104). -/
def State.bundleReady (s : State) (id : Nat) : Ready :=
  match s.bundles.find? fun b => b.id = id with
  | none => .done s
  | some b =>
    match s.team? b.team with
    | none => .done s
    | some t =>
      match (b.threads t)[0]? with
      | none => .done s
      | some h =>
        if s.time < b.notBefore then .done s else
        match s.fetch (t.coreOf h.tid) t.asid h.priv h.wordAddr with
        | (.error f, s1) => .done (s1.stopBundle b f)
        | (.ok w, s1) =>
          match decodeCore w with
          | .error r => .done (s1.stopBundle b { code := rejectCode r })
          | .ok i =>
            if endsClause i ∧ h.idx + 1 < b.count then .done (s1.stopBundle b { code := trapIllegalEncoding })
            else .run i { s1 with cur := .bundle id, bundles := s1.bundles.filter (fun c => c.id ≠ id) ++ [{ b with stalled := false }] }

end Sys2Proof.Machine
end

