-- ==== Sys2Proof/Machine/Casting.lean ====
section
/-! DEFINITION. The Casting unit (06 R100-R107, 03 R20-R28): PC sets, eligibility, the running set, fairness switches, pending traps
(10 R433) and the bundles that a cast forms. -/

namespace Sys2Proof.Machine

open Sys2Proof

/-! ## PC sets and eligibility -/

/-- Threads that stand at a PC record in a role. -/
def State.standing (s : State) (t : Team) (k : PcKey) : List Thread := t.threads.filter fun h => s.stands t h && t.pcKey h = k

/-- PC sets with an eligible thread, in ascending order of their lowest (LANE, GROUP). -/
def State.eligibleSets (s : State) (t : Team) : List PcKey :=
  let ready := ((t.threads.filter (s.eligible t)).map t.pcKey).eraseDups
  let order := t.inOrder ((t.threads.filter (s.stands t)).map Thread.tid)
  ((order.filterMap t.thread?).map t.pcKey).eraseDups.filter ready.contains

/-! ## The running set (R103, R105) -/

/-- The running set becomes the one at a PC record; a change resets both counters, and the threads that it leaves begin their wait. -/
def State.switchTo (s : State) (t : Team) (k : PcKey) : State :=
  let set := (s.standing t k).map Thread.tid
  if set = t.running then s.updTeam t.id fun t => { t with front := k, turned := s.time }
  else
    s.updTeam t.id fun t =>
      { t with
        running := set
        front := k
        turned := s.time
        dpfCount := 0
        wdogCount := 0
        threads := updWhere t.threads (fun h => t.running.contains h.tid && !set.contains h.tid) fun h => { h with since := s.time } }

/-- A fresh choice: the eligible PC set that holds the lowest thread (R103). -/
def State.choose (s : State) (t : Team) : State :=
  match s.eligibleSets t with
  | [] => s
  | k :: _ => s.switchTo t k

/-- The running set as it stands: threads that wait, have stopped or exited leave it, and threads that have come to its PC record join
it while it is there (R102). -/
def State.refresh (s : State) (t : Team) : Team :=
  let live (h : Thread) : Bool := h.wait = .ready && !h.exited
  let here := t.threads.any fun h => t.running.contains h.tid && live h && s.setKey t h = t.front
  let joins (h : Thread) : Bool := here && s.stands t h && t.pcKey h = t.front
  { t with running := (t.threads.filter fun h => live h && (t.running.contains h.tid || joins h)).map Thread.tid }

/-- Threads of the running set. -/
def Team.runners (t : Team) : List Thread := t.threads.filter fun h => t.running.contains h.tid

/-- A thread of the running set has left its PC record, or has come back to it. -/
def Team.hasGone (t : Team) (h : Thread) : Bool := t.pcKey h ≠ t.front || t.turned < h.issuedAt

/-- The PC records that the running set has gone to, bundle by bundle. -/
def State.goneTo (s : State) (t : Team) : List PcKey := ((t.runners.filter fun h => s.stands t h && t.hasGone h).map t.pcKey).eraseDups

/-- Some bundle of the running set is in flight. -/
def State.flies (s : State) (t : Team) : Bool := t.runners.any fun h => s.inBundle t.id h.tid

/-- The running set moves on once all of it has come to one PC record (R101, R102). -/
def State.moveOn (s : State) (t : Team) : Team :=
  match s.goneTo t with
  | [k] =>
    if s.flies t || t.runners.any (fun h => s.stands t h && !t.hasGone h) then t
    else { t with running := (s.standing t k).map Thread.tid, front := k, turned := s.time }
  | _ => t

/-- The running set is chosen afresh where it has split, within a bundle or bundle by bundle, or has no eligible thread and no bundle in
flight (R102, R103). -/
def State.choiceDue (s : State) (t : Team) : Bool :=
  1 < (s.goneTo t).length || !(s.flies t || t.runners.any fun h => t.pcKey h = t.front && s.eligible t h)

/-- The running set brought up to date: who has left it and joined it, where it has gone, and the fresh choice that is due. -/
def State.settleSet (s : State) (team : Nat) : State :=
  match s.team? team with
  | none => s
  | some t0 =>
    if t0.removed then s else
    let t := s.moveOn (s.refresh t0)
    let s1 := s.updTeam team fun _ => t
    if s1.choiceDue t then s1.choose t else s1

/-- PC sets other than the running one that have an eligible thread. -/
def State.others (s : State) (t : Team) : List PcKey :=
  (s.eligibleSets t).filter fun k => (s.standing t k).all fun h => !t.running.contains h.tid

/-- Some PC set other than the running one has an eligible thread, so both counters run (R105, R106). -/
def State.otherWaits (s : State) (t : Team) : Bool := !(s.others t).isEmpty

/-- The cycle at which a PC set's wait began. -/
def State.waitBegan (s : State) (t : Team) (k : PcKey) : Nat := ((s.standing t k).map Thread.since).foldl min s.time

/-- A yield point of the running set (R105): with PROGRESS set and the counter expired, the eligible PC set that has waited longest
runs. -/
def State.yieldPoint (s0 : State) (team : Nat) : State :=
  let s := s0.settleSet team
  match s.team? team with
  | none => s
  | some t =>
    if !t.launch.progress || t.dpfCount < t.dpf.toNat then s else
    match leastBy (s.waitBegan t) (s.others t) with
    | none => s
    | some k => s.switchTo t k

/-! ## Callee queues (R108) -/

/-- A free entry of a team's PC table goes to its fullest callee queue, the earliest bound of them; its threads become a PC set. -/
def State.takeQueue (s : State) (t : Team) : State :=
  if 64 ≤ (s.pcSets t []).length then s
  else
    match sortBy (fun (a b : Callee) => a.order ≤ b.order) (s.callees.filter fun q => q.team = t.id) with
    | [] => s
    | q :: r =>
      let best := r.foldl (fun (a b : Callee) => if a.tids.length < b.tids.length then b else a) q
      let s1 := s.updThreads t.id best.tids fun h => if h.wait = .callee then { h with wait := .ready, since := s.time } else h
      { s1 with callees := s1.callees.filter fun x => x.order ≠ best.order }

/-- Queues take entries while there are both. -/
def State.takeFreed (s : State) (team : Nat) : Nat → State
  | 0 => s
  | n + 1 =>
    if !s.callees.any (fun q => q.team = team) then s else
    match s.team? team with
    | some t => if t.removed then s else (s.takeQueue t).takeFreed team n
    | none => s

/-! ## Pending traps (R433) -/

/-- The pending trap that a thread takes at a boundary. -/
def Thread.pending (h : Thread) : Option Nat :=
  if h.pendWatchdog then some trapWatchdog
  else if h.pendMatrix then some trapMatrixIllegal
  else if h.pendTimer then some trapTimer
  else none

/-- Its bit cleared. -/
def Thread.clearPending (h : Thread) (code : Nat) : Thread :=
  { h with
    pendWatchdog := h.pendWatchdog && code ≠ trapWatchdog
    pendMatrix := h.pendMatrix && code ≠ trapMatrixIllegal
    pendTimer := h.pendTimer && code ≠ trapTimer }

/-- Threads that stand at a clause boundary with a pending trap each take one: WATCHDOG goes to the supervisor, the others are user
traps. -/
def State.takePending (s : State) (t : Team) : Option State :=
  let due := t.threads.filter fun h => s.stands t h && h.idx = 0 && h.pending.isSome
  if due.isEmpty then none else
  let take (code : Nat) (s : State) : State :=
    let mine := (due.filter fun h => h.pending = some code).map Thread.tid
    let clear (h : Thread) : Thread := h.clearPending code
    if code = trapWatchdog then
      (mine.foldl (fun s x => s.updLine0 t.id x clear) s).stopLanes t.id (mine.map fun x => (x, { code := code }))
    else (s.userTrap t.id mine code 0 clear).arrive t.id mine
  some (take trapTimer (take trapMatrixIllegal (take trapWatchdog s)))

/-! ## Bundles (R101, R28) -/

/-- The first bundle that a list of threads in issue order fills, and the threads left over. -/
def Team.packOne (t : Team) (l : List Nat) : List Nat × List Nat :=
  match l with
  | [] => ([], [])
  | a :: _ =>
    let slot := (t.position a).1
    l.foldl (fun (acc : List Nat × List Nat) x =>
      if (t.position x).1 = slot && acc.1.all (fun y => (t.position y).2 ≠ (t.position x).2) then (acc.1 ++ [x], acc.2)
      else (acc.1, acc.2 ++ [x])) ([], [])

/-- All bundles of a list of threads. -/
def Team.pack (t : Team) (l : List Nat) : Nat → List (List Nat)
  | 0 => []
  | n + 1 => if l.isEmpty then [] else (t.packOne l).1 :: t.pack (t.packOne l).2 n

/-- Bundles in flight on one port of a core. -/
def State.onPort (s : State) (core port : Nat) : Nat :=
  (s.bundles.filter fun b => match s.team? b.team with
    | some t => t.core + b.slot / 2 = core && b.slot % 2 = port
    | none => false).length

/-- A bundle of a team cast, if its port holds fewer than eight (R104); its first instruction waits for the header's stall, on a resumption
too (R26, R29). -/
def State.castOne (s : State) (t : Team) (hd : Header) (start : Nat) (tids : List Nat) : State :=
  match tids with
  | [] => s
  | a :: _ =>
    let slot := (t.position a).1
    if 8 ≤ s.onPort (t.core + slot / 2) (slot % 2) then s
    else
      let b : Bundle := { id := s.nextId, team := t.id, slot := slot, tids := tids, start := start, count := hd.count, cls := hd.cls,
                          notBefore := s.time + hd.stall, stalled := false }
      { s.fresh.updTeam t.id (fun t => { t with fell := t.fell.filter fun l => !l.any tids.contains }) with bundles := s.bundles ++ [b] }

/-- The thread sets of the bundles to form: single-stepped threads alone, under NG the sets that fell through together, and the rest as
R101 packs them. -/
def Team.plan (t : Team) (hd : Header) (idx : Nat) (here ready : List Thread) : List (List Nat) :=
  let at_ := t.inOrder (here.map Thread.tid)
  let ok := t.inOrder (ready.map Thread.tid)
  let alone := (ready.filter Thread.singleStep).map Thread.tid
  let together := if hd.ng && idx = 0 then
      (t.fell.map fun l => at_.filter fun x => l.contains x && !alone.contains x).filter fun l => !l.isEmpty
    else []
  let rest := ok.filter fun x => !alone.contains x && !together.any fun l => l.contains x
  alone.map (fun x => [x]) ++ (together.filter fun l => l.all ok.contains) ++ t.pack rest rest.length

/-- The bundles of the PC set at a record: its header is read and checked first (R21, R26). -/
def State.castAt (s : State) (t : Team) (k : PcKey) : State :=
  let here := s.standing t k
  let ready := here.filter (s.eligible t)
  match ready with
  | [] => s
  | h :: _ =>
    let all (x : Stop) (s : State) : State := s.stopLanes t.id (ready.map fun h => (h.tid, x))
    match s.fetch (t.coreOf h.tid) t.asid h.priv h.pc with
    | (.error x, s1) => all x s1
    | (.ok w, s1) =>
      let hd := headerOf w
      if !isHeader w then all { code := trapBadHeader } s1
      else if 3 ≤ hd.cls || !hd.lowZero then all { code := trapIllegalEncoding } s1
      else if hd.cls = 2 then all { code := trapBadHeader } s1
      else if hd.count ≤ h.idx then
        let ids := ready.map Thread.tid
        (s1.updThreads t.id ids fun x => x.goto (x.pc + BitVec.ofNat 64 (8 + 8 * hd.count)) 0).arrive t.id ids
      else (t.plan hd h.idx here ready).foldl (fun s l => s.castOne t hd h.idx l) s1

/-- One cast of a team (R101, R103). -/
def State.cast (s : State) (team : Nat) : State :=
  let s1 := s.settleSet team
  match s1.team? team with
  | some t => s1.castAt t t.front
  | none => s1

/-- BUNDLE_CAST (R101, R433): threads that wait for a callee queue look for one again (R108), threads at a clause boundary take their
pending traps, and otherwise bundles of the running set are formed. A marked team is not cast (R226). -/
def execBundleCast (team : Nat) (s : State) : Out :=
  match s.team? team with
  | none => .next s
  | some t =>
    if t.marked || t.removed then .next s
    else
      let s0 := s.reseat t
      match s0.team? team with
      | none => .next s0
      | some t0 =>
        match s0.takePending t0 with
        | some s1 => .next s1
        | none => .next (s0.cast team)

/-! ## The counters (R105, R106) -/

/-- The watchdog counter of a team after `d` cycles more: where it reaches WDOG, every thread of the running set is to take WATCHDOG at its
next clause boundary, and the counter starts again (R106). -/
def State.watch (s : State) (t : Team) (d : Nat) : State :=
  let n := t.wdogCount + d
  if n < t.wdog.toNat then s.updTeam t.id fun x => { x with wdogCount := n }
  else
    let hit := (t.threads.filter fun h => t.running.contains h.tid && !h.exited).map Thread.tid
    let s1 := hit.foldl (fun s x => s.updLine0 t.id x fun h => { h with pendWatchdog := true }) s
    s1.updTeam t.id fun x => { x with wdogCount := (n - t.wdog.toNat) % max 1 t.wdog.toNat }

/-- Cycles of a team pass: both counters advance while a PC set other than the running one has an eligible thread (R105, R106). -/
def State.countTeam (s : State) (d : Nat) (t : Team) : State :=
  if t.removed || !s.otherWaits t then s
  else (s.updTeam t.id fun x => { x with dpfCount := x.dpfCount + d }).watch t d

/-- Cycles pass for a team: freed entries of its PC table are taken, its running set is brought up to date, and the counters run. -/
def State.passTeam (s : State) (d team : Nat) : State :=
  let s1 := (s.takeFreed team 16).settleSet team
  match s1.team? team with
  | some t => s1.countTeam d t
  | none => s1

/-- Cycles pass. -/
def State.tick (s : State) (d : Nat) : State :=
  let s1 := (s.teams.map Team.id).foldl (fun s id => s.passTeam d id) s
  { s1 with time := s1.time + d }

/-- The counters of a team run, once its running set is up to date. -/
def State.counting (s : State) (team : Nat) : Option Team :=
  let s1 := s.settleSet team
  (s1.team? team).filter fun t => !t.removed && s1.otherWaits t

/-- DPF_EXPIRY (R105): the cycles pass that bring the team's DPF counter to its period. -/
def execDpfExpiry (team : Nat) (s : State) : Out :=
  match s.counting team with
  | none => .next s
  | some t => .next (s.tick (t.dpf.toNat - t.dpfCount))

/-- WATCHDOG_EXPIRY (R106): the cycles pass that bring the team's watchdog counter to WDOG, and the running set is to stop. -/
def execWatchdogExpiry (team : Nat) (s : State) : Out :=
  match s.counting team with
  | none => .next s
  | some t => .next (s.tick (t.wdog.toNat - t.wdogCount))

end Sys2Proof.Machine
end

