-- ==== Sys2Proof/Machine/Formats.lean ====
section
/-! DEFINITION. Element formats by code (04 R53-R56), packed storage (R54), SC10 scales and block quantisation (R70-R75), and the
keyed generator (R69). -/

namespace Sys2Proof.Machine

open Sys2Proof

/-! ## Element formats (R55) -/

/-- Bits of an element of a format code. -/
def codeBits (c : Nat) : Nat :=
  match c with
  | 0 | 13 => 32
  | 1 | 2 => 16
  | 5 | 6 => 6
  | 7 | 10 | 11 => 4
  | 12 => 64
  | _ => 8

/-- The floating-point format of a code. -/
def codeFmt (c : Nat) : Option Fmt :=
  match c with
  | 0 => some fmtF32
  | 1 => some fmtBF16
  | 2 => some fmtF16
  | 3 => some fmtE4M3
  | 4 => some fmtE5M2
  | 5 => some fmtE3M2
  | 6 => some fmtE2M3
  | 7 => some fmtE2M1
  | 12 => some fmtF64
  | _ => none

/-- The integer format of a code (R53). -/
def codeInt (c : Nat) : Option IntTy :=
  match c with
  | 8 => some ⟨8, true⟩
  | 9 => some ⟨8, false⟩
  | 10 => some ⟨4, true⟩
  | 13 => some ⟨32, true⟩
  | _ => none

/-- The finite entries of a codebook with their codes, ascending (R56). -/
def finiteEntries (book : List Nat) : List (Nat × Val) :=
  ((List.range 16).map fun c => (c, fmtBF16.decode (book.getD c 0))).filter fun p => !p.2.isNan && !p.2.isInf

/-- |a - b| as an exact magnitude. -/
def distance (a b : Val) : Val :=
  match (addFin 0 a b.negate).1 with
  | .num _ m e s => .num false m e s
  | v => v

/-- The lowest code of the nearest entry (R56); the entries are finite, and to an infinite value all are equally far. -/
def nearestEntry (v : Val) : List (Nat × Val) → Option (Nat × Val)
  | [] => none
  | p :: r =>
    match nearestEntry v r with
    | none => some p
    | some q => if v.isInf || vCmp (distance p.2 v) (distance q.2 v) ≠ .gt then some p else some q

/-- The lowest code whose entry is a NaN, or code 0 (R56). -/
def nanEntry (book : List Nat) : Nat :=
  ((List.range 16).find? fun c => (fmtBF16.decode (book.getD c 0)).isNan).getD 0

/-- R56: the code of a value among entries, some of which may be scaled; an infinite source sets no NX (R63). -/
def bookEncode (book : List Nat) (entries : List (Nat × Val)) (v : Val) : Nat × Flag :=
  if v.isNan then (nanEntry book, flagNV) else
  match nearestEntry v entries with
  | none => (nanEntry book, flagNV)
  | some p => (p.1, flagIf (!v.isInf && vCmp p.2 v ≠ .eq) flagNX)

/-- CBK.enc (R152): the code that R56 chooses for a value, with NX if its entry differs from the value; two NaNs do not differ
(log 80). -/
def coreEncode (book : List Nat) (v : Val) : Nat × Flag :=
  let r := bookEncode book (finiteEntries book) v
  let e := fmtBF16.decode (book.getD r.1 0)
  (r.1, r.2 ||| flagIf (if e.isNan || v.isNan then e.isNan != v.isNan else vCmp e v ≠ .eq) flagNX)

/-- The value of an element (R52, R53, R56). -/
def codeDecode (book : List Nat) (c v : Nat) : Val :=
  match codeFmt c with
  | some f => f.decode v
  | none =>
    match codeInt c with
    | some t => valOfInt (t.of v)
    | none => fmtBF16.decode (book.getD (v % 16) 0)

/-- A value converted to an element format under a rounding code and a draw (R57-R63). -/
def codeEncode (book : List Nat) (c rm draw : Nat) (sat : Bool) (v : Val) : Nat × Flag :=
  match codeFmt c with
  | some f => f.round rm draw sat v
  | none =>
    match codeInt c with
    | some t => t.ofVal rm draw v
    | none => bookEncode book (finiteEntries book) v

/-- Element `i` of a packed bit string whose first byte is at the head of a list (R54). -/
def packedElem (bits i : Nat) (l : List Byte) : Nat :=
  bitsOf (ofBytes ((l.drop (bits * i / 8)).take 9)) (bits * i % 8) bits

/-! ## Scales (R70-R75) -/

/-- A scale word as it is read. -/
inductive Scale where
  | zero
  | nan
  /-- (4 + m) * 2^(e - 129). -/
  | num (m : Nat) (e : Int)
  deriving DecidableEq, Repr

/-- The scale of an SC10 code; none when it is reserved (R70). -/
def sc10 (c : Nat) : Option Scale :=
  let e := bitsOf c 2 8
  let m := bitsOf c 0 2
  if e = 0 then some .zero
  else if e = 255 then (if m = 0 then some .nan else none)
  else some (.num (4 + m) ((e : Int) - 129))

/-- The scale of a stored word with the flags of its import; none for a word that stops (R72, R75). -/
def scaleWord (w : Nat) : Option (Scale × Flag) :=
  let top := bitsOf w 10 6
  if top = 0 then (sc10 w).map fun s => (s, 0)
  else if top = 32 ∧ bitsOf w 8 2 = 0 then
    let v := bitsOf w 0 8
    if v = 0 then some (.zero, flagUF ||| flagNX) else (sc10 (4 * v)).map fun s => (s, 0)
  else none

/-- decode(element) × s (R72): the exact value and its flags. -/
def scaleVal (s : Scale) (v : Val) : Val × Flag :=
  match s with
  | .zero => (.zero v.neg, 0)
  | .nan => (.nan false false (2 ^ 51), 0)
  | .num m e => vMul v (.num false m e false)

/-- MAXF of R73 as a magnitude m * 2^e; zero for a codebook without a nonzero finite entry. -/
def maxMagnitude (book : List Nat) (c : Nat) : Nat × Int :=
  match codeFmt c with
  | some f =>
    match f.decode f.maxCode with
    | .num _ m e _ => (m, e)
    | _ => (0, 0)
  | none =>
    match codeInt c with
    | some t => (t.hi.toNat, 0)
    | none =>
      (finiteEntries book).foldl (fun best p =>
        match p.2 with
        | .num _ m e _ => if vCmp (.num false m e false) (if best.1 = 0 then .zero false else .num false best.1 best.2 false) = .gt
                          then (m, e) else best
        | _ => best) (0, 0)

/-- amax / s ≤ MAXF for the nonzero SC10 code `c` (R73). -/
def scaleFits (mx : Nat × Int) (am : Nat) (ae : Int) (c : Nat) : Bool :=
  let m := (4 + c % 4) * mx.1
  m ≠ 0 && vCmp (.num false am ae false) (.num false m (mx.2 + (c / 4 : Nat) - 129) false) ≠ .gt

/-- The least qualifying code in [lo, lo + 2^n), where larger codes are larger scales. -/
def leastScale (fits : Nat → Bool) (lo : Nat) : Nat → Nat
  | 0 => lo
  | n + 1 => if fits (lo + 2 ^ n - 1) then leastScale fits lo n else leastScale fits (lo + 2 ^ n) n

/-- An element of a block under a chosen nonzero scale: RNE of x / s, saturating at ±MAXF (R73). -/
def blockElement (book : List Nat) (c : Nat) (m : Nat) (e : Int) (x : Val) : Nat × Flag :=
  match codeFmt c with
  | some f =>
    let q := vDiv x (.num false m e false)
    f.round 0 0 true q.1
  | none =>
    match codeInt c with
    | some t =>
      match (vDiv x (.num false m e false)).1 with
      | .num neg k g st =>
        let (n, inexact) := roundAt 0 neg 0 k g 0 st
        let r : Int := if neg then -(n : Int) else n
        let d := clamp (if t.signed then -t.hi else 0) t.hi r
        (t.code d, flagIf (inexact || d ≠ r) flagNX)
      | _ => (0, 0)
    | none =>
      -- |entry - x/s| is least where |entry·s - x| is
      let scaled := (finiteEntries book).map fun p => (p.1, (mulFin p.2 (.num false m e false)).1)
      bookEncode book scaled x

/-- R73: element codes, scale code and flags of a block of values. -/
def quantise (book : List Nat) (c : Nat) (xs : List Val) : List Nat × Nat × Flag :=
  if xs.any fun x => x.isNan || x.isInf then (xs.map fun _ => 0, 0x3FC, flagNV) else
  let amax := xs.foldl (fun best x =>
    match x with
    | .num _ m e _ => if vCmp (.num false m e false) best = .gt then Val.num false m e false else best
    | _ => best) (Val.zero false)
  match amax with
  | .num _ am ae _ =>
    let mx := maxMagnitude book c
    let fits := scaleFits mx am ae
    let found := fits 1019
    let code := if found then leastScale (fun k => 1019 ≤ k || fits k) 4 10 else 1019
    let rs := xs.map (blockElement book c (4 + code % 4) ((code / 4 : Nat) - 129))
    (rs.map Prod.fst, code, (rs.map Prod.snd).foldl (· ||| ·) (if found then 0 else flagOF ||| flagSA))
  | _ => (xs.map fun _ => 0, 0, 0)

/-! ## The keyed generator (R69) -/

/-- One of the ten rounds of R69. -/
def kcgRound (key : List W32) (v : W32 × W32 × W32 × W32) (i : Nat) : W32 × W32 × W32 × W32 :=
  let v0 := v.1 + key.getD (i % 4) 0 + BitVec.ofNat 32 i
  let v1 := (v.2.1 ^^^ v0).rotateLeft 7
  let v2 := v.2.2.1 + v1 * 0xB5A32C6D
  let v3 := (v.2.2.2 ^^^ v2).rotateLeft 13
  (v0 ^^^ v3.rotateLeft 17, v1, v2, v3)

/-- KCG(K, s, c) of R69. -/
def kcg (key : List W32) (s : W32) (c : W64) : W32 :=
  let v := (List.range 10).foldl (kcgRound key) (loOf c, hiOf c, s, 0x6A5D39E2)
  v.1 ^^^ v.2.1 ^^^ v.2.2.1 ^^^ v.2.2.2

end Sys2Proof.Machine
end

