-- ==== Sys2Proof/Machine/IntOps.lean ====
section
/-! DEFINITION. Integer, logic and predicate instructions and their immediate forms (07 R126-R137). -/

namespace Sys2Proof.Machine

open Sys2Proof

/-! ## Shared operations -/

/-- A function of the elements of three operands, applied to each element of a type, with the flags of all of them (R126, R127). -/
def perElem (ty : Nat) (f : Nat → Nat → Nat → Nat × Flag) (a b c : Nat) : Nat × Flag :=
  let w := tyWidth ty
  let rs := (List.range (tyCount ty)).map fun i => f (elem a w i) (elem b w i) (elem c w i)
  (pack w (rs.map Prod.fst), (rs.map Prod.snd).foldl (· ||| ·) 0)

/-- The modifiers of an integer operation (R37). -/
structure Mods where
  sat : Bool := false
  na : Bool := false
  nb : Bool := false
  aa : Bool := false
  ab : Bool := false
  deriving DecidableEq, Repr

/-- The modifiers of a format-R word. -/
def modsOf (w : RWord) : Mods := { sat := w.sat, na := w.na, nb := w.nb, aa := w.aa, ab := w.ab }

/-- The arithmetic rule of R127 on operand values. -/
def intResult (ty : Nat) (m : Mods) (op : Int → Int → Int → Int) (a b c : Nat) : Nat × Flag :=
  let it := intTy ty
  perElem ty (fun x y z => it.finish m.sat (op (modInt it m.na m.aa x) (modInt it m.nb m.ab y) (it.of z))) a b c

/-- A result of a type written to d, its flags made sticky. -/
def Thread.put (h : Thread) (ty d : Nat) (r : Nat × Flag) : Thread := (h.setTy ty d r.1).addFlags r.2

/-- The spans of a format-R word whose sources are a, a and b, or a, b and c, all of the type. -/
def form1 (w : RWord) (n : Nat) : Form := w.form [w.srcA n] [w.dst n]
def form2 (w : RWord) (n : Nat) : Form := w.form [w.srcA n, w.srcB n] [w.dst n]
def form3 (w : RWord) (n : Nat) : Form := w.form [w.srcA n, w.srcB n, w.srcC n] [w.dst n]

/-- Registers of the type of a format-R word. -/
def regsOf (w : RWord) : Nat := tyRegs w.ty.toNat

/-- The lane function of a two- or three-operand integer instruction. -/
def intLane (w : RWord) (op : Int → Int → Int → Int) (h : Thread) : Thread :=
  let ty := w.ty.toNat
  h.put ty w.d.toNat
    (intResult ty (modsOf w) op (h.tyVal ty w.a.toNat) (h.tyVal ty w.b.toNat) (h.tyVal ty w.c.toNat))

/-- The type of an immediate form: N32 with md[1], else I32 (R136). -/
def immTy (w : IWord) : Nat := if bitOf w.md.toNat 1 then 1 else 0

/-- The lane function of an immediate form: b is imm32 and c is d (R38). -/
def immLane (w : IWord) (op : Int → Int → Int → Int) (h : Thread) : Thread :=
  let ty := immTy w
  h.put ty w.d.toNat
    (intResult ty { sat := bitOf w.md.toNat 0 } op (h.tyVal ty w.a.toNat) w.imm.toNat (h.tyVal ty w.d.toNat))

/-- The spans of immediate forms: a to d, and a with d read as c. -/
def immForm (w : IWord) : Form := w.form [w.srcA 1] [w.dst 1]
def immForm3 (w : IWord) : Form := w.form [w.srcA 1, { r := w.d.toNat, n := 1 }] [w.dst 1]
/-- The span of a unary immediate form. -/
def immForm0 (w : IWord) : Form := w.form [] [w.dst 1]

/-- A bitwise result on the register width of a type. -/
def bitLane (w : RWord) (op : Nat → Nat → Nat) (h : Thread) : Thread :=
  let ty := w.ty.toNat
  h.setTy ty w.d.toNat (op (h.tyVal ty w.a.toNat) (h.tyVal ty w.b.toNat) % 2 ^ tyWidth ty)

/-- A bitwise result of an immediate form. -/
def bitImmLane (w : IWord) (op : Nat → Nat → Nat) (h : Thread) : Thread :=
  h.setTy 0 w.d.toNat (op (h.tyVal 0 w.a.toNat) w.imm.toNat % 2 ^ 32)

/-- All ones of a width. -/
def ones (w : Nat) : Nat := 2 ^ w - 1

/-! ## The operations -/

/-- Quotient truncated toward zero and remainder, with the borderline cases of R129. -/
def divide (it : IntTy) (sat : Bool) (a b : Nat) : Nat × Flag :=
  let x := it.of a
  let y := it.of b
  if y = 0 then (ones it.w, flagNV) else it.finish sat (x.tdiv y)

def remainder (it : IntTy) (a b : Nat) : Nat × Flag :=
  let x := it.of a
  let y := it.of b
  if y = 0 then (a % 2 ^ it.w, flagNV) else (it.code (x.tmod y), 0)

/-- The comparison of R130. -/
def intCmp (mode : Nat) (x y : Int) : Bool :=
  match mode with
  | 0 => x = y
  | 1 => x ≠ y
  | 2 => x < y
  | _ => x ≤ y

/-- The comparison of ICMPI (R136); both operands are 32-bit codes. -/
def immCmp (mode a b : Nat) : Bool :=
  let x := (intTy 0).of a
  let y := (intTy 0).of b
  match mode with
  | 0 => x = y
  | 1 => x ≠ y
  | 2 => x < y
  | 3 => x ≤ y
  | 4 => y < x
  | 5 => y ≤ x
  | 6 => a < b
  | _ => b ≤ a

/-- Add or subtract with carry (R127): the sum modulo 2^w and the carry out. -/
def addCarry (w : Nat) (sub : Bool) (a b : Nat) (c : Bool) : Nat × Bool :=
  if sub then ((a + 2 ^ w + 2 ^ w - b - bit c) % 2 ^ w, decide (a < b + bit c))
  else ((a + b + bit c) % 2 ^ w, decide (2 ^ w ≤ a + b + bit c))

/-- Shifts and rotation (R132); n is an unsigned number. -/
def shiftLeft (w a n : Nat) : Nat := if w ≤ n then 0 else a * 2 ^ n % 2 ^ w
def shiftRight (w a n : Nat) : Nat := if w ≤ n then 0 else a / 2 ^ n
def shiftArith (w a n : Nat) : Nat :=
  let it : IntTy := ⟨w, true⟩
  it.code (it.of a / (2 ^ min n (w - 1) : Int))
def rotate (w a n : Nat) : Nat :=
  let k := n % w
  (a * 2 ^ k + a / 2 ^ (w - k)) % 2 ^ w

/-- Bit-field extraction (R133). -/
def fieldExtract (it : IntTy) (a b : Nat) : Nat :=
  let pos := bitsOf b 0 8
  let len := min (bitsOf b 8 8) it.w
  if len = 0 then 0 else
  let t := it.of a
  let f := (t / (2 ^ pos : Int) % (2 ^ len : Int)).toNat
  it.code ((⟨len, it.signed⟩ : IntTy).of f)

/-- Bit-field insertion (R133). -/
def fieldInsert (w a b c : Nat) : Nat :=
  let pos := bitsOf b 0 8
  let len := min (bitsOf b 8 8) w
  if len = 0 ∨ w ≤ pos then c % 2 ^ w else
  let kept := c % 2 ^ pos + c / 2 ^ (pos + len) * 2 ^ (pos + len)
  (kept + a % 2 ^ len * 2 ^ pos) % 2 ^ w

/-- Counts of bits (R132). -/
def popCount (w a : Nat) : Nat := ((List.range w).filter (bitOf a)).length
def leadingZeros (w a : Nat) : Nat := w - bitLen (a % 2 ^ w)
def trailingZeros (w a : Nat) : Nat := ((List.range w).find? (bitOf a)).getD w
def reverseBits (w a : Nat) : Nat := (List.range w).foldl (fun r i => r + bit (bitOf a i) * 2 ^ (w - 1 - i)) 0

/-- Byte permutation (R134). -/
def permuteBytes (a b c : Nat) : Nat :=
  let pool := a + 2 ^ 32 * b
  pack 8 ((List.range 4).map fun k =>
    let n := bitsOf c (4 * k) 4
    if n < 8 then elem pool 8 n else 0)

/-- The wide multiply-add of R128. -/
def wideMad (it : IntTy) (sat : Bool) (a b c : Nat) : Nat × Flag :=
  let wide : IntTy := ⟨64, it.signed⟩
  wide.finish sat (it.of a * it.of b + wide.of c)

/-- The four-element dot product of R128. -/
def dot4 (ua ub sat : Bool) (a b c : Nat) : Nat × Flag :=
  let ta : IntTy := ⟨8, !ua⟩
  let tb : IntTy := ⟨8, !ub⟩
  let sum := (List.range 4).foldl (fun r i => r + ta.of (elem a 8 i) * tb.of (elem b 8 i)) ((intTy 0).of c)
  (intTy 0).finish sat sum

/-! ## Arithmetic -/

/-- MOV (R126). -/
def execMov (w : RWord) (s : State) : Out :=
  issueThread (form1 w (regsOf w)) (fun _ h =>
    let ty := w.ty.toNat
    let v := h.tyVal ty w.a.toNat
    h.setTy ty w.d.toNat (if ty = 10 ∨ ty = 11 then v % 2 ^ 16 else v)) s

/-- IADD (R126, R127). -/
def execIadd (w : RWord) (s : State) : Out :=
  issueThread (form2 w (regsOf w)) (fun _ => intLane w fun a b _ => a + b) s

/-- ISUB (R126, R127). -/
def execIsub (w : RWord) (s : State) : Out :=
  issueThread (form2 w (regsOf w)) (fun _ => intLane w fun a b _ => a - b) s

/-- IADDC (R127). -/
def execIaddc (w : RWord) (s : State) : Out :=
  issueThread (form2 w (regsOf w)) (fun _ h =>
    let ty := w.ty.toNat
    let r := addCarry (tyWidth ty) (bitOf w.md.toNat 0) (h.tyVal ty w.a.toNat) (h.tyVal ty w.b.toNat) (h.pred w.c.toNat)
    (h.setTy ty w.d.toNat r.1).setPred w.c.toNat r.2) s

/-- IMUL (R126). -/
def execImul (w : RWord) (s : State) : Out :=
  issueThread (form2 w (regsOf w)) (fun _ => intLane w fun a b _ => a * b) s

/-- IMULH (R126): bits [2w-1:w] of the exact product. -/
def execImulh (w : RWord) (s : State) : Out :=
  issueThread (form2 w (regsOf w)) (fun _ => intLane w fun a b _ => a * b / (2 ^ tyWidth w.ty.toNat : Int)) s

/-- IMAD (R126). -/
def execImad (w : RWord) (s : State) : Out :=
  issueThread (form3 w (regsOf w)) (fun _ => intLane w fun a b c => a * b + c) s

/-- IMADW (R128): c and d are pairs. -/
def execImadw (w : RWord) (s : State) : Out :=
  issueThread (w.form [w.srcA 1, w.srcB 1, w.srcC 2] [w.dst 2]) (fun _ h =>
    h.put 2 w.d.toNat
      (wideMad (intTy w.ty.toNat) w.sat (h.tyVal 0 w.a.toNat) (h.tyVal 0 w.b.toNat) (h.tyVal 2 w.c.toNat))) s

/-- The registers and words that a value of a type is delivered in. -/
def tyOut (ty d v : Nat) : List (Nat × W32) :=
  (List.range (tyRegs ty)).map fun i => (d + i, BitVec.ofNat 32 (v / 2 ^ (32 * i)))

/-- IDIV (R129). -/
def execIdiv (w : RWord) (s : State) : Out :=
  issueLong (form2 w (regsOf w)) (fun _ h =>
    let ty := w.ty.toNat
    let r := divide (intTy ty) w.sat (h.tyVal ty w.a.toNat) (h.tyVal ty w.b.toNat)
    (tyOut ty w.d.toNat r.1, r.2)) s

/-- IREM (R129). -/
def execIrem (w : RWord) (s : State) : Out :=
  issueLong (form2 w (regsOf w)) (fun _ h =>
    let ty := w.ty.toNat
    let r := remainder (intTy ty) (h.tyVal ty w.a.toNat) (h.tyVal ty w.b.toNat)
    (tyOut ty w.d.toNat r.1, r.2)) s

/-- IMIN (R126). -/
def execImin (w : RWord) (s : State) : Out :=
  issueThread (form2 w (regsOf w)) (fun _ => intLane w fun a b _ => min a b) s

/-- IMAX (R126). -/
def execImax (w : RWord) (s : State) : Out :=
  issueThread (form2 w (regsOf w)) (fun _ => intLane w fun a b _ => max a b) s

/-- IABS (R126). -/
def execIabs (w : RWord) (s : State) : Out :=
  issueThread (form1 w (regsOf w)) (fun _ => intLane { w with b := 0, c := 0 } fun a _ _ => (a.natAbs : Int)) s

/-- ICMP (R130). -/
def execIcmp (w : RWord) (s : State) : Out :=
  let ty := w.ty.toNat
  issueThread (w.form [w.srcA (regsOf w), w.srcB (regsOf w)] (if w.pd then [] else [w.dst (regsOf w)])) (fun _ h =>
    let it := intTy ty
    let a := h.tyVal ty w.a.toNat
    let b := h.tyVal ty w.b.toNat
    if w.pd then h.setPred w.d.toNat (intCmp w.mode2 (it.of a) (it.of b))
    else h.setTy ty w.d.toNat
      (perElem ty (fun x y _ => (if intCmp w.mode2 (it.of x) (it.of y) then ones (tyWidth ty) else 0, 0)) a b 0).1) s

/-- ISEL (R130). -/
def execIsel (w : RWord) (s : State) : Out :=
  issueThread (form2 w (regsOf w)) (fun _ h =>
    let ty := w.ty.toNat
    h.setTy ty w.d.toNat (if h.pred w.c.toNat then h.tyVal ty w.a.toNat else h.tyVal ty w.b.toNat)) s

/-- LEA (R131). -/
def execLea (w : RWord) (s : State) : Out :=
  let ty := w.ty.toNat
  issueThread (w.form [w.srcA 2, w.srcB (regsOf w)] [w.dst 2]) (fun _ h =>
    let b := BitVec.ofInt 64 ((intTy ty).of (h.tyVal ty w.b.toNat))
    h.setPair w.d.toNat (h.pair w.a.toNat + (b <<< w.mode2))) s

/-! ## Logic, shifts and bit fields -/

/-- AND (R132). -/
def execAnd (w : RWord) (s : State) : Out :=
  issueThread (form2 w (regsOf w)) (fun _ => bitLane w (· &&& ·)) s

/-- OR (R132). -/
def execOr (w : RWord) (s : State) : Out :=
  issueThread (form2 w (regsOf w)) (fun _ => bitLane w (· ||| ·)) s

/-- XOR (R132). -/
def execXor (w : RWord) (s : State) : Out :=
  issueThread (form2 w (regsOf w)) (fun _ => bitLane w (· ^^^ ·)) s

/-- ANDN (R132): a AND NOT b. -/
def execAndn (w : RWord) (s : State) : Out :=
  issueThread (form2 w (regsOf w)) (fun _ => bitLane w fun a b => a &&& (b ^^^ ones (tyWidth w.ty.toNat))) s

/-- NOT (R132). -/
def execNot (w : RWord) (s : State) : Out :=
  issueThread (form1 w (regsOf w)) (fun _ => bitLane w fun a _ => a ^^^ ones (tyWidth w.ty.toNat)) s

/-- The spans of a shift: n is one register (R132). -/
def shiftForm (w : RWord) : Form := w.form [w.srcA (regsOf w), w.srcB 1] [w.dst (regsOf w)]

/-- The lane function of a shift or of an operation with a control word in b. -/
def shiftLane (w : RWord) (op : Nat → Nat → Nat → Nat) (h : Thread) : Thread :=
  let ty := w.ty.toNat
  h.setTy ty w.d.toNat (op (tyWidth ty) (h.tyVal ty w.a.toNat) (h.reg w.b.toNat).toNat)

/-- SHL (R132). -/
def execShl (w : RWord) (s : State) : Out := issueThread (shiftForm w) (fun _ => shiftLane w shiftLeft) s

/-- SHR (R132). -/
def execShr (w : RWord) (s : State) : Out := issueThread (shiftForm w) (fun _ => shiftLane w shiftRight) s

/-- SHA (R132). -/
def execSha (w : RWord) (s : State) : Out := issueThread (shiftForm w) (fun _ => shiftLane w shiftArith) s

/-- ROT (R132). -/
def execRot (w : RWord) (s : State) : Out := issueThread (shiftForm w) (fun _ => shiftLane w rotate) s

/-- BFE (R133). -/
def execBfe (w : RWord) (s : State) : Out :=
  issueThread (shiftForm w) (fun _ => shiftLane w fun _ a b => fieldExtract (intTy w.ty.toNat) a b) s

/-- BFI (R133). -/
def execBfi (w : RWord) (s : State) : Out :=
  let n := regsOf w
  issueThread (w.form [w.srcA n, w.srcB 1, w.srcC n] [w.dst n]) (fun _ h =>
    shiftLane w (fun k a b => fieldInsert k a b (h.tyVal w.ty.toNat w.c.toNat)) h) s

/-- A count of the bits of a, 32 bits wide (R132). -/
def countLane (w : RWord) (op : Nat → Nat → Nat) (h : Thread) : Thread :=
  let ty := w.ty.toNat
  h.setReg w.d.toNat (BitVec.ofNat 32 (op (tyWidth ty) (h.tyVal ty w.a.toNat)))

/-- The spans of a count. -/
def countForm (w : RWord) : Form := w.form [w.srcA (regsOf w)] [w.dst 1]

/-- POPC (R132). -/
def execPopc (w : RWord) (s : State) : Out := issueThread (countForm w) (fun _ => countLane w popCount) s

/-- CLZ (R132). -/
def execClz (w : RWord) (s : State) : Out := issueThread (countForm w) (fun _ => countLane w leadingZeros) s

/-- CTZ (R132). -/
def execCtz (w : RWord) (s : State) : Out := issueThread (countForm w) (fun _ => countLane w trailingZeros) s

/-- BREV (R132). -/
def execBrev (w : RWord) (s : State) : Out :=
  issueThread (form1 w (regsOf w)) (fun _ => bitLane w fun a _ => reverseBits (tyWidth w.ty.toNat) a) s

/-- BYTEP (R134). -/
def execBytep (w : RWord) (s : State) : Out :=
  issueThread (form3 w 1) (fun _ h =>
    h.setReg w.d.toNat (BitVec.ofNat 32
      (permuteBytes (h.reg w.a.toNat).toNat (h.reg w.b.toNat).toNat (h.reg w.c.toNat).toNat))) s

/-- PLOP (R135). -/
def execPlop (w : RWord) (s : State) : Out :=
  issueThread (w.form [] []) (fun _ h =>
    let a := h.pred w.a.toNat != w.na
    let b := h.pred w.b.toNat != w.nb
    h.setPred w.d.toNat (match w.mode2 with
      | 0 => a && b
      | 1 => a || b
      | 2 => a != b
      | _ => a)) s

/-- IDOT4 (R128). -/
def execIdot4 (w : RWord) (s : State) : Out :=
  issueThread (form3 w 1) (fun _ h =>
    h.put 0 w.d.toNat (dot4 (bitOf w.md.toNat 0) (bitOf w.md.toNat 1) w.sat (h.reg w.a.toNat).toNat (h.reg w.b.toNat).toNat
      (h.reg w.c.toNat).toNat)) s

/-! ## Immediate forms -/

/-- MOVI (R136). -/
def execMovi (w : IWord) (s : State) : Out :=
  let wide := bitOf w.md.toNat 0
  issueThread (w.form [] [w.dst (if wide then 2 else 1)]) (fun _ h =>
    if wide then h.setPair w.d.toNat (w.imm.signExtend 64) else h.setReg w.d.toNat w.imm) s

/-- IADDI (R38, R127). -/
def execIaddi (w : IWord) (s : State) : Out :=
  issueThread (immForm w) (fun _ => immLane w fun a b _ => a + b) s

/-- ISUBI (R38, R127). -/
def execIsubi (w : IWord) (s : State) : Out :=
  issueThread (immForm w) (fun _ => immLane w fun a b _ => a - b) s

/-- IADDCI (R127, R136). -/
def execIaddci (w : IWord) (s : State) : Out :=
  issueThread (immForm w) (fun _ h =>
    let r := addCarry 32 false (h.tyVal 0 w.a.toNat) w.imm.toNat (h.pred w.md.toNat)
    (h.setTy 0 w.d.toNat r.1).setPred w.md.toNat r.2) s

/-- IMULI (R38). -/
def execImuli (w : IWord) (s : State) : Out :=
  issueThread (immForm w) (fun _ => immLane w fun a b _ => a * b) s

/-- IMULHI (R38). -/
def execImulhi (w : IWord) (s : State) : Out :=
  issueThread (immForm w) (fun _ => immLane w fun a b _ => a * b / (2 ^ 32 : Int)) s

/-- IMADI (R38): d is read as c. -/
def execImadi (w : IWord) (s : State) : Out :=
  issueThread (immForm3 w) (fun _ => immLane w fun a b c => a * b + c) s

/-- IMADWI (R136): d is a pair, read as c. -/
def execImadwi (w : IWord) (s : State) : Out :=
  issueThread (w.form [w.srcA 1, { r := w.d.toNat, n := 2 }] [w.dst 2]) (fun _ h =>
    h.put 2 w.d.toNat
      (wideMad (intTy (immTy w)) (bitOf w.md.toNat 0) (h.tyVal 0 w.a.toNat) w.imm.toNat (h.tyVal 2 w.d.toNat))) s

/-- IDIVI (R38, R129). -/
def execIdivi (w : IWord) (s : State) : Out :=
  issueLong (immForm w) (fun _ h =>
    let r := divide (intTy (immTy w)) (bitOf w.md.toNat 0) (h.tyVal 0 w.a.toNat) w.imm.toNat
    (tyOut 0 w.d.toNat r.1, r.2)) s

/-- IREMI (R38, R129). -/
def execIremi (w : IWord) (s : State) : Out :=
  issueLong (immForm w) (fun _ h =>
    let r := remainder (intTy (immTy w)) (h.tyVal 0 w.a.toNat) w.imm.toNat
    (tyOut 0 w.d.toNat r.1, r.2)) s

/-- IMINI (R38). -/
def execImini (w : IWord) (s : State) : Out :=
  issueThread (immForm w) (fun _ => immLane w fun a b _ => min a b) s

/-- IMAXI (R38). -/
def execImaxi (w : IWord) (s : State) : Out :=
  issueThread (immForm w) (fun _ => immLane w fun a b _ => max a b) s

/-- IABSI (R136): the absolute value of the immediate. -/
def execIabsi (w : IWord) (s : State) : Out :=
  issueThread (immForm0 w) (fun _ h =>
    h.put 0 w.d.toNat ((intTy 0).finish (bitOf w.md.toNat 0) (((intTy 0).of w.imm.toNat).natAbs : Int))) s

/-- ICMPI (R136): d names a predicate. -/
def execIcmpi (w : IWord) (s : State) : Out :=
  issueThread (w.form [w.srcA 1] []) (fun _ h =>
    h.setPred w.d.toNat (immCmp w.md.toNat (h.reg w.a.toNat).toNat w.imm.toNat)) s

/-- ISELI (R136). -/
def execIseli (w : IWord) (s : State) : Out :=
  issueThread (immForm w) (fun _ h =>
    h.setReg w.d.toNat (if h.pred w.md.toNat then h.reg w.a.toNat else w.imm)) s

/-- LEAI (R136): a and d are pairs. -/
def execLeai (w : IWord) (s : State) : Out :=
  issueThread (w.form [w.srcA 2] [w.dst 2]) (fun _ h =>
    let b : W64 := if bitOf w.md.toNat 2 then w.imm.setWidth 64 else w.imm.signExtend 64
    h.setPair w.d.toNat (h.pair w.a.toNat + (b <<< bitsOf w.md.toNat 0 2))) s

/-- ANDI (R38). -/
def execAndi (w : IWord) (s : State) : Out :=
  issueThread (immForm w) (fun _ => bitImmLane w (· &&& ·)) s

/-- ORI (R38). -/
def execOri (w : IWord) (s : State) : Out :=
  issueThread (immForm w) (fun _ => bitImmLane w (· ||| ·)) s

/-- XORI (R38). -/
def execXori (w : IWord) (s : State) : Out :=
  issueThread (immForm w) (fun _ => bitImmLane w (· ^^^ ·)) s

/-- ANDNI (R38). -/
def execAndni (w : IWord) (s : State) : Out :=
  issueThread (immForm w) (fun _ => bitImmLane w fun a b => a &&& (b ^^^ ones 32)) s

/-- NOTI (R136): the complement of the immediate. -/
def execNoti (w : IWord) (s : State) : Out :=
  issueThread (immForm0 w) (fun _ h => h.setReg w.d.toNat (~~~w.imm)) s

/-- SHLI (R38). -/
def execShli (w : IWord) (s : State) : Out :=
  issueThread (immForm w) (fun _ => bitImmLane w (shiftLeft 32)) s

/-- SHRI (R38). -/
def execShri (w : IWord) (s : State) : Out :=
  issueThread (immForm w) (fun _ => bitImmLane w (shiftRight 32)) s

/-- SHAI (R38). -/
def execShai (w : IWord) (s : State) : Out :=
  issueThread (immForm w) (fun _ => bitImmLane w (shiftArith 32)) s

/-- ROTI (R38). -/
def execRoti (w : IWord) (s : State) : Out :=
  issueThread (immForm w) (fun _ => bitImmLane w (rotate 32)) s

/-- BFEI (R38, R133). -/
def execBfei (w : IWord) (s : State) : Out :=
  issueThread (immForm w) (fun _ => bitImmLane w (fieldExtract (intTy (immTy w)))) s

/-- BFII (R38, R133): d is read as c. -/
def execBfii (w : IWord) (s : State) : Out :=
  issueThread (immForm3 w) (fun _ h => bitImmLane w (fun a b => fieldInsert 32 a b (h.reg w.d.toNat).toNat) h) s

/-- MOVIH (R137): the odd register of a pair. -/
def execMovih (w : IWord) (s : State) : Out :=
  issueThread { w.form [] [{ r := w.d.toNat + 1, n := 1 }] with bad := bitOf w.d.toNat 0 } (fun _ h =>
    h.setReg (w.d.toNat + 1) w.imm) s

end Sys2Proof.Machine
end

