-- ==== Sys2Proof/Machine/GroupOps.lean ====
section
/-! DEFINITION. Group collectives: SHFL, VOTE, GSCAN, GRED (07 R138-R142) and ELECT (08 R175). -/

namespace Sys2Proof.Machine

open Sys2Proof

/-- Changes to several threads of a team. -/
def State.updEach (s : State) (team : Nat) (l : List (Nat × (Thread → Thread))) : State :=
  l.foldl (fun s p => s.updThread team p.1 p.2) s

/-- A collective whose participants' new states follow from what all of them hold (R138): `g` is given the participants in ascending
home-lane order and answers a change for each. -/
def collective (g : Team → List Thread → List (Nat × (Thread → Thread))) (team : Nat) (l : List Nat) (s : State) : Res :=
  match s.team? team with
  | none => .hold
  | some t => .ok (s.updEach team (g t (l.filterMap t.thread?)))

/-- SHFL (R139). -/
def execShfl (w : RWord) (s : State) : Out :=
  let ty := w.ty.toNat
  let n := regsOf w
  issueCollective (w.form [w.srcA n, w.srcB 1] [w.dst n])
    (collective fun t ps => ps.map fun h =>
      let l := t.lane h.tid
      let b : Nat := (h.reg w.b.toNat).toNat
      let src := match w.mode2 with
        | 0 => (b : Int)
        | 1 => (l : Int) - b
        | 2 => (l : Int) + b
        | _ => ((l ^^^ b : Nat) : Int)
      match ps.find? fun p => src = (t.lane p.tid : Int) with
      | some p => (h.tid, fun x => (x.setTy ty w.d.toNat (p.tyVal ty w.a.toNat)).setPred w.c.toNat true)
      | none => (h.tid, fun x => (x.setTy ty w.d.toNat (h.tyVal ty w.a.toNat)).setPred w.c.toNat false)) s

/-- VOTE (R140). -/
def execVote (w : RWord) (s : State) : Out :=
  let ty := w.ty.toNat
  let n := regsOf w
  let srcs := if w.mode2 = 3 then [w.srcA n] else []
  let dsts := if w.mode2 = 2 then [w.dst n] else []
  issueCollective (w.form srcs dsts)
    (collective fun t ps =>
      let votes := ps.map fun h => h.pred w.a.toNat
      let ballot := ps.foldl (fun m h => if h.pred w.a.toNat then m + 2 ^ t.lane h.tid else m) 0
      let vals := ps.map fun h => h.tyVal ty w.a.toNat
      ps.map fun h => (h.tid, fun x =>
        match w.mode2 with
        | 0 => x.setPred w.d.toNat (votes.all id)
        | 1 => x.setPred w.d.toNat (votes.any id)
        | 2 => x.setTy ty w.d.toNat ballot
        | _ => x.setPred w.d.toNat (vals.all fun v => v = vals.headD 0))) s

/-- How a scan or reduction combines two values (R141, R142): the result code and its flags. -/
def scanStep (ty rm : Nat) (isMax : Bool) (v x : Nat) : Nat × Flag :=
  if isInt ty then
    let it := intTy ty
    (it.code (if isMax then max (it.of v) (it.of x) else it.of v + it.of x), 0)
  else
    let f := fmtTy ty
    if isMax then
      match vMinMax false (f.decode v) (f.decode x) with
      | (some true, fl) => (v, fl)
      | (some false, fl) => (x, fl)
      | (none, fl) => (f.nanCode, fl)
    else
      let r := vAdd rm (f.decode v) (f.decode x)
      let o := f.round rm 0 false r.1
      (o.1, o.2 ||| r.2)

/-- The identity of R141. -/
def scanIdentity (ty : Nat) (isMax : Bool) : Nat :=
  if isInt ty then
    let it := intTy ty
    if isMax then it.code it.lo else 0
  else
    let f := fmtTy ty
    if isMax then f.signBit true + f.infCode else f.signBit true

/-- The type and the operand of a step: with `.W` an exact I32 from a narrow input (R142). -/
def scanInput (w : RWord) (h : Thread) : Nat :=
  let ty := w.ty.toNat
  if bitOf w.md.toNat 1 then
    let a := (h.reg w.a.toNat).toNat
    let it : IntTy := if ty = 1 then ⟨8, false⟩ else if ty = 5 then ⟨8, true⟩ else ⟨16, true⟩
    (intTy 0).code (it.of a)
  else h.tyVal ty w.a.toNat

def scanType (w : RWord) : Nat := if bitOf w.md.toNat 1 then 0 else w.ty.toNat

/-- A running combination: for each operand the value and flags before it and after it. -/
def scanList (step : Nat → Nat → Nat × Flag) : Nat × Flag → List Nat → List ((Nat × Flag) × (Nat × Flag))
  | _, [] => []
  | v, x :: r =>
    let o := step v.1 x
    let v' := (o.1, v.2 ||| o.2)
    (v, v') :: scanList step v' r

/-- The form of GSCAN and GRED. -/
def scanForm (w : RWord) : Form :=
  let n := tyRegs (scanType w)
  w.form [w.srcA n] [w.dst n]

/-- GSCAN (R141, R142). -/
def execGscan (w : RWord) (s : State) : Out :=
  let ty := scanType w
  let exc := bitOf w.md.toNat 0
  issueCollective (scanForm w)
    (collective fun _ ps =>
      let steps := scanList (scanStep ty w.rm.toNat false) (scanIdentity ty false, 0) (ps.map (scanInput w))
      (ps.zip (List.range ps.length)).map fun p =>
        let st := (steps[p.2]?).getD ((0, 0), (0, 0))
        let r := if exc then (if p.2 = 0 then (0, 0) else st.1) else st.2
        (p.1.tid, fun x => x.put ty w.d.toNat r)) s

/-- GRED (R141, R142). -/
def execGred (w : RWord) (s : State) : Out :=
  let ty := scanType w
  let isMax := bitOf w.md.toNat 0
  issueCollective (scanForm w)
    (collective fun _ ps =>
      let steps := scanList (scanStep ty w.rm.toNat isMax) (scanIdentity ty isMax, 0) (ps.map (scanInput w))
      let r := ((steps.map Prod.snd).getLast?).getD (0, 0)
      ps.map fun h => (h.tid, fun x => x.put ty w.d.toNat r)) s

/-- ELECT (08 R175). -/
def execElect (w : RWord) (s : State) : Out :=
  issueCollective (w.form [] [w.dst 1])
    (collective fun t ps =>
      let low := (ps.map fun h => t.lane h.tid).headD 0
      ps.map fun h => (h.tid, fun x =>
        (x.setReg w.d.toNat (BitVec.ofNat 32 low)).setPred w.c.toNat (decide (t.lane h.tid = low)))) s

end Sys2Proof.Machine
end

