-- ==== Sys2Proof/Machine/Transcend.lean ====
section
/-! DEFINITION. 2^a, log2 a, sin a and cos a, correctly rounded (07 R143, R148). Each value is enclosed between two numbers at a
working precision of P binary places; the precision is doubled until both ends round to one result with one set of flags. -/

namespace Sys2Proof.Machine

/-- Numbers here are integers in units of 2^(-P). -/
abbrev Fix := Int

/-- Rounded-down quotient of two integers, the second positive. -/
def fdiv (a : Int) (b : Nat) : Int := a.fdiv b

/-- Product of two fixed-point numbers, rounded down. -/
def fmul (p : Nat) (a b : Fix) : Fix := fdiv (a * b) (2 ^ p)

/-- Sum of z^(2k+1)/(2k+1), k from `k` on, `n` terms; `zp` is z^(2k+1). -/
def atanhFrom (p : Nat) (z2 : Fix) (k : Nat) (zp acc : Fix) : Nat → Fix
  | 0 => acc
  | n + 1 => atanhFrom p z2 (k + 1) (fmul p zp z2) (acc + fdiv zp (2 * k + 1)) n

/-- atanh z for |z| ≤ 1/3. -/
def atanhFix (p : Nat) (z : Fix) : Fix := atanhFrom p (fmul p z z) 0 z 0 (p / 3 + 4)

/-- ln 2 = 2 atanh (1/3). -/
def ln2Fix (p : Nat) : Fix := 2 * atanhFix p (fdiv (2 ^ p) 3)

/-- Sum of y^k / k! from the term `t` on. -/
def expFrom (p : Nat) (y : Fix) (k : Nat) (t acc : Fix) : Nat → Fix
  | 0 => acc
  | n + 1 => expFrom p y (k + 1) (fdiv (fmul p t y) (k + 1)) (acc + t) n

/-- Alternating sum of (-1)^k / ((2k+1) q^(2k+1)): arctangent of 1/q. -/
def atanInvFrom (q2 : Nat) (k : Nat) (t acc : Fix) : Nat → Fix
  | 0 => acc
  | n + 1 =>
    let d := fdiv t (2 * k + 1)
    atanInvFrom q2 (k + 1) (fdiv t q2) (if k % 2 = 0 then acc + d else acc - d) n

/-- π by Machin's formula: 16 atan (1/5) - 4 atan (1/239). -/
def piFix (p : Nat) : Fix :=
  16 * atanInvFrom 25 0 (fdiv (2 ^ p) 5) 0 (p / 4 + 4) - 4 * atanInvFrom 57121 0 (fdiv (2 ^ p) 239) 0 (p / 15 + 4)

/-- Sum of (-1)^k y^(2k+s) / (2k+s)! from the term `t` on: a sine series for s = 1, a cosine series for s = 0. -/
def trigFrom (p : Nat) (y2 : Fix) (s k : Nat) (t acc : Fix) : Nat → Fix
  | 0 => acc
  | n + 1 =>
    trigFrom p y2 s (k + 1) (-(fdiv (fmul p t y2) ((2 * k + s + 1) * (2 * k + s + 2)))) (acc + t) n

/-- m * 2^e in units of 2^(-p), rounded down in magnitude. -/
def toFix (p : Nat) (neg : Bool) (m : Nat) (e : Int) : Fix :=
  let v : Int := shiftNat m (e + p)
  if neg then -v else v

/-- An approximation with its exponent: the value is v * 2^(e - P), with an error below 2^(e - P) times `err`. -/
structure Approx where
  v : Int
  e : Int
  err : Nat

/-- 2^x. The magnitude of x is below 2^13 wherever the result is a number of any format. -/
def exp2Approx (p : Nat) (neg : Bool) (m : Nat) (e : Int) : Approx :=
  let x := toFix p neg m e
  let n := fdiv x (2 ^ p)
  let f := x - n * 2 ^ p
  let y := fmul p f (ln2Fix p)
  ⟨expFrom p y 0 (2 ^ p) 0 (p / 2 + 8), n, 8 * p + 64⟩

/-- log2 of a positive number: its exponent, and ln of its mantissa over ln 2. -/
def log2Approx (p : Nat) (m : Nat) (e : Int) : Approx :=
  let k := bitLen m - 1
  let t : Fix := shiftNat m ((p : Int) - k)
  let z := fdiv ((t - 2 ^ p) * 2 ^ p) (t + 2 ^ p).toNat
  let l := 2 * atanhFix p z
  ⟨(e + k) * 2 ^ p + fdiv (l * 2 ^ p) (ln2Fix p).toNat, 0, 8 * p + 64⟩

/-- sin (cosine = false) or cos of a number, reduced by multiples of π/2; the working precision has room for the argument's size. -/
def trigApprox (p : Nat) (cosine neg : Bool) (m : Nat) (e : Int) : Approx :=
  let room := p + (e + bitLen m).toNat + 8
  let half := fdiv (piFix room) 2
  let x := toFix room neg m e
  let k := fdiv (2 * x + half) (2 * half).toNat
  let r := fdiv (x - k * half) (2 ^ (room - p))
  let y2 := fmul p r r
  let quad := ((k + (if cosine then 1 else 0)) % 4).toNat
  let s := trigFrom p y2 1 0 r 0 (p / 4 + 8)
  let c := trigFrom p y2 0 0 (2 ^ p) 0 (p / 4 + 8)
  let v := if quad = 0 then s else if quad = 1 then c else if quad = 2 then -s else -c
  ⟨v, 0, 8 * p + 64⟩

/-- An integer times 2^e, known to be a little more in magnitude, as a value. -/
def stickyVal (v e : Int) : Val := .num (v < 0) v.natAbs e true

/-- Rounds an approximation whose true value is never exact: both ends of its enclosure, at more and more places. -/
def zivRound (f : Fmt) (rm : Nat) (sat : Bool) (ap : Nat → Approx) (p : Nat) : Nat → Nat × Flag
  | 0 =>
    let a := ap p
    f.round rm 0 sat (stickyVal a.v (a.e - p))
  | n + 1 =>
    let a := ap p
    let lo := a.v - a.err
    let hi := a.v + a.err
    let rlo := f.round rm 0 sat (stickyVal lo (a.e - p))
    let rhi := f.round rm 0 sat (stickyVal (hi - 1) (a.e - p))
    if (0 < lo || hi < 0) && rlo = rhi then rlo else zivRound f rm sat ap (2 * p) n

/-- The first working precision and the number of doublings. -/
def zivStart : Nat := 128
def zivFuel : Nat := 7

/-- 2^a rounded to a format (R143, R148). -/
def fExp2 (f : Fmt) (rm : Nat) (sat : Bool) (a : Val) : Nat × Flag :=
  match a with
  | .nan n s t => f.round rm 0 sat (.nan n s t)
  | .inf true => f.round rm 0 sat (.zero false)
  | .inf false => f.round rm 0 sat (.inf false)
  | .zero _ => f.round rm 0 sat (.num false 1 0 false)
  | .num neg m e _ =>
    let v := shiftNat m e
    if e ≥ 0 ∨ v * 2 ^ (-e).toNat = m then
      -- an integer argument: an exact power of two, or far out of range
      let i := min v 4096
      f.round rm 0 sat (.num false 1 (if neg then -(i : Int) else i) false)
    else if v ≥ 4096 then f.round rm 0 sat (.num false 1 (if neg then -4096 else 4096) true)
    else zivRound f rm sat (fun p => exp2Approx p neg m e) zivStart zivFuel

/-- log2 a rounded to a format. -/
def fLog2 (f : Fmt) (rm : Nat) (sat : Bool) (a : Val) : Nat × Flag :=
  match a with
  | .nan n s t => f.round rm 0 sat (.nan n s t)
  | .zero _ => ((f.round rm 0 sat (.inf true)).1, flagDZ)
  | .inf false => f.round rm 0 sat (.inf false)
  | .num false m e _ =>
    if m = 2 ^ (bitLen m - 1) then f.round rm 0 sat (valOfInt (e + (bitLen m : Int) - 1))
    else zivRound f rm sat (fun p => log2Approx p m e) zivStart zivFuel
  | _ => (f.nanCode, flagNV)

/-- sin a or cos a rounded to a format, a in radians. -/
def fTrig (f : Fmt) (rm : Nat) (sat cosine : Bool) (a : Val) : Nat × Flag :=
  match a with
  | .nan n s t => f.round rm 0 sat (.nan n s t)
  | .inf _ => (f.nanCode, flagNV)
  | .zero n => if cosine then f.round rm 0 sat (.num false 1 0 false) else f.round rm 0 sat (.zero n)
  | .num neg m e _ => zivRound f rm sat (fun p => trigApprox p cosine neg m e) zivStart zivFuel

end Sys2Proof.Machine
end

