-- ==== Sys2Proof/Machine/Draws.lean ====
section
/-! DEFINITION. Draws for stochastic rounding: requests to the cluster's noise source and their service in live, rehearsal and
replay mode (04 R76-R81), the keyed generator's key and coordinates (R68), and how an instruction that rounds issues (R67). -/

namespace Sys2Proof.Machine

open Sys2Proof

/-- The key K of R68: k56 to k59. -/
def Team.key (t : Team) : List W32 := [t.kreg 56, t.kreg 57, t.kreg 58, t.kreg 59]

/-- The draws of a lane under rm 6: stream k60, coordinates from SRKC on (R68). -/
def Team.keyedDraws (t : Team) (h : Thread) (n : Nat) : List Nat :=
  (List.range n).map fun i => (kcg t.key (t.kreg 60) (h.srkc + BitVec.ofNat 64 i)).toNat % 65536

/-- A request is complete. -/
def DrawReq.ready (r : DrawReq) : Bool := r.need ≤ r.got.length

/-- The request of a lane that waits to issue. -/
def State.laneDraws (s : State) (team tid : Nat) : Option DrawReq :=
  s.noise.reqs.find? fun r => r.team = team && r.tid = tid && r.who = .lane

/-- A lane has `n` draws that it has taken. -/
def State.drawsReady (s : State) (team n tid : Nat) : Bool :=
  ((s.laneDraws team tid).map fun r => r.slots.isEmpty && decide (n ≤ r.got.length)).getD false

/-- The next `n` draws of a lane. -/
def State.drawsOf (s : State) (team n tid : Nat) : List Nat := (((s.laneDraws team tid).map DrawReq.got).getD []).take n

/-- A request as it is posted. -/
def DrawReq.new (cluster team kind tid : Nat) (who : Drawer) (need : Nat) : DrawReq :=
  { id := 0, cluster := cluster, team := team, kind := kind, tid := tid, who := who, need := need, got := [],
    slots := [], held := false }

/-- A request put in the place of the one with its number. -/
def State.setDraw (s : State) (r : DrawReq) : State :=
  { s with noise := { s.noise with reqs := updWhere s.noise.reqs (fun q => q.id = r.id) fun _ => r } }

/-- A request that its consumer makes again: one for another number of draws keeps those that it has taken, since a lane's draws are in
the order of its tag (R78). -/
def DrawReq.again (q : DrawReq) (need : Nat) : DrawReq :=
  if q.need = need then { q with held := false }
  else { q with need := need, got := q.got.take (q.got.length - q.slots.length), slots := [], held := false }

/-- Puts a request at the end of the cluster's line; one that its consumer has already posted stays in its place. -/
def State.postDraw (s : State) (r : DrawReq) : State :=
  match s.noise.reqs.find? fun q => q.team = r.team && q.tid = r.tid && q.kind = r.kind && q.who = r.who with
  | some q => s.setDraw (q.again r.need)
  | none => { s.fresh with noise := { s.noise with reqs := s.noise.reqs ++ [{ r with id := s.nextId }] } }

/-- Requests of `n` draws for each lane, in element order (R76). -/
def State.askDraws (s : State) (t : Team) (lanes : List Nat) (n : Nat) : State :=
  lanes.foldl (fun s x =>
    s.postDraw (.new (coreCluster (t.coreOf x)) t.id 0 x .lane n)) s

/-- Lanes have consumed their next `n` draws; draws beyond them stay for the lane's next instruction (R67). -/
def State.dropDraws (s : State) (team n : Nat) (lanes : List Nat) : State :=
  let left (r : DrawReq) : Option DrawReq :=
    if !(r.team = team && r.who = .lane && lanes.contains r.tid) then some r
    else if r.got.length ≤ n then none
    else some { r with got := r.got.drop n, need := r.got.length - n }
  { s with noise := { s.noise with reqs := s.noise.reqs.filterMap left } }

/-- An instruction whose elements are rounded: `n` elements in each active lane, `act` given each lane with its draws. Under rm 5
the lanes first wait for their draws (R67, R76). -/
def issueRounded (f0 : Form) (rm n : Nat) (act : Team → List (Nat × List Nat) → State → State) (s : State) : Out :=
  let f := if rm = 6 then { f0 with ks := [56, 57, 58, 59, 60] } else f0
  match s.issuer with
  | none => .fault .noIssuer
  | some (b, t) =>
    match gate f t b.tids with
    | .stops l => .next (s.stopLanes t.id l)
    | .wait => .next (s.stall b)
    | .pass =>
      let acts := t.active f b.tids
      if rm = 5 then
        if acts.all (s.drawsReady t.id n) then
          let s1 := act t (acts.map fun x => (x, s.drawsOf t.id n x)) (s.dropDraws t.id n acts)
          .next (s1.finish f t.id [b] (b.idx t) { s := s1 })
        else .next ((s.askDraws t acts n).stall b)
      else
        let lanes := acts.map fun x =>
          (x, if rm = 6 then ((t.thread? x).map fun h => t.keyedDraws h n).getD [] else [])
        let s1 := act t lanes s
        let s2 := if rm = 6 then s1.updThreads t.id acts fun h => { h with srkc := h.srkc + BitVec.ofNat 64 n } else s1
        .next (s2.finish f t.id [b] (b.idx t) { s := s2 })

/-- The lanes' own registers change at once. -/
def actShort (g : List Nat → Thread → Thread) (t : Team) (lanes : List (Nat × List Nat)) (s : State) : State :=
  s.updEach t.id (lanes.map fun p => (p.1, g p.2))

/-- The results come later: destinations are marked empty (R33, R124). -/
def actLong (f : Form) (g : List Nat → Thread → List (Nat × W32) × W32) (t : Team) (lanes : List (Nat × List Nat)) (s : State) :
    State :=
  lanes.foldl (fun s p =>
    match s.thread? t.id p.1 with
    | none => s
    | some h =>
      let r := g p.2 h
      let res : Result := { id := s.nextId, team := t.id, tid := p.1, regs := r.1, flags := r.2 }
      { (s.fresh.updThread t.id p.1 fun h => { f with long := true }.atIssue h) with
        flight := { s.flight with results := s.flight.results ++ [res] } }) s

/-- `perElem` with a draw for each element. -/
def perElemDraw (ty : Nat) (draws : List Nat) (f : Nat → Nat → Nat → Nat → Nat × Flag) (a b c : Nat) : Nat × Flag :=
  let w := tyWidth ty
  let rs := (List.range (tyCount ty)).map fun i => f (draws.getD i 0) (elem a w i) (elem b w i) (elem c w i)
  (pack w (rs.map Prod.fst), (rs.map Prod.snd).foldl (· ||| ·) 0)

/-! ## Service of the requests -/

/-- The tag of a record as a key: kind and TID (R78). -/
def tagKey (kind tid : Nat) : Nat := 1024 * kind + tid

/-- A record (R78). -/
def drawRecord (kind tid draw ordinal : Nat) : Nat :=
  draw % 2 ^ 16 + 2 ^ 16 * (tid % 2 ^ 10) + 2 ^ 26 * (kind % 8) + 2 ^ 32 * (ordinal % 2 ^ 32)

/-- The result of a NOISE: the first draw in the low half, the second in the high half (R154). -/
def noiseWord (draws : List Nat) : W32 := BitVec.ofNat 32 (draws.getD 0 0 + 65536 * draws.getD 1 0)

/-- The draws of a team counted under a tag (R78). -/
def State.countDraws (s : State) (r : DrawReq) (n : Nat) : State :=
  s.updTeam r.team fun t => { t with draws := keep 0 t.draws (tagKey r.kind r.tid) (look 0 t.draws (tagKey r.kind r.tid) + n) }

/-- A request with one more draw; the team counts it under its tag (R78). A NOISE lane that has both receives its result (R154). -/
def State.giveDraw (s : State) (r : DrawReq) (draw : Nat) : State :=
  let r' := { r with got := r.got ++ [draw] }
  let s2 := (s.setDraw r').countDraws r 1
  match r.who with
  | .noise dst =>
    if r'.ready then
      { s2.deliver r.team r.tid [(dst, noiseWord r'.got)] with noise := { s2.noise with reqs := s2.noise.reqs.filter fun q => q.id ≠ r.id } }
    else s2
  | _ => s2

/-- A fresh draw of the noise source. -/
def State.freshDraw (s : State) : Nat × State :=
  ((Config.noiseDraw s.noise.drawn).toNat, { s with noise := { s.noise with drawn := s.noise.drawn + 1 } })

/-- The address of the rehearsal block of a team (R77). -/
def Team.rehearsalBlock (t : Team) : W64 := t.launch.segBase

/-- The address of a record of the ring; a base that is not aligned is taken as it stands (R77, R79; log 81). -/
def Team.ringSlot (t : Team) (i : Nat) : W64 := t.ringBase + BitVec.ofNat 64 (8 * (i % t.ringSize))

end Sys2Proof.Machine
end

