-- ==== Sys2Proof/Machine/FloatOps.lean ====
section
/-! DEFINITION. Floating-point instructions (07 R143-R148). -/

namespace Sys2Proof.Machine

open Sys2Proof

/-- An exact result rounded to a format, the flags of both steps together. -/
def roundWith (f : Fmt) (rm draw : Nat) (sat : Bool) (r : Val × Flag) : Nat × Flag :=
  let o := f.round rm draw sat r.1
  (o.1, o.2 ||| r.2)

/-- The two operands of a floating-point word as values, after its modifiers. -/
def opA (w : RWord) (f : Fmt) (v : Nat) : Val := f.decode (modFloat f w.na w.aa v)
def opB (w : RWord) (f : Fmt) (v : Nat) : Val := f.decode (modFloat f w.nb w.ab v)
/-- Operand c, negated with md[0] (R144). -/
def opC (w : RWord) (f : Fmt) (v : Nat) : Val := f.decode (modFloat f (bitOf w.md.toNat 0) false v)

/-- A rounded result of every element of up to three operands. -/
def floatResult (w : RWord) (op : Val → Val → Val → Val × Flag) (draws : List Nat) (h : Thread) : Nat × Flag :=
  let ty := w.ty.toNat
  let f := fmtTy ty
  perElemDraw ty draws
    (fun d a b c => roundWith f w.rm.toNat d w.sat (op (opA w f a) (opB w f b) (opC w f c)))
    (h.tyVal ty w.a.toNat) (h.tyVal ty w.b.toNat) (h.tyVal ty w.c.toNat)

/-- The lane function of such an instruction. -/
def floatLane (w : RWord) (op : Val → Val → Val → Val × Flag) (draws : List Nat) (h : Thread) : Thread :=
  h.put w.ty.toNat w.d.toNat (floatResult w op draws h)

/-- The result of a long-latency floating-point instruction. -/
def floatLong (w : RWord) (op : Val → Val → Val → Val × Flag) (draws : List Nat) (h : Thread) : List (Nat × W32) × W32 :=
  let r := floatResult w op draws h
  (tyOut w.ty.toNat w.d.toNat r.1, r.2)

/-- FADD (R143). -/
def execFadd (w : RWord) (s : State) : Out :=
  issueRounded (form2 w (regsOf w)) w.rm.toNat (tyCount w.ty.toNat)
    (actShort (floatLane w fun a b _ => vAdd w.rm.toNat a b)) s

/-- FSUB (R143). -/
def execFsub (w : RWord) (s : State) : Out :=
  issueRounded (form2 w (regsOf w)) w.rm.toNat (tyCount w.ty.toNat)
    (actShort (floatLane w fun a b _ => (firstNan [a, b]).getD (addFin w.rm.toNat a b.negate))) s

/-- FMUL (R143). -/
def execFmul (w : RWord) (s : State) : Out :=
  issueRounded (form2 w (regsOf w)) w.rm.toNat (tyCount w.ty.toNat) (actShort (floatLane w fun a b _ => vMul a b)) s

/-- FFMA (R144). -/
def execFfma (w : RWord) (s : State) : Out :=
  issueRounded (form3 w (regsOf w)) w.rm.toNat (tyCount w.ty.toNat)
    (actShort (floatLane w fun a b c => vFma w.rm.toNat a b c)) s

/-- The lane function of FMIN and FMAX (R145). -/
def minMaxLane (w : RWord) (lesser : Bool) (h : Thread) : Thread :=
  let ty := w.ty.toNat
  let f := fmtTy ty
  h.put ty w.d.toNat (perElem ty (fun x y _ =>
    let a := modFloat f w.na w.aa x
    let b := modFloat f w.nb w.ab y
    match vMinMax lesser (f.decode a) (f.decode b) with
    | (some true, fl) => (a, fl)
    | (some false, fl) => (b, fl)
    | (none, fl) => (f.nanCode, fl)) (h.tyVal ty w.a.toNat) (h.tyVal ty w.b.toNat) 0)

/-- FMIN (R145). -/
def execFmin (w : RWord) (s : State) : Out := issueThread (form2 w (regsOf w)) (fun _ => minMaxLane w true) s

/-- FMAX (R145). -/
def execFmax (w : RWord) (s : State) : Out := issueThread (form2 w (regsOf w)) (fun _ => minMaxLane w false) s

/-- The comparison of R146 with its flag. -/
def floatCmp (mode : Nat) (a b : Val) : Bool × Flag :=
  let un := a.isNan || b.isNan
  let quiet := flagIf (a.isSig || b.isSig) flagNV
  let loud := flagIf un flagNV
  match mode with
  | 0 => (!un && vCmp a b = .eq, quiet)
  | 1 => (!un && vCmp a b = .lt, loud)
  | 2 => (!un && vCmp a b ≠ .gt, loud)
  | _ => (un, quiet)

/-- FCMP (R146). -/
def execFcmp (w : RWord) (s : State) : Out :=
  let ty := w.ty.toNat
  let f := fmtTy ty
  issueThread (w.form [w.srcA (regsOf w), w.srcB (regsOf w)] (if w.pd then [] else [w.dst (regsOf w)])) (fun _ h =>
    let a := h.tyVal ty w.a.toNat
    let b := h.tyVal ty w.b.toNat
    if w.pd then
      let r := floatCmp w.mode2 (opA w f a) (opB w f b)
      (h.setPred w.d.toNat r.1).addFlags r.2
    else h.put ty w.d.toNat (perElem ty (fun x y _ =>
      let r := floatCmp w.mode2 (opA w f x) (opB w f y)
      (if r.1 then ones (tyWidth ty) else 0, r.2)) a b 0)) s

/-- The class bit of R147. -/
def classBit (f : Fmt) (code : Nat) : Nat :=
  match f.decode code with
  | .inf true => 0
  | .inf false => 7
  | .zero true => 3
  | .zero false => 4
  | .nan _ sig _ => if sig then 8 else 9
  | .num neg m _ _ =>
    let normal := decide (2 ^ f.frac ≤ m)
    match neg, normal with
    | true, true => 1
    | true, false => 2
    | false, false => 5
    | false, true => 6

/-- FCLASS (R147). -/
def execFclass (w : RWord) (s : State) : Out :=
  let ty := w.ty.toNat
  issueThread (w.form [w.srcA (regsOf w)] [w.dst 1]) (fun _ h =>
    h.setReg w.d.toNat (BitVec.ofNat 32 (2 ^ classBit (fmtTy ty) (elem (h.tyVal ty w.a.toNat) (tyWidth ty) 0)))) s

/-- FDIV (R143, R148). -/
def execFdiv (w : RWord) (s : State) : Out :=
  let f := form2 w (regsOf w)
  issueRounded f w.rm.toNat 1 (actLong f (floatLong w fun a b _ => vDiv a b)) s

/-- FSQRT (R143, R148). -/
def execFsqrt (w : RWord) (s : State) : Out :=
  let f := form1 w (regsOf w)
  issueRounded f w.rm.toNat 1 (actLong f (floatLong w fun a _ _ => vSqrt a)) s

/-- FRCP (R143, R148). -/
def execFrcp (w : RWord) (s : State) : Out :=
  let f := form1 w (regsOf w)
  issueRounded f w.rm.toNat 1 (actLong f (floatLong w fun a _ _ => vRcp a)) s

/-- FRSQ (R143, R148). -/
def execFrsq (w : RWord) (s : State) : Out :=
  let f := form1 w (regsOf w)
  issueRounded f w.rm.toNat 1 (actLong f (floatLong w fun a _ _ => vRsqrt a)) s

/-- The result of a transcendental on operand a. -/
def transLong (w : RWord) (op : Fmt → Nat → Bool → Val → Nat × Flag) (_draws : List Nat) (h : Thread) : List (Nat × W32) × W32 :=
  let ty := w.ty.toNat
  let f := fmtTy ty
  let r := op f w.rm.toNat w.sat (opA w f (elem (h.tyVal ty w.a.toNat) (tyWidth ty) 0))
  (tyOut ty w.d.toNat r.1, r.2)

/-- FEXP2 (R143, R148). -/
def execFexp2 (w : RWord) (s : State) : Out :=
  let f := form1 w (regsOf w)
  issueRounded f w.rm.toNat 1 (actLong f (transLong w fExp2)) s

/-- FLOG2 (R143, R148). -/
def execFlog2 (w : RWord) (s : State) : Out :=
  let f := form1 w (regsOf w)
  issueRounded f w.rm.toNat 1 (actLong f (transLong w fLog2)) s

/-- FSIN (R143, R148). -/
def execFsin (w : RWord) (s : State) : Out :=
  let f := form1 w (regsOf w)
  issueRounded f w.rm.toNat 1 (actLong f (transLong w fun f rm sat a => fTrig f rm sat false a)) s

/-- FCOS (R143, R148). -/
def execFcos (w : RWord) (s : State) : Out :=
  let f := form1 w (regsOf w)
  issueRounded f w.rm.toNat 1 (actLong f (transLong w fun f rm sat a => fTrig f rm sat true a)) s

/-- FDOT2 (R144): sources in ty, c and d F32, whole operands negated. -/
def execFdot2 (w : RWord) (s : State) : Out :=
  let f := fmtTy w.ty.toNat
  issueRounded (form3 w 1) w.rm.toNat 1 (actShort fun draws h =>
    let a := (h.reg w.a.toNat).toNat
    let b := (h.reg w.b.toNat).toNat
    let at_ (x : Nat) (neg : Bool) (i : Nat) : Val := f.decode (modFloat f neg false (elem x 16 i))
    h.put 6 w.d.toNat (roundWith fmtF32 w.rm.toNat (draws.getD 0 0) w.sat
      (vDot2 w.rm.toNat (at_ a w.na 0) (at_ a w.na 1) (at_ b w.nb 0) (at_ b w.nb 1) (opC w fmtF32 (h.reg w.c.toNat).toNat)))) s

end Sys2Proof.Machine
end

