-- ==== Sys2Proof/Machine/ConvOps.lean ====
section
/-! DEFINITION. Conversions, block quantisation, the core codebook and random values (07 R149-R154). -/

namespace Sys2Proof.Machine

open Sys2Proof

/-- The source type of a conversion: md[3:0] (R149). -/
def srcTy (w : RWord) : Nat := bitsOf w.md.toNat 0 4

/-- Elements that a conversion converts (R149). -/
def convCount (w : RWord) : Nat := max (tyCount (srcTy w)) (tyCount w.ty.toNat)

/-- Registers of `n` elements of a type (R149). -/
def convRegs (n ty : Nat) : Nat := n * tySlot ty / 32

/-- The spans of a conversion. -/
def convForm (w : RWord) : Form :=
  let n := convCount w
  w.form [w.srcA (convRegs n (srcTy w))] [w.dst (convRegs n w.ty.toNat)]

/-- The lane function of a conversion: each element of the source's slots to the destination's. -/
def convLane (w : RWord) (f : Nat → Nat → Nat × Flag) (draws : List Nat) (h : Thread) : Thread :=
  let n := convCount w
  let src := h.regsNat w.a.toNat (convRegs n (srcTy w))
  let rs := (List.range n).map fun i => f (draws.getD i 0) (bitsOf src (tySlot (srcTy w) * i) (tyWidth (srcTy w)))
  (h.setRegs w.d.toNat (pack (tySlot w.ty.toNat) (rs.map Prod.fst)) (convRegs n w.ty.toNat)).addFlags
    ((rs.map Prod.snd).foldl (· ||| ·) 0)

/-- CVTF (R149). -/
def execCvtf (w : RWord) (s : State) : Out :=
  issueRounded (convForm w) w.rm.toNat (convCount w) (actShort (convLane w fun d x =>
    (fmtTy w.ty.toNat).round w.rm.toNat d w.sat ((fmtTy (srcTy w)).decode x))) s

/-- CVTFI (R149). -/
def execCvtfi (w : RWord) (s : State) : Out :=
  issueRounded (convForm w) w.rm.toNat (convCount w) (actShort (convLane w fun d x =>
    (intTy w.ty.toNat).ofVal w.rm.toNat d ((fmtTy (srcTy w)).decode x))) s

/-- CVTIF (R149). -/
def execCvtif (w : RWord) (s : State) : Out :=
  issueRounded (convForm w) w.rm.toNat (convCount w) (actShort (convLane w fun d x =>
    (fmtTy w.ty.toNat).round w.rm.toNat d w.sat (valOfInt ((intTy (srcTy w)).of x)))) s

/-- The k registers that hold the core codebook: a lane waits while a KLD to one of them is pending (R49, R152). -/
def bookRegs : List Nat := (List.range 8).map (48 + ·)

/-- The k registers that an element format of R55 reads: CB4 alone has a codebook (R150, R151). -/
def codeRegs (c : Nat) : List Nat := if c = 11 then bookRegs else []

/-- The team's core codebook (R152). -/
def Team.coreBook (t : Team) : List Nat :=
  (List.range 16).map fun c => bitsOf (t.kreg (48 + c / 2)).toNat (16 * (c % 2)) 16

/-- CVTQ (R150): the participants that share LANE div 32 form one block. -/
def execCvtq (w : RWord) (s : State) : Out :=
  let code := srcTy w
  let f := fmtTy w.ty.toNat
  issueCollective { form1 w 1 with ks := codeRegs code }
    (collective fun t ps => ps.map fun h =>
      let blk := t.lane h.tid / 32
      let xs := (List.range 32).map fun i =>
        match ps.find? fun p => t.lane p.tid = 32 * blk + i with
        | some p => f.decode ((p.reg w.a.toNat).toNat % 2 ^ f.bits)
        | none => Val.zero false
      let (codes, sc, fl) := quantise t.coreBook code xs
      let c := codes.getD (t.lane h.tid % 32) 0 % 2 ^ codeBits code
      (h.tid, fun x => x.put 1 w.d.toNat (c + 65536 * sc, fl))) s

/-- CVTDQ (R151). -/
def execCvtdq (w : RWord) (s : State) : Out :=
  let code := srcTy w
  let f := fmtTy w.ty.toNat
  issueLanes { form1 w 1 with ks := codeRegs code } (fun team tid s =>
    match s.team? team, s.thread? team tid with
    | some t, some h =>
      let a := (h.reg w.a.toNat).toNat
      match sc10 (bitsOf a 16 10) with
      | none => .stop { code := trapMatrixFormat } s
      | some sc =>
        let v := scaleVal sc (codeDecode t.coreBook code (a % 2 ^ codeBits code))
        .ok (s.updThread team tid fun x => x.put 1 w.d.toNat (roundWith f w.rm.toNat 0 false v))
    | _, _ => .hold) s

/-- CBK (R152). -/
def execCbk (w : RWord) (s : State) : Out :=
  let f := fmtTy w.ty.toNat
  issueThread { form1 w 1 with ks := bookRegs } (fun t h =>
    let a := (h.reg w.a.toNat).toNat
    h.put 1 w.d.toNat (
      if bitOf w.md.toNat 0 then coreEncode t.coreBook (f.decode (a % 2 ^ f.bits))
      else
        let e := t.coreBook.getD (a % 16) 0
        if w.ty = 6 then fmtF32.round 0 0 false (fmtBF16.decode e) else (e, 0))) s

/-- RNGK (R153). -/
def execRngk (w : RWord) (s : State) : Out :=
  issueThread { w.form [w.srcA 1, w.srcB 2] [w.dst 1] with ks := [56, 57, 58, 59] } (fun t h =>
    h.setReg w.d.toNat (kcg t.key (h.reg w.a.toNat) (h.pair w.b.toNat))) s

/-- NOISE (R154): two draws for each active lane, delivered to d when the second arrives. A team in rehearsal or replay mode waits
at the instruction until its draws are there, so that a fault on the ring stops it exactly (R81, log 54). -/
def execNoise (w : RWord) (s : State) : Out :=
  let f := w.form [] [w.dst 1]
  if (s.issuer.map fun p => decide (p.2.rehearsal = 0)).getD true then
    issueLanes { f with long := true } (fun team tid s =>
      match s.team? team with
      | some t => .ok (s.postDraw (.new (coreCluster (t.coreOf tid)) team 0 tid (.noise w.d.toNat) 2))
      | none => .hold) s
  else issueRounded f 5 2 (actLong f fun draws _ => ([(w.d.toNat, noiseWord draws)], 0)) s

end Sys2Proof.Machine
end

