-- ==== Sys2Proof/Machine/Access.lean ====
section
/-! DEFINITION. What the memory instructions of a thread share: the checks of R184 with parking (09 R185) and the order in which a
lane's accesses may start (05 R88; log 9), posting operations and their requests, the scratchpad, and read-modify-write
arithmetic (09 R191, 19 R356). -/

namespace Sys2Proof.Machine

open Sys2Proof

/-! ## Checks of an access -/

/-- The bytes of an access that lie in one line. -/
structure Part where
  va : W64
  pa : Nat
  /-- Key of the first byte in memory. -/
  key : Nat
  len : Nat
  pos : Nat
  attr : Nat
  nc : Bool
  deriving DecidableEq, Repr

/-- What an access asks of R184. -/
structure Ask where
  use : Use := .read
  /-- It must be aligned to this many bytes. -/
  align : Nat := 1
  /-- A location in a non-coherent window stops it (10.6). -/
  ncStop : Bool := false
  /-- AC bit that it needs outside this device's memory (R209). -/
  ac : Option Nat := none
  /-- The LOST check of 10.7 is replaced by one that the line is LOST (R364). -/
  reclaim : Bool := false
  /-- Host memory stops it at 10.5, because host lines carry no tag (R349, R361). -/
  noHost : Bool := false
  deriving DecidableEq, Repr

/-- An access cut at line boundaries: address, place and length of each piece. -/
def cutLines (va : W64) (n : Nat) : List (W64 × Nat × Nat) :=
  let first := min n (128 - va.toNat % 128)
  if n ≤ first then [(va, 0, n)] else [(va, 0, first), (va + BitVec.ofNat 64 first, first, n - first)]

/-- Steps 10.4 and 10.5 on the pieces in ascending order. -/
def reachPieces (s : State) (unit : Nat) (asid : BitVec 16) (priv : Bool) (use : Use) :
    List (W64 × Nat × Nat) → Except Stop (List Part) × State
  | [] => (.ok [], s)
  | p :: r =>
    match checkPage s unit asid priv p.1 p.2.2 use with
    | (.error f, s1) => (.error f, s1)
    | (.ok x, s1) =>
      match reachPieces s1 unit asid priv use r with
      | (.error f, s2) => (.error f, s2)
      | (.ok l, s2) =>
        (.ok ({ va := p.1, pa := x.pa, key := memKey s1.ctl x.pa, len := p.2.2, pos := p.2.1, attr := x.attr,
                nc := nonCoherent s1 unit asid p.1 x.pa } :: l), s2)

/-- The page state of R185 parks the access. -/
def parksOn (use : Use) (attr : Nat) : Bool := attrTi attr || (use ≠ .read && attrTo attr)

/-- The outcome of the checks: pieces to access, a stop, or `none`, a park. -/
abbrev Reached := Except Stop (Option (List Part)) × State

/-- An atomic's AC bit is missing on a page outside this device's memory (R209). -/
def acLacks (s : State) (ac : Option Nat) (ps : List Part) : Bool :=
  match ac with
  | some b => ps.any fun p => spaceOf s.ctl p.pa ≠ .device && !bitOf p.attr b
  | none => false

/-- The checks of R184 from 10.2 on for `n` bytes at `va`. -/
def reach (s : State) (unit : Nat) (asid : BitVec 16) (priv : Bool) (va : W64) (n : Nat) (k : Ask) : Reached :=
  let bits := k.use.accessBits
  if !canonical va then (.error { code := trapAccess, va := va, access := bits }, s)
  else if va.toNat % k.align ≠ 0 then (.error { code := trapAlign, va := va, access := bits }, s)
  else
    match reachPieces s unit asid priv k.use (cutLines va n) with
    | (.error f, s1) => (.error f, s1)
    | (.ok ps, s1) =>
      if k.noHost && ps.any fun p => spaceOf s1.ctl p.pa = .host then
        (.error { code := trapAccess, va := va, access := bits }, s1)
      else if ps.any fun p => parksOn k.use p.attr then (.ok none, s1)
      else if acLacks s1 k.ac ps then (.error { code := trapAtomicUnsupported, va := va, access := bits }, s1)
      else if k.ncStop && ps.any Part.nc then (.error { code := trapNcWindow, va := va, access := bits }, s1)
      else if k.reclaim then
        (if ps.all fun p => isLost s1 p.pa then (.ok (some ps), s1)
         else (.error { code := trapIllegalOperand, va := va, access := bits }, s1))
      else if ps.any fun p => isLost s1 p.pa then (.error { code := trapLostLine, va := va, access := bits }, s1)
      else (.ok (some ps), s1)

/-- The checks for a thread, through its core's translation unit (R203). -/
def Team.reach (t : Team) (s : State) (h : Thread) (va : W64) (n : Nat) (k : Ask) : Reached :=
  Machine.reach s (t.coreOf h.tid) t.asid h.priv va n k

/-! ## The order of a lane's accesses -/

/-- The operation of a request. -/
def State.op? (s : State) (id : Nat) : Option Op := s.flight.ops.find? fun o => o.id = id

/-- The operation returns a value to its thread. -/
def OpKind.returns : OpKind → Bool
  | .load _ | .sub _ | .ldv _ | .atom _ | .cas4 | .kload _ | .pop _ _ _ => true
  | _ => false

def State.returns (s : State) (r : Req) : Bool := ((s.op? r.op).map fun o => o.kind.returns).getD false

/-- The kind of an operation that a WACK waits for (R196). -/
def OpKind.acked : OpKind → Bool
  | .store | .sts | .red | .scat | .scata => true
  | _ => false

/-- A request that only reads. -/
def Req.reads (r : Req) : Bool :=
  match r.kind with
  | .load | .sub _ _ | .ldv => true
  | _ => false

/-- A request in a store queue of its group. -/
def Req.inQueue (r : Req) : Bool := (r.kind = .store || r.kind = .sts) && r.stage = .queued

/-- Not yet at the home. -/
def Req.unapplied (r : Req) : Bool := r.stage = .queued || r.stage = .sent

/-- A request that only reads has its value; one that writes is complete at its home, with every probe answered (R345). -/
def Req.settled (r : Req) : Bool := r.stage = .done || (r.reads && r.stage = .performed)

/-- Requests of one thread. -/
def State.reqsOf (s : State) (team tid : Nat) : List Req := s.flight.reqs.filter fun r => r.team = team && r.tid = tid

/-- A request of a KLD, which acts for every thread of its bundle (R177). -/
def State.isKload (s : State) (r : Req) : Bool := match (s.op? r.op).map Op.kind with
  | some (.kload _) => true
  | _ => false

/-- An acquire of the lane, or of a KLD of the team, is not over yet (R88). -/
def State.acqPending (s : State) (team tid : Nat) : Bool :=
  s.flight.reqs.any fun r => r.team = team && (r.tid = tid || s.isKload r) && (r.ord = 1 || r.ord = 3) && !r.settled

/-- A store that a load of the lane has read is not complete at its home yet (log 9). -/
def State.seenOpen (s : State) (team tid : Nat) : Bool :=
  s.flight.seen.any fun x => x.team = team && x.tid = tid && s.flight.reqs.any fun r => r.id = x.store && r.stage ≠ .done

/-- A store of the lane's own that a load of it has read is still in its queue: later loads wait for it (R88; log 9). -/
def State.seenQueued (s : State) (team tid : Nat) : Bool :=
  s.flight.seen.any fun x => x.team = team && x.tid = tid && s.flight.reqs.any fun r => r.id = x.store && r.inQueue

/-- Every earlier access of the lane is over, and so are the stores that it has read. -/
def State.quiet (s : State) (team tid : Nat) : Bool := (s.reqsOf team tid).all Req.settled && !s.seenOpen team tid

/-- Every earlier access of the lane that returns a value is over. -/
def State.loadsRead (s : State) (team tid : Nat) : Bool := (s.reqsOf team tid).all fun r => !s.returns r || r.settled

/-- Every earlier store of the lane has left its queue. -/
def State.storesSent (s : State) (team tid : Nat) : Bool := (s.reqsOf team tid).all fun r => !r.inQueue

/-- An access under an ord may start: a release after everything earlier, and nothing before an earlier acquire has read (R88). -/
def State.mayStart (s : State) (team tid ord : Nat) : Bool :=
  !s.acqPending team tid && (ord < 2 || s.quiet team tid)

/-- An access to an I/O page waits for the lane's earlier ones (R209). -/
def State.ioWaits (s : State) (team tid : Nat) (ps : List Part) : Bool :=
  (ps.any fun p => attrCm p.attr = 2) && (s.reqsOf team tid).any fun r => r.cm = 2 && !r.settled

/-! ## Stores that have left their queue (R88) -/

/-- A store that has left its queue and is not complete at its home: the threads of its core see it already. -/
def Req.underWay (r : Req) : Bool := r.kind = .store && (r.stage = .sent || r.stage = .performed)

/-- The core of a request sees a store once it has left its queue: its own core's, and that of the other core of a pair (R88). -/
def State.sharesL1 (s : State) (core : Nat) (q : Req) : Bool :=
  q.core = core || (q.core / 2 = core / 2 && ((s.team? q.team).map fun t => t.launch.pair).getD false)

/-- Stores to a line that have left the queues of a core and are not complete. -/
def State.coreStores (s : State) (core line : Nat) : List Req :=
  s.flight.reqs.filter fun q => q.underWay && s.sharesL1 core q && s.lineOf' q = line

/-- A store under way belongs to a thread that a unit serves: of the core or its pair, or of the cluster. -/
def State.serves (s : State) (unit : Nat) (q : Req) : Bool :=
  if unit < 2048 then s.sharesL1 unit q else 2048 ≤ unit && unit < 2560 && coreCluster q.core = unit - 2048

/-- A store under way to one of these lines may have been seen by whoever a unit reads or writes for: an access that is one step of this
model waits until it is complete, so that the team's stores reach the engines that belong to its scope (R19, R88, R90; log 9). -/
def State.unlanded (s : State) (unit : Nat) (ps : List Part) : Bool :=
  s.flight.reqs.any fun q => q.underWay && s.serves unit q && ps.any fun p => lineOf p.key = s.lineOf' q

/-- Some store of a core is under way. -/
def State.coreBusy (s : State) (core : Nat) : Bool := s.flight.reqs.any fun q => q.underWay && s.sharesL1 core q

/-- The checks of a thread's access that is one step of this model: it may not go, as at a page in transit, while a store to one of its
lines is under way. -/
def Team.reachNow (t : Team) (s : State) (h : Thread) (va : W64) (n : Nat) (k : Ask) : Reached :=
  match t.reach s h va n k with
  | (.ok (some ps), s1) => if s1.unlanded (t.coreOf h.tid) ps then (.ok none, s1) else (.ok (some ps), s1)
  | r => r

/-! ## Reads as one step (log 2) -/

/-- The die whose RDC serves a unit's reads of a line; a port and a control processor have none of their own. -/
def unitDie (unit line : Nat) : Nat :=
  if unit < 2048 then coreDie unit else if unit < 2560 then clusterDie (unit - 2048)
  else if unit < 2600 then homeDie line else clusterDie (unit - 2600)

/-- A piece of a checked access read by a client of a unit. -/
def State.readPart (s : State) (unit : Nat) (p : Part) : State × List Byte :=
  let line := lineOf p.key
  let r := s.readFor (unitDie unit line) line (attrCm p.attr) p.nc
  (r.1, (r.2.drop (p.key - line)).take p.len)

/-- The pieces of a checked access read in order. -/
def State.readParts (s : State) (unit : Nat) (ps : List Part) : State × List Byte :=
  ps.foldl (fun a p =>
    let r := a.1.readPart unit p
    (r.1, a.2 ++ r.2)) (s, [])

/-- The access read as a number. -/
def State.readNat (s : State) (unit : Nat) (ps : List Part) : State × Nat :=
  let r := s.readParts unit ps
  (r.1, ofBytes r.2)

/-! ## Posting -/

/-- The core's request table, of 1,536 operations of lanes, is full (R5, log 70). -/
def State.tableFull (s : State) (core : Nat) : Bool :=
  1536 ≤ (s.flight.ops.filter fun o => o.core = core && o.kind ≠ .sts).length

/-- The core's store-to-load forwarding table, of 32 instructions' stores, is full (R190, log 6). -/
def State.forwardsFull (s : State) (core : Nat) : Bool :=
  32 ≤ (((s.flight.reqs.filter fun r => r.core = core && r.kind = .sts && r.inQueue).map Req.batch).eraseDups).length

/-- An operation of a lane put on its way, with the lane's PC record; its number is the state's next. -/
def State.postOp (s : State) (o : Op) : State :=
  let h := s.thread? o.team o.tid
  let o1 : Op := { o with id := s.nextId, pc := (h.map Thread.pc).getD 0, idx := (h.map Thread.idx).getD 0 }
  { s.fresh with flight := { s.flight with ops := s.flight.ops ++ [o1] } }

/-- A request put on its way. -/
def State.postReq (s : State) (r : Req) : State :=
  { s.fresh with flight := { s.flight with reqs := s.flight.reqs ++ [{ r with id := s.nextId }] } }

/-- What the requests of one access share. -/
structure Post where
  team : Nat
  tid : Nat
  core : Nat
  asid : BitVec 16
  batch : Nat
  kind : ReqKind
  ord : Nat := 0
  sc : Nat := 0
  data : List Byte := []
  cmp : List Byte := []
  /-- Position in a list operation. -/
  at_ : Nat := 0
  deriving DecidableEq, Repr

/-- One request for each piece of an access, of operation `op`; one to an I/O page is performed as at system scope (R209). -/
def State.postParts (s : State) (op : Nat) (p : Post) (ps : List Part) : State :=
  ps.foldl (fun s x => s.postReq
    { id := 0, op := op, team := p.team, tid := p.tid, core := p.core, kind := p.kind, pa := x.pa, len := x.len,
      data := (p.data.drop x.pos).take x.len, cmp := p.cmp, pos := p.at_ + x.pos, ord := p.ord,
      sc := if attrCm x.attr = 2 then 7 else p.sc, nc := x.nc,
      cm := attrCm x.attr, va := x.va.toNat, asid := p.asid, batch := p.batch, stage := .queued, paths := [] }) s

/-- An operation with the requests of one access. -/
def State.postAccess (s : State) (o : Op) (p : Post) (ps : List Part) : State :=
  (s.postOp o).postParts s.nextId p ps

/-- The token of a lane that completes at once. -/
def State.tokenDone (s : State) (team tid : Nat) (tok : Option Nat) : State :=
  match tok with
  | some n => (s.updLine0 team tid fun h => h.subToken n).stir team tid
  | none => s

/-- A lane notes the stores whose bytes a load of it has read before they are complete (log 9). -/
def State.noteSeen (s : State) (team tid load : Nat) (stores : List Nat) : State :=
  if stores.isEmpty then s else
  { s with flight := { s.flight with seen := s.flight.seen ++ stores.map fun x => { team := team, tid := tid, load := load, store := x } } }

/-! ## Scratchpad (R190) -/

def Team.spadBytesAt (t : Team) (off n : Nat) : List Byte := getBytes t.spad off n
def Team.spadPut (t : Team) (off : Nat) (d : List Byte) : Team := { t with spad := putBytes t.spad off d }
def Team.spadLe (t : Team) (off n : Nat) : Nat := ofBytes (t.spadBytesAt off n)

/-- The lane's own scratchpad stores in the forwarding table that touch these bytes, in order (R190). -/
def State.forwards (s : State) (team tid off n : Nat) : List Req :=
  (s.reqsOf team tid).filter fun r => r.kind = .sts && r.inQueue && r.pa < off + n && off < r.pa + r.len

/-- Scratchpad bytes as a lane reads them: the bank's, with its own stores of the forwarding table over them (R88, R190). -/
def Team.spadSeen (t : Team) (s : State) (tid off n : Nat) : List Byte :=
  (s.forwards t.id tid off n).foldl (fun l r =>
    if r.pa < off then overlay l 0 ((r.data.drop (off - r.pa)).take n) else overlay l (r.pa - off) (r.data.take (off + n - r.pa)))
    (t.spadBytesAt off n)

/-- Step 10.2 and 10.3 on a scratchpad extent; an aligned extent that the allocation ends inside of stops as well. -/
def Team.spadStop (t : Team) (ea : W64) (n align : Nat) (access : Nat) : Option Stop :=
  if t.launch.spadBytes ≤ ea.toNat then some { code := trapAccess, va := ea, access := access }
  else if ea.toNat % align ≠ 0 then some { code := trapAlign, va := ea, access := access }
  else if t.launch.spadBytes < ea.toNat + n then some { code := trapAccess, va := ea, access := access }
  else none

/-- Steps 10.2 and 10.3 on a block of the scratchpad that must lie in the allocation and on 16 bytes (R361, R364). -/
def Team.blockStop (t : Team) (off n access : Nat) : Option Stop :=
  if t.launch.spadBytes < off + n then some { code := trapAccess, va := BitVec.ofNat 64 off, access := access }
  else if off % 16 ≠ 0 then some { code := trapAlign, va := BitVec.ofNat 64 off, access := access }
  else none

/-! ## Read-modify-write (R191, R356) -/

/-- Registers and bytes of an atomic's type. -/
def rmwBytes (ty : Nat) : Nat := 4 * tyRegs ty

/-- The new value of a location, the flags, and whether anything is written: `op` in the codes of R356. -/
def rmwNew (op ty old b c : Nat) : Nat × Flag × Bool :=
  let w := 32 * tyRegs ty
  let it := intTy ty
  match op with
  | 0 => ((old + b) % 2 ^ w, 0, true)
  | 1 =>
    let f := fmtTy ty
    let r := perElem ty (fun x y _ =>
      let v := vAdd 0 (f.decode x) (f.decode y)
      let o := f.round 0 0 false v.1
      (o.1, o.2 ||| v.2)) old b 0
    (r.1, r.2, true)
  | 2 => (if it.of old ≤ it.of b then old else b, 0, true)
  | 3 => (if it.of b ≤ it.of old then old else b, 0, true)
  | 4 => (old &&& b, 0, true)
  | 5 => (old ||| b, 0, true)
  | 6 => (old ^^^ b, 0, true)
  | 7 => (b, 0, true)
  | 8 => if old = c then (b, 0, true) else (old, 0, false)
  | 9 => (if b ≤ old then 0 else old + 1, 0, true)
  | _ => (if old = 0 ∨ b < old then b else old - 1, 0, true)

/-- The operation and type of R356 that an ATS operation is, on 32 or 64 bits (R191). -/
def atsOp (code : Nat) (wide : Bool) : Nat × Nat :=
  let i := if wide then 2 else 0
  match code with
  | 0 => (0, i)
  | 1 => (1, if wide then 7 else 6)
  | 2 => (1, 9)
  | 3 => (2, i)
  | 4 => (2, i + 1)
  | 5 => (3, i)
  | 6 => (3, i + 1)
  | 7 => (4, i)
  | 8 => (5, i)
  | 9 => (6, i)
  | 10 => (7, i)
  | 11 => (8, i)
  | 12 => (9, i + 1)
  | _ => (10, i + 1)

/-! ## Joins (R16, R65) -/

/-- Both the reader and the engine are members of a scope (R4, R19). -/
def covers (sc : Nat) (team core : Nat) (j : Joined) : Bool :=
  if j.team = team then 2 ≤ sc
  else 5 ≤ sc || (sc = 4 && coreDie j.core = coreDie core) || (sc = 3 && coreCluster j.core = coreCluster core)

/-- Bytes read from a physical key on show the increment: those of the counter among them hold its value or a later one. -/
def Joined.shown (j : Joined) (key : Nat) (data : List Byte) : Bool :=
  let got := (data.drop (j.key - key)).take 8
  key ≤ j.key && !got.isEmpty && j.value % 256 ^ got.length ≤ ofBytes got

/-- Flags of the engine threads whose increments an acquire of these bytes observes; a CUEWAIT always covers its own team. -/
def State.joinFlags (s : State) (team core sc key : Nat) (data : List Byte) (cueWait : Bool) : W32 :=
  s.flight.joins.foldl (fun f j =>
    let own := j.team = team
    if j.shown key data && ((cueWait && own) || covers sc team core j) && (own || covers j.scope team core j) then f ||| j.flags else f) 0

/-- An increment noted for later joins. Earlier ones of its counter stay noted, since a read of the sum observes them too; those that
gave a value not below the new one belong to a count that software has ended by setting the counter anew (log 38). -/
def State.noteJoin (s : State) (j : Joined) : State :=
  { s with flight := { s.flight with joins := s.flight.joins.filter (fun x => x.key ≠ j.key || x.value < j.value) ++ [j] } }

end Sys2Proof.Machine
end

