-- ==== Sys2Proof/Machine/MemOps.lean ====
section
/-! DEFINITION. Memory, scratchpad, fence and volume instructions of a thread (09 R187-R201). -/

namespace Sys2Proof.Machine

open Sys2Proof

/-- A lane's body that needs its team and thread. -/
def withLane (f : Team → Thread → State → Res) (team tid : Nat) (s : State) : Res :=
  match s.team? team with
  | none => .hold
  | some t =>
    match t.thread? tid with
    | none => .hold
    | some h => f t h s

/-- What the checks of an access lead to: a stop, a park, or the access itself. -/
def onReach (r : Reached) (go : List Part → State → Res) : Res :=
  match r with
  | (.error x, s) => .stop x s
  | (.ok none, s) => .leave .transit s
  | (.ok (some ps), s) => go ps s

/-- Bytes of a register value, lowest first. -/
def Thread.dataBytes (h : Thread) (r n : Nat) : List Byte := toBytes n (h.regsNat r ((n + 3) / 4))

/-- The alignment that LD and ST ask for: none for 16 to 64 bits with ord 0 (R183). -/
def mNeedAlign (w : MWord) : Nat := if w.ord = 0 ∧ w.w.toNat ≤ 3 then 1 else widthBytes w.w

/-! ## Loads and stores (R187) -/

/-- A load of `n` bytes at `ea` by one lane, delivered as `kind`. -/
def loadLane (t : Team) (h : Thread) (s : State) (ea : W64) (n : Nat) (k : Ask) (ord sc batch : Nat) (kind : OpKind) (dst : Nat)
    (rk : Part → ReqKind) : Res :=
  if !s.mayStart t.id h.tid ord || s.tableFull (t.coreOf h.tid) then .hold else
  onReach (t.reach s h ea n k) fun ps s1 =>
    if s1.ioWaits t.id h.tid ps then .hold else
    match ps with
    | [] => .hold
    | p :: _ => .ok (s1.postAccess
        { id := 0, team := t.id, tid := h.tid, core := t.coreOf h.tid, kind := kind, dst := dst, tok := none, bytes := n, flags := 0 }
        { team := t.id, tid := h.tid, core := t.coreOf h.tid, asid := t.asid, batch := batch, kind := rk p, ord := ord, sc := sc } ps)

/-- A store of bytes at `ea` by one lane. -/
def storeLane (t : Team) (h : Thread) (s : State) (ea : W64) (d : List Byte) (k : Ask) (ord sc batch : Nat) (tok : Option Nat) : Res :=
  if !s.mayStart t.id h.tid ord || s.tableFull (t.coreOf h.tid) then .hold else
  onReach (t.reach s h ea d.length k) fun ps s1 =>
    if s1.ioWaits t.id h.tid ps then .hold else
    .ok (s1.postAccess
      { id := 0, team := t.id, tid := h.tid, core := t.coreOf h.tid, kind := .store, dst := 0, tok := tok, bytes := d.length, flags := 0 }
      { team := t.id, tid := h.tid, core := t.coreOf h.tid, asid := t.asid, batch := batch, kind := .store, ord := ord, sc := sc,
        data := d } ps)

/-- LD (R187). -/
def execLd (w : MWord) (s : State) : Out :=
  let n := widthRegs w.w
  issueLanes { w.form (w.srcBase :: w.srcIndex) [w.dst n] with long := true }
    (withLane fun t h s1 => loadLane t h s1 (w.ea h) (widthBytes w.w) { align := mNeedAlign w } w.ord.toNat w.sc.toNat s.nextId
      (.load n) w.d.toNat fun _ => .load) s

/-- ST (R187). -/
def execSt (w : MWord) (s : State) : Out :=
  let n := widthRegs w.w
  issueLanes { w.form ([w.srcBase] ++ w.srcIndex ++ [w.srcData n]) [] with tok := tokenOf w.tk }
    (withLane fun t h s1 => storeLane t h s1 (w.ea h) (h.dataBytes w.d.toNat (widthBytes w.w))
      { use := .write, align := mNeedAlign w } w.ord.toNat w.sc.toNat s.nextId (tokenOf w.tk)) s

/-! ## Scratchpad (R190, R191) -/

/-- LDS (R190): the forwarding table or the bank answers at issue. -/
def execLds (w : MWord) (s : State) : Out :=
  let n := widthRegs w.w
  issueLanes { w.form (w.srcBase :: w.srcIndex) [w.dst n] with long := true }
    (withLane fun t h s1 =>
      let ea := w.ea h
      let len := widthBytes w.w
      let own := s1.forwards t.id h.tid ea.toNat len
      if !(s1.mayStart t.id h.tid w.ord.toNat && s1.loadsRead t.id h.tid) || s1.seenQueued t.id h.tid
          || (w.ord.toNat % 2 = 1 && !own.isEmpty) then .hold else
      match t.spadStop ea len len 0 with
      | some x => .stop x s1
      | none => .ok ((s1.updThread t.id h.tid fun x => x.setRegs w.d.toNat (ofBytes (t.spadSeen s1 h.tid ea.toNat len)) n).fresh.noteSeen
          t.id h.tid s1.nextId (own.map Req.id))) s

/-- STS (R190): the store takes its place in its group's store queue and in the forwarding table; an STS waits while the table is full. -/
def execSts (w : MWord) (s : State) : Out :=
  let n := widthRegs w.w
  issueLanes { w.form ([w.srcBase] ++ w.srcIndex ++ [w.srcData n]) [] with tok := tokenOf w.tk }
    (withLane fun t h s1 =>
      let ea := w.ea h
      let len := widthBytes w.w
      let core := t.coreOf h.tid
      if !s1.mayStart t.id h.tid w.ord.toNat || s.forwardsFull core then .hold else
      match t.spadStop ea len len 1 with
      | some x => .stop x s1
      | none => .ok ((s1.postOp { id := 0, team := t.id, tid := h.tid, core := core, kind := .sts, dst := 0, tok := tokenOf w.tk,
                                  bytes := len, flags := 0 }).postReq
          { id := 0, op := s1.nextId, team := t.id, tid := h.tid, core := core, kind := .sts, pa := ea.toNat, len := len,
            data := h.dataBytes w.d.toNat len, cmp := [], pos := 0, ord := w.ord.toNat, sc := w.sc.toNat, nc := false, cm := 0,
            va := ea.toNat, asid := t.asid, batch := s.nextId, stage := .queued, paths := [] })) s

/-- ATS (R191). -/
def execAts (w : MWord) (s : State) : Out :=
  let wide := w.w = 3
  let n := widthRegs w.w
  let code := bitsOf w.off.toNat 10 4
  let reads := if code = 11 then [{ r := w.d.toNat, n := n }] else ([] : List Span)
  issueLanes { w.form ([w.srcBase, w.srcB n] ++ reads) [w.dst n] with long := true }
    (withLane fun t h s1 =>
      let ea := h.pair w.a.toNat + (w.off.setWidth 10).signExtend 64
      let len := widthBytes w.w
      if !(s1.mayStart t.id h.tid w.ord.toNat && s1.loadsRead t.id h.tid && s1.storesSent t.id h.tid) || s1.seenOpen t.id h.tid then
        .hold else
      match t.spadStop ea len len 4 with
      | some x => .stop x s1
      | none =>
        let old := t.spadLe ea.toNat len
        let xb := h.regsNat w.b.toNat n
        let o := atsOp code wide
        let r := if code = 11 then rmwNew 8 o.2 old (h.regsNat w.d.toNat n) xb else rmwNew o.1 o.2 old xb 0
        let s2 := if r.2.2 then s1.updTeam t.id fun x => x.spadPut ea.toNat (toBytes len r.1) else s1
        .ok (s2.updThread t.id h.tid fun x => (x.setRegs w.d.toNat old n).addFlags r.2.1)) s

/-! ## Subscribed and tagged loads, prefetch (R192-R194) -/

/-- LDSUB (R192). -/
def execLdsub (w : MWord) (s : State) : Out :=
  let f := bitsOf w.b.toNat 0 2
  let len := if f ≤ 1 then 8 else 16
  issueLanes { w.form [w.srcBase] [w.dst 1] with long := true }
    (withLane fun t h s1 => loadLane t h s1 (w.eaPlain h) len { align := len } w.ord.toNat w.sc.toNat s.nextId (.sub f) w.d.toNat
      fun p => if attrSub p.attr && !p.nc && spaceOf s1.ctl p.pa = .device then .sub f (bitOf w.b.toNat 2) else .load) s

/-- LDV (R193): d and the tag's register are both empty until the answer. -/
def execLdv (w : MWord) (s : State) : Out :=
  let n := widthRegs w.w
  let tagDst := if w.b = 0 then [] else [{ r := w.b.toNat, n := 1 }]
  issueLanes { w.form [w.srcBase] (w.dst n :: tagDst) with long := true }
    (withLane fun t h s1 => loadLane t h s1 (w.eaPlain h) (widthBytes w.w)
      { align := widthBytes w.w, ncStop := true, noHost := true } w.ord.toNat w.sc.toNat s.nextId (.ldv n)
      (w.d.toNat + 128 * w.b.toNat) fun _ => .ldv) s

/-- PREF (R194): dropped where it cannot be served, else a request that places the line. -/
def execPref (w : MWord) (s : State) : Out :=
  issueLanes { w.form [w.srcBase] [] with tok := tokenOf w.tk }
    (withLane fun t h s1 =>
      let ea := w.eaPlain h
      match checkAccess s1 (t.coreOf h.tid) t.asid h.priv ea 1 .read with
      | (.error _, s2) => .ok (s2.tokenDone t.id h.tid (tokenOf w.tk))
      | (.ok x, s2) =>
        if attrTi x.attr || nonCoherent s2 (t.coreOf h.tid) t.asid ea x.pa || isLost s2 x.pa then
          .ok (s2.tokenDone t.id h.tid (tokenOf w.tk))
        else if s2.tableFull (t.coreOf h.tid) then .hold
        else .ok (s2.postAccess
          { id := 0, team := t.id, tid := h.tid, core := t.coreOf h.tid, kind := .plain, dst := 0, tok := tokenOf w.tk, bytes := 1,
            flags := 0 }
          { team := t.id, tid := h.tid, core := t.coreOf h.tid, asid := t.asid, batch := s.nextId, kind := .load, sc := w.sc.toNat }
          [{ va := ea, pa := x.pa, key := memKey s2.ctl x.pa, len := 1, pos := 0, attr := x.attr, nc := false }])) s

/-! ## Fences (R195, R196) -/

/-- Stores of a lane whose destination lies outside this device are acknowledged. -/
def State.outsideDone (s : State) (team tid : Nat) : Bool :=
  (s.reqsOf team tid).all fun r => r.reads || r.stage = .done || spaceOf s.ctl r.pa = .device

/-- FENCE (R195): the lane's accesses on the two sides are kept in order by letting the earlier ones of its kind finish first; a `.ss`
or `.all` at sc 6 or 7 waits for the acknowledgements from outside. -/
def execFence (w : MWord) (s : State) : Out :=
  issueLanes (w.form [] [])
    (withLane fun t h s1 =>
      let ok := match w.w.toNat with
        | 0 => s1.loadsRead t.id h.tid && !s1.seenOpen t.id h.tid
        | 1 => ((s1.reqsOf t.id h.tid).all fun r => r.reads || r.stage = .done)
        | _ => s1.quiet t.id h.tid
      let far := w.w = 0 || w.sc.toNat < 6 || s1.outsideDone t.id h.tid
      if ok && far then .ok s1 else .hold) s

/-- Acknowledged at the ordering point of a scope: at the group store queue for group and team, else at the home (R19). -/
def ackedAt (sc : Nat) (r : Req) : Bool :=
  if sc = 1 ∨ sc = 2 then (match r.kind with
    | .store => r.stage ≠ .queued
    | _ => r.stage = .done) else r.stage = .done

/-- WACK (R196): every earlier store, reduction and scatter of the lane is acknowledged, flags included; a store to an I/O page is
performed as at system scope (R209). -/
def execWack (w : MWord) (s : State) : Out :=
  issueLanes (w.form [] [])
    (withLane fun t h s1 =>
      let mine := s1.flight.ops.filter fun o => o.team = t.id && o.tid = h.tid && o.kind.acked
      let open_ := mine.any fun o =>
        !(w.sc.toNat ≤ 2 && o.kind = .store) || (s1.flight.reqs.any fun r => r.op = o.id && !ackedAt (if r.cm = 2 then 7 else w.sc.toNat) r)
      if open_ then .hold else .ok s1) s

/-! ## Cache control (R197) -/

/-- Cores, and the units from 2,048 on whose number is that of a cluster's Prompter, in the extent of a scope: the core or pair, the
cluster, the die, the device. -/
def inExtent (t : Team) (core sc c : Nat) : Bool :=
  if 2048 ≤ c then 5 ≤ sc || (sc = 4 && clusterDie (c - 2048) = coreDie core) || (sc = 3 && c - 2048 = coreCluster core)
  else if sc ≤ 2 then c = core || (t.launch.pair && c / 2 = core / 2)
  else if sc = 3 then coreCluster c = coreCluster core
  else if sc = 4 then coreDie c = coreDie core
  else true

/-- CCTL (R197). It waits for the lane's earlier accesses and completes at once, so its token is clear again. -/
def execCctl (w : MWord) (s : State) : Out :=
  issueLanes { w.form (if w.w = 1 then [] else [w.srcBase]) [] with tok := tokenOf w.tk }
    (withLane fun t h s1 =>
      let core := t.coreOf h.tid
      let sc := w.sc.toNat
      let done (x : State) : Res := .ok (x.tokenDone t.id h.tid (tokenOf w.tk))
      let l1 (who : Sharer) : Bool := match who with
        | .l1 c => inExtent t core 1 c
        | .rdc d => sc ≥ 4 && d = coreDie core
        | _ => false
      if !s1.quiet t.id h.tid then .hold else
      if w.w = 1 then
        done { s1 with coh := { s1.coh with copies := s1.coh.copies.filter fun (k : Copy) =>
          !(l1 k.who && (k.st = CopyState.loose || s1.coh.managed.contains (k.line / 65536 * 65536))) } }
      else
        let ea := w.eaPlain h
        match checkAccess s1 core t.asid h.priv ea 1 .read with
        | (.error x, s2) => if x.code = trapPageFault then done s2 else .stop x s2
        | (.ok x, s2) =>
          let line := lineOf (memKey s2.ctl x.pa)
          match w.w.toNat with
          | 0 => if nonCoherent s2 core t.asid ea x.pa then
              done { s2 with coh := { s2.coh with copies := s2.coh.copies.filter fun (k : Copy) =>
                !(l1 k.who && k.line = line && (k.st = CopyState.loose || s2.coh.managed.contains (line / 65536 * 65536))) } }
            else done s2
          | 2 =>
            match s2.coh.copy? .hostPort line with
            | some k =>
              if k.modified && nonCoherent s2 core t.asid ea x.pa then
                done { s2 with mem := putBytes s2.mem line k.data, coh := s2.coh.setCopy { k with st := .e } }
              else done s2
            | none => done s2
          | _ =>
            let (lo, n) := match tlbHit s2.units.tlb (unitsOf core) t.asid.toNat (bitsOf ea.toNat 0 57) with
              | some e => (memKey s2.ctl e.pa, e.len)
              | none => (line, 128)
            done { s2 with units := { s2.units with icache := s2.units.icache.filter fun e =>
              !(inExtent t core (max sc 1) e.1 && lo ≤ e.2.1 && e.2.1 < lo + n) } }) s

/-! ## Sparse volumes (R199-R201, R214-R217) -/

/-- Fields of a volume descriptor (R214). -/
structure Volume where
  root : W64
  dimX : Nat
  dimY : Nat
  dimZ : Nat
  size : Nat
  background : Nat
  deriving DecidableEq, Repr

/-- A descriptor's fields, or none when it breaks a rule of R214. -/
def volumeOf (b : List Byte) : Option Volume :=
  let fld (i n : Nat) : Nat := ofBytes ((b.drop i).take n)
  let dim (i : Nat) : Bool := 1 ≤ fld i 4 && fld i 4 ≤ 4096
  if fld 0 8 ≠ 0 && fld 0 8 % 4096 = 0 && dim 8 && dim 12 && dim 16 && fld 20 1 ≤ 3 && fld 21 3 = 0 && fld 32 32 = 0
      && fld 76 52 = 0 then
    some { root := BitVec.ofNat 64 (fld 0 8), dimX := fld 8 4, dimY := fld 12 4, dimZ := fld 16 4, size := 2 ^ fld 20 1,
           background := fld 24 8 }
  else none

/-- A result with three ends. -/
inductive Found (α : Type) where
  | got (a : α) (s : State)
  | stop (x : Stop) (s : State)
  | park (s : State)

/-- The checked read of a descriptor: alignment, translation and window, then its bytes as they are in use (R199). -/
def volumeRead (t : Team) (h : Thread) (s : State) (desc : W64) : Found (List Byte) :=
  match t.reachNow s h desc 128 { align := 128, ncStop := true } with
  | (.error x, s1) => .stop x s1
  | (.ok none, s1) => .park s1
  | (.ok (some ps), s1) =>
    let core := t.coreOf h.tid
    match s1.units.volumes.find? fun v => v.1 = core && v.2.1 = t.asid.toNat && v.2.2.1 = desc with
    | some v => .got v.2.2.2 s1
    | none =>
      let r := s1.readParts core ps
      .got r.2 { r.1 with units := { r.1.units with volumes := (core, t.asid.toNat, desc, r.2) :: r.1.units.volumes } }

/-- The index in a node at level `k` (R215). -/
def nodeIndex (k tx ty tz : Nat) : Nat :=
  let s := 3 * (3 - k)
  tx / 2 ^ s % 8 + 8 * (ty / 2 ^ s % 8) + 64 * (tz / 2 ^ s % 8)

/-- What a walk of the tile tree comes to: the tile, or the level of the first absent pointer and where it stands (R215). -/
inductive Tree where
  | tile (va : W64)
  | absent (level : Nat) (ptr : W64)

/-- The walk from a node at level `k`, `n` levels left. -/
def treeFrom (t : Team) (h : Thread) (s : State) (node : W64) (tx ty tz k : Nat) : Nat → Found Tree
  | 0 => .got (.tile node) s
  | n + 1 =>
    let ptr := node + BitVec.ofNat 64 (8 * nodeIndex k tx ty tz)
    match t.reachNow s h ptr 8 { align := 8, ncStop := true } with
    | (.error x, s1) => .stop x s1
    | (.ok none, s1) => .park s1
    | (.ok (some ps), s1) =>
      let r := s1.readNat (t.coreOf h.tid) ps
      if r.2 / 4096 = 0 then .got (.absent (k + 1) ptr) r.1
      else treeFrom t h r.1 (BitVec.ofNat 64 (r.2 / 4096 * 4096)) tx ty tz (k + 1) n

/-- The number of a tile within its volume. -/
def tileKey (tx ty tz : Nat) : Nat := tx + 512 * ty + 262144 * tz

/-- The tile of an element: a CLB hit, or a walk whose tile the CLB then holds (R199), unless it is disabled (R427). -/
def tileOf (t : Team) (h : Thread) (s : State) (desc root : W64) (tx ty tz : Nat) : Found Tree :=
  let core := t.coreOf h.tid
  match s.units.clb.find? fun e => e.core = core && e.asid = t.asid.toNat && e.desc = desc && e.tile = tileKey tx ty tz with
  | some e => .got (.tile e.addr) s
  | none =>
    match treeFrom t h s root tx ty tz 1 3 with
    | .got (.tile a) s1 =>
      .got (.tile a) (if s1.coh.off 5 core then s1 else { s1 with units := { s1.units with clb :=
        { core := core, asid := t.asid.toNat, desc := desc, tile := tileKey tx ty tz, addr := a } :: s1.units.clb } })
    | r => r

/-- An element located: its volume, and its tile. -/
structure Cell where
  vol : Volume
  tx : Nat
  ty : Nat
  tz : Nat
  /-- Byte offset in the tile. -/
  off : Nat
  tree : Tree

/-- What a lane does whose access may not go: it waits at its instruction while a store of its core is under way, and else parks on a page
in transit (R88, R185). -/
def State.waitOrPark (s : State) (t : Team) (h : Thread) : Res := if s.coreBusy (t.coreOf h.tid) then .hold else .leave .transit s

/-- The element that a LDVOL or STVOL names, through all its checks up to the tile (R199). -/
def locate (w : MWord) (t : Team) (h : Thread) (s : State) : Found Cell :=
  let desc := h.pair w.a.toNat
  match volumeRead t h s desc with
  | .stop x s1 => .stop x s1
  | .park s1 => .park s1
  | .got b s1 =>
    match volumeOf b with
    | none => .stop { code := trapIllegalOperand, va := desc } s1
    | some v =>
      let x := (h.reg w.b.toNat).toNat
      let y := (h.reg (w.b.toNat + 1)).toNat
      let z := (h.reg (w.b.toNat + 2)).toNat
      if v.size ≠ widthBytes w.w then .stop { code := trapIllegalOperand, va := desc } s1
      else if v.dimX ≤ x ∨ v.dimY ≤ y ∨ v.dimZ ≤ z then .stop { code := trapAccess, va := desc } s1
      else
        match tileOf t h s1 desc v.root (x / 8) (y / 8) (z / 8) with
        | .stop e s2 => .stop e s2
        | .park s2 => .park s2
        | .got tr s2 => .got { vol := v, tx := x / 8, ty := y / 8, tz := z / 8,
                               off := (x % 8 + 8 * (y % 8) + 64 * (z % 8)) * v.size, tree := tr } s2

/-- Spans of the coordinates x(b) to x(b+2). -/
def mCoords (w : MWord) : List Span :=
  (List.range 3).map fun i => { r := w.b.toNat + i, n := 1, fe := w.feB }

/-- LDVOL (R199). -/
def execLdvol (w : MWord) (s : State) : Out :=
  let n := widthRegs w.w
  issueLanes { w.form (w.srcBase :: mCoords w) [w.dst n] with long := true, quad := some w.b.toNat }
    (withLane fun t h s1 =>
      if !s1.quiet t.id h.tid then .hold else
      match locate w t h s1 with
      | .stop x s2 => .stop x s2
      | .park s2 => s2.waitOrPark t h
      | .got c s2 =>
        match c.tree with
        | .absent _ _ => .ok (s2.updThread t.id h.tid fun x => x.setRegs w.d.toNat (c.vol.background % 2 ^ (8 * c.vol.size)) n)
        | .tile a => loadLane t h s2 (a + BitVec.ofNat 64 c.off) c.vol.size { align := c.vol.size, ncStop := true } w.ord.toNat
            w.sc.toNat s.nextId (.load n) w.d.toNat fun _ => .load) s

/-- The request of a lane for a tile. -/
def State.alloc? (s : State) (team tid : Nat) : Option Alloc := s.units.allocs.find? fun a => a.team = team && a.tid = tid

/-- A STVOL lane that finds no tile and has not asked for one yet. -/
def needsTile (w : MWord) (t : Team) (s : State) (tid : Nat) : Option Alloc :=
  match t.thread? tid with
  | none => none
  | some h =>
    if (s.alloc? t.id tid).isSome then none else
    match locate w t h s with
    | .got c _ =>
      match c.tree with
      | .absent _ _ => some { id := 0, team := t.id, tid := tid, desc := h.pair w.a.toNat, tx := c.tx, ty := c.ty, tz := c.tz,
                              answer := none }
      | .tile _ => none
    | _ => none

/-- Requests for tiles sent to the parents' home slices (R200). -/
def State.askTiles (s : State) (l : List Alloc) : State :=
  l.foldl (fun s a => { s.fresh with units := { s.units with allocs := s.units.allocs ++ [{ a with id := s.nextId }] } }) s

/-- A lane's request taken back. -/
def State.dropAlloc (s : State) (team tid : Nat) : State :=
  { s with units := { s.units with allocs := s.units.allocs.filter fun a => !(a.team = team && a.tid = tid) } }

/-- One lane of STVOL once its request, if it had one, is answered: it stores in its tile, or in the one it was given. Every stop of it
shows a write in the access byte (R219; log 86). -/
def stvolLane (w : MWord) (batch : Nat) (t : Team) (h : Thread) (s : State) : Res :=
  let s1 := s.dropAlloc t.id h.tid
  let given := (s.alloc? t.id h.tid).bind Alloc.answer
  match given with
  | some (.stop code level va) => .stop { code := code, va := va, access := 1, level := level } s1
  | some .park => .leave .transit s1
  | _ =>
    match locate w t h s1 with
    | .stop x s2 => .stop { x with access := 1 } s2
    | .park s2 => s2.waitOrPark t h
    | .got c s2 =>
      let put (a : W64) : Res := storeLane t h s2 (a + BitVec.ofNat 64 c.off) (h.dataBytes w.d.toNat c.vol.size)
          { use := .write, align := c.vol.size, ncStop := true } w.ord.toNat w.sc.toNat batch (tokenOf w.tk)
      match c.tree, given with
      | .tile a, _ => put a
      | .absent _ _, some (.tile a) => put a
      | .absent _ _, _ => .hold

/-- The form of STVOL. -/
def stvolForm (w : MWord) : Form :=
  { w.form ([w.srcBase] ++ mCoords w ++ [w.srcData (widthRegs w.w)]) [] with tok := tokenOf w.tk, quad := some w.b.toNat }

/-- STVOL (R199, R200): lanes without a tile first ask for one; the bundle waits for the answers. -/
def execStvol (w : MWord) (s : State) : Out :=
  match s.issuer with
  | none => .fault .noIssuer
  | some (b, t) =>
    match gate (stvolForm w) t b.tids with
    | .stops l => .next (s.stopLanes t.id l)
    | .wait => .next (s.stall b)
    | .pass =>
      let acts := t.active (stvolForm w) b.tids
      if acts.any fun x => !s.quiet t.id x then .next (s.stall b)
      else
        let asks := acts.filterMap (needsTile w t s)
        if !asks.isEmpty then .next (s.askTiles asks)
        else if s.units.allocs.any fun a => a.team = t.id && acts.contains a.tid && a.answer.isNone then .next (s.stall b)
        else .next (s.runOn (stvolForm w) t [b] (acts.map fun x => { acts := [x], all := [x] })
          fun l s1 => withLane (stvolLane w s.nextId) t.id (l.headD 0) s1)

/-- VOLINV (R201): it completes at once, so its token is clear again. One for a tile of a volume whose descriptor cannot be read, or breaks
R214, bounds the coordinates by 4,096 (log 86). -/
def execVolinv (w : MWord) (s : State) : Out :=
  let coords := if w.w = 0 then mCoords w else []
  issueLanes { w.form (w.srcBase :: coords) [] with tok := tokenOf w.tk }
    (withLane fun t h s1 =>
      let core := t.coreOf h.tid
      let desc := h.pair w.a.toNat
      let c (i : Nat) : Nat := (h.reg (w.b.toNat + i)).toNat
      let vol := match volumeRead t h s1 desc with
        | .got b s2 => (volumeOf b, s2)
        | .stop _ s2 => (none, s2)
        | .park s2 => (none, s2)
      -- a tile outside the volume, or beyond what a volume can have where its descriptor tells nothing, is in no CLB (R201, R214)
      let dims := match vol.1 with
        | some v => (v.dimX, v.dimY, v.dimZ)
        | none => (4096, 4096, 4096)
      let inside := c 0 < dims.1 && c 1 < dims.2.1 && c 2 < dims.2.2
      let hit (e : Clb) : Bool := e.asid = t.asid.toNat && e.desc = desc
        && (w.w = 1 || (inside && e.tile = tileKey (c 0 / 8) (c 1 / 8) (c 2 / 8)))
      let reach (x : Nat) : Bool := if w.sc.toNat ≤ 2 then x = core else inExtent t core w.sc.toNat x
      if !s1.quiet t.id h.tid then .hold else
      let s2 := if w.w = 1 then s1 else vol.2
      let u := s2.units
      .ok ({ s2 with units := { u with
              clb := u.clb.filter fun e => !(reach e.core && hit e)
              volumes := u.volumes.filter fun v => !(w.w = 1 && reach v.1 && v.2.1 = t.asid.toNat && v.2.2.1 = desc) } }.tokenDone
            t.id h.tid (tokenOf w.tk))) s

end Sys2Proof.Machine
end

