-- ==== Sys2Proof/Machine/MemEvents.lean ====
section
/-! DEFINITION. What happens to accesses on their way: leaving the store queue (05 R88), service at the home and its probes
(18 R343-R348), delivery and acknowledgement (06 R114, 03 R34), owners and the host (R343, R349), volume allocation (09 R200). -/

namespace Sys2Proof.Machine

open Sys2Proof

/-! ## Requests -/

def State.updOp (s : State) (id : Nat) (f : Op → Op) : State :=
  { s with flight := { s.flight with ops := updWhere s.flight.ops (fun o => o.id = id) f } }

/-- An operation and its requests leave the tables. -/
def State.dropOp (s : State) (id : Nat) : State :=
  let reqs := s.flight.reqs.filter fun r => r.op ≠ id
  { s with flight := { s.flight with ops := s.flight.ops.filter fun o => o.id ≠ id, reqs := reqs,
                                     seen := s.flight.seen.filter fun x => reqs.any fun r => r.id = x.store } }

/-- An earlier request of the same thread. -/
def earlier (a b : Req) : Bool := a.team = b.team && a.tid = b.tid && a.id < b.id

/-- What an earlier access of its thread keeps a load from: a load that has not read, a read-modify-write with a result, or any but a
store on the load's own line, that is not complete (R85, R88). -/
def State.before (s : State) (q r : Req) : Bool :=
  if q.reads then q.unapplied
  else if s.returns q then q.stage ≠ .done
  else q.kind ≠ .store && q.kind ≠ .sts && q.stage ≠ .done && (s.linesFor q).contains (s.lineOf' r)

/-- A store in its queue that an earlier load of the thread has read (R88; log 9). -/
def State.forwarded (s : State) (r : Req) : Bool :=
  s.flight.seen.any fun x => x.team = r.team && x.tid = r.tid && x.load < r.id && s.flight.reqs.any fun q => q.id = x.store && q.inQueue

/-- Where an element of a GATH lands in the scratchpad, and its bytes (R359). -/
def State.landing (s : State) (r : Req) : Option (Nat × Nat) :=
  match (s.op? r.op).map Op.kind with
  | some (.gath _ _ off) => some (off + r.pos, r.len)
  | _ => none

/-- A read whose value an earlier lane's element of the same instruction must precede into the scratchpad: the later lane's stays there
(R84). -/
def State.landsAfter (s : State) (q r : Req) : Bool :=
  q.batch = r.batch && q.id < r.id && q.unapplied
    && (match s.landing q, s.landing r with
        | some a, some b => a.1 < b.1 + b.2 && b.1 < a.1 + a.2
        | _, _ => false)

/-- A thread's load may read (R84, R85, R88). -/
def State.loadOrder (s : State) (r : Req) : Bool :=
  (s.flight.reqs.all fun q => (!earlier q r || !s.before q r) && !s.landsAfter q r) && !s.forwarded r

/-- A load of the thread before this write has read a store that is not complete at its home (R88, R90; log 9). -/
def State.owes (s : State) (r : Req) : Bool :=
  s.flight.seen.any fun x => x.team = r.team && x.tid = r.tid && x.load < r.id
    && s.flight.reqs.any fun q => q.id = x.store && q.stage ≠ .done

/-- The thread's own earlier stores to a line that are in its queue. -/
def State.ownQueued (s : State) (r : Req) (line : Nat) : List Req :=
  s.flight.reqs.filter fun q => q.kind = .store && q.stage = .queued && earlier q r && s.lineOf' q = line

/-- The stores that a load on a line reads before they are complete, in order (R88). -/
def State.early (s : State) (r : Req) (line : Nat) : List Req := s.coreStores r.core line ++ s.ownQueued r line

/-- Stores laid over a line's bytes. -/
def State.layOver (s : State) (line : Nat) (qs : List Req) (base : List Byte) : List Byte :=
  qs.foldl (fun l q => overlay l (s.keyOf q - line) q.data) base

/-- A line as a request's thread reads it from a copy or from the home's bytes. -/
def State.lineView (s : State) (r : Req) (line : Nat) (base : List Byte) : List Byte := s.layOver line (s.early r line) base

/-- A line as the core's L1 takes it in. -/
def State.coreView (s : State) (core line : Nat) (base : List Byte) : List Byte := s.layOver line (s.coreStores core line) base

/-- The part of a line that a request names. -/
def State.partOf (s : State) (r : Req) (line : Nat) (l : List Byte) : List Byte := (l.drop (s.keyOf r - line)).take r.len

/-- Two requests name a byte in common. -/
def State.meets (s : State) (q r : Req) : Bool := s.keyOf q < s.keyOf r + r.len && s.keyOf r < s.keyOf q + q.len

/-- The stores whose bytes a load reads before they are complete. -/
def State.sees (s : State) (r : Req) : List Nat := ((s.early r (s.lineOf' r)).filter fun q => s.meets q r).map Req.id

/-- An acquire reads no store that is not complete (R88, R90; log 9). -/
def State.acquireWaits (s : State) (r : Req) : Bool := r.ord % 2 = 1 && !(s.sees r).isEmpty

/-! ## Leaving the store queue -/

/-- An earlier access of the thread that a store must follow out of its queue: what returns a value is over, a reduction, a scatter or a
gather of the store's own line has been performed, and what its loads have read is complete (R85, R88, R90). -/
def State.storeWaits (s : State) (r : Req) : Bool :=
  (s.flight.reqs.any fun q => earlier q r && ((s.returns q && !q.settled)
      || (r.kind = .store && q.kind ≠ .store && q.kind ≠ .sts && q.unapplied && (s.linesFor q).contains (s.lineOf' r)))) || s.owes r

/-- Paths that a release at domain scope sends flush markers down (R94). -/
def State.markersOf (s : State) (r : Req) : List Nat :=
  match spaceOf s.ctl r.pa with
  | .remote dev _ => if 2 ≤ r.ord ∧ r.sc = 6 then (List.range 16).filter fun p => !s.ctl.down.contains (dev, p) else []
  | _ => []

/-- A store that leaves its queue, in the L1 copies of its core, or of both cores of a pair: the bytes are taken, and a subscribed copy
is dropped (R88, R188, R343). -/
def Coh.takeStore (c : Coh) (pair : Bool) (core line off : Nat) (d : List Byte) : Coh :=
  (if pair then [core / 2 * 2, core / 2 * 2 + 1] else [core]).foldl (fun c core =>
    match c.copy? (.l1 core) line with
    | none => c
    | some k =>
      match k.st with
      | .p _ _ => c.dropCopy (.l1 core) line
      | _ => c.setCopy { k with data := overlay k.data off d }) c

/-- The scratchpad stores of one instruction applied by the bank, lane after lane: their entries leave the forwarding table and their
tokens clear (R84, R189, R190). -/
def State.bankStores (s : State) (team : Nat) (l : List Req) : State :=
  l.foldl (fun s r =>
    let tok := (s.op? r.op).bind Op.tok
    ((s.updTeam team fun t => t.spadPut r.pa r.data).tokenDone team r.tid tok).dropOp r.op) s

/-- The oldest store of a group leaves its queue with the stores of the other lanes of its instruction, in the order of the lanes, once
each of them is the oldest of its own group's queue (R84, R88). -/
def State.drainGroup (s : State) (team group : Nat) : State :=
  match s.team? team with
  | none => s
  | some t =>
    let queue := s.flight.reqs.filter fun r => r.team = team && r.inQueue
    match queue.find? fun r => t.groupOf r.tid = group with
    | none => s
    | some r0 =>
      let out := queue.filter fun r => r.batch = r0.batch
      let oldest (r : Req) : Bool := ((queue.find? fun q => t.groupOf q.tid = t.groupOf r.tid).map Req.batch) = some r0.batch
      if !out.all oldest || out.any s.storeWaits then s
      else if r0.kind = .sts then s.bankStores team out
      else
        let sent := out.map fun r => { r with stage := Stage.sent, paths := s.markersOf r }
        let coh := sent.foldl (fun c r => c.takeStore t.launch.pair r.core (s.lineOf' r) (s.keyOf r - s.lineOf' r) r.data) s.coh
        { s with
          coh := coh
          flight := { s.flight with reqs := (s.flight.reqs.filter fun r => !out.contains r) ++ sent } }

/-! ## Reads -/

/-- The request is an element of a GATH, or a prefetch. -/
def State.isGath (s : State) (r : Req) : Bool := (s.landing r).isSome
def State.isPrefetch (s : State) (r : Req) : Bool := (s.op? r.op).map Op.kind = some .plain

/-- A subscribed copy of this format may answer a subscribed load: the copy lacks the bytes of stores that its thread sees early, and one
that is kept updated answers only between writes, so that a CAS4's lines change together (R83, R345, R361). -/
def State.subAnswers (s : State) (r : Req) (line f : Nat) (k : Copy) : Bool :=
  match k.st with
  | .p g upd => f = g && (s.early r line).isEmpty && !(upd && s.busy line)
  | _ => false

/-- The L1 of the request's core can answer it (R188, R343, R346, R351); an element of a GATH goes past it (R359). -/
def State.l1Hit (s : State) (r : Req) : Bool :=
  r.sc ≤ 2 && r.cm = 0 && !s.isGath r &&
    (match s.coh.copy? (.l1 r.core) (s.lineOf' r), r.kind with
     | some k, .load => if r.nc then k.st = CopyState.loose else k.st = .s
     | some k, .sub f _ => k.st = .s || s.subAnswers r (s.lineOf' r) f k
     | _, _ => false)

/-- The rounded elements of a subscribed load out of a line's rounded elements. -/
def subPart (f off len : Nat) (l : List Byte) : List Byte := (l.drop (off / 4 * subBytes f)).take (len / 4 * subBytes f)

/-- A request answered with these bytes; what it read early is noted (log 9). -/
def State.answerReq (s : State) (r : Req) (d : List Byte) (tag : Nat) : State :=
  (s.updReqs (fun q => q.id = r.id) fun q => { q with data := d, cmp := toBytes 4 tag, stage := .performed }).noteSeen r.team r.tid r.id
    (s.sees r)

/-- What a read returns of a line's bytes: as they are, or rounded (R192). -/
def State.valueOf (s : State) (r : Req) (l : List Byte) : List Byte :=
  match r.kind with
  | .sub f _ => roundLine f (s.partOf r (s.lineOf' r) l)
  | _ => s.partOf r (s.lineOf' r) l

/-- What the L1 answers. -/
def State.answerL1 (s : State) (r : Req) : State :=
  let line := s.lineOf' r
  match s.coh.copy? (.l1 r.core) line with
  | none => s
  | some k =>
    match k.st with
    | .p f _ => s.answerReq r (subPart f (s.keyOf r - line) r.len k.data) 0
    | _ => s.answerReq r (s.valueOf r (s.lineView r line k.data)) 0

/-- The state of the copy that a read leaves with its requester. -/
def copyFor (k : ReqKind) : CopyState :=
  match k with
  | .sub f upd => .p f upd
  | _ => .s

/-- The rank of what a cache holds against what a request needs (R346). -/
def needsUpgrade (st : CopyState) (k : ReqKind) : Bool :=
  match st, k with
  | .p f _, .load => subRank f < 4
  | .p f _, .sub g _ => subRank f < subRank g
  | _, _ => false

/-- A request for a format of lower rank than the copy's keeps nothing (R346). -/
def keepsNothing (st : CopyState) (k : ReqKind) : Bool :=
  match st, k with
  | .p f _, .sub g _ => subRank g < subRank f
  | _, _ => false

/-- The state of a core's copy of a line; one that it does not hold counts as untracked. -/
def State.l1State (s : State) (core line : Nat) : CopyState := ((s.coh.copy? (.l1 core) line).map Copy.st).getD CopyState.loose

/-- The RDC of the requester's die answers it: for a line homed on another die, at a scope within the device, from a whole line or from
a subscribed copy of the format asked for (R14, R188, R346, R348). A format of lower rank than the L1's copy is served by the home. -/
def State.rdcHit (s : State) (r : Req) (line : Nat) : Option Copy :=
  if coreDie r.core = homeDie line || 6 ≤ r.sc || keepsNothing (s.l1State r.core line) r.kind then none else
  match s.coh.copy? (.rdc (coreDie r.core)) line, r.kind with
  | some k, .sub f _ => if k.st = .s || s.subAnswers r line f k then some k else none
  | some k, _ => if k.st = .s then some k else none
  | none, _ => none

/-- A subscribed load leaves the L1's copy as it is: a whole line, or one of the same format, whose update bit stays as subscribed
(R343, R346). -/
def keepsCopy (has st : CopyState) : Bool :=
  match has, st with
  | .s, .p _ _ => true
  | .p g _, .p f _ => f = g
  | _, _ => false

/-- The L1 takes in the line that a read has brought: within its scope, or where the read is subscribed or upgrades a subscribed copy; a
subscribed copy is not taken in beside the core's own stores that are not complete (R188, R343, R345, R346). -/
def State.fillL1 (s : State) (r : Req) (line : Nat) (base : List Byte) : State :=
  let st := copyFor r.kind
  let has := s.l1State r.core line
  let sub (c : CopyState) : Bool := match c with
    | .p _ _ => true
    | _ => false
  let fills := r.sc ≤ 2 || (r.sc ≤ 5 && (sub st || sub has))
  let blocked := keepsCopy has st || (sub st && !(s.coreStores r.core line).isEmpty)
  if fills && !keepsNothing has r.kind && !blocked then s.takeCopy (.l1 r.core) line st (s.coreView r.core line base) else s

/-- What a subscribed copy of an RDC gives its die's L1: the sub-line itself, unless the L1's copy stays as it is. -/
def State.fillSub (s : State) (r : Req) (line : Nat) (k : Copy) : State :=
  if keepsCopy (s.l1State r.core line) (copyFor r.kind) then s else
  ({ s with coh := s.coh.keepCopy { k with who := .l1 r.core, st := copyFor r.kind } } : State).addSharer line (.rdc (coreDie r.core)) (copyFor r.kind)

/-- A coherent read of a device line from the RDC of the requester's die, which holds it. -/
def State.serveRdc (s : State) (r : Req) (line : Nat) (k : Copy) : State :=
  match k.st with
  | .p f _ => (s.fillSub r line k).answerReq r (subPart f (s.keyOf r - line) r.len k.data) 0
  | _ => ((s.addSharer line (.rdc (coreDie r.core)) (copyFor r.kind)).fillL1 r line k.data).answerReq r (s.valueOf r (s.lineView r line k.data)) 0

/-- A coherent read of a device line served by its home: the RDC of another die and the L1 take their copies (R188, R343, R348). -/
def State.serveCoherent (s : State) (r : Req) (line : Nat) : State :=
  let die := coreDie r.core
  let base := s.peekBytes line 128
  let s1 := s.hold line
  let has := ((s1.coh.copy? (.rdc die) line).map Copy.st).getD CopyState.loose
  let remote := die ≠ homeDie line && r.sc ≤ 5 && !keepsNothing has r.kind && !keepsNothing (s1.l1State r.core line) r.kind
  let s2 := if remote then s1.takeCopy (.rdc die) line (copyFor r.kind) base else s1
  (s2.fillL1 r line base).answerReq r (s.valueOf r (s.lineView r line base)) (s.tag line)

/-- A non-coherent read of device or host memory: from the RDC's untracked copy, or from beyond it, leaving untracked copies; a read past
the L1, or past the RDC too, drops the older ones there, since a thread's own accesses keep their order (R198, R351). -/
def State.serveLoose (s : State) (r : Req) (line : Nat) : State :=
  let die := coreDie r.core
  let remote := (isHostLine line || die ≠ homeDie line) && r.sc ≤ 5
  let kept := match s.coh.copy? (.rdc die) line with
    | some k => if remote && k.st = CopyState.loose then some k.data else none
    | none => none
  let beside := s.readBeside line
  let base := kept.getD beside.2
  let s1 := if kept.isSome then s else beside.1
  let s2 := if remote && kept.isNone && (s.coh.copy? (.rdc die) line).isNone then
    { s1 with coh := s1.coh.keepCopy { who := .rdc die, line := line, st := CopyState.loose, data := base } } else s1
  let s3 :=
    if r.sc ≤ 2 then
      { s2 with coh := s2.coh.keepCopy { who := .l1 r.core, line := line, st := CopyState.loose, data := s2.coreView r.core line base } }
    else if remote then { s2 with coh := s2.coh.dropCopy (.l1 r.core) line }
    else { s2 with coh := s2.coh.dropLoose r.core line }
  s3.answerReq r (s.valueOf r (s.lineView r line base)) (s.tag line)

/-- Element position of a GATH request in its list, its size and where the array lies. -/
def State.landElement (s : State) (r : Req) : State :=
  match s.op? r.op, s.req? r.id with
  | some _, some q =>
    match s.landing q with
    | some at_ => s.updTeam r.team fun t => t.spadPut at_.1 q.data
    | none => s
  | _, _ => s

/-- A read that its home alone serves (R193, R209, R359). -/
def State.homeOnly (s : State) (r : Req) : Bool := r.cm ≠ 0 || r.kind = .ldv || s.isGath r

/-- A read past the L1s at the home's own value follows the core's stores to the line home (R85, R88, R193). -/
def State.homeWaits (s : State) (r : Req) (line : Nat) : Bool := (r.kind = .ldv || s.isGath r) && !(s.early r line).isEmpty

/-- A read of a line that has no home slice here: of a remote device's memory at that device, of host memory from the RDC of the die or
from the device's host-port agent. A coherent read leaves host memory in S with the agent, the RDC and the L1 (R188, R349). -/
def State.serveFar (s : State) (r : Req) (line : Nat) : State :=
  let rdc := Sharer.rdc (coreDie r.core)
  let keeps := isHostLine line && r.kind = .load && !r.nc && !s.homeOnly r && r.sc ≤ 5
  let base := match s.coh.copy? rdc line with
    | some k => if keeps then k.data else s.hostData line
    | none => s.hostData line
  let take (s : State) (who : Sharer) : State := if (s.coh.copy? who line).isSome then s else s.takeCopy who line .s base
  let s1 := if keeps then (take (take s .hostPort) rdc).fillL1 r line base else s
  (s1.answerReq r (s1.valueOf r (s1.lineView r line base)) (s1.tag line)).landElement r

/-- A read request served beyond its L1; none while it cannot be. A prefetch of a line that has become LOST is dropped (R194). -/
def State.serveRead (s : State) (r : Req) : Option State :=
  let line := s.lineOf' r
  if !r.reads || r.stage ≠ .queued || !s.loadOrder r || s.acquireWaits r || s.homeWaits r line then none
  else if s.coh.lost.contains line then (if s.isPrefetch r then some (s.answerReq r [] 0) else none)
  else if r.nc && (isDeviceLine line || isHostLine line) then
    (if s.busy line then none
     else if s.homeOnly r then
       let b := s.readBeside line
       let s1 : State := { b.1 with coh := b.1.coh.dropLoose r.core line }
       some ((s1.answerReq r (s.valueOf r (s.lineView r line b.2)) (s.tag line)).landElement r)
     else some (s.serveLoose r line))
  else if !isDeviceLine line then some (s.serveFar r line)
  else
    match (if s.homeOnly r then none else s.rdcHit r line) with
    | some k => some (s.serveRdc r line k)
    | none =>
      if s.busy line then none else
      match s.ownerForRead line (r.kind ≠ .load) with
      | none => none
      | some s1 =>
        if s1.homeOnly r then
          some (((s1.hold line).answerReq r (s1.valueOf r (s1.lineView r line (s1.peekBytes line 128))) (s1.tag line)).landElement r)
        else some (s1.serveCoherent r line)

/-- The core holds the line under a subscription that the request outranks (R346). -/
def State.upgrades (s : State) (r : Req) : Bool :=
  ((s.coh.copy? (.l1 r.core) (s.lineOf' r)).map fun k => needsUpgrade k.st r.kind).getD false

/-- HOME_READ (R343): a read or LDSUB request is served at the home. -/
def execHomeRead (req : Nat) (s : State) : Out :=
  match s.req? req with
  | none => .next s
  | some r => if s.l1Hit r || s.upgrades r then .next s else .next ((s.serveRead r).getD s)

/-- PRECISION_UPGRADE (R346): the home supplies the data at the new precision, and the copy becomes S or P(g). -/
def execPrecisionUpgrade (req : Nat) (s : State) : Out :=
  match s.req? req with
  | none => .next s
  | some r => if s.upgrades r then .next ((s.serveRead r).getD s) else .next s

/-! ## Writes at the home -/

/-- One write applied to a line for a request, with its probes sent (R336, R343, R344); its acknowledgement carries the new tag. -/
def State.homeApply (s : State) (line req : Nat) (ps : Pieces) (writer : Option Sharer) (nc : Bool) (mark : Req → Bool) : State :=
  let s1 := s.openWrite line (some req) ps writer nc
  let next := if s1.busy line then Stage.performed else Stage.done
  s1.updReqs mark fun q => { q with cmp := toBytes 4 (s1.tag line), stage := next }

/-- What a non-coherent write leaves of untracked copies that its own thread could read: its core's L1 takes the bytes, the RDC's copy of
its die is dropped (R198, R351). -/
def Coh.looseWrite (c : Coh) (core line : Nat) (ps : Pieces) : Coh :=
  let c1 := match c.copy? (.rdc (coreDie core)) line with
    | some k => if k.st = CopyState.loose then c.dropCopy (.rdc (coreDie core)) line else c
    | none => c
  match c1.copy? (.l1 core) line with
  | some k => if k.st = CopyState.loose then c1.setCopy { k with data := applyPieces k.data ps } else c1
  | none => c1

/-- After a write, the untracked copies of a non-coherent request's own thread. -/
def State.ownCopies (s : State) (r : Req) (line : Nat) (ps : Pieces) : State :=
  if r.nc then { s with coh := s.coh.looseWrite r.core line ps } else s

/-- A store to host memory inside a window stays dirty in the device's host-port agent (R198, R349). -/
def State.hostDirty (s : State) (line : Nat) (ps : Pieces) : State :=
  let base := match s.coh.copy? .hostPort line with
    | some k => k.data
    | none => getBytes s.mem line 128
  { s with coh := s.coh.setCopy { who := .hostPort, line := line, st := .m, data := applyPieces base ps } }

/-- A write of a core at the home of its line, wherever that is: one to host memory takes the device's copies away; in a window its
thread's own untracked copies follow. -/
def State.coreWrite (s : State) (r : Req) (line : Nat) (ps : Pieces) (writer : Option Sharer) (mark : Req → Bool) : State :=
  match spaceOf s.ctl r.pa with
  | .host => ((s.hostSnoop line).homeApply line r.id ps none true mark).ownCopies r line ps
  | _ => (s.homeApply line r.id ps writer (r.nc || !isDeviceLine line) mark).ownCopies r line ps

/-- A store applied: all the bytes of its instruction that lie in the line, as one write (R336). -/
def State.storeAtHome (s : State) (r : Req) : State :=
  let line := s.lineOf' r
  let same (q : Req) : Bool := q.kind = .store && q.batch = r.batch && s.lineOf' q = line
  let all := sortBy (fun a b => a.id ≤ b.id) (s.flight.reqs.filter same)
  let before := s.flight.reqs.takeWhile fun q => q.id ≠ r.id
  let waits := (all.any fun q => q.stage ≠ .sent || !q.paths.isEmpty)
    || (before.any fun q => q.kind = .store && q.stage = .sent && q.batch ≠ r.batch && s.lineOf' q = line
        && coreCluster q.core = coreCluster r.core)
    || (all.any fun q => s.flight.reqs.any fun p => earlier p q && p.kind ≠ .store && p.kind ≠ .sts && p.unapplied && (s.linesFor p).contains line)
  if waits then s
  else
    let ps : Pieces := all.map fun q => (s.keyOf q - line, q.data)
    match spaceOf s.ctl r.pa, r.nc with
    | .host, true => ((s.hostDirty line ps).updReqs same fun q => { q with stage := .done }).ownCopies r line ps
    | _, _ => s.coreWrite r line ps (some (.l1 r.core)) same

/-- What a read-modify-write waits for: its thread's earlier accesses that return a value, its earlier stores in their queues, its earlier
accesses of the line, the core's stores to the line, and what its loads have read (R85, R88); a RED at cluster scope or wider waits for
every earlier access of its thread, which its fork edge carries (R16, R91). -/
def State.rmwWaits (s : State) (r : Req) (lines : List Nat) : Bool :=
  let red := (s.op? r.op).map Op.kind = some .red
  let onLines (q : Req) : Bool := q.kind ≠ .sts && q.unapplied && (s.linesFor q).any lines.contains
  (s.flight.reqs.any fun q =>
    (earlier q r && ((s.returns q && !q.settled) || q.inQueue || onLines q || (red && 3 ≤ r.sc && !q.settled)))
      || (q.batch = r.batch && q.id < r.id && onLines q))
    || (lines.any fun l => !(s.coreStores r.core l).isEmpty) || s.owes r

/-- A read-modify-write at its home, as one step (R87, R357). One that is a release at domain scope is first sent, with its flush
markers (R94). -/
def State.rmwAtHome (s : State) (r : Req) (op ty : Nat) : State :=
  let line := s.lineOf' r
  let me (q : Req) : Bool := q.id = r.id
  let markers := s.markersOf r
  if s.rmwWaits r [line] then s
  else if r.stage = .queued && !markers.isEmpty then s.updReqs me fun q => { q with stage := .sent, paths := markers }
  else if !r.paths.isEmpty then s
  else
    let off := s.keyOf r - line
    let s0 := match spaceOf s.ctl r.pa with
      | .host => s.hostSnoop line
      | _ => s
    let oldB := ((getBytes s0.mem line 128).drop off).take r.len
    let n := rmwNew op ty (ofBytes oldB) (ofBytes r.data) (ofBytes r.cmp)
    let s1 := s0.updOp r.op fun o => { o with flags := o.flags ||| n.2.1 }
    let s2 := s1.updReqs me fun q => { q with data := oldB }
    if n.2.2 then s2.coreWrite r line [(off, toBytes r.len n.1)] none me
    else
      let s3 := s2.updReqs me fun q => { q with stage := .done }
      if r.nc then { s3 with coh := s3.coh.dropLoose r.core line } else s3

/-- The elements of a SCAT on one line, one write in list order (R336, R360). -/
def State.scatAtHome (s : State) (r : Req) : State :=
  let line := s.lineOf' r
  let same (q : Req) : Bool := q.kind = .scat && q.op = r.op && s.lineOf' q = line
  if s.flight.reqs.any fun q => (q.batch = r.batch || earlier q r) && q.op < r.op && q.unapplied && (s.linesFor q).contains line then s
  else
    let ps : Pieces := (s.flight.reqs.filter same).map fun q => (s.keyOf q - line, q.data)
    s.coreWrite r line ps none same

/-- The writes of an admitted CAS4: every line stays busy until the probes of all of them are answered (R83, R361). -/
def State.cas4Apply (s : State) (r : Req) : List (Nat × Nat × Nat) → List Byte → State
  | [], _ => s
  | e :: es, d =>
    let line := lineOf e.1
    let s1 := s.openWrite line (some r.id) [(e.1 - line, d.take e.2.2)] none (!isDeviceLine line)
    let s2 := if s1.busy line then s1 else
      { s1 with coh := { s1.coh with txns := s1.coh.txns ++
        [{ line := line, req := some r.id, probes := [], data := getBytes s1.mem line 128, elems := [] }] } }
    s2.cas4Apply r es (d.drop e.2.2)

/-- CAS4 at the common slice (R361): entries are key, tag and length; a release at domain scope goes with its flush markers (R94), and the
acknowledgement carries the lines' new tags (R336). -/
def State.cas4AtHome (s : State) (r : Req) (entries : List (Nat × Nat × Nat)) : State :=
  let lines := entries.map fun e => lineOf e.1
  let markers := s.markersOf r
  if s.rmwWaits r lines || lines.any fun l => s.blocked l || s.coh.lost.contains l || (s.coh.owner? l).isSome then s
  else if r.stage = .queued && !markers.isEmpty then s.updReqs (fun q => q.id = r.id) fun q => { q with stage := .sent, paths := markers }
  else if !r.paths.isEmpty then s
  else
    let bad := (List.range entries.length).filter fun j =>
      match entries[j]? with
      | some e => s.tag (lineOf e.1) ≠ e.2.1
      | none => false
    let me (q : Req) : Bool := q.id = r.id
    if bad.isEmpty then
      let s1 := s.cas4Apply r entries r.data
      (s1.updReqs me fun q => { q with stage := .performed, data := toBytes 4 0x10, cmp := (lines.map fun l => toBytes 4 (s1.tag l)).flatten
        }).closeTxn (lines.headD 0)
    else s.updReqs me fun q => { q with stage := .done, data := toBytes 4 (bad.foldl (fun m j => m + 2 ^ j) 0) }

/-- HOME_WRITE (R344): a write request is applied at its home, its tag raised and its subscribers probed. -/
def execHomeWrite (req : Nat) (s : State) : Out :=
  match s.req? req with
  | none => .next s
  | some r =>
    let line := s.lineOf' r
    let ready := r.unapplied && !s.blocked line && !s.coh.lost.contains line && (s.coh.owner? line).isNone
    match r.kind with
    | .store => .next (if ready then s.storeAtHome r else s)
    | .rmw op ty => .next (if ready then s.rmwAtHome r op ty else s)
    | .scat => .next (if ready then s.scatAtHome r else s)
    | .cas4 es => .next (if r.unapplied then s.cas4AtHome r es else s)
    | _ => .next s

/-! ## Probes and their answers -/

/-- An agent's number in an event: cores 0 to 2,047, RDCs 2,048 + die, control processors 2,056 + n, the two ports 2,072 and
2,073, the host 2,074, the device's host-port agent 2,075, other devices 2,076 + ID. -/
def sharerOf (n : Nat) : Sharer :=
  if n < 2048 then .l1 n
  else if n < 2056 then .rdc (n - 2048)
  else if n < 2072 then .control (n - 2056)
  else if n < 2074 then .port (n - 2072)
  else if n = 2074 then .host
  else if n = 2075 then .hostPort
  else .device (n - 2076)

/-- PROBE (R339): an L1 or a write-back agent applies the probe of the write to a line. -/
def execProbe (line sharer : Nat) (s : State) : Out :=
  match sharerOf sharer with
  | .rdc _ => .next s
  | who => .next (s.answerProbe line who)

/-- RDC_PROBE (R348): an RDC applies the probe, forwards it to its L1s and answers. -/
def execRdcProbe (line die : Nat) (s : State) : Out := .next (s.answerProbe line (.rdc die))

/-- PROBE_ANSWER (R340, R345): once every probe is answered, a conflict first sends a census to the sharers that the write spared;
then the entry is settled and the write completes at home. -/
def execProbeAnswer (line : Nat) (s : State) : Out := .next (s.closeTxn line)

/-- DIRECTORY_MERGE (R341): after 65,536 quiet cycles two sibling entries merge, or one grows where its sibling is absent; `base` is
an address in the entry's region. -/
def execDirectoryMerge (base level : Nat) (s : State) : Out :=
  match s.coh.dir.find? fun e => e.level = level && e.block ≤ base && base < e.block + levelSize level && 1 ≤ level
      && e.slice = home (lineOf base) with
  | none => .next s
  | some e =>
    let size := levelSize level
    let parent := e.block / (2 * size) * (2 * size)
    let sib := if e.block = parent then parent + size else parent
    let others := s.coh.dir.filter fun x => x.slice = e.slice && overlaps x.block (levelSize x.level) sib size
    let quiet (x : DirEntry) : Bool := 65536 ≤ s.time - x.quiet && x.owner.isNone
    let busy := s.coh.txns.any fun t => home t.line = e.slice && parent ≤ t.line && t.line < parent + 2 * size
    if !quiet e || busy then .next s
    else
      match others with
      | [] => .next { s with coh := (s.coh.putEntry e { e with level := level - 1, block := parent, quiet := s.time }).count e.slice 5 1 }
      | [x] =>
        if x.level = level && quiet x then
          let both := x.sharers.foldl (fun l y =>
            let old := ((l.find? fun z => z.1 = y.1).map Prod.snd).getD 0
            (y.1, old ||| y.2) :: l.filter fun z => z.1 ≠ y.1) e.sharers
          let m : DirEntry := { e with level := level - 1, block := parent, quiet := s.time, sharers := both }
          .next { s with coh := { s.coh with dir := m :: s.coh.dir.filter fun z => z ≠ e && z ≠ x }.count e.slice 5 1 }
        else .next s
      | _ => .next s

/-! ## Owners and the host -/

/-- A line granted to a write-back agent for writing, where the access table of its home lets it (R424): other owners are recalled and
every S and P copy is invalidated (R343). -/
def State.grant (s : State) (who : Sharer) (line : Nat) : State :=
  if !isDeviceLine line || s.blocked line || s.coh.lost.contains line || !s.lets who line false || !s.lets who line true then s
  else
    let s0 := s.writeBack line [] none
    let asked := ((s0.coh.entry? line).map fun e => (e.sharers.filter fun x => x.1 ≠ who).length).getD 0
    let c0 := ({ s0.coh with copies := s0.coh.copies.filter fun (k : Copy) => !(k.line = line && k.st ≠ CopyState.loose) } : Coh).count
      (home line) 7 asked
    let c1 := match c0.entry? line with
      | none => c0
      | some e => c0.leaveEntry line ((e.sharers.filter fun (x : Sharer × BitVec 9) => c0.answer line x.1 = 0).map Prod.fst)
    let s2 := ({ s0 with coh := c1 } : State).isolate line 3
    let s3 := match s2.coh.entry? line with
      | some e => { s2 with coh := s2.coh.putEntry e { e with owner := some (who, .e) } }
      | none =>
        let s4 := s2.makeRoom (home line) none
        let block := line / 8192 * 8192
        { s4 with coh := { s4.coh with dir := { slice := home line, block := block, level := 3, sharers := [], owner := some (who, .e),
                                                quiet := s4.coh.lastWrite (home line) block 3 } :: s4.coh.dir } }
    ({ s3 with coh := s3.coh.setCopy { who := who, line := line, st := .e, data := getBytes s0.mem line 128 } } : State).hold line

/-- A write-back agent reads a line shared, where the access table of its home lets it (R424): the row of R343 for a read. -/
def State.readShared (s : State) (who : Sharer) (line : Nat) : State :=
  if !isDeviceLine line || s.busy line || s.coh.lost.contains line || (s.coh.copy? who line).isSome || !s.lets who line false then s
  else
    match s.ownerForRead line false with
    | none => s
    | some s1 => (s1.hold line).takeCopy who line .s (s1.peekBytes line 128)

/-- A control processor reads a line shared (R343); the host does so by HOST_READ_SHARED, a port through its translation unit. -/
def State.shareTurn (s : State) (who : Sharer) (line : Nat) : State :=
  match who with
  | .control _ => s.readShared who (lineOf line)
  | _ => s

/-- The agent that a port is in the directory: the two network ports are one (R337). -/
def PortQueue.agent (p : PortQueue) : Nat := if p.port = 2 then 1 else 0

/-- The translation unit of a port maps a line for writing under the ASID of one of its queues (R203, R423). -/
def State.portMaps (s : State) (n line : Nat) : Bool :=
  !touchesContext s line 128 && s.ctl.ports.any fun p => p.agent = n && s.units.tlb.any fun e =>
    e.unit = 2560 + p.port && e.asid = p.asid.toNat && e.pa ≤ line && line < e.pa + e.len && attrW e.attr && attrCm e.attr = 0

/-- Another device is there: in the domain, and not cut off (R421, R422). -/
def Ctl.reaches (c : Ctl) (dev : Nat) : Bool := dev < 9216 && dev ≠ deviceId c && !c.unreachable.contains dev

/-- Another device's access to a line of this device's memory, read or written at its home, where the home's table for class 5 lets it
(R94, R424). -/
def State.remoteTurn (s : State) (dev line : Nat) (cells : List Host.Cell) : State :=
  let ln := lineOf line
  if !isDeviceLine ln || s.blocked ln || s.coh.lost.contains ln || !s.ctl.reaches dev || !s.lets (.device dev) ln (!cells.isEmpty) then s
  else if cells.isEmpty then (s.readHome ln).1
  else s.writeLine ln ((cells.filter fun x => ln ≤ x.1 && x.1 < ln + 128).map fun x => (x.1 - ln, [x.2])) false

/-- The translation unit of a control processor (R203). -/
def controlUnit (n : Nat) : Nat := 2564 + n

/-- The supervisor software of a control processor loads an ASID (R203). -/
def State.loadAsid (s : State) (n : Nat) (asid : BitVec 16) : State :=
  if n < 16 then { s with ctl := { s.ctl with asids := keep 0 s.ctl.asids n asid } } else s

/-- A control processor reads through its own translation unit under the ASID it has loaded, and takes the line shared (R203, R343). -/
def State.controlRead (s : State) (n : Nat) (va : W64) : State :=
  if 16 ≤ n then s else
  match checkAccess s (controlUnit n) (look 0 s.ctl.asids n) true va 1 .read with
  | (.ok x, s1) => if attrTi x.attr || attrCm x.attr ≠ 0 || spaceOf s1.ctl x.pa ≠ .device then s1 else s1.readShared (.control n) (lineOf x.pa)
  | (.error _, s1) => s1

/-- READ_FOR_OWNERSHIP (R343): a control processor or a port obtains a line in E, a port one that it maps (R423); so can another device of
the domain (R422, log 52). -/
def execReadForOwnership (agent line : Nat) (s : State) : Out :=
  let ln := lineOf line
  match sharerOf agent with
  | .control n => .next (s.grant (.control n) ln)
  | .port n => .next (if s.portMaps n ln then s.grant (.port n) ln else s)
  | .device d => .next (if s.ctl.reaches d then s.grant (.device d) ln else s)
  | _ => .next s

/-- The owner of a line stores to it: E and M become M (R343). -/
def State.ownerStore (s : State) (who : Sharer) (line : Nat) (cells : List Host.Cell) : State :=
  match s.coh.owner? line, s.coh.entry? line, s.coh.copy? who line with
  | some (w, st), some e, some k =>
    if w = who && (st = .e || st = .m) then
      let mine := cells.filter fun x => line ≤ x.1 && x.1 < line + 128
      let data := mine.foldl (fun d x => overlay d (x.1 - line) [x.2]) k.data
      { s with coh := (s.coh.setCopy { k with st := .m, data := data }).putEntry e { e with owner := some (who, .m) } }
    else s
  | _, _, _ => s

/-- RECALL (R343): the owner writes back what it has modified and leaves M, O or E. -/
def execRecall (line : Nat) (cells : List (Nat × BitVec 8)) (s : State) : Out :=
  if s.blocked (lineOf line) then .next s else .next (s.writeBack (lineOf line) cells (some .s))

/-- OWNER_WRITE_BACK (R343): an owner evicts a modified line with one write; the host-port agent's goes to host memory (R349). -/
def execOwnerWriteBack (agent line : Nat) (cells : List (Nat × BitVec 8)) (s : State) : Out :=
  let ln := lineOf line
  match sharerOf agent with
  | .hostPort =>
    match s.coh.copy? .hostPort ln with
    | some k => .next { s with mem := if k.modified then putBytes s.mem ln k.data else s.mem, coh := s.coh.dropCopy .hostPort ln }
    | none => .next s
  | who => if s.blocked ln || (s.coh.owner? ln).map Prod.fst ≠ some who then .next s else .next (s.writeBack ln cells none)

/-- HOST_READ_SHARED (R349): as a read by an L1, but a device owner in M or O is recalled first; a LOST line answers with an error
and stays LOST (R353), and a read that the home's access table refuses aborts (R424). -/
def execHostReadShared (line : Nat) (s : State) : Out :=
  let ln := lineOf line
  if !isDeviceLine ln || s.busy ln || s.coh.lost.contains ln || !s.lets .host ln false then .next s
  else
    match s.ownerForRead ln true with
    | none => .next s
    | some s1 => .next (s1.takeCopy .host ln .s (s1.peekBytes ln 128))

/-- HOST_READ_EXCLUSIVE (R349): as a read for ownership. -/
def execHostReadExclusive (line : Nat) (s : State) : Out := .next (s.grant .host (lineOf line))

/-- HOST_WRITE (R349): a host write-back or direct write, one write with its probes; one that the home's access table refuses aborts
(R424). A write of the host to its own memory takes the device's copies away. -/
def execHostWrite (line : Nat) (cells : List (Nat × BitVec 8)) (s : State) : Out :=
  let ln := lineOf line
  let direct : State := s.writeLine ln ((cells.filter fun x => ln ≤ x.1 && x.1 < ln + 128).map fun x => (x.1 - ln, [x.2])) false
  if isHostLine ln then .next direct
  else if !isDeviceLine ln || s.blocked ln || s.coh.lost.contains ln then .next s
  else
    match s.coh.owner? ln with
    | some (.host, _) => .next (s.writeBack ln cells none)
    | _ => if s.lets .host ln true then .next direct else .next s

/-! ## Delivery and acknowledgement -/

/-- The requests of an operation in the order of their bytes. -/
def State.opReqs (s : State) (id : Nat) : List Req := sortBy (fun a b => a.pos ≤ b.pos) (s.flight.reqs.filter fun r => r.op = id)

/-- Requests that the L1 can answer are answered now. -/
def State.sampleL1 (s : State) (id : Nat) : State :=
  (s.opReqs id).foldl (fun s r => if r.stage = .queued && s.l1Hit r && s.loadOrder r && !s.acquireWaits r && !s.coh.lost.contains (s.lineOf' r)
    then s.answerL1 r else s) s

/-- Registers and words of a value delivered from `d` on. -/
def regWords (d n v : Nat) : List (Nat × W32) := (List.range n).map fun i => (d + i, BitVec.ofNat 32 (v / 2 ^ (32 * i)))

/-- Flags entered in a thread's FPFLAGS, wherever its state line is. -/
def State.enterFlags (s : State) (team tid : Nat) (f : W32) : State :=
  if f = 0 then s else s.updLine0 team tid fun h => h.addFlags f

/-- k registers that a KLD delivers (R177). -/
def State.deliverK (s : State) (team d n v : Nat) : State :=
  s.updTeam team fun t => { ((List.range n).foldl (fun t i => t.setK (d + i) (BitVec.ofNat 32 (v / 2 ^ (32 * i)))) t) with
    kWait := t.kWait.filter fun r => !(d ≤ r && r < d + n) }

/-- The acquires of an operation that has read join what their bytes show: the flags of the engine threads enter the FPFLAGS of its
thread, and for a KLD of every thread of its bundle (R16, R65; log 38). -/
def State.acquireJoin (s : State) (o : Op) (rs : List Req) : State :=
  (o.tid :: o.mates).foldl (fun s x => rs.foldl (fun s r =>
    if r.ord = 1 || r.ord = 3 then s.enterFlags o.team x (s.joinFlags o.team o.core r.sc (s.keyOf r) r.data false) else s) s) s

/-- An operation that returns delivers its result and ends (R114); an LDV writes its tag last (R193; log 77). -/
def State.returnOp (s : State) (o : Op) : State :=
  let rs := s.opReqs o.id
  let bytes := (rs.map Req.data).flatten
  let answered := rs.all fun r => r.stage = .performed || r.stage = .done
  let finished := rs.all fun r => r.stage = .done
  match o.kind with
  | .load n =>
    if answered then ((s.acquireJoin o rs).deliver o.team o.tid (regWords o.dst n (ofBytes bytes))).dropOp o.id else s
  | .sub f =>
    if answered then
      let raw := rs.any fun r => r.kind = .load
      let v := ofBytes (if raw then roundLine f bytes else bytes)
      (s.deliver o.team o.tid (regWords o.dst 1 v)).dropOp o.id
    else s
  | .ldv n =>
    if answered then
      let tag := ofBytes ((rs.map Req.cmp).headD [])
      let b := o.dst / 128
      let regs := regWords (o.dst % 128) n (ofBytes bytes) ++ if b = 0 then [] else [(b, BitVec.ofNat 32 tag)]
      ((s.acquireJoin o rs).deliver o.team o.tid regs).dropOp o.id
    else s
  | .atom n =>
    if finished then
      let v := ofBytes bytes
      (((s.acquireJoin o rs).enterFlags o.team o.tid o.flags).deliver o.team o.tid (regWords o.dst n v)).dropOp o.id
    else s
  | .cas4 => if finished then (s.deliver o.team o.tid (regWords o.dst 1 (ofBytes bytes))).dropOp o.id else s
  | .gath n _ _ =>
    let older := s.flight.ops.any fun p => p.team = o.team && p.tid = o.tid && p.id < o.id && (match p.kind with
      | .gath _ _ _ => true
      | _ => false)
    if answered && !older then
      (if o.dst < 128 then s.deliver o.team o.tid (regWords o.dst 1 n) else s).dropOp o.id
    else s
  | .kload n => if answered then ((s.acquireJoin o rs).deliverK o.team o.dst n (ofBytes bytes)).dropOp o.id else s
  | .plain => if answered then (s.tokenDone o.team o.tid o.tok).dropOp o.id else s
  | .pop n _ _ =>
    if answered then
      let s1 := (s.deliver o.team o.tid (regWords o.dst n (ofBytes bytes))).dropOp o.id
      if n = 1 ∧ o.dst % 2 = 0 then s1.updLine0 o.team o.tid fun h => h.markFull [o.dst + 1] else s1
    else s
  | _ => s

/-- LOAD_RETURN (R114): the data of an operation arrives and is written to its registers or to the image. -/
def execLoadReturn (op : Nat) (s : State) : Out :=
  let s1 := s.sampleL1 op
  match s1.op? op with
  | none => .next s
  | some o => .next (s1.returnOp o)

/-- STORE_ACKNOWLEDGEMENT (R34, R357): a store, reduction or scatter is acknowledged at the ordering point of its scope: its flags
are entered, then its token is decremented; once it is acknowledged at its home it ends. -/
def execStoreAcknowledgement (op : Nat) (s : State) : Out :=
  match s.op? op with
  | none => .next s
  | some o =>
    let rs := s.opReqs op
    let older := o.kind ≠ .store && s.flight.ops.any fun p => p.team = o.team && p.tid = o.tid && p.id < o.id && p.kind = o.kind
        && (o.kind = .scat || o.kind = .scata)
    let home := rs.all fun r => r.stage = .done
    let acked := rs.all fun r => ackedAt r.sc r
    if !o.kind.acked || older then .next s
    else if home then
      .next (((s.enterFlags o.team o.tid o.flags).tokenDone o.team o.tid o.tok).dropOp op)
    else if acked && o.tok.isSome then
      .next ((s.tokenDone o.team o.tid o.tok).updOp op fun x => { x with tok := none })
    else .next s

/-- LONG_LATENCY_RESULT (R33): a long-latency arithmetic result is written, its destination marked full, its flags entered. -/
def execLongLatencyResult (result : Nat) (s : State) : Out :=
  match s.flight.results.find? fun r => r.id = result with
  | none => .next s
  | some r =>
    let s1 := (s.enterFlags r.team r.tid r.flags).deliver r.team r.tid r.regs
    .next { s1 with flight := { s1.flight with results := s1.flight.results.filter fun x => x.id ≠ result } }

/-- REGISTER_LINE_FILL (R113, R114): a line that the register cache missed is filled from the image; a stopped lane's lines are not
reloaded until its sub-group resumes (R219), nor those of a team that is out (R229). -/
def execRegisterLineFill (team tid line : Nat) (s : State) : Out :=
  match s.team? team, s.thread? team tid with
  | some t, some h =>
    if t.removed then .next s else
    match h.wait with
    | .stopped _ => .next s
    | _ => .next (s.bringLine team tid line)
  | _, _ => .next s

/-- TRANSIT_RESUME (R185, R210): a lane parked on a transit page may issue its access again once no clearing shoot-down is on its way;
it checks the page anew. -/
def execTransitResume (team tid : Nat) (s : State) : Out :=
  if s.units.shoots.any Shoot.clears then .next s
  else .next (s.updThread team tid fun h => if h.wait = .transit then { h with wait := .ready } else h)

/-- FLUSH_MARKER_ARRIVAL (R94): a marker arrives once the writes sent before it to that device are applied. -/
def execFlushMarkerArrival (req path : Nat) (s : State) : Out :=
  match s.req? req with
  | none => .next s
  | some r =>
    let dev (q : Req) : Option Nat := match spaceOf s.ctl q.pa with
      | .remote d _ => some d
      | _ => none
    let before := s.flight.reqs.takeWhile fun q => q.id ≠ req
    if before.any fun q => q.stage = .sent && q.paths.isEmpty && dev q = dev r then .next s
    else .next (s.updReqs (fun q => q.id = req) fun q => { q with paths := q.paths.filter fun p => p ≠ path })

/-! ## Volume allocation (R200, R216) -/

/-- One pop of the pool for the pointer at `ptr`, which belongs to `level`: the block filled and published, or what stops it (R214,
R216); a page in transit parks the lane (R185). -/
def allocOne (t : Team) (h : Thread) (a : Alloc) (v : Volume) (level : Nat) (ptr : W64) (s : State) : Option AllocEnd × State :=
  match t.reachNow s h a.desc 128 { use := .write, align := 128, ncStop := true } with
  | (.error x, s1) => (some (.stop x.code x.level x.va), s1)
  | (.ok none, s1) => (some .park, s1)
  | (.ok (some ps), s1) =>
    -- the pool fields of the descriptor, bytes 64 to 75 (R214)
    let r := s1.readParts (t.coreOf h.tid) ps
    let count := fieldOf r.2 72 4
    let base := BitVec.ofNat 64 (fieldOf r.2 64 8)
    let key := (ps.map Part.key).headD 0
    if count = 0 then (some (.stop trapVolAlloc level a.desc), r.1)
    else if base.toNat % 8 ≠ 0 then (some (.stop trapIllegalOperand 0 a.desc), r.1)
    else
      match t.reachNow r.1 h (base + BitVec.ofNat 64 (8 * (count - 1))) 8 { align := 8 } with
      | (.error x, s3) => (some (.stop x.code x.level x.va), s3)
      | (.ok none, s3) => (some .park, s3)
      | (.ok (some qs), s3) =>
        let q := s3.readNat (t.coreOf h.tid) qs
        let block := BitVec.ofNat 64 q.2
        match t.reachNow q.1 h block 64 { use := .write, ncStop := true }, t.reachNow q.1 h ptr 8 { use := .write, ncStop := true } with
        | (.error x, s4), _ => (some (.stop x.code x.level x.va), s4)
        | _, (.error x, s4) => (some (.stop x.code x.level x.va), s4)
        | (.ok (some bs), s4), (.ok (some rs), _) =>
          let fill := if level ≤ 3 then List.replicate 4096 (0 : Byte)
            else (List.replicate 512 (toBytes v.size v.background)).flatten
          let s5 := s4.writeNow (key + 72) (toBytes 4 (count - 1)) false
          let s6 := s5.writeNow ((bs.map Part.key).headD 0) fill false
          (none, s6.writeNow ((rs.map Part.key).headD 0) (toBytes 8 block.toNat) false)
        | _, _ => (some .park, q.1)

/-- One allocation request: levels are made from the top until the tile exists; it stops where the pool or a page fails. -/
def allocFrom (t : Team) (h : Thread) (a : Alloc) (v : Volume) (s : State) : Nat → AllocEnd × State
  | 0 => (.park, s)
  | n + 1 =>
    match treeFrom t h s v.root a.tx a.ty a.tz 1 3 with
    | .stop x s1 => (.stop x.code x.level x.va, s1)
    | .park s1 => (.park, s1)
    | .got (.tile va) s1 => (.tile va, s1)
    | .got (.absent level ptr) s1 =>
      match allocOne t h a v level ptr s1 with
      | (some e, s2) => (e, s2)
      | (none, s2) => allocFrom t h a v s2 n

/-- A request for a tile answered. -/
def State.answerAlloc (s : State) (request : Nat) (e : AllocEnd) : State :=
  { s with units := { s.units with allocs := updWhere s.units.allocs (fun x => x.id = request) fun x => { x with answer := some e } } }

/-- VOL_ALLOC_REQUEST (R200, R216): the home slice of the parent allocates and publishes what is missing, or answers with the stop. It has
no answer yet while what it reads waits for a store of the asking core (R88). -/
def execVolAllocRequest (request : Nat) (s : State) : Out :=
  match s.units.allocs.find? fun a => a.id = request && a.answer.isNone with
  | none => .next s
  | some a =>
    match s.team? a.team, s.thread? a.team a.tid with
    | some t, some h =>
      let r := match volumeRead t h s a.desc with
        | .got b s1 =>
          (match volumeOf b with
           | some v => allocFrom t h a v s1 4
           | none => (.stop trapIllegalOperand 0 a.desc, s1))
        | .stop x s1 => (.stop x.code x.level x.va, s1)
        | .park s1 => (.park, s1)
      .next (if r.1 = .park && s.coreBusy (t.coreOf h.tid) then s else r.2.answerAlloc request r.1)
    | _, _ => .next s

/-! ## Caches drop entries -/

/-- Where an island's telemetry block lies (R417). -/
def telemetryOf (island : Nat) : Nat := 0x4000000 + 64 * island

/-- New readings of an island's sensors (R429; log 7): its temperature is not below `heat`, its voltage not above what is given, and the
issue fraction is given, or read too. -/
def State.sense (s : State) (island heat : Nat) (volts frac : Option Nat) : State :=
  let off := telemetryOf island
  let r := (Config.telemetry s.choices).toNat
  let v := bitsOf r 48 16
  let word := bitsOf r 0 32 + 2 ^ 32 * max heat (bitsOf r 32 16) + 2 ^ 48 * ((volts.map (min v)).getD v)
  let f := frac.getD ((Config.telemetry (s.choices + 1)).toNat % 256)
  { s with ctl := (s.ctl.setReg off (BitVec.ofNat 64 word)).setReg (off + 8) (BitVec.ofNat 64 f), choices := s.choices + 2 }

/-- The part after a warm reset (R428; log 85): as after reset, but the stage-door log stands, storage that has failed stays so, and what
lies outside the part (host memory, other devices' memory) is as it was. -/
def State.warm (s : State) : State :=
  { State.reset with
    mem := s.mem.filter fun x => 2 ^ 40 ≤ x.1
    coh := { State.reset.coh with worn := s.coh.worn }
    noise := { State.reset.noise with drawn := s.noise.drawn }
    ctl := { State.reset.ctl with log := s.ctl.log, logged := s.ctl.logged }
    time := s.time
    choices := s.choices
    agenda := s.agenda
    nextId := s.nextId }

/-- A cache entry leaves without a message (R338, R343; 10 R208; 03 R30). -/
def State.evict (s : State) (c : Cache) : State :=
  match c with
  | .tlb unit va =>
    let kept := s.units.tlb.filter fun e => !(e.unit = unit && e.va ≤ va && va < e.va + e.len)
    { s with units := { s.units with tlb := kept } }
  | .copy who line =>
    match s.coh.copy? who line with
    | some k => if k.modified then s else { s with coh := s.coh.dropCopy who line }
    | none => s
  | .clb core tile => { s with units := { s.units with clb := s.units.clb.filter fun e => !(e.core = core && e.tile = tile) } }
  | .code core pa => { s with units := { s.units with icache := s.units.icache.filter fun e => !(e.1 = core && e.2.1 = pa) } }
  | .frame line => { s with coh := s.coh.leaveFrame line }

end Sys2Proof.Machine
end

