-- ==== Sys2Proof/Machine/Engine.lean ====
section
/-! DEFINITION. What the engines of a team share: checked accesses through the cluster's translation unit (10 R203, R223), shoot-downs
(R211). -/

namespace Sys2Proof.Machine

open Sys2Proof

/-! ## Engine accesses -/

/-- The translation unit of a cluster. -/
def clusterUnit (cluster : Nat) : Nat := 2048 + cluster

/-- The same unit as a distributor uses it, which is in no team's scope. -/
def outsideUnit (cluster : Nat) : Nat := 2600 + cluster

/-- A page in a transit state that the engine itself has not marked holds the access back (R185, R210). -/
def engParks (s : State) (unit : Nat) (asid : BitVec 16) (use : Use) (own : List Nat) (p : Part) : Bool :=
  parksOn use p.attr && (match (translate s unit asid p.va).1 with
    | .ok x => !own.contains x.leaf
    | .error _ => true)

/-- Steps 10.2 to 10.7 of R184 for an engine on bytes of at most two lines; `own` are the leaf entries that it has marked. It waits, as for
a page in transit, while a store to one of the lines is under way that a thread of its team may have seen (R19, R90). -/
def engReach (s : State) (unit : Nat) (asid : BitVec 16) (va : W64) (n : Nat) (use : Use) (own : List Nat) : Found (List Part) :=
  let bits := use.accessBits
  if !canonical va then .stop { code := trapAccess, va := va, access := bits } s
  else
    match reachPieces s unit asid false use (cutLines va n) with
    | (.error x, s1) => .stop x s1
    | (.ok ps, s1) =>
      if ps.any (engParks s1 unit asid use own) || s1.unlanded unit ps then .park s1
      else if ps.any fun p => isLost s1 p.pa then .stop { code := trapLostLine, va := va, access := bits } s1
      else .got ps s1

/-- Bytes that an engine reads: from its die's RDC or at the home (R14, R294, R302). -/
def engRead (s : State) (unit : Nat) (asid : BitVec 16) (va : W64) (n : Nat) (own : List Nat) : Found (List Byte) :=
  match engReach s unit asid va n .read own with
  | .got ps s1 =>
    let r := s1.readParts unit ps
    .got r.2 r.1
  | .stop x s1 => .stop x s1
  | .park s1 => .park s1

/-- Bytes that an engine writes. -/
def engWrite (s : State) (unit : Nat) (asid : BitVec 16) (va : W64) (d : List Byte) (own : List Nat) : Found Unit :=
  match engReach s unit asid va d.length .write own with
  | .got ps s1 => .got () (ps.foldl (fun s p => s.writeNow p.key ((d.drop p.pos).take p.len) p.nc) s1)
  | .stop x s1 => .stop x s1
  | .park s1 => .park s1

/-- A longer read, in chunks of a line. -/
def engReadLong (s : State) (unit : Nat) (asid : BitVec 16) (va : W64) : Nat → Found (List Byte)
  | 0 => .got [] s
  | n + 1 =>
    match engRead s unit asid va 64 [] with
    | .got a s1 =>
      match engReadLong s1 unit asid (va + 64) n with
      | .got b s2 => .got (a ++ b) s2
      | r => r
    | .stop x s1 => .stop x s1
    | .park s1 => .park s1

/-- A longer write, in chunks of a line. -/
def engWriteLong (s : State) (unit : Nat) (asid : BitVec 16) (va : W64) (d : List Byte) : Nat → Found Unit
  | 0 => .got () s
  | n + 1 =>
    match engWrite s unit asid va (d.take 64) [] with
    | .got _ s1 => engWriteLong s1 unit asid (va + 64) (d.drop 64) n
    | r => r

/-! ## Ports (R423) -/

/-- A port's access under the ASID of one of its queues (R203, R423): as an engine's, under the port's own unit and class (R424). -/
def portReach (s : State) (p : PortQueue) (va : W64) (n : Nat) (use : Use) : Found (List Part) :=
  engReach s (2560 + p.port) p.asid va n use []

/-- A port reads the line of an address of one of its queues, its rings or a buffer that a work entry names, and holds it shared (R343,
R423). -/
def State.portRead (s : State) (port queue : Nat) (va : W64) : State :=
  match s.ctl.ports.find? fun p => p.port = port && p.queue = queue with
  | none => s
  | some p =>
    match portReach s p va 1 .read with
    | .got (x :: _) s1 => if attrCm x.attr ≠ 0 || x.nc then s1 else s1.readShared (.port p.agent) (lineOf x.key)
    | .got [] s1 => s1
    | .stop _ s1 => s1
    | .park s1 => s1

/-! ## Shoot-downs (R210, R211) -/

/-- A shoot-down as it is asked for. -/
structure Names where
  kind : Nat
  vas : List Nat
  asid : Nat
  deriving DecidableEq, Repr

/-- It names a translation. -/
def Names.hits (n : Names) (e : Tlb) : Bool :=
  match n.kind with
  | 0 => e.asid = n.asid && n.vas.any fun v => e.va ≤ v && v < e.va + e.len
  | 1 => e.asid = n.asid
  | _ => true

/-- Units in an extent around a core: the core, its cluster, its die, the device (R180). -/
def unitIn (ext core u : Nat) : Bool :=
  match ext with
  | 0 => u = core
  | 1 => (u < 2048 && coreCluster u = coreCluster core) || u = clusterUnit (coreCluster core)
  | 2 => (u < 2048 && coreDie u = coreDie core) || (2048 ≤ u && u < 2560 && clusterDie (u - 2048) = coreDie core)
      || (2564 ≤ u && (u - 2564) / 2 = coreDie core)
  | _ => true

/-- A translation that a shoot-down names covers an address under an ASID: a named page, or a run of the unit that holds one (R211). -/
def State.named (s : State) (n : Names) (u asid va : Nat) : Bool :=
  (n.kind = 2 || asid = n.asid)
    && (n.kind ≠ 0 || (n.vas.any fun v => v / 4096 = bitsOf va 0 57 / 4096)
      || s.units.tlb.any fun e => e.unit = u && n.hits e && e.va ≤ bitsOf va 0 57 && bitsOf va 0 57 < e.va + e.len)

/-- An access that a unit has sent under a translation that the shoot-down names, and that has not completed. -/
def State.holdsUp (s : State) (n : Names) (u : Nat) (r : Req) : Bool :=
  (unitsOf r.core).contains u && !r.settled && r.kind ≠ .sts && (s.named n u r.asid.toNat r.va || (match r.kind with
    | .cas4 _ => n.kind = 0 && r.asid.toNat = n.asid
    | _ => false))

/-- A job's loads that a cluster's unit has sent under a translation that the shoot-down names. -/
def State.jobHoldsUp (s : State) (n : Names) (u : Nat) (c : Walker) : Bool :=
  u = clusterUnit c.cluster && (match c.wait with
    | .load _ _ _ va => s.named n u c.asid.toNat va
    | .elements l => l.any fun x => s.named n u c.asid.toNat x.2
    | _ => false)

/-- A unit waits for an access that it has sent (R211). -/
def State.unitWaits (s : State) (n : Names) (u : Nat) : Bool := s.flight.reqs.any (s.holdsUp n u) || s.walk.ctxs.any (s.jobHoldsUp n u)

/-- Units of an extent that have something to remove or to wait for. -/
def State.shootUnits (s : State) (n : Names) (ext core : Nat) : List Nat :=
  let held := (s.units.tlb.filter n.hits).map Tlb.unit
  let wins := (s.units.windows.filter fun w => n.kind = 2 || (n.kind = 1 && w.2.1 = n.asid)).map Prod.fst
  let busy := (s.flight.reqs.map fun r => (unitsOf r.core).filter fun u => s.holdsUp n u r).flatten
  let jobs := (s.walk.ctxs.map fun c => clusterUnit c.cluster).filter (s.unitWaits n)
  ((held ++ wins ++ busy ++ jobs).filter (unitIn ext core)).eraseDups

/-- A shoot-down sent to its extent; its number is the state's next. -/
def State.shootDown (s : State) (n : Names) (ext core : Nat) (owner : Option Nat) (clears : Bool) : State :=
  let x : Shoot := { id := s.nextId, kind := n.kind, vas := n.vas, asid := n.asid, units := s.shootUnits n ext core, owner := owner,
                     clears := clears }
  if x.units.isEmpty && owner.isNone then s.fresh
  else { s.fresh with units := { s.units with shoots := s.units.shoots ++ [x] } }

/-- SHOOT_DOWN_ACKNOWLEDGE (R211): a unit that waits for no access it has sent removes what the shoot-down names and answers. -/
def execShootDownAcknowledge (shoot unit : Nat) (s : State) : Out :=
  match s.units.shoots.find? fun x => x.id = shoot && x.units.contains unit with
  | none => .next s
  | some x =>
    let n : Names := { kind := x.kind, vas := x.vas, asid := x.asid }
    if s.unitWaits n unit then .next s
    else
      let left := x.units.filter fun u => u ≠ unit
      let shoots := if left.isEmpty && x.owner.isNone then s.units.shoots.filter fun y => y.id ≠ shoot
        else updWhere s.units.shoots (fun y => y.id = shoot) fun y => { y with units := left }
      let tlb := s.units.tlb.filter fun e => !(e.unit = unit && n.hits e)
      let wins := s.units.windows.filter fun w => !(w.1 = unit && (n.kind = 2 || (n.kind = 1 && w.2.1 = n.asid)))
      .next { s with units := { s.units with shoots := shoots, tlb := tlb, windows := wins } }

end Sys2Proof.Machine
end

