-- ==== Sys2Proof/Machine/CueOps.lean ====
section
/-! DEFINITION. The cue engine's commands (17 R314-R329): slots and IDs, templates and shape records with their limits, edges, arming,
killing, and the waits of threads. -/

namespace Sys2Proof.Machine

open Sys2Proof

/-! ## Slots and IDs (R314) -/

/-- A cue slot by core and number. -/
def State.cue? (s : State) (core slot : Nat) : Option Cue := s.cues.find? fun c => c.core = core && c.slot = slot

def State.setCue (s : State) (c : Cue) : State :=
  { s with cues := c :: s.cues.filter fun x => !(x.core = c.core && x.slot = c.slot) }

def State.updCue (s : State) (core slot : Nat) (f : Cue → Cue) : State :=
  { s with cues := updWhere s.cues (fun c => c.core = core && c.slot = slot) f }

/-- The ID of a cue of a team. -/
def Cue.ident (c : Cue) (t : Team) : W32 :=
  BitVec.ofNat 32 (c.slot + 128 * (if t.launch.pair then c.core % 2 else 0) + 256 * c.gen)

/-- The cue that an ID names for a team; none when the ID is stale. -/
def State.cueOf (s : State) (t : Team) (id : W32) : Option Cue :=
  let n := id.toNat
  match s.cue? (t.core + bitsOf n 7 1) (bitsOf n 0 7) with
  | some c => if c.gen = bitsOf n 8 24 && c.team = t.id && c.st ≠ .free && (bitsOf n 7 1 = 0 || t.launch.pair) then some c else none
  | none => none

/-- The next generation of a slot. -/
def nextGen (g : Nat) : Nat := if g + 1 ≥ 0xFFFFFF then 0 else g + 1

/-- An ended cue's place, for reuse. -/
def Cue.closes (c : Cue) : Bool := c.st = .done || c.st = .killed

/-- The slot that a definition takes, with its generation. -/
def State.takeSlot (s : State) (core : Nat) : Option (Nat × Nat) :=
  match (List.range 128).find? fun n => ((s.cue? core n).map fun c => decide (c.st = .free)).getD true with
  | some n => some (n, ((s.cue? core n).map Cue.gen).getD 0)
  | none =>
    match sortBy (fun (a b : Cue) => a.ended ≤ b.ended) (s.cues.filter fun c => c.core = core && c.closes) with
    | c :: _ => some (c.slot, nextGen c.gen)
    | [] => none

/-- Codes of R315. -/
def CueState.code : CueState → Nat
  | .free => 0
  | .defined => 1
  | .armed => 2
  | .active => 3
  | .done => 4
  | .faulted => 5
  | .killed => 6

/-! ## Shape records and templates (R316, R318-R320) -/

/-- The base names the scratchpad (R318). -/
def Shape.inSpad (x : Shape) : Bool := bitsOf x.base.toNat 56 8 = 0x80
def Shape.spadBase (x : Shape) : Nat := bitsOf x.base.toNat 0 56
def Shape.flag (x : Shape) (i : Nat) : Bool := bitOf x.flags i
def Shape.dim (x : Shape) (i : Nat) : Nat := x.dims.getD i 1
def Shape.ext (x : Shape) (i : Nat) : Nat := x.box.getD i 1

/-- A shape record out of its bytes, or none where a limit of R318 is broken or a flag stands on the wrong side (R319). -/
def shapeOf (b : List Byte) (source : Bool) : Option Shape :=
  let fld (i n : Nat) : Nat := ofBytes ((b.drop i).take n)
  let fmt := fld 8 2
  let rank := fld 10 1
  let fl := fld 11 1
  let x : Shape := { base := BitVec.ofNat 64 (fld 0 8), fmt := fmt % 16, scaled := bitOf fmt 4, rank := rank, flags := fl,
                     dims := (List.range 4).map fun i => fld (12 + 4 * i) 4, box := (List.range 4).map fun i => fld (28 + 2 * i) 2,
                     strides := (List.range 3).map fun i => fld (36 + 8 * i) 8 }
  let flagsOk := if source then fl &&& 0xF4 = 0 else fl &&& 0xEB = 0
  if (x.inSpad || x.base.toNat % 16 = 0) && fmt % 16 ≤ 13 && fmt / 32 = 0 && 1 ≤ rank && rank ≤ 4 && flagsOk
      && ((List.range 4).all fun i => 1 ≤ x.dim i && 1 ≤ x.ext i && (i < rank || (x.dim i = 1 && x.ext i = 1)))
      && (x.strides.all fun k => k % 16 = 0) && fld 60 4 = 0 then some x
  else none

/-- A cue template as it is read. -/
structure Template where
  kind : Nat
  scope : Nat
  regDst : Bool
  rm : Nat
  recA : W64
  recB : W64
  srcScale : W64
  dstScale : W64
  fixed : List W32
  /-- Bits and bytes that must be zero are. -/
  clean : Bool

def templateOf (b : List Byte) : Template :=
  let fld (i n : Nat) : Nat := ofBytes ((b.drop i).take n)
  let copy := fld 0 1 = 0
  { kind := fld 0 1, scope := fld 1 1, regDst := bitOf (fld 2 1) 0, rm := fld 3 1, recA := BitVec.ofNat 64 (fld 8 8),
    recB := BitVec.ofNat 64 (fld 16 8), srcScale := BitVec.ofNat 64 (fld 24 8), dstScale := BitVec.ofNat 64 (fld 32 8),
    fixed := (List.range 4).map fun i => BitVec.ofNat 32 (fld (40 + 4 * i) 4),
    clean := fld 2 1 ≤ 1 && fld 3 1 ≤ 6 && fld 4 4 = 0 && fld 56 8 = 0 && (copy || fld 16 40 = 0) }

/-- The alignment and the length of record A of a kind (R324). -/
def recordSize (kind : Nat) : Nat × Nat :=
  match kind with
  | 0 => (64, 64)
  | 1 => (64, 256)
  | 2 => (256, 256)
  | _ => (8, 8)

/-- Where a box ends at an edge that is no multiple of 32 (R320). -/
def scaledBox (x : Shape) (org : List W32) : Bool :=
  (List.range 2).all fun i =>
    let o := (org.getD i 0).toNat
    o % 32 = 0 && (x.ext i % 32 = 0 || o + x.ext i = x.dim i)

/-- The limits of R318 to R320 that tie both sides of a copy together. -/
def copyOk (m : Template) (src dst : Shape) (origin : List W32) : Bool :=
  let srcOrg := if m.regDst then m.fixed else origin
  let dstOrg := if m.regDst then origin else m.fixed
  let turned := src.flag 0
  let conv := dst.flag 4
  let want (i : Nat) : Nat := if turned ∧ i < 2 then src.ext (1 - i) else src.ext i
  (decide (m.srcScale ≠ 0) == src.scaled) && (decide (m.dstScale ≠ 0) == dst.scaled)
    && ((List.range 4).all fun i => dst.ext i = want i)
    && (src.flag 3 || (List.range 4).all fun i => (srcOrg.getD i 0).toNat + src.ext i ≤ src.dim i)
    && (if conv then src.fmt ≠ 11 && dst.fmt ≠ 11 else src.fmt = dst.fmt && src.scaled = dst.scaled)
    && (!(conv && dst.scaled) || (m.rm = 0 && scaledBox dst dstOrg))
    && !(src.inSpad && src.flag 1) && !(dst.inSpad && dst.flag 2)

/-! ## Definition (R324) -/

/-- What a definition comes to. -/
inductive Defined where
  | stop (x : Stop) (s : State)
  | park (s : State)
  /-- No slot can be taken. -/
  | full (s : State)
  | made (c : Cue) (s : State)

/-- A cue just defined. -/
def newCue (m : Template) (t : Team) (tid core slot gen : Nat) (origin : List W32) (src dst : Option Shape) (counter : W64)
    (count cls : Nat) : Cue :=
  { core := core, slot := slot, gen := gen, st := .defined, team := t.id, tid := tid, asid := t.asid,
    kind := (match m.kind with
      | 0 => .copy
      | 1 => .walker
      | 2 => .launch
      | _ => .stream),
    scope := m.scope, regDst := m.regDst, rm := m.rm, recA := m.recA, recB := m.recB, srcScale := m.srcScale, dstScale := m.dstScale,
    fixed := m.fixed, origin := origin, src := src, dst := dst, counter := counter, preds := count, count := count, reached := 0, edges := [],
    progress := 0, marks := [], shoot := none, started := false, counting := false, killing := false, restartable := true,
    key := [t.kreg 56, t.kreg 57, t.kreg 58, t.kreg 59], stream := t.kreg 61, flags := 0, cls := max cls t.launch.cls, order := 0,
    ended := 0 }

/-- Reads of the records that a template names, with their alignment: record A, and for a copy record B. -/
def readRecords (s : State) (unit : Nat) (asid : BitVec 16) (m : Template) : Found (List Byte × List Byte) :=
  let (al, n) := recordSize m.kind
  let misA := m.recA.toNat % al ≠ 0
  let misB := m.kind = 0 && m.recB.toNat % 64 ≠ 0
  if 3 < m.kind then .got ([], []) s
  else if misA then .stop { code := trapAlign, va := m.recA } s
  else if misB then .stop { code := trapAlign, va := m.recB } s
  else
    match (if n = 8 then engRead s unit asid m.recA 8 [] else engReadLong s unit asid m.recA (n / 64)) with
    | .stop x s1 => .stop x s1
    | .park s1 => .park s1
    | .got a s1 =>
      if m.kind ≠ 0 then .got (a, []) s1
      else
        match engRead s1 unit asid m.recB 64 [] with
        | .stop x s2 => .stop x s2
        | .park s2 => .park s2
        | .got b s2 => .got (a, b) s2

/-- The definition of a cue by the lowest active lane of a group; `only` is the kind that the command takes. -/
def defineCue (w : CWord) (only : Option Nat) (count : Nat) (t : Team) (h : Thread) (s : State) : Defined :=
  let core := t.coreOf h.tid
  let unit := clusterUnit (coreCluster core)
  let va := h.pair w.a.toNat
  let counter := h.pair w.c.toNat
  let origin := (List.range 4).map fun i => h.reg (w.b.toNat + i)
  if va.toNat % 64 ≠ 0 then .stop { code := trapAlign, va := va } s
  else
    match engRead s unit t.asid va 64 [] with
    | .stop x s1 => .stop x s1
    | .park s1 => .park s1
    | .got b s1 =>
      let m := templateOf b
      match readRecords s1 unit t.asid m with
      | .stop x s2 => .stop x s2
      | .park s2 => .park s2
      | .got r s2 =>
        let src := if m.kind = 0 then shapeOf r.1 true else none
        let dst := if m.kind = 0 then shapeOf r.2 false else none
        let shapes := match src, dst with
          | some x, some y => copyOk m x y origin
          | _, _ => m.kind ≠ 0
        let kindOk := m.kind ≤ 3 && (match only with
          | some k => m.kind = k
          | none => true)
        if !(m.clean && 1 ≤ m.scope && m.scope ≤ 7 && kindOk && shapes) then .stop { code := trapIllegalOperand } s2
        else if counter.toNat % 8 ≠ 0 then .stop { code := trapAlign, va := counter } s2
        else
          match s2.takeSlot core with
          | none => .full s2
          | some (slot, gen) =>
            let c := newCue m t h.tid core slot gen origin src dst counter count (bitsOf w.cp.toNat 6 2)
            .made c (s2.setCue c)

/-! ## Arming and edges (R315, R322, R325, R326) -/

/-- A cue becomes ACTIVE, in turn. -/
def State.activate (s : State) (core slot : Nat) : State :=
  s.fresh.updCue core slot fun c => { c with st := .active, order := s.nextId }

/-- A cue that is DEFINED is armed. -/
def State.arm (s : State) (core slot : Nat) : State :=
  match s.cue? core slot with
  | none => s
  | some c => if c.count = 0 then s.activate core slot else s.updCue core slot fun x => { x with st := .armed }

/-- A successor's count falls by 1; an ARMED cue whose count reaches 0 becomes ACTIVE. A stale successor is left alone. -/
def State.decrement (s : State) (core slot gen : Nat) : State :=
  match s.cue? core slot with
  | none => s
  | some c =>
    if c.gen ≠ gen || !(c.st = .defined || c.st = .armed) || c.count = 0 then s
    else
      let s1 := s.updCue core slot fun x => { x with count := x.count - 1 }
      if c.st = .armed && c.count = 1 then s1.activate core slot else s1

/-- CUEARM on a cue, or a re-arm from the cue-control port (R326, R330). -/
def State.rearm (s : State) (c : Cue) : State :=
  match c.st with
  | .defined => s.arm c.core c.slot
  | .faulted => if c.restartable then s.updCue c.core c.slot fun x => { x with st := .active } else s
  | _ => s

/-! ## Marks (R210, R321) -/

/-- The marks of a cue cleared in their leaf entries, with the shoot-down of their pages. -/
def State.unmark (s : State) (c : Cue) : State :=
  if c.marks.isEmpty then s else
  let entries := s.units.tlb.filter fun e => c.marks.contains e.leaf
  let s1 := c.marks.foldl (fun s l =>
    let e := s.peekLe l 8
    s.writeNow l (toBytes 8 (e - (if bitOf e 7 then 2 ^ 7 else 0) - (if bitOf e 8 then 2 ^ 8 else 0))) false) s
  (s1.shootDown { kind := 0, vas := entries.map Tlb.va, asid := c.asid.toNat } 3 0 none true).updCue c.core c.slot fun x =>
    { x with marks := [], shoot := none }

/-! ## Killing (R327) -/

/-- An empty tile buffer. -/
def Tile.blank : Tile := { codes := [], ready := false, taken := 0, order := 0 }

/-- A context that is free of its job: its buffers are discarded; registers, flags and WPROG stay as they are (R286, R307, R313). -/
def Walker.free (c : Walker) : Walker :=
  { c with cue := none, input := [], tiles := [Tile.blank, Tile.blank], wait := .none, running := false, stopped := false, mid := false,
           stored := false }

/-- A walker job taken away: it waits no more, or its context frees and its buffers are discarded (R307). -/
def State.dropJob (s : State) (core slot : Nat) : State :=
  let jobs := s.walk.jobs.filter fun j => !(j.core = core && j.slot = slot)
  { s with walk := { s.walk with jobs := jobs, ctxs := updWhere s.walk.ctxs (fun x => x.cue = some (core, slot)) Walker.free } }

/-- A pass or a load of the context is posted and has not completed. -/
def State.passesPosted (s : State) (cluster ctx : Nat) : Bool :=
  s.mx.engines.any fun e => e.cluster = cluster && e.table.any fun x => x.ctx = ctx

/-- A context still runs passes of the stream that the cue started. -/
def State.streamsOn (s : State) (c : Cue) : Bool :=
  (s.mx.ctxs.any fun p => p.cue = some (c.core, c.slot)) || s.mx.awayCtxs.any fun p => p.cue = some (c.core, c.slot)

/-- The flags that the passes of the cue's stream have raised. -/
def State.streamFlags (s : State) (c : Cue) : W32 :=
  (((s.mx.ctxs ++ s.mx.awayCtxs).find? fun p => p.cue = some (c.core, c.slot)).map Prompter.flags).getD 0

/-- The Prompter context that runs the stream of a cue stops fetching; posted passes complete (R327). -/
def State.endStream (s : State) (core slot : Nat) : State :=
  let stop (p : Prompter) : Prompter :=
    if p.st = .idle || !s.passesPosted p.cluster p.ctx then { p with st := .idle, cue := none, staged := none, stagedFrom := none }
    else { p with st := .ending, staged := none, stagedFrom := none }
  let away (p : Prompter) : Prompter :=
    if p.st = .idle || !(s.mx.away.any fun x => x.team = p.team) then { p with st := .idle, cue := none, staged := none, stagedFrom := none }
    else { p with st := .ending, staged := none, stagedFrom := none }
  { s with mx := { s.mx with
    ctxs := updWhere s.mx.ctxs (fun p => p.cue = some (core, slot)) stop
    awayCtxs := updWhere s.mx.awayCtxs (fun p => p.cue = some (core, slot)) away } }

/-- What CUEPROG reports of a cue: the leading elements performed, or the job's WPROG (R329). -/
def State.cueProgress (s : State) (c : Cue) : Nat :=
  match c.kind with
  | .copy => c.progress
  | .walker => ((s.walk.ctxs.find? fun x => x.cue = some (c.core, c.slot)).map fun x => x.wprog.toNat).getD c.progress
  | _ => 0

/-- The walker job of a cue stands inside an instruction: it stops at the end of it (R307). -/
def State.insideWord (s : State) (c : Cue) : Bool :=
  s.walk.ctxs.any fun x => x.cue = some (c.core, c.slot) && x.running && !x.stopped && x.mid

/-- A cue becomes KILLED: it delivers no draw and its marks are cleared (R210, R327). -/
def State.endKill (s : State) (c : Cue) (f : W32) : State :=
  let s1 := { s with noise := { s.noise with reqs := s.noise.reqs.filter fun r => r.who ≠ Drawer.cue c.core c.slot } }
  (s1.unmark c).fresh.updCue c.core c.slot fun x =>
    { x with st := .killed, ended := s.nextId, progress := s.cueProgress c, flags := x.flags ||| f, counting := false, killing := false }

/-- CUEKILL on a cue, or a kill from the cue-control port (R327). A walker job inside an instruction, and a stream with passes posted,
stop later: the cue stays ACTIVE with the kill noted. -/
def State.killCue (s : State) (c : Cue) : State :=
  match c.st with
  | .done | .killed | .free => s
  | .defined | .armed => s.endKill c 0
  | .faulted => if c.kind = .walker then (s.dropJob c.core c.slot).endKill { c with progress := s.cueProgress c } 0 else s.endKill c 0
  | .active =>
    match c.kind with
    | .copy | .launch => s.endKill c 0
    | .walker =>
      if s.insideWord c then s.updCue c.core c.slot fun x => { x with killing := true }
      else (s.dropJob c.core c.slot).endKill { c with progress := s.cueProgress c } 0
    | .stream =>
      let f := s.streamFlags c
      let s1 := s.endStream c.core c.slot
      if s1.streamsOn c then s1.updCue c.core c.slot fun x => { x with killing := true } else s1.endKill c f

/-- A walker job that a kill has reached stops at the boundary at which it stands (R307). -/
def State.killJob (s : State) (c : Cue) : State :=
  if c.killing && !s.insideWord c then s.killCue c else s

/-! ## The command instructions -/

/-- d written in every active lane. -/
def State.giveAll (s : State) (team : Nat) (lanes : List Nat) (d : Nat) (v : W32) : State :=
  s.updThreads team lanes fun h => h.setReg d v

/-- A command that acts for the lowest active lane of each group (R43). -/
def issueCommand (f : Form) (act : Team → Thread → List Nat → State → Res) (s : State) : Out :=
  issueGroups f trapPartialMask (fun team _ l s => withLane (fun t h s => act t h l s) team (l.headD 0) s) s

/-- What CUENEW, COPY, COPYT and WLKGO share; `arms` says that the definition also starts the cue. The group waits at the instruction while a
page that it reads is in transit, and until a shoot-down that clears such a page is over (R185, R210). The fork carries the accesses of the
lane that issues it, the lowest active one (R322; log 31). -/
def defineCommand (w : CWord) (only : Option Nat) (count : Nat) (arms soft : Bool) (t : Team) (h : Thread) (l : List Nat) (s : State) :
    Res :=
  if !s.quiet t.id h.tid || s.units.shoots.any Shoot.clears then .hold else
  match defineCue w only count t h s with
  | .stop x s1 => .stop x s1
  | .park _ => .hold
  | .full s1 => if soft then .ok (s1.giveAll t.id l w.d.toNat 0xFFFFFFFF) else .hold
  | .made c s1 =>
    let id := c.ident t
    let s2 := s1.giveAll t.id l w.d.toNat id
    if arms then .okId id (s2.arm c.core c.slot) else .ok s2

/-- The form of a definition. -/
def defineForm (w : CWord) : Form :=
  { w.form [w.srcA, w.srcB, w.srcC] [{ r := w.d.toNat, n := 1 }] with ks := [56, 57, 58, 59, 61] }

/-- CUENEW (R324). -/
def execCuenew (w : CWord) (s : State) : Out :=
  issueCommand { defineForm w with quad := some w.b.toNat } (defineCommand w none w.md.toNat false false) s

/-- COPY (R324). -/
def execCopy (w : CWord) (s : State) : Out :=
  issueCommand { defineForm w with quad := some w.b.toNat } (defineCommand w (some 0) 0 true false) s

/-- COPYT (R324): without a free slot it answers 0xFFFF_FFFF. -/
def execCopyt (w : CWord) (s : State) : Out :=
  issueCommand { defineForm w with quad := some w.b.toNat } (defineCommand w (some 0) 0 true true) s

/-- The walker context that a stepped WLKGO reports (R230). -/
def jobContext (s : State) (c : Cue) : Nat :=
  match engRead s (clusterUnit (coreCluster c.core)) c.asid c.recA 64 [] with
  | .got b _ => ofBytes ((b.drop 13).take 1) % 4
  | _ => 0

/-- WLKGO (R324): the origin registers are named and not read. -/
def execWlkgo (w : CWord) (s : State) : Out :=
  issueCommand { w.form [w.srcA, w.srcC] [{ r := w.d.toNat, n := 1 }] with quad := some w.b.toNat, ks := [56, 57, 58, 59, 61] } (fun t h l s =>
    if !s.quiet t.id h.tid || s.units.shoots.any Shoot.clears then .hold else
    match defineCue w (some 1) 0 t h s with
    | .stop x s1 => .stop x s1
    | .park _ => .hold
    | .full _ => .hold
    | .made c s1 =>
      .okId (BitVec.ofNat 32 (jobContext s1 c)) ((s1.giveAll t.id l w.d.toNat (c.ident t)).arm c.core c.slot)) s

/-- CUEDEP (R325): the edge is recorded whatever the state of its predecessor, and one that is DONE serves it at once. -/
def execCuedep (w : CWord) (s : State) : Out :=
  issueCommand (w.form [w.srcA] []) (fun t h _ s =>
    let p := s.cueOf t (h.reg w.a.toNat)
    let same (x : Cue) : Bool := match p with
      | some y => y.core = x.core && y.slot = x.slot
      | none => false
    match s.cueOf t (h.reg (w.a.toNat + 1)) with
    | none => .stop { code := trapIllegalOperand } s
    | some x =>
      if !(x.st = .defined || x.st = .armed) || x.preds ≤ x.reached || same x
          || ((p.map fun y => decide (8 ≤ y.edges.length)).getD false) then .stop { code := trapIllegalOperand } s
      else
        let s1 := s.updCue x.core x.slot fun y => { y with reached := y.reached + 1 }
        match p with
        | none => .ok (s1.decrement x.core x.slot x.gen)
        | some y =>
          let s2 := s1.updCue y.core y.slot fun z => { z with edges := z.edges ++ [(x.core, x.slot, x.gen)] }
          .ok (if y.st = .done then s2.decrement x.core x.slot x.gen else s2)) s

/-- The span of a command that reads one ID, and whose field a must be even (R42). -/
def idForm (w : CWord) (dsts : List Span) : Form :=
  { w.form [{ r := w.a.toNat, n := 1, fe := bitOf w.fe.toNat 2 }] dsts with bad := w.a.toNat % 2 ≠ 0 }

/-- CUEARM (R326). -/
def execCuearm (w : CWord) (s : State) : Out :=
  issueCommand (idForm w [{ r := w.d.toNat, n := 1 }]) (fun t h l s =>
    if !s.quiet t.id h.tid then .hold else
    let id := h.reg w.a.toNat
    match s.cueOf t id with
    | none => .okId id (s.giveAll t.id l w.d.toNat 0)
    | some c =>
      let s1 := s.rearm c
      let st := ((s1.cue? c.core c.slot).map fun x => x.st.code).getD 0
      .okId id (s1.giveAll t.id l w.d.toNat (BitVec.ofNat 32 st))) s

/-- CUEKILL (R327): it completes when the cue has stopped, and joins it, so the flags of a copy, a launch or a stream enter the lane's
FPFLAGS; a walker job's do not (R307). -/
def execCuekill (w : CWord) (s : State) : Out :=
  issueCommand (idForm w [{ r := w.d.toNat, n := 1 }]) (fun t h l s =>
    match s.cueOf t (h.reg w.a.toNat) with
    | none => .ok (s.giveAll t.id l w.d.toNat 0)
    | some c =>
      let s1 := s.killCue c
      match s1.cue? c.core c.slot with
      | none => .ok (s1.giveAll t.id l w.d.toNat 0)
      | some x =>
        if x.killing then .holdAfter fun s => s.killCue c
        else
          let joins := (c.st = .active || c.st = .faulted || c.st = .killed) && c.kind ≠ .walker
          let s2 := if joins then s1.enterFlags t.id h.tid x.flags else s1
          .ok (s2.giveAll t.id l w.d.toNat (BitVec.ofNat 32 x.st.code))) s

/-! ## CUEWAIT and CUEPROG (R328, R329) -/

/-- Scope of CUEWAIT's md[2:1] in the codes of R4. -/
def cueWaitScope (md : Nat) : Nat :=
  match bitsOf md 1 2 with
  | 0 => 5
  | 1 => 2
  | 2 => 4
  | _ => 7

/-- CUEWAIT (R328). A lane whose counter is below its target leaves its bundle inside the clause (R101; log 74). -/
def execCuewait (w : IWord) (s : State) : Out :=
  let byReg := bitOf w.md.toNat 0
  issueLanes (w.form (w.srcA 2 :: if byReg then [{ r := w.d.toNat, n := 2 }] else []) [])
    (withLane fun t h s1 =>
      let addr := h.pair w.a.toNat
      let target := if byReg then h.pair w.d.toNat else w.imm.setWidth 64
      if !s1.quiet t.id h.tid then .hold else
      onReach (t.reach s1 h addr 8 { align := 8 }) fun ps s2 =>
        if s2.unlanded (t.coreOf h.tid) ps then .hold else
        let key := (ps.map Part.key).headD 0
        let r := s2.readNat (t.coreOf h.tid) ps
        if r.2 < target.toNat then .leave (.cueWait addr target) r.1
        else .ok (r.1.enterFlags t.id h.tid (r.1.joinFlags t.id (t.coreOf h.tid) (cueWaitScope w.md.toNat) key (toBytes 8 r.2) true))) s

/-- A thread that waits in CUEWAIT looks again: it becomes eligible when its counter has reached the target, or when the read would
stop it, and executes the instruction anew. -/
def State.wakeCueWait (s : State) (t : Team) (h : Thread) (addr target : W64) : State :=
  match t.reach s h addr 8 { align := 8 } with
  | (.ok (some ps), s1) =>
    if s1.unlanded (t.coreOf h.tid) ps then s1 else
    let r := s1.readNat (t.coreOf h.tid) ps
    if r.2 < target.toNat then r.1
    else r.1.updThread t.id h.tid fun x => { x with wait := .ready }
  | (_, s1) => s1.updThread t.id h.tid fun x => { x with wait := .ready }

/-- CUEPROG (R329): the value is taken at issue and arrives as a long-latency result. -/
def execCueprog (w : IWord) (s : State) : Out :=
  let n := if bitOf w.md.toNat 0 then 1 else 2
  let f := { w.form [w.srcA 1] [w.dst n] with long := true, bad := w.d.toNat % 2 ≠ 0 || w.a.toNat % 2 ≠ 0 }
  issueLanes f (withLane fun t h s1 =>
    let v := match s1.cueOf t (h.reg w.a.toNat) with
      | none => 0
      | some c => if n = 1 then c.st.code else s1.cueProgress c
    let res : Result := { id := s1.nextId, team := t.id, tid := h.tid, regs := regWords w.d.toNat n v, flags := 0 }
    .ok { s1.fresh with flight := { s1.flight with results := s1.flight.results ++ [res] } }) s

end Sys2Proof.Machine
end

