-- ==== Sys2Proof/Machine/Launches.lean ====
section
/-! DEFINITION. Launch records and their checks (06 R109, R115, R116), the task queues (R122) and the start of a matrix stream (12 R251,
08 R180). -/

namespace Sys2Proof.Machine

open Sys2Proof

/-! ## Launch records -/

/-- Roles of a record: role 0 from the record, the others from the entries of the role table (R109). -/
def rolesOf (b : List Byte) (table : List (List Byte)) : List Role :=
  { entry := BitVec.ofNat 64 (fieldOf b 0 8), allot := fieldOf b 24 1, cls := fieldOf b 25 1 }
    :: table.map fun e => { entry := BitVec.ofNat 64 (fieldOf e 0 8), allot := fieldOf e 8 1, cls := fieldOf e 9 1 }

/-- A launch as a record states it. -/
def launchOf (addr : W64) (b : List Byte) (table : List (List Byte)) : Launch :=
  let flags := fieldOf b 9 1
  let w (i : Nat) : W64 := BitVec.ofNat 64 (fieldOf b i 8)
  let orElse (v d : Nat) : Nat := if v = 0 then d else v
  { addr := addr, width := 16 * 2 ^ fieldOf b 8 1, progress := bitOf flags 0, pair := bitOf flags 1, split := bitOf flags 2,
    size := fieldOf b 10 2, gx := fieldOf b 12 4, gy := fieldOf b 16 4, gz := fieldOf b 20 4, roles := rolesOf b table,
    spadBytes := fieldOf b 28 4, accRows := fieldOf b 32 2, dpf := orElse (fieldOf b 36 4) 1024, wdog := orElse (fieldOf b 40 4) (2 ^ 24),
    gangP := fieldOf b 44 2, gangF := fieldOf b 46 2, iters := fieldOf b 48 8, perTile := fieldOf b 56 4, stack := fieldOf b 60 4,
    stream := w 64, dtBase := w 72, dtLen := BitVec.ofNat 32 (fieldOf b 80 4), segBase := w 96, segSize := fieldOf b 104 8,
    counter := w 112, kInit := (List.range 9).map fun i => BitVec.ofNat 32 (fieldOf b (128 + 4 * i) 4) }

/-- An allotment of R109. -/
def allotOk (n : Nat) : Bool := 8 ≤ n && n ≤ 128 && n % 8 = 0

/-- The rules of R116, in order of their status. -/
def launchRules (b : List Byte) (table : List (List Byte)) : List Bool :=
  let l := launchOf 0 b table
  let count := fieldOf b 26 1
  let zero (i n : Nat) : Bool := fieldOf b i n = 0
  let product := l.gx * l.gy * l.gz
  [ -- 0x01
    fieldOf b 9 1 < 8 && zero 27 1 && zero 34 2 && zero 84 4 && zero 124 4 && zero 164 92 && (table.all fun e => fieldOf e 10 6 = 0),
    -- 0x02
    fieldOf b 8 1 ≤ 2 && 1 ≤ l.size && l.size ≤ 1024 && l.size % l.width = 0,
    -- 0x03
    l.roles.all fun r => allotOk r.allot,
    -- 0x04
    l.spadBytes ≤ (if l.pair then 393216 else 196608) && l.accRows ≤ 2048 && l.accRows % 64 = 0 && l.stack % 16 = 0,
    -- 0x05
    1 ≤ count && count ≤ 8 && (l.roles.all fun r => r.cls ≤ 3),
    -- 0x06
    1 ≤ l.gangP && l.gangP ≤ 512 && 1 ≤ l.gangF && l.gangF ≤ l.gangP,
    -- 0x07
    1 ≤ l.gx && 1 ≤ l.gy && 1 ≤ l.gz && product < 2 ^ 32,
    -- 0x08
    !l.split || l.iters < 2 ^ 32,
    -- 0x09
    l.dtBase.toNat % 8 = 0 && (count ≤ 1 || fieldOf b 88 8 % 16 = 0) && l.segBase.toNat % 4096 = 0 && l.counter.toNat % 8 = 0
      && l.stream.toNat % 8 = 0,
    -- 0x0A
    4096 + product * areaSize l ≤ l.segSize ]

/-- The status of a record: the lowest-numbered rule that it breaks (R116). -/
def launchStatus (b : List Byte) (table : List (List Byte)) : Nat :=
  let r := launchRules b table
  ((List.range 10).find? fun i => !(r.getD i true)).elim 0 (· + 1)

/-- Entries 1 and up of a record's role table; an entry that cannot be read counts as zeros (log 27). -/
def readRoles (s : State) (unit : Nat) (asid : BitVec 16) (b : List Byte) : List (List Byte) × State :=
  let count := fieldOf b 26 1
  let base := BitVec.ofNat 64 (fieldOf b 88 8)
  if count ≤ 1 ∨ 8 < count ∨ base.toNat % 16 ≠ 0 then ([], s)
  else
    (List.range (count - 1)).foldl (fun acc i =>
      match engRead acc.2 unit asid (base + BitVec.ofNat 64 (16 * (i + 1))) 16 [] with
      | .got e s1 => (acc.1 ++ [e], s1)
      | .stop _ s1 => (acc.1 ++ [List.replicate 16 0], s1)
      | .park s1 => (acc.1 ++ [List.replicate 16 0], s1)) ([], s)

/-! ## Task queues (R122) -/

/-- Entries of a die's task queue. -/
def State.queued (s : State) (die : Nat) : Nat := (s.dist.tasks.filter fun t => t.die = die).length

/-- The queue has room for one more entry. -/
def State.taskRoom (s : State) (die : Nat) : Bool := s.queued die < 4096

/-- A child launch record enqueued. -/
def State.enqueue (s : State) (t : Task) : State := { s with dist := { s.dist with tasks := s.dist.tasks ++ [t] } }

/-! ## Starting a stream (R251, R180) -/

/-- A team's Prompter context. -/
def State.context? (s : State) (t : Team) : Option Prompter :=
  t.ctx.bind fun n => s.mx.ctxs.find? fun p => p.cluster = t.cluster && p.ctx = n && p.team = t.id

def State.updContext (s : State) (cluster ctx : Nat) (f : Prompter → Prompter) : State :=
  { s with mx := { s.mx with ctxs := updWhere s.mx.ctxs (fun p => p.cluster = cluster && p.ctx = ctx) f } }

/-- A context runs a stream until it is idle again (R180, R279). -/
def Prompter.busy (p : Prompter) : Bool := p.st ≠ .idle

/-- The context starts at a stream header, for a cue or none. -/
def State.startStream (s : State) (p : Prompter) (hdr : W64) (cue : Option (Nat × Nat)) : State :=
  s.updContext p.cluster p.ctx fun x =>
    { x with st := .running, hdr := hdr, idx := 0, count := 0, wbDone := false, staged := none, stagedFrom := none, cue := cue }

end Sys2Proof.Machine
end

