-- ==== Sys2Proof/Machine/CtlOps.lean ====
section
/-! DEFINITION. The control block (08 R155-R174, R176): transfers with the PC table and the callee queues (06 R108), reconvergence,
yielding, barriers, exits, launches, traps and the return from them, ROLE and the timer. -/

namespace Sys2Proof.Machine

open Sys2Proof

/-- A span read with fe = 0 (R155). -/
def spanA (w : BWord) (n : Nat) : Span := { r := w.a.toNat, n := n }

/-! ## Transfers (R156-R158, R108) -/

/-- What a lane's transfer comes to. -/
inductive Goal where
  | go (pc : W64) (idx : Nat)
  | stop (x : Stop)
  | park

/-- The recorded set of a slot gains threads of a group (R159). -/
def Group.record (g : Group) (slot : Nat) (tids : List Nat) : Group :=
  let old := ((g.slots.find? fun x => x.1 = slot).map Prod.snd).getD []
  { g with slots := (slot, old ++ tids.filter fun x => !old.contains x) :: g.slots.filter fun x => x.1 ≠ slot }

/-- Slot `slot` of every group with a thread in the bundle records those threads (R159). -/
def Team.recordSlot (t : Team) (slot : Nat) (tids : List Nat) : Team :=
  (t.groupsOf tids).foldl (fun t g => t.updGroup g fun x => x.record slot (tids.filter fun y => t.groupOf y = g)) t

/-- A bundle issues from the running set of its team. -/
def Bundle.runs (b : Bundle) (t : Team) : Bool := b.tids.any t.running.contains

/-- The transfers of a bundle: `goal` is each active lane's target; inactive lanes go to the next header; `act` is done on a lane that
goes; `slot` is the slot recorded, once the transfer has been executed on some lane (R157, R159). Where it diverges, the threads stand in
one PC set for each target, and the running set, which has split, is chosen afresh (R102, R103; see `State.settleSet`). -/
def State.transfer (s : State) (f : Form) (b : Bundle) (t : Team) (slot : Option Nat) (act : Thread → Thread)
    (goal : Team → Thread → State → Goal × State) : State :=
  let order := t.inOrder b.tids
  let acts := t.active f b.tids
  let aims := order.foldl (fun (acc : List (Nat × Goal) × State) x =>
    match t.thread? x with
    | none => acc
    | some h =>
      if acts.contains x then
        let r := goal t h acc.2
        (acc.1 ++ [(x, r.1)], r.2)
      else (acc.1 ++ [(x, .go h.nextAddr 0)], acc.2)) ([], s)
  let s1 := aims.2
  let seat := aims.1.foldl (fun (p : Seating) a =>
    match a.2 with
    | .go pc i => p.send t (t.coreOf a.1) a.1 (pc, i, t.role a.1)
    | _ => p) { sets := s1.pcSets t b.tids, callees := s1.callees, next := s1.nextId }
  let goes := aims.1.filterMap fun a => match a.2 with
    | .go pc i => if seat.refused.contains a.1 then none else some (a.1, pc, i)
    | _ => none
  let s2 := { s1 with callees := seat.callees, nextId := seat.next }
  let s3 := goes.foldl (fun s g => s.updThread t.id g.1 fun h =>
    let h1 := if acts.contains g.1 then act h else h
    { h1.goto g.2.1 g.2.2 with wait := if seat.queued.contains g.1 then .callee else h1.wait }) s2
  let done := !goes.isEmpty || aims.1.any fun a => match a.2 with
    | .stop _ => true
    | _ => false
  let s4 := match slot with
    | some n => if f.idle || !done then s3 else s3.updTeam t.id fun t => t.recordSlot n b.tids
    | none => s3
  let r : Run :=
    { s := s4, moved := goes.map Prod.fst,
      stops := aims.1.filterMap fun a => match a.2 with
        | .stop x => some (a.1, x)
        | _ => none,
      left := aims.1.filterMap fun a => match a.2 with
        | .park => some (a.1, .transit)
        | .go _ _ => if seat.refused.contains a.1 then some (a.1, .ready) else none
        | _ => none }
  s4.finish f t.id [b] (b.idx t) r

/-- A table target may not be read yet: the lane's earlier accesses are not over, or a store of its core to the entry is under way
(R85, R88). -/
def tableWaits (f : Form) (b : Bundle) (t : Team) (goal : Team → Thread → State → Goal × State) (s : State) : Bool :=
  (t.active f b.tids).any fun x => (match t.thread? x with
    | none => false
    | some h => !s.quiet t.id x || (s.coreBusy (t.coreOf x) && (match (goal t h s).1 with
        | .park => true
        | _ => false)))

/-- An instruction that sends its lanes to other PC records; `table` says that it reads its targets out of the dispatch table. -/
def issueTransfer (f : Form) (slot : Option Nat) (act : Thread → Thread) (goal : Team → Thread → State → Goal × State) (table : Bool)
    (s : State) : Out :=
  match s.issuer with
  | none => .fault .noIssuer
  | some (b, t) =>
    match gate f t b.tids with
    | .stops l => .next (s.stopLanes t.id l)
    | .wait => .next (s.stall b)
    | .pass => if table && tableWaits f b t goal s then .next (s.stall b) else .next (s.transfer f b t slot act goal)

/-- The slot that a transfer records. -/
def slotOf (w : BWord) : Option Nat := if bitOf w.md.toNat 0 then some w.bs.toNat else none

/-- A target checked under R25. -/
def checkedGoal (t : Team) (h : Thread) (s : State) (pc : W64) (idx : Nat) : Goal × State :=
  match s.targetStop (t.coreOf h.tid) t.asid h.priv pc with
  | some code => (.stop { code := code }, s)
  | none => (.go pc idx, s)

/-- The target of a relative transfer. -/
def relGoal (w : BWord) (t : Team) (h : Thread) (s : State) : Goal × State := checkedGoal t h s (h.pc + w.off.signExtend 64) 0

/-- The target out of the dispatch table (R157, R158). -/
def tableGoal (w : BWord) (t : Team) (h : Thread) (s : State) : Goal × State :=
  let i := h.reg w.a.toNat
  if t.launch.dtLen ≤ i then (.stop { code := trapBadTarget }, s)
  else
    match t.reachNow s h (t.launch.dtBase + 8 * i.setWidth 64) 8 {} with
    | (.error x, s1) => (.stop x, s1)
    | (.ok none, s1) => (.park, s1)
    | (.ok (some ps), s1) =>
      let r := s1.readNat (t.coreOf h.tid) ps
      checkedGoal t h r.1 (BitVec.ofNat 64 r.2) 0

/-- The link: x6:x7 takes the address of the following header (R156). -/
def Thread.link (h : Thread) : Thread := h.setPair 6 h.nextAddr

def transferForm (w : BWord) (srcs dsts : List Span) : Form := { w.form srcs with dsts := dsts, ends := true }

/-- BRA (R157). -/
def execBra (w : BWord) (s : State) : Out := issueTransfer (transferForm w [] []) (slotOf w) id (relGoal w) false s

/-- BRX (R157). -/
def execBrx (w : BWord) (s : State) : Out := issueTransfer (transferForm w [spanA w 1] []) (slotOf w) id (tableGoal w) true s

/-- CALL (R157). -/
def execCall (w : BWord) (s : State) : Out :=
  issueTransfer (transferForm w [] [{ r := 6, n := 2 }]) (slotOf w) Thread.link (relGoal w) false s

/-- CALLX (R157). -/
def execCallx (w : BWord) (s : State) : Out :=
  issueTransfer (transferForm w [spanA w 1] [{ r := 6, n := 2 }]) (slotOf w) Thread.link (tableGoal w) true s

/-- RET (R156, R157). -/
def execRet (w : BWord) (s : State) : Out :=
  issueTransfer (transferForm w [spanA w 2] []) (slotOf w) id (fun t h s => checkedGoal t h s (h.pair w.a.toNat) 0) false s

/-! ## Reconvergence (R159, R160) -/

def Group.open? (g : Group) (slot : Nat) : Option (List Nat) := (g.slots.find? fun x => x.1 = slot).map Prod.snd

/-- Every recorded thread has arrived at a RECON that names the slot, or has exited. -/
def Team.complete (t : Team) (slot : Nat) (tids : List Nat) : Bool :=
  tids.all fun x => ((t.thread? x).map fun h => h.exited || h.wait = .recon slot).getD true

/-- Complete slots become free, and the threads that wait for them go on behind their own RECON. -/
def State.closeSlots (s : State) (team : Nat) : State :=
  match s.team? team with
  | none => s
  | some t =>
    (List.range t.groups.length).foldl (fun s g =>
      let done := ((t.group g).slots.filter fun x => t.complete x.1 x.2).map Prod.fst
      let freed := ((t.groupThreads g).filter fun h => done.any fun n => h.wait = .recon n).map Thread.tid
      let s1 := s.updTeam team fun t => t.updGroup g fun x => { x with slots := x.slots.filter fun y => !done.contains y.1 }
      freed.foldl (fun s x => s.resumePast team x 0) s1) s

/-- What follows an instruction of a team, when it has gone on. -/
def afterIssue (o : Out) (s : State) (f : State → Nat → State) : Out :=
  match o, s.issuer with
  | .next s1, some (_, t) => .next (f s1 t.id)
  | o, _ => o

/-- RECON (R160). -/
def execRecon (w : BWord) (s : State) : Out :=
  afterIssue (issueLanes { w.form [] with ends := true } (fun team tid s =>
    match s.team? team with
    | none => .hold
    | some t =>
      match (t.group (t.groupOf tid)).open? w.bs.toNat with
      | none => .ok s
      | some _ => .leave (.recon w.bs.toNat) s) s) s State.closeSlots

/-! ## Yielding and napping (R161, R162) -/

/-- YIELD (R161): a yield point when the guard holds on a thread of the bundle. -/
def execYield (w : BWord) (s : State) : Out :=
  let f : Form := { w.form [] with ends := true }
  let acts := match s.issuer with
    | some (b, t) => !(t.active f b.tids).isEmpty && b.runs t
    | none => false
  match s.issuer with
  | none => .fault .noIssuer
  | some (b, t) =>
    match gate f t b.tids with
    | .stops l => .next (s.stopLanes t.id l)
    | .wait => .next (s.stall b)
    | .pass =>
      let s1 := s.finish f t.id [b] (b.idx t) { s := s }
      .next (if acts then s1.yieldPoint t.id else s1)

/-- NAP (R162). -/
def execNap (w : BWord) (s : State) : Out :=
  issueLanes { w.form [spanA w 1] with ends := true } (fun team tid s =>
    match s.thread? team tid with
    | none => .hold
    | some h =>
      let n := (h.reg w.a.toNat).toNat
      if n = 0 then .ok s else .leave (.nap (s.time + n)) s) s

/-! ## Barriers (R163-R165) -/

def Team.barrier (t : Team) (b : Nat) : Barrier :=
  (t.barriers[b]?).getD { expect := 0, arrived := 0, phase := 0, pending := 0, flags := [] }
def Team.updBarrier (t : Team) (b : Nat) (f : Barrier → Barrier) : Team := { t with barriers := t.barriers.modify b f }

/-- A phase completes; the flags of its passes are those that its BARWs join (R65). -/
def Barrier.complete (x : Barrier) : Barrier :=
  { x with phase := x.phase + 1, arrived := 0, pending := 0, flags := keep 0 x.flags (x.phase + 1).toNat x.pending }

/-- An arrival; it completes the phase when enough groups have arrived. -/
def Barrier.arrive (x : Barrier) : Barrier :=
  if x.expect ≤ x.arrived + 1 then { x with arrived := x.arrived + 1 }.complete else { x with arrived := x.arrived + 1 }

/-- A new expected count. -/
def Barrier.expectNow (x : Barrier) (n : Nat) : Barrier :=
  if n ≤ x.arrived then { x with expect := n }.complete else { x with expect := n }

/-- The phase that a group has waited for. -/
def Group.waitedPhase (g : Group) (b : Nat) : Nat := look 0 g.waited b

/-- BARW of a group may return. -/
def Team.passes (t : Team) (g b : Nat) : Bool := (t.group g).waitedPhase b < (t.barrier b).phase.toNat

/-- A group consumes one phase: its waited phase rises, and the flags of the passes that signalled the phase enter FPFLAGS. -/
def State.consume (s : State) (team g b : Nat) (tids : List Nat) : State :=
  match s.team? team with
  | none => s
  | some t =>
    let n := (t.group g).waitedPhase b + 1
    let fl := look 0 (t.barrier b).flags n
    let s1 := s.updTeam team fun t => t.updGroup g fun x => { x with waited := keep 0 x.waited b n }
    tids.foldl (fun s x => s.enterFlags team x fl) s1

/-- Groups that wait at a barrier whose phase has completed go on (R164). -/
def State.wakeBarrier (s : State) (team b : Nat) : State :=
  match s.team? team with
  | none => s
  | some t =>
    (List.range t.groups.length).foldl (fun s g =>
      let mine := ((t.groupThreads g).filter fun h => h.wait = .barrier b).map Thread.tid
      if mine.isEmpty || !t.passes g b then s
      else mine.foldl (fun s x => s.resumePast team x 0) (s.consume team g b mine)) s

/-- Sets a barrier and lets its waiters see it. -/
def State.setBarrier (s : State) (team b : Nat) (f : Barrier → Barrier) : State :=
  (s.updTeam team fun t => t.updBarrier b f).wakeBarrier team b

/-- A pass or MSIG completes the current phase (R165), with the flags that it delivers. -/
def State.signal (s : State) (team b : Nat) (fl : W32) : State :=
  s.setBarrier team b fun x => { x with pending := x.pending ||| fl }.complete

/-- Every earlier access of some lanes is performed. -/
def State.allQuiet (s : State) (team : Nat) (l : List Nat) : Bool := l.all fun x => s.quiet team x

/-- Every earlier access of some lanes is performed towards the team: a store has left its queue, and the rest is over (R18, R19). -/
def State.teamSees (s : State) (team : Nat) (l : List Nat) : Bool :=
  l.all fun x => (s.reqsOf team x).all fun r => r.settled || (r.kind = .store && r.stage ≠ .queued)

/-- BARA (R164): release at team scope, whose ordering point is the store queues (R19), then an arrival. -/
def execBara (w : BWord) (s : State) : Out :=
  issueGroups (w.form []) trapPartialMask (fun team _ l s =>
    if !s.teamSees team l then .hold else .ok (s.setBarrier team w.md.toNat Barrier.arrive)) s

/-- BARW (R164). -/
def execBarw (w : BWord) (s : State) : Out :=
  issueGroups { w.form [] with ends := true } trapPartialMask (fun team g l s =>
    match s.team? team with
    | none => .hold
    | some t =>
      if t.passes g w.md.toNat then .ok (s.consume team g w.md.toNat l) else .leave (.barrier w.md.toNat) s) s

/-- BARS (R164). -/
def execBars (w : BWord) (s : State) : Out :=
  issueGroups (w.form [spanA w 1]) trapPartialMask (fun team _ l s =>
    match s.thread? team (l.headD 0) with
    | none => .hold
    | some h =>
      let n := (h.reg w.a.toNat).toNat
      if n = 0 || 64 < n then .stop { code := trapIllegalOperand } s
      else .ok (s.setBarrier team w.md.toNat fun x => x.expectNow n)) s

/-! ## Ends (R166) -/

/-- EXIT (R166). -/
def execExit (w : BWord) (s : State) : Out :=
  afterIssue (issueLanes { w.form [] with ends := true } (fun team tid s =>
    match s.thread? team tid with
    | none => .hold
    | some h =>
      if !h.held.isEmpty then .stop { code := trapRoomState } s
      else .moved (s.updThread team tid fun h => { h with exited := true })) s) s State.closeSlots

/-! ## Launches (R167, R122) -/

/-- A lane's launch record: its bytes, or what stops it. -/
def launchBytes (t : Team) (h : Thread) (va : W64) (s : State) : Found (List Byte) :=
  if va.toNat % 256 ≠ 0 then .stop { code := trapAlign, va := va } s
  else
    match t.reachNow s h va 256 {} with
    | (.error x, s1) => .stop x s1
    | (.ok none, s1) => .park s1
    | (.ok (some ps), s1) =>
      let r := s1.readParts (clusterUnit t.cluster) ps
      .got r.2 r.1

/-- The task-queue entry of a child. -/
def childTask (t : Team) (va : W64) (b : List Byte) : Task :=
  { die := t.die, addr := va, asid := t.asid, bytes := b, origin := .thread t.id, cls := fieldOf b 25 1 }

/-- One lane's launch; `full` is what it does without room. The earlier accesses of the lane come first (R16). -/
def launchLane (a : Nat) (room : State → State) (full : State → Res) (t : Team) (h : Thread) (s : State) : Res :=
  if !s.quiet t.id h.tid then .hold else
  let va := h.pair a
  match launchBytes t h va s with
  | .stop x s1 => .stop x s1
  | .park s1 => s1.waitOrPark t h
  | .got b s1 =>
    if s1.taskRoom t.die then
      .okId (BitVec.ofNat 32 (s1.queued t.die)) (room (s1.enqueue (childTask t va b)))
    else full s1

/-- LAUNCH (R167): a lane without room parks, which is a yield point (R105, R122). -/
def execLaunch (w : BWord) (s : State) : Out :=
  let parks (s1 : State) (team : Nat) : State :=
    let now := (s1.team? team).map fun t => t.threads.any fun h => match h.wait with
      | .taskQueue n => s.nextId ≤ n
      | _ => false
    let runs := (s.issuer.map fun x => x.1.runs x.2).getD false
    if now = some true && runs then s1.yieldPoint team else s1
  afterIssue (issueLanes { w.form [spanA w 2] with ends := true } (withLane fun t h s1 =>
    launchLane w.a.toNat id (fun s2 => .leave (.taskQueue s2.nextId) s2.fresh) t h s1) s) s parks

/-- LAUNCHT (R167). -/
def execLauncht (w : BWord) (s : State) : Out :=
  issueLanes { w.form [spanA w 2] with ends := true } (withLane fun t h s1 =>
    let told (v : Bool) (s : State) : State := s.updThread t.id h.tid fun x => x.setPred w.md.toNat v
    launchLane w.a.toNat (told true) (fun s2 => .ok (told false s2)) t h s1) s

/-! ## Traps and their return (R168-R171) -/

/-- A trap that an instruction raises after it has executed: the saved PC record is the next header (R168, R169). -/
def raiseTrap (code n : Nat) (act : Thread → Thread) (team tid : Nat) (s : State) : Res :=
  match s.team? team, s.thread? team tid with
  | some t, some h =>
    match s.handlerStop t h with
    | some c => .stop { code := c } s
    | none =>
      let go (x : Thread) : Thread := (act x).goto x.nextAddr 0
      if h.takesUser then .moved (s.updThread team tid fun x => (go x).enterUser code (go x).pc 0 n)
      else .stop { code := code } (s.updThread team tid go)
  | _, _ => .hold

/-- TRAP (R168). -/
def execTrap (w : BWord) (s : State) : Out :=
  issueLanes { w.form [] with ends := true } (raiseTrap trapUser w.md.toNat (Thread.setUserCode · w.md.toNat)) s

/-- RAISE (R168). -/
def execRaise (w : BWord) (s : State) : Out :=
  issueLanes { w.form [spanA w 2] with dsts := [{ r := 4, n := 2 }], ends := true }
    (raiseTrap trapException 0 fun h => h.setPair 4 (h.pair w.a.toNat)) s

/-- BRK (R168): the PC record stays at the BRK. -/
def execBrk (w : BWord) (s : State) : Out :=
  issueLanes { w.form [] with ends := true } (fun team tid s =>
    .stop { code := trapBreak } (s.updThread team tid fun h => h.setUserCode w.md.toNat)) s

/-- TRET (R170). -/
def execTret (w : BWord) (s : State) : Out :=
  let pad := bitOf w.md.toNat 1
  issueTransfer (transferForm w (if pad then [spanA w 2] else []) []) none
    (fun h => h.leaveUser h.pc h.idx) (fun t h s =>
      if !h.tcause.getLsbD 12 then (.stop { code := trapIllegalOperand }, s)
      else if pad then checkedGoal t h s (h.pair w.a.toNat) 0
      else checkedGoal t h s h.savedPc.1 h.savedPc.2) false s

/-- TFENCE (R171). -/
def execTfence (w : BWord) (s : State) : Out :=
  issueLanes (w.form []) (fun team tid s =>
    match s.thread? team tid with
    | none => .hold
    | some h =>
      if !h.empty.isEmpty then .hold
      else if h.fpflags &&& h.fpenable ≠ 0 then .stop { code := trapArith } s
      else .ok s) s

/-! ## ROLE and TMRSET (R176, R110, R172) -/

/-- ROLE (R176): the group switches at the end of its clause. -/
def execRole (w : BWord) (s : State) : Out :=
  issueGroups (w.form []) trapRolePartial (fun team g _ s =>
    match s.team? team with
    | none => .hold
    | some t =>
      if t.launch.roles.length ≤ w.md.toNat then .stop { code := trapIllegalOperand } s
      else .ok (s.updTeam team fun t => t.updGroup g fun x => { x with next := some w.md.toNat })) s

/-- The switch of R110, once every thread of the group has come to the end of the clause, no register is empty and every line of the group
is in the register cache. The lines of a larger allotment push others out (R113). -/
def State.switchRole (s : State) (team g n : Nat) : State :=
  match s.team? team with
  | none => s
  | some t =>
    let live := (t.groupThreads g).filter fun h => !h.exited
    if !(live.all fun h => h.wait = .role n) || live.any (fun h => !h.empty.isEmpty) then s
    else
      let s1 := live.foldl (fun s h => (t.lines h.tid).foldl (fun s l => s.bringLine team h.tid l) s) s
      let entry := ((t.launch.roles[n]?).map Role.entry).getD 0
      let allot := ((t.launch.roles[n]?).map Role.allot).getD 0
      let kept := 1 + (allot + 31) / 32
      let sw (h : Thread) : Thread :=
        { h.goto entry 0 with x := h.x.filter fun r => r.1 < allot, absent := h.absent.filter fun l => l < kept, wait := .ready }
      let out := live.any fun h => (t.lines h.tid).any fun l => ((s1.thread? team h.tid).map fun x => x.absent.contains l).getD false
      if out then s1 else
      ((((s1.updTeam team fun t =>
        { (t.updGroup g fun x => { x with role := n, next := none }) with
          threads := updWhere t.threads (fun h => t.groupOf h.tid = g && !h.exited) sw }).fitLines (t.coreOf ((live.map Thread.tid).headD 0))).arrive
          team (live.map Thread.tid))).stepStops
        team (live.map Thread.tid) []

/-- An instruction that acts for each group of the bundle from its lowest active lane, without convergence (R172, R179). -/
def issuePerGroup (f : Form) (body : Team → Thread → Nat → State → Res) (s : State) : Out :=
  match s.issuer with
  | none => .fault .noIssuer
  | some (b, t) =>
    match gate f t b.tids with
    | .stops l => .next (s.stopLanes t.id l)
    | .wait => .next (s.stall b)
    | .pass =>
      .next (s.runOn f t [b] (t.groupUnits b.tids (t.active f b.tids)) fun l s =>
        withLane (fun t h s => body t h (t.groupOf h.tid) s) t.id (l.headD 0) s)

/-- The group's timer comparator written. -/
def State.setTimer (s : State) (team g : Nat) (v : W64) : State := s.updTeam team fun t => t.updGroup g fun x => { x with tmrcmp := v }

/-- TMRSET (R172). -/
def execTmrset (w : IWord) (s : State) : Out :=
  let abs := bitOf w.md.toNat 0
  issuePerGroup (w.form (if abs then [w.srcA 2] else []) []) (fun t h g s =>
    let v := if abs then h.pair w.a.toNat else s.clock t.cluster + w.imm.setWidth 64
    .ok (s.setTimer t.id g v)) s

end Sys2Proof.Machine
end

