-- ==== Sys2Proof/Machine/SysOps.lean ====
section
/-! DEFINITION. The uniform and system block (08 R177-R180; 10 R211, R226): k registers, named states, invalidation of translations,
the team's address space, eviction marks and the start of a stream. -/

namespace Sys2Proof.Machine

open Sys2Proof

/-! ## Uniform registers (R177) -/

/-- The k registers of a 32-bit or 64-bit operand. -/
def kRegs (r : Nat) (wide : Bool) : List Nat := if wide then [r, r + 1] else [r]

/-- Step 6 on a k destination: k0 to k15 are not written, and a pair is named by its even register (R40). -/
def kDstBad (r : Nat) (wide : Bool) : Bool := r < 16 || (wide && r % 2 ≠ 0)

/-- Step 6 on a k source. -/
def kSrcBad (r : Nat) (wide : Bool) : Bool := wide && r % 2 ≠ 0

/-- A k operand as a number. -/
def Team.kVal (t : Team) (r : Nat) (wide : Bool) : Nat := if wide then (t.kpair r).toNat else (t.kreg r).toNat

def Team.setKVal (t : Team) (r : Nat) (wide : Bool) (v : Nat) : Team :=
  if wide then t.setKpair r (BitVec.ofNat 64 v) else t.setK r (BitVec.ofNat 32 v)

/-- An immediate: 32 bits, or sign-extended to 64. -/
def kImm (imm : W32) (wide : Bool) : Nat := if wide then (imm.signExtend 64).toNat else imm.toNat

/-- The form of a k operation: its destination and sources. -/
def kForm (d : Nat) (srcs : List Nat) (wide : Bool) : Form :=
  { bad := kDstBad d wide || srcs.any fun r => kSrcBad r wide, ks := (kRegs d wide) ++ (srcs.map fun r => kRegs r wide).flatten }

/-- A k destination written from the team. -/
def State.putK (s : State) (team d : Nat) (wide : Bool) (v : Team → Nat) : State :=
  s.updTeam team fun t => t.setKVal d wide (v t)

def KWord.wide (w : KWord) : Bool := bitOf w.md.toNat 0

/-- KMOV. -/
def execKmov (w : KWord) (s : State) : Out :=
  let x := KWord.wide w
  issueOnce (kForm w.kd.toNat [w.ka.toNat] x) (fun team s =>
    .ok (s.putK team w.kd.toNat x fun t => t.kVal w.ka.toNat x)) s

/-- KMOVI. -/
def execKmovi (w : KWord) (s : State) : Out :=
  let x := KWord.wide w
  issueOnce (kForm w.kd.toNat [] x) (fun team s => .ok (s.putK team w.kd.toNat x fun _ => kImm w.imm x)) s

/-- KADD. -/
def execKadd (w : KWord) (s : State) : Out :=
  let x := KWord.wide w
  issueOnce (kForm w.kd.toNat [w.ka.toNat, w.kb.toNat] x) (fun team s =>
    .ok (s.putK team w.kd.toNat x fun t => t.kVal w.ka.toNat x + t.kVal w.kb.toNat x + kImm w.imm x)) s

/-- The operation posted last is one of all these threads (R177). -/
def State.withMates (s : State) (tids : List Nat) : State :=
  { s with flight := { s.flight with
    ops := s.flight.ops.dropLast ++ (s.flight.ops.getLast?.map fun o => { o with mates := tids.filter fun x => x ≠ o.tid }).toList } }

/-- KLD: one load for the bundle, in the name of its lowest thread; a scope makes it an acquire (R177). -/
def execKld (w : KWord) (s : State) : Out :=
  let x := KWord.wide w
  let n := if x then 8 else 4
  let sc := bitsOf w.md.toNat 1 3
  let f : Form :=
    { bad := kDstBad w.kd.toNat x || kSrcBad w.ka.toNat true, ks := kRegs w.kd.toNat x ++ kRegs w.ka.toNat true }
  match s.issuer with
  | none => .fault .noIssuer
  | some (b, t0) =>
    issueOnce f (fun team s1 =>
      withLane (fun t h s2 =>
        let ea := t.kpair w.ka.toNat + w.imm.signExtend 64
        match loadLane t h s2 ea n { align := n } (if sc = 0 then 0 else 1) sc s.nextId (.kload (n / 4)) w.kd.toNat fun _ => .load with
        | .ok s3 => .ok ((s3.updTeam team fun t => { t with kWait := t.kWait ++ kRegs w.kd.toNat x }).withMates b.tids)
        | r => r) team (t0.lowest b.tids) s1) s

/-- KPUT: once for each group, from its lowest active lane (R43). -/
def execKput (w : IWord) (s : State) : Out :=
  let x := bitOf w.md.toNat 0
  let n := if x then 2 else 1
  let f := { w.form [w.srcA n] [] with bad := kDstBad w.d.toNat x, ks := kRegs w.d.toNat x }
  issueGroups f trapPartialMask (fun team _ l s =>
    match s.thread? team (l.headD 0) with
    | none => .hold
    | some h => .ok (s.putK team w.d.toNat x fun _ => h.regsNat w.a.toNat n)) s

/-- KGET. -/
def execKget (w : IWord) (s : State) : Out :=
  let x := bitOf w.md.toNat 0
  let n := if x then 2 else 1
  let r := bitsOf w.a.toNat 0 6
  issueThread { w.form [] [w.dst n] with bad := kSrcBad r x, ks := kRegs r x } (fun t h => h.setRegs w.d.toNat (t.kVal r x) n) s

/-! ## Named states (R99, R178, R179) -/

/-- A number names a state. -/
def isNamed (n : Nat) : Bool := n ≤ 0x1E && !([0x07, 0x0D, 0x0E, 0x0F].contains n)

/-- States of 64 bits. -/
def namedWide (n : Nat) : Bool := [0x12, 0x15, 0x16, 0x17, 0x18, 0x1A, 0x1C].contains n

/-- States that SWRITE may write, in some mode, and those that need supervisor mode. -/
def namedWritable (n : Nat) : Bool := [0x10, 0x11, 0x13, 0x14, 0x15, 0x16, 0x17, 0x1A, 0x1B, 0x1C, 0x1D, 0x1E].contains n
def namedPrivileged (n : Nat) : Bool := [0x10, 0x11, 0x1D, 0x1E].contains n

/-- The value of a named state as a thread reads it. -/
def namedValue (s : State) (t : Team) (h : Thread) (n : Nat) : Nat :=
  let core := t.coreOf h.tid
  match n with
  | 0x00 => h.tid
  | 0x01 => t.lane h.tid
  | 0x02 => t.groupOf h.tid
  | 0x03 => t.teamNo
  | 0x04 => t.teamNo % t.launch.gx
  | 0x05 => t.teamNo / t.launch.gx % t.launch.gy
  | 0x06 => t.teamNo / (t.launch.gx * t.launch.gy)
  | 0x08 => core
  | 0x09 => coreCluster core
  | 0x0A => coreDie core
  | 0x0B => deviceId s.ctl
  | 0x0C => t.role h.tid
  | 0x10 => t.dpf.toNat
  | 0x11 => t.wdog.toNat
  | 0x12 => (s.clock (coreCluster core)).toNat
  | 0x13 => h.fpflags.toNat
  | 0x14 => h.fpenable.toNat
  | 0x15 => h.prog.toNat
  | 0x16 => h.srkc.toNat
  | 0x17 => (t.group (t.groupOf h.tid)).tmrcmp.toNat
  | 0x18 => t.launch.dtBase.toNat
  | 0x19 => t.launch.dtLen.toNat
  | 0x1A => h.uhnd.toNat
  | 0x1B => h.tcause.toNat
  | 0x1C => h.tepc.toNat
  | 0x1D => t.asid.toNat
  | 0x1E => if h.priv then 1 else 0
  | _ => 0

/-- SREAD (R179). -/
def execSread (w : IWord) (s : State) : Out :=
  let n := w.imm.toNat
  let k := if namedWide n then 2 else 1
  issueThread { w.form [] [w.dst k] with bad := !isNamed n } (fun t h => h.setRegs w.d.toNat (namedValue s t h n) k) s

/-- Reserved bits of a named state (R64, R178). -/
def namedReserved (n v : Nat) : Bool :=
  match n with
  | 0x13 | 0x14 => 128 ≤ v
  | 0x1B => v &&& 0xFF00E000 ≠ 0
  | 0x1D => 65536 ≤ v
  | 0x1E => 2 ≤ v
  | _ => false

/-- A thread with one of its own named states written. -/
def Thread.writeNamed (h : Thread) (n v : Nat) : Thread :=
  match n with
  | 0x13 => { h with fpflags := BitVec.ofNat 32 v }
  | 0x14 => { h with fpenable := BitVec.ofNat 32 v }
  | 0x15 => { h with prog := BitVec.ofNat 64 v }
  | 0x16 => { h with srkc := BitVec.ofNat 64 v }
  | 0x1A => { h with uhnd := BitVec.ofNat 64 v }
  | 0x1B => { h with tcause := BitVec.ofNat 32 v }
  | 0x1C => { h with tepc := BitVec.ofNat 64 v }
  | 0x1E => { h with priv := bitOf v 0 }
  | _ => h

/-- A team with a named state of the team written. -/
def Team.writeNamed (t : Team) (n v : Nat) : Team :=
  match n with
  | 0x10 => { t with dpf := BitVec.ofNat 32 v }
  | 0x11 => { t with wdog := BitVec.ofNat 32 v }
  | _ => { t with asid := BitVec.ofNat 16 v }

/-- SWRITE (R179): the thread's own states lane by lane, TMRCMP for each group and the team's states once for the bundle from the
lowest active lane. -/
def execSwrite (w : IWord) (s : State) : Out :=
  let n := w.imm.toNat
  let k := if namedWide n then 2 else 1
  let f := { w.form [w.srcA k] [] with priv := namedPrivileged n, bad := !namedWritable n }
  if n = 0x17 then issuePerGroup f (fun t h g s => .ok (s.setTimer t.id g (h.pair w.a.toNat))) s
  else if [0x10, 0x11, 0x1D].contains n then
    match s.issuer with
    | none => .fault .noIssuer
    | some (b, t) =>
      match gate f t b.tids with
      | .stops l => .next (s.stopLanes t.id l)
      | .wait => .next (s.stall b)
      | .pass =>
        let acts := t.active f b.tids
        let units : List Unit_ := if acts.isEmpty then [] else [{ acts := acts, all := acts }]
        .next (s.runOn f t [b] units fun l s =>
          withLane (fun t h s =>
            let v := h.regsNat w.a.toNat k
            if namedReserved n v then .stop { code := trapIllegalOperand } s
            else .ok (s.updTeam t.id fun t => t.writeNamed n v)) t.id (l.headD 0) s)
  else
    issueLanes f (withLane fun t h s =>
      let v := h.regsNat w.a.toNat k
      if namedReserved n v then .stop { code := trapIllegalOperand } s
      else .ok (s.updThread t.id h.tid fun h => h.writeNamed n v)) s

/-! ## Privileged system instructions and MSTART (R180) -/

/-- TLBINV (R180, R211): a shoot-down over the extent; the bundle goes on once every unit that it concerns has acknowledged. -/
def execTlbinv (w : KWord) (s : State) : Out :=
  let f : Form :=
    { priv := true, bad := kSrcBad w.ka.toNat true, ks := kRegs w.ka.toNat true ++ [w.kb.toNat] }
  match s.issuer with
  | none => .fault .noIssuer
  | some (b, t) =>
    match gate f t b.tids with
    | .stops l => .next (s.stopLanes t.id l)
    | .wait => .next (s.stall b)
    | .pass =>
      match s.units.shoots.find? fun x => x.owner = some b.id with
      | none =>
        let n : Names := { kind := bitsOf w.md.toNat 0 2, vas := [bitsOf (t.kpair w.ka.toNat).toNat 0 57],
                           asid := (t.kreg w.kb.toNat).toNat % 65536 }
        .next (s.shootDown n (bitsOf w.md.toNat 2 2) (t.coreOf (t.lowest b.tids)) (some b.id) false)
      | some x =>
        if x.units.isEmpty then
          let s1 := { s with units := { s.units with shoots := s.units.shoots.filter fun y => y.id ≠ x.id } }
          .next (s1.finish f t.id [b] (b.idx t) { s := s1 })
        else .next (s.stall b)

/-- ASIDSET (R180). -/
def execAsidset (w : KWord) (s : State) : Out :=
  issueOnce { priv := true, ks := [w.ka.toNat] } (fun team s =>
    .ok (s.updTeam team fun t => { t with asid := (t.kreg w.ka.toNat).setWidth 16 })) s

/-- The resident team that a handle names; none when it is stale (R225). -/
def State.handle? (s : State) (handle : W32) : Option Team := s.teams.find? fun t => t.handle = handle

/-- Teams of one gang (R118). -/
def State.gangOf (s : State) (t : Team) : List Team := s.teams.filter fun x => x.grid = t.grid && x.gang = t.gang

/-- CTXEVICT (R226): marks the gang of a team that has a save area, or clears the marks of teams that are still in. -/
def execCtxevict (w : KWord) (s : State) : Out :=
  issueOnce { priv := true, ks := [w.ka.toNat] } (fun team s =>
    match s.team? team with
    | none => .hold
    | some me =>
      match s.handle? (me.kreg w.ka.toNat) with
      | none => .ok s
      | some t =>
        let mine (x : Team) : Bool := x.grid = t.grid && x.gang = t.gang
        if w.md = 0 then
          if t.saveArea.isNone then .stop { code := trapIllegalOperand } s
          else .ok { s with teams := updWhere s.teams mine fun x => { x with marked := true } }
        else .ok { s with teams := updWhere s.teams (fun x => mine x && !x.removed) fun x => { x with marked := false } }) s

/-- MSTART (R180, R251): the issuing threads' earlier accesses come first (R16). -/
def execMstart (w : KWord) (s : State) : Out :=
  let f : Form := { bad := kSrcBad w.ka.toNat true, ks := kRegs w.ka.toNat true }
  match s.issuer with
  | none => .fault .noIssuer
  | some (b, _) =>
    issueOnce f (fun team s =>
      match s.team? team with
      | none => .hold
      | some t =>
        if !s.allQuiet team b.tids then .hold
        else
          match s.context? t with
          | none => .stop { code := trapMatrixState } s
          | some p =>
            if p.busy then .stop { code := trapMatrixState } s
            else .ok (s.startStream p (t.kpair w.ka.toNat) none)) s

end Sys2Proof.Machine
end

