-- ==== Sys2Proof/Machine/CueEvents.lean ====
section
/-! DEFINITION. Running cues: starts and page marks (17 R317, R321), copies element by element (R318-R320), completion and faults
(R315, R330). -/

namespace Sys2Proof.Machine

open Sys2Proof

def Cue.cluster (c : Cue) : Nat := coreCluster c.core
def Cue.unit (c : Cue) : Nat := clusterUnit c.cluster

/-! ## Where the elements of a copy lie (R318, R319) -/

/-- Coordinates of box element `n`. -/
def boxAt (x : Shape) (n : Nat) : List Nat :=
  let e0 := x.ext 0
  let e1 := x.ext 1
  let e2 := x.ext 2
  [n % e0, n / e0 % e1, n / (e0 * e1) % e2, n / (e0 * e1 * e2)]

/-- Coordinates offset by an origin. -/
def plus (org : List W32) (i : List Nat) : List Nat := (List.range 4).map fun k => (org.getD k 0).toNat + i.getD k 0

/-- Inside the dims of a tensor. -/
def Shape.inside (x : Shape) (at_ : List Nat) : Bool := (List.range 4).all fun k => at_.getD k 0 < x.dim k

/-- Bit position of an element from the base. -/
def Shape.bitAt (x : Shape) (at_ : List Nat) : Nat :=
  8 * (at_.getD 1 0 * x.strides.getD 0 0 + at_.getD 2 0 * x.strides.getD 1 0 + at_.getD 3 0 * x.strides.getD 2 0)
    + at_.getD 0 0 * codeBits x.fmt

/-- Linear index of an element in its tensor (R320). -/
def Shape.linear (x : Shape) (at_ : List Nat) : Nat :=
  at_.getD 0 0 + x.dim 0 * (at_.getD 1 0 + x.dim 1 * (at_.getD 2 0 + x.dim 2 * at_.getD 3 0))

/-- Index of an element's scale word: blocks of 32 x 32 in dims 0 and 1, plane after plane (R71). -/
def Shape.scaleIndex (x : Shape) (at_ : List Nat) : Nat :=
  let cols := (x.dim 0 + 31) / 32
  let rows := (x.dim 1 + 31) / 32
  ((at_.getD 3 0 * x.dim 2 + at_.getD 2 0) * rows + at_.getD 1 0 / 32) * cols + at_.getD 0 0 / 32

/-- Elements of a box. -/
def Shape.total (x : Shape) : Nat := x.ext 0 * x.ext 1 * x.ext 2 * x.ext 3

def Cue.srcOrigin (c : Cue) : List W32 := if c.regDst then c.fixed else c.origin
def Cue.dstOrigin (c : Cue) : List W32 := if c.regDst then c.origin else c.fixed

/-- The source coordinates that feed a box element (R319). -/
def Cue.sourceOf (c : Cue) (src : Shape) (i : List Nat) : List Nat :=
  plus c.srcOrigin (if src.flag 0 then [i.getD 1 0, i.getD 0 0, i.getD 2 0, i.getD 3 0] else i)

/-! ## Bytes of a side -/

/-- Bytes of a side, from a byte offset to its base. -/
def sideRead (s : State) (c : Cue) (t : Team) (x : Shape) (off n : Nat) : Found (List Byte) :=
  if x.inSpad then
    let a := x.spadBase + off
    if t.launch.spadBytes < a + n then .stop { code := trapAccess, va := BitVec.ofNat 64 a } s else .got (t.spadBytesAt a n) s
  else engRead s c.unit c.asid (x.base + BitVec.ofNat 64 off) n c.marks

/-- Bytes written to a side. -/
def sideWrite (s : State) (c : Cue) (t : Team) (x : Shape) (off : Nat) (d : List Byte) : Found Unit :=
  if x.inSpad then
    let a := x.spadBase + off
    if t.launch.spadBytes < a + d.length then .stop { code := trapAccess, va := BitVec.ofNat 64 a, access := 1 } s
    else .got () (s.updTeam t.id fun y => y.spadPut a d)
  else engWrite s c.unit c.asid (x.base + BitVec.ofNat 64 off) d c.marks

/-- The code of an element of a side. -/
def sideCode (s : State) (c : Cue) (t : Team) (x : Shape) (at_ : List Nat) : Found Nat :=
  let b := codeBits x.fmt
  let p := x.bitAt at_
  match sideRead s c t x (p / 8) ((p % 8 + b + 7) / 8) with
  | .got l s1 => .got (bitsOf (ofBytes l) (p % 8) b) s1
  | .stop e s1 => .stop e s1
  | .park s1 => .park s1

/-- The code of an element written to a side; an element that shares its bytes with others leaves theirs as they are (R54). -/
def sidePut (s : State) (c : Cue) (t : Team) (x : Shape) (at_ : List Nat) (v : Nat) : Found Unit :=
  let b := codeBits x.fmt
  let p := x.bitAt at_
  let n := (p % 8 + b + 7) / 8
  if b % 8 = 0 then sideWrite s c t x (p / 8) (toBytes n v)
  else
    match sideRead s c t x (p / 8) n with
    | .got l s1 =>
      let o := ofBytes l
      let sh := p % 8
      sideWrite s1 c t x (p / 8) (toBytes n (o % 2 ^ sh + 2 ^ sh * (v % 2 ^ b) + o / 2 ^ (sh + b) * 2 ^ (sh + b)))
    | .stop e s1 => .stop { e with access := 1 } s1
    | .park s1 => .park s1

/-- The scale of an element of a scaled source, with the flags of its import (R72, R75). -/
def sideScale (s : State) (c : Cue) (arr : W64) (x : Shape) (at_ : List Nat) : Found (Scale × Flag) :=
  let va := arr + BitVec.ofNat 64 (2 * x.scaleIndex at_)
  match engRead s c.unit c.asid va 2 c.marks with
  | .got l s1 =>
    match scaleWord (ofBytes l) with
    | some r => .got r s1
    | none => .stop { code := trapMatrixFormat, va := va } s1
  | .stop e s1 => .stop e s1
  | .park s1 => .park s1

/-- The exact value of a source element; outside the dims it is +0 (R319, R320). -/
def sourceValue (s : State) (c : Cue) (t : Team) (x : Shape) (at_ : List Nat) : Found (Val × Flag) :=
  if !x.inside at_ then .got (.zero false, 0) s
  else
    match sideCode s c t x at_ with
    | .stop e s1 => .stop e s1
    | .park s1 => .park s1
    | .got v s1 =>
      if !x.scaled then .got (codeDecode [] x.fmt v, 0) s1
      else
        match sideScale s1 c c.srcScale x at_ with
        | .got (sc, f) s2 =>
          let r := scaleVal sc (codeDecode [] x.fmt v)
          .got (r.1, r.2 ||| f) s2
        | .stop e s2 => .stop e s2
        | .park s2 => .park s2

/-! ## One step of a copy -/

/-- What a step of a copy comes to. -/
inductive CopyStep where
  /-- Elements performed, with flags. -/
  | did (n : Nat) (f : Flag) (s : State)
  /-- The next element faults, after `n` that are performed. -/
  | fault (n : Nat) (f : Flag) (x : Stop) (s : State)
  | wait (s : State)

/-- A draw of the copy, where its mode takes one: the draw, or none while it waits (R320, R68). -/
def Cue.draw (c : Cue) (s : State) (dst : Shape) (at_ : List Nat) : Option Nat :=
  match c.rm with
  | 5 => (s.noise.reqs.find? fun r => r.who = Drawer.cue c.core c.slot && r.ready).map fun r => r.got.headD 0
  | 6 => some ((kcg c.key c.stream (BitVec.ofNat 64 (dst.linear at_))).toNat % 65536)
  | _ => some 0

/-- The write of an element checked, with nothing written: a draw is taken only for an element that is delivered (R67). -/
def sideReach (s : State) (c : Cue) (t : Team) (x : Shape) (at_ : List Nat) : Found Unit :=
  let b := codeBits x.fmt
  let p := x.bitAt at_
  let n := (p % 8 + b + 7) / 8
  if x.inSpad then
    let a := x.spadBase + p / 8
    if t.launch.spadBytes < a + n then .stop { code := trapAccess, va := BitVec.ofNat 64 a, access := 1 } s else .got () s
  else
    match engReach s c.unit c.asid (x.base + BitVec.ofNat 64 (p / 8)) n .write c.marks with
    | .got _ s1 => .got () s1
    | .stop e s1 => .stop e s1
    | .park s1 => .park s1

/-- The conversion of one element (R320): under rm 5 it takes one draw, an integer that goes to another integer format as well, because
R320 counts converted elements (log 65). -/
def convertElement (s : State) (c : Cue) (t : Team) (dst : Shape) (dx : List Nat) (v : Val) (f : Flag) : CopyStep :=
  match sideReach s c t dst dx with
  | .stop e s1 => .fault 0 0 e s1
  | .park s1 => .wait s1
  | .got _ s1 =>
    match c.draw s1 dst dx with
    | none => .wait (s1.postDraw (.new c.cluster t.id 2 c.tid (.cue c.core c.slot) 1))
    | some d =>
      let r := codeEncode [] dst.fmt c.rm d false v
      match sidePut s1 c t dst dx r.1 with
      | .got _ s2 =>
        .did 1 (f ||| r.2) { s2 with noise := { s2.noise with reqs := s2.noise.reqs.filter fun q => q.who ≠ Drawer.cue c.core c.slot } }
      | .stop e s2 => .fault 0 0 e s2
      | .park s2 => .wait s2

/-- One element of a copy that is not quantised (R319, R320). -/
def copyElement (s : State) (c : Cue) (t : Team) (src dst : Shape) : CopyStep :=
  let i := boxAt dst c.progress
  let sx := c.sourceOf src i
  let dx := plus c.dstOrigin i
  if !dst.inside dx then .did 1 0 s
  else if !dst.flag 4 then
    match (if src.inside sx then sideCode s c t src sx else .got 0 s) with
    | .stop e s1 => .fault 0 0 e s1
    | .park s1 => .wait s1
    | .got v s1 =>
      match sidePut s1 c t dst dx v with
      | .got _ s2 => .did 1 0 s2
      | .stop e s2 => .fault 0 0 e s2
      | .park s2 => .wait s2
  else
    match sourceValue s c t src sx with
    | .stop e s1 => .fault 0 0 e s1
    | .park s1 => .wait s1
    | .got (v, f) s1 => convertElement s1 c t dst dx v f

/-- Values of positions in turn. -/
def sourceValues (s : State) (c : Cue) (t : Team) (src : Shape) : List (Option (List Nat)) → Found (List Val × Flag)
  | [] => .got ([], 0) s
  | p :: r =>
    match (match p with
      | some sx => sourceValue s c t src sx
      | none => .got (.zero false, 0) s) with
    | .stop e s1 => .stop e s1
    | .park s1 => .park s1
    | .got v s1 =>
      match sourceValues s1 c t src r with
      | .got (l, f) s2 => .got (v.1 :: l, v.2 ||| f) s2
      | x => x

/-- The 32 x 32 block at column block `j` of the band that begins at box row `row`, quantised: the codes of its 1,024 places row by
row, its scale code, and the flags (R73, R320). -/
def blockCodes (s : State) (c : Cue) (t : Team) (src dst : Shape) (row : List Nat) (j : Nat) : Found (List Nat × Nat × Flag) :=
  let spots := (List.range 1024).map fun k => [32 * j + k % 32, row.getD 1 0 + k / 32, row.getD 2 0, row.getD 3 0]
  let inBox (p : List Nat) : Bool := p.getD 0 0 < dst.ext 0 && p.getD 1 0 < dst.ext 1 && dst.inside (plus c.dstOrigin p)
  match sourceValues s c t src (spots.map fun p => if inBox p then some (c.sourceOf src p) else none) with
  | .stop e s1 => .stop e s1
  | .park s1 => .park s1
  | .got (vs, f) s1 =>
    let q := quantise [] dst.fmt vs
    .got (q.1, q.2.1, f ||| q.2.2) s1

/-- The blocks of a band from column block `j` on, `n` at most, up to the first whose source cannot be read. -/
def bandCodes (s : State) (c : Cue) (t : Team) (src dst : Shape) (row : List Nat) (j : Nat) :
    Nat → List (List Nat × Nat × Flag) × Found Unit
  | 0 => ([], .got () s)
  | n + 1 =>
    match blockCodes s c t src dst row j with
    | .stop e s1 => ([], .stop e s1)
    | .park s1 => ([], .park s1)
    | .got q s1 =>
      let r := bandCodes s1 c t src dst row (j + 1) n
      (q :: r.1, r.2)

/-- Element `k` of a band, counted in box order from the band's first row: the first element of a block writes its scale word too. -/
def putQuantised (s : State) (c : Cue) (t : Team) (dst : Shape) (row : List Nat) (blocks : List (List Nat × Nat × Flag)) (k : Nat) :
    Found Unit :=
  let col := k % dst.ext 0
  let line := k / dst.ext 0
  let q := blocks.getD (col / 32) ([], 0, 0)
  let dx := plus c.dstOrigin [col, row.getD 1 0 + line, row.getD 2 0, row.getD 3 0]
  if !dst.inside dx then .got () s
  else
    match (if line = 0 && col % 32 = 0 then
        engWrite s c.unit c.asid (c.dstScale + BitVec.ofNat 64 (2 * dst.scaleIndex dx)) (toBytes 2 q.2.1) c.marks
      else .got () s) with
    | .got _ s1 => sidePut s1 c ((s1.team? t.id).getD t) dst dx (q.1.getD (32 * line + col % 32) 0)
    | x => x

/-- Elements of a band from `k` on, `n` at most, up to the first that cannot be written: how many are performed, and what ended it. -/
def putBand (s : State) (c : Cue) (t : Team) (dst : Shape) (row : List Nat) (blocks : List (List Nat × Nat × Flag)) (k : Nat) :
    Nat → Nat × Found Unit
  | 0 => (0, .got () s)
  | n + 1 =>
    match putQuantised s c t dst row blocks k with
    | .got _ s1 =>
      let r := putBand s1 c t dst row blocks (k + 1) n
      (r.1 + 1, r.2)
    | x => (0, x)

/-- A step of a copy with a scaled destination: what is left of a band of 32 rows. The elements of a block need its whole source, so a
source that cannot be read is a fault at the first element of its block; the elements before the one that faults are performed (R330). -/
def copyBand (s : State) (c : Cue) (t : Team) (src dst : Shape) : CopyStep :=
  let i := boxAt dst c.progress
  let row := [0, i.getD 1 0 / 32 * 32, i.getD 2 0, i.getD 3 0]
  let from_ := (i.getD 1 0 % 32) * dst.ext 0 + i.getD 0 0
  let rows := min 32 (dst.ext 1 - row.getD 1 0)
  let b := bandCodes s c t src dst row 0 ((dst.ext 0 + 31) / 32)
  let f := (b.1.map fun q => q.2.2).foldl (· ||| ·) 0
  match b.2 with
  | .park _ => .wait s
  | .got _ s1 =>
    match putBand s1 c t dst row b.1 from_ (dst.ext 0 * rows - from_) with
    | (n, .got _ s2) => .did n f s2
    | (n, .stop e s2) => .fault n f e s2
    | (_, .park _) => .wait s
  | .stop e s1 =>
    match putBand s1 c t dst row b.1 from_ (32 * b.1.length - from_) with
    | (n, .got _ s2) => .fault n f e s2
    | (n, .stop e2 s2) => .fault n f e2 s2
    | (_, .park _) => .wait s

/-- The next step of a copy: an element, or under a scaled destination the rest of a band. -/
def copyStep (s : State) (c : Cue) (t : Team) (src dst : Shape) : CopyStep :=
  if dst.flag 4 && dst.scaled then copyBand s c t src dst else copyElement s c t src dst

/-- An ACTIVE copy that has begun and has elements left, with its team and shapes; one that writes the scratchpad of a removed team has
stopped (R228, R331). -/
def State.copying (s : State) (core slot : Nat) : Option (Cue × Team × Shape × Shape) :=
  match s.cue? core slot with
  | none => none
  | some c =>
    match s.team? c.team, c.src, c.dst with
    | some t, some x, some y =>
      if c.st = .active && c.kind = .copy && c.started && c.progress < y.total
          && !(t.removed && y.inSpad) then some (c, t, x, y) else none
    | _, _, _ => none

/-- A copy performs its next step; one that would fault does nothing here (see CUE_FAULT). -/
def State.copyTurn (s : State) (core slot : Nat) : State :=
  match s.copying core slot with
  | none => s
  | some (c, t, x, y) =>
    match copyStep s c t x y with
    | .did n f s1 => s1.updCue core slot fun z => { z with progress := z.progress + n, flags := z.flags ||| f }
    | .wait s1 => s1
    | .fault _ _ _ _ => s

/-! ## Marks (R210, R321) -/

/-- Pages, by steps of 4 KiB, of `n` bytes at an address. -/
def pagesOf (va : W64) (n : Nat) : List W64 :=
  if n = 0 then [] else
  let first := va.toNat / 4096
  (List.range ((va.toNat + n - 1) / 4096 - first + 1)).map fun i => BitVec.ofNat 64 (4096 * (first + i))

/-- Pages that a side's box touches. -/
def Shape.pages (x : Shape) (org : List W32) : List W64 :=
  let rows := (List.range (x.ext 1 * x.ext 2 * x.ext 3)).map fun r =>
    plus org [0, r % x.ext 1, r / x.ext 1 % x.ext 2, r / (x.ext 1 * x.ext 2)]
  (rows.map fun p =>
    if !x.inside p then [] else
    let a := x.bitAt p
    let m := min (x.ext 0) (x.dim 0 - p.getD 0 0)
    let lo := a / 8
    pagesOf (x.base + BitVec.ofNat 64 lo) ((a + m * codeBits x.fmt + 7) / 8 - lo)).flatten.eraseDups

/-- The leaf entries that map the page of an address, read afresh: its own, or all sixteen of its S64 block (R207, R210). -/
def leafEntries (s : State) (asid : BitVec 16) (va : W64) : Except Stop (List Nat) :=
  let v := bitsOf va.toNat 0 57
  match walk s 0 asid.toNat v with
  | .error x => .error { x with va := va }
  | .ok x =>
    let root := bitsOf (s.peekLe ((s.ctl.reg 0x08).toNat + 16 * asid.toNat) 8) 12 40 * 4096
    if walkLevel s v root 5 1 = 5 ∧ bitOf x.attr 4 then .ok ((List.range 16).map fun i => x.leaf / 128 * 128 + 8 * i) else .ok [x.leaf]

/-- What marking comes to: the leaf entries with the pages, a fault, or a page that another cue holds marked. -/
def leavesOf (s : State) (asid : BitVec 16) : List W64 → Except Stop (Option (List (Nat × W64)))
  | [] => .ok (some [])
  | p :: r =>
    match leafEntries s asid p with
    | .error x => .error x
    | .ok es =>
      if es.any fun a => bitOf (s.peekLe a 8) 7 || bitOf (s.peekLe a 8) 8 then .ok none
      else
        match leavesOf s asid r with
        | .ok (some l) => .ok (some (es.map (fun a => (a, p)) ++ l))
        | e => e

/-- A leaf entry marked: bit 7 transit-in, bit 8 transit-out. -/
def State.markLeaf (s : State) (leaf bitNo : Nat) : State :=
  let e := s.peekLe leaf 8
  s.writeNow leaf (toBytes 8 (if bitOf e bitNo then e else e + 2 ^ bitNo)) false

/-- Pages that a copy marks transit-out and transit-in. -/
def Cue.transits (c : Cue) : List W64 × List W64 :=
  match c.src, c.dst with
  | some x, some y => (if x.flag 1 then x.pages c.srcOrigin else [], if y.flag 2 then y.pages c.dstOrigin else [])
  | _, _ => ([], [])

/-! ## Starts, completion and faults -/

/-- A step of a cue that is no element: it is done, it faults, or it waits. -/
inductive CueStep where
  | did (s : State)
  | fault (x : Stop) (restart : Bool) (s : State)
  | wait

/-- Classes that restart a cue (R330). -/
def cueRestarts (code : Nat) : Bool := [trapPageFault, trapAccess, trapLostLine].contains code

/-- A copy begins: it first marks its pages and waits for their shoot-down (R210, R321). -/
def startCopy (s : State) (c : Cue) : CueStep :=
  let begin_ (x : State) : CueStep := .did (x.updCue c.core c.slot fun y => { y with started := true })
  match c.shoot with
  | some id => if s.units.shoots.any fun x => x.id = id then .wait else begin_ s
  | none =>
    let (out, inn) := c.transits
    if out.isEmpty && inn.isEmpty then begin_ s
    else
      match leavesOf s c.asid out, leavesOf s c.asid inn with
      | .error x, _ => .fault x (cueRestarts x.code) s
      | .ok none, _ => .wait
      | .ok (some _), .error x => .fault x (cueRestarts x.code) s
      | .ok (some _), .ok none => .wait
      | .ok (some lo), .ok (some li) =>
        let s2 := (lo.map Prod.fst).eraseDups.foldl (fun s a => s.markLeaf a 8) s
        let s3 := (li.map Prod.fst).eraseDups.foldl (fun s a => s.markLeaf a 7) s2
        let l := lo ++ li
        let n : Names := { kind := 0, vas := ((l.map fun x => bitsOf x.2.toNat 0 57)).eraseDups, asid := c.asid.toNat }
        .did ((s3.shootDown n 3 c.core none false).updCue c.core c.slot fun y =>
          { y with marks := (l.map Prod.fst).eraseDups, shoot := some s3.nextId })

/-- A walker cue reads its job record again and joins the line of the context that the record names (R290). -/
def startWalker (s : State) (c : Cue) : CueStep :=
  if s.cues.any fun x => x.kind = .walker && x.st = .active && !x.started && x.cluster = c.cluster && x.order < c.order then .wait
  else
    match engReadLong s c.unit c.asid c.recA 4 with
    | .stop x s1 => .fault x (cueRestarts x.code) s1
    | .park _ => .wait
    | .got b s1 =>
      let job : JobLine := { cluster := c.cluster, ctx := fieldOf b 13 1 % 4, core := c.core, slot := c.slot, record := b, saved := false }
      .did ({ s1 with walk := { s1.walk with jobs := s1.walk.jobs ++ [job] } }.updCue c.core c.slot fun y => { y with started := true })

/-- A launch cue reads its record and enqueues it when the task queue has room (R317). -/
def startLaunch (s : State) (c : Cue) : CueStep :=
  if !s.taskRoom (coreDie c.core) then .wait
  else
    match engReadLong s c.unit c.asid c.recA 4 with
    | .stop x s1 => .fault x (cueRestarts x.code) s1
    | .park _ => .wait
    | .got b s1 =>
      let k : Task := { die := coreDie c.core, addr := c.recA, asid := c.asid, bytes := b, origin := .cue c.core c.slot c.gen, cls := c.cls }
      .did ((s1.enqueue k).updCue c.core c.slot fun y => { y with started := true })

/-- A stream cue starts the team's context once it is idle (R317). -/
def startStreamCue (s : State) (c : Cue) : CueStep :=
  match (s.team? c.team).bind fun t => s.context? t with
  | none => .fault { code := trapMatrixState } false s
  | some p =>
    if p.busy then .wait
    else .did ((s.startStream p c.recA (some (c.core, c.slot))).updCue c.core c.slot fun y => { y with started := true })

/-- How an ACTIVE cue that has not started begins; a team that is out starts nothing (R331). -/
def State.startStep (s : State) (c : Cue) : CueStep :=
  if c.st ≠ .active || c.started || (((s.team? c.team).map Team.removed).getD true) then .wait
  else
    match c.kind with
    | .copy => startCopy s c
    | .walker => startWalker s c
    | .launch => startLaunch s c
    | .stream => startStreamCue s c

/-- Everything that a cue performs is performed; only the increment is left. -/
def Cue.performed (c : Cue) : Bool :=
  c.started && (c.counting || (c.kind = .copy && ((c.dst.map fun y => decide (y.total ≤ c.progress)).getD false)))

/-- The increment of a cue's counter with release at its scope, then DONE: marks are cleared and successors decremented in the order of
their edges (R315, R321). -/
def State.completeStep (s : State) (c : Cue) : CueStep :=
  if c.st ≠ .active || !c.performed then .wait
  else
    match engReach s c.unit c.asid c.counter 8 .rmw c.marks with
    | .stop x s1 => .fault x (cueRestarts x.code) s1
    | .park _ => .wait
    | .got ps s1 =>
      let key := (ps.map Part.key).headD 0
      let v := (s1.peekLe key 8 + 1) % 2 ^ 64
      let s2 := (s1.writeNow key (toBytes 8 v) (ps.any Part.nc)).noteJoin
        { key := key, value := v, team := c.team, core := c.core, scope := c.scope, flags := c.flags }
      let s3 := (s2.unmark c).fresh.updCue c.core c.slot fun y => { y with st := .done, ended := s.nextId }
      .did (c.edges.foldl (fun s e => s.decrement e.1 e.2.1 e.2.2) s3)

/-- CUE_START (R315): an ACTIVE cue obtains what it needs and begins. -/
def execCueStart (core slot : Nat) (s : State) : Out :=
  match s.cue? core slot with
  | none => .next s
  | some c =>
    match s.startStep c with
    | .did s1 => .next s1
    | _ => .next s

/-- CUE_COMPLETION (R315): a cue whose last element is performed increments its counter and becomes DONE. -/
def execCueCompletion (core slot : Nat) (s : State) : Out :=
  match s.cue? core slot with
  | none => .next s
  | some c =>
    match s.completeStep c with
    | .did s1 => .next s1
    | _ => .next s

/-- A cue becomes FAULTED, with its record (R330). -/
def State.faultCue (s : State) (c : Cue) (x : Stop) (restart : Bool) : State :=
  let t := s.team? c.team
  let handle := (t.map Team.handle).getD 0
  let ident := (t.map c.ident).getD 0
  let r : TrapRec :=
    { sub := 0, die := coreDie c.core, handle := handle, team := c.team, tid := c.tid, code := trapCueFault, kind := 2, restart := restart,
      mask := 0, pc := 0, idx := 0, under := x.code, access := x.access, level := x.level, ident := ident, va := x.va,
      progress := BitVec.ofNat 64 (s.cueProgress c), written := false }
  (s.updCue c.core c.slot fun y => { y with st := .faulted, restartable := restart }).stopEngine r

/-- CUE_FAULT (R330): the next thing that an ACTIVE cue does faults, so it stops with its progress. -/
def execCueFault (core slot : Nat) (s : State) : Out :=
  match s.cue? core slot with
  | none => .next s
  | some c =>
    match s.startStep c, s.completeStep c, s.copying core slot with
    | .fault x r s1, _, _ => .next (s1.faultCue c x r)
    | _, .fault x r s1, _ => .next (s1.faultCue c x r)
    | _, _, some (_, t, x, y) =>
      match copyStep s c t x y with
      | .fault n f e s1 =>
        let c1 := { c with progress := c.progress + n, flags := c.flags ||| f }
        .next ((s1.updCue core slot fun z => { z with progress := c1.progress, flags := c1.flags }).faultCue c1 e (cueRestarts e.code))
      | _ => .next s
    | _, _, _ => .next s

end Sys2Proof.Machine
end

