-- ==== Sys2Proof/Machine/StreamOps.lean ====
section
/-! DEFINITION. The Prompter (12 R251-R257, 13 R258-R280): how a context fetches its stream and stops, operand words, and the words
that the context carries out itself. -/

namespace Sys2Proof.Machine

open Sys2Proof

/-! ## Engines -/

/-- A cluster's matrix engine. -/
def State.engine (s : State) (cluster : Nat) : Engine :=
  (s.mx.engines.find? fun e => e.cluster = cluster).getD { cluster := cluster, acc := [], tags := [], reuse := none, table := [] }

def State.setEngine (s : State) (e : Engine) : State :=
  { s with mx := { s.mx with engines := e :: s.mx.engines.filter fun x => x.cluster ≠ e.cluster } }

/-- Entries of one context in the reservation table, oldest first. -/
def State.passesOf (s : State) (cluster ctx : Nat) : List Pass := (s.engine cluster).table.filter fun x => x.ctx = ctx

def State.updPass (s : State) (cluster id : Nat) (f : Pass → Pass) : State :=
  let e := s.engine cluster
  s.setEngine { e with table := updWhere e.table (fun x => x.id = id) f }

def Engine.word (e : Engine) (row col : Nat) : W32 := look 0 e.acc (128 * row + col)

/-- A row written, column 0 first. -/
def Engine.setRow (e : Engine) (row : Nat) (l : List W32) : Engine :=
  { e with acc := (l.zip (List.range 128)).foldl (fun m p => keep 0 m (128 * row + p.2) p.1) e.acc }

/-! ## Effective classes (06 R121) -/

/-- The least class of the ARMED cues that wait on a cue through its edges. -/
def State.waitClass (s : State) (c : Cue) : Nat → Nat
  | 0 => 256
  | n + 1 => c.edges.foldl (fun m e =>
      match s.cue? e.1 e.2.1 with
      | some x => if x.gen = e.2.2 then min m (min (if x.st = .armed then x.cls else 256) (s.waitClass x n)) else m
      | none => m) 256

/-- The effective class of a cue. -/
def State.cueClass (s : State) (c : Cue) : Nat := min c.cls (s.waitClass c s.cues.length)

/-- The effective class of work of a team whose own class is `own`: that, or that of the node which the team runs while the node is ACTIVE
or FAULTED. -/
def State.raisedClass (s : State) (t : Team) (own : Nat) : Nat :=
  let node (core slot gen : Nat) : Nat :=
    match s.cue? core slot with
    | some c => if c.gen = gen && (c.st = .active || c.st = .faulted) then s.cueClass c else 256
    | none => 256
  match (s.dist.grids.find? fun g => g.id = t.grid).map Grid.origin with
  | some (.cue core slot gen) => min own (node core slot gen)
  | _ => own

/-- The effective class of a team. -/
def State.teamClass (s : State) (t : Team) : Nat := s.raisedClass t t.launch.cls

/-- The effective class of a bundle: the base class of its threads' role, raised as its team's is (R104, R110, R121). -/
def State.bundleClass (s : State) (t : Team) (b : Bundle) : Nat :=
  s.raisedClass t (((t.launch.roles[t.role (b.tids.headD 0)]?).map Role.cls).getD t.launch.cls)

/-! ## Stops and idling (R255, R259, R260, R279) -/

/-- The record of a stream word or a pass (R219). -/
def streamRecord (t : Team) (hdr : W64) (idx : Nat) (x : Stop) (progress : Nat) : TrapRec :=
  { sub := 0, die := t.die, handle := t.handle, team := t.id, tid := 0, code := x.code, kind := 1, restart := restartable x.code,
    mask := 0, pc := hdr, idx := idx, under := 0, access := x.access, level := x.level, ident := 0, va := x.va,
    progress := BitVec.ofNat 64 progress, written := false }

/-- The context stops at its word, which action 0 executes again from its start (R260); that its phase has been consumed stays noted
(`wbDone`; log 78). -/
def State.streamStop (s : State) (p : Prompter) (t : Team) (x : Stop) : State :=
  (s.updContext p.cluster p.ctx fun y => { y with st := .stopped, staged := none, stagedFrom := none }).stopEngine
    (streamRecord t p.hdr p.idx x 0)

/-- A context that fetches no more becomes idle when its last pass has completed; a cue that started the stream then completes, or is
KILLED where a kill has reached it (R327). -/
def State.settleIdle (s : State) (cluster ctx : Nat) : State :=
  match s.mx.ctxs.find? fun p => p.cluster = cluster && p.ctx = ctx with
  | none => s
  | some p =>
    if p.st ≠ .ending || !(s.passesOf cluster ctx).isEmpty then s
    else
      let s1 := s.updContext cluster ctx fun y => { y with st := .idle, cue := none, staged := none, stagedFrom := none }
      match p.cue with
      | some (core, slot) =>
        match s1.cue? core slot with
        | none => s1
        | some c =>
          if c.kind ≠ .stream || !c.started || c.st ≠ .active then s1
          else if c.killing then s1.endKill c p.flags
          else s1.updCue core slot fun c => { c with counting := true, flags := c.flags ||| p.flags }
      | none => s1

/-- MATRIX_ILLEGAL (R50, R224, R259): every thread of the team takes the trap at its next boundary; posted passes run on; a cue that
started the stream faults. -/
def State.streamIllegal (s : State) (p : Prompter) (t : Team) : State :=
  let hit := (t.threads.filter fun h => !h.exited).map Thread.tid
  let s1 := hit.foldl (fun s x => s.updLine0 t.id x fun h => { h with pendMatrix := true }) s
  let s2 := s1.updContext p.cluster p.ctx fun y => { y with st := .ending, cue := none, staged := none, stagedFrom := none }
  let s3 := match p.cue with
    | some (core, slot) => match s2.cue? core slot with
      | some c => s2.faultCue c { code := trapMatrixIllegal } false
      | none => s2
    | none => s2
  s3.settleIdle p.cluster p.ctx

/-! ## Fetching the stream (R50, R251) -/

/-- A header of the stream. -/
def streamHeaderOk (w : W64) : Bool :=
  isHeader w && (headerOf w).cls = 2 && (headerOf w).lowZero && w.extractLsb' 36 14 = 0

/-- The words that end their clause (R279). -/
def endsStream : Instr → Bool
  | .mjmp _ | .mloop _ | .mend _ => true
  | _ => false

/-- A running context reads its next header, or its next word and decodes it. -/
def State.prompterReady (s : State) (cluster ctx : Nat) : Ready :=
  match s.mx.ctxs.find? fun p => p.cluster = cluster && p.ctx = ctx with
  | none => .done s
  | some p =>
    match s.team? p.team with
    | none => .done s
    | some t =>
      if p.st ≠ .running || t.removed then .done s
      else
        let va := if p.count = 0 then p.hdr else p.hdr + BitVec.ofNat 64 (8 + 8 * p.idx)
        match s.fetch (clusterUnit cluster) t.asid false va with
        | (.error x, s1) => .done (s1.streamStop p t x)
        | (.ok w, s1) =>
          if p.count = 0 then
            (if streamHeaderOk w then .done (s1.updContext cluster ctx fun y => { y with count := (headerOf w).count })
             else .done (s1.streamIllegal p t))
          else
            match decodeStream w with
            | .error _ => .done (s1.streamIllegal p t)
            | .ok i =>
              if endsStream i ∧ p.idx + 1 < p.count then .done (s1.streamIllegal p t)
              else .run i { s1 with cur := .prompter cluster ctx }

/-- The context that issues, and its team. -/
def State.streamIssuer (s : State) : Option (Prompter × Team) :=
  match s.cur with
  | .prompter cluster ctx =>
    match s.mx.ctxs.find? fun p => p.cluster = cluster && p.ctx = ctx with
    | some p => (s.team? p.team).map fun t => (p, t)
    | none => none
  | _ => none

/-! ## Running a word (R260) -/

/-- What a word comes to. -/
inductive WordEnd where
  | done (s : State)
  | wait (s : State)
  | stop (x : Stop) (s : State)
  | illegal (s : State)
  /-- The stream goes on at another header. -/
  | jump (hdr : W64) (s : State)

/-- The context behind its word. -/
def Prompter.advance (p : Prompter) : Prompter :=
  let q := { p with wbDone := false, staged := none, stagedFrom := none }
  if p.idx + 1 < p.count then { q with idx := p.idx + 1 }
  else { q with hdr := p.hdr + BitVec.ofNat 64 (8 + 8 * p.count), idx := 0, count := 0 }

/-- The phase of a barrier that a context can consume (R165). -/
def Prompter.phaseReady (p : Prompter) (t : Team) (b : Nat) : Bool := (look 0 p.consumed b).toNat < (t.barrier b).phase.toNat

def Prompter.consume (p : Prompter) (b : Nat) : Prompter := { p with consumed := keep 0 p.consumed b (look 0 p.consumed b + 1) }

/-- The oldest entry of a context that is not granted consumes a phase of its wb (R252, R260). -/
def State.consumePasses (s : State) (cluster ctx : Nat) : State :=
  match s.mx.ctxs.find? fun p => p.cluster = cluster && p.ctx = ctx, (s.passesOf cluster ctx).find? fun x => !x.granted with
  | some p, some x =>
    match s.team? p.team with
    | none => s
    | some t =>
      if x.word.wb = 15 || x.wbDone || !p.phaseReady t x.word.wb.toNat then s
      else (s.updContext cluster ctx fun y => y.consume x.word.wb.toNat).updPass cluster x.id fun y => { y with wbDone := true }
  | _, _ => s

/-- Runs a word of the issuing context; a word that the context executes first consumes a phase of its wb. -/
def issueWord (wb : Option Nat) (body : Prompter → Team → State → WordEnd) (s : State) : Out :=
  let s := match s.cur with
    | .prompter cluster ctx => s.consumePasses cluster ctx
    | _ => s
  match s.streamIssuer with
  | none => .fault .noIssuer
  | some (p, t) =>
    let upd (s : State) (f : Prompter → Prompter) : State := s.updContext p.cluster p.ctx f
    let run (p : Prompter) (s : State) : State :=
      match body p t s with
      | .done s1 => upd s1 Prompter.advance
      | .wait s1 => s1
      | .stop x s1 => s1.streamStop p t x
      | .illegal s1 => s1.streamIllegal p t
      | .jump h s1 => upd s1 fun y => { y with hdr := h, idx := 0, count := 0, wbDone := false }
    match wb with
    | some b =>
      if b = 15 ∨ p.wbDone then .next (run p s)
      else if p.phaseReady t b then
        let q := { p.consume b with wbDone := true }
        .next (run q (upd s fun _ => q))
      else .next s
    | none => .next (run p s)

/-! ## Operand words (R261, R262) -/

/-- The first of some checks that fails. -/
def firstStop : List (Option Stop) → Option Stop
  | [] => none
  | some x :: _ => some x
  | none :: r => firstStop r

def stopIf (b : Bool) (code : Nat) : Option Stop := if b then some { code := code } else none

/-- Count and stride of an extent word. -/
def extCount (kb : W32) : Nat := kb.toNat % 65536
def extStride (kb : W32) : Nat := kb.toNat / 65536

def extentStop (kb : W32) : Option Stop :=
  firstStop [stopIf (extCount kb = 0) trapMatrixState, stopIf (extStride kb % 16 ≠ 0) trapAlign]

/-- A location word: kind 0 an offset, kind 1 an address, kind 2 a walker context. -/
def locationStop (t : Team) (kind : Nat) (at_ : W64) : Option Stop :=
  if kind = 2 then stopIf (4 ≤ at_.toNat) trapMatrixState
  else if at_.toNat % 16 ≠ 0 then some { code := trapAlign, va := if kind = 1 then at_ else 0 }
  else stopIf (kind = 0 && t.launch.spadBytes ≤ at_.toNat) trapAccess

/-- The rows word: rows of the team's range (R246). -/
def rowsStop (t : Team) (kc : W32) (count : Nat) : Option Stop :=
  stopIf (kc.toNat / 65536 ≠ 0 || t.launch.accRows < kc.toNat % 65536 + count) trapMatrixState

/-- The mode word. -/
def modeScaled (km : W32) : Bool := km.getLsbD 0
def modeLen (km : W32) : Nat := bitsOf km.toNat 4 12
def modeIndex (km : W32) : Nat := bitsOf km.toNat 16 16

def modeStop (km : W32) (base : W64) : Option Stop :=
  stopIf (bitsOf km.toNat 1 3 ≠ 0 || (modeScaled km && (modeLen km = 0 || base = 0))) trapMatrixState

/-- Address of the scale word of a block (R262); a base that is odd is taken as it stands (log 67). -/
def scaleAddr (base : W64) (km : W32) (bi bj : Nat) : W64 := base + BitVec.ofNat 64 (2 * (modeIndex km + bi * modeLen km + bj))

/-- A location word as a stream word names it. -/
def Team.place (t : Team) (kind : Nat) (k : BitVec 6) : W64 :=
  if kind = 1 then t.kpair k.toNat else (t.kreg k.toNat).setWidth 64

/-! ## Reading and writing rows (R241, R281) -/

/-- The checks of a longer extent of memory, in pieces of 64 bytes. -/
def reachAny (s : State) (unit : Nat) (asid : BitVec 16) (va : W64) (n : Nat) (use : Use) : Nat → Found (List Part)
  | 0 => .got [] s
  | k + 1 =>
    if n = 0 then .got [] s else
    let m := min n 64
    match engReach s unit asid va m use [] with
    | .got ps s1 =>
      match reachAny s1 unit asid (va + BitVec.ofNat 64 m) (n - m) use k with
      | .got qs s2 => .got (ps ++ qs) s2
      | r => r
    | r => r

/-- Where bytes of an operand lie, once checked. -/
inductive Extent where
  | spad (off n : Nat)
  | mem (ps : List Part)

/-- The checks of `n` bytes of an operand: an extent beyond the scratchpad allocation stops with ACCESS. -/
def extentAt (s : State) (t : Team) (cluster kind : Nat) (at_ : W64) (off n : Nat) (use : Use) : Found Extent :=
  if kind = 0 then
    (if t.launch.spadBytes < at_.toNat + off + n then .stop { code := trapAccess, va := at_ + BitVec.ofNat 64 off, access := use.accessBits } s
     else .got (.spad (at_.toNat + off) n) s)
  else
    match reachAny s (clusterUnit cluster) t.asid (at_ + BitVec.ofNat 64 off) n use (n / 64 + 1) with
    | .got ps s1 => .got (.mem ps) s1
    | .stop x s1 => .stop x s1
    | .park s1 => .park s1

/-- Bytes of an extent, memory read by the cluster (R14). -/
def Extent.bytes (x : Extent) (s : State) (cluster team : Nat) : State × List Byte :=
  match x with
  | .spad off n => (s, ((s.team? team).map fun t => t.spadBytesAt off n).getD [])
  | .mem ps => s.readParts (clusterUnit cluster) ps

/-- Bytes put in an extent. -/
def Extent.put (x : Extent) (s : State) (team : Nat) (d : List Byte) : State :=
  match x with
  | .spad off _ => s.updTeam team fun t => t.spadPut off d
  | .mem ps => (ps.foldl (fun (acc : State × List Byte) p =>
      (acc.1.writeNow p.key (acc.2.take p.len) p.nc, acc.2.drop p.len)) (s, d)).1

def readAt (s : State) (t : Team) (cluster kind : Nat) (at_ : W64) (off n : Nat) : Found (List Byte) :=
  match extentAt s t cluster kind at_ off n .read with
  | .got x s1 =>
    let r := x.bytes s1 cluster t.id
    .got r.2 r.1
  | .stop x s1 => .stop x s1
  | .park s1 => .park s1

/-- Bit at which stored row `j` begins: rows of `n` elements, packed where the stride is 0. -/
def rowBit (stride bits n j : Nat) : Nat := if stride = 0 then j * n * bits else 8 * j * stride

/-- `n` elements from a bit of an operand on. -/
def readBits (s : State) (t : Team) (cluster kind : Nat) (at_ : W64) (start bits n : Nat) : Found (List Nat) :=
  let lo := start / 8
  match readAt s t cluster kind at_ lo ((start + n * bits + 7) / 8 - lo) with
  | .got b s1 =>
    let v := ofBytes b
    .got ((List.range n).map fun i => bitsOf v (start % 8 + bits * i) bits) s1
  | .stop x s1 => .stop x s1
  | .park s1 => .park s1

/-- Rows read one after another with a reader of one row. -/
def readRows (f : State → Nat → Found (List Nat)) (s : State) (j : Nat) : Nat → Found (List (List Nat))
  | 0 => .got [] s
  | n + 1 =>
    match f s j with
    | .got r s1 =>
      match readRows f s1 (j + 1) n with
      | .got l s2 => .got (r :: l) s2
      | x => x
    | .stop x s1 => .stop x s1
    | .park s1 => .park s1

/-- Numbers as packed bytes (R54). -/
def packBytes (bits : Nat) (l : List Nat) : List Byte := toBytes ((bits * l.length + 7) / 8) (pack bits l)

/-! ## Weight tiles (R236-R239, R244, R263-R266) -/

/-- Weight rows of a tile, and its depth. -/
def tileRows (fmt : Nat) : Nat := if codeBits fmt = 4 then 128 else 64
def Weights.depth (w : Weights) : Nat := if w.keep = 0 then tileRows w.fmt else 24 * (tileRows w.fmt / w.keep)

/-- Formats that R73 quantises to. -/
def quantFormat (fmt : Nat) : Bool := [3, 4, 5, 6, 7, 8, 10, 11].contains fmt

/-- Codes by row as a map. -/
def codeMap (rows : List (List Nat)) : List (Nat × Nat) :=
  ((rows.zip (List.range rows.length)).map fun p => (p.1.zip (List.range 128)).map fun q => (128 * p.2 + q.2, q.1)).flatten.filter
    fun x => x.2 ≠ 0

def newTile (fmt : Nat) (codes : List (Nat × Nat)) : Weights :=
  { fmt := fmt, codes := codes, scaled := false, shape := 0, scales := [], keep := 0, pos := [] }

/-- The scale blocks of `rows` by 128 elements: key and positions. -/
def scaleBlocks (shape rows : Nat) : List (Nat × List (Nat × Nat)) :=
  let down (a n : Nat) : List Nat := (List.range n).map fun i => a + i
  match shape with
  | 0 => ((List.range ((rows + 31) / 32)).map fun bi => (List.range 4).map fun bj =>
      (16 * bi + bj, ((down (32 * bi) (min 32 (rows - 32 * bi))).map fun k => (down (32 * bj) 32).map fun n => (k, n)).flatten)).flatten
  | 1 => ((List.range rows).map fun k => (List.range 4).map fun bj =>
      (16 * k + bj, (down (32 * bj) 32).map fun n => (k, n))).flatten
  | _ => ((List.range ((rows + 31) / 32)).map fun bi => (List.range 128).map fun n =>
      (128 * bi + n, (down (32 * bi) (min 32 (rows - 32 * bi))).map fun k => (k, n))).flatten

/-- A tile quantised from values (R73, R243), with its flags. -/
def quantTile (book : List Nat) (fmt shape : Nat) (vals : List (List Val)) : Weights × Flag :=
  (scaleBlocks shape vals.length).foldl (fun (acc : Weights × Flag) b =>
    let q := quantise book fmt (b.2.map fun p => (vals.getD p.1 []).getD p.2 (.zero false))
    let codes := (b.2.zip q.1).foldl (fun m x => keep 0 m (128 * x.1.1 + x.1.2) x.2) acc.1.codes
    ({ acc.1 with codes := codes, scales := keep 0 acc.1.scales b.1 q.2.1 }, acc.2 ||| q.2.2))
    ({ newTile fmt [] with scaled := true, shape := shape }, 0)

/-- Stored scale words of a list of blocks: block row and column in the stored grid, and the key in the tile. -/
def readScaleWords (s : State) (t : Team) (cluster : Nat) (base : W64) (km : W32) : List (Nat × Nat × Nat) → Found (List (Nat × Nat))
  | [] => .got [] s
  | (bi, bj, key) :: r =>
    match readAt s t cluster 1 (scaleAddr base km bi bj) 0 2 with
    | .got b s1 =>
      match readScaleWords s1 t cluster base km r with
      | .got l s2 => .got ((key, ofBytes b) :: l) s2
      | z => z
    | .stop x s1 => .stop x s1
    | .park s1 => .park s1

/-- Scale words read, and then checked (R239, R264), with the flags of their import. -/
def readScales (s : State) (t : Team) (cluster : Nat) (base : W64) (km : W32) (blocks : List (Nat × Nat × Nat)) :
    Found (List (Nat × Nat) × Flag) :=
  match readScaleWords s t cluster base km blocks with
  | .got l s1 =>
    if l.any fun x => (scaleWord x.2).isNone then .stop { code := trapMatrixFormat } s1
    else .got (l, (l.map fun x => ((scaleWord x.2).map Prod.snd).getD 0).foldl (· ||| ·) 0) s1
  | .stop x s1 => .stop x s1
  | .park s1 => .park s1

/-- A tile with the scale words that its mode word asks for; under `turned` the stored grid is that of the N x K tensor. -/
def withScales (s : State) (t : Team) (cluster : Nat) (base : W64) (km : W32) (turned : Bool) (rows : Nat) (w : Weights) :
    Found (Weights × Flag) :=
  if !modeScaled km then .got (w, 0) s
  else
    let blocks := ((List.range ((rows + 31) / 32)).map fun bi => (List.range 4).map fun bj =>
      if turned then (bj, bi, 16 * bi + bj) else (bi, bj, 16 * bi + bj)).flatten
    match readScales s t cluster base km blocks with
    | .got (l, f) s1 => .got ({ w with scaled := true, scales := l.foldl (fun m x => keep 0 m x.1 x.2) [] }, f) s1
    | .stop x s1 => .stop x s1
    | .park s1 => .park s1

/-- A tile that a load has read, with what it commits. -/
structure Staged where
  tile : Option Weights := none
  book : Option (List Nat) := none
  flags : Flag := 0
  taken : Option (Nat × Nat) := none

/-- The cluster on whose walker a kind-2 operand of a team finds a context: the team's own, or while a job of the team that does not write
its scratchpad runs on where the team was, that one (R306, R331; log 82). -/
def State.tileCluster (s : State) (t : Team) (cluster ctx : Nat) : Nat :=
  ((s.walk.ctxs.find? fun c => c.cluster ≠ cluster && c.ctx = ctx && c.team = t.id && c.cue.isSome && c.job.dest ≤ 1).map Walker.cluster).getD
    cluster

/-- The ready buffers of a walker context, oldest first. -/
def State.readyTiles (s : State) (cluster ctx : Nat) : List Tile :=
  match s.walk.ctxs.find? fun c => c.cluster = cluster && c.ctx = ctx with
  | none => []
  | some c => sortBy (fun a b => a.order ≤ b.order) (c.tiles.filter Tile.ready)

/-- A consumer meets a job of another team or another destination (R298). -/
def State.wrongJob (s : State) (t : Team) (cluster ctx dest : Nat) : Bool :=
  s.walk.ctxs.any fun c => c.cluster = cluster && c.ctx = ctx && c.cue.isSome && (c.team ≠ t.id || c.job.dest ≠ dest)

/-- The format of the job in a context. -/
def State.jobFormat (s : State) (cluster ctx : Nat) : Option Nat :=
  (s.walk.ctxs.find? fun c => c.cluster = cluster && c.ctx = ctx && c.cue.isSome).map fun c => c.job.fmt

/-- A ready buffer of a context emptied. -/
def State.takeTile (s : State) (cluster : Nat) (x : Nat × Nat) : State :=
  { s with walk := { s.walk with
      ctxs := updWhere s.walk.ctxs (fun c => c.cluster = cluster && c.ctx = x.1) fun c =>
        { c with tiles := updWhere c.tiles (fun y => y.ready && y.order = x.2) fun _ => Tile.blank } } }

/-- A buffer that a load has staged is still there: its job has not been killed (R307). -/
def State.tileStands (s : State) (cluster : Nat) (x : Nat × Nat) : Bool := (s.readyTiles cluster x.1).any fun y => y.order = x.2

/-- MLDW's tile (R263). The rows of a walker's buffer are taken as they are, whatever tr says, and its checks stand (R298, log 67). -/
def readTile (w : PWord) (p : Prompter) (t : Team) (s : State) : Found Staged :=
  let kind := w.kind
  let fmt := w.fa.toNat
  let at_ := t.place kind w.ka
  let kb := t.kreg w.kb.toNat
  let km := t.kreg w.km.toNat
  let count := extCount kb
  let tr := w.tr.toNat
  let quant := 2 ≤ tr
  match firstStop [stopIf (!(1 ≤ fmt && fmt ≤ 11) || (quant && !quantFormat fmt)) trapMatrixFormat,
      stopIf (fmt = 11 && p.codebook.isNone) trapMatrixState, locationStop t kind at_, extentStop kb,
      stopIf (tileRows fmt < count) trapMatrixState, modeStop km p.cfg.baseW, stopIf (quant && modeScaled km) trapMatrixState] with
  | some x => .stop x s
  | none =>
    if kind = 2 then
      let ctx := at_.toNat
      let from_ := s.tileCluster t p.cluster ctx
      if s.wrongJob t from_ ctx 0 then .stop { code := trapMatrixState } s
      else
        match s.readyTiles from_ ctx with
        | [] => .park s
        | x :: _ =>
          if s.jobFormat from_ ctx ≠ some fmt then .stop { code := trapMatrixFormat } s
          else
            match withScales s t p.cluster p.cfg.baseW km false count (newTile fmt (x.codes.filter fun y => y.1 < 128 * count)) with
            | .got (tile, f) s1 => .got { tile := some tile, flags := f, taken := some (ctx, x.order) } s1
            | .stop x s1 => .stop x s1
            | .park s1 => .park s1
    else if quant then
      match readRows (fun s j => readBits s t p.cluster kind at_ (rowBit (extStride kb) 16 128 j) 16 128) s 0 count with
      | .got rows s1 =>
        let shape := if p.cfg.square then 0 else if tr = 2 then 1 else 2
        let q := quantTile (p.codebook.getD []) fmt shape (rows.map fun r => r.map (codeDecode [] 1))
        .got { tile := some q.1, flags := q.2 } s1
      | .stop x s1 => .stop x s1
      | .park s1 => .park s1
    else
      let bits := codeBits fmt
      let rows := if tr = 1 then
          readRows (fun s j => readBits s t p.cluster kind at_ (rowBit (extStride kb) bits count j) bits count) s 0 128
        else readRows (fun s j => readBits s t p.cluster kind at_ (rowBit (extStride kb) bits 128 j) bits 128) s 0 count
      match rows with
      | .got l s1 =>
        let straight := if tr = 1 then (List.range count).map fun k => l.map fun r => r.getD k 0 else l
        match withScales s1 t p.cluster p.cfg.baseW km (tr = 1) count (newTile fmt (codeMap straight)) with
        | .got (tile, f) s2 => .got { tile := some tile, flags := f } s2
        | .stop x s2 => .stop x s2
        | .park s2 => .park s2
      | .stop x s1 => .stop x s1
      | .park s1 => .park s1

/-- A word of an accumulator as a value: I32, or F32. -/
def wordVal (isInt : Bool) (v : W32) : Val := if isInt then valOfInt v.toInt else fmtF32.decode v.toNat

/-- One element of an unscaled MLDWT: RNE under R266 and never a draw (R271; log 64). -/
def turnWord (book : List Nat) (fmt : Nat) (v : W32) : Nat × Flag :=
  match codeInt fmt with
  | some ty =>
    let c := clamp ty.lo ty.hi v.toInt
    (ty.code c, flagIf (c ≠ v.toInt) flagSA)
  | none => codeEncode book fmt 0 0 true (fmtF32.decode v.toNat)

/-- Scale words of blocks written: every place is checked before any is written (R262). -/
def putScales (s : State) (t : Team) (cluster : Nat) (base : W64) (km : W32) (l : List (Nat × List Nat)) : Found Unit :=
  let rec go (s : State) (done : List (Extent × List Byte)) : List (Nat × List Nat) → Found Unit
    | [] => .got () (done.foldl (fun s p => p.1.put s t.id p.2) s)
    | x :: r =>
      match extentAt s t cluster 1 (scaleAddr base km x.1 0) 0 (2 * x.2.length) .write with
      | .got e s1 => go s1 (done ++ [(e, (x.2.map (toBytes 2)).flatten)]) r
      | .stop y s1 => .stop y s1
      | .park s1 => .park s1
  go s [] l

/-- MLDWT's tile (R266). A scaled load writes the scale words that it makes at the weight base, as R262 says of a scaled operand
(log 67); it rounds by RNE and takes no draw (log 64). -/
def readAccTile (w : PWord) (p : Prompter) (t : Team) (s : State) : Found Staged :=
  let fmt := w.fa.toNat
  let kb := t.kreg w.kb.toNat
  let kc := t.kreg w.kc.toNat
  let km := t.kreg w.km.toNat
  let count := extCount kb
  match firstStop [stopIf (!(1 ≤ fmt && fmt ≤ 11) || (modeScaled km && !quantFormat fmt)) trapMatrixFormat,
      stopIf (fmt = 11 && p.codebook.isNone) trapMatrixState, stopIf (count = 0 || extStride kb ≠ 0) trapMatrixState,
      stopIf (tileRows fmt < count) trapMatrixState, rowsStop t kc count, modeStop km p.cfg.baseW] with
  | some x => .stop x s
  | none =>
    let e := s.engine p.cluster
    let words := (List.range count).map fun j => (List.range 128).map fun n => e.word (t.accBase + kc.toNat % 65536 + j) n
    let book := p.codebook.getD []
    if modeScaled km then
      let q := quantTile book fmt (if p.cfg.square then 0 else 1) (words.map fun r => r.map (wordVal ([8, 9, 10].contains fmt)))
      let lines := if p.cfg.square then (count + 31) / 32 else count
      match putScales s t p.cluster p.cfg.baseW km ((List.range lines).map fun b =>
          (b, (List.range 4).map fun j => look 0 q.1.scales (16 * b + j))) with
      | .got _ s1 => .got { tile := some q.1, flags := q.2 } s1
      | .stop x s1 => .stop x s1
      | .park s1 => .park s1
    else
      let conv := words.map fun r => r.map (turnWord book fmt)
      .got { tile := some (newTile fmt (codeMap (conv.map fun r => r.map Prod.fst))),
             flags := (conv.map fun r => (r.map Prod.snd).foldl (· ||| ·) 0).foldl (· ||| ·) 0 } s

/-- Weights kept of each 24 under an sp code (R244). -/
def keptOf (sp : Nat) : Nat := if sp = 0 then 0 else 2 ^ (sp + 1)

/-- Positions of a sparse tile are legal: below 24 and strictly ascending within each group (R244, R265). -/
def positionsOk (n : Nat) (rows : List (List Nat)) : Bool :=
  (List.range rows.length).all fun r => (List.range 128).all fun c =>
    let v (r : Nat) : Nat := (rows.getD r []).getD c 0
    v r < 24 && (r % n = 0 || v (r - 1) < v r)

/-- MLDWS's tile (R265): everything is read before the scales and the positions are checked (R264). -/
def readSparseTile (w : PWord) (p : Prompter) (t : Team) (s : State) : Found Staged :=
  let kind := w.kind
  let fmt := w.fa.toNat
  let at_ := t.place kind w.ka
  let kb := t.kreg w.kb.toNat
  let pos := t.place kind w.kc
  let km := t.kreg w.km.toNat
  let count := extCount kb
  match firstStop [stopIf (!(1 ≤ fmt && fmt ≤ 10)) trapMatrixFormat, locationStop t kind at_, locationStop t kind pos,
      extentStop kb, stopIf (count ≠ tileRows fmt) trapMatrixState, modeStop km p.cfg.baseW] with
  | some x => .stop x s
  | none =>
    let bits := codeBits fmt
    match readRows (fun s j => readBits s t p.cluster kind at_ (rowBit (extStride kb) bits 128 j) bits 128) s 0 count with
    | .stop x s1 => .stop x s1
    | .park s1 => .park s1
    | .got rows s1 =>
      match readRows (fun s j => readBits s t p.cluster kind pos (1024 * j) 8 128) s1 0 count with
      | .stop x s2 => .stop x s2
      | .park s2 => .park s2
      | .got ps s2 =>
        let n := keptOf w.sp.toNat
        match withScales s2 t p.cluster p.cfg.baseW km false count
            { newTile fmt (codeMap rows) with keep := n, pos := codeMap ps } with
        | .got (tile, f) s3 =>
          if positionsOk n ps then .got { tile := some tile, flags := f } s3 else .stop { code := trapMatrixFormat } s3
        | .stop x s3 => .stop x s3
        | .park s3 => .park s3

/-- MLDCB's codebook (R263). -/
def readBook (w : PWord) (p : Prompter) (t : Team) (s : State) : Found Staged :=
  let at_ := t.place w.kind w.ka
  match locationStop t w.kind at_ with
  | some x => .stop x s
  | none =>
    match readBits s t p.cluster w.kind at_ 0 16 16 with
    | .got l s1 => .got { book := some l } s1
    | .stop x s1 => .stop x s1
    | .park s1 => .park s1

/-- A load (R264): it waits until the passes before it have latched, reads, and commits once no pass before it that has stopped is
still there. A walker's buffer is taken at the commit; where its job has been killed the load begins again (R307). -/
def loadWord (whole : Bool) (read : Prompter → Team → State → Found Staged) (p : Prompter) (t : Team) (s : State) : WordEnd :=
  let mine := s.passesOf p.cluster p.ctx
  let commit (x : Option Weights × Option (List Nat) × W32) (taken : Option (Nat × Nat)) (s : State) : WordEnd :=
    let s1 := s.updContext p.cluster p.ctx fun y =>
      { y with slot := (x.1.map some).getD y.slot, codebook := (x.2.1.map some).getD y.codebook, flags := y.flags ||| x.2.2 }
    match taken with
    | none => .done s1
    | some c =>
      let from_ := s.tileCluster t p.cluster c.1
      if s.tileStands from_ c then .done (s1.takeTile from_ c)
      else .wait (s.updContext p.cluster p.ctx fun y => { y with staged := none, stagedFrom := none })
  match p.staged with
  | some x => if mine.any Pass.halted then .wait s else commit x p.stagedFrom s
  | none =>
    if (if whole then !mine.isEmpty else mine.any fun x => !x.latched) then .wait s
    else
      match read p t s with
      | .stop x s1 => .stop x s1
      | .park s1 => .wait s1
      | .got g s1 =>
        if mine.any Pass.halted then
          .wait (s1.updContext p.cluster p.ctx fun y => { y with staged := some (g.tile, g.book, g.flags), stagedFrom := g.taken })
        else commit (g.tile, g.book, g.flags) g.taken s1

/-! ## The words -/

/-- MNOP (R280). -/
def execMnop (_w : PWord) (s : State) : Out := issueWord none (fun _ _ s => .done s) s

/-- MLDW (R263). -/
def execMldw (w : PWord) (s : State) : Out := issueWord (some w.wb.toNat) (loadWord false (readTile w)) s

/-- MLDWT (R266). -/
def execMldwt (w : PWord) (s : State) : Out := issueWord (some w.wb.toNat) (loadWord true (readAccTile w)) s

/-- MLDWS (R265). -/
def execMldws (w : PWord) (s : State) : Out := issueWord (some w.wb.toNat) (loadWord false (readSparseTile w)) s

/-- MLDCB (R263). -/
def execMldcb (w : PWord) (s : State) : Out := issueWord (some w.wb.toNat) (loadWord false (readBook w)) s

/-- A rule record out of its bytes (R273). -/
def ruleOf (b : List Byte) : Except Stop UpdateRule :=
  let f (i : Nat) : W32 := BitVec.ofNat 32 (fieldOf b i 4)
  let fmt := fieldOf b 3 1
  if 2 < fieldOf b 0 1 || 6 < fieldOf b 1 1 || 1 < fieldOf b 2 1 || !([0, 1, 2, 3, 4].contains fmt) || fieldOf b 36 4 ≠ 0
      || fieldOf b 48 16 ≠ 0 then .error { code := trapMatrixState }
  else if fmt ≠ 0 && fieldOf b 40 8 % 16 ≠ 0 then .error { code := trapAlign, va := BitVec.ofNat 64 (fieldOf b 40 8) }
  else .ok { rule := fieldOf b 0 1, rm := fieldOf b 1 1, zero := fieldOf b 2 1 = 1, fmt := fmt, lr := f 4, beta1 := f 8, beta2 := f 12,
             eps := f 16, decay := f 20, gain := f 24, c1 := f 28, c2 := f 32, copy := BitVec.ofNat 64 (fieldOf b 40 8) }

/-- MRULE (R273). -/
def execMrule (w : PWord) (s : State) : Out :=
  issueWord (some w.wb.toNat) (fun p t s =>
    let at_ := t.place w.kind w.ka
    match locationStop t w.kind at_ with
    | some x => .stop x s
    | none =>
      match readAt s t p.cluster w.kind at_ 0 64 with
      | .stop x s1 => .stop x s1
      | .park s1 => .wait s1
      | .got b s1 =>
        match ruleOf b with
        | .error x => .stop x s1
        | .ok r => .done (s1.updContext p.cluster p.ctx fun y => { y with rule := some r })) s

/-- MWAIT (R276). -/
def execMwait (w : PWord) (s : State) : Out := issueWord (some w.wb.toNat) (fun _ _ s => .done s) s

/-- MSIG (R276): every earlier pass has completed, and the flags that no join has taken come with it. -/
def execMsig (w : PWord) (s : State) : Out :=
  issueWord (some w.wb.toNat) (fun p t s =>
    if !(s.passesOf p.cluster p.ctx).isEmpty then .wait s
    else if w.sb = 15 then .done s
    else .done (s.signal t.id w.sb.toNat p.flags)) s

/-- MQCFG (R277): a k field of 0 leaves its base unchanged. -/
def execMqcfg (w : PWord) (s : State) : Out :=
  issueWord (some w.wb.toNat) (fun p t s =>
    let base (k : BitVec 6) (old : W64) : W64 := if k = 0 then old else t.kpair k.toNat
    .done (s.updContext p.cluster p.ctx fun y =>
      { y with cfg := { square := w.md = 1, baseA := base w.ka y.cfg.baseA, baseW := base w.kb y.cfg.baseW,
                        baseO := base w.kc y.cfg.baseO } })) s

/-- MPROG (R278). -/
def execMprog (w : PWord) (s : State) : Out :=
  issueWord none (fun p t s =>
    if w.md = 0 then .done (s.updTeam t.id fun t => t.setK w.ka.toNat (BitVec.ofNat 32 p.mprog))
    else if !(s.passesOf p.cluster p.ctx).isEmpty then .stop { code := trapMatrixState } s
    else .done (s.updContext p.cluster p.ctx fun y => { y with mprog := (t.kreg w.ka.toNat).toNat })) s

/-- A transfer of the stream (R279): to a class-2 header; a target that cannot be read is met there. -/
def streamJump (w : PWord) (p : Prompter) (t : Team) (s : State) (act : State → State) : WordEnd :=
  let va := p.hdr + w.off32.signExtend 64
  match (s.fetch (clusterUnit p.cluster) t.asid false va).1 with
  | .ok x => if isHeader x && (headerOf x).cls = 2 then .jump va (act s) else .illegal s
  | .error _ => .jump va (act s)

/-- MJMP (R279). -/
def execMjmp (w : PWord) (s : State) : Out := issueWord none (fun p t s => streamJump w p t s id) s

/-- MLOOP (R279). -/
def execMloop (w : PWord) (s : State) : Out :=
  issueWord none (fun p t s =>
    let n := bitsOf w.md.toNat 0 6
    if t.kreg n = 0 then .done s
    else streamJump w p t s fun s => s.updTeam t.id fun t => t.setK n (t.kreg n - 1)) s

/-- MEND (R279). -/
def execMend (_w : PWord) (s : State) : Out :=
  match s.streamIssuer with
  | none => .fault .noIssuer
  | some (p, _) => .next ((s.updContext p.cluster p.ctx fun y => { y.advance with st := .ending }).settleIdle p.cluster p.ctx)

/-- MKADD (R280). -/
def execMkadd (w : PWord) (s : State) : Out :=
  issueWord none (fun _ t s =>
    .done (s.updTeam t.id fun t =>
      if w.md = 1 then t.setKpair w.ka.toNat (t.kpair w.kb.toNat + w.imm20.signExtend 64)
      else t.setK w.ka.toNat (t.kreg w.kb.toNat + w.imm20.signExtend 32))) s

end Sys2Proof.Machine
end

