-- ==== Sys2Proof/Machine/PassOps.lean ====
section
/-! DEFINITION. Passes: the words that post them, the reservation arbiter (12 R252), the rows of each kind (12 R248-R249, 13
R267-R275), stops (12 R255, 13 R281), checkpoint tags (12 R256) and completion (12 R253). -/

namespace Sys2Proof.Machine

open Sys2Proof

/-! ## Posting (R251, R252, R260) -/

/-- RNE(1 - b) (R274). -/
def oneMinus (b : W32) : Nat × Flag :=
  let r := vAdd 0 (.num false 1 0 false) (fmtF32.decode b.toNat).negate
  let q := fmtF32.round 0 0 false r.1
  (q.1, r.2 ||| q.2)

/-- A pass as it is posted, with the operand words that `ka`, `kc` and `km` give. -/
def newPass (s : State) (p : Prompter) (t : Team) (kind : PassKind) (w : PWord) (ka kc km : W64) : Pass :=
  let r := p.rule.getD { rule := 0, rm := 0, zero := false, fmt := 0, lr := 0, beta1 := 0, beta2 := 0, eps := 0, decay := 0, gain := 0,
                         c1 := 0, c2 := 0, copy := 0 }
  let b1 := oneMinus r.beta1
  let b2 := oneMinus r.beta2
  { id := s.nextId, ctx := p.ctx, team := t.id, kind := kind, word := w, hdr := p.hdr, idx := p.idx, ka := ka, kb := t.kreg w.kb.toNat,
    kc := kc, km := km, cfg := p.cfg, rule := p.rule, cls := s.teamClass t, posted := s.time, asid := t.asid, granted := false,
    reserved := false, wbDone := false, row := 0, stopped := false, halted := false, weights := none, codebook := [], latched := false,
    fromLatch := false, capture := false,
    flags := if kind = .mdrain ∧ p.rule.isSome ∧ r.rule ≠ 0 then b1.2 ||| b2.2 else 0, aCodes := [], aScales := [], partners := [],
    key := t.key, stream := t.kreg 61, coord := t.kpair 62, rowLen := t.kreg 47, header := [], omb1 := BitVec.ofNat 32 b1.1,
    omb2 := BitVec.ofNat 32 b2.1, finished := false, grantedAt := 0 }

/-- A word that becomes a pass: it waits while the table, or the context's share of it, is full. -/
def postWord (kind : PassKind) (w : PWord) (ka kc km : Team → W64) (s : State) : Out :=
  issueWord none (fun p t s =>
    let e := s.engine p.cluster
    if 16 ≤ e.table.length ∨ 4 ≤ (s.passesOf p.cluster p.ctx).length then .wait s
    else .done (s.fresh.setEngine { e with table := e.table ++ [newPass s p t kind w (ka t) (kc t) (km t)] })) s

/-- One k register as an operand word. -/
def wordK (k : BitVec 6) (t : Team) : W64 := (t.kreg k.toNat).setWidth 64
def pairK (k : BitVec 6) (t : Team) : W64 := t.kpair k.toNat
def placeK (kind : Nat) (k : BitVec 6) (t : Team) : W64 := t.place kind k

/-- MMA (R267). -/
def execMma (w : PWord) (s : State) : Out := postWord .mma w (placeK w.kind w.ka) (wordK w.kc) (wordK w.km) s

/-- MMAC (R267). -/
def execMmac (w : PWord) (s : State) : Out := postWord .mmac w (placeK w.kind w.ka) (wordK w.kc) (wordK w.km) s

/-- MZERO (R268). -/
def execMzero (w : PWord) (s : State) : Out := postWord .mzero w (fun _ => 0) (wordK w.kc) (fun _ => 0) s

/-- MSTC (R270). -/
def execMstc (w : PWord) (s : State) : Out := postWord .mstc w (placeK w.kind w.ka) (wordK w.kc) (wordK w.km) s

/-- MTURN (R272). -/
def execMturn (w : PWord) (s : State) : Out :=
  postWord .mturn w (placeK w.kind w.ka) (placeK (bitsOf w.md.toNat 2 2) w.kc) (wordK w.km) s

/-- MDRAIN (R274). -/
def execMdrain (w : PWord) (s : State) : Out := postWord .mdrain w (pairK w.ka) (wordK w.kc) (pairK w.km) s

/-- MSAVE (R275). -/
def execMsave (w : PWord) (s : State) : Out := postWord .msave w (pairK w.ka) (wordK w.kc) (fun _ => 0) s

/-- MLOAD (R275). -/
def execMload (w : PWord) (s : State) : Out := postWord .mload w (pairK w.ka) (wordK w.kc) (fun _ => 0) s

/-- MEPI (R269). -/
def execMepi (w : PWord) (s : State) : Out := postWord .mepi w (placeK w.kind w.ka) (wordK w.kc) (wordK w.km) s

/-! ## A pass's operands -/

def Pass.count (x : Pass) : Nat := extCount x.kb
def Pass.stride (x : Pass) : Nat := extStride x.kb
def Pass.mode (x : Pass) : W32 := x.km.setWidth 32
def Pass.fmtA (x : Pass) : Nat := x.word.fa.toNat
/-- First absolute accumulator row. -/
def Pass.firstRow (x : Pass) (t : Team) : Nat := t.accBase + x.kc.toNat % 65536
/-- The tr under which its operands are read: rows of a walker source are taken as they are, and the checks of tr stand (R298, log 67). -/
def Pass.turn (x : Pass) : Nat := if x.word.kind = 2 then 0 else x.word.tr.toNat
/-- A is quantised on the way (R243). -/
def Pass.quantA (x : Pass) : Bool := 2 ≤ x.turn
def Pass.scaledA (x : Pass) : Bool := x.quantA || modeScaled x.mode
def Pass.isMul (x : Pass) : Bool := x.kind = .mma || x.kind = .mmac
/-- Rounding code of the elements that a pass stores. -/
def Pass.rm (x : Pass) : Nat :=
  match x.kind with
  | .mstc => bitsOf x.word.md.toNat 4 3
  | .mdrain => (x.rule.map UpdateRule.rm).getD 0
  | _ => 0
/-- The keyed draw of element (r, n) (R271). -/
def Pass.keyedDraw (x : Pass) (r n : Nat) : Nat :=
  (kcg x.key x.stream (x.coord + BitVec.ofNat 64 (r * x.rowLen.toNat + n))).toNat % 65536

/-! ## Checks before row 0 (R237, R242, R256, R261, R267) -/

def floatCode (c : Nat) : Bool := 1 ≤ c && c ≤ 7
def intCode (c : Nat) : Bool := 8 ≤ c && c ≤ 10

/-- R237. -/
def pairAccepted (fa fw : Nat) : Bool := (floatCode fa && (floatCode fw || fw = 11)) || (intCode fa && intCode fw)

/-- What names the A source of a pass (R242). -/
def Reuse.names (r : Reuse) (x : Pass) (depth : Nat) : Bool :=
  r.fmt = x.fmtA && r.kind = x.word.kind && r.loc = x.ka && r.extent = x.kb && r.mode = x.mode && r.tr = x.turn && r.depth = depth
    && r.base = x.cfg.baseA

/-- Rows of a pass fit the latch (R242). -/
def fitsLatch (x : Pass) (depth : Nat) : Bool := x.count ≤ 256 && x.count * (depth * codeBits x.fmtA) ≤ 8 * 32768

/-- MMA's and MMAC's checks; a partner's A operands are not read (R245). -/
def mulStop (e : Engine) (p : Prompter) (t : Team) (x : Pass) (head : Bool) : Option Stop :=
  let w := x.word
  let km := x.mode
  let state (b : Bool) : Option Stop := stopIf b trapMatrixState
  let source : List (Option Stop) := if head then [locationStop t w.kind x.ka, extentStop x.kb] else [state (x.count = 0)]
  let modes : List (Option Stop) := if head then
      [modeStop km x.cfg.baseA, state (2 ≤ w.tr.toNat && modeScaled km), state (w.tr = 1 && 256 < x.count)] else []
  let fmts := stopIf (!(floatCode x.fmtA || intCode x.fmtA) || (2 ≤ w.tr.toNat && !quantFormat x.fmtA)) trapMatrixFormat
  let tail : List (Option Stop) :=
    match p.slot with
    | none => [state true]
    | some tile =>
      [ stopIf (!pairAccepted x.fmtA tile.fmt) trapMatrixFormat,
        state (head && w.ru = 1 && !fitsLatch x tile.depth),
        state (head && (match e.reuse with
          | some r => r.ctx = x.ctx && !r.names x tile.depth
          | none => false)),
        state (tile.keep ≠ (if x.kind = .mma then 0 else keptOf w.sp.toNat)) ]
  firstStop (source ++ [rowsStop t (x.kc.setWidth 32) x.count] ++ modes ++ [fmts] ++ tail)

/-- MSTC's checks. -/
def storeStop (t : Team) (x : Pass) : Option Stop :=
  let w := x.word
  let fo := w.fo.toNat
  firstStop [locationStop t w.kind x.ka, extentStop x.kb, rowsStop t (x.kc.setWidth 32) x.count, modeStop x.mode x.cfg.baseO,
    stopIf (fo = 11 || fo = 12 || 13 < fo || (modeScaled x.mode && !quantFormat fo)) trapMatrixFormat,
    stopIf (modeScaled x.mode && (x.rm ≠ 0 || bitOf w.md.toNat 3)) trapMatrixState]

/-- MTURN's checks. -/
def turnStop (t : Team) (x : Pass) : Option Stop :=
  firstStop [locationStop t x.word.kind x.ka, extentStop x.kb, locationStop t (bitsOf x.word.md.toNat 2 2) x.kc,
    stopIf (128 < x.count || extCount x.mode = 0 || 128 < extCount x.mode) trapMatrixState,
    stopIf (extStride x.mode % 16 ≠ 0) trapAlign,
    stopIf (!([0, 1, 2, 3, 4, 8, 9, 13].contains x.fmtA)) trapMatrixFormat]

/-- The limit of `.clamp` (R269). -/
def Pass.limit (x : Pass) : Val := fmtF32.decode (x.km.toNat % 2 ^ 31)

/-- MSAVE's and MLOAD's checks (R257, R275); an address that is not aligned to 128 bytes stops with ALIGN (log 67). -/
def recordStop (t : Team) (x : Pass) : Option Stop :=
  firstStop [if x.ka.toNat % 128 ≠ 0 then some { code := trapAlign, va := x.ka } else none,
    stopIf (x.count = 0 || x.count % 64 ≠ 0 || x.kc.toNat % 64 ≠ 0) trapMatrixState, rowsStop t (x.kc.setWidth 32) x.count]

/-- The checks of the operands of a pass. No alignment is asked of MDRAIN's state base (R274; log 67). -/
def operandStop (e : Engine) (p : Prompter) (t : Team) (x : Pass) (head : Bool) : Option Stop :=
  match x.kind with
  | .mma | .mmac => mulStop e p t x head
  | .mzero => firstStop [stopIf (x.count = 0) trapMatrixState, rowsStop t (x.kc.setWidth 32) x.count]
  | .mstc => storeStop t x
  | .mturn => turnStop t x
  | .mdrain =>
    firstStop [if x.ka.toNat % 16 ≠ 0 then some { code := trapAlign, va := x.ka } else none, extentStop x.kb,
      rowsStop t (x.kc.setWidth 32) x.count, stopIf x.rule.isNone trapMatrixState]
  | .msave | .mload => recordStop t x
  | .mepi =>
    firstStop [if x.word.fo = 1 then locationStop t x.word.kind x.ka else none, extentStop x.kb,
      rowsStop t (x.kc.setWidth 32) x.count,
      if bitsOf x.word.md.toNat 2 2 = 2 then stopIf x.limit.isNan trapMatrixState else modeStop x.mode 1]

/-- Every block that a pass touches carries the ID of its context (R256). -/
def ownsBlocks (e : Engine) (p : Prompter) (t : Team) (x : Pass) : Bool :=
  x.kind = .mturn || (List.range x.count).all fun j => look 0 e.tags ((x.firstRow t + j) / 64) = p.ckpt

/-- What stops a pass at its grant; a resumed one is checked for its blocks only. -/
def grantStop (e : Engine) (p : Prompter) (t : Team) (x : Pass) (head : Bool) : Option Stop :=
  if x.latched then stopIf (!ownsBlocks e p t x) trapMatrixState
  else firstStop [operandStop e p t x head, stopIf (!ownsBlocks e p t x || x.count ≤ p.mprog) trapMatrixState]

/-! ## The arbiter (R245, R252) -/

/-- A class at posting falls by 1 for each full 4,096 cycles of waiting. -/
def Pass.aged (x : Pass) (now : Nat) : Pass :=
  if x.granted then x else
  let n := (now - x.posted) / 4096
  { x with cls := x.cls - n, posted := x.posted + 4096 * n }

def State.agePasses (s : State) (cluster : Nat) : State :=
  let e := s.engine cluster
  s.setEngine { e with table := e.table.map fun x => x.aged s.time }

/-- PASS_AGING (R252). -/
def execPassAging (cluster : Nat) (s : State) : Out := .next (s.agePasses cluster)

/-- A pass keeps the engine. -/
def Engine.busy (e : Engine) : Bool := e.table.any fun x => x.granted && !x.finished

/-- The oldest entry of a context that is not granted. -/
def State.oldest (s : State) (cluster ctx : Nat) : Option Pass := (s.passesOf cluster ctx).find? fun x => !x.granted

/-- It may be granted, its chain apart: its phase is consumed, and MLOAD waits for every earlier pass. -/
def State.mayRun (s : State) (cluster : Nat) (x : Pass) : Bool :=
  !x.stopped && (x.word.wb = 15 || x.wbDone)
    && (x.kind ≠ .mload || ((s.passesOf cluster x.ctx)[0]?).map Pass.id = some x.id)

/-- Engines that a chain field joins. -/
def chainLen (ch : BitVec 2) : Nat := 2 ^ ch.toNat

/-- The clusters and teams of a pass's chain, head first; none where it stands in no valid position (R245). -/
def State.chain (s : State) (cluster : Nat) (t : Team) (x : Pass) : Option (List (Nat × Team)) :=
  if x.word.ch = 0 then some [(cluster, t)] else
  let n := chainLen x.word.ch
  let j := cluster % n
  if t.rank < j then none else
  let found := (List.range n).filterMap fun k =>
    (s.teams.find? fun y => y.grid = t.grid && y.gang = t.gang && y.rank = t.rank - j + k && y.cluster = cluster - j + k && !y.removed).map
      fun y => (cluster - j + k, y)
  if found.length = n then some found else none

/-- The matching passes of a chain with their contexts, when all are eligible. -/
def State.matching (s : State) (x : Pass) (l : List (Nat × Team)) : Option (List (Nat × Prompter × Team × Pass)) :=
  let found := l.filterMap fun m =>
    match s.context? m.2 with
    | none => none
    | some p =>
      match s.oldest m.1 p.ctx with
      | some y => if s.mayRun m.1 y && y.word.ch = x.word.ch && (x.word.ch = 0 || y.isMul) then some (m.1, p, m.2, y) else none
      | none => none
  if found.length = l.length then some found else none

/-- An entry that the arbiter of a cluster may grant. -/
def State.passEligible (s : State) (cluster : Nat) (x : Pass) : Bool :=
  (s.oldest cluster x.ctx).map Pass.id = some x.id && s.mayRun cluster x &&
    (match s.team? x.team with
     | none => false
     | some t =>
       match s.chain cluster t x with
       | none => true
       | some l => (s.matching x l).isSome)

/-- The class of an entry. -/
def State.passClass (s : State) (x : Pass) : Nat := min x.cls (((s.team? x.team).map s.teamClass).getD x.cls)

/-- The eligible entry with the least class, the earliest posted of them. -/
def State.bestPass (s : State) (cluster : Nat) : Option Pass :=
  ((s.engine cluster).table.filter (s.passEligible cluster)).foldl (fun best x =>
    match best with
    | none => some x
    | some y => if s.passClass x < s.passClass y then some x else best) none

/-- A pass stops with its progress; `told` says that a record is written. The cycles that it ran are not cycles that it waited (R252). -/
def State.stopPass (s : State) (cluster : Nat) (t : Team) (x : Pass) (e : Stop) (progress : Nat) (told : Bool) : State :=
  let s1 := s.updPass cluster x.id fun y =>
    { y with stopped := true, halted := true, granted := false, reserved := false,
             posted := if y.granted then y.posted + (s.time - y.grantedAt) else y.posted }
  if told then s1.stopEngine (streamRecord t x.hdr x.idx e progress) else s1

/-- A pass takes the engine; at its first grant it latches the slot, and takes or claims the reuse latch (R238, R242). -/
def State.startPass (s : State) (m : Nat × Prompter × Team × Pass) (head : Bool) (ids : List Nat) : State :=
  let (cluster, p, _, x) := m
  let e := s.engine cluster
  if x.latched then s.updPass cluster x.id fun y => { y with granted := true, reserved := false, grantedAt := s.time }
  else
    let held := head && x.isMul && (match e.reuse with
      | some r => r.ctx = x.ctx
      | none => false)
    let claim := head && x.isMul && x.word.ru = 1 && e.reuse.isNone
    let depth := (p.slot.map Weights.depth).getD 0
    let y : Pass :=
      { x with granted := true, reserved := false, latched := true, weights := if x.isMul then p.slot else none,
               codebook := if x.isMul then p.codebook.getD [] else [], row := p.mprog, partners := ids, fromLatch := held,
               capture := claim, grantedAt := s.time }
    let fresh : Reuse :=
      { ctx := x.ctx, fmt := x.fmtA, kind := x.word.kind, loc := x.ka, extent := x.kb, mode := x.mode, tr := x.turn, depth := depth,
        base := x.cfg.baseA, first := p.mprog, codes := [], scales := [], flags := [] }
    s.setEngine { e with table := updWhere e.table (fun z => z.id = x.id) (fun _ => y), reuse := if claim then some fresh else e.reuse }

/-- The first member of a chain whose own checks fail. -/
def State.firstBad (s : State) (l : List (Nat × Prompter × Team × Pass)) : Option ((Nat × Prompter × Team × Pass) × Stop) :=
  (l.zip (List.range l.length)).findSome? fun m =>
    (grantStop (s.engine m.1.1) m.1.2.1 m.1.2.2.1 m.1.2.2.2 (m.2 = 0)).map fun x => (m.1, x)

/-- The pass that a free engine grants next: the one that it is kept for while that is eligible, or the best (R245, R252). -/
def State.nextPass (s : State) (cluster : Nat) : Option Pass :=
  match (s.engine cluster).table.find? fun x => x.reserved && s.passEligible cluster x with
  | some x => some x
  | none => s.bestPass cluster

/-- An engine kept for a pass, and for no other. -/
def State.reserve (s : State) (cluster : Nat) (x : Pass) : State :=
  let e := s.engine cluster
  s.setEngine { e with table := e.table.map fun y => { y with reserved := y.id = x.id } }

/-- The matching passes of a chain, granted together: a member whose own checks fail stops alone, and the others stay eligible once it
has resumed (log 67); members that differ from the head in A format or row count stop all (R245). A pass that stops here keeps the start
row that MPROG gave it as its progress (R260; log 67). -/
def State.grantAll (s : State) (x : Pass) (ms : List (Nat × Prompter × Team × Pass)) : State :=
  match s.firstBad ms with
  | some (m, e) => s.stopPass m.1 m.2.2.1 m.2.2.2 e (if m.2.2.2.latched then m.2.2.2.row else m.2.1.mprog) true
  | none =>
    if ms.any fun m => m.2.2.2.fmtA ≠ x.fmtA && x.isMul || m.2.2.2.count ≠ x.count then
      ms.foldl (fun s m => s.stopPass m.1 m.2.2.1 m.2.2.2 { code := trapMatrixState } m.2.1.mprog true) s
    else
      (ms.zip (List.range ms.length)).foldl (fun s m => s.startPass m.1 (m.2 = 0) (ms.map fun m => m.2.2.2.id)) s

/-- A chained pass that stands in no valid chain stops: the chain is checked after everything else (R245, R267). -/
def State.stopUnchained (s : State) (cluster : Nat) (t : Team) (x : Pass) : State :=
  let own := (s.context? t).bind fun p => grantStop (s.engine cluster) p t x (cluster % chainLen x.word.ch = 0)
  let at_ := if x.latched then x.row else ((s.context? t).map Prompter.mprog).getD 0
  s.stopPass cluster t x (own.getD { code := trapMatrixState }) at_ true

/-- PASS_GRANT (R245, R252): entries consume their phases as they become the oldest, and the arbiter of a free engine grants the best. A
chained pass keeps its engine until the arbiters of all its engines have granted its chain, and then all start. -/
def execPassGrant (cluster : Nat) (s : State) : Out :=
  let s1 := (List.range 8).foldl (fun s c => s.consumePasses cluster c) (s.agePasses cluster)
  if (s1.engine cluster).busy then .next s1
  else
    match s1.nextPass cluster with
    | none => .next s1
    | some x =>
      match s1.team? x.team with
      | none => .next s1
      | some t =>
        match s1.chain cluster t x with
        | none => .next (s1.stopUnchained cluster t x)
        | some l =>
          let s2 := s1.reserve cluster x
          match s2.matching x l with
          | none => .next s2
          | some ms =>
            if ms.any fun m => (s2.engine m.1).busy || !m.2.2.2.reserved then .next s2
            else .next (s2.grantAll x ms)

/-! ## A rows (R241, R243, R298) -/

/-- Codes of a row, each with its scale word plus 1, or 0 where it has none. -/
abbrev ARow := List (Nat × Nat)

/-- Buffer rows of a walker context that are ready and untaken. -/
def State.rowsReady (s : State) (cluster ctx : Nat) : Nat :=
  match s.walk.ctxs.find? fun c => c.cluster = cluster && c.ctx = ctx with
  | none => 0
  | some c => (c.tiles.filter Tile.ready).foldl (fun n x => n + (c.job.rows - x.taken)) 0

/-- The next untaken buffer row of a walker context. -/
def State.takeRow (s : State) (cluster ctx : Nat) : List Nat × State :=
  match s.walk.ctxs.find? fun c => c.cluster = cluster && c.ctx = ctx, s.readyTiles cluster ctx with
  | some c, x :: _ =>
    let row := (List.range 128).map fun n => look 0 x.codes (128 * x.taken + n)
    let after := if x.taken + 1 < c.job.rows then { x with taken := x.taken + 1 } else Tile.blank
    (row, { s with walk := { s.walk with
      ctxs := updWhere s.walk.ctxs (fun y => y.cluster = cluster && y.ctx = ctx) fun y =>
        { y with tiles := updWhere y.tiles (fun z => z.ready && z.order = x.order) fun _ => after } } })
  | _, _ => ([], s)

/-- The next `n` buffer rows joined. -/
def State.takeRows (s : State) (cluster ctx : Nat) : Nat → List Nat × State
  | 0 => ([], s)
  | n + 1 =>
    let a := s.takeRow cluster ctx
    let b := a.2.takeRows cluster ctx n
    (a.1 ++ b.1, b.2)

/-- A walker row of A: it waits for the rows, and the formats are compared when they are there (R298; log 67). -/
def walkerRow (s : State) (t : Team) (cluster : Nat) (x : Pass) (depth : Nat) : Found (List Nat) :=
  let ctx := x.ka.toNat
  let cluster := s.tileCluster t cluster ctx
  let r := (depth + 127) / 128
  if s.wrongJob t cluster ctx 1 then .stop { code := trapMatrixState } s
  else if s.rowsReady cluster ctx < r then .park s
  else if s.jobFormat cluster ctx ≠ some x.fmtA then .stop { code := trapMatrixFormat } s
  else
    let got := s.takeRows cluster ctx r
    .got (got.1.take depth) got.2

/-- Codes of row `i` as they are stored. -/
def storedRow (s : State) (t : Team) (cluster : Nat) (x : Pass) (depth i : Nat) : Found (List Nat) :=
  let bits := codeBits x.fmtA
  if x.word.kind = 2 then walkerRow s t cluster x depth
  else if x.turn = 1 then
    match readRows (fun s k => readBits s t cluster x.word.kind x.ka (rowBit x.stride bits x.count k + bits * i) bits 1) s 0 depth with
    | .got l s1 => .got (l.map fun r => r.headD 0) s1
    | .stop e s1 => .stop e s1
    | .park s1 => .park s1
  else readBits s t cluster x.word.kind x.ka (rowBit x.stride bits depth i) bits depth

/-- The blocks of rows quantised on the way: positions by row and K (R243). -/
def quantBlocks (square : Bool) (tr rows depth : Nat) : List (List (Nat × Nat)) :=
  let r := List.range rows
  if square then (List.range (depth / 32)).map fun b => (r.map fun i => (List.range 32).map fun k => (i, 32 * b + k)).flatten
  else if tr = 2 then (r.map fun i => (List.range (depth / 32)).map fun b => (List.range 32).map fun k => (i, 32 * b + k)).flatten
  else (List.range depth).map fun k => r.map fun i => (i, k)

/-- Rows from `lo` on quantised into the pass, with their flags (R73). -/
def Pass.formRows (x : Pass) (lo depth : Nat) (vals : List (List Val)) : Pass × Flag :=
  (quantBlocks x.cfg.square x.turn vals.length depth).foldl (fun (acc : Pass × Flag) b =>
    let q := quantise [] x.fmtA (b.map fun p => (vals.getD p.1 []).getD p.2 (.zero false))
    let y := (b.zip q.1).foldl (fun (y : Pass) z =>
      let key := 1024 * (lo + z.1.1) + z.1.2
      { y with aCodes := keep 0 y.aCodes key z.2, aScales := keep 0 y.aScales key (q.2.1 + 1) }) acc.1
    (y, acc.2 ||| q.2.2)) (x, 0)

/-- Row `i` out of the blocks that are formed. -/
def formedRow (codes scales : List (Nat × Nat)) (i depth : Nat) : ARow :=
  (List.range depth).map fun k => (look 0 codes (1024 * i + k), look 0 scales (1024 * i + k))

/-- Row `i` of A from its source, with its flags and the pass that remembers the blocks that it has formed. -/
def readRow (s : State) (t : Team) (cluster : Nat) (x : Pass) (depth i : Nat) : Found (ARow × Flag × Pass) :=
  if x.quantA then
    if look 0 x.aScales (1024 * i) ≠ 0 then .got (formedRow x.aCodes x.aScales i depth, 0, x) s
    else
      let one := !x.cfg.square && x.turn = 2
      let lo := if one then i else 32 * (i / 32)
      let n := if one then 1 else min 32 (x.count - lo)
      match readRows (fun s r => readBits s t cluster x.word.kind x.ka (rowBit x.stride 16 depth r) 16 depth) s lo n with
      | .got rows s1 =>
        let f := x.formRows lo depth (rows.map fun r => r.map (codeDecode [] 1))
        .got (formedRow f.1.aCodes f.1.aScales i depth, f.2, f.1) s1
      | .stop e s1 => .stop e s1
      | .park s1 => .park s1
  else
    let blocks := (List.range ((depth + 31) / 32)).map fun b => if x.turn = 1 then (b, i / 32, b) else (i / 32, b, b)
    match (if modeScaled x.mode then readScales s t cluster x.cfg.baseA x.mode blocks else .got ([], 0) s) with
    | .stop e s1 => .stop e s1
    | .park s1 => .park s1
    | .got (sc, f) s1 =>
      match storedRow s1 t cluster x depth i with
      | .got l s2 =>
        .got ((l.zip (List.range depth)).map fun c =>
          (c.1, ((sc.find? fun y => y.1 = c.2 / 32).map fun y => y.2 + 1).getD 0), f, x) s2
      | .stop e s2 => .stop e s2
      | .park s2 => .park s2

/-- Row `i` of A from the reuse latch, with the flags that its read from the source sets, or from its source (R242, R250). -/
def fetchRow (s : State) (t : Team) (cluster : Nat) (x : Pass) (depth i : Nat) : Found (ARow × Flag × Pass) :=
  match (s.engine cluster).reuse with
  | some r =>
    if x.fromLatch && r.first ≤ i then .got (formedRow r.codes r.scales i depth, look 0 r.flags i, x) s
    else readRow s t cluster x depth i
  | none => readRow s t cluster x depth i

/-- A row of a quantised block of several rows other than the first that is read of it: the block was formed with that one (R243). -/
def Pass.blockGoesOn (x : Pass) (first i : Nat) : Bool := x.quantA && (x.cfg.square || x.turn ≠ 2) && first < i && i % 32 ≠ 0

/-- A row captured into the latch; it carries the flags that a read beginning with it would set, those of its whole block. -/
def Reuse.capture (r : Reuse) (x : Pass) (i : Nat) (row : ARow) (f : Flag) : Reuse :=
  let block := if x.blockGoesOn r.first i then look 0 r.flags (i - 1) else 0
  (row.zip (List.range row.length)).foldl (fun (r : Reuse) z =>
    { r with codes := keep 0 r.codes (1024 * i + z.2) z.1.1, scales := keep 0 r.scales (1024 * i + z.2) z.1.2 })
    { r with flags := keep 0 r.flags i (f ||| block) }

/-! ## Arithmetic (R247-R249) -/

/-- The value of an element under the scale word (plus 1) that it has, with NV where a scale meets a signalling NaN (R62, R249). -/
def scaledElement (v : Val) (sw : Nat) : Val × Flag :=
  if sw = 0 then (v, 0) else
  match scaleWord (sw - 1) with
  | some q => scaleVal q.1 v
  | none => (v, 0)

/-- Scale word plus 1 of a stored weight. -/
def Weights.scaleAt (w : Weights) (row col : Nat) : Nat :=
  if !w.scaled then 0 else
  1 + look 0 w.scales (match w.shape with
    | 0 => 16 * (row / 32) + col / 32
    | 1 => 16 * row + col / 32
    | _ => 128 * (row / 32) + col)

/-- Logical K of a stored weight (R244, R248). -/
def Weights.logical (w : Weights) (row col : Nat) : Nat :=
  if w.keep = 0 then row else 24 * (row / w.keep) + look 0 w.pos (128 * row + col)

def Weights.code (w : Weights) (row col : Nat) : Nat := look 0 w.codes (128 * row + col)

/-- The chunk of one column under the FP32 kind: the exact sum of products, and its flags (R248, R249). -/
def chunk (l : List (Val × Val)) : Val × Flag :=
  let ps := l.map fun p => vMul p.1 p.2
  let fl := (ps.map Prod.snd).foldl (· ||| ·) 0
  let up := ps.any fun p => p.1 = .inf false
  let down := ps.any fun p => p.1 = .inf true
  if ps.any (fun p => p.1.isNan) || (up && down) then (.nan false false (2 ^ 51), fl ||| flagIf (up && down) flagNV)
  else if up then (.inf false, fl)
  else if down then (.inf true, fl)
  else
    match ps with
    | [] => (.zero false, fl)
    | p :: r => (r.foldl (fun acc q => (addFin 0 acc q.1).1) p.1, fl)

/-- The F32 that the array delivers (R249). -/
def arrayF32 (v : Val) : Nat × Flag := if v.isNan then (0x7FC00000, 0) else fmtF32.round 0 0 false v

/-- One word of the FP32 kind. -/
def addChunk (old : Val) (c : Val × Flag) : W32 × Flag :=
  let r := vAdd 0 old c.1
  let q := arrayF32 r.1
  (BitVec.ofNat 32 q.1, c.2 ||| r.2 ||| q.2)

/-- An integer element. -/
def intElement (fmt code : Nat) : Int := ((codeInt fmt).map fun ty => ty.of code).getD 0

/-- One word of the I32 kind: IW where the sum wraps. -/
def addInt (old : W32) (s : Int) : W32 × Flag :=
  let r := old.toInt + s
  let v := BitVec.ofInt 32 r
  (v, flagIf (v.toInt ≠ r) flagIW)

/-- One A row against a latched tile: the new words of the accumulator row, and the flags. What A is, its format and whether it has
scales, the head of the chain says, whose operands are the ones that are read (R245, R250). -/
def Pass.products (x head : Pass) (w : Weights) (row : ARow) (old : List W32) : List W32 × Flag :=
  let rep := x.word.fo = 1
  let rows := List.range (tileRows w.fmt)
  let isInt := intCode head.fmtA && intCode w.fmt && !head.scaledA && !w.scaled
  let words := (List.range 128).map fun n =>
    let before : W32 := if rep then 0 else old.getD n 0
    if isInt then
      addInt before ((rows.map fun r => intElement head.fmtA (row.getD (w.logical r n) (0, 0)).1 * intElement w.fmt (w.code r n)).foldl (· + ·) 0)
    else
      let pairs := rows.map fun r =>
        let a := row.getD (w.logical r n) (0, 0)
        (scaledElement (codeDecode [] head.fmtA a.1) a.2, scaledElement (codeDecode x.codebook w.fmt (w.code r n)) (w.scaleAt r n))
      let f := (pairs.map fun p => p.1.2 ||| p.2.2).foldl (· ||| ·) 0
      let r := addChunk (fmtF32.decode before.toNat) (chunk (pairs.map fun p => (p.1.1, p.2.1)))
      (r.1, f ||| r.2)
  (words.map Prod.fst, (words.map Prod.snd).foldl (· ||| ·) 0)

/-! ## Rows -/

/-- One row of an accumulator. -/
def Engine.rowAt (e : Engine) (row : Nat) : List W32 := (List.range 128).map fun n => e.word row n

def State.setAcc (s : State) (cluster row : Nat) (l : List W32) : State := s.setEngine ((s.engine cluster).setRow row l)

/-- What a row of a pass comes to. -/
inductive RowStep where
  /-- A row done, with its flags and the pass as it remembers what it has formed. -/
  | row (f : Flag) (y : Pass) (s : State)
  /-- The header of a record; no row. -/
  | part (y : Pass) (s : State)
  | stop (x : Stop) (s : State)
  | wait (s : State)

/-- Extents of a row checked one after another, with the use of each. -/
def extentsAt (s : State) (t : Team) (cluster : Nat) : List (Nat × W64 × Nat × Nat × Use) → Found (List Extent)
  | [] => .got [] s
  | (kind, at_, off, n, use) :: r =>
    match extentAt s t cluster kind at_ off n use with
    | .stop x s1 => .stop x s1
    | .park s1 => .park s1
    | .got e s1 =>
      match extentsAt s1 t cluster r with
      | .got l s2 => .got (e :: l) s2
      | x => x

/-- Extents written in turn. -/
def putAll (s : State) (team : Nat) (l : List (Extent × List Byte)) : State := l.foldl (fun s p => p.1.put s team p.2) s

/-- The 128 draws of a row of a pass under rm 5. -/
def State.passDraws (s : State) (id : Nat) : Option (List Nat) :=
  (s.noise.reqs.find? fun r => r.who = Drawer.pass id && r.ready).map DrawReq.got

def State.askPass (s : State) (cluster team id : Nat) : State :=
  s.postDraw (.new cluster team 1 0 (.pass id) 128)

def State.dropPassDraws (s : State) (id : Nat) : State :=
  { s with noise := { s.noise with reqs := s.noise.reqs.filter fun r => r.who ≠ Drawer.pass id } }

/-- The draws of a row, where its elements take any. -/
def Pass.draws (x : Pass) (s : State) (any_ : Bool) : Option (List Nat) :=
  if !any_ then some []
  else if x.rm = 5 then s.passDraws x.id
  else if x.rm = 6 then some ((List.range 128).map fun n => x.keyedDraw x.row n)
  else some []

/-- MZERO's row. -/
def zeroStep (x : Pass) (t : Team) (cluster : Nat) (s : State) : RowStep :=
  .row 0 x (s.setAcc cluster (x.firstRow t + x.row) (List.replicate 128 0))

/-- The function of MEPI (R269). -/
def epilogue (fn : Nat) (lim : Val) (v : W32) : W32 :=
  let d := fmtF32.decode v.toNat
  if d.isNan || fn = 0 then v
  else if fn = 1 then (if vCmp d (.zero false) ≠ .gt then 0 else v)
  else if vCmp d lim.negate = .lt then BitVec.ofNat 32 (fmtF32.round 0 0 false lim.negate).1
  else if vCmp d lim = .gt then BitVec.ofNat 32 (fmtF32.round 0 0 false lim).1
  else v

/-- MEPI's row. -/
def epiStep (x : Pass) (t : Team) (cluster : Nat) (s : State) : RowStep :=
  let row := x.firstRow t + x.row
  let words := (s.engine cluster).rowAt row
  let fn := bitsOf x.word.md.toNat 2 2
  let fin (l : List (W32 × Flag)) (s : State) : RowStep :=
    .row ((l.map Prod.snd).foldl (· ||| ·) 0) x (s.setAcc cluster row (l.map fun v => epilogue fn x.limit v.1))
  if x.word.fo = 0 then fin (words.map fun v => (v, 0)) s
  else
    match readBits s t cluster x.word.kind x.ka 0 32 128 with
    | .stop e s1 => .stop e s1
    | .park s1 => .wait s1
    | .got bias s1 =>
      fin ((words.zip bias).map fun v =>
        let r := vAdd 0 (fmtF32.decode v.1.toNat) (fmtF32.decode v.2)
        let q := fmtF32.round 0 0 false r.1
        (BitVec.ofNat 32 q.1, r.2 ||| q.2)) s1

/-- One element that MSTC stores without a scale (R270). -/
def storeElement (md fo draw : Nat) (v : W32) : Nat × Flag :=
  let sat := bitOf md 3
  let rm := bitsOf md 4 3
  if bitOf md 7 then
    match codeInt fo with
    | some ty => if sat then (ty.code (clamp ty.lo ty.hi v.toInt), flagIf (clamp ty.lo ty.hi v.toInt ≠ v.toInt) flagSA)
                 else (ty.code v.toInt, 0)
    | none => codeEncode [] fo rm draw sat (valOfInt v.toInt)
  else codeEncode [] fo rm draw sat (fmtF32.decode v.toNat)

/-- The blocks of MSTC that hold a row, formed once (R270, R73). -/
def Pass.formStore (x : Pass) (t : Team) (e : Engine) : Pass × Flag :=
  if !modeScaled x.mode || look 0 x.aScales (1024 * x.row) ≠ 0 then (x, 0)
  else
    let lo := if x.cfg.square then 32 * (x.row / 32) else x.row
    let n := if x.cfg.square then min 32 (x.count - lo) else 1
    let vals := (List.range n).map fun j => (e.rowAt (x.firstRow t + lo + j)).map (wordVal (bitOf x.word.md.toNat 7))
    (quantBlocks x.cfg.square 2 n 128).foldl (fun (acc : Pass × Flag) b =>
      let q := quantise [] x.word.fo.toNat (b.map fun p => (vals.getD p.1 []).getD p.2 (.zero false))
      let y := (b.zip q.1).foldl (fun (y : Pass) z =>
        let key := 1024 * (lo + z.1.1) + z.1.2
        { y with aCodes := keep 0 y.aCodes key z.2, aScales := keep 0 y.aScales key (q.2.1 + 1) }) acc.1
      (y, acc.2 ||| q.2.2)) (x, 0)

/-- MSTC's row (R270): every location is checked before any is written. -/
def storeStep (x : Pass) (t : Team) (cluster : Nat) (s : State) : RowStep :=
  let fo := x.word.fo.toNat
  let md := x.word.md.toNat
  let bits := codeBits fo
  let scaled := modeScaled x.mode
  let first := scaled && (!x.cfg.square || x.row % 32 = 0)
  let bi := if x.cfg.square then x.row / 32 else x.row
  let places := (x.word.kind, x.ka, rowBit x.stride bits 128 x.row / 8, 16 * bits, Use.write)
    :: (if first then [(1, scaleAddr x.cfg.baseO x.mode bi 0, 0, 8, Use.write)] else [])
  match extentsAt s t cluster places with
  | .stop e s1 => .stop e s1
  | .park s1 => .wait s1
  | .got es s1 =>
    let rounded := !scaled && !(bitOf md 7 && (codeInt fo).isSome)
    match x.draws s1 rounded with
    | none => .wait (s1.askPass cluster t.id x.id)
    | some ds =>
      let row := x.firstRow t + x.row
      let words := (s1.engine cluster).rowAt row
      let f := x.formStore t (s1.engine cluster)
      let conv := if scaled then (formedRow f.1.aCodes f.1.aScales x.row 128).map fun c => (c.1, (0 : Flag))
        else (words.zip (List.range 128)).map fun v => storeElement md fo (ds.getD v.2 0) v.1
      let scales := ((List.range 4).map fun b => toBytes 2 (look 1 f.1.aScales (1024 * x.row + 32 * b) - 1)).flatten
      let s2 := putAll (s1.dropPassDraws x.id) t.id (es.zip [packBytes bits (conv.map Prod.fst), scales])
      let s3 := if bitOf md 2 then s2.setAcc cluster row (List.replicate 128 0) else s2
      .row ((conv.map Prod.snd).foldl (· ||| ·) f.2) f.1 s3

/-- MTURN's row (R272). -/
def turnStep (x : Pass) (t : Team) (cluster : Nat) (s : State) : RowStep :=
  let bits := codeBits x.fmtA
  let cols := extCount x.mode
  match readBits s t cluster x.word.kind x.ka (rowBit x.stride bits cols x.row) bits cols with
  | .stop e s1 => .stop e s1
  | .park s1 => .wait s1
  | .got l s1 =>
    let kind := bitsOf x.word.md.toNat 2 2
    let places := (List.range cols).map fun j =>
      (kind, x.kc, (rowBit (extStride x.mode) bits x.count j + bits * x.row) / 8, bits / 8, Use.write)
    match extentsAt s1 t cluster places with
    | .stop e s2 => .stop e s2
    | .park s2 => .wait s2
    | .got es s2 => .row 0 x (putAll s2 t.id (es.zip (l.map (toBytes (bits / 8)))))

/-! ### MDRAIN (R274) -/

/-- A step of the rule: a value rounded to F32, its flags joined to those before. -/
def step32 (acc : Flag) (r : Val × Flag) : Val × Flag :=
  let q := fmtF32.round 0 0 false r.1
  (fmtF32.decode q.1, acc ||| r.2 ||| q.2)

/-- w - a × b with one rounding. -/
def vFnma (a b w : Val) : Val × Flag :=
  match firstNan [a, b, w] with
  | some r => r
  | none => vFma 0 a b.negate w

/-- The rule on one element: the new weight, m and v, and the flags. -/
def UpdateRule.apply (r : UpdateRule) (omb1 omb2 acc w m v : W32) : W32 × W32 × W32 × Flag :=
  let d (x : W32) : Val := fmtF32.decode x.toNat
  let out (x : Val) : W32 := BitVec.ofNat 32 (fmtF32.round 0 0 false x).1
  let g0 := step32 0 (vMul (d acc) (d r.gain))
  let g := if r.rule = 1 then
      let p := step32 g0.2 (vMul (d r.decay) (d w))
      step32 p.2 (vAdd 0 g0.1 p.1)
    else g0
  let (u, m', v', f) :=
    if r.rule = 0 then
      let n := step32 g.2 (vFma 0 (d r.beta1) (d m) g.1)
      (n.1, out n.1, v, n.2)
    else
      let a := step32 g.2 (vMul (d r.beta1) (d m))
      let b := step32 a.2 (vMul (d omb1) g.1)
      let m1 := step32 b.2 (vAdd 0 a.1 b.1)
      let c := step32 m1.2 (vMul (d r.beta2) (d v))
      let e := step32 c.2 (vMul (d omb2) g.1)
      let h := step32 e.2 (vMul e.1 g.1)
      let v1 := step32 h.2 (vAdd 0 c.1 h.1)
      let top := step32 v1.2 (vMul m1.1 (d r.c1))
      let bot := step32 top.2 (vMul v1.1 (d r.c2))
      let root := step32 bot.2 (vSqrt bot.1)
      let den := step32 root.2 (vAdd 0 root.1 (d r.eps))
      let q := step32 den.2 (vDiv top.1 den.1)
      (q.1, out m1.1, out v1.1, q.2)
  let u' := if r.rule = 1 then (u, f) else
      let p := step32 f (vMul (d r.decay) (d w))
      step32 p.2 (vAdd 0 u p.1)
  let w' := step32 u'.2 (vFnma (d r.lr) u'.1 (d w))
  (out w'.1, m', v', w'.2)

/-- MDRAIN's row: weights, state and copy are all checked before any is written. -/
def drainStep (x : Pass) (t : Team) (cluster : Nat) (s : State) : RowStep :=
  match x.rule with
  | none => .stop { code := trapMatrixState } s
  | some r =>
    let off := if x.stride = 0 then 512 * x.row else x.stride * x.row
    let size := codeBits r.fmt / 8
    let places := [(1, x.ka, off, 512, Use.read), (1, x.ka, off, 512, Use.write), (1, x.km, 2 * off, 1024, Use.read),
        (1, x.km, 2 * off, 1024, Use.write)]
      ++ (if r.fmt = 0 then [] else [(1, r.copy, off / 4 * size, 128 * size, Use.write)])
    match extentsAt s t cluster places with
    | .stop e s1 => .stop e s1
    | .park s1 => .wait s1
    | .got es s1 =>
      match x.draws s1 (r.fmt ≠ 0) with
      | none => .wait (s1.askPass cluster t.id x.id)
      | some ds =>
        let row := x.firstRow t + x.row
        let word (b : List Byte) (n : Nat) : W32 := BitVec.ofNat 32 (fieldOf b (4 * n) 4)
        let read (s : State) (i : Nat) : State × List Byte := ((es[i]?).map fun e => e.bytes s cluster t.id).getD (s, [])
        let (sw, w) := read s1 0
        let (ss, st) := read sw 2
        let out := (((ss.engine cluster).rowAt row).zip (List.range 128)).map fun a =>
          r.apply x.omb1 x.omb2 a.1 (word w a.2) (word st (2 * a.2)) (word st (2 * a.2 + 1))
        let copy := (out.zip (List.range 128)).map fun a =>
          if r.fmt = 0 then (0, (0 : Flag)) else codeEncode [] r.fmt r.rm (ds.getD a.2 0) false (fmtF32.decode a.1.1.toNat)
        let puts := [[], (out.map fun a => toBytes 4 a.1.toNat).flatten, [],
          (out.map fun a => toBytes 4 a.2.1.toNat ++ toBytes 4 a.2.2.1.toNat).flatten, (copy.map fun c => toBytes size c.1).flatten]
        let s2 := putAll (ss.dropPassDraws x.id) t.id ((es.zip puts).filter fun p => !p.2.isEmpty)
        let s3 := if r.zero then s2.setAcc cluster row (List.replicate 128 0) else s2
        .row (((out.map fun a => a.2.2.2) ++ copy.map Prod.snd).foldl (· ||| ·) 0) x s3

/-! ### MSAVE and MLOAD (R257, R275) -/

/-- The header of a record. -/
def saveHeader (p : Prompter) (x : Pass) : List Byte :=
  toBytes 8 p.ckpt ++ toBytes 4 p.mprog ++ toBytes 2 x.kc.toNat ++ toBytes 2 x.count
    ++ ((List.range 16).map fun b => toBytes 4 (look 0 p.consumed b).toNat).flatten ++ toBytes 48 0

/-- MSAVE's next row, its header first. -/
def saveStep (x : Pass) (p : Prompter) (t : Team) (cluster : Nat) (s : State) : RowStep :=
  let put (off : Nat) (d : List Byte) (fin : State → RowStep) : RowStep :=
    match extentAt s t cluster 1 x.ka off d.length .write with
    | .stop e s1 => .stop e s1
    | .park s1 => .wait s1
    | .got e s1 => fin (e.put s1 t.id d)
  if x.header.isEmpty then put 0 (saveHeader p x) fun s => .part { x with header := saveHeader p x } s
  else put (128 + 512 * x.row) (((s.engine cluster).rowAt (x.firstRow t + x.row)).map fun v => toBytes 4 v.toNat).flatten
    fun s => .row 0 x s

/-- MLOAD's next row, its header first. -/
def loadStep (x : Pass) (t : Team) (cluster : Nat) (s : State) : RowStep :=
  if x.header.isEmpty then
    match readAt s t cluster 1 x.ka 0 128 with
    | .stop e s1 => .stop e s1
    | .park s1 => .wait s1
    | .got h s1 =>
      if fieldOf h 12 2 ≠ x.kc.toNat % 65536 || fieldOf h 14 2 ≠ x.count then .stop { code := trapMatrixState } s1
      else .part { x with header := h } s1
  else
    match readBits s t cluster 1 x.ka (8 * (128 + 512 * x.row)) 32 128 with
    | .stop e s1 => .stop e s1
    | .park s1 => .wait s1
    | .got l s1 => .row 0 x (s1.setAcc cluster (x.firstRow t + x.row) (l.map (BitVec.ofNat 32)))

/-- What MLOAD does after its last row: MPROG, the consumed counts, the ID and the tags of the team's range. -/
def State.endLoad (s : State) (cluster : Nat) (t : Team) (x : Pass) : State :=
  let ckpt := fieldOf x.header 0 8
  let e := s.engine cluster
  let s1 := s.setEngine
    { e with tags := (List.range ((t.launch.accRows + 63) / 64)).foldl (fun m b => keep 0 m (t.accBase / 64 + b) ckpt) e.tags }
  s1.updContext cluster x.ctx fun p =>
    { p with ckpt := ckpt, mprog := fieldOf x.header 8 4,
             consumed := (List.range 16).foldl (fun m b => keep 0 m b (BitVec.ofNat 32 (fieldOf x.header (16 + 4 * b) 4))) [] }

/-! ### One row -/

/-- The pass behind its row; after the last one MPROG returns to 0, and the latch frees under ru = 0. -/
def State.advancePass (s : State) (cluster : Nat) (t : Team) (f : Flag) (y : Pass) : State :=
  let last := y.count ≤ y.row + 1
  let s1 := s.updPass cluster y.id fun _ => { y with row := y.row + 1, flags := y.flags ||| f, finished := last }
  if y.kind = .mload then (if last then s1.endLoad cluster t y else s1)
  else
    let s2 := s1.updContext cluster y.ctx fun p => { p with mprog := if last then 0 else y.row + 1 }
    if last && y.fromLatch && y.word.ru = 0 then s2.setEngine { s2.engine cluster with reuse := none } else s2

/-- The passes of a chain with their clusters and teams, when all are there and run. -/
def State.runners (s : State) (x : Pass) : Option (List (Nat × Team × Pass)) :=
  let found := x.partners.filterMap fun id =>
    match s.mx.engines.find? fun e => e.table.any fun y => y.id = id with
    | none => none
    | some e =>
      match e.table.find? fun y => y.id = id with
      | none => none
      | some y =>
        match s.team? y.team with
        | some t => if y.granted && !y.stopped && !t.removed then some (e.cluster, t, y) else none
        | none => none
  if found.length = x.partners.length then some found else none

/-- One A row through the engines of a chain (R245, R248): each member accumulates the rows from its own start on. The flags of the
read of A are every member's, as without a chain (R250). -/
def mulStep (x : Pass) (t : Team) (cluster : Nat) (s : State) : RowStep :=
  match s.runners x, x.weights with
  | some ms, some tile =>
    let i := ms.foldl (fun n m => min n m.2.2.row) x.row
    match fetchRow s t cluster x tile.depth i with
    | .stop e s1 => .stop e s1
    | .park s1 => .wait s1
    | .got (row, f, y) s1 =>
      let deepest := ms.foldl (fun n m => max n ((m.2.2.weights.map Weights.depth).getD 0)) 0
      let full := row ++ (List.range (deepest - row.length)).map fun k => (Config.chainCode (1024 * s.choices + k), 0)
      let s2 := if row.length < deepest then { s1 with choices := s1.choices + 1 } else s1
      let e := s2.engine cluster
      let s3 := (s2.setEngine { e with reuse := if x.capture then e.reuse.map fun r => r.capture x i row f else e.reuse }).updPass cluster x.id
        fun _ => y
      .row 0 y (ms.foldl (fun s m =>
        match m.2.2.weights, (s.engine m.1).table.find? fun z => z.id = m.2.2.id with
        | some w, some z =>
          if z.row ≠ i then s else
          let at_ := z.firstRow m.2.1 + i
          let r := z.products x w full ((s.engine m.1).rowAt at_)
          (s.setAcc m.1 at_ r.1).advancePass m.1 m.2.1 (f ||| r.2) z
        | _, _ => s) s3)
  | _, _ => .wait s

/-- The running pass of an engine, its context and its team, under the ASID that it was posted with (R203). -/
def State.runningPass (s : State) (cluster : Nat) : Option (Pass × Prompter × Team) :=
  match (s.engine cluster).table.find? fun x => x.granted && !x.finished with
  | none => none
  | some x =>
    match s.team? x.team, s.mx.ctxs.find? fun p => p.cluster = cluster && p.ctx = x.ctx with
    | some t, some p => if t.removed then none else some (x, p, { t with asid := x.asid })
    | _, _ => none

/-- The next row of a running pass; in a chain the head leads. -/
def rowStep (x : Pass) (p : Prompter) (t : Team) (cluster : Nat) (s : State) : RowStep :=
  match x.kind with
  | .mma | .mmac => if x.partners.head? = some x.id then mulStep x t cluster s else .wait s
  | .mzero => zeroStep x t cluster s
  | .mstc => storeStep x t cluster s
  | .mturn => turnStep x t cluster s
  | .mdrain => drainStep x t cluster s
  | .msave => saveStep x p t cluster s
  | .mload => loadStep x t cluster s
  | .mepi => epiStep x t cluster s

/-- A running pass performs its next row; one that would stop does nothing here (see PASS_STOP). -/
def State.rowTurn (s : State) (cluster : Nat) : State :=
  match s.runningPass cluster with
  | none => s
  | some (x, p, t) =>
    match rowStep x p t cluster s with
    | .row f y s1 => if x.isMul then s1 else s1.advancePass cluster t f y
    | .part y s1 => s1.updPass cluster x.id fun _ => y
    | .wait s1 => s1
    | .stop _ _ => s

/-- A running pass stops at its row, with MPROG there; in a chain every member stops, and the head writes the record (R245, R255). -/
def State.haltPass (s : State) (cluster : Nat) (t : Team) (x : Pass) (e : Stop) : State :=
  let i := ((s.runners x).getD []).foldl (fun n m => min n m.2.2.row) x.row
  let halt (s : State) (c : Nat) (t : Team) (y : Pass) (told : Bool) : State :=
    (if y.kind = .mload then s else s.updContext c y.ctx fun q => { q with mprog := y.row }).stopPass c t y e i told
  if x.isMul then ((s.runners x).getD []).foldl (fun s m => halt s m.1 m.2.1 m.2.2 (m.2.2.id = x.id)) s
  else halt s cluster t x true

/-- PASS_STOP (R255): the next row of the running pass cannot be done, so it stops there. -/
def execPassStop (cluster : Nat) (s : State) : Out :=
  match s.runningPass cluster with
  | none => .next s
  | some (x, p, t) =>
    match rowStep x p t cluster s with
    | .stop e s1 => .next (s1.haltPass cluster t x e)
    | _ => .next s

/-- PASS_COMPLETION (R253): a pass whose rows are all performed completes in stream order, with the flags of every earlier pass and load of
its context. Its entry leaves the table, and its context's share of it, here (R252; log 67). -/
def execPassCompletion (cluster : Nat) (s : State) : Out :=
  let e := s.engine cluster
  let ready (x : Pass) : Bool := x.finished && ((s.passesOf cluster x.ctx)[0]?).map Pass.id = some x.id
  match e.table.find? ready with
  | none => .next s
  | some x =>
    match s.mx.ctxs.find? fun p => p.cluster = cluster && p.ctx = x.ctx with
    | none => .next s
    | some p =>
      let fl := p.flags ||| x.flags
      let s1 := (s.setEngine { e with table := e.table.filter fun y => y.id ≠ x.id }).updContext cluster x.ctx fun q => { q with flags := fl }
      let s2 := if x.word.sb = 15 then s1 else s1.signal x.team x.word.sb.toNat fl
      .next (s2.settleIdle cluster x.ctx)

end Sys2Proof.Machine
end

