-- ==== Sys2Proof/Machine/Spawn.lean ====
section
/-! DEFINITION. What the distributor initialises before a team's first instruction (06 R117-R119). -/

namespace Sys2Proof.Machine

open Sys2Proof

/-- A thread before its first instruction (R117; log 3 for what R117 does not name). -/
def Thread.fresh (tid : Nat) (entry stack : W64) (now : Nat) : Thread where
  tid := tid
  pc := entry
  idx := 0
  x := keep 0 (keep 0 [] 0 (loOf stack)) 1 (hiOf stack)
  empty := []
  preds := 0
  tokens := []
  fpflags := 0
  fpenable := 0
  prog := 0
  srkc := 0
  exited := false
  parked := false
  singleStep := false
  pendTimer := false
  pendWatchdog := false
  pendMatrix := false
  held := []
  uhnd := 0
  tcause := 0
  tepc := 0
  priv := false
  wait := .ready
  since := now
  absent := []
  issuedAt := now
  used := []
  filled := []

/-- Split iterations of team `n` of `count` (R119): k4, k5 and k6. -/
def splitIters (l : Launch) (n count : Nat) : Nat × Nat × Nat :=
  if !l.split then (0, 0, 0) else
  let s := n * l.iters / count
  let e := (n + 1) * l.iters / count
  let i := l.perTile
  (s, e - s, bit (0 < i && s % i ≠ 0) + 2 * bit (0 < i && e % i ≠ 0 && e < l.iters))

/-- k0 to k15 of a team at its start (R117-R119). -/
def initialK (l : Launch) (n gangSize rank : Nat) : List Nat :=
  let (s, c, fix) := splitIters l n (l.gx * l.gy * l.gz)
  [n % l.gx, n / l.gx % l.gy, n / (l.gx * l.gy), gangSize % 65536 + 65536 * rank, s, c, fix] ++ l.kInit.map BitVec.toNat

/-- A team before its first instruction (R117-R119). -/
def Team.fresh (id : Nat) (handle : W32) (grid n : Nat) (l : Launch) (asid : BitVec 16) (gang rank gangSize core accBase : Nat)
    (ctx : Option Nat) (now : Nat) : Team :=
  let entry := ((l.roles[0]?).map Role.entry).getD 0
  let groups := l.size / max 1 l.width
  let t : Team :=
    { id := id, handle := handle, grid := grid, teamNo := n, gang := gang, rank := rank, gangSize := gangSize, core := core,
      asid := asid, launch := l, threads := [],
      groups := List.replicate groups { role := 0, tmrcmp := 0, slots := [], waited := [], next := none },
      barriers := List.replicate 16 { expect := groups, arrived := 0, phase := 0, pending := 0, flags := [] },
      k := ((initialK l n gangSize rank).zip (List.range 16)).foldl (fun m p => keep 0 m p.2 (BitVec.ofNat 32 p.1)) [],
      kWait := [], spad := [], dpf := BitVec.ofNat 32 l.dpf, wdog := BitVec.ofNat 32 l.wdog, dpfCount := 0, wdogCount := 0,
      running := List.range l.size, front := (entry, 0, 0), turned := now, fell := [], marked := false, saveArea := none, removed := false, timerLeft := [],
      rehearsal := 0, ringBase := 0, ringSize := 0, draws := [], accBase := accBase, ctx := ctx }
  { t with threads := (List.range l.size).map fun tid => Thread.fresh tid entry (t.stackTop tid) now }

/-- An access-table entry that lets master class 0 reach a whole target (R424), as `withFetchWord` sets it. -/
def Ctl.open0 (c : Ctl) (target : Nat) : Ctl :=
  (c.setReg (0x2000000 + 0x1000 * target) 0).setReg (0x2000000 + 0x1000 * target + 8) (BitVec.ofNat 64 (2 ^ 20 + 7 * 2 ^ 32))

/-- The launch that `withFetchWord` places a core word under: one group of 16 threads of 128 registers. -/
def probeLaunch : Launch where
  addr := 0
  width := 16
  progress := false
  pair := false
  split := false
  size := 16
  gx := 1
  gy := 1
  gz := 1
  roles := [{ entry := 0x10000, allot := 128, cls := 0 }]
  spadBytes := 4096
  accRows := 64
  dpf := 1024
  wdog := 2 ^ 24
  gangP := 1
  gangF := 1
  iters := 0
  perTile := 0
  stack := 0
  stream := 0
  dtBase := 0
  dtLen := 0
  segBase := 0x100000
  segSize := 0x100000
  counter := 0
  kInit := []

/-- The team that holds it. -/
def probeTeam (s : State) : Team := Team.fresh s.nextId 0 s.nextId 0 probeLaunch 0 0 0 1 0 0 (some 0) s.time

/-- The code page that holds the word: 64 KiB at virtual and physical 0x10000, in the TLB of a unit. -/
def probeTlb (unit : Nat) : Tlb where
  unit := unit
  asid := 0
  va := 0x10000
  len := 0x10000
  pa := 0x10000
  attr := 7
  leaf := 0

/-- A state in which a bundle's next instruction is the core word `w`. -/
def State.withCoreWord (s : State) (w : Nat) : State :=
  let t := probeTeam s
  let b : Bundle := { id := s.nextId + 1, team := t.id, slot := 0, tids := List.range 16, start := 0, count := 1, cls := 0,
                      notBefore := 0, stalled := false }
  { s with
    mem := putLe s.mem 0x10008 8 w
    units := { s.units with tlb := probeTlb 0 :: s.units.tlb }
    teams := t :: s.teams
    bundles := b :: s.bundles
    ctl := s.ctl.open0 (home 0x10008)
    agenda := [.bundle b.id]
    nextId := s.nextId + 2 }

/-- A Prompter context of a team as placement leaves it. -/
def Prompter.fresh (cluster ctx team : Nat) (hdr : W64) (ckpt : Nat) : Prompter where
  cluster := cluster
  ctx := ctx
  team := team
  st := if hdr = 0 then .idle else .running
  hdr := hdr
  idx := 0
  count := 0
  slot := none
  codebook := none
  mprog := 0
  consumed := []
  ckpt := ckpt
  cfg := { square := false, baseA := 0, baseW := 0, baseO := 0 }
  rule := none
  flags := 0
  wbDone := false
  staged := none
  stagedFrom := none
  cue := none

/-- A state in which the next word of a Prompter context is the stream word `w`. -/
def State.withStreamWord (s : State) (w : Nat) : State :=
  let t := probeTeam s
  let p := { Prompter.fresh 0 0 t.id 0x10000 s.mx.nextCkpt with count := 1 }
  { s with
    mem := putLe s.mem 0x10008 8 w
    units := { s.units with tlb := probeTlb 2048 :: s.units.tlb }
    teams := t :: s.teams
    mx := { s.mx with ctxs := p :: s.mx.ctxs, nextCkpt := s.mx.nextCkpt + 1 }
    ctl := s.ctl.open0 (home 0x10008)
    agenda := [.prompter 0 0]
    nextId := s.nextId + 2 }

/-- A walker context with no job. -/
def Walker.idle (cluster ctx : Nat) : Walker where
  cluster := cluster
  ctx := ctx
  cue := none
  team := 0
  asid := 0
  job := { program := 0, len := 0, fmt := 0, dest := 0, dropZero := false, ctx := 0, rows := 0, stride := 0, save := 0, bases := [], init := [] }
  record := []
  w := []
  z := false
  n := false
  c := false
  pc := 0
  prog := []
  input := []
  tiles := [{ codes := [], ready := false, taken := 0, order := 0 }, { codes := [], ready := false, taken := 0, order := 0 }]
  fill := 0
  merge := none
  wprog := 0
  flags := 0
  wait := .none
  running := false
  stopped := false
  mid := false
  stored := false

/-- A state in which a walker's next instruction is the word `w`. -/
def State.withWalkerWord (s : State) (w : Nat) : State :=
  let c := { Walker.idle 0 0 with prog := keep 0 [] 0 (BitVec.ofNat 32 w), running := true,
                                  job := { (Walker.idle 0 0).job with len := 1 } }
  { s with
    walk := { s.walk with ctxs := c :: s.walk.ctxs, slot := [] }
    agenda := [.walker 0] }

end Sys2Proof.Machine
end

