-- ==== Sys2Proof/Machine/WalkOps.lean ====
section
/-! DEFINITION. Format walkers (15 R286-R307): issue slots, job starts, the instructions of the iterator programs, tiles, the merge
unit, stops and resumption. -/

namespace Sys2Proof.Machine

open Sys2Proof

/-! ## Contexts and the issue slot (R286, R287) -/

def State.walker? (s : State) (cluster ctx : Nat) : Option Walker := s.walk.ctxs.find? fun c => c.cluster = cluster && c.ctx = ctx

def State.setWalker (s : State) (c : Walker) : State :=
  { s with walk := { s.walk with ctxs := updWhere s.walk.ctxs (fun x => x.cluster = c.cluster && x.ctx = c.ctx) fun _ => c } }

/-- The cue of a context's job. -/
def State.jobCue (s : State) (c : Walker) : Option Cue := c.cue.bind fun x => s.cue? x.1 x.2

/-- A context that stopped, and whose cue has been re-armed (R305). -/
def State.rearmed (s : State) (c : Walker) : Bool := c.stopped && ((s.jobCue c).map fun x => decide (x.st = .active)).getD false

/-- Every ready buffer is taken or written. -/
def Walker.drained (c : Walker) : Bool := !c.tiles.any Tile.ready

/-- The checks of an access of a job: steps 10.2 to 10.7 of R184 (R294). -/
def Walker.reach (c : Walker) (s : State) (va : W64) (n : Nat) (use : Use) : Found (List Part) :=
  if !canonical va then .stop { code := trapAccess, va := va, access := use.accessBits } s
  else if va.toNat % n ≠ 0 then .stop { code := trapAlign, va := va, access := use.accessBits } s
  else engReach s (clusterUnit c.cluster) c.asid va n use []

/-- Words of a program, read as loads of the job. -/
def loadProgram (s : State) (unit : Nat) (asid : BitVec 16) (va : W64) (i : Nat) (m : List (Nat × W32)) : Nat → Found (List (Nat × W32))
  | 0 => .got m s
  | n + 1 =>
    match engRead s unit asid (va + BitVec.ofNat 64 (4 * i)) 4 [] with
    | .got b s1 => loadProgram s1 unit asid va (i + 1) (keep 0 m i (BitVec.ofNat 32 (ofBytes b))) n
    | .stop x s1 => .stop x s1
    | .park s1 => .park s1

/-- A context with the state of a save area (R306). -/
def Walker.restored (c : Walker) (b : List Byte) : Walker :=
  let f := fieldOf b 66 1
  let fill := fieldOf b 76 1 % 2
  let buffer : Tile := { Tile.blank with codes := (List.range 8192).foldl (fun m p => keep 0 m p (fieldOf b (128 + 4 * p) 4)) [] }
  { c with
    w := (List.range 16).foldl (fun m k => keep 0 m k (BitVec.ofNat 32 (fieldOf b (4 * k) 4))) []
    pc := fieldOf b 64 2
    z := bitOf f 0
    n := bitOf f 1
    c := bitOf f 2
    merge := if bitOf f 3 then some (fieldOf b 67 1 % 16, fieldOf b 67 1 / 16) else none
    wprog := BitVec.ofNat 32 (fieldOf b 68 4)
    flags := BitVec.ofNat 32 (fieldOf b 72 4)
    fill := fill
    tiles := if fill = 0 then [buffer, Tile.blank] else [Tile.blank, buffer]
    stored := false }

/-- The program of a context's job, and its saved state where that lies in the save area (R290, R305, R306). -/
def Walker.load (c : Walker) (s : State) : Found Walker :=
  match loadProgram s (clusterUnit c.cluster) c.asid c.job.program 0 [] c.job.len with
  | .stop x s1 => .stop x s1
  | .park s1 => .park s1
  | .got m s1 =>
    let d := { c with prog := m }
    if !c.stored then .got d s1
    else
      match engReadLong s1 (clusterUnit c.cluster) c.asid c.job.save 514 with
      | .got b s2 => .got (d.restored b) s2
      | .stop x s2 => .stop x s2
      | .park s2 => .park s2

/-- What a context waits for has come (R287). A store of a job is acknowledged as soon as it is sent (log 2). -/
def State.waitOver (s : State) (c : Walker) : Bool :=
  match c.wait with
  | .none => true
  | .load _ _ _ _ | .elements _ => false
  | .tiles | .halt => c.drained
  | .buffer => !((c.tiles[1 - c.fill]?).map Tile.ready).getD false
  | .transit va n write => match c.reach s va n (if write then .write else .read) with
    | .park _ => false
    | _ => true
  | .reload => match c.load s with
    | .park _ => false
    | _ => true

/-- A ready context holds a running job and does not wait. -/
def State.walkerCanRun (s : State) (c : Walker) : Bool := c.running && (!c.stopped || s.rearmed c) && s.waitOver c

/-- The slot passes from a context to the next ready one in ascending number; the count starts again. -/
def State.passSlot (s : State) (cluster : Nat) : State :=
  let h := look 0 s.walk.slot cluster
  let next := ((List.range 4).map fun k => (h + 1 + k) % 4).find? fun n => ((s.walker? cluster n).map s.walkerCanRun).getD false
  { s with walk := { s.walk with slot := keep 0 s.walk.slot cluster (next.getD h), issued := keep 0 s.walk.issued cluster 0 } }

/-- WALKER_SLOT_ROTATION (R287): after 256 instructions the slot passes on. -/
def execWalkerSlotRotation (cluster : Nat) (s : State) : Out :=
  if 256 ≤ look 0 s.walk.issued cluster then .next (s.passSlot cluster) else .next s

/-! ## Stops (R303, R304) -/

/-- A context stops at a program index; its input buffer is discarded, its cue becomes FAULTED, and the slot passes on (R286). -/
def State.stopWalker (s : State) (c : Walker) (at_ code : Nat) (x : Stop) (restart : Bool) : State :=
  let s1 := (s.setWalker { c with stopped := true, wait := .none, input := [] }).passSlot c.cluster
  match s.jobCue c with
  | none => s1
  | some q =>
    let r : TrapRec :=
      { sub := 0, die := coreDie q.core, handle := ((s.team? q.team).map Team.handle).getD 0, team := q.team, tid := q.tid, code := code,
        kind := 3, restart := restart, mask := 0, pc := c.job.program + BitVec.ofNat 64 (4 * at_), idx := 0, under := x.code,
        access := x.access, level := x.level, ident := BitVec.ofNat 32 c.ctx, va := x.va, progress := c.wprog.setWidth 64,
        written := false }
    (s1.updCue q.core q.slot fun y => { y with st := .faulted, restartable := restart }).stopEngine r

/-- WALKER_ILLEGAL. -/
def State.walkerIllegal (s : State) (c : Walker) (at_ : Nat) : State := s.stopWalker c at_ trapWalkerIllegal { code := 0 } false

/-- WALKER_FAULT with its underlying class. -/
def State.walkerFault (s : State) (c : Walker) (x : Stop) : State := s.stopWalker c c.pc trapWalkerFault x (cueRestarts x.code)

/-! ## Job records and starts (R288-R290) -/

def jobOf (b : List Byte) : Job :=
  { program := BitVec.ofNat 64 (fieldOf b 0 8), len := fieldOf b 8 2, fmt := fieldOf b 10 1, dest := fieldOf b 11 1,
    dropZero := fieldOf b 12 1 % 2 = 1, ctx := fieldOf b 13 1 % 4, rows := fieldOf b 14 2, stride := fieldOf b 16 4,
    save := BitVec.ofNat 64 (fieldOf b 24 8), bases := (List.range 8).map fun k => BitVec.ofNat 64 (fieldOf b (64 + 8 * k) 8),
    init := (List.range 16).map fun k => BitVec.ofNat 32 (fieldOf b (128 + 4 * k) 4) }

/-- Tile formats of a destination (R289). -/
def tileFormatOk (dest fmt : Nat) : Bool :=
  match dest with
  | 0 => [1, 2, 3, 4, 5, 6, 8, 9].contains fmt
  | 1 => 1 ≤ fmt && fmt ≤ 10
  | 2 => fmt ≤ 11 || fmt = 13
  | 3 => fmt = 0
  | _ => false

/-- The limits of a record. -/
def jobLegal (b : List Byte) : Bool :=
  let j := jobOf b
  let spad := j.dest = 2
  bitsOf j.program.toNat 0 2 = 0 && 1 ≤ j.len && j.len ≤ 1024 && tileFormatOk j.dest j.fmt && fieldOf b 12 1 ≤ 1 && fieldOf b 13 1 ≤ 3
    && 1 ≤ j.rows && j.rows ≤ 64 && (if spad then j.stride % 16 = 0 else j.stride = 0) && fieldOf b 20 4 = 0
    && (if spad then j.save ≠ 0 && bitsOf j.save.toNat 0 12 = 0 else j.save = 0) && fieldOf b 32 32 = 0 && fieldOf b 192 64 = 0

/-- The save area of a job (R306). -/
def Walker.saved (c : Walker) : List Byte :=
  let w (k : Nat) : W32 := look 0 c.w k
  let buffer := (c.tiles[c.fill]?).getD Tile.blank
  let other := (c.tiles[1 - c.fill]?).getD Tile.blank
  let m := c.merge.getD (0, 0)
  ((List.range 16).map fun k => toBytes 4 (w k).toNat).flatten ++ toBytes 2 c.pc
    ++ toBytes 1 (bit c.z + 2 * bit c.n + 4 * bit c.c + 8 * bit c.merge.isSome) ++ toBytes 1 (m.1 + 16 * m.2)
    ++ toBytes 4 c.wprog.toNat ++ toBytes 4 c.flags.toNat ++ toBytes 1 (c.fill + 128 * bit other.ready) ++ toBytes 51 0
    ++ ((List.range 8192).map fun p => toBytes 4 (look 0 buffer.codes p)).flatten

/-- The job that a free context starts: the oldest in its line whose cue is ACTIVE; one that writes the scratchpad of a team that is
out waits for the team's return and holds up no other (R290, R306). -/
def State.nextJob (s : State) (cluster ctx : Nat) : Option JobLine :=
  s.walk.jobs.find? fun j => j.cluster = cluster && j.ctx = ctx && (match s.cue? j.core j.slot with
    | some q => q.st = .active && ((jobOf j.record).dest ≠ 2 || !((s.team? q.team).map Team.removed).getD true)
    | none => false)

/-- A context that takes up a job. -/
def Walker.start (j : JobLine) (q : Cue) (cluster ctx : Nat) : Walker :=
  let job := jobOf j.record
  { Walker.idle cluster ctx with cue := some (j.core, j.slot), team := q.team, asid := q.asid, job := job, record := j.record,
                                 running := true, stored := j.saved, wprog := BitVec.ofNat 32 q.progress,
                                 w := (job.init.zip (List.range 16)).foldl (fun m p => keep 0 m p.2 p.1) [] }

/-- A context with a number takes the place of what the number held. -/
def State.putWalker (s : State) (c : Walker) : State :=
  { s with walk := { s.walk with ctxs := c :: s.walk.ctxs.filter fun x => !(x.cluster = c.cluster && x.ctx = c.ctx) } }

/-- WALKER_JOB_START (R290): the oldest job that waits for a free context is checked and loaded. -/
def execWalkerJobStart (cluster ctx : Nat) (s : State) : Out :=
  if ((s.walker? cluster ctx).map Walker.running).getD false then .next s
  else
    match s.nextJob cluster ctx with
    | none => .next s
    | some j =>
      match s.cue? j.core j.slot with
      | none => .next s
      | some q =>
        let fresh := Walker.start j q cluster ctx
        let s1 := { s with walk := { s.walk with jobs := s.walk.jobs.filter fun x => !(x.core = j.core && x.slot = j.slot) } }.putWalker fresh
        if !jobLegal j.record then .next (s1.walkerIllegal fresh 0)
        else
          match fresh.load s1 with
          | .park _ => .next s
          | .stop x s2 => .next (s2.walkerFault fresh x)
          | .got c s2 => .next (s2.setWalker c)

/-! ## Fetching (R287, R291, R296, R305) -/

/-- A context whose wait is over. -/
def State.endWait (s : State) (c : Walker) : State := if c.wait = .none then s else s.setWalker { c with wait := .none }

/-- A walker's next instruction: the context that holds the slot, or the next ready one. -/
def State.walkerReady (s : State) (cluster : Nat) : Ready :=
  let holder := (s.walker? cluster (look 0 s.walk.slot cluster)).filter s.walkerCanRun
  let s1 := if holder.isSome then s else s.passSlot cluster
  match (s1.walker? cluster (look 0 s1.walk.slot cluster)).filter s1.walkerCanRun with
  | none => .done s1
  | some c =>
    if 256 ≤ look 0 s1.walk.issued cluster then .done s1
    else if c.stopped then
      match c.load s1 with
      | .got d s2 => .done (s2.setWalker { d with stopped := false, wait := .none })
      | .stop x s2 => .done (s2.walkerFault c x)
      | .park s2 => .done ((s2.setWalker { c with wait := .reload }).passSlot cluster)
    else if c.job.len ≤ c.pc then .done (s1.walkerIllegal c c.pc)
    else
      match decodeWalker (look 0 c.prog c.pc) with
      | .ok i => .run i { s1.endWait c with cur := .walker cluster c.ctx }
      | .error _ => .done (s1.walkerIllegal c c.pc)

/-! ## Running an instruction -/

/-- What an instruction of a walker comes to. -/
inductive WalkEnd where
  /-- Done; the context goes on behind it. -/
  | next (c : Walker) (s : State)
  /-- Done; the context goes on at another index. -/
  | jump (target : Int) (c : Walker) (s : State)
  /-- Done; the context goes on behind it and gives the slot up. -/
  | yield (c : Walker) (s : State)
  /-- One of its elements is done; it goes on with the same instruction, which counts as issued again (R287). -/
  | again (c : Walker) (s : State)
  /-- Nothing of it is done, and the context waits. -/
  | wait (w : WalkWait) (s : State)
  | fault (x : Stop) (c : Walker) (s : State)
  | illegal (s : State)
  /-- The job is over. -/
  | closes (s : State)

/-- The end of an instruction of a context: a kill that has reached its job takes effect (R307). -/
def State.boundary (s : State) (c : Walker) : State :=
  match s.jobCue c with
  | some q => s.killJob q
  | none => s

/-- Runs an instruction of the walker that issues. A kill that has reached its job takes effect at the end of the instruction
(R307). -/
def issueWalker (body : Walker → State → WalkEnd) (s : State) : Out :=
  match s.cur with
  | .walker cluster ctx =>
    match s.walker? cluster ctx with
    | none => .fault .noIssuer
    | some c =>
      let tally (s : State) : State :=
        { s with walk := { s.walk with issued := keep 0 s.walk.issued cluster (look 0 s.walk.issued cluster + 1) } }
      match body c s with
      | .next d s1 => .next ((tally (s1.setWalker { d with pc := c.pc + 1, mid := false })).boundary c)
      | .jump t d s1 =>
        if t < 0 ∨ (c.job.len : Int) ≤ t then .next (s1.walkerIllegal c c.pc)
        else .next (tally (s1.setWalker { d with pc := t.toNat }))
      | .yield d s1 => .next ((s1.setWalker { d with pc := c.pc + 1 }).passSlot cluster)
      | .again d s1 => .next (tally (s1.setWalker { d with mid := true }))
      | .wait w s1 => .next ((s1.setWalker { c with wait := w }).passSlot cluster)
      | .fault x d s1 => .next ((s1.walkerFault d x).boundary c)
      | .illegal s1 => .next (s1.walkerIllegal c c.pc)
      | .closes s1 => .next (s1.passSlot cluster)
  | _ => .fault .noIssuer

/-! ## Registers and flags (R293) -/

def Walker.reg (c : Walker) (n : BitVec 4) : W32 := look 0 c.w n.toNat
def Walker.setReg (c : Walker) (n : BitVec 4) (v : W32) : Walker := { c with w := keep 0 c.w n.toNat v }
def Walker.regAt (c : Walker) (n : Nat) : W32 := look 0 c.w n
def Walker.setRegAt (c : Walker) (n : Nat) (v : W32) : Walker := { c with w := keep 0 c.w n v }

/-- Z and N of a result. -/
def Walker.marks (c : Walker) (v : W32) : Walker := { c with z := v = 0, n := v.msb }

/-- An instruction that computes: its result, and C where it writes it. -/
def walkCompute (d : BitVec 4) (f : Walker → W32 × Option Bool) (s : State) : Out :=
  issueWalker (fun c s =>
    let r := f c
    let c1 := (c.setReg d r.1).marks r.1
    .next { c1 with c := r.2.getD c.c } s) s

/-- Carry out of bit 31. -/
def carryOf (a b : W32) : Bool := 2 ^ 32 ≤ a.toNat + b.toNat

/-- A comparison: Z, N and C. -/
def walkCompare (f : Walker → W32 × W32) (s : State) : Out :=
  issueWalker (fun c s =>
    let r := f c
    .next { c.marks (r.1 - r.2) with c := r.1.ult r.2 } s) s

/-- The shift count of WSHL and WSHR. -/
def shiftOf (c : Walker) (b : BitVec 4) (r : BitVec 1) (n : BitVec 5) : Nat := n.toNat + (if r = 1 then (c.reg b).toNat % 32 else 0)

/-- WNOP (R293). -/
def execWnop (s : State) : Out := issueWalker (fun c s => .next c s) s

/-- WMOVI (R293). -/
def execWmovi (d : BitVec 4) (i : BitVec 14) (s : State) : Out := issueWalker (fun c s => .next (c.setReg d (i.signExtend 32)) s) s

/-- WMOVI.sh (R293). -/
def execWmoviSh (d : BitVec 4) (i : BitVec 14) (s : State) : Out :=
  issueWalker (fun c s => .next (c.setReg d ((c.reg d <<< 14) ||| i.setWidth 32)) s) s

/-- WMOV (R293). -/
def execWmov (d a : BitVec 4) (s : State) : Out := walkCompute d (fun c => (c.reg a, none)) s

/-- WADD (R293). -/
def execWadd (d a b : BitVec 4) (s : State) : Out := walkCompute d (fun c => (c.reg a + c.reg b, some (carryOf (c.reg a) (c.reg b)))) s

/-- WADDI (R293). -/
def execWaddi (d a : BitVec 4) (i : BitVec 14) (s : State) : Out :=
  walkCompute d (fun c => (c.reg a + i.signExtend 32, some (carryOf (c.reg a) (i.signExtend 32)))) s

/-- WSUB (R293). -/
def execWsub (d a b : BitVec 4) (s : State) : Out := walkCompute d (fun c => (c.reg a - c.reg b, some ((c.reg a).ult (c.reg b)))) s

/-- WAND (R293). -/
def execWand (d a b : BitVec 4) (s : State) : Out := walkCompute d (fun c => (c.reg a &&& c.reg b, none)) s

/-- WOR (R293). -/
def execWor (d a b : BitVec 4) (s : State) : Out := walkCompute d (fun c => (c.reg a ||| c.reg b, none)) s

/-- WSHL (R293). -/
def execWshl (d a b : BitVec 4) (r : BitVec 1) (n : BitVec 5) (s : State) : Out :=
  walkCompute d (fun c => (c.reg a <<< shiftOf c b r n, none)) s

/-- WSHR (R293). -/
def execWshr (d a b : BitVec 4) (r : BitVec 1) (n : BitVec 5) (s : State) : Out :=
  walkCompute d (fun c => (c.reg a >>> shiftOf c b r n, none)) s

/-- WMIN (R293). -/
def execWmin (d a b : BitVec 4) (s : State) : Out :=
  walkCompute d (fun c => (if (c.reg a).ult (c.reg b) then c.reg a else c.reg b, none)) s

/-- WPOPC (R293). -/
def execWpopc (d a : BitVec 4) (s : State) : Out :=
  walkCompute d (fun c => (BitVec.ofNat 32 ((List.range 32).filter fun i => (c.reg a).getLsbD i).length, none)) s

/-- WFFS (R293): N is 0, and Z tells an operand of 0. -/
def execWffs (d a : BitVec 4) (s : State) : Out :=
  issueWalker (fun c s =>
    let v := c.reg a
    let k := ((List.range 32).find? fun i => v.getLsbD i).getD 32
    .next { c.setReg d (BitVec.ofNat 32 k) with z := v = 0, n := false } s) s

/-- WCMP (R293). -/
def execWcmp (a b : BitVec 4) (s : State) : Out := walkCompare (fun c => (c.reg a, c.reg b)) s

/-- WCMPI (R293). -/
def execWcmpi (a : BitVec 4) (i : BitVec 14) (s : State) : Out := walkCompare (fun c => (c.reg a, i.signExtend 32)) s

/-! ## Memory (R294, R295) -/

def Walker.base (c : Walker) (k : Nat) : W64 := c.job.bases.getD k 0

/-- The address of WLD, WLDH and WST. -/
def Walker.addr (c : Walker) (k : BitVec 3) (a : BitVec 4) (i : BitVec 14) : W64 :=
  c.base k.toNat + (c.reg a).setWidth 64 + i.signExtend 64

/-- A load begins; the data come with WALKER_LOAD_RETURN. -/
def walkLoad (d : BitVec 4) (n : Nat) (va : Walker → W64) (s : State) : Out :=
  issueWalker (fun c s =>
    match c.reach s (va c) n .read with
    | .stop x s1 => .fault x c s1
    | .park s1 => .wait (.transit (va c) n false) s1
    | .got ps s1 => .yield { c with wait := .load d.toNat ((ps.map Part.key).headD 0) n (va c).toNat } s1) s

/-- WLD (R294). -/
def execWld (d a : BitVec 4) (k : BitVec 3) (i : BitVec 14) (s : State) : Out := walkLoad d 4 (fun c => c.addr k a i) s

/-- WLDH (R294). -/
def execWldh (d a : BitVec 4) (k : BitVec 3) (i : BitVec 14) (s : State) : Out := walkLoad d 2 (fun c => c.addr k a i) s

/-- The line of a key and a virtual address fetched into the input buffer, which holds 128 lines (R286), as the job reads it: from its
die's RDC or at the home (R14, R294). -/
def State.fetchLine (s : State) (c : Walker) (key va : Nat) : State × Walker :=
  let line := lineOf key
  let v := BitVec.ofNat 64 va
  let unit := clusterUnit c.cluster
  let x := (translate s unit c.asid v).1
  let attr := match x with
    | .ok y => y.attr
    | .error _ => 32
  let pa := match x with
    | .ok y => y.pa
    | .error _ => key
  let r := s.readFor (clusterDie c.cluster) line (attrCm attr) (nonCoherent s unit c.asid v pa)
  (r.1, { c with input := ((line, r.2) :: c.input.filter fun x => x.1 ≠ line).take 128 })

/-- `len` bytes from a key on out of the line that has just been fetched. -/
def Walker.arrived (c : Walker) (key len : Nat) : Nat :=
  ofBytes (((((c.input[0]?).map Prod.snd).getD []).drop (key - lineOf key)).take len)

/-- The line of a key is in the input buffer. -/
def Walker.holdsLine (c : Walker) (key : Nat) : Bool := c.input.any fun x => x.1 = lineOf key

/-- WALKER_LOAD_RETURN (R294): the data that the home has then reach the register, or the lines of an element reach the context. -/
def execWalkerLoadReturn (cluster ctx : Nat) (s : State) : Out :=
  match s.walker? cluster ctx with
  | none => .next s
  | some c =>
    match c.wait with
    | .load d pa len va =>
      let r := s.fetchLine c pa va
      .next (r.1.setWalker { r.2.setRegAt d (BitVec.ofNat 32 (r.2.arrived pa len)) with wait := .none })
    | .elements l =>
      let r := l.foldl (fun a x => a.1.fetchLine a.2 x.1 x.2) (s, c)
      .next (r.1.setWalker { r.2 with wait := .none })
    | _ => .next s

/-- Bytes of a store of a job sent to their home. -/
def sendStore (s : State) (ps : List Part) (d : List Byte) : State :=
  ps.foldl (fun s p => s.writeNow p.key ((d.drop p.pos).take p.len) p.nc) s

/-- A store; `n` is what it adds to WPROG. -/
def walkStore (d : BitVec 4) (n : W32) (va : Walker → W64) (s : State) : Out :=
  issueWalker (fun c s =>
    match c.reach s (va c) 4 .write with
    | .stop x s1 => .fault x c s1
    | .park s1 => .wait (.transit (va c) 4 true) s1
    | .got ps s1 => .next { c with wprog := c.wprog + n } (sendStore s1 ps (toBytes 4 (c.reg d).toNat))) s

/-- WST (R294). -/
def execWst (d a : BitVec 4) (k : BitVec 3) (i : BitVec 14) (s : State) : Out := walkStore d 0 (fun c => c.addr k a i) s

/-- WST.c (R295). -/
def execWstC (d a : BitVec 4) (k : BitVec 3) (i : BitVec 14) (s : State) : Out := walkStore d 1 (fun c => c.addr k a i) s

/-! ## Control (R292, R296) -/

/-- A condition. -/
def Walker.holds (c : Walker) (cond : Nat) : Bool :=
  match cond with
  | 1 => c.z
  | 2 => !c.z
  | 3 => c.c
  | 4 => !c.c
  | 5 => c.n
  | 6 => !c.n
  | 7 => c.c || c.z
  | 8 => !c.c && !c.z
  | _ => true

/-- The target of a relative transfer. -/
def Walker.target (c : Walker) (o : BitVec 22) : Int := (c.pc : Int) + o.toInt

/-- WBR (R296). -/
def execWbr (cond : BitVec 4) (o : BitVec 22) (s : State) : Out :=
  issueWalker (fun c s => if c.holds cond.toNat then .jump (c.target o) c s else .next c s) s

/-- WJMP (R296). -/
def execWjmp (o : BitVec 22) (s : State) : Out := issueWalker (fun c s => .jump (c.target o) c s) s

/-- WJMP.link (R296). -/
def execWjmpLink (o : BitVec 22) (s : State) : Out :=
  issueWalker (fun c s => .jump (c.target o) (c.setReg 15 (BitVec.ofNat 32 (c.pc + 1))) s) s

/-- WJMP.ret (R296). -/
def execWjmpRet (s : State) : Out :=
  issueWalker (fun c s => if 1024 ≤ (c.reg 15).toNat then .illegal s else .jump ((c.reg 15).toNat : Int) c s) s

/-- WWAIT (R296): a store of a job is acknowledged as soon as it is sent (log 2). -/
def execWwait (m : BitVec 2) (s : State) : Out :=
  issueWalker (fun c s => if m.getLsbD 1 && !c.drained then .wait .tiles s else .next c s) s

/-- WYIELD (R287). -/
def execWyield (s : State) : Out := issueWalker (fun c s => .yield c s) s

/-- WHALT (R296): with every buffer taken the job ends, its flags go to its cue, and the context frees; its registers, flags and WPROG
stay (R313). -/
def execWhalt (s : State) : Out :=
  issueWalker (fun c s =>
    if !c.drained then .wait .halt s
    else
      let s1 := s.setWalker c.free
      .closes (match c.cue with
        | some (core, slot) => s1.updCue core slot fun q => { q with counting := true, flags := q.flags ||| c.flags, progress := c.wprog.toNat }
        | none => s1)) s

/-- WPROG (R296). -/
def execWprog (d : BitVec 4) (s : State) : Out := issueWalker (fun c s => .next (c.setReg d c.wprog) s) s

/-- WPROG.set (R296). -/
def execWprogSet (a : BitVec 4) (s : State) : Out := issueWalker (fun c s => .next { c with wprog := c.reg a } s) s

/-! ## Tiles (R297) -/

/-- WEMIT (R297). -/
def execWemit (a b : BitVec 4) (i : BitVec 14) (s : State) : Out :=
  issueWalker (fun c s =>
    let p := (c.reg b + i.signExtend 32).toNat
    if c.job.dest = 3 then .illegal s
    else if 128 * c.job.rows ≤ p then .fault { code := trapIllegalOperand } c s
    else
      let v := (c.reg a).toNat % 2 ^ codeBits c.job.fmt
      .next { c with wprog := c.wprog + 1, tiles := c.tiles.modify c.fill fun x => { x with codes := keep 0 x.codes p v } } s) s

/-- Rows of a tile buffer, packed. -/
def tileBytes (fmt : Nat) (x : Tile) (row : Nat) : List Byte :=
  packBytes (codeBits fmt) ((List.range 128).map fun n => look 0 x.codes (128 * row + n))

/-- WTILE (R297). -/
def execWtile (a : BitVec 4) (s : State) : Out :=
  issueWalker (fun c s =>
    let buffer := (c.tiles[c.fill]?).getD Tile.blank
    let other := 1 - c.fill
    if c.job.dest = 3 || (c.job.dest ≠ 2 && a ≠ 0) then .illegal s
    else if ((c.tiles[other]?).map Tile.ready).getD false then .wait .buffer s
    else if c.job.dest ≠ 2 then
      .next { c with tiles := (c.tiles.modify c.fill fun x => { x with ready := true, taken := 0, order := s.nextId }).modify other
                                fun _ => Tile.blank,
                     fill := other } s.fresh
    else
      let size := 16 * codeBits c.job.fmt
      let step := if c.job.stride = 0 then size else c.job.stride
      let place (i : Nat) : Nat := (c.reg a).toNat + i * step
      match s.team? c.team with
      | none => .wait .buffer s
      | some t =>
        match (List.range c.job.rows).find? fun i => t.launch.spadBytes < place i + size with
        | some i => .fault { code := trapAccess, va := BitVec.ofNat 64 (place i), access := 1 } c s
        | none =>
          .next { c with tiles := [Tile.blank, Tile.blank], fill := other }
            ((List.range c.job.rows).foldl (fun s i => s.updTeam t.id fun y => y.spadPut (place i) (tileBytes c.job.fmt buffer i)) s)) s

/-! ## The merge unit (R299-R301) -/

/-- WMERGE (R299). -/
def execWmerge (a b : BitVec 4) (s : State) : Out := issueWalker (fun c s => .next { c with merge := some (a.toNat, b.toNat) } s) s

/-- A word that the merge unit reads. -/
def Walker.read32 (c : Walker) (s : State) (va : W64) : Found Nat :=
  match c.reach s va 4 .read with
  | .got ps s1 =>
    let r := s1.readNat (clusterUnit c.cluster) ps
    .got r.2 r.1
  | .stop x s1 => .stop x s1
  | .park s1 => .park s1

/-- Element `p` of the array at a base slot. -/
def Walker.element (c : Walker) (s : State) (k p : Nat) : Found Nat := c.read32 s (c.base k + BitVec.ofNat 64 (4 * p))

/-- The head of a stream: its index, or none at its end. -/
def Walker.headOf (c : Walker) (s : State) (k p : Nat) : Found (Option Nat) :=
  let pos := (c.regAt p).toNat
  if pos < (c.regAt (p + 1)).toNat then
    match c.element s k pos with
    | .got v s1 => .got (some v) s1
    | .stop x s1 => .stop x s1
    | .park s1 => .park s1
  else .got none s

/-- The next element of the union: its index, its value bits with flags, which streams it takes from; none at the end. -/
def Walker.union (c : Walker) (s : State) (a b : Nat) : Found (Option (Nat × Nat × Flag × Bool × Bool)) :=
  let pa := (c.regAt a).toNat
  let pb := (c.regAt b).toNat
  match c.headOf s 0 a with
  | .stop x s1 => .stop x s1
  | .park s1 => .park s1
  | .got h0 s1 =>
    match c.headOf s1 2 b with
    | .stop x s2 => .stop x s2
    | .park s2 => .park s2
    | .got h1 s2 =>
      let one (i k p : Nat) (first : Bool) : Found (Option (Nat × Nat × Flag × Bool × Bool)) :=
        match c.element s2 k p with
        | .got v s3 => .got (some (i, v, 0, first, !first)) s3
        | .stop x s3 => .stop x s3
        | .park s3 => .park s3
      match h0, h1 with
      | none, none => .got none s2
      | some i, none => one i 1 pa true
      | none, some j => one j 3 pb false
      | some i, some j =>
        if i < j then one i 1 pa true
        else if j < i then one j 3 pb false
        else
          match c.element s2 1 pa with
          | .stop x s3 => .stop x s3
          | .park s3 => .park s3
          | .got u s3 =>
            match c.element s3 3 pb with
            | .stop x s4 => .stop x s4
            | .park s4 => .park s4
            | .got v s4 =>
              let r := vAdd 0 (fmtF32.decode u) (fmtF32.decode v)
              let q := fmtF32.round 0 0 false r.1
              .got (some (i, q.1, r.2 ||| q.2, true, true)) s4

/-- Where the loads of the next element of the union go, for a WMNEXT that takes from these streams (R300). -/
def Walker.unionLoads (c : Walker) (a b : Nat) (first second : Bool) : List W64 :=
  let at_ (k p : Nat) : W64 := c.base k + BitVec.ofNat 64 (4 * (c.regAt p).toNat)
  (if (c.regAt a).toNat < (c.regAt (a + 1)).toNat then [at_ 0 a] else []) ++ (if (c.regAt b).toNat < (c.regAt (b + 1)).toNat then [at_ 2 b] else [])
    ++ (if first then [at_ 1 a] else []) ++ if second then [at_ 3 b] else []

/-- Loads of an element whose lines have not come: key and virtual address of each. -/
def Walker.missing (c : Walker) (s : State) (vas : List W64) : List (Nat × Nat) :=
  (vas.filterMap fun va => match c.reach s va 4 .read with
    | .got ps _ => some ((ps.map Part.key).headD 0, va.toNat)
    | _ => none).filter fun x => !c.holdsLine x.1

/-- A wait for a page in a transit state that one of some loads, or a store, meets. -/
def Walker.parkedOn (c : Walker) (s : State) (vas : List W64) (store : Option W64) : WalkWait :=
  match vas.find? fun va => match c.reach s va 4 .read with
      | .park _ => true
      | _ => false with
  | some va => .transit va 4 false
  | none => .transit (store.getD 0) 4 true

/-- WMNEXT (R300): an element whose loads have not come makes the context wait for them. -/
def execWmnext (d a : BitVec 4) (s : State) : Out :=
  issueWalker (fun c s =>
    match c.merge with
    | none => .illegal s
    | some (p, q) =>
      if [p, p + 1, q, q + 1].any fun r => d.toNat = r || a.toNat = r then .illegal s
      else
        match c.union s p q with
        | .stop x s1 => .fault x c s1
        | .park s1 => .wait (c.parkedOn s1 (c.unionLoads p q true true) none) s1
        | .got none s1 => .next { c with z := true } s1
        | .got (some (i, v, f, first, second)) s1 =>
          let out := c.missing s1 (c.unionLoads p q first second)
          if !out.isEmpty then .wait (.elements out) s1
          else
            let c1 := if first then c.setRegAt p (c.regAt p + 1) else c
            let c2 := if second then c1.setRegAt q (c1.regAt q + 1) else c1
            let c3 := { c2 with flags := c2.flags ||| f }
            let zero := v % 2 ^ 31 = 0
            if zero && c.job.dropZero then .again c3 s1
            else
              let w := if zero && first && second then 0 else v
              .next { (c3.setReg d (BitVec.ofNat 32 i)).setReg a (BitVec.ofNat 32 w) with z := false, n := false } s1) s

/-- WSCAN (R301): one element at a time, each once its load has come. -/
def execWscan (d a b : BitVec 4) (k : BitVec 3) (s : State) : Out :=
  issueWalker (fun c s =>
    if c.reg b = 0 then .next c s
    else
      let va := c.base k.toNat + 4 * (c.reg a).setWidth 64
      match c.read32 s va with
      | .stop x s1 => .fault x c s1
      | .park s1 => .wait (.transit va 4 false) s1
      | .got t s1 =>
        let out := c.missing s1 [va]
        if !out.isEmpty then .wait (.elements out) s1
        else
          match c.reach s1 va 4 .write with
          | .stop x s2 => .fault x c s2
          | .park s2 => .wait (.transit va 4 true) s2
          | .got ps s2 =>
            .again (((c.setReg d (c.reg d + BitVec.ofNat 32 t)).setReg a (c.reg a + 1)).setReg b (c.reg b - 1))
              (sendStore s2 ps (toBytes 4 (c.reg d).toNat))) s

end Sys2Proof.Machine
end

