-- ==== Sys2Proof/Machine/DistEvents.lean ====
section
/-! DEFINITION. The distributors and the timers: TIMER and naps (08 R162, R173), parked launches (06 R122), callee queues (06 R108),
records and placement (06 R115-R120), retirement and completion counters (08 R166, 06 R432), removal and return (10 R228, R229). -/

namespace Sys2Proof.Machine

open Sys2Proof

/-! ## Timers and naps -/

/-- TIMER_EXPIRY (R173): CLOCK has reached the group's comparator, so TIMER is due for its threads, and their naps end. A comparator
set to a time that is past is due at once (log 86). -/
def execTimerExpiry (team group : Nat) (s : State) : Out :=
  match s.team? team with
  | none => .next s
  | some t =>
    let g := t.group group
    if t.removed || g.tmrcmp = 0 || s.clock t.cluster < g.tmrcmp then .next s
    else
      let live := (t.groupThreads group).filter fun h => !h.exited
      let s1 := (live.map Thread.tid).foldl (fun s x => s.updLine0 team x fun h => { h with pendTimer := true })
        (s.updTeam team fun t => t.updGroup group fun x => { x with tmrcmp := 0 })
      let napping := (live.filter fun h => match h.wait with
        | .nap _ => true
        | _ => false).map Thread.tid
      .next (napping.foldl (fun s x => s.resumePast team x 0) s1)

/-- NAP_END (R162): the cycles of a nap have passed. -/
def execNapEnd (team tid : Nat) (s : State) : Out :=
  match s.team? team, s.thread? team tid with
  | some t, some h =>
    match h.wait with
    | .nap n => if t.removed || s.time < n then .next s else .next (s.resumePast team tid 0)
    | _ => .next s
  | _, _ => .next s

/-! ## Parked launches (R122) -/

/-- A thread that LAUNCH has parked, with its place in parking order. -/
def Thread.parking (h : Thread) : Option Nat :=
  match h.wait with
  | .taskQueue n => some n
  | _ => none

/-- The thread that has been parked longest on a die. -/
def State.firstParked (s : State) (die : Nat) : Option (Team × Thread) :=
  let all := (s.teams.filter fun t => t.die = die && !t.removed).map fun t => (t.threads.filterMap fun h =>
    h.parking.map fun n => (n, t, h))
  match sortBy (fun a b => a.1 ≤ b.1) all.flatten with
  | x :: _ => some x.2
  | [] => none

/-- LAUNCH_RETRY (R122): with room in the queue, the lane parked longest executes its LAUNCH. -/
def execLaunchRetry (die : Nat) (s : State) : Out :=
  match s.firstParked die with
  | none => .next s
  | some (t, h) =>
    if !s.taskRoom die then .next s
    else
      let anew := s.updThread t.id h.tid fun x => { x with wait := .ready }
      match (s.fetch (t.coreOf h.tid) t.asid h.priv h.wordAddr).1 with
      | .error _ => .next anew
      | .ok w =>
        match decodeCore w with
        | .ok (.launch x) =>
          let va := h.pair x.a.toNat
          match launchBytes t h va s with
          | .stop e s1 => .next ((s1.updThread t.id h.tid fun y => { y with wait := .ready }).stopLanes t.id [(h.tid, e)])
          | .park s1 =>
            .next (if s1.coreBusy (t.coreOf h.tid) then s else s1.updThread t.id h.tid fun y => { y with wait := .transit })
          | .got b s1 => .next ((s1.enqueue (childTask t va b)).resumePast t.id h.tid (BitVec.ofNat 32 (s1.queued die)))
        | _ => .next anew

/-! ## Callee queues (R108) -/

/-- CALLEE_QUEUE_TAKE (R108): with a free entry in the team's PC table, its fullest queue takes it. Cycles that pass do the same. -/
def execCalleeQueueTake (team : Nat) (s : State) : Out :=
  match s.team? team with
  | none => .next s
  | some t => .next (s.takeQueue t)

/-! ## Records and grids (R115, R116, R120) -/

/-- The unit through which a die distributor translates (log 19). -/
def distUnit (die : Nat) : Nat := outsideUnit (64 * die)

/-- The class of work under its origin: its own, or that of the node that runs it (R121). -/
def State.originClass (s : State) (o : Origin) (cls : Nat) : Nat :=
  match o with
  | .cue core slot gen =>
    match s.cue? core slot with
    | some c => if c.gen = gen && (c.st = .active || c.st = .faulted) then min cls (s.cueClass c) else cls
    | none => cls
  | _ => cls

/-- A record at its die distributor: checked, its status written, and either a grid that waits for placement or complete at once. -/
def State.accept (s : State) (die : Nat) (addr : W64) (asid : BitVec 16) (b : List Byte) (origin : Origin) (ceiling : Nat) : State :=
  let r := readRoles s (distUnit die) asid b
  let status := launchStatus b r.1
  let s1 := match engWrite r.2 (distUnit die) asid (addr + 120) (toBytes 4 status) [] with
    | .got _ x => x
    | .stop _ x => x
    | .park x => x
  let l0 := launchOf addr b r.1
  let l := { l0 with roles := l0.roles.map fun x => { x with cls := max x.cls ceiling } }
  if status ≠ 0 then
    let i : Increment := { die := die, counter := l.counter, recAddr := addr, asid := asid, held := false, grid := s1.nextId, origin := origin,
                           status := status }
    { s1.fresh with dist := { s1.dist with increments := s1.dist.increments ++ [i] } }
  else
    let g : Grid := { id := s1.nextId, die := die, recAddr := addr, asid := asid, launch := l, origin := origin, cls := l.cls, placed := 0,
                      retired := 0, status := 0 }
    { s1.fresh with dist := { s1.dist with grids := s1.dist.grids ++ [g] } }

/-- TASK_QUEUE_TAKE (R122): the entry with the least effective class, the first of them in the queue. -/
def execTaskQueueTake (die : Nat) (s : State) : Out :=
  match s.dist.tasks.filter fun k => k.die = die with
  | [] => .next s
  | k :: r =>
    let cls (x : Task) : Nat := s.originClass x.origin x.cls
    let best := r.foldl (fun (a b : Task) => if cls b < cls a then b else a) k
    .next ({ s with dist := { s.dist with tasks := s.dist.tasks.erase best } }.accept die best.addr best.asid best.bytes best.origin 0)

/-! ## Placement (R118, R120) -/

def Launch.total (l : Launch) : Nat := l.gx * l.gy * l.gz

/-- It has a Prompter context (R251). -/
def Launch.needsContext (l : Launch) : Bool := l.stream ≠ 0 || l.accRows ≠ 0

/-- Threads of a team on a core. -/
def Team.seatsOn (t : Team) (core : Nat) : Nat := (t.threads.filter fun h => t.coreOf h.tid = core).length

def State.residents (s : State) : List Team := s.teams.filter fun t => !t.removed

/-- Contexts that resident threads hold on a core, of 1,024 (R15). -/
def State.seatsTaken (s : State) (core : Nat) : Nat := s.residents.foldl (fun n t => n + t.seatsOn core) 0

/-- Scratchpad that a team fits into: 192 KiB on a core, 384 KiB on a pair (R115). -/
def State.spadFits (s : State) (l : Launch) (core : Nat) : Bool :=
  let lo := core / 2 * 2
  let alone (c : Nat) : Nat := (s.residents.filter fun t => !t.launch.pair && t.core = c).foldl (fun n t => n + t.launch.spadBytes) 0
  let both := (s.residents.filter fun t => t.launch.pair && t.core = lo).foldl (fun n t => n + t.launch.spadBytes) 0
  (l.pair || alone core + l.spadBytes ≤ 196608) && alone lo + alone (lo + 1) + both + l.spadBytes ≤ 393216

/-- The lowest accumulator range that a team fits into (R246). -/
def State.accFits (s : State) (l : Launch) (cluster : Nat) : Option Nat :=
  let used := (s.residents.filter fun t => t.cluster = cluster && t.launch.accRows ≠ 0).map fun t => (t.accBase, t.launch.accRows)
  ((List.range 32).map fun b => 64 * b).find? fun a =>
    a + l.accRows ≤ 2048 && used.all fun u => a + l.accRows ≤ u.1 || u.1 + u.2 ≤ a

/-- The lowest free Prompter context of a cluster. -/
def State.freeContext (s : State) (cluster : Nat) : Option Nat :=
  (List.range 8).find? fun n => !s.mx.ctxs.any fun p => p.cluster = cluster && p.ctx = n

/-- Storage that a team of a launch would need on a core is disabled: register cache, scratchpad, or accumulator memory (R427). -/
def State.unfit (s : State) (l : Launch) (core : Nat) : Bool :=
  (if l.pair then [core, core + 1] else [core]).any (fun c => s.coh.off 6 c || (l.spadBytes ≠ 0 && s.coh.off 7 c))
    || (l.accRows ≠ 0 && s.coh.off 8 (coreCluster core))

/-- Where a team of a launch fits on a core: its accumulator range and its context. -/
def State.roomFor (s : State) (l : Launch) (core : Nat) : Option (Nat × Option Nat) :=
  let probe := Team.fresh 0 0 0 0 l 0 0 0 1 core 0 none 0
  let cores := if l.pair then [core, core + 1] else [core]
  if (l.pair && core % 2 = 1) || !s.spadFits l core || s.unfit l core || cores.any fun c => 1024 < s.seatsTaken c + probe.seatsOn c then none
  else
    match s.accFits l (coreCluster core) with
    | none => none
    | some a =>
      if !l.needsContext then some (a, none)
      else (s.freeContext (coreCluster core)).map fun n => (a, some n)

/-- The lowest free slot of a die's resident table, with its handle (R225). -/
def State.freeHandle (s : State) (die : Nat) : Option (Nat × W32) :=
  ((List.range 16384).find? fun n => !s.teams.any fun t => t.die = die && bitsOf t.handle.toNat 15 14 = n).map fun n =>
    (n, BitVec.ofNat 32 (die * 2 ^ 29 + n * 2 ^ 15 + look 0 s.dist.gens (16384 * die + n) % 2 ^ 15))

/-- The context of a team as placement makes it; its blocks carry its checkpoint ID (R256). -/
def State.giveContext (s : State) (t : Team) (n : Nat) : State :=
  let ckpt := s.mx.nextCkpt
  let p := Prompter.fresh t.cluster n t.id t.launch.stream ckpt
  let e := s.engine t.cluster
  let rows := List.range t.launch.accRows
  let e1 : Engine :=
    { e with acc := e.acc.filter fun x => !(128 * t.accBase ≤ x.1 && x.1 < 128 * (t.accBase + t.launch.accRows)),
             tags := rows.foldl (fun m r => keep 0 m ((t.accBase + r) / 64) ckpt) e.tags }
  { s.setEngine e1 with mx := { (s.setEngine e1).mx with ctxs := p :: s.mx.ctxs, nextCkpt := ckpt + 1 } }

/-- The rehearsal block as a team reads it at its start (R77); a block that cannot be read leaves it in live mode (log 47). -/
def State.readRehearsal (s : State) (t : Team) : Team × State :=
  match engRead s (outsideUnit t.cluster) t.asid t.rehearsalBlock 64 [] with
  | .got b s1 =>
    let size := fieldOf b 8 4
    let ok := (List.range 19).any fun n => size = 2 ^ (10 + n)
    let mode := fieldOf b 12 1
    ({ t with rehearsal := if ok && mode ≤ 2 then mode else 0, ringBase := BitVec.ofNat 64 (fieldOf b 0 8), ringSize := size }, s1)
  | .stop _ s1 => (t, s1)
  | .park s1 => (t, s1)

/-- One team of a gang placed on a core; none where it does not fit. -/
def State.placeTeam (s : State) (g : Grid) (n gang rank size core : Nat) : Option State :=
  match s.roomFor g.launch core, s.freeHandle (coreDie core) with
  | some (base, ctx), some (slot, handle) =>
    if 2048 ≤ core then none
    else
      let place := 16384 * coreDie core + slot
      let t0 := Team.fresh s.nextId handle g.id n g.launch g.asid gang rank size core base ctx s.time
      let (t, s1) := s.readRehearsal t0
      let s2 := { s1.fresh with
        teams := s1.teams ++ [t]
        dist := { s1.dist with gens := keep 0 s1.dist.gens place (look 0 s1.dist.gens place + 1) } }
      some ((match ctx with
        | some c => s2.giveContext t c
        | none => s2).fitTeam t)
  | _, _ => none

/-- Teams `n`, `n + 1` and on of a gang placed on the cores of a list. -/
def State.placeTeams (s : State) (g : Grid) (n gang rank size : Nat) : List Nat → Option State
  | [] => some s
  | core :: r => (s.placeTeam g n gang rank size core).bind fun s1 => s1.placeTeams g (n + 1) gang (rank + 1) size r

/-- Teams of a launch that fit on the cores of a list, `n` at most, filled one core after another. -/
def State.fillCores (s : State) (g : Grid) (n : Nat) (cores : List Nat) : Nat :=
  (cores.foldl (fun (acc : Nat × State) core =>
    (List.range 64).foldl (fun (a : Nat × State) _ =>
      if n ≤ a.1 then a else
      match a.2.placeTeam g 0 0 0 1 core with
      | some s1 => (a.1 + 1, s1)
      | none => a) acc) (0, s)).1

/-- The dies on which the gangs of a grid may reside: any die, and for a grid out of a task queue its own (R118, R122; log 46). -/
def Grid.dies (g : Grid) : List Nat :=
  match g.origin with
  | .queue _ _ => List.range 8
  | _ => [g.die]

/-- One of the grid's dies has room for `n` teams of the launch. -/
def State.dieFits (s : State) (g : Grid) (n : Nat) : Bool :=
  g.dies.any fun d => n ≤ s.fillCores g n ((List.range 256).map fun c => 256 * d + c)

/-- Grids of a die with teams that have never been placed. -/
def State.waitingGrids (s : State) (die : Nat) : List Grid := s.dist.grids.filter fun g => g.die = die && g.placed < g.launch.total

def State.gridClass (s : State) (g : Grid) : Nat := s.originClass g.origin g.cls

/-- Teams that are out on a die. -/
def State.outTeams (s : State) (die : Nat) : List Team := s.teams.filter fun t => t.removed && t.die = die

/-- The grid whose teams come next: the least class, the earliest of them (R120). -/
def State.nextGrid (s : State) (die : Nat) : Option Grid :=
  match s.waitingGrids die with
  | [] => none
  | g :: r => some (r.foldl (fun a b => if s.gridClass b < s.gridClass a then b else a) g)

/-- TEAM_PLACEMENT (R118, R120): the next gang of a distributor is placed on the cores named, all of one die, with its preferred size
where a die has room for that, and with its fallback size otherwise. Gangs that are out on that die come before grids of their class
(R229). The last gang of a grid asks for room for the teams that remain (log 75). -/
def execTeamPlacement (die : Nat) (cores : List Nat) (s : State) : Out :=
  match s.nextGrid die, cores with
  | some g, core :: _ =>
    let dest := coreDie core
    let left := g.launch.total - g.placed
    let big := min g.launch.gangP left
    let small := min g.launch.gangF left
    let n := cores.length
    if !g.dies.contains dest || cores.any (fun c => coreDie c ≠ dest)
        || (s.outTeams dest).any (fun t => s.teamClass t ≤ s.gridClass g) then .next s
    else if n ≠ big && (n ≠ small || s.dieFits g big) then .next s
    else
      match s.fresh.placeTeams g g.placed s.nextId 0 n cores with
      | none => .next s
      | some s1 =>
        .next { s1 with dist := { s1.dist with grids := updWhere s1.dist.grids (fun x => x.id = g.id) fun x => { x with placed := x.placed + n } } }
  | _, _ => .next s

/-! ## Retirement and completion counters (R166, R432) -/

/-- A team's context has nothing left to do. -/
def State.streamOver (s : State) (t : Team) : Bool :=
  (s.mx.ctxs.all fun p => p.team ≠ t.id || (p.st = .idle && (s.passesOf p.cluster p.ctx).isEmpty))
    && (s.mx.awayCtxs.all fun p => p.team ≠ t.id || p.st = .idle) && s.mx.away.all (fun x => x.team ≠ t.id)

/-- Everything that R166 waits for. -/
def State.mayRetire (s : State) (t : Team) : Bool :=
  t.threads.all Thread.exited
    && (s.flight.reqs.all fun r => r.team ≠ t.id || r.settled)
    && (s.cues.all fun c => c.team ≠ t.id || (c.st ≠ .active && c.st ≠ .faulted)) && s.streamOver t

/-- A slot returned to FREE (R314, R315). -/
def Cue.freed (c : Cue) : Cue := { c with st := .free, gen := nextGen c.gen, edges := [] }

/-- Everything of a team given back. -/
def State.dropTeam (s : State) (t : Team) : State :=
  let e := s.engine t.cluster
  let s1 := match s.context? t with
    | some p => s.setEngine { e with reuse := e.reuse.filter fun r => decide (r.ctx ≠ p.ctx) }
    | none => s
  { s1 with
    teams := s1.teams.filter fun x => x.id ≠ t.id
    bundles := s1.bundles.filter fun b => b.team ≠ t.id
    callees := s1.callees.filter fun q => q.team ≠ t.id
    cues := updWhere s1.cues (fun c => c.team = t.id && c.st ≠ .free) Cue.freed
    flight := { s1.flight with
      ops := s1.flight.ops.filter fun o => o.team ≠ t.id
      reqs := s1.flight.reqs.filter fun r => r.team ≠ t.id
      results := s1.flight.results.filter fun r => r.team ≠ t.id }
    mx := { s1.mx with
      ctxs := s1.mx.ctxs.filter fun p => p.team ≠ t.id
      awayCtxs := s1.mx.awayCtxs.filter fun p => p.team ≠ t.id }
    noise := { s1.noise with reqs := s1.noise.reqs.filter fun r => r.team ≠ t.id } }

/-- TEAM_RETIRE (R166): with the last team of a grid its counter is due. -/
def execTeamRetire (team : Nat) (s : State) : Out :=
  match s.team? team with
  | none => .next s
  | some t =>
    if !s.mayRetire t then .next s
    else
      let s1 := s.dropTeam t
      match s1.dist.grids.find? fun g => g.id = t.grid with
      | none => .next s1
      | some g =>
        if g.retired + 1 < g.launch.total then
          .next { s1 with dist := { s1.dist with grids := updWhere s1.dist.grids (fun x => x.id = g.id) fun x => { x with retired := x.retired + 1 } } }
        else
          let i : Increment := { die := g.die, counter := g.launch.counter, recAddr := g.recAddr, asid := g.asid, held := false, grid := g.id,
                                 origin := g.origin, status := g.status }
          .next { s1 with dist := { s1.dist with grids := s1.dist.grids.filter fun x => x.id ≠ g.id, increments := s1.dist.increments ++ [i] } }

/-- What follows the counter of a launch: its completion entry, or the completion of its cue (R317, R419). -/
def State.launchDone (s : State) (i : Increment) : State :=
  match i.origin with
  | .queue q tag => { s with ctl := { s.ctl with completions := s.ctl.completions ++ [{ queue := q, tag := tag, status := i.status }] } }
  | .thread _ => s
  | .cue core slot gen =>
    match s.cue? core slot with
    | some c => if c.gen = gen && (c.st = .active || c.st = .faulted) then s.updCue core slot fun x => { x with counting := true } else s
    | none => s

/-- The record of a held increment (R432). -/
def heldRecord (i : Increment) (x : Stop) : TrapRec :=
  { sub := 0, die := i.die, handle := 0, team := 0, tid := 0, code := x.code, kind := 4, restart := true, mask := 0, pc := 0, idx := 0,
    under := 0, access := x.access, level := x.level, ident := 0, va := i.counter, progress := i.recAddr, written := false }

/-- The queue of a launch of the host. -/
def Increment.queue (i : Increment) : Option Nat :=
  match i.origin with
  | .queue q _ => some q
  | _ => none

/-- A launch of the same queue that retired before has its increment still to come; one that is held delays no other launch (R420,
R432). -/
def Dist.waitsFor (d : Dist) (i : Increment) : Bool :=
  (d.increments.takeWhile fun x => x.grid ≠ i.grid).any fun x => x.queue = i.queue && !x.held && !x.made

/-- The launches whose counters are done and that wait for none before them complete, in the order in which they retired (R420). -/
def State.finishLaunches (s : State) : State :=
  let ready (i : Increment) : Bool := i.made && (i.queue.isNone || !s.dist.waitsFor i)
  (s.dist.increments.filter ready).foldl State.launchDone
    { s with dist := { s.dist with increments := s.dist.increments.filter fun i => !ready i } }

/-- An increment changed in its place. -/
def State.updIncrement (s : State) (grid : Nat) (f : Increment → Increment) : State :=
  { s with dist := { s.dist with increments := updWhere s.dist.increments (fun y => y.grid = grid) f } }

/-- COUNTER_INCREMENT (R432): the oldest increment of a die that is not held is made, or it is held. -/
def execCounterIncrement (die : Nat) (s : State) : Out :=
  match s.dist.increments.find? fun i => i.die = die && !i.held && !i.made with
  | none => .next s
  | some i =>
    match engReach s (distUnit die) i.asid i.counter 8 .rmw [] with
    | .park _ => .next s
    | .stop x s1 => .next ((s1.updIncrement i.grid fun y => { y with held := true }).finishLaunches.stopEngine (heldRecord i x))
    | .got ps s1 =>
      let key := (ps.map Part.key).headD 0
      let v := (s1.peekLe key 8 + 1) % 2 ^ 64
      .next (((s1.writeNow key (toBytes 8 v) (ps.any Part.nc)).updIncrement i.grid fun y => { y with made := true }).finishLaunches)

/-- COUNTER_RETRY (R432): a held increment is to be made again; a command that names none is logged. -/
def execCounterRetry (die : Nat) (counter record : W64) (s : State) : Out :=
  let names (i : Increment) : Bool := i.die = die && i.held && i.counter = counter && i.recAddr = record
  if s.dist.increments.any names then
    .next { s with dist := { s.dist with increments := updWhere s.dist.increments names fun i => { i with held := false } } }
  else .next (s.log 5 die 0 0 0)

/-! ## Removal (R228) -/

/-- The physical bytes at the head of a team's area, where its k registers lie (R111). -/
def State.kArea (s : State) (t : Team) : Option Nat :=
  match (translate s (clusterUnit t.cluster) t.asid (t.launch.segBase + BitVec.ofNat 64 (4096 + t.teamNo * areaSize t.launch))).1 with
  | .ok x => some (memKey s.ctl x.pa)
  | .error _ => none

/-- The number under which the cue slots of a removed team stand while it is out (R331). -/
def awayCore (t : Team) (core : Nat) : Nat := 2048 * (1 + t.id) + core % 2048

/-- Every name of a team's cues moved to other cores; slots that they leave are free. -/
def State.moveCues (s : State) (t : Team) (dest : Nat → Nat) : State :=
  let mine (core slot : Nat) : Bool := s.cues.any fun c => c.core = core && c.slot = slot && c.team = t.id && c.st ≠ .free
  let pair (x : Nat × Nat) : Nat × Nat := if mine x.1 x.2 then (dest x.1, x.2) else x
  let edge (x : Nat × Nat × Nat) : Nat × Nat × Nat := if mine x.1 x.2.1 then (dest x.1, x.2) else x
  let origin (o : Origin) : Origin := match o with
    | .cue core slot gen => if mine core slot then .cue (dest core) slot gen else o
    | _ => o
  let who (d : Drawer) : Drawer := match d with
    | .cue core slot => if mine core slot then Drawer.cue (dest core) slot else d
    | _ => d
  let moving := s.cues.filter fun c => mine c.core c.slot
  let moved := moving.map fun c => { c with core := dest c.core, edges := c.edges.map edge }
  let left := (moving.filter fun c => c.core < 2048).map fun c => { c with st := .free, edges := [] }
  let stay := s.cues.filter fun c => !mine c.core c.slot && !moved.any fun d => d.core = c.core && d.slot = c.slot
  { s with
    cues := moved ++ left ++ stay
    walk := { s.walk with
      ctxs := s.walk.ctxs.map fun c => { c with cue := c.cue.map pair }
      jobs := s.walk.jobs.map fun j => if mine j.core j.slot then { j with core := dest j.core } else j }
    mx := { s.mx with
      ctxs := s.mx.ctxs.map fun p => { p with cue := p.cue.map pair }
      awayCtxs := s.mx.awayCtxs.map fun p => { p with cue := p.cue.map pair } }
    noise := { s.noise with reqs := s.noise.reqs.map fun r => { r with who := who r.who } }
    dist := { s.dist with
      grids := s.dist.grids.map fun g => { g with origin := origin g.origin }
      tasks := s.dist.tasks.map fun k => { k with origin := origin k.origin }
      increments := s.dist.increments.map fun i => { i with origin := origin i.origin } } }

/-- A walker job that writes the team's scratchpad. -/
def Walker.writesSpad (c : Walker) (t : Team) : Bool := c.team = t.id && c.job.dest = 2

/-- A job that writes the scratchpad leaves its context for its save area (R306), and its cue keeps its WPROG (R329); the answer is whether
it has. State that still lies in the save area stays there. A job whose save area cannot be written stops, if it has not stopped already,
and the team stays. -/
def State.saveJob (s : State) (c : Walker) : Bool × State :=
  match (if c.stored then Found.got () s else engWriteLong s (clusterUnit c.cluster) c.asid c.job.save c.saved 514), c.cue with
  | .got _ s1, some (core, slot) =>
    let j : JobLine := { cluster := c.cluster, ctx := c.ctx, core := core, slot := slot, record := c.record, saved := true }
    let s2 := (s1.setWalker c.free).updCue core slot fun q => { q with progress := c.wprog.toNat }
    (true, { s2 with walk := { s2.walk with jobs := j :: s2.walk.jobs } })
  | .stop x s1, _ => (false, if c.stopped then s else s1.walkerFault c x)
  | _, _ => (false, s)

/-- The jobs that write the scratchpad, one after another. -/
def State.saveJobs (s : State) (t : Team) : Bool × State :=
  (s.walk.ctxs.filter fun c => c.running && c.writesSpad t).foldl (fun r c => if r.1 then r.2.saveJob c else r) (true, s)

/-- A job stands at an instruction boundary with nothing on its way, or has stopped. -/
def Walker.atBoundary (c : Walker) : Bool :=
  c.stopped || (!c.mid && (match c.wait with
    | .load _ _ _ _ => false
    | .elements _ => false
    | _ => true))

/-- A team that CTXEVICT has marked is at rest: its threads stand at clause boundaries, in waits or at instructions that cannot issue, and
nothing of it is between two boundaries (R26, R226, R228). -/
def State.atRest (s : State) (t : Team) : Bool :=
  (s.bundles.all fun b => b.team ≠ t.id || b.stalled)
    && (s.flight.reqs.all fun r => r.team ≠ t.id || s.returns r || r.stage ≠ .queued)
    && s.flight.results.all (fun r => r.team ≠ t.id)
    && (s.walk.ctxs.all fun c => !(c.running && c.writesSpad t) || c.atBoundary)
    && (match s.context? t with
        | some p => (s.passesOf p.cluster p.ctx).all fun x => !x.finished
        | none => true)
    && (s.kArea t).isSome && t.threads.all fun h => (t.lines h.tid).all fun l => (t.imageKey s h.tid l).isSome

/-- The bundles of a team dissolve: each thread waits at its instruction and resumes there (R26). -/
def State.dropBundles (s : State) (t : Team) : State :=
  let mine := (s.bundles.filter fun b => b.team = t.id).map Bundle.id
  let quiet (x : Shoot) : Shoot := if (x.owner.map mine.contains).getD false then { x with owner := none } else x
  let shoots := (s.units.shoots.map quiet).filter fun x => !(x.units.isEmpty && x.owner.isNone)
  { s with bundles := s.bundles.filter fun b => b.team ≠ t.id, units := { s.units with shoots := shoots } }.updTeam t.id fun y =>
    { y with fell := [] }

/-- The stream's context and its passes put away; a pass in progress stops at its row boundary (R228 step 1). -/
def State.putAwayContext (s : State) (t : Team) : State :=
  match s.context? t with
  | none => s
  | some p =>
    let e := s.engine p.cluster
    let mine := (e.table.filter fun x => x.ctx = p.ctx).map fun x => { x with granted := false, reserved := false, fromLatch := false, capture := false }
    let s1 := s.setEngine { e with table := e.table.filter fun x => x.ctx ≠ p.ctx, reuse := e.reuse.filter fun r => decide (r.ctx ≠ p.ctx) }
    { s1 with mx := { s1.mx with
      ctxs := s1.mx.ctxs.filter fun x => !(x.cluster = p.cluster && x.ctx = p.ctx)
      awayCtxs := p :: s1.mx.awayCtxs
      away := s1.mx.away ++ mine } }

/-- Bytes of a team's accumulator rows, row after row. -/
def State.accBytes (s : State) (t : Team) : List Byte :=
  ((List.range t.launch.accRows).map fun r => (((s.engine t.cluster).rowAt (t.accBase + r)).map fun v => toBytes 4 v.toNat).flatten).flatten

/-- Bytes that the save area of a team needs. -/
def Team.saveBytes (t : Team) : Nat := t.launch.spadBytes + 512 * t.launch.accRows + 4096

/-- `n` free bytes written from a physical address on: team state whose layout the spec does not give (R111, R228; log 15). -/
def State.writeAreaBytes (s : State) (key n : Nat) : State :=
  { s with choices := s.choices + n }.writeNow key ((List.range n).map fun i => Config.areaByte (s.choices + i)) false

/-- TEAM_REMOVAL (R228): a marked team at rest leaves when other work waits on its die: its passes, its jobs, its scratchpad and its
accumulator rows, its timers, its cue slots. Its register lines leave as others push them out (R113), and a copy that only reads its
scratchpad runs on with what was saved (R331; log 82). -/
def execTeamRemoval (team : Nat) (s : State) : Out :=
  match s.team? team with
  | none => .next s
  | some t =>
    match t.saveArea with
    | none => .next s
    | some (area, size) =>
      let wanted := !(s.waitingGrids t.die).isEmpty || (s.outTeams t.die).any fun x => !(x.grid = t.grid && x.gang = t.gang)
      if !t.marked || t.removed || !wanted || !s.atRest t then .next s
      else
        let saved := s.saveJobs t
        if !saved.1 then .next saved.2
        else
          let spad := t.spadBytesAt 0 t.launch.spadBytes
          let acc := s.accBytes t
          let s1 := (saved.2.putAwayContext t).dropBundles t
          let s2 := ((s1.writeNow area spad false).writeNow (area + t.launch.spadBytes) acc false).writeAreaBytes
            (area + size - 4096) 4096
          let s3 := match s2.kArea t with
            | some a => (s2.writeNow a ((List.range 64).map fun n => toBytes 4 (t.kreg n).toNat).flatten false).writeAreaBytes (a + 256) 3840
            | none => s2
          let s5 := s3.moveCues t (awayCore t)
          let now := s.clock t.cluster
          let armed := (List.range t.groups.length).filter fun g => (t.group g).tmrcmp ≠ 0
          .next (s5.updTeam team fun y =>
            { y with removed := true, timerLeft := armed.map fun g => (g, ((t.group g).tmrcmp - now).toNat),
                     groups := y.groups.map fun g => { g with tmrcmp := 0 } })

/-! ## Return (R229) -/

/-- The destination of the job of a walker cue. -/
def State.jobDest (s : State) (c : Cue) : Option Nat :=
  match s.walk.ctxs.find? fun x => x.running && x.cue = some (c.core, c.slot) with
  | some x => some x.job.dest
  | none => (s.walk.jobs.find? fun j => j.core = c.core && j.slot = c.slot).map fun j => (jobOf j.record).dest

/-- A job that feeds the stream of its team waits for its passes: for a buffer to be taken (R306). -/
def State.feedsTeam (s : State) (c : Cue) : Bool :=
  s.walk.ctxs.any fun x => x.cue = some (c.core, c.slot) && x.job.dest ≤ 1 && !x.drained
    && (x.wait = .buffer || x.wait = .tiles || x.wait = .halt)

/-- Something of a removed team still runs where it was: an answer on its way (R114), or a copy or a walker job that is ACTIVE, has begun,
and does not write the scratchpad or has written all of it (R331). A job that waits for passes of the team holds up nothing (R306;
log 82). -/
def State.runsOn (s : State) (t : Team) : Bool :=
  s.flight.ops.any (fun o => o.team = t.id)
    || s.cues.any fun c => c.team = t.id && c.st = .active && c.started
        && (match c.kind with
            | .copy => c.counting || !((c.dst.map Shape.inSpad).getD false)
            | .walker => c.counting || (s.jobDest c ≠ some 2 && !s.feedsTeam c)
            | _ => false)

/-- The slots that its cues need are free on a core. -/
def State.slotsFree (s : State) (t : Team) (core : Nat) : Bool :=
  (s.cues.filter fun c => c.team = t.id && c.st ≠ .free).all fun c =>
    ((s.cue? (if t.launch.pair then core + c.core % 2 else core) c.slot).map fun x => decide (x.st = .free)).getD true

/-- A context and its passes back on an engine, its rows tagged anew (R256). Its passes begin their wait anew, behind those in the table
(R252; log 67). -/
def State.takeBackContext (s : State) (old t : Team) (acc : List Byte) : State :=
  match t.ctx, s.mx.awayCtxs.find? fun p => p.team = t.id with
  | some n, some p =>
    let e := s.engine t.cluster
    let rows := List.range t.launch.accRows
    let e1 := rows.foldl (fun (e : Engine) r =>
      e.setRow (t.accBase + r) ((List.range 128).map fun c => BitVec.ofNat 32 (fieldOf acc (512 * r + 4 * c) 4))) e
    let mine := (s.mx.away.filter fun x => x.team = old.id).map fun x => { x with ctx := n, posted := s.time }
    let e2 := { e1 with tags := rows.foldl (fun m r => keep 0 m ((t.accBase + r) / 64) p.ckpt) e1.tags, table := e1.table ++ mine }
    let s1 := s.setEngine e2
    { s1 with mx := { s1.mx with
      ctxs := { p with cluster := t.cluster, ctx := n } :: s1.mx.ctxs
      awayCtxs := s1.mx.awayCtxs.filter fun x => x.team ≠ t.id
      away := s1.mx.away.filter fun x => x.team ≠ t.id } }
  | _, _ => s

/-- The reservation table of a core's cluster has room for the entries of a removed team (R252). -/
def State.tableFits (s : State) (t : Team) (core : Nat) : Bool :=
  (s.engine (coreCluster core)).table.length + (s.mx.away.filter fun x => x.team = t.id).length ≤ 16

/-- One removed team restored on a core: in the reverse order of R228. Lines that nothing has pushed out of the old core's register cache
leave it first, because registers are filled from the images (R113, R229; log 68). -/
def State.returnTeam (s0 : State) (gone : Team) (core : Nat) : Option State :=
  let s := (gone.threads.map Thread.tid).foldl (fun s x => s.spillThread gone.id x) s0
  let old := (s.team? gone.id).getD gone
  match s.roomFor old.launch core, old.saveArea with
  | some (base, ctx), some (area, _) =>
    if coreDie core ≠ old.die || 2048 ≤ core || s.runsOn old || !s.slotsFree old core || !s.tableFits old core then none
    else
      let l := old.launch
      let k := (s.kArea old).map fun a => s.peekBytes a 256
      let t : Team :=
        { old with core := core, accBase := base, ctx := ctx, removed := false, marked := false,
                   spad := putBytes [] 0 (s.peekBytes area l.spadBytes),
                   k := match k with
                     | some b => (List.range 64).foldl (fun m n => keep 0 m n (BitVec.ofNat 32 (fieldOf b (4 * n) 4))) []
                     | none => old.k,
                   timerLeft := [] }
      let acc := s.peekBytes (area + l.spadBytes) (512 * l.accRows)
      let s1 := (s.updTeam old.id fun _ => t).takeBackContext old t acc
      let s2 := s1.moveCues t (fun c => if l.pair then core + c % 2 else core)
      let line (j : JobLine) : JobLine :=
        if s2.cues.any (fun c => c.core = j.core && c.slot = j.slot && c.team = t.id) then { j with cluster := coreCluster core } else j
      let s3 := { s2 with
        noise := { s2.noise with reqs := s2.noise.reqs.map fun r => if r.team = t.id then { r with cluster := t.cluster } else r }
        callees := s2.callees.map fun q => if q.team = t.id then { q with core := if l.pair then core + q.core % 2 else core } else q
        walk := { s2.walk with jobs := s2.walk.jobs.map line } }
      let now := s.clock t.cluster
      let s4 := old.timerLeft.foldl (fun s x => s.setTimer t.id x.1 (now + BitVec.ofNat 64 x.2)) s3
      let napping := (t.threads.filter fun h => match h.wait with
        | .nap _ => true
        | _ => false).map Thread.tid
      some (napping.foldl (fun s x => s.resumePast t.id x 0) s4)
  | _, _ => none

/-- Teams restored on the cores of a list. -/
def State.returnTeams (s : State) : List (Team × Nat) → Option State
  | [] => some s
  | x :: r => (s.returnTeam x.1 x.2).bind fun s1 => s1.returnTeams r

/-- Work waits on a die that is placed before a removed team: another removed gang, or a grid, of a lower effective class (R229). -/
def State.goesFirst (s : State) (t : Team) : Bool :=
  (s.waitingGrids t.die).any (fun g => s.gridClass g < s.teamClass t)
    || (s.outTeams t.die).any fun x => !(x.grid = t.grid && x.gang = t.gang) && s.teamClass x < s.teamClass t

/-- TEAM_RETURN (R229): a gang whose teams are all out is placed again as a whole, unless work of a lower class waits on its die. -/
def execTeamReturn (gang : Nat) (cores : List Nat) (s : State) : Out :=
  let l := s.teams.filter fun t => t.gang = gang
  match l with
  | [] => .next s
  | t :: _ =>
    if !(l.all Team.removed) || l.length ≠ cores.length || s.goesFirst t then .next s
    else
      match s.returnTeams (l.zip cores) with
      | some s1 => .next s1
      | none => .next s

end Sys2Proof.Machine
end

