-- ==== Sys2Proof/Machine/Usher.lean ====
section
/-! DEFINITION. The Usher: region descriptors (21 R371), the state machine of a region (R373-R375), exact reductions (R388) and the
curtain (R376). -/

namespace Sys2Proof.Machine

open Sys2Proof

/-! ## Descriptors (R371) -/

/-- A permitted-mode bit of a mask. -/
def permits (mask mode : Nat) : Bool := mode ≤ 5 && bitOf mask mode

/-- The reduction byte fits the element size (R371). -/
def reductionOk (red size : Nat) : Bool :=
  let ty := bitsOf red 0 4
  let op := bitsOf red 4 2
  bitsOf red 6 2 = 0 && op ≤ 2 && [0, 1, 2, 3, 6, 7, 9].contains ty && (4 * tyRegs ty = size) && (ty ≠ 9 || op = 0)

/-- A live region out of the 64 bytes of its descriptor, or none where they break R371. -/
def regionOf (desc : Nat) (b : List Byte) : Option Region :=
  let fld (i n : Nat) : Nat := ofBytes ((b.drop i).take n)
  let size := 2 ^ (fld 12 1 % 4)
  let n := fld 8 4
  let kind := fld 13 1
  let mask := fld 14 1
  let accum := bitOf mask 2
  let modes := if kind = 0 then 0x27 else 0x39
  let used := (fld 44 4 + 2 ^ 32 - fld 40 4) % 2 ^ 32
  if fld 12 1 < 4 && fld 0 8 % size = 0 && 1 ≤ n && n ≤ 2 ^ 31 && (!accum || n ≤ 4096) && kind ≤ 1 && mask ≠ 0
      && mask ||| modes = modes && (!accum || reductionOk (fld 15 1) size) && fld 26 2 = 0 && fld 36 4 = 0 && fld 56 8 = 0
      && (kind = 0 || used ≤ n) then
    some { desc := desc, base := BitVec.ofNat 64 (fld 0 8), n := n, esize := size, queue := kind = 1, mask := mask, red := fld 15 1,
           caps := (List.range 5).map fun m => fld (16 + 2 * m) 2, budget := fld 28 4, tenure := fld 32 4,
           fill := BitVec.ofNat 64 (fld 48 8), mode := none, occ := 0, closing := false, line := [], q := [], opened := 0,
           head := BitVec.ofNat 32 (fld 40 4), tail := BitVec.ofNat 32 (fld 44 4), rtail := BitVec.ofNat 32 (fld 44 4),
           pidx := BitVec.ofNat 32 (fld 40 4), pend := [], occupants := [] }
  else none

/-- Capacity of a mode (R371). -/
def Region.cap (r : Region) (m : Nat) : Nat :=
  if m = 5 then 1 else if r.caps.getD m 0 = 0 then 65535 else r.caps.getD m 0

/-- The tenure in force. -/
def Region.term (r : Region) : Nat := if r.tenure = 0 then 8192 else r.tenure

/-- The tenure counter has reached the tenure. -/
def Region.expired (r : Region) (now : Nat) : Bool := r.term ≤ now - r.opened

/-- The address of element `i`, or of queue slot `i` (R371). -/
def Region.elem (r : Region) (i : Nat) : W64 := r.base + BitVec.ofNat 64 ((if r.queue then i % r.n else i) * r.esize)

/-! ## The state machine (R374) -/

/-- A thread that the Usher has admitted, with its first reserved slot and their number. -/
structure Admitted where
  team : Nat
  tid : Nat
  first : W32
  slots : W32
  deriving DecidableEq, Repr

/-- Admits a waiter to the open room; a PUSH room reserves its slots (R383). -/
def Region.letIn (r : Region) (w : Waiter) : Region × Admitted :=
  let free := r.n - (r.rtail - r.head).toNat
  let k := if r.mode = some 3 then min w.count free else 0
  ({ r with occ := r.occ + 1, occupants := r.occupants ++ [(w.team, w.tid)], rtail := r.rtail + BitVec.ofNat 32 k },
   { team := w.team, tid := w.tid, first := r.rtail, slots := BitVec.ofNat 32 k })

/-- Admits from a list of waiters while the room has places: the region, the admitted and the rest. -/
def Region.admitFrom (r : Region) : List Waiter → Region × List Admitted × List Waiter
  | [] => (r, [], [])
  | w :: ws =>
    if r.occ < r.cap (r.mode.getD 0) then
      let a := r.letIn w
      let rest := a.1.admitFrom ws
      (rest.1, a.2 :: rest.2.1, rest.2.2)
    else (r, [], w :: ws)

/-- Opens a room for a list of waiters, in order up to capacity (R374). -/
def Region.openFor (r : Region) (m now : Nat) (ws : List Waiter) : Region × List Admitted :=
  let a := ({ r with mode := some m, closing := false, opened := now, pidx := r.head, occ := 0, line := [] } : Region).admitFrom ws
  ({ a.1 with line := a.2.2 }, a.2.1)

/-- Waiters joined to a mode's entry of Q, created at the tail where there is none. -/
def joinQ (q : List (Nat × List Waiter)) (m : Nat) (ws : List Waiter) : List (Nat × List Waiter) :=
  if ws.isEmpty then q
  else if q.any fun e => e.1 = m then updWhere q (fun e => e.1 = m) fun e => (m, e.2 ++ ws)
  else q ++ [(m, ws)]

/-- The open room becomes closing: its waiting line moves into Q. -/
def Region.close (r : Region) : Region :=
  { r with closing := true, line := [], q := joinQ r.q (r.mode.getD 0) r.line }

/-- A demand that would raise a waiter count above 65,535 is not placed (R375). -/
def Region.full (r : Region) (m : Nat) : Bool :=
  if r.mode = some m && !r.closing then !(r.occ < r.cap m && r.line.isEmpty) && 65535 ≤ r.line.length
  else r.mode.isSome && 65535 ≤ (((r.q.find? fun e => e.1 = m).map Prod.snd).getD []).length

/-- A demand for a mode (R374). -/
def Region.demand (r : Region) (m now : Nat) (w : Waiter) : Region × List Admitted :=
  match r.mode with
  | none => r.openFor m now [w]
  | some o =>
    if r.closing then ({ r with q := joinQ r.q m [w] }, [])
    else if o = m then
      if r.occ < r.cap m && r.line.isEmpty then
        let a := r.letIn w
        (a.1, [a.2])
      else ({ r with line := r.line ++ [w] }, [])
    else
      let r1 := { r with q := joinQ r.q m [w] }
      (if r.expired now then r1.close else r1, [])

/-- The tenure check (R374): the room closes when its tenure has passed and other modes wait. -/
def Region.tenureCheck (r : Region) (now : Nat) : Region :=
  if r.mode.isSome && !r.closing && r.expired now && !r.q.isEmpty then r.close else r

/-- A waiter is taken out of a list. -/
def dropWaiter (l : List Waiter) (team tid : Nat) : List Waiter := l.filter fun w => !(w.team = team && w.tid = tid)

/-- A withdrawal (R374). -/
def Region.withdraw (r : Region) (team tid : Nat) : Region :=
  let q := (r.q.map fun e => (e.1, dropWaiter e.2 team tid)).filter fun e => !e.2.isEmpty
  { r with line := dropWaiter r.line team tid, q := q, closing := r.closing && !q.isEmpty }

/-- What follows the curtain: the waiting line joins Q, and the head entry of Q opens (R374). -/
def Region.next (r : Region) (now : Nat) : Region × List Admitted :=
  match joinQ r.q (r.mode.getD 0) r.line with
  | [] => ({ r with mode := none, occ := 0, closing := false, line := [], q := [], occupants := [] }, [])
  | e :: rest => ({ r with q := rest, occupants := [] } : Region).openFor e.1 now e.2

/-- The indices as the curtain leaves them (R376). -/
def Region.published (r : Region) : Region :=
  let m := r.mode.getD 0
  { r with tail := if m = 3 ∨ (m = 5 ∧ r.queue) then r.rtail else r.tail,
           head := if m = 4 ∨ (m = 5 ∧ r.queue) then r.pidx else r.head,
           pend := [] }

/-! ## Exact reductions (R388) -/

/-- An exact value out of a floating code. -/
def exactOf (f : Fmt) (code : Nat) : Exact :=
  match f.decode code with
  | .nan _ _ _ => .nan
  | .inf n => .inf n
  | .zero true => .negZero
  | .zero false => .fin 0 0
  | .num n m e _ => .fin (if n then -(m : Int) else m) e

/-- The exact sum of two values. -/
def exactAdd (a b : Exact) : Exact :=
  match a, b with
  | .nan, _ => .nan
  | _, .nan => .nan
  | .inf n, .inf k => if n = k then .inf n else .nan
  | .inf n, _ => .inf n
  | _, .inf n => .inf n
  | .negZero, v => v
  | v, .negZero => v
  | .fin m e, .fin p g =>
    let lo := min e g
    .fin (m * 2 ^ (e - lo).toNat + p * 2 ^ (g - lo).toNat) lo

/-- The code that an exact sum rounds to, RNE once, without a flag. -/
def exactCode (f : Fmt) (x : Exact) : Nat :=
  match x with
  | .nan => f.nanCode
  | .inf n => f.signBit n + f.infCode
  | .negZero => f.signBit true
  | .fin m e => (f.round 0 0 false (ofInt m e 0)).1

/-- The parts of a packed value as pending values: exact values of an add, raw codes of a minimum or maximum. -/
def pendOf (red v : Nat) : List Exact :=
  let ty := bitsOf red 0 4
  (List.range (tyCount ty)).map fun i =>
    let c := Machine.elem v (tyWidth ty) i
    if isInt ty then .fin ((intTy ty).of c) 0
    else if bitsOf red 4 2 = 0 then exactOf (fmtTy ty) c
    else .fin c 0

/-- One part of a pending reduction combined with a value. -/
def pendStep (red : Nat) (a b : Exact) : Exact :=
  let ty := bitsOf red 0 4
  let op := bitsOf red 4 2
  if op = 0 then exactAdd a b
  else
    match a, b with
    | .fin x _, .fin y _ =>
      if isInt ty then .fin (if op = 1 then min x y else max x y) 0
      else
        let f := fmtTy ty
        match (vMinMax (op = 1) (f.decode x.toNat) (f.decode y.toNat)).1 with
        | some true => .fin x 0
        | some false => .fin y 0
        | none => .fin f.nanCode 0
    | v, _ => v

/-- The value that the curtain writes. -/
def pendCode (red : Nat) (l : List Exact) : Nat :=
  let ty := bitsOf red 0 4
  pack (tyWidth ty) (l.map fun x =>
    if isInt ty then
      match x with
      | .fin m _ => (intTy ty).code m
      | _ => 0
    else if bitsOf red 4 2 = 0 then exactCode (fmtTy ty) x
    else
      match x with
      | .fin m _ => m.toNat
      | _ => 0)

/-- A reduction of `v` into the element at physical key `key`, whose memory value is `cur` (R388). -/
def Region.reduce (r : Region) (key cur v : Nat) : Region :=
  let old := ((r.pend.find? fun p => p.1 = key).map Prod.snd).getD (pendOf r.red cur)
  let new_ := (old.zip (pendOf r.red v)).map fun p => pendStep r.red p.1 p.2
  { r with pend := (r.pend.filter fun p => p.1 ≠ key) ++ [(key, new_)] }

/-! ## Regions of the state -/

/-- A live region by the physical address of its descriptor. -/
def State.region? (s : State) (desc : Nat) : Option Region := s.ushers.regions.find? fun r => r.desc = desc

def State.setRegion (s : State) (r : Region) : State :=
  { s with ushers := { s.ushers with regions := updWhere s.ushers.regions (fun x => x.desc = r.desc) fun _ => r } }

/-- A demand answered. -/
def State.answerDemand (s : State) (team tid : Nat) (a : Bool × W32 × W32) : State :=
  { s with ushers := { s.ushers with
      demands := updWhere s.ushers.demands (fun d => d.team = team && d.tid = tid && d.answer.isNone) fun d => { d with answer := some a } } }

def State.demand? (s : State) (team tid : Nat) : Option Demand := s.ushers.demands.find? fun d => d.team = team && d.tid = tid

def State.dropDemand (s : State) (team tid : Nat) : State :=
  { s with ushers := { s.ushers with demands := s.ushers.demands.filter fun d => !(d.team = team && d.tid = tid) } }

/-- The pair that an admission adds (R377, R383). -/
def Admitted.pair (va : W64) (mode : Nat) (first slots : W32) : Held :=
  { desc := va, mode := mode, next := if mode = 3 then first else 0, left := if mode = 3 then slots else 0 }

/-- A thread admitted: its demand is answered, or an ENTERM goes on to its next pair (R384). -/
def State.admitted (s : State) (a : Admitted) : State :=
  match s.demand? a.team a.tid with
  | none => s
  | some d =>
    match d.kind with
    | .enterm seated (n :: rest) =>
      let seat := (d.desc, Admitted.pair d.va d.mode a.first a.slots)
      let d' : Demand := { d with va := n.1, desc := n.2.1, mode := n.2.2, kind := .enterm (seated ++ [seat]) rest, placed := false }
      { s with ushers := { s.ushers with demands := updWhere s.ushers.demands (fun x => x.id = d.id) fun _ => d' } }
    | _ => s.answerDemand a.team a.tid (true, a.first, a.slots)

/-- A region's new state with the threads that it admits. -/
def State.applyRegion (s : State) (r : Region × List Admitted) : State := r.2.foldl State.admitted (s.setRegion r.1)

/-- Head and tail written to the descriptor (R372). -/
def State.writeIndices (s : State) (r : Region) : State :=
  s.writeNow (r.desc + 40) (toBytes 4 r.head.toNat ++ toBytes 4 r.tail.toNat) false

/-- The curtain (R376): the committed reductions are one write to each line (R336). -/
def State.curtain (s : State) (r : Region) : Region × State :=
  let s1 := s.writeRuns (r.pend.map fun p => (p.1, toBytes r.esize (pendCode r.red p.2)))
  let r1 := r.published
  (r1, if r1.head = r.head ∧ r1.tail = r.tail then s1 else s1.writeIndices r1)

/-- A LEAVE at the Usher (R374). -/
def State.leaveRoom (s : State) (desc team tid : Nat) : State :=
  match s.region? desc with
  | none => s
  | some r =>
    if !r.occupants.contains (team, tid) then s else
    let r1 := { r with occ := r.occ - 1, occupants := r.occupants.filter fun x => x ≠ (team, tid) }
    if r1.occ = 0 then
      let c := s.curtain r1
      c.2.applyRegion (c.1.next s.time)
    else if r1.closing || r1.line.isEmpty || r1.cap (r1.mode.getD 0) ≤ r1.occ then s.setRegion r1
    else
      let a := ({ r1 with line := [] } : Region).admitFrom r1.line
      s.applyRegion ({ a.1 with line := a.2.2 }, a.2.1)

/-- A demand of a thread withdrawn at its Usher (R374). -/
def State.withdrawAt (s : State) (desc team tid : Nat) : State :=
  match s.region? desc with
  | none => s
  | some r => s.setRegion (r.withdraw team tid)

end Sys2Proof.Machine
end

