-- ==== Sys2Proof/Machine/RoomOps.lean ====
section
/-! DEFINITION. The room instructions (21 R380-R389, R431) and the events of the Usher (R374, R378, R383). -/

namespace Sys2Proof.Machine

open Sys2Proof

/-! ## Common checks (R381) -/

/-- Checks 10.2 and 10.3: the physical address of the descriptor. -/
def roomDesc (t : Team) (h : Thread) (s : State) (va : W64) : Found Nat :=
  if va.toNat % 64 ≠ 0 then .stop { code := trapAlign, va := va } s
  else
    match checkAccess s (t.coreOf h.tid) t.asid h.priv va 64 .read with
    | (.error x, s1) => .stop x s1
    | (.ok x, s1) =>
      if spaceOf s1.ctl x.pa ≠ .device then .stop { code := trapAccess, va := va } s1
      else if attrTi x.attr then .park s1
      else .got x.pa s1

/-- The pair that a thread holds of the region with this descriptor: named by its physical address (R372). -/
def heldOn (s : State) (t : Team) (h : Thread) (va : W64) (pa : Nat) : Option Held :=
  h.held.find? fun e => e.desc = va || (match (translate s (t.coreOf h.tid) t.asid e.desc).1 with
    | .ok x => x.pa = pa
    | .error _ => false)

/-- A pair changed in, or taken out of, a thread's held set. -/
def Thread.setHeld (h : Thread) (e e' : Held) : Thread := { h with held := updWhere h.held (fun x => x = e) fun _ => e' }
def Thread.dropHeld (h : Thread) (e : Held) : Thread := { h with held := h.held.filter fun x => x ≠ e }

/-- A lane's body that begins with the checks of the descriptor in `xa`. -/
def onRoom (r : Found Nat) (go : Nat → State → Res) : Res :=
  match r with
  | .stop x s => .stop x s
  | .park s => .leave .transit s
  | .got pa s => go pa s

/-- Registers that a data field names while the element size is not known (R431). -/
def dataSpan (r : BitVec 7) (fe : Bool) : Span := { r := r.toNat, n := if r.toNat % 2 = 0 then 2 else 1, fe := fe }

/-- Checks 10.4 and 10.5 of PUSH, POP and RACC: the region and the thread's pair, or the stop. -/
def occupant (s : State) (t : Team) (h : Thread) (va : W64) (pa mode : Nat) (queue : Bool) (dataReg : Nat) :
    Except Stop (Region × Held) :=
  match s.region? pa, heldOn s t h va pa with
  | some r, some e =>
    let ok := e.mode = mode || (e.mode = 5 && r.queue = queue && (queue || permits r.mask 2))
    if !ok then .error { code := trapRoomState, va := va }
    else if r.esize = 8 && dataReg % 2 = 1 then .error { code := trapIllegalOperand, va := va }
    else .ok (r, e)
  | _, _ => .error { code := trapRoomState, va := va }

/-! ## RBIND and RUNBIND (R382) -/

/-- RBIND (R382). -/
def execRbind (w : RWord) (s : State) : Out :=
  issueLanes (w.form [w.srcA 2] [w.dst 1])
    (withLane fun t h s1 =>
      let va := h.pair w.a.toNat
      if !s1.quiet t.id h.tid then .hold else
      onRoom (roomDesc t h s1 va) fun pa s2 =>
        let status (n : Nat) (s : State) : Res := .ok (s.updThread t.id h.tid fun x => x.setReg w.d.toNat (BitVec.ofNat 32 n))
        if isLost s2 pa then .stop { code := trapLostLine, va := va } s2
        else if !(s2.coreStores (t.coreOf h.tid) (lineOf pa)).isEmpty then .hold
        else
          let d := s2.readHome (lineOf pa)
          match regionOf pa ((d.2.drop (pa - lineOf pa)).take 64) with
          | none => .stop { code := trapIllegalOperand, va := va } s2
          | some r =>
            if (s2.region? pa).isSome then status 1 s2
            else if 64 ≤ (s2.ushers.regions.filter fun x => home x.desc = home pa).length then status 2 s2
            else status 0 { d.1 with ushers := { d.1.ushers with regions := d.1.ushers.regions ++ [r] } }) s

/-- RUNBIND (R382). -/
def execRunbind (w : RWord) (s : State) : Out :=
  issueLanes (w.form [w.srcA 2] [w.dst 1])
    (withLane fun t h s1 =>
      if !s1.quiet t.id h.tid then .hold else
      onRoom (roomDesc t h s1 (h.pair w.a.toNat)) fun pa s2 =>
        let status (n : Nat) (s : State) : Res := .ok (s.updThread t.id h.tid fun x => x.setReg w.d.toNat (BitVec.ofNat 32 n))
        match s2.region? pa with
        | none => status 1 s2
        | some r =>
          if r.mode.isSome || !r.q.isEmpty then status 2 s2
          else
            let s3 := s2.writeIndices r
            status 0 { s3 with ushers := { s3.ushers with regions := s3.ushers.regions.filter fun x => x.desc ≠ pa } }) s

/-! ## ENTER, ETRY, ENTERM (R378, R383, R384) -/

/-- Checks 10.4 of one pair of ENTER, ETRY or ENTERM. -/
def enterStop (s : State) (t : Team) (h : Thread) (va : W64) (pa mode : Nat) : Option Stop :=
  match s.region? pa with
  | none => some { code := trapRoomState, va := va }
  | some r =>
    if !permits r.mask mode || (heldOn s t h va pa).isSome then some { code := trapRoomState, va := va } else none

/-- A demand as it is sent. -/
def newDemand (t : Team) (h : Thread) (va : W64) (pa mode count : Nat) (kind : EnterKind) : Demand :=
  { id := 0, team := t.id, tid := h.tid, va := va, desc := pa, mode := mode, count := count, kind := kind, batch := 0, placed := false, at_ := 0,
    answer := none }

/-- What ENTER or ETRY sends for one lane. -/
def enterDemand (w : RWord) (kind : EnterKind) (t : Team) (h : Thread) (s : State) : Found Demand :=
  let va := h.pair w.a.toNat
  let mode := bitsOf w.md.toNat 0 3
  let count := if mode = 3 ∧ w.b ≠ 0 then (h.reg w.b.toNat).toNat else 1
  if count = 0 ∨ 256 < count then .stop { code := trapIllegalOperand, va := va } s
  else
    match roomDesc t h s va with
    | .stop x s1 => .stop x s1
    | .park s1 => .park s1
    | .got pa s1 =>
      match enterStop s1 t h va pa mode with
      | some x => .stop x s1
      | none =>
        if 4 ≤ h.held.length then .stop { code := trapRoomHoldLimit, va := va } s1
        else .got (newDemand t h va pa mode count kind) s1

/-- Descriptors of the pairs of an ENTERM, in turn. -/
def entermDescs (t : Team) (h : Thread) (s : State) : List (W64 × Nat) → Found (List (W64 × Nat × Nat))
  | [] => .got [] s
  | p :: r =>
    match roomDesc t h s p.1 with
    | .stop x s1 => .stop x s1
    | .park s1 => .park s1
    | .got pa s1 =>
      match entermDescs t h s1 r with
      | .got l s2 => .got ((p.1, pa, p.2) :: l) s2
      | e => e

/-- What ENTERM sends for one lane: its first pair in ascending physical address, with the pairs still to come. -/
def entermDemand (w : RWord) (t : Team) (h : Thread) (s : State) : Found Demand :=
  let n := bitsOf w.md.toNat 0 2 + 1
  let m := (h.reg w.b.toNat).toNat
  let pairs := (List.range n).map fun j => (h.pair (w.a.toNat + 2 * j), bitsOf m (4 * j) 3)
  let va0 := h.pair w.a.toNat
  if bitsOf m 16 16 ≠ 0 || ((List.range 4).any fun j => bitOf m (4 * j + 3)) || (pairs.any fun p => 5 < p.2)
      || (pairs.map Prod.fst).eraseDups.length ≠ n then
    .stop { code := trapIllegalOperand, va := va0 } s
  else
    match entermDescs t h s pairs with
    | .stop x s1 => .stop x s1
    | .park s1 => .park s1
    | .got l s1 =>
      if (l.map fun x => x.2.1).eraseDups.length ≠ n then .stop { code := trapIllegalOperand, va := va0 } s1
      else
        match l.findSome? fun x => enterStop s1 t h x.1 x.2.1 x.2.2 with
        | some x => .stop x s1
        | none =>
          if !h.held.isEmpty then .stop { code := trapRoomState, va := va0 } s1
          else
            match sortBy (fun a b => a.2.1 ≤ b.2.1) l with
            | [] => .stop { code := trapIllegalOperand, va := va0 } s1
            | p :: rest => .got (newDemand t h p.1 p.2.1 p.2.2 1 (.enterm [] rest)) s1

/-- The Usher has had the first demand of an instruction's lane. -/
def Demand.reached (d : Demand) : Bool :=
  d.placed || (match d.kind with
    | .enterm (_ :: _) _ => true
    | _ => false)

/-- The pairs that an admission adds to the held set. -/
def Demand.pairs (d : Demand) (a : Bool × W32 × W32) : List Held :=
  let last := Admitted.pair d.va d.mode a.2.1 a.2.2
  match d.kind with
  | .enterm seated _ => seated.map Prod.snd ++ [last]
  | _ => [last]

/-- An answered demand takes effect on its thread (R383, R384) and is gone. -/
def State.enterDone (s : State) (d : Demand) (a : Bool × W32 × W32) : State :=
  (s.updLine0 d.team d.tid fun h =>
    let h1 := if a.1 then { h with held := h.held ++ d.pairs a } else h
    match d.kind with
    | .etry p => h1.setPred p a.1
    | _ => h1).dropDemand d.team d.tid

/-- The demands that lanes send, the lanes that stop and the lanes that park. -/
def collectDemands (ask : Team → Thread → State → Found Demand) (t : Team) :
    List Nat → State → List Demand × Stops × List (Nat × Wait) × State
  | [], s => ([], [], [], s)
  | x :: r, s =>
    match t.thread? x with
    | none => collectDemands ask t r s
    | some h =>
      match ask t h s with
      | .got d s1 =>
        let (ds, st, pk, s2) := collectDemands ask t r s1
        (d :: ds, st, pk, s2)
      | .stop x1 s1 =>
        let (ds, st, pk, s2) := collectDemands ask t r s1
        (ds, (x, x1) :: st, pk, s2)
      | .park s1 =>
        let (ds, st, pk, s2) := collectDemands ask t r s1
        (ds, st, (x, .transit) :: pk, s2)

/-- Demands of one instruction put on their way. -/
def State.postDemands (s : State) (l : List Demand) : State :=
  l.foldl (fun m d => { m.fresh with ushers := { m.ushers with demands := m.ushers.demands ++ [{ d with id := m.nextId, batch := s.nextId }] } }) s

/-- ENTER, ETRY and ENTERM: the lanes send their demands; once the Usher has had them, the lanes that it answered go on and the others
leave the bundle (R378). -/
def issueDemand (f : Form) (ask : Team → Thread → State → Found Demand) (s : State) : Out :=
  match s.issuer with
  | none => .fault .noIssuer
  | some (b, t) =>
    match gate f t b.tids with
    | .stops l => .next (s.stopLanes t.id l)
    | .wait => .next (s.stall b)
    | .pass =>
      let acts := t.active f b.tids
      let mine := acts.filterMap fun x => s.demand? t.id x
      if acts.isEmpty then .next (s.runOn f t [b] [] fun _ _ => .hold)
      else if mine.isEmpty then
        let (ds, stops, parks, s1) := collectDemands ask t acts s
        let s2 := (s1.setWaits t.id parks).postDemands ds
        let out := parks.map Prod.fst
        let s3 := { s2 with bundles := trimBundles [b.id] (b.tids.filter fun x => !out.contains x) false s2.bundles }
        .next (s3.stopLanes t.id stops)
      else if mine.any fun d => !d.reached then .next (s.stall b)
      else
        .next (s.runOn f t [b] (acts.map fun x => { acts := [x], all := [x] }) fun l s1 =>
          match s1.demand? t.id (l.headD 0) with
          | none => .hold
          | some d =>
            match d.answer with
            | some a => .ok (s1.enterDone d a)
            | none => .leave .usher s1)

/-- The count register of a PUSH demand. -/
def countSpan (w : RWord) : List Span := if w.md = 3 ∧ w.b ≠ 0 then [w.srcB 1] else []

/-- ENTER (R383). -/
def execEnter (w : RWord) (s : State) : Out := issueDemand (w.form (w.srcA 2 :: countSpan w) []) (enterDemand w .enter) s

/-- ETRY (R383). -/
def execEtry (w : RWord) (s : State) : Out :=
  issueDemand (w.form (w.srcA 2 :: countSpan w) []) (enterDemand w (.etry w.c.toNat)) s

/-- ENTERM (R384). -/
def execEnterm (w : RWord) (s : State) : Out :=
  let n := bitsOf w.md.toNat 0 2 + 1
  let pairs := (List.range n).map fun j => ({ r := w.a.toNat + 2 * j, n := 2, fe := w.feA } : Span)
  issueDemand { w.form (pairs ++ [w.srcB 1]) [] with bad := w.a.toNat % 8 ≠ 0 } (entermDemand w) s

/-! ## LEAVE (R385) -/

/-- The lane's region and pair, as LEAVE needs them. -/
def leaving (w : RWord) (t : Team) (h : Thread) (s : State) : Found (Nat × Region × Held) :=
  let va := h.pair w.a.toNat
  match roomDesc t h s va with
  | .stop x s1 => .stop x s1
  | .park s1 => .park s1
  | .got pa s1 =>
    match s1.region? pa, heldOn s1 t h va pa with
    | some r, some e => .got (pa, r, e) s1
    | _, _ => .stop { code := trapRoomState, va := va } s1

/-- What check 10.6 of R381 asks of an element: it names NC_WINDOW among its stops, so the entries forbid such a window (log 83). -/
def elemAsk (r : Region) (use : Use) : Ask := { use := use, align := r.esize, ncStop := true }

/-- A store of a room instruction: an element at its slot, as a plain ST (R385, R386). -/
def roomStore (t : Team) (h : Thread) (s : State) (r : Region) (slot : Nat) (d : List Byte) (batch : Nat) : Res :=
  storeLane t h s (r.elem slot) d (elemAsk r .write) 0 0 batch none

/-- Check 10.6 of every slot that a LEAVE has to fill, before any is filled: the first that stops or parks (R381). -/
def fillCheck (t : Team) (h : Thread) (s : State) (r : Region) (e : Held) : Nat → Res
  | 0 => .ok s
  | n + 1 => onReach (t.reach s h (r.elem e.next.toNat) r.esize (elemAsk r .write)) fun _ s1 => fillCheck t h s1 r { e with next := e.next + 1 } n

/-- The fill stores of one lane: `n` slots from the next unused one on (R385). A store that has to wait leaves the rest for later (R209). -/
def fillSlots (t : Team) (tid : Nat) (s : State) (r : Region) (e : Held) : Nat → State
  | 0 => s
  | n + 1 =>
    match t.thread? tid with
    | none => s
    | some h =>
      match roomStore t h s r e.next.toNat (toBytes r.esize r.fill.toNat) s.nextId with
      | .ok s1 =>
        let e' := { e with next := e.next + 1, left := e.left - 1 }
        fillSlots t tid (s1.updThread t.id tid fun x => x.setHeld e e') r e' n
      | _ => s

/-- A lane that still has slots to fill. -/
def hasFill (w : RWord) (t : Team) (s : State) (x : Nat) : Bool :=
  match t.thread? x with
  | none => false
  | some h =>
    match leaving w t h s with
    | .got (_, _, e) _ => e.mode = 3 && e.left ≠ 0
    | _ => false

/-- The first part of LEAVE for one lane: its unused slots are filled. -/
def fillLane (w : RWord) (team tid : Nat) (s : State) : Res :=
  withLane (fun t h s1 =>
    match leaving w t h s1 with
    | .got (_, r, e) s2 =>
      if e.mode = 3 then
        match fillCheck t h s2 r e e.left.toNat with
        | .ok s3 => .ok (fillSlots t tid s3 r e e.left.toNat)
        | res => res
      else .ok s2
    | .stop x s2 => .stop x s2
    | .park s2 => .leave .transit s2) team tid s

/-- Lanes that fill their slots; a lane that stops or parks on one leaves the bundle, the others stay at the LEAVE. -/
def State.fillAll (s : State) (w : RWord) (t : Team) (b : Bundle) (lanes : List Nat) : State :=
  lanes.foldl (fun s x =>
    match fillLane w t.id x s with
    | .ok s1 => s1
    | .stop x1 s1 => s1.stopLanes t.id [(x, x1)]
    | .leave wt s1 =>
      let s2 := s1.updThread t.id x fun h => { h with wait := wt }
      { s2 with bundles := trimBundles [b.id] (b.tids.filter fun y => y ≠ x) false s2.bundles }
    | _ => s) s

/-- LEAVE (R385): first the unused slots are filled, then every earlier access of the lane settles, then the message goes. -/
def execLeave (w : RWord) (s : State) : Out :=
  let f := w.form [w.srcA 2] []
  match s.issuer with
  | none => .fault .noIssuer
  | some (b, t) =>
    match gate f t b.tids with
    | .stops l => .next (s.stopLanes t.id l)
    | .wait => .next (s.stall b)
    | .pass =>
      let acts := t.active f b.tids
      let fill := acts.filter (hasFill w t s)
      if !fill.isEmpty then .next (s.fillAll w t b fill)
      else
        .next (s.runOn f t [b] (acts.map fun x => { acts := [x], all := [x] }) fun l s1 =>
          withLane (fun t h s1 =>
            match leaving w t h s1 with
            | .stop x s2 => .stop x s2
            | .park s2 => .leave .transit s2
            | .got (pa, _, e) s2 =>
              if !s2.quiet t.id h.tid then .hold else
              let m : LeaveMsg := { id := s2.nextId, team := t.id, tid := h.tid, desc := pa }
              let s3 := s2.fresh.updThread t.id h.tid fun x => x.dropHeld e
              .ok { s3 with ushers := { s3.ushers with leaves := s3.ushers.leaves ++ [m] } }) t.id (l.headD 0) s1)

/-! ## PUSH, POP, RACC, RSTAT (R386-R389) -/

/-- PUSH (R386). -/
def execPush (w : RWord) (s : State) : Out :=
  issueLanes (w.form [w.srcA 2, dataSpan w.b w.feB] [])
    (withLane fun t h s1 =>
      let va := h.pair w.a.toNat
      onRoom (roomDesc t h s1 va) fun pa s2 =>
        match occupant s2 t h va pa 3 true w.b.toNat with
        | .error x => .stop x s2
        | .ok (r, e) =>
          let set (v : Bool) (s : State) : State := s.updThread t.id h.tid fun x => x.setPred w.c.toNat v
          let solo := e.mode = 5
          let room := if solo then (r.rtail - r.pidx).toNat < r.n else e.left ≠ 0
          if !room then .ok (set false s2)
          else
            let slot := if solo then r.rtail else e.next
            match roomStore t h s2 r slot.toNat (h.dataBytes w.b.toNat r.esize) s.nextId with
            | .ok s3 =>
              .ok (set true (if solo then s3.setRegion { r with rtail := r.rtail + 1 }
                else s3.updThread t.id h.tid fun x => x.setHeld e { e with next := e.next + 1, left := e.left - 1 }))
            | res => res) s

/-- The element of an earlier POP of the lane has not come: its held set has one place for an index that is to be kept (R112, R387). -/
def State.popping (s : State) (team tid : Nat) : Bool := s.flight.ops.any fun o => o.team = team && o.tid = tid && (match o.kind with
  | .pop _ _ _ => true
  | _ => false)

/-- POP (R387, R431): the index is taken from the Usher, or is the one that the lane kept, and its element is loaded. -/
def execPop (w : RWord) (s : State) : Out :=
  let d := dataSpan w.d false
  issueLanes { w.form [w.srcA 2] [{ d with fe := false }] with long := true }
    (withLane fun t h s1 =>
      let va := h.pair w.a.toNat
      if !s1.mayStart t.id h.tid 0 || s1.popping t.id h.tid then .hold else
      onRoom (roomDesc t h s1 va) fun pa s2 =>
        match occupant s2 t h va pa 4 true w.d.toNat with
        | .error x => .stop x s2
        | .ok (r, e) =>
          let kept := e.left = 1
          if !kept && r.pidx = r.rtail then
            .ok (s2.updThread t.id h.tid fun x => (x.markFull d.regs).setPred w.c.toNat false)
          else
            let i := if kept then e.next else r.pidx
            let s3 := if kept then s2 else s2.setRegion { r with pidx := r.pidx + 1 }
            let keepIt (s : State) : State := s.updThread t.id h.tid fun x => x.setHeld e { e with next := i, left := 1 }
            match loadLane t h s3 (r.elem i.toNat) r.esize (elemAsk r .read) 0 0 s.nextId (.pop ((r.esize + 3) / 4) e.desc i) w.d.toNat
              fun _ => .load with
            | .ok s4 => .ok (s4.updThread t.id h.tid fun x => (x.setHeld e { e with next := 0, left := 0 }).setPred w.c.toNat true)
            | .stop x s4 => .stop x (keepIt s4)
            | .leave wt s4 => .leave wt (keepIt s4)
            | res => res) s

/-- A store of the lane to a line is not applied yet, or one of its core to it is under way (R85, R88). -/
def State.storesOpen (s : State) (core team tid key : Nat) : Bool :=
  !(s.coreStores core (lineOf key)).isEmpty
    || s.flight.reqs.any fun q => q.team = team && q.tid = tid && !q.reads && q.unapplied && (s.linesFor q).contains (lineOf key)

/-- RACC (R388). The first of a room reads the element's value in memory, after the lane's own stores to it (R85). -/
def execRacc (w : RWord) (s : State) : Out :=
  issueLanes (w.form [w.srcA 2, w.srcB 1, dataSpan w.c w.feC] [])
    (withLane fun t h s1 =>
      let va := h.pair w.a.toNat
      onRoom (roomDesc t h s1 va) fun pa s2 =>
        match occupant s2 t h va pa 2 false w.c.toNat with
        | .error x => .stop x s2
        | .ok (r, _) =>
          let i := (h.reg w.b.toNat).toNat
          if r.n ≤ i then .stop { code := trapAccess, va := r.elem i, access := 1 } s2
          else
            onReach (t.reach s2 h (r.elem i) r.esize (elemAsk r .write)) fun ps s3 =>
              let key := (ps.map Part.key).headD 0
              if !r.pend.any (fun p => p.1 = key) && s3.storesOpen (t.coreOf h.tid) t.id h.tid key then .hold else
              .ok (s3.setRegion (r.reduce key (s3.peekLe key r.esize) (h.regsNat w.c.toNat ((r.esize + 3) / 4))))) s

/-- The two words of RSTAT (R389). -/
def Region.stat (r : Option Region) (sel : Nat) : Nat :=
  match r with
  | none => if sel = 0 then 7 else 0
  | some r =>
    if sel = 1 then r.head.toNat + 2 ^ 32 * r.rtail.toNat
    else
      let hd := r.q.head?
      r.mode.getD 7 + 2 ^ 3 * bit r.closing + 2 ^ 4 * (r.occ % 2 ^ 16) + 2 ^ 20 * r.q.length + 2 ^ 23 * ((hd.map Prod.fst).getD 7)
        + 2 ^ 26 * (((hd.map fun e => e.2.length).getD 0) % 2 ^ 16) + 2 ^ 42 * (r.line.length % 2 ^ 16)

/-- RSTAT (R389): the snapshot is taken at issue and arrives as a long-latency result. -/
def execRstat (w : RWord) (s : State) : Out :=
  issueLanes { w.form [w.srcA 2] [w.dst 2] with long := true }
    (withLane fun t h s1 =>
      onRoom (roomDesc t h s1 (h.pair w.a.toNat)) fun pa s2 =>
        let v := Region.stat (s2.region? pa) (bitsOf w.md.toNat 0 1)
        let regs := [(w.d.toNat, BitVec.ofNat 32 v), (w.d.toNat + 1, BitVec.ofNat 32 (v / 2 ^ 32))]
        let res : Result := { id := s2.nextId, team := t.id, tid := h.tid, regs := regs, flags := 0 }
        .ok { s2.fresh with flight := { s2.flight with results := s2.flight.results ++ [res] } }) s

/-! ## Events of the Usher -/

/-- Slots of a region that a thread has reserved and gives up take the fill value, as LEAVE's do (R379, R384, R385); one whose address does
not pass its checks stays as it is (log 84). -/
def State.fillNow (s : State) (t : Team) (h : Thread) (r : Region) (first : W32) (n : Nat) : State :=
  (List.range n).foldl (fun s i =>
    match t.reach s h (r.elem (first + BitVec.ofNat 32 i).toNat) r.esize (elemAsk r .write) with
    | (.ok (some ps), s1) => ps.foldl (fun s p => s.writeNow p.key (((toBytes r.esize r.fill.toNat).drop p.pos).take p.len) p.nc) s1
    | _ => s) s

/-- The reserved slots of a pair on a region filled. -/
def State.fillPair (s : State) (team tid desc mode : Nat) (first slots : W32) : State :=
  match s.team? team, s.thread? team tid, s.region? desc with
  | some t, some h, some r => if mode = 3 then s.fillNow t h r first slots.toNat else s
  | _, _, _ => s

/-- The seats of an ENTERM given back, each as a LEAVE without the release (R384). -/
def State.giveBack (s : State) (d : Demand) : State :=
  match d.kind with
  | .enterm seated _ =>
    seated.foldl (fun s p => (s.fillPair d.team d.tid p.1 p.2.mode p.2.next p.2.left).leaveRoom p.1 d.team d.tid) s
  | _ => s

/-- A demand that cannot be placed stops its lane exactly. -/
def State.demandStops (s : State) (d : Demand) (code : Nat) : State :=
  (s.dropDemand d.team d.tid).stopLanes d.team [(d.tid, { code := code, va := d.va })]

/-- A demand reaches its Usher (R374, R375, R383). -/
def State.placeDemand (s : State) (d : Demand) : State :=
  match s.region? d.desc with
  | none => (s.giveBack d).demandStops d trapRoomState
  | some r =>
    if r.full d.mode then (s.giveBack d).demandStops d trapRoomWait
    else
      let mark (x : Demand) : Demand := { x with placed := true, at_ := s.time }
      let s1 := { s with ushers := { s.ushers with demands := updWhere s.ushers.demands (fun x => x.id = d.id) mark } }
      let s2 := s1.applyRegion (r.demand d.mode s.time { team := d.team, tid := d.tid, count := d.count })
      match d.kind with
      | .etry _ =>
        if r.budget = 0 && ((s2.demand? d.team d.tid).map fun x => x.answer.isNone).getD false then
          (s2.withdrawAt d.desc d.team d.tid).answerDemand d.team d.tid (false, 0, 0)
        else s2
      | _ => s2

/-- The demands that arrive with one: those of its instruction on their way to the same Usher, in home-lane order (R375). A further pair
of an ENTERM comes alone. -/
def State.arriving (s : State) (d : Demand) : List Demand :=
  if d.reached then [d]
  else s.ushers.demands.filter fun x => x.batch = d.batch && home x.desc = home d.desc && !x.placed && !x.reached

/-- The wait budget of a demand has passed at a cycle (R383). -/
def State.budgetPassed (s : State) (d : Demand) (now : Nat) : Bool :=
  d.placed && d.answer.isNone && (match d.kind, s.region? d.desc with
    | .etry _, some r => r.budget ≤ now - d.at_
    | _, _ => false)

/-- A demand withdrawn, and answered false. -/
def State.withdrawn (s : State) (d : Demand) : State := (s.withdrawAt d.desc d.team d.tid).answerDemand d.team d.tid (false, 0, 0)

/-- The withdrawals that are due at a cycle: they come before that cycle's demands (R375). -/
def State.withdrawDue (s : State) (now : Nat) : State :=
  (s.ushers.demands.filter fun d => s.budgetPassed d now).foldl State.withdrawn s

/-- The end of a cycle at the Ushers: the tenure check of every region (R375). -/
def State.tenureChecks (s : State) (now : Nat) : State :=
  { s with ushers := { s.ushers with regions := s.ushers.regions.map fun r => r.tenureCheck now } }

/-- The next cycle, up to a limit, at which a withdrawal or a tenure check acts. -/
def State.nextDue (s : State) (limit : Nat) : Option Nat :=
  let budgets := s.ushers.demands.filterMap fun d =>
    match d.kind, s.region? d.desc with
    | .etry _, some r => if d.placed && d.answer.isNone then some (d.at_ + r.budget) else none
    | _, _ => none
  let tenures := s.ushers.regions.filterMap fun r =>
    if r.mode.isSome && !r.closing && !r.q.isEmpty then some (r.opened + r.term) else none
  leastBy id ((budgets ++ tenures).filter fun n => n ≤ limit)

/-- What the cycles up to a limit bring at the Ushers, one cycle after another. -/
def State.ushersTo (s : State) (limit : Nat) : Nat → State
  | 0 => s
  | n + 1 =>
    match s.nextDue limit with
    | none => s
    | some c => ((s.withdrawDue c).tenureChecks c).ushersTo limit n

/-- Cycles have passed at the Ushers: what was due in those before this one has happened (R374, R375, R383). -/
def State.ushersPass (s : State) : State := s.ushersTo (s.time - 1) (s.ushers.demands.length + s.ushers.regions.length)

/-- A LEAVE of a demand's lane to the same region is still on its way, and arrives first. -/
def State.leavesFirst (s : State) (d : Demand) : Bool :=
  s.ushers.leaves.any fun l => l.team = d.team && l.tid = d.tid && l.desc = d.desc

/-- USHER_DEMAND (R374, R375): the demands of one bundle's lanes arrive together, after the withdrawals of the cycle. -/
def execUsherDemand (demand : Nat) (s0 : State) : Out :=
  let s := s0.withdrawDue s0.time
  match s.ushers.demands.find? fun d => d.id = demand && !d.placed with
  | none => .next s
  | some d => if (s.arriving d).any s.leavesFirst then .next s else .next ((s.arriving d).foldl State.placeDemand s)

/-- USHER_LEAVE (R374): a LEAVE arrives; the curtain falls when the last occupant has left. -/
def execUsherLeave (leave : Nat) (s : State) : Out :=
  match s.ushers.leaves.find? fun l => l.id = leave with
  | none => .next s
  | some l =>
    let s1 := { s with ushers := { s.ushers with leaves := s.ushers.leaves.filter fun x => x.id ≠ leave } }
    .next (s1.leaveRoom l.desc l.team l.tid)

/-- TENURE_EXPIRY (R374): the open room has reached its tenure and other modes wait. -/
def execTenureExpiry (region : Nat) (s : State) : Out :=
  match s.region? region with
  | none => .next s
  | some r => .next (s.setRegion (r.tenureCheck s.time))

/-- ETRY_BUDGET_EXPIRY (R383): the wait budget has passed, so the demand is withdrawn and the answer is false. -/
def execEtryBudgetExpiry (team tid : Nat) (s : State) : Out :=
  match s.demand? team tid with
  | none => .next s
  | some d => if s.budgetPassed d s.time then .next (s.withdrawn d) else .next s

/-- ROOM_ADMISSION (R378, R379): a waiting lane of a resident team receives its answer and resumes at the following instruction. -/
def execRoomAdmission (team tid : Nat) (s : State) : Out :=
  match s.demand? team tid, s.team? team, s.thread? team tid with
  | some d, some t, some h =>
    match d.answer, h.wait with
    | some a, .usher =>
      if t.removed then .next s
      else .next ((s.enterDone d a).resumePast team tid 0)
    | _, _ => .next s
  | _, _, _ => .next s

/-- The reserved slots of what a demand has been answered with, filled. -/
def State.fillAnswer (s : State) (d : Demand) : State :=
  match d.answer with
  | some (true, first, slots) => s.fillPair d.team d.tid d.desc d.mode first slots
  | _ => s

/-- The reserved slots of the pairs that a thread holds, filled. -/
def State.fillHeld (s : State) (t : Team) (h : Thread) : State :=
  h.held.foldl (fun s e =>
    match (translate s (t.coreOf h.tid) t.asid e.desc).1 with
    | .ok x => s.fillPair t.id h.tid x.pa e.mode e.next e.left
    | .error _ => s) s

/-- Everything that a team's threads hold or demand is given up as by LEAVE, unused slots filled, without its release (R379, R385). -/
def State.leaveAll (s : State) (team : Nat) : State :=
  let s0 : State := match s.team? team with
    | some t => t.threads.foldl (fun (s : State) h => s.fillHeld t h) s
    | none => s
  let s1 := s0.ushers.demands.foldl (fun (s : State) d =>
    if d.team = team then (((s.fillAnswer d).giveBack d).withdrawAt d.desc d.team d.tid).dropDemand d.team d.tid else s) s0
  s1.ushers.regions.foldl (fun s r =>
    (r.occupants.filter fun o => o.1 = team).foldl (fun s o => s.leaveRoom r.desc o.1 o.2) s) s1

end Sys2Proof.Machine
end

