-- ==== Sys2Proof/Machine/CtlEvents.lean ====
section
/-! DEFINITION. Trap rings (10 R219, R220) and what the supervisor writes to a die's team-control port: resume commands (10 R222, R223),
save-area commands (R227), cue-control commands (17 R330) and the consumed index (R220). -/

namespace Sys2Proof.Machine

open Sys2Proof

/-! ## Records and rings -/

/-- The 64 bytes of a trap record (R219). -/
def TrapRec.bytes (r : TrapRec) : List Byte :=
  toBytes 4 r.handle.toNat ++ toBytes 2 r.tid ++ toBytes 1 r.code ++ toBytes 1 (r.kind + 8 * bit r.restart) ++ toBytes 8 r.mask.toNat
    ++ toBytes 8 r.pc.toNat ++ toBytes 1 r.idx ++ toBytes 1 r.under ++ toBytes 1 r.access ++ toBytes 1 r.level ++ toBytes 4 r.ident.toNat
    ++ toBytes 8 r.va.toNat ++ toBytes 8 r.progress.toNat ++ toBytes 16 0

def State.ring (s : State) (die : Nat) : Ring := (s.traps.rings[die]?).getD State.ringAtReset

def State.updRing (s : State) (die : Nat) (f : Ring → Ring) : State :=
  { s with traps := { s.traps with rings := s.traps.rings.modify die f } }

/-- A ring that takes no record. -/
def Ring.full (r : Ring) : Bool := !r.set_ || r.size ≤ (r.produced - r.consumed).toNat

/-- TRAP_RECORD_WRITE (R220): the record that has waited longest goes to its ring, the produced index rises, the interrupt is raised. -/
def execTrapRecordWrite (die : Nat) (s : State) : Out :=
  match s.traps.records.find? fun r => r.die = die && !r.written with
  | none => .next s
  | some r =>
    let g := s.ring die
    if g.full then .next s
    else
      let s1 := s.writeNow (g.base + 64 * (g.produced.toNat % g.size)) r.bytes false
      let s2 := s1.updRing die fun x => { x with produced := x.produced + 1 }
      let kept := updWhere s2.traps.records (fun x => x.sub = r.sub) fun x => { x with written := true }
      .next { s2 with traps := { s2.traps with
        records := kept.filter fun x => x.sub ≠ r.sub || r.kind ≤ 1
        raised := keep 0 s2.traps.raised g.server (look 0 s2.traps.raised g.server + 1) } }

/-- CONSUMED_INDEX_WRITE (R220). -/
def execConsumedIndexWrite (die : Nat) (v : W64) (s : State) : Out :=
  let g := s.ring die
  if v < g.consumed ∨ g.produced < v then .next (s.log 5 die 0 0 0)
  else .next (s.updRing die fun x => { x with consumed := v })

/-! ## Resume commands (R222, R223) -/

/-- The team that a handle names on a die. -/
def State.byHandle (s : State) (die : Nat) (h : W32) : Option Team := s.teams.find? fun t => t.die = die && t.handle = h

/-- Threads of a parked sub-group. -/
def Team.parkedIn (t : Team) (sub : Nat) : List Nat := (t.threads.filter fun h => h.wait = .stopped sub).map Thread.tid

/-- The written record that a command names, with its team: a parked sub-group, or a stopped context or pass. -/
def State.answered (s : State) (die : Nat) (handle : W32) (tid : BitVec 16) (mask : W64) : Option (Team × TrapRec) :=
  match s.byHandle die handle with
  | none => none
  | some t =>
    (s.traps.records.find? fun r => r.written && r.die = die && r.handle = handle && r.tid = tid.toNat && r.mask = mask
        && (r.kind = 1 || (r.kind = 0 && !(t.parkedIn r.sub).isEmpty))).map fun r => (t, r)

def State.dropRecord (s : State) (r : TrapRec) : State :=
  { s with traps := { s.traps with records := s.traps.records.filter fun x => x.sub ≠ r.sub } }

/-- A lane that is no longer parked: it stands at its PC record, or where its group's ROLE waits for the end of the clause at which it
stands it waits for the switch (R176). -/
def Team.unparked (t : Team) (h : Thread) : Thread :=
  { h with parked := false,
           wait := (match (t.group (t.groupOf h.tid)).next with
             | some n => if h.idx = 0 then .role n else .ready
             | none => .ready) }

/-- The state lines of a sub-group reloaded, and its lanes no longer parked. -/
def State.unpark (s : State) (t : Team) (r : TrapRec) (f : Thread → Thread) : State :=
  (t.parkedIn r.sub).foldl (fun s x => (s.bringLine t.id x 0).updLine0 t.id x fun h => t.unparked (f h)) (s.dropRecord r)

/-- A sub-group that executes again from its PC record. -/
def State.resumeLanes (s : State) (t : Team) (r : TrapRec) (step : Bool) : State :=
  (s.unpark t r fun h => { h with singleStep := step }).arrive t.id (t.parkedIn r.sub)

/-- A stopped context or pass goes on; in a chain every member does (R223, R245). -/
def State.unstopStream (s : State) (t : Team) (r : TrapRec) : State :=
  let all := (s.mx.engines.map Engine.table).flatten ++ s.mx.away
  let s1 := s.dropRecord r
  match all.find? fun x => x.team = t.id && x.stopped && x.hdr = r.pc && x.idx = r.idx with
  | some x =>
    let ids := x.id :: x.partners
    let go (y : Pass) : Pass := if ids.contains y.id then { y with stopped := false } else y
    { s1 with mx := { s1.mx with
      engines := s1.mx.engines.map fun e => { e with table := e.table.map go }
      away := s1.mx.away.map go } }
  | none =>
    let go (p : Prompter) : Prompter := if p.team = t.id && p.st = .stopped then { p with st := .running } else p
    { s1 with mx := { s1.mx with
      ctxs := s1.mx.ctxs.map go
      awayCtxs := s1.mx.awayCtxs.map go } }

/-- A command that has no effect. -/
def State.ignored (s : State) (die : Nat) : State := s.log 5 die 0 0 0

/-- RESUME (R222 action 0). -/
def execResume (die : Nat) (handle : BitVec 32) (tid : BitVec 16) (mask : BitVec 64) (s : State) : Out :=
  match s.answered die handle tid mask with
  | none => .next (s.ignored die)
  | some (t, r) =>
    if r.kind = 1 then .next (s.unstopStream t r) else .next (s.resumeLanes t r false)

/-- RESUME_STEPPED (R222 action 1). -/
def execResumeStepped (die : Nat) (handle : BitVec 32) (tid : BitVec 16) (mask : BitVec 64) (s : State) : Out :=
  match s.answered die handle tid mask with
  | none => .next (s.ignored die)
  | some (t, r) =>
    if r.kind = 1 then .next (s.ignored die) else .next (s.resumeLanes t r true)

/-- SKIP (R222 action 2): the lanes go on behind their instruction. -/
def execSkip (die : Nat) (handle : BitVec 32) (tid : BitVec 16) (mask : BitVec 64) (s : State) : Out :=
  match s.answered die handle tid mask with
  | none => .next (s.ignored die)
  | some (t, r) =>
    if r.kind = 1 then .next (s.ignored die)
    else
      let tids := t.parkedIn r.sub
      .next ((tids.foldl (fun s x =>
        match s.team? t.id, s.thread? t.id x with
        | some t1, some h =>
          let count := match (s.fetch (t1.coreOf x) t1.asid h.priv h.pc).1 with
            | .ok w => (headerOf w).count
            | .error _ => 15
          let s1 := s.updLine0 t.id x fun y => y.advance count
          if count ≤ h.idx + 1 then s1.holdRoles t.id [x] else s1
        | _, _ => s) (s.unpark t r id)).arrive t.id tids)

/-- The engine threads of a team killed (R222 action 3): the passes of a stream go at once, and with them its cue is KILLED. -/
def State.killEngines (s : State) (t : Team) : State :=
  let s1 := (s.cues.filter fun c => c.team = t.id).foldl (fun s c =>
    match s.cue? c.core c.slot with
    | some x => s.killCue x
    | none => s) s
  let closes (p : Prompter) : Prompter :=
    if p.team = t.id then { p with st := .idle, cue := none, staged := none, stagedFrom := none } else p
  let s2 := { s1 with mx := { s1.mx with
    engines := s1.mx.engines.map fun e => { e with table := e.table.filter fun x => x.team ≠ t.id }
    away := s1.mx.away.filter fun x => x.team ≠ t.id
    ctxs := s1.mx.ctxs.map closes
    awayCtxs := s1.mx.awayCtxs.map closes } }
  (s1.cues.filter fun c => c.team = t.id && c.st = .active && c.kind = .stream).foldl (fun s c => s.endKill c (s1.streamFlags c)) s2

/-- Every thread of a team exits without the held-set check, and its grid completes with a status (R222 action 3, R379, R427). -/
def State.endTeam (s : State) (t : Team) (status : Nat) : State :=
  let s1 := (s.leaveAll t.id).killEngines t
  let mine := (s1.bundles.filter fun b => b.team = t.id).map Bundle.id
  let quiet (x : Shoot) : Shoot := if (x.owner.map mine.contains).getD false then { x with owner := none } else x
  let shoots := (s1.units.shoots.map quiet).filter fun x => !(x.units.isEmpty && x.owner.isNone)
  let s2 := { s1 with
    bundles := s1.bundles.filter fun b => b.team ≠ t.id
    callees := s1.callees.filter fun q => q.team ≠ t.id
    units := { s1.units with shoots := shoots }
    dist := { s1.dist with grids := updWhere s1.dist.grids (fun g => g.id = t.grid) fun g => { g with status := status } } }
  s2.updTeam t.id fun y => { y with
    threads := y.threads.map fun h => { h with exited := true, wait := .ready, held := [], parked := false, absent := [] } }

/-- END_TEAM (R222 action 3). -/
def execEndTeam (die : Nat) (handle : BitVec 32) (tid : BitVec 16) (mask : BitVec 64) (s : State) : Out :=
  match s.answered die handle tid mask with
  | none => .next (s.ignored die)
  | some (t, r) => .next ((s.dropRecord r).endTeam t 0x80)

/-! ## Save areas (R226, R227) -/

/-- SAVE_AREA_COMMAND (R227): for a marked team only one that repeats its area has no fault. -/
def execSaveAreaCommand (die : Nat) (handle size : BitVec 32) (addr : BitVec 64) (s : State) : Out :=
  match s.byHandle die handle with
  | none => .next (s.ignored die)
  | some t =>
    if (t.marked && t.saveArea ≠ some (addr.toNat, size.toNat)) || size.toNat < t.saveBytes || addr.toNat % 4096 ≠ 0
        || 2 ^ 40 < addr.toNat + size.toNat then .next (s.ignored die)
    else .next (s.updTeam t.id fun x => { x with saveArea := some (addr.toNat, size.toNat) })

/-- SAVE_AREA_WITHDRAW (R227). -/
def execSaveAreaWithdraw (die : Nat) (handle : BitVec 32) (s : State) : Out :=
  match s.byHandle die handle with
  | none => .next (s.ignored die)
  | some t => if t.marked then .next (s.ignored die) else .next (s.updTeam t.id fun x => { x with saveArea := none })

/-! ## Cue control (17 R330) -/

/-- The cue that a handle and an ID name. -/
def State.cueNamed (s : State) (die : Nat) (handle id : W32) : Option Cue :=
  (s.byHandle die handle).bind fun t => s.cues.find? fun c => c.team = t.id && c.st ≠ .free && c.ident t = id

/-- RE_ARM (R330). -/
def execReArm (die : Nat) (handle cue : BitVec 32) (s : State) : Out :=
  match s.cueNamed die handle cue with
  | none => .next (s.ignored die)
  | some c => .next (s.rearm c)

/-- KILL (R330). -/
def execKill (die : Nat) (handle cue : BitVec 32) (s : State) : Out :=
  match s.cueNamed die handle cue with
  | none => .next (s.ignored die)
  | some c => .next (s.killCue c)

end Sys2Proof.Machine
end

