-- ==== Sys2Proof/Machine/HostEvents.lean ====
section
/-! DEFINITION. What comes from outside a core: lost lines and failing storage (18 R353, 25 R427), the noise sources (04 R76-R81), the
host's queues (25 R419, R420), the ports (R423), control space (R417, R424, R426), links (R422), power (R429) and bring-up (R430). -/

namespace Sys2Proof.Machine

open Sys2Proof

/-! ## Lanes whose requests cannot be served (R353, R422) -/

/-- What an operation leaves when it is taken back at request `r`: its registers are full with their old values and its token falls; the
elements of a SCATA below `r` stay sent, and PROG stands at `r`'s (R359); a POP keeps its index (R387). -/
def State.undoOp (s : State) (o : Op) (r : Req) : State :=
  let s1 := (s.updLine0 o.team o.tid fun y => y.markFull o.regs).tokenDone o.team o.tid o.tok
  match o.kind with
  | .scata =>
    let below := s1.flight.reqs.any fun q => q.op = o.id && q.pos < r.pos
    let cut : State := { s1 with flight := { s1.flight with reqs := s1.flight.reqs.filter fun q => !(q.op = o.id && r.pos ≤ q.pos) } }
    let kept := if below then cut.updOp o.id fun y => { y with tok := none } else cut.dropOp o.id
    kept.updLine0 o.team o.tid fun y => { y with prog := BitVec.ofNat 64 (r.pos / o.bytes) }
  | .kload n => (s1.updTeam o.team fun t => { t with kWait := t.kWait.filter fun r => !(o.dst ≤ r && r < o.dst + n) }).dropOp o.id
  | .pop _ desc i =>
    (s1.updLine0 o.team o.tid fun y => { y with held := updWhere y.held (fun e => e.desc = desc) fun e => { e with next := i, left := 1 } }).dropOp o.id
  | _ => s1.dropOp o.id

/-- A lane goes back to the instruction of an operation that is taken back and stops there. -/
def State.stopBack (s : State) (o : Op) (x : Stop) (tid : Nat) : State :=
  match s.thread? o.team tid with
  | none => s
  | some h =>
    match h.wait with
    | .stopped _ => s
    | _ => if h.exited then s else (s.updLine0 o.team tid fun y => y.goto o.pc o.idx).stopLanes o.team [(tid, x)]

/-- An operation taken back at a request that is not served: its lane stops at the instruction that posted it, and for a KLD every
thread of its bundle (R177). -/
def State.takeBack (s : State) (o : Op) (r : Req) (x : Stop) : State :=
  let x1 : Stop := match o.kind with
    | .scata => { x with progress := BitVec.ofNat 64 (r.pos / o.bytes) }
    | _ => x
  match s.thread? o.team o.tid with
  | none => s.dropOp o.id
  | some _ => (o.tid :: o.mates).foldl (fun s y => s.stopBack o x1 y) (s.undoOp o r)

/-- The request at which an operation is stuck: one that a test picks and that its home has not applied. A store, and a SCATA whose later
elements have been applied, wait (log 51). -/
def State.stuckAt (s : State) (p : Req → Bool) (o : Op) : Option Req :=
  let rs := s.flight.reqs.filter fun r => r.op = o.id
  match o.kind, rs.find? fun r => p r && r.unapplied with
  | .store, _ | .sts, _ | .scat, _ | .plain, _ => none
  | .scata, some r => if rs.all fun q => q.pos < r.pos || q.unapplied then some r else none
  | _, r => r

/-- The oldest operation of each lane that is stuck; lanes stop there, and their younger stuck ones are only taken back. -/
def State.stopReaders (s : State) (p : Req → Bool) (x : Req → Stop) : State :=
  let ops := s.flight.ops.filter fun o => (s.stuckAt p o).isSome
  let first := ops.filter fun o => !ops.any fun q => q.team = o.team && q.tid = o.tid && q.id < o.id
  let rest := ops.filter fun o => !first.contains o
  let s1 := rest.foldl (fun t o => ((s.stuckAt p o).map (t.undoOp o)).getD t) s
  first.foldl (fun t o =>
    match s.stuckAt p o with
    | some r => t.takeBack o r (x r)
    | none => t) s1

/-! ## Lost lines and failing storage -/

/-- A line marked LOST (R353): its copies are invalidated, its owner is gone, its tag stays, and the mark is logged. Lanes that wait for
it stop. -/
def State.markLost (s : State) (line : Nat) : State :=
  if !isDeviceLine line || s.coh.lost.contains line then s
  else
    let sharers := ((s.coh.entry? line).map fun e => e.sharers.map Prod.fst).getD []
    let c0 := { s.coh with
      copies := s.coh.copies.filter fun (k : Copy) => !(k.line = line && k.st ≠ CopyState.loose)
      frames := framesLess s.coh.frames line
      dirty := s.coh.dirty.filter fun l => l ≠ line
      lost := line :: s.coh.lost }
    let c1 := match c0.entry? line with
      | some e => if e.owner.isSome then c0.putEntry e { e with owner := none } else c0
      | none => c0
    let c2 := ((c1.leaveEntry line (sharers.filter fun x => c1.answer line x = 0)).count (home line) 7 sharers.length).count (home line) 10 1
    let s1 := ({ s with coh := c2 }).log 3 (homeDie line) (homeSlice line) 0 line
    s1.stopReaders (fun r => (s.linesFor r).contains line) fun r => { code := trapLostLine, va := BitVec.ofNat 64 r.va }

/-- LOST_MARK (R353): an owner that holds a line in M or O stops answering before it has written the line back. -/
def execLostMark (agent line : Nat) (s : State) : Out :=
  let ln := lineOf line
  match s.coh.owner? ln with
  | some (who, st) => if who = sharerOf agent && (st = .m || st = .o) then .next (s.markLost ln) else .next s
  | none => .next s

/-- The die of a unit of storage, for the log: 0 HBM row, 1 L2 frame, 2 L1, 3 RDC, 4 TLB, 5 CLB, 6 register cache, 7 scratchpad,
8 accumulator memory, 9 walker, 10 cue (log 19). -/
def storageDie (storage unit addr : Nat) : Nat :=
  match storage with
  | 0 | 1 => homeDie addr
  | 3 => unit
  | 8 | 9 => clusterDie unit
  | 4 => if unit < 2048 then coreDie unit else if unit < 2560 then clusterDie (unit - 2048) else 8
  | _ => coreDie unit

/-- A copy of a line elsewhere that a spare row is refilled from. -/
def Coh.refills (c : Coh) (line : Nat) : Bool :=
  (c.frames.any fun f => f.lines.contains line) || c.copies.any fun (k : Copy) => k.line = line && (k.st = .m || k.st = .o || k.st = .e || k.st = .s)

/-- A lasting error of an HBM row: it is mapped to a spare, and of its lines those that are newer than any copy become LOST (R427; which
other lines the row holds is free, log 53). -/
def State.rowFails (s : State) (line : Nat) : State :=
  let row := line :: (Config.rowLines line).filter fun l => l ≠ line && homeDie l = homeDie line
  (row.map lineOf).foldl (fun s l => if s.coh.refills l then s else s.markLost l) { s with coh := s.coh.wear 0 (homeDie line) }

/-- What a lasting error does to its storage (R427): a frame is retired with the lines it holds, an entry is disabled, a word is mapped
out. For the storage of a team `addr` is the team's number, for a walker or a cue its context or slot, for a TLB a virtual address. -/
def State.lastingError (s : State) (storage unit addr : Nat) : State :=
  let line := lineOf addr
  let worn (s : State) : State := { s with coh := s.coh.wear storage unit }
  let owner (own : Team → Bool) : State :=
    match s.teams.find? fun t => t.id = addr && !t.removed && own t with
    | some t => worn (s.endTeam t 0x82)
    | none => worn s
  let onCore (t : Team) : Bool := t.threads.any fun h => t.coreOf h.tid = unit
  match storage with
  | 0 => s.rowFails line
  | 1 =>
    let held := ((s.coh.frames.find? fun f => f.lines.contains line).map Frame.lines).getD []
    let s1 := held.foldl (fun s l => if s.coh.dirty.contains l then s.markLost l else s.evict (.frame l)) s
    { s1 with coh := s1.coh.wear 1 (home line) }
  | 2 => worn { s with coh := s.coh.dropCopy (.l1 unit) line }
  | 3 => worn { s with coh := s.coh.dropCopy (.rdc unit) line }
  | 4 => worn (s.evict (.tlb unit addr))
  | 5 => worn (s.evict (.clb unit addr))
  | 6 => owner onCore
  | 7 => owner fun t => t.launch.spadBytes ≠ 0 && (onCore t || (t.launch.pair && t.core / 2 = unit / 2))
  | 8 => owner fun t => t.launch.accRows ≠ 0 && t.cluster = unit
  | 9 =>
    match s.walk.ctxs.find? fun c => c.cluster = unit && c.ctx = addr && !c.stopped && c.cue.isSome with
    | some c => s.stopWalker c c.pc trapWalkerFault { code := trapAccess } false
    | none => s
  | 10 =>
    match s.cue? unit addr with
    | some c => if c.st = .active then s.faultCue c { code := trapAccess } false else s
    | none => s
  | _ => s

/-- ECC_ERROR (R427): a transient error is logged and nothing else changes; a lasting one takes its storage away. -/
def execEccError (storage unit : Nat) (addr : Nat) (lasting : Bool) (s : State) : Out :=
  let die := storageDie storage unit addr
  let pa := if storage ≤ 3 then addr else 0
  if lasting then .next ((s.log 2 die unit (BitVec.ofNat 32 storage) pa).lastingError storage unit addr)
  else .next (s.log 1 die unit (BitVec.ofNat 32 storage) pa)

/-! ## Noise (R76-R81) -/

/-- NOISE_HEALTH_FAILURE (R76). -/
def execNoiseHealthFailure (cluster : Nat) (s : State) : Out :=
  let s1 := if s.noise.failing.contains cluster then s else { s with noise := { s.noise with failing := cluster :: s.noise.failing } }
  .next (s1.log 4 (clusterDie cluster) cluster 0 0)

/-- NOISE_HEALTH_PASS (R76). -/
def execNoiseHealthPass (cluster : Nat) (s : State) : Out :=
  .next { s with noise := { s.noise with failing := s.noise.failing.filter fun c => c ≠ cluster } }

/-- The mode of a request's team: 0 live, 1 rehearsal, 2 replay. -/
def State.drawMode (s : State) (r : DrawReq) : Nat := ((s.team? r.team).map Team.rehearsal).getD 0

/-- The request that a cluster's arbiter serves next: replay does not use the source (R76, R80). -/
def State.nextLive (s : State) (cluster : Nat) : Option DrawReq :=
  s.noise.reqs.find? fun r => r.cluster = cluster && !r.ready && !r.held && s.drawMode r ≠ 2

/-- NOISE_DRAW_DELIVERY (R76, R79): the oldest request of a cluster gets a draw, in live mode. -/
def execNoiseDrawDelivery (cluster : Nat) (s : State) : Out :=
  match s.nextLive cluster with
  | none => .next s
  | some r =>
    if s.noise.failing.contains cluster || s.drawMode r ≠ 0 then .next s
    else .next (s.freshDraw.2.giveDraw r s.freshDraw.1)

/-- The consumer of a request stops on its ring, and no draw is consumed: the request goes, or waits with the draws that it has, until
the consumer asks again as it re-executes (R81). A NOISE that has left its instruction has live draws, which use no ring. -/
def State.drawFault (s : State) (r : DrawReq) (x : Stop) : State :=
  let s1 := if r.got.isEmpty then { s with noise := { s.noise with reqs := s.noise.reqs.filter fun q => q.id ≠ r.id } }
    else s.setDraw { r with held := true }
  match r.who with
  | .lane => s1.stopLanes r.team [(r.tid, x)]
  | .noise _ => s1
  | .cue core slot =>
    match s.cue? core slot with
    | some c => s1.faultCue c x (cueRestarts x.code)
    | none => s1
  | .pass id =>
    match s.mx.engines.find? fun e => e.table.any fun y => y.id = id with
    | some e =>
      match e.table.find? fun y => y.id = id with
      | some y =>
        match s.team? y.team with
        | some t => s1.haltPass e.cluster t y x
        | none => s1
      | none => s1
    | none => s1

/-- Words of 8 bytes that can all be written (R184). -/
def wordsWritable (s : State) (unit : Nat) (asid : BitVec 16) : List W64 → Found Unit
  | [] => .got () s
  | a :: r =>
    match engReach s unit asid a 8 .write [] with
    | .stop x s1 => .stop x s1
    | .park s1 => .park s1
    | .got _ s1 => wordsWritable s1 unit asid r

/-- The done index and the limit index of a team's ring. The done index and the records of the draws that a request still needs are
checked for a write before each draw, so that a fault finds nothing consumed (R77, R81, log 54). -/
def drawIndices (s : State) (t : Team) (unit : Nat) (r : DrawReq) : Found (Nat × Nat) :=
  let blk := t.rehearsalBlock
  match engRead s unit t.asid (blk + 16) 16 [] with
  | .stop x s1 => .stop x s1
  | .park s1 => .park s1
  | .got b s1 =>
    let done := fieldOf b 0 8
    match wordsWritable s1 unit t.asid ((blk + 16) :: (List.range (r.need - r.got.length)).map fun i => t.ringSlot (done + i)) with
    | .stop x s2 => .stop x s2
    | .park s2 => .park s2
    | .got _ s2 => .got (done, fieldOf b 8 8) s2

/-- REHEARSAL_RECORD (R79): a draw of a team in rehearsal mode is recorded at the done index, which rises; the draw waits while that
has reached the limit. The teams of a launch record in one ring (R111). -/
def execRehearsalRecord (cluster : Nat) (s : State) : Out :=
  match s.nextLive cluster with
  | none => .next s
  | some r =>
    match s.team? r.team with
    | none => .next s
    | some t =>
      if t.rehearsal ≠ 1 || s.noise.failing.contains cluster then .next s
      else
        let unit := clusterUnit cluster
        match drawIndices s t unit r with
        | .park _ => .next s
        | .stop x s1 => .next (s1.drawFault r x)
        | .got (done, limit) s1 =>
          if limit ≤ done then .next s1
          else
            let draw := s1.freshDraw.1
            let rec_ := drawRecord r.kind r.tid draw (look 0 t.draws (tagKey r.kind r.tid))
            match engWrite s1.freshDraw.2 unit t.asid (t.ringSlot done) (toBytes 8 rec_) [] with
            | .got _ s2 =>
              (match engWrite s2 unit t.asid (t.rehearsalBlock + 16) (toBytes 8 (done + 1)) [] with
               | .got _ s3 => .next (s3.giveDraw r draw)
               | _ => .next s)
            | _ => .next s

/-- A record of the ring of a team's launch has been taken, or a request is about to take it (R80, R111). -/
def State.ringTaken (s : State) (t : Team) (i : Nat) : Bool :=
  s.noise.taken.contains (t.grid, i)
    || s.noise.reqs.any fun q => q.slots.contains i && ((s.team? q.team).map fun u => decide (u.grid = t.grid)).getD false

/-- The records of a ring from index `i` on, `n` of them at most, up to the first with a tag and an ordinal that nothing has taken: its
draw and its index. -/
def findRecord (s : State) (t : Team) (unit kind tid ordinal : Nat) (i : Nat) : Nat → Found (Option (Nat × Nat))
  | 0 => .got none s
  | n + 1 =>
    match engRead s unit t.asid (t.ringSlot i) 8 [] with
    | .got b s1 =>
      let w := ofBytes b
      if w / 2 ^ 16 = drawRecord kind tid 0 ordinal / 2 ^ 16 && !s.ringTaken t i then .got (some (w % 2 ^ 16, i)) s1
      else findRecord s1 t unit kind tid ordinal (i + 1) n
    | .stop x s1 => .stop x s1
    | .park s1 => .park s1

/-- How many records from index `i` on, `n` at most, have all been taken (R80). -/
def takenFrom (taken : List (Nat × Nat)) (grid : Nat) (i : Nat) : Nat → Nat
  | 0 => 0
  | n + 1 => if taken.contains (grid, i) then 1 + takenFrom taken grid (i + 1) n else 0

/-- The records of a request are taken, and the done index stands past the leading ones of them all (R80). -/
def State.takeRecords (s : State) (t : Team) (slots : List Nat) (done : Nat) : State :=
  let pass (x : Nat × Nat) : Bool := x.1 = t.grid && x.2 < done
  { s with noise := { s.noise with taken := (s.noise.taken ++ slots.map fun i => (t.grid, i)).filter fun x => !pass x } }

/-- The request that a replay serves: of the requests of one tag only the oldest takes records (R80). -/
def State.replayReq (s : State) (cluster request : Nat) : Option DrawReq :=
  match s.noise.reqs.find? fun r => r.id = request && r.cluster = cluster && !r.ready && !r.held with
  | none => none
  | some r =>
    if (s.noise.reqs.find? fun q => q.team = r.team && q.kind = r.kind && q.tid = r.tid && !q.ready) = some r then some r else none

/-- REPLAY_DRAW (R80): a consumer in replay mode takes the record with its tag and ordinal, once one lies below the limit index. The
counts and the done index change with the last draw of a request, so that a fault finds nothing consumed (R81, log 54). -/
def execReplayDraw (cluster request : Nat) (s : State) : Out :=
  match s.replayReq cluster request with
  | none => .next s
  | some r =>
    match s.team? r.team with
    | none => .next s
    | some t =>
      if t.rehearsal ≠ 2 then .next s
      else
        let unit := clusterUnit cluster
        let blk := t.rehearsalBlock
        match engRead s unit t.asid (blk + 16) 16 [] with
        | .park _ => .next s
        | .stop x s1 => .next (s1.drawFault r x)
        | .got b s1 =>
          let done := fieldOf b 0 8
          let room := min t.ringSize (fieldOf b 8 8 - done)
          let k := look 0 t.draws (tagKey r.kind r.tid)
          match findRecord s1 t unit r.kind r.tid ((k + r.slots.length) % 2 ^ 32) done room with
          | .park _ => .next s
          | .stop x s2 => .next (s2.drawFault r x)
          | .got none s2 => .next s2
          | .got (some x) s2 =>
            let r' := { r with got := r.got ++ [x.1], slots := r.slots ++ [x.2] }
            if !r'.ready then .next (s2.setDraw r')
            else
              let past := takenFrom (s2.noise.taken ++ r'.slots.map fun i => (t.grid, i)) t.grid done room
              match engWrite s2 unit t.asid (blk + 16) (toBytes 8 (done + past)) [] with
              | .park _ => .next s
              | .stop x s3 => .next (s3.drawFault r x)
              | .got _ s3 =>
                .next (((s3.takeRecords t r'.slots (done + past)).setDraw { r' with slots := [] }).countDraws r r'.slots.length)

/-! ## Host queues (R419, R420) -/

/-- Control-space offset of word `j` of a host queue block. -/
def queueWord (q j : Nat) : Nat := 0x10000 + 64 * q + 8 * j

/-- Halves of a control-space register. -/
def Ctl.lo32 (c : Ctl) (off : Nat) : Nat := bitsOf (c.reg off).toNat 0 32
def Ctl.hi32 (c : Ctl) (off : Nat) : Nat := bitsOf (c.reg off).toNat 32 32
def Ctl.setLo32 (c : Ctl) (off v : Nat) : Ctl := c.setReg off (BitVec.ofNat 64 (v % 2 ^ 32 + 2 ^ 32 * c.hi32 off))
def Ctl.setHi32 (c : Ctl) (off v : Nat) : Ctl := c.setReg off (BitVec.ofNat 64 (c.lo32 off + 2 ^ 32 * (v % 2 ^ 32)))

def Ctl.queueSize (c : Ctl) (q : Nat) : Nat := c.lo32 (queueWord q 1)
def Ctl.queueTail (c : Ctl) (q : Nat) : Nat := c.hi32 (queueWord q 1)
def Ctl.queueHead (c : Ctl) (q : Nat) : Nat := c.lo32 (queueWord q 2)
def Ctl.queueFlags (c : Ctl) (q : Nat) : Nat := c.hi32 (queueWord q 2)
def Ctl.doneHead (c : Ctl) (q : Nat) : Nat := c.lo32 (queueWord q 4)
def Ctl.doneTail (c : Ctl) (q : Nat) : Nat := c.hi32 (queueWord q 4)

/-- A ring size that does not disable the queue. -/
def sizeOk (n : Nat) : Bool := (List.range 13).any fun i => n = 2 ^ (4 + i)

/-- The queue's rings work: the part is ready and the size is one that R419 allows. -/
def Ctl.queueOn (c : Ctl) (q : Nat) : Bool := c.ready && q < 16 && sizeOk (c.queueSize q)

/-- Device or host memory, where rings lie. -/
def ringSpace (c : Ctl) (a : Nat) : Bool :=
  match spaceOf c a with
  | .device | .host => true
  | _ => false

/-- The front distributor takes the entries of a queue, `n` at most, up to the tail; an entry with status 0x81 reads no record, and one
whose record cannot be read stays at the head (log 55). -/
def State.takeEntries (s : State) (q : Nat) : Nat → State
  | 0 => s
  | n + 1 =>
    let c := s.ctl
    let head := c.queueHead q
    let at_ := (c.reg (queueWord q 0)).toNat + 32 * (head % c.queueSize q)
    if !c.queueOn q || !bitOf (c.queueFlags q) 2 || head = c.queueTail q || !ringSpace c at_ then s
    else
      let b := s.peekBytes at_ 32
      let addr := BitVec.ofNat 64 (fieldOf b 0 8)
      let asid := BitVec.ofNat 16 (fieldOf b 8 2)
      let tag := BitVec.ofNat 64 (fieldOf b 16 8)
      let taken (s : State) : State := { s with ctl := s.ctl.setLo32 (queueWord q 2) (head + 1) }
      if fieldOf b 10 6 ≠ 0 || fieldOf b 24 8 ≠ 0 || addr.toNat % 256 ≠ 0 then
        let done : Completion := { queue := q, tag := tag, status := 0x81 }
        (taken { s with ctl := { c with completions := c.completions ++ [done] } }).takeEntries q n
      else
        let die := Config.frontDie s.choices % 8
        let s1 := { s with choices := s.choices + 1 }
        match engReadLong s1 (distUnit die) asid addr 4 with
        | .got rec_ s2 => ((taken s2).accept die addr asid rec_ (.queue q tag) (c.queueFlags q % 4)).takeEntries q n
        | _ => s

/-- Every entry up to the tail: at most as many as the ring holds. -/
def State.serveQueue (s : State) (q : Nat) : State := s.takeEntries q (min 65536 (s.ctl.queueSize q))

/-- The host may write a control-space register (R417, R424). -/
def Ctl.hostMay (c : Ctl) (off : Nat) : Bool := accessPasses c 2 (2 ^ 40 + off) true

/-- HOST_DOORBELL (R419, R420): the host's tail doorbell, an acquire at system scope; the front distributor takes the entries. -/
def execHostDoorbell (queue : Nat) (tail : BitVec 32) (s : State) : Out :=
  if 16 ≤ queue || !s.ctl.hostMay (queueWord queue 1) then .next s
  else .next (({ s with ctl := s.ctl.setHi32 (queueWord queue 1) tail.toNat }).serveQueue queue)

/-- The 16 bytes of completion `k` of a queue: the phase flips with each pass over the ring. -/
def completionBytes (k size : Nat) (x : Completion) : List Byte :=
  toBytes 8 x.tag.toNat ++ toBytes 4 x.status ++ toBytes 1 (bit (Config.firstPhase != bitOf (k / size) 0)) ++ toBytes 3 0

/-- HOST_COMPLETION_WRITE (R419, R420): the queue's oldest completion is written where the ring has room, and the tail rises. -/
def execHostCompletionWrite (queue : Nat) (s : State) : Out :=
  let c := s.ctl
  match c.completions.find? fun x => x.queue = queue with
  | none => .next s
  | some x =>
    let k := c.doneTail queue
    let size := c.queueSize queue
    let used := (k + 2 ^ 32 - c.doneHead queue) % 2 ^ 32
    let at_ := (c.reg (queueWord queue 3)).toNat + 16 * (k % size)
    if !c.queueOn queue || size ≤ used || !ringSpace c at_ then .next s
    else
      let s1 := s.writeNow at_ (completionBytes k size x) false
      .next { s1 with ctl := { s1.ctl with completions := s1.ctl.completions.erase x }.setHi32 (queueWord queue 4) (k + 1) }

/-- COMPLETION_HEAD_WRITE (R419). -/
def execCompletionHeadWrite (queue : Nat) (head : BitVec 32) (s : State) : Out :=
  if 16 ≤ queue || !s.ctl.hostMay (queueWord queue 4) then .next s
  else .next { s with ctl := s.ctl.setLo32 (queueWord queue 4) head.toNat }

/-! ## Ports (R423) -/

/-- The master class of a port (R424). -/
def portClass (port : Nat) : Nat := unitClass (2560 + port)

/-- QUEUE_ENABLE (R423): a port looks at a queue's descriptor: it reads the entry when the enable bit rises and lets go of it when the
bit falls. Ports 0 and 1 are the network ports, 2 the storage port. A descriptor that the access table keeps from the port is not read
(R424). -/
def execQueueEnable (port queue : Nat) (s0 : State) : Out :=
  let at_ := (s0.ctl.reg (0x20 + 8 * port)).toNat + 32 * queue
  if 3 ≤ port || 256 ≤ queue || !s0.ctl.ready || !ringSpace s0.ctl at_ || !accessPasses s0.ctl (portClass port) at_ false then .next s0
  else
    let s := s0.push (lineOf at_)
    let b := s.peekBytes at_ 32
    let mine (p : PortQueue) : Bool := p.port = port && p.queue = queue
    if !bitOf (fieldOf b 20 1) 0 then .next { s with ctl := { s.ctl with ports := s.ctl.ports.filter fun p => !mine p } }
    else if s.ctl.ports.any mine then .next s
    else
      let p : PortQueue :=
        { port := port, queue := queue, subBase := BitVec.ofNat 64 (fieldOf b 0 8), compBase := BitVec.ofNat 64 (fieldOf b 8 8),
          asid := BitVec.ofNat 16 (fieldOf b 16 2), size := fieldOf b 18 2, done := 0 }
      .next { s with ctl := { s.ctl with ports := p :: s.ctl.ports } }

/-- Bytes of lines that a port writes, one write to a line; a refused one changes nothing, and the work has an error (R424). -/
def portWrites (p : PortQueue) (cells : List (Nat × BitVec 8)) (s : State) (bad : Bool) : List Nat → Found Bool
  | [] => .got bad s
  | ln :: r =>
    match portReach s p (BitVec.ofNat 64 ln) 128 .write with
    | .park s1 => .park s1
    | .stop _ s1 => portWrites p cells s1 true r
    | .got ps s1 =>
      let mine := (cells.filter fun x => lineOf x.1 = ln).map fun x => (x.1 - ln, [x.2])
      portWrites p cells (ps.foldl (fun s x => s.writeLine (lineOf x.key) mine x.nc) s1) bad r

/-- A work entry is read from the submission ring, of 64 bytes (log 16), then what the port writes for it: to the lines that its buffers
name, virtual addresses under the queue's ASID. The outcome says whether an access was refused. -/
def State.portWork (s : State) (p : PortQueue) (cells : List (Nat × BitVec 8)) : Found Bool :=
  match portReach s p (p.subBase + BitVec.ofNat 64 (64 * (p.done % p.size))) 64 .read with
  | .park s1 => .park s1
  | .stop _ s1 => .got true s1
  | .got ps s1 => portWrites p cells (s1.readParts (2560 + p.port) ps).1 false ((cells.map fun x => lineOf x.1).eraseDups)

/-- The 16 bytes of a work completion, of which the spec gives no layout (log 16): one with error where an access was refused (R424). -/
def workBody (choices : Nat) (bad : Bool) : List Byte :=
  (List.range 16).map fun i => if bad then Config.portError (choices + i) else Config.portByte (choices + i)

/-- PORT_WORK_COMPLETION (R423): a port has carried out a work entry; then the work completion is written with release at system scope. -/
def execPortWorkCompletion (port queue : Nat) (cells : List (Nat × BitVec 8)) (s : State) : Out :=
  match s.ctl.ports.find? fun p => p.port = port && p.queue = queue with
  | none => .next s
  | some p =>
    if p.size = 0 then .next s
    else
      match s.portWork p cells with
      | .park _ => .next s
      | .stop _ s1 => .next s1
      | .got bad s1 =>
        match portReach s1 p (p.compBase + BitVec.ofNat 64 (16 * (p.done % p.size))) 16 .write with
        | .park _ => .next s
        | .stop _ s2 => .next s2
        | .got ps s2 =>
          let body := workBody s2.choices bad
          let s3 := ps.foldl (fun s x => s.writeNow x.key ((body.drop x.pos).take x.len) x.nc) { s2 with choices := s2.choices + 16 }
          let count (x : PortQueue) : PortQueue := { x with done := x.done + 1 }
          .next { s3 with ctl := { s3.ctl with ports := updWhere s3.ctl.ports (fun x => x.port = port && x.queue = queue) count } }

/-! ## Control space (R417, R424, R426) -/

/-- ACCESS_TABLE_WRITE (R424): a control processor writes half of an entry, at a control-space offset. Before step 6 of R430 every entry
reads invalid, so one that comes before bring-up has no effect. -/
def execAccessTableWrite (offset : Nat) (value : BitVec 64) (s : State) : Out :=
  let o := offset - 0x2000000
  if !s.ctl.ready || offset < 0x2000000 || 0x1000 * 516 ≤ o || o % 8 ≠ 0 || 6 ≤ o / 0x100 % 16 then .next s
  else .next { s with ctl := s.ctl.setReg offset (if o % 16 = 0 then value else BitVec.ofNat 64 (value.toNat % 2 ^ 35)) }

/-- Bytes of control-space registers, `n` from an offset on. -/
def Ctl.block (c : Ctl) (off n : Nat) : List Byte := ((List.range n).map fun i => toBytes 8 (c.reg (off + 8 * i)).toNat).flatten

/-- The measurement of step 8 of R430: SM3 of the bring-up block and the access tables. -/
def Ctl.measure (c : Ctl) : List Byte := Config.sm3 (c.block 0 24 ++ c.block 0x2000000 (512 * 516))

/-- A list cut or padded with zeros to a length. -/
def fit (n : Nat) (l : List Byte) : List Byte := l.take n ++ List.replicate (n - l.length) 0

/-- The attestation report for a nonce (R426). -/
def Ctl.report (c : Ctl) (nonce : List Byte) : List Byte :=
  let head := toBytes 4 0x54524542 ++ toBytes 4 1 ++ fit 32 nonce ++ toBytes 2 (deviceId c) ++ fit 22 Config.serial
    ++ fit 32 (Config.sm3 Config.firmware) ++ fit 32 c.measured ++ toBytes 64 0
  head ++ fit 64 (Config.sm2 (Config.sm3 head))

/-- The device's answer to a request in the mailbox: the report at 0x100, then 1 at 0x28. -/
def State.attest (s : State) : State :=
  let c := s.ctl.setReg 0x5000020 1
  if !c.ready then { s with ctl := c }
  else
    let b := c.report (c.block 0x5000000 4)
    let c1 := (List.range 32).foldl (fun (c : Ctl) i => c.setReg (0x5000100 + 8 * i) (BitVec.ofNat 64 (ofBytes ((b.drop (8 * i)).take 8)))) c
    { s with ctl := c1.setReg 0x5000028 1 }

/-- ATTESTATION_REQUEST (R426): the host writes a nonce and asks for a report. -/
def execAttestationRequest (nonce : BitVec 256) (s : State) : Out :=
  if !s.ctl.hostMay 0x5000020 then .next s
  else
    let c := (List.range 4).foldl (fun (c : Ctl) i => c.setReg (0x5000000 + 8 * i) (BitVec.ofNat 64 (nonce.toNat / 2 ^ (64 * i)))) s.ctl
    .next ({ s with ctl := c }).attest

/-- A 16-byte command taken at a die's team-control port, from its two words (R222, R227, R330, R432). -/
def State.takeCommand (s : State) (die port : Nat) (lo hi : W64) : Out :=
  let a := BitVec.ofNat 32 lo.toNat
  let b := BitVec.ofNat 32 (lo.toNat / 2 ^ 32)
  match port with
  | 0x000 =>
    let tid := BitVec.ofNat 16 b.toNat
    if bitsOf b.toNat 24 8 ≠ 0 then .next (s.ignored die)
    else
      match bitsOf b.toNat 16 8 with
      | 0 => execResume die a tid hi s
      | 1 => execResumeStepped die a tid hi s
      | 2 => execSkip die a tid hi s
      | 3 => execEndTeam die a tid hi s
      | _ => .next (s.ignored die)
  | 0x100 => if b = 0 && hi = 0 then execSaveAreaWithdraw die a s else execSaveAreaCommand die a b hi s
  | 0x800 =>
    if hi.toNat = 1 then execReArm die a b s else if hi.toNat = 2 then execKill die a b s else .next (s.ignored die)
  | _ => execCounterRetry die lo hi s

/-- A write to a die's team-control port: the lower word of a command waits for the upper one (R417). -/
def State.portWrite (s : State) (die o : Nat) (v : W64) : Out :=
  let port := o / 16 * 16
  if o = 0xC08 then execConsumedIndexWrite die v s
  else if !([0x000, 0x100, 0x800, 0x900].contains port) then .next s
  else
    let key := 0x1000 * die + port
    if o % 16 = 0 then .next { s with ctl := { s.ctl with halves := keep 0 s.ctl.halves key v } }
    else ({ s with ctl := { s.ctl with halves := keep 0 s.ctl.halves key 0 } }).takeCommand die port (look 0 s.ctl.halves key) v

/-- A write to a word of a host queue block: the fields that the device writes stay (R419). -/
def State.queueWrite (s : State) (q j : Nat) (v : W64) : State :=
  let off := queueWord q j
  let c := s.ctl
  match j with
  | 0 | 3 => { s with ctl := c.setReg off v }
  | 1 => ({ s with ctl := c.setReg off v }).serveQueue q
  | 2 => ({ s with ctl := c.setHi32 off (bitsOf v.toNat 32 3) }).serveQueue q
  | 4 => { s with ctl := c.setLo32 off v.toNat }
  | _ => s

/-- A register that R419 or R426 has the host write: a host queue block, or the mailbox. -/
def hostRegister (offset : Nat) : Bool := (0x10000 ≤ offset && offset < 0x10400) || (0x5000000 ≤ offset && offset ≤ 0x5000020)

/-- CONTROL_REGISTER_WRITE (R417): a whole register is written; reserved offsets and registers that the device alone writes ignore it. The
host's registers need the host's table of control space, and control processors always pass (R424; log 56). -/
def execControlRegisterWrite (offset : Nat) (value : BitVec 64) (s : State) : Out :=
  let put (v : W64) : Out := .next { s with ctl := s.ctl.setReg offset v }
  if offset % 8 ≠ 0 || (hostRegister offset && !s.ctl.hostMay offset) then .next s
  else if 0x08 ≤ offset ∧ offset ≤ 0x30 then put value
  else if 0x10000 ≤ offset ∧ offset < 0x10400 then .next (s.queueWrite ((offset - 0x10000) / 64) ((offset - 0x10000) / 8 % 8) value)
  else if 0x20000 ≤ offset ∧ offset < 0x28000 then s.portWrite ((offset - 0x20000) / 0x1000) ((offset - 0x20000) % 0x1000) value
  else if 0x1000000 ≤ offset ∧ offset < 0x1004000 then put (BitVec.ofNat 64 (value.toNat % 2 ^ 15))
  else if 0x5000000 ≤ offset ∧ offset < 0x5000020 then put value
  else if offset = 0x5000020 ∧ value = 1 then .next s.attest
  else .next s

/-- A word of the stage-door log's entry `i`, of the entries that it still holds (R428). -/
def Ctl.logWord (c : Ctl) (i j : Nat) : W64 :=
  let first := c.logged - c.log.length
  match c.log[(i + 4096 - first % 4096) % 4096]? with
  | none => 0
  | some e =>
    match j with
    | 0 => e.clock
    | 1 => BitVec.ofNat 64 (e.kind % 2 ^ 8 + 2 ^ 8 * (e.die % 2 ^ 8) + 2 ^ 16 * (e.unit % 2 ^ 16) + 2 ^ 32 * e.detail.toNat)
    | 2 => BitVec.ofNat 64 e.addr
    | _ => 0

/-- What a read of a control-space register returns (R417): the slice counters of R335, the indices of a die's trap ring (R220), the
stage-door log (R428), and the registers that are kept. A reserved offset reads 0. -/
def State.controlRegister (s : State) (off : Nat) : W64 :=
  if off % 8 ≠ 0 then 0
  else if 0x20000 ≤ off && off < 0x28000 then
    match s.traps.rings[(off - 0x20000) / 0x1000]?, off % 0x1000 with
    | some g, 0xC00 => g.produced
    | some g, 0xC08 => g.consumed
    | _, _ => 0
  else if 0x100000 ≤ off && off < 0x120000 then
    if (off - 0x100000) % 0x100 < 88 then BitVec.ofNat 64 (s.sliceCounter ((off - 0x100000) / 0x100) ((off - 0x100000) % 0x100 / 8)) else 0
  else if off = 0x3000000 then BitVec.ofNat 64 (s.ctl.logged % 4096)
  else if 0x3000040 ≤ off && off < 0x3000040 + 32 * 4096 then s.ctl.logWord ((off - 0x3000040) / 32) ((off - 0x3000040) % 32 / 8)
  else s.ctl.reg off

/-! ## Links (R422) -/

/-- The remote device that a request goes to. -/
def Req.device (r : Req) (c : Ctl) : Option Nat :=
  match spaceOf c r.pa with
  | .remote d _ => some d
  | _ => none

/-- PATH_DOWN (R422): a path is removed; releases gather their markers from the others, and its writes are sent again on them. -/
def execPathDown (device path : Nat) (s : State) : Out :=
  if 16 ≤ path || s.ctl.down.contains (device, path) then .next s
  else
    let s1 := s.updReqs (fun r => r.device s.ctl = some device) fun r => { r with paths := r.paths.filter fun p => p ≠ path }
    .next { s1 with ctl := { s1.ctl with down := (device, path) :: s1.ctl.down } }

/-- The lane stands at a WACK or FENCE at sc 6. -/
def State.atFence (s : State) (t : Team) (h : Thread) : Bool :=
  h.wait = .ready && !h.exited && s.inBundle t.id h.tid
    && (match (s.fetch (t.coreOf h.tid) t.asid h.priv h.wordAddr).1 with
        | .ok w =>
          match decodeCore w with
          | .ok (.wack x) => x.sc.toNat = 6
          | .ok (.fence x) => x.sc.toNat = 6
          | _ => false
        | .error _ => false)

/-- What a device that is cut off held of this device's memory (R422): its lines in M become LOST, and it leaves the others. -/
def State.loseDevice (s : State) (dev : Nat) : State :=
  let held := s.coh.copies.filter fun (k : Copy) => k.who = .device dev
  held.foldl (fun s (k : Copy) => if k.modified then s.markLost k.line else s.writeBack k.line [] none) s

/-- DEVICE_UNREACHABLE (R422): no path is left: unacknowledged writes are dropped, lanes that wait for the device stop with ACCESS, and
lines of this device that it held in M become LOST. -/
def execDeviceUnreachable (device : Nat) (s : State) : Out :=
  if s.ctl.unreachable.contains device || !(List.range 16).all fun p => s.ctl.down.contains (device, p) then .next s
  else
    let there (r : Req) : Bool := r.device s.ctl = some device && !r.settled
    let writes (r : Req) : Bool := there r && ((s.op? r.op).map fun o => o.kind.acked).getD false
    let held := (s.teams.map fun t => (t.threads.filter fun h =>
      (s.flight.reqs.any fun r => writes r && r.team = t.id && r.tid = h.tid) && s.atFence t h).map fun h => (t.id, h.tid)).flatten
    let ends := s.flight.ops.filter fun o => o.kind.acked && (s.flight.reqs.any fun r => r.op = o.id && writes r)
      && s.flight.reqs.all fun r => r.op ≠ o.id || writes r
    let s1 := s.stopReaders (fun r => there r && !writes r) fun r => { code := trapAccess, va := BitVec.ofNat 64 r.va }
    let s2 := { s1 with flight := { s1.flight with reqs := s1.flight.reqs.filter fun r => !writes r } }
    let s3 := ends.foldl (fun s o => (s.tokenDone o.team o.tid o.tok).dropOp o.id) s2
    let s4 := (held.map Prod.fst).eraseDups.foldl (fun s t =>
      s.stopLanes t ((held.filter fun x => x.1 = t).map fun x => (x.2, { code := trapAccess }))) s3
    .next ((({ s4 with ctl := { s4.ctl with unreachable := device :: s4.ctl.unreachable } }).loseDevice device).log 6 8 0 (BitVec.ofNat 32 device) 0)

/-! ## Power (R429) -/

/-- THERMAL_TRIP (R429): an island at 105 °C issues one cycle in eight, and the trip is logged. Capping changes only timing. -/
def execThermalTrip (island : Nat) (s : State) : Out :=
  if 128 ≤ island then .next s else .next ((s.sense island 1050 none (some 32)).log 8 (Config.islandDie island) island 0 0)

/-- The power of the module in mW: the sum of what its islands' telemetry shows (R429). -/
def Ctl.power (c : Ctl) : Nat := ((List.range 128).map fun i => bitsOf (c.reg (telemetryOf i)).toNat 0 32).foldl (· + ·) 0

/-- POWER_CAP (R429): while the module's power is over the cap of the bring-up block, in W, an island lowers its voltage or skips issue
cycles. -/
def execPowerCap (island : Nat) (s : State) : Out :=
  if 128 ≤ island || s.ctl.power ≤ 1000 * (s.ctl.reg 0x18).toNat then .next s
  else .next ((s.sense island 0 (some (bitsOf (s.ctl.reg (telemetryOf island)).toNat 48 16)) none).log 7 (Config.islandDie island) island 0 0)

/-! ## Bring-up (R430) -/

/-- Registers that bring-up writes with what it is given. -/
def bringUpField (off : Nat) : Bool :=
  off % 8 = 0 && ((0x08 ≤ off && off < 0xC0) || (0x2000000 ≤ off && off < 0x2000000 + 0x1000 * 516 && off / 0x100 % 16 < 6))

/-- A die's trap ring as the bring-up block sets it; a field outside its limits leaves the ring unset. -/
def Ctl.ringOf (c : Ctl) (die : Nat) : Ring :=
  let base := (c.reg (0x40 + 16 * die)).toNat
  let w := (c.reg (0x48 + 16 * die)).toNat
  let size := bitsOf w 0 32
  let ok := base % 4096 = 0 && base < 2 ^ 40 && bitsOf w 32 8 < 16 && bitsOf w 40 24 = 0
    && (List.range 11).any fun i => size = 2 ^ (6 + i)
  if ok then { base := base, size := size, server := bitsOf w 32 8, set_ := true, produced := 0, consumed := 0 } else State.ringAtReset

/-- Steps 2 to 7 of R430: memory and tags cleared, the fields written, every aperture invalid, the module cap at its default where
none is given. A unit that has no spare for what has failed in it is disabled (R427). -/
def State.bringUpFields (s : State) (block : List (Nat × BitVec 64)) : State :=
  let kept := s.ctl.regs.filter fun r => !(0x1000000 ≤ r.1 && r.1 < 0x1004000)
  let c0 : Ctl := ({ s.ctl with regs := kept }).setReg 0x18 3000
  let c1 := (block.filter fun x => bringUpField x.1).foldl (fun (c : Ctl) x =>
    c.setReg x.1 (if x.1 = 0x38 then BitVec.ofNat 64 (x.2.toNat % 2 ^ 14) else x.2)) c0
  { s with
    mem := s.mem.filter fun x => 2 ^ 40 ≤ x.1
    coh := { s.coh with
      tags := s.coh.tags.filter fun x => 2 ^ 40 ≤ x.1
      worn := s.coh.worn.map fun x => (x.1, if Config.spares x.1 < x.2 then 2 ^ 40 else x.2) }
    traps := { s.traps with rings := (List.range 8).map c1.ringOf }
    ctl := c1 }

/-- BRING_UP (R430): control processor 0 verifies the firmware and brings the part up, or halts. Queue enables written before status 2
take effect with it. -/
def execBringUp (verified : Bool) (block : List (Nat × BitVec 64)) (s : State) : Out :=
  if s.ctl.ready || s.ctl.halted then .next s
  else if !verified then
    .next (({ s with ctl := { s.ctl with halted := true }.setReg 0 1 }).log 9 8 0 0 0)
  else
    let s1 := s.bringUpFields block
    let s2 := { s1 with ctl := { s1.ctl with ready := true, measured := s1.ctl.measure }.setReg 0 2 }
    .next ((List.range 16).foldl (fun s q => s.serveQueue q) s2)

end Sys2Proof.Machine
end

