-- ==== Sys2Proof/Machine/SliceOps.lean ====
section
/-! DEFINITION. The slice-engine instructions of a thread: ATOM, RED, GATH, SCAT, SCATA, CAS4, SFLUSH, REGMODE, RECLAIM
(19 R355-R364). What their requests do at the home is in MemEvents. -/

namespace Sys2Proof.Machine

open Sys2Proof

/-! ## ATOM and RED (R355-R357) -/

/-- AC bit that an operation of R356 needs (R209). -/
def rmwAc (op : Nat) : Nat := if op = 7 ∨ op = 8 then 10 else if op = 1 then 11 else 9

/-- One lane of ATOM or RED. -/
def rmwLane (w : RWord) (kind : OpKind) (dst : Nat) (tok : Option Nat) (batch : Nat) (t : Team) (h : Thread) (s : State) : Res :=
  let op := bitsOf w.md.toNat 0 4
  let ord := bitsOf w.md.toNat 4 2
  let ty := w.ty.toNat
  let n := rmwBytes ty
  if !s.mayStart t.id h.tid ord || s.tableFull (t.coreOf h.tid) then .hold else
  onReach (t.reach s h (h.pair w.a.toNat) n { use := .rmw, align := n, ac := some (rmwAc op) }) fun ps s1 =>
    if s1.ioWaits t.id h.tid ps then .hold else
    .ok (s1.postAccess
      { id := 0, team := t.id, tid := h.tid, core := t.coreOf h.tid, kind := kind, dst := dst, tok := tok, bytes := n, flags := 0 }
      { team := t.id, tid := h.tid, core := t.coreOf h.tid, asid := t.asid, batch := batch, kind := .rmw op ty, ord := ord,
        sc := w.rm.toNat, data := h.dataBytes w.b.toNat n, cmp := h.dataBytes w.c.toNat n } ps)

/-- ATOM (R355, R357). -/
def execAtom (w : RWord) (s : State) : Out :=
  let n := tyRegs w.ty.toNat
  let cas := bitsOf w.md.toNat 0 4 = 8
  issueLanes { w.form ([w.srcA 2, w.srcB n] ++ if cas then [w.srcC n] else []) [w.dst n] with long := true }
    (withLane (rmwLane w (.atom n) w.d.toNat none s.nextId)) s

/-- RED (R355, R357). -/
def execRed (w : RWord) (s : State) : Out :=
  issueLanes { w.form [w.srcA 2, w.srcB (tyRegs w.ty.toNat)] [] with tok := tokenOf w.tk }
    (withLane (rmwLane w .red 0 (tokenOf w.tk) s.nextId)) s

/-! ## GATH, SCAT and SCATA (R358-R360) -/

/-- What a list operation works on. -/
structure ListArgs where
  /-- Element size. -/
  size : Nat
  /-- Address without the index. -/
  base : W64
  use : Use
  ac : Option Nat := none
  /-- Scratchpad offset of the index list. -/
  list : Nat

/-- The address of element `i` (R358). -/
def ListArgs.at_ (a : ListArgs) (t : Team) (i : Nat) : W64 := a.base + BitVec.ofNat 64 (t.spadLe (a.list + 4 * i) 4 * a.size)

/-- How far the elements of a list got. -/
inductive ListEnd where
  | all
  | stop (x : Stop)
  | park

/-- The elements from `i` on, `n` of them, through the checks of R184: those that pass with their pieces, and how it ended. -/
def listFrom (a : ListArgs) (t : Team) (h : Thread) (s : State) (i : Nat) : Nat → List (Nat × List Part) × ListEnd × State
  | 0 => ([], .all, s)
  | n + 1 =>
    match t.reach s h (a.at_ t i) a.size { use := a.use, align := a.size } with
    | (.error x, s1) => ([], .stop x, s1)
    | (.ok none, s1) => ([], .park, s1)
    | (.ok (some ps), s1) =>
      let r := listFrom a t h s1 (i + 1) n
      ((i, ps) :: r.1, r.2)

/-- The AC check of a SCATA on every element from `i` on (R359). -/
def listAc (a : ListArgs) (t : Team) (h : Thread) (s : State) (i : Nat) : Nat → Option Stop × State
  | 0 => (none, s)
  | n + 1 =>
    let ea := a.at_ t i
    match translate s (t.coreOf h.tid) t.asid ea with
    | (.ok x, s1) =>
      if spaceOf s1.ctl x.pa ≠ .device && !bitOf x.attr (a.ac.getD 9) then
        (some { code := trapAtomicUnsupported, va := ea, access := a.use.accessBits, progress := h.prog }, s1)
      else listAc a t h s1 (i + 1) n
    | (.error _, s1) => listAc a t h s1 (i + 1) n

/-- Requests of the elements of one operation. -/
def State.postList (s : State) (op : Nat) (p : Post) (size : Nat) (data : Nat → List Byte) (l : List (Nat × List Part)) : State :=
  l.foldl (fun s x => s.postParts op { p with at_ := x.1 * size, data := data x.1 } x.2) s

/-- One lane of a list operation: operand rules, then the elements from PROG on. `kind` is given the count. -/
def listLane (w : MWord) (off : W64) (use : Use) (ac : Option Nat) (kind : Nat → Nat → OpKind) (dst : Nat) (tok : Option Nat)
    (req : ReqKind) (batch : Nat) (t : Team) (h : Thread) (s : State) : Res :=
  let size := widthBytes w.w
  let list := (h.reg w.b.toNat).toNat
  let n := (h.reg (w.b.toNat + 1)).toNat
  let arr := (h.reg (w.b.toNat + 2)).toNat
  let prog := h.prog.toNat
  let bits := use.accessBits
  let a : ListArgs := { size := size, base := h.pair w.a.toNat + off, use := use, ac := ac, list := list }
  let core := t.coreOf h.tid
  if n = 0 ∨ 256 < n ∨ n ≤ prog then .stop { code := trapIllegalOperand, progress := h.prog } s
  else if t.launch.spadBytes < list + 4 * n ∨ t.launch.spadBytes < arr + size * n then
    .stop { code := trapAccess, access := bits, progress := h.prog } s
  else if list % 4 ≠ 0 ∨ arr % size ≠ 0 then .stop { code := trapAlign, access := bits, progress := h.prog } s
  else if s.acqPending t.id h.tid || !s.quiet t.id h.tid || s.tableFull core then .hold
  else
    let acc : Option Stop × State := if ac.isSome then listAc a t h s prog (n - prog) else (none, s)
    match acc with
    | (some x, s1) => .stop x s1
    | (none, s1) =>
      let (l, fin, s2) := listFrom a t h s1 prog (n - prog)
      if l.any fun x => s2.ioWaits t.id h.tid x.2 then .hold else
      let data (i : Nat) : List Byte := if use = .read then [] else t.spadBytesAt (arr + size * i) size
      let p : Post := { team := t.id, tid := h.tid, core := core, asid := t.asid, batch := batch, kind := req, sc := w.sc.toNat }
      let whole := match fin with
        | .all => true
        | _ => false
      let o : Op := { id := 0, team := t.id, tid := h.tid, core := core, kind := kind n arr, dst := if whole then dst else 128,
                      tok := if whole then tok else none, bytes := size, flags := 0 }
      let s3 := if l.isEmpty then s2 else (s2.postOp o).postList s2.nextId p size data l
      let next := prog + l.length
      let s4 := s3.updThread t.id h.tid fun x => { x with prog := if whole then 0 else BitVec.ofNat 64 next }
      match fin with
      | .all => .ok s4
      | .stop x => .stop { x with progress := BitVec.ofNat 64 next } s4
      | .park => .leave .transit s4

/-- The form of a list operation: base pair and the registers b to b + 2; b + 3 is not read. -/
def listForm (w : MWord) (dsts : List Span) : Form :=
  { w.form (w.srcBase :: mCoords w) dsts with quad := some w.b.toNat }

/-- GATH (R358-R360). -/
def execGath (w : MWord) (s : State) : Out :=
  issueLanes { listForm w [w.dst 1] with long := true }
    (withLane (listLane w (w.off.signExtend 64) .read none (fun n arr => .gath n (widthBytes w.w) arr) w.d.toNat none .load s.nextId)) s

/-- SCAT (R358-R360). -/
def execScat (w : MWord) (s : State) : Out :=
  issueLanes { listForm w [] with tok := tokenOf w.tk }
    (withLane (listLane w (w.off.signExtend 64) .write none (fun _ _ => .scat) 0 (tokenOf w.tk) .scat s.nextId)) s

/-- The operation and type of a SCATA kind (R358) in the codes of R356. -/
def scataOp (kind width : Nat) : Nat × Nat :=
  match kind with
  | 0 => (0, if width = 3 then 2 else 0)
  | 1 => (1, if width = 3 then 7 else 6)
  | _ => (1, 9)

/-- SCATA (R358-R360). -/
def execScata (w : MWord) (s : State) : Out :=
  let o := scataOp (bitsOf w.off.toNat 12 2) w.w.toNat
  issueLanes { listForm w [] with tok := tokenOf w.tk }
    (withLane (listLane w ((w.off.setWidth 12).signExtend 64) .rmw (some (rmwAc o.1)) (fun _ _ => .scata) 0 (tokenOf w.tk)
      (.rmw o.1 o.2) s.nextId)) s

/-! ## CAS4 (R361) -/

/-- An entry of a CAS4 descriptor. -/
structure CasEntry where
  va : W64
  tag : Nat
  len : Nat
  ok : Bool

/-- Entry `j` of the descriptor at a scratchpad offset. -/
def casEntry (t : Team) (xb j : Nat) : CasEntry :=
  let va := t.spadLe (xb + 16 * j) 8
  let tag := t.spadLe (xb + 16 * j + 8) 4
  let len := t.spadLe (xb + 16 * j + 12) 2
  { va := BitVec.ofNat 64 va, tag := tag, len := len,
    ok := va % 16 = 0 && tag < 2 ^ 24 && len % 16 = 0 && 16 ≤ len && va % 128 + len ≤ 128 && t.spadLe (xb + 16 * j + 14) 2 = 0 }

/-- The pieces of every entry after its checks. -/
def casReach (t : Team) (h : Thread) (s : State) : List CasEntry → Except Stop (Option (List (CasEntry × Part))) × State
  | [] => (.ok (some []), s)
  | e :: r =>
    match t.reach s h e.va e.len { use := .rmw, align := 16, noHost := true, ncStop := true, ac := some 10 } with
    | (.error x, s1) => (.error x, s1)
    | (.ok none, s1) => (.ok none, s1)
    | (.ok (some ps), s1) =>
      match casReach t h s1 r, ps with
      | (.error x, s2), _ => (.error x, s2)
      | (.ok (some l), s2), p :: _ => (.ok (some ((e, p) :: l)), s2)
      | (.ok _, s2), _ => (.ok none, s2)

/-- Device and home slice of a line's key (R11). -/
def spanKey (key : Nat) : Nat × Nat := (key / 2 ^ 40, home (key % 2 ^ 40))

/-- One lane of CAS4. -/
def cas4Lane (w : MWord) (batch : Nat) (t : Team) (h : Thread) (s : State) : Res :=
  let n := w.w.toNat + 1
  let xb := (h.reg w.b.toNat).toNat
  let es := (List.range n).map (casEntry t xb)
  let lines := es.map fun e => e.va.toNat / 128
  -- its descriptor and data are the lane's own stores first (R190)
  if !s.storesSent t.id h.tid then .hold else
  match t.blockStop xb (64 + 128 * n) 4 with
  | some x => .stop x s
  | none =>
    if (es.any fun e => !e.ok) || lines.eraseDups.length ≠ n then .stop { code := trapIllegalOperand } s
    else if !s.mayStart t.id h.tid w.ord.toNat || s.tableFull (t.coreOf h.tid) then .hold
    else
      match casReach t h s es with
      | (.error x, s1) => .stop x s1
      | (.ok none, s1) => .leave .transit s1
      | (.ok (some l), s1) =>
        let keys := l.map fun x => lineOf x.2.key
        if keys.eraseDups.length ≠ n then .stop { code := trapIllegalOperand } s1
        else if (l.map fun x => spanKey x.2.key).eraseDups.length ≠ 1 then .stop { code := trapAtomicSpan, access := 4 } s1
        else if s1.ioWaits t.id h.tid (l.map Prod.snd) then .hold
        else
          let data := (((List.range n).zip es).map fun x => t.spadBytesAt (xb + 64 + 128 * x.1) x.2.len).flatten
          let first := l.headD ({ va := 0, tag := 0, len := 0, ok := false }, { va := 0, pa := 0, key := 0, len := 0, pos := 0, attr := 0, nc := false })
          let core := t.coreOf h.tid
          let o : Op := { id := 0, team := t.id, tid := h.tid, core := core, kind := .cas4, dst := w.d.toNat, tok := none, bytes := 0,
                          flags := 0 }
          let kind := ReqKind.cas4 (l.map fun x => (x.2.key, x.1.tag, x.1.len))
          .ok ((s1.postOp o).postReq
            { id := 0, op := s1.nextId, team := t.id, tid := h.tid, core := core, kind := kind, pa := first.2.pa, len := first.2.len,
              data := data, cmp := [], pos := 0, ord := w.ord.toNat, sc := w.sc.toNat, nc := false, cm := attrCm first.2.attr,
              va := first.2.va.toNat, asid := t.asid, batch := batch, stage := .queued, paths := [] })

/-- CAS4 (R361). -/
def execCas4 (w : MWord) (s : State) : Out :=
  issueLanes { w.form [w.srcB 1] [w.dst 1] with long := true } (withLane (cas4Lane w s.nextId)) s

/-! ## SFLUSH, REGMODE, RECLAIM (R362-R364) -/

/-- The keys of the lines of a range, `n` of them; a page that is not present is skipped. -/
def flushLines (t : Team) (h : Thread) (s : State) (ea : W64) : Nat → Except Stop (List Nat) × State
  | 0 => (.ok [], s)
  | n + 1 =>
    match checkAccess s (t.coreOf h.tid) t.asid h.priv ea 128 .read with
    | (.error x, s1) => if x.code = trapPageFault then flushLines t h s1 (ea + 128) n else (.error x, s1)
    | (.ok x, s1) =>
      match flushLines t h s1 (ea + 128) n with
      | (.error x, s2) => (.error x, s2)
      | (.ok l, s2) => (.ok (memKey s1.ctl x.pa :: l), s2)

/-- Every owner of a line recalled, every L1 and RDC copy of it in the extent discarded (R362). -/
def State.discard (s : State) (line : Nat) (inside : Nat → Bool) : State :=
  let s1 := s.writeBack line [] (some .s)
  { s1 with coh := { s1.coh with copies := s1.coh.copies.filter fun (k : Copy) =>
    !(k.line = line && (match k.who with
      | .l1 c => inside (coreDie c)
      | .rdc d => inside d
      | _ => false)) } }

/-- Every line written from its frame to memory: none is newer than memory any more (R362). -/
def State.flushFrames (s : State) (lines : List Nat) : State :=
  { s with coh := { s.coh with dirty := s.coh.dirty.filter fun l => !lines.contains l } }

/-- SFLUSH (R362). It waits for the lane's earlier accesses and completes at once, so its token is clear again. -/
def execSflush (w : MWord) (s : State) : Out :=
  issueLanes { w.form [w.srcBase, w.srcB 1] [] with tok := tokenOf w.tk }
    (withLane fun t h s1 =>
      let ea := w.eaPlain h
      let n := (h.reg w.b.toNat).toNat
      let inside (d : Nat) : Bool := w.sc = 5 || d = coreDie (t.coreOf h.tid)
      if n % 128 ≠ 0 then .stop { code := trapIllegalOperand } s1
      else if !canonical ea then .stop { code := trapAccess, va := ea } s1
      else if ea.toNat % 128 ≠ 0 then .stop { code := trapAlign, va := ea } s1
      else if !s1.quiet t.id h.tid then .hold
      else
        match flushLines t h s1 ea (n / 128) with
        | (.error x, s2) => .stop x s2
        | (.ok l, s2) =>
          if l.any fun a => s2.coh.txns.any fun x => x.line = a then .hold
          else
            let s3 := if w.w = 1 then l.foldl (fun s a => s.discard a inside) s2 else s2.flushFrames l
            .ok (s3.tokenDone t.id h.tid (tokenOf w.tk))) s

/-- The lines of a region that someone holds a copy of. -/
def Coh.regionLines (c : Coh) (region : Nat) : List Nat :=
  ((c.copies.filter fun (k : Copy) => region ≤ k.line && k.line < region + 65536).map Copy.line).eraseDups

/-- A region switched to software-managed or to coherent (R352): owners write back, every recorded sharer is probed with invalidate,
copies leave, entries are freed, and the requests that the slices hold go on in the new mode; a window access stays non-coherent (R351). -/
def State.switchRegion (s : State) (region : Nat) (managed : Bool) : State :=
  if s.coh.managed.contains region = managed then s else
  let s1 := (s.coh.regionLines region).foldl (fun s l => s.writeBack l [] none) s
  let inside (a : Nat) : Bool := region ≤ a && a < region + 65536
  let c := (s1.coh.dir.filter fun e => inside e.block).foldl Coh.dropEntry s1.coh
  let marks := if managed then region :: c.managed else c.managed.filter fun r => r ≠ region
  let reqs := updWhere s1.flight.reqs (fun r => inside r.pa && r.kind ≠ .sts && r.unapplied) fun r =>
    { r with nc := managed || windowAccess s1 r.core r.asid (BitVec.ofNat 64 r.va) }
  { s1 with coh := { c with copies := c.copies.filter fun (k : Copy) => !inside k.line, managed := marks },
            flight := { s1.flight with reqs := reqs } }

/-- REGMODE (R363). -/
def execRegmode (w : MWord) (s : State) : Out :=
  issueLanes { w.form [w.srcBase] [] with tok := tokenOf w.tk, priv := true }
    (withLane fun t h s1 =>
      let ea := w.eaPlain h
      let core := t.coreOf h.tid
      if !regmodeUsed s1 core t.asid then .stop { code := trapIllegalOperand, va := ea } s1
      else if !canonical ea then .stop { code := trapAccess, va := ea } s1
      else if ea.toNat % 65536 ≠ 0 then .stop { code := trapAlign, va := ea } s1
      else
        match checkAccess s1 core t.asid h.priv ea 1 .read with
        | (.error x, s2) => .stop x s2
        | (.ok x, s2) =>
          let region := x.pa / 65536 * 65536
          if spaceOf s2.ctl x.pa ≠ .device then .stop { code := trapAccess, va := ea } s2
          else if s2.coh.txns.any fun y => region ≤ y.line && y.line < region + 65536 then .hold
          else .ok ((s2.switchRegion region (w.w = 0)).tokenDone t.id h.tid (tokenOf w.tk))) s

/-- A LOST line rewritten: its bytes, LOST cleared, the tag raised (R353, R364). -/
def State.reclaim (s : State) (line : Nat) (d : List Byte) : State :=
  let s1 := s.putLine line d
  { s1 with coh := { s1.coh with lost := s1.coh.lost.filter fun l => l ≠ line } }

/-- RECLAIM (R364). It waits for the lane's earlier accesses and completes at once, so its token is clear again. -/
def execReclaim (w : MWord) (s : State) : Out :=
  issueLanes { w.form [w.srcBase, w.srcB 1] [] with tok := tokenOf w.tk, priv := true }
    (withLane fun t h s1 =>
      let ea := w.eaPlain h
      let xb := (h.reg w.b.toNat).toNat
      if t.launch.spadBytes < xb + 128 ∨ !canonical ea then .stop { code := trapAccess, va := ea, access := 1 } s1
      else if xb % 16 ≠ 0 then .stop { code := trapAlign, va := ea, access := 1 } s1
      else
        if !s1.quiet t.id h.tid then .hold else
        onReach (t.reach s1 h ea 128 { use := .write, align := 128, reclaim := true }) fun ps s2 =>
          .ok ((s2.reclaim ((ps.map Part.key).headD 0) (t.spadBytesAt xb 128)).tokenDone t.id h.tid (tokenOf w.tk))) s

end Sys2Proof.Machine
end

