-- ==== Sys2Proof/Machine/Dispatch.lean ====
section
/-! DEFINITION. The dispatch of an instruction or a step of the part to its meaning. -/

namespace Sys2Proof.Machine

open Sys2Proof

def exec (i : Instr) (s : State) : Host.Outcome State Fault Refusal :=
  match i with
  | .mov w => Sys2Proof.Machine.execMov w s
  | .iadd w => Sys2Proof.Machine.execIadd w s
  | .isub w => Sys2Proof.Machine.execIsub w s
  | .iaddc w => Sys2Proof.Machine.execIaddc w s
  | .imul w => Sys2Proof.Machine.execImul w s
  | .imulh w => Sys2Proof.Machine.execImulh w s
  | .imad w => Sys2Proof.Machine.execImad w s
  | .imadw w => Sys2Proof.Machine.execImadw w s
  | .idiv w => Sys2Proof.Machine.execIdiv w s
  | .irem w => Sys2Proof.Machine.execIrem w s
  | .imin w => Sys2Proof.Machine.execImin w s
  | .imax w => Sys2Proof.Machine.execImax w s
  | .iabs w => Sys2Proof.Machine.execIabs w s
  | .icmp w => Sys2Proof.Machine.execIcmp w s
  | .isel w => Sys2Proof.Machine.execIsel w s
  | .lea w => Sys2Proof.Machine.execLea w s
  | .and w => Sys2Proof.Machine.execAnd w s
  | .or w => Sys2Proof.Machine.execOr w s
  | .xor w => Sys2Proof.Machine.execXor w s
  | .andn w => Sys2Proof.Machine.execAndn w s
  | .not w => Sys2Proof.Machine.execNot w s
  | .shl w => Sys2Proof.Machine.execShl w s
  | .shr w => Sys2Proof.Machine.execShr w s
  | .sha w => Sys2Proof.Machine.execSha w s
  | .rot w => Sys2Proof.Machine.execRot w s
  | .bfe w => Sys2Proof.Machine.execBfe w s
  | .bfi w => Sys2Proof.Machine.execBfi w s
  | .popc w => Sys2Proof.Machine.execPopc w s
  | .clz w => Sys2Proof.Machine.execClz w s
  | .ctz w => Sys2Proof.Machine.execCtz w s
  | .brev w => Sys2Proof.Machine.execBrev w s
  | .bytep w => Sys2Proof.Machine.execBytep w s
  | .plop w => Sys2Proof.Machine.execPlop w s
  | .idot4 w => Sys2Proof.Machine.execIdot4 w s
  | .shfl w => Sys2Proof.Machine.execShfl w s
  | .vote w => Sys2Proof.Machine.execVote w s
  | .gscan w => Sys2Proof.Machine.execGscan w s
  | .gred w => Sys2Proof.Machine.execGred w s
  | .movi w => Sys2Proof.Machine.execMovi w s
  | .iaddi w => Sys2Proof.Machine.execIaddi w s
  | .isubi w => Sys2Proof.Machine.execIsubi w s
  | .iaddci w => Sys2Proof.Machine.execIaddci w s
  | .imuli w => Sys2Proof.Machine.execImuli w s
  | .imulhi w => Sys2Proof.Machine.execImulhi w s
  | .imadi w => Sys2Proof.Machine.execImadi w s
  | .imadwi w => Sys2Proof.Machine.execImadwi w s
  | .idivi w => Sys2Proof.Machine.execIdivi w s
  | .iremi w => Sys2Proof.Machine.execIremi w s
  | .imini w => Sys2Proof.Machine.execImini w s
  | .imaxi w => Sys2Proof.Machine.execImaxi w s
  | .iabsi w => Sys2Proof.Machine.execIabsi w s
  | .icmpi w => Sys2Proof.Machine.execIcmpi w s
  | .iseli w => Sys2Proof.Machine.execIseli w s
  | .leai w => Sys2Proof.Machine.execLeai w s
  | .andi w => Sys2Proof.Machine.execAndi w s
  | .ori w => Sys2Proof.Machine.execOri w s
  | .xori w => Sys2Proof.Machine.execXori w s
  | .andni w => Sys2Proof.Machine.execAndni w s
  | .noti w => Sys2Proof.Machine.execNoti w s
  | .shli w => Sys2Proof.Machine.execShli w s
  | .shri w => Sys2Proof.Machine.execShri w s
  | .shai w => Sys2Proof.Machine.execShai w s
  | .roti w => Sys2Proof.Machine.execRoti w s
  | .bfei w => Sys2Proof.Machine.execBfei w s
  | .bfii w => Sys2Proof.Machine.execBfii w s
  | .movih w => Sys2Proof.Machine.execMovih w s
  | .fadd w => Sys2Proof.Machine.execFadd w s
  | .fsub w => Sys2Proof.Machine.execFsub w s
  | .fmul w => Sys2Proof.Machine.execFmul w s
  | .ffma w => Sys2Proof.Machine.execFfma w s
  | .fmin w => Sys2Proof.Machine.execFmin w s
  | .fmax w => Sys2Proof.Machine.execFmax w s
  | .fcmp w => Sys2Proof.Machine.execFcmp w s
  | .fclass w => Sys2Proof.Machine.execFclass w s
  | .fdiv w => Sys2Proof.Machine.execFdiv w s
  | .fsqrt w => Sys2Proof.Machine.execFsqrt w s
  | .frcp w => Sys2Proof.Machine.execFrcp w s
  | .frsq w => Sys2Proof.Machine.execFrsq w s
  | .fexp2 w => Sys2Proof.Machine.execFexp2 w s
  | .flog2 w => Sys2Proof.Machine.execFlog2 w s
  | .fsin w => Sys2Proof.Machine.execFsin w s
  | .fcos w => Sys2Proof.Machine.execFcos w s
  | .fdot2 w => Sys2Proof.Machine.execFdot2 w s
  | .cvtf w => Sys2Proof.Machine.execCvtf w s
  | .cvtfi w => Sys2Proof.Machine.execCvtfi w s
  | .cvtif w => Sys2Proof.Machine.execCvtif w s
  | .cvtq w => Sys2Proof.Machine.execCvtq w s
  | .cvtdq w => Sys2Proof.Machine.execCvtdq w s
  | .cbk w => Sys2Proof.Machine.execCbk w s
  | .rngk w => Sys2Proof.Machine.execRngk w s
  | .noise w => Sys2Proof.Machine.execNoise w s
  | .ld w => Sys2Proof.Machine.execLd w s
  | .st w => Sys2Proof.Machine.execSt w s
  | .lds w => Sys2Proof.Machine.execLds w s
  | .sts w => Sys2Proof.Machine.execSts w s
  | .ats w => Sys2Proof.Machine.execAts w s
  | .ldsub w => Sys2Proof.Machine.execLdsub w s
  | .ldv w => Sys2Proof.Machine.execLdv w s
  | .pref w => Sys2Proof.Machine.execPref w s
  | .fence w => Sys2Proof.Machine.execFence w s
  | .wack w => Sys2Proof.Machine.execWack w s
  | .cctl w => Sys2Proof.Machine.execCctl w s
  | .ldvol w => Sys2Proof.Machine.execLdvol w s
  | .stvol w => Sys2Proof.Machine.execStvol w s
  | .volinv w => Sys2Proof.Machine.execVolinv w s
  | .atom w => Sys2Proof.Machine.execAtom w s
  | .red w => Sys2Proof.Machine.execRed w s
  | .gath w => Sys2Proof.Machine.execGath w s
  | .scat w => Sys2Proof.Machine.execScat w s
  | .scata w => Sys2Proof.Machine.execScata w s
  | .cas4 w => Sys2Proof.Machine.execCas4 w s
  | .sflush w => Sys2Proof.Machine.execSflush w s
  | .regmode w => Sys2Proof.Machine.execRegmode w s
  | .reclaim w => Sys2Proof.Machine.execReclaim w s
  | .rbind w => Sys2Proof.Machine.execRbind w s
  | .enter w => Sys2Proof.Machine.execEnter w s
  | .enterm w => Sys2Proof.Machine.execEnterm w s
  | .etry w => Sys2Proof.Machine.execEtry w s
  | .leave w => Sys2Proof.Machine.execLeave w s
  | .push w => Sys2Proof.Machine.execPush w s
  | .pop w => Sys2Proof.Machine.execPop w s
  | .racc w => Sys2Proof.Machine.execRacc w s
  | .rstat w => Sys2Proof.Machine.execRstat w s
  | .runbind w => Sys2Proof.Machine.execRunbind w s
  | .cuenew w => Sys2Proof.Machine.execCuenew w s
  | .cuedep w => Sys2Proof.Machine.execCuedep w s
  | .cuearm w => Sys2Proof.Machine.execCuearm w s
  | .copy w => Sys2Proof.Machine.execCopy w s
  | .copyt w => Sys2Proof.Machine.execCopyt w s
  | .cuewait w => Sys2Proof.Machine.execCuewait w s
  | .cueprog w => Sys2Proof.Machine.execCueprog w s
  | .cuekill w => Sys2Proof.Machine.execCuekill w s
  | .wlkgo w => Sys2Proof.Machine.execWlkgo w s
  | .bra w => Sys2Proof.Machine.execBra w s
  | .brx w => Sys2Proof.Machine.execBrx w s
  | .call w => Sys2Proof.Machine.execCall w s
  | .callx w => Sys2Proof.Machine.execCallx w s
  | .ret w => Sys2Proof.Machine.execRet w s
  | .recon w => Sys2Proof.Machine.execRecon w s
  | .yield w => Sys2Proof.Machine.execYield w s
  | .nap w => Sys2Proof.Machine.execNap w s
  | .bara w => Sys2Proof.Machine.execBara w s
  | .barw w => Sys2Proof.Machine.execBarw w s
  | .bars w => Sys2Proof.Machine.execBars w s
  | .exit w => Sys2Proof.Machine.execExit w s
  | .launch w => Sys2Proof.Machine.execLaunch w s
  | .launcht w => Sys2Proof.Machine.execLauncht w s
  | .trap w => Sys2Proof.Machine.execTrap w s
  | .raise w => Sys2Proof.Machine.execRaise w s
  | .tret w => Sys2Proof.Machine.execTret w s
  | .tfence w => Sys2Proof.Machine.execTfence w s
  | .elect w => Sys2Proof.Machine.execElect w s
  | .role w => Sys2Proof.Machine.execRole w s
  | .tmrset w => Sys2Proof.Machine.execTmrset w s
  | .brk w => Sys2Proof.Machine.execBrk w s
  | .kmov w => Sys2Proof.Machine.execKmov w s
  | .kmovi w => Sys2Proof.Machine.execKmovi w s
  | .kld w => Sys2Proof.Machine.execKld w s
  | .kput w => Sys2Proof.Machine.execKput w s
  | .kget w => Sys2Proof.Machine.execKget w s
  | .kadd w => Sys2Proof.Machine.execKadd w s
  | .sread w => Sys2Proof.Machine.execSread w s
  | .swrite w => Sys2Proof.Machine.execSwrite w s
  | .tlbinv w => Sys2Proof.Machine.execTlbinv w s
  | .asidset w => Sys2Proof.Machine.execAsidset w s
  | .ctxevict w => Sys2Proof.Machine.execCtxevict w s
  | .mstart w => Sys2Proof.Machine.execMstart w s
  | .mnop w => Sys2Proof.Machine.execMnop w s
  | .mldw w => Sys2Proof.Machine.execMldw w s
  | .mldwt w => Sys2Proof.Machine.execMldwt w s
  | .mldws w => Sys2Proof.Machine.execMldws w s
  | .mldcb w => Sys2Proof.Machine.execMldcb w s
  | .mma w => Sys2Proof.Machine.execMma w s
  | .mmac w => Sys2Proof.Machine.execMmac w s
  | .mzero w => Sys2Proof.Machine.execMzero w s
  | .mstc w => Sys2Proof.Machine.execMstc w s
  | .mturn w => Sys2Proof.Machine.execMturn w s
  | .mrule w => Sys2Proof.Machine.execMrule w s
  | .mdrain w => Sys2Proof.Machine.execMdrain w s
  | .msave w => Sys2Proof.Machine.execMsave w s
  | .mload w => Sys2Proof.Machine.execMload w s
  | .mwait w => Sys2Proof.Machine.execMwait w s
  | .msig w => Sys2Proof.Machine.execMsig w s
  | .mqcfg w => Sys2Proof.Machine.execMqcfg w s
  | .mepi w => Sys2Proof.Machine.execMepi w s
  | .mprog w => Sys2Proof.Machine.execMprog w s
  | .mjmp w => Sys2Proof.Machine.execMjmp w s
  | .mloop w => Sys2Proof.Machine.execMloop w s
  | .mend w => Sys2Proof.Machine.execMend w s
  | .mkadd w => Sys2Proof.Machine.execMkadd w s
  | .wnop => Sys2Proof.Machine.execWnop s
  | .wmovi d imm => Sys2Proof.Machine.execWmovi d imm s
  | .wmoviSh d imm => Sys2Proof.Machine.execWmoviSh d imm s
  | .wmov d a => Sys2Proof.Machine.execWmov d a s
  | .wadd d a b => Sys2Proof.Machine.execWadd d a b s
  | .waddi d a imm => Sys2Proof.Machine.execWaddi d a imm s
  | .wsub d a b => Sys2Proof.Machine.execWsub d a b s
  | .wand d a b => Sys2Proof.Machine.execWand d a b s
  | .wor d a b => Sys2Proof.Machine.execWor d a b s
  | .wshl d a b r n => Sys2Proof.Machine.execWshl d a b r n s
  | .wshr d a b r n => Sys2Proof.Machine.execWshr d a b r n s
  | .wmin d a b => Sys2Proof.Machine.execWmin d a b s
  | .wpopc d a => Sys2Proof.Machine.execWpopc d a s
  | .wffs d a => Sys2Proof.Machine.execWffs d a s
  | .wcmp a b => Sys2Proof.Machine.execWcmp a b s
  | .wcmpi a imm => Sys2Proof.Machine.execWcmpi a imm s
  | .wld d a k imm => Sys2Proof.Machine.execWld d a k imm s
  | .wldh d a k imm => Sys2Proof.Machine.execWldh d a k imm s
  | .wst d a k imm => Sys2Proof.Machine.execWst d a k imm s
  | .wstC d a k imm => Sys2Proof.Machine.execWstC d a k imm s
  | .wbr c o => Sys2Proof.Machine.execWbr c o s
  | .wjmp o => Sys2Proof.Machine.execWjmp o s
  | .wjmpLink o => Sys2Proof.Machine.execWjmpLink o s
  | .wjmpRet => Sys2Proof.Machine.execWjmpRet s
  | .wemit a b imm => Sys2Proof.Machine.execWemit a b imm s
  | .wtile a => Sys2Proof.Machine.execWtile a s
  | .wwait slot_ => Sys2Proof.Machine.execWwait slot_ s
  | .wmerge a b => Sys2Proof.Machine.execWmerge a b s
  | .wmnext d a => Sys2Proof.Machine.execWmnext d a s
  | .wscan d a b k => Sys2Proof.Machine.execWscan d a b k s
  | .wyield => Sys2Proof.Machine.execWyield s
  | .whalt => Sys2Proof.Machine.execWhalt s
  | .wprog d => Sys2Proof.Machine.execWprog d s
  | .wprogSet a => Sys2Proof.Machine.execWprogSet a s
  | .bundleCast team => Sys2Proof.Machine.execBundleCast team s
  | .dpfExpiry team => Sys2Proof.Machine.execDpfExpiry team s
  | .watchdogExpiry team => Sys2Proof.Machine.execWatchdogExpiry team s
  | .timerExpiry team group => Sys2Proof.Machine.execTimerExpiry team group s
  | .napEnd team tid => Sys2Proof.Machine.execNapEnd team tid s
  | .loadReturn op => Sys2Proof.Machine.execLoadReturn op s
  | .storeAcknowledgement op => Sys2Proof.Machine.execStoreAcknowledgement op s
  | .transitResume team tid => Sys2Proof.Machine.execTransitResume team tid s
  | .launchRetry die => Sys2Proof.Machine.execLaunchRetry die s
  | .calleeQueueTake team => Sys2Proof.Machine.execCalleeQueueTake team s
  | .trapRecordWrite die => Sys2Proof.Machine.execTrapRecordWrite die s
  | .resume die handle tid mask => Sys2Proof.Machine.execResume die handle tid mask s
  | .resumeStepped die handle tid mask => Sys2Proof.Machine.execResumeStepped die handle tid mask s
  | .skip die handle tid mask => Sys2Proof.Machine.execSkip die handle tid mask s
  | .endTeam die handle tid mask => Sys2Proof.Machine.execEndTeam die handle tid mask s
  | .saveAreaCommand die handle size addr => Sys2Proof.Machine.execSaveAreaCommand die handle size addr s
  | .saveAreaWithdraw die handle => Sys2Proof.Machine.execSaveAreaWithdraw die handle s
  | .reArm die handle cue => Sys2Proof.Machine.execReArm die handle cue s
  | .kill die handle cue => Sys2Proof.Machine.execKill die handle cue s
  | .counterRetry die counter record => Sys2Proof.Machine.execCounterRetry die counter record s
  | .consumedIndexWrite die value => Sys2Proof.Machine.execConsumedIndexWrite die value s
  | .counterIncrement die => Sys2Proof.Machine.execCounterIncrement die s
  | .teamPlacement die cores => Sys2Proof.Machine.execTeamPlacement die cores s
  | .taskQueueTake die => Sys2Proof.Machine.execTaskQueueTake die s
  | .teamRetire team => Sys2Proof.Machine.execTeamRetire team s
  | .teamRemoval team => Sys2Proof.Machine.execTeamRemoval team s
  | .teamReturn gang cores => Sys2Proof.Machine.execTeamReturn gang cores s
  | .shootDownAcknowledge shoot unit => Sys2Proof.Machine.execShootDownAcknowledge shoot unit s
  | .volAllocRequest request => Sys2Proof.Machine.execVolAllocRequest request s
  | .homeWrite req => Sys2Proof.Machine.execHomeWrite req s
  | .homeRead req => Sys2Proof.Machine.execHomeRead req s
  | .precisionUpgrade req => Sys2Proof.Machine.execPrecisionUpgrade req s
  | .readForOwnership agent line => Sys2Proof.Machine.execReadForOwnership agent line s
  | .probe line sharer => Sys2Proof.Machine.execProbe line sharer s
  | .rdcProbe line die => Sys2Proof.Machine.execRdcProbe line die s
  | .probeAnswer line => Sys2Proof.Machine.execProbeAnswer line s
  | .directoryMerge base level => Sys2Proof.Machine.execDirectoryMerge base level s
  | .recall line cells => Sys2Proof.Machine.execRecall line cells s
  | .ownerWriteBack agent line cells => Sys2Proof.Machine.execOwnerWriteBack agent line cells s
  | .hostReadShared line => Sys2Proof.Machine.execHostReadShared line s
  | .hostReadExclusive line => Sys2Proof.Machine.execHostReadExclusive line s
  | .hostWrite line cells => Sys2Proof.Machine.execHostWrite line cells s
  | .lostMark agent line => Sys2Proof.Machine.execLostMark agent line s
  | .eccError storage unit addr lasting => Sys2Proof.Machine.execEccError storage unit addr lasting s
  | .usherDemand demand => Sys2Proof.Machine.execUsherDemand demand s
  | .usherLeave leave => Sys2Proof.Machine.execUsherLeave leave s
  | .tenureExpiry region => Sys2Proof.Machine.execTenureExpiry region s
  | .etryBudgetExpiry team tid => Sys2Proof.Machine.execEtryBudgetExpiry team tid s
  | .roomAdmission team tid => Sys2Proof.Machine.execRoomAdmission team tid s
  | .cueStart core slot => Sys2Proof.Machine.execCueStart core slot s
  | .cueCompletion core slot => Sys2Proof.Machine.execCueCompletion core slot s
  | .cueFault core slot => Sys2Proof.Machine.execCueFault core slot s
  | .walkerJobStart cluster ctx => Sys2Proof.Machine.execWalkerJobStart cluster ctx s
  | .walkerSlotRotation cluster => Sys2Proof.Machine.execWalkerSlotRotation cluster s
  | .passGrant cluster => Sys2Proof.Machine.execPassGrant cluster s
  | .passAging cluster => Sys2Proof.Machine.execPassAging cluster s
  | .passCompletion cluster => Sys2Proof.Machine.execPassCompletion cluster s
  | .noiseHealthFailure cluster => Sys2Proof.Machine.execNoiseHealthFailure cluster s
  | .rehearsalRecord cluster => Sys2Proof.Machine.execRehearsalRecord cluster s
  | .replayDraw cluster request => Sys2Proof.Machine.execReplayDraw cluster request s
  | .hostDoorbell queue tail => Sys2Proof.Machine.execHostDoorbell queue tail s
  | .hostCompletionWrite queue => Sys2Proof.Machine.execHostCompletionWrite queue s
  | .completionHeadWrite queue head => Sys2Proof.Machine.execCompletionHeadWrite queue head s
  | .queueEnable port queue => Sys2Proof.Machine.execQueueEnable port queue s
  | .accessTableWrite offset value => Sys2Proof.Machine.execAccessTableWrite offset value s
  | .attestationRequest nonce => Sys2Proof.Machine.execAttestationRequest nonce s
  | .controlRegisterWrite offset value => Sys2Proof.Machine.execControlRegisterWrite offset value s
  | .pathDown device path => Sys2Proof.Machine.execPathDown device path s
  | .deviceUnreachable device => Sys2Proof.Machine.execDeviceUnreachable device s
  | .thermalTrip island => Sys2Proof.Machine.execThermalTrip island s
  | .powerCap island => Sys2Proof.Machine.execPowerCap island s
  | .bringUp verified block => Sys2Proof.Machine.execBringUp verified block s
  | .passStop cluster => Sys2Proof.Machine.execPassStop cluster s
  | .longLatencyResult result => Sys2Proof.Machine.execLongLatencyResult result s
  | .registerLineFill team tid line => Sys2Proof.Machine.execRegisterLineFill team tid line s
  | .walkerLoadReturn cluster ctx => Sys2Proof.Machine.execWalkerLoadReturn cluster ctx s
  | .noiseDrawDelivery cluster => Sys2Proof.Machine.execNoiseDrawDelivery cluster s
  | .noiseHealthPass cluster => Sys2Proof.Machine.execNoiseHealthPass cluster s
  | .flushMarkerArrival req path => Sys2Proof.Machine.execFlushMarkerArrival req path s
  | .portWorkCompletion port queue cells => Sys2Proof.Machine.execPortWorkCompletion port queue cells s

end Sys2Proof.Machine
end

