-- ==== Sys2Proof/Machine/Turns.lean ====
section
/-! DEFINITION. Whose turn it is (log 1) and the turns that execute no instruction (log 2). -/

namespace Sys2Proof.Machine

open Sys2Proof

/-- Cycles pass: at the teams, and at the Ushers. -/
def State.pass (s : State) (d : Nat) : State := (s.tick d).ushersPass

/-- The next turn: the oldest of the agenda, which takes one cycle, or a free one, which takes any number (log 1, log 7). -/
def State.nextTurn (s : State) : Turn × State :=
  match s.agenda with
  | t :: r => (t, { s.pass 1 with agenda := r })
  | [] => (Config.freeTurn s.choices, { s.pass (1 + Config.elapsed s.choices) with choices := s.choices + 1 })

/-! ## A port's next instruction (R104) -/

/-- The core and the port of a bundle. -/
def State.portOf (s : State) (b : Bundle) : Option (Nat × Nat) := (s.team? b.team).map fun t => (t.core + b.slot / 2, b.slot % 2)

/-- What a port chooses by: effective class, age of the grid, TEAM. -/
def State.rank (s : State) (b : Bundle) : Nat × Nat × Nat :=
  match s.team? b.team with
  | some t => (s.bundleClass t b, t.grid, t.teamNo)
  | none => (0, 0, 0)

/-- Lexicographic order of ranks. -/
def rankLe (a b : Nat × Nat × Nat) : Bool := a.1 < b.1 || (a.1 = b.1 && (a.2.1 < b.2.1 || (a.2.1 = b.2.1 && a.2.2 ≤ b.2.2)))

/-- The bundles on the port of a bundle whose stall is over, in the order in which the port prefers them; the state's own order turns the
bundles of one team (R104). -/
def State.portOrder (s : State) (id : Nat) : List Nat :=
  match s.bundles.find? fun b => b.id = id with
  | none => []
  | some b =>
    (sortBy (fun x y => rankLe (s.rank x) (s.rank y)) (s.bundles.filter fun c => s.portOf c = s.portOf b && c.notBefore ≤ s.time)).map Bundle.id

/-- A bundle is not ready. -/
def State.stallsAt (s : State) (id : Nat) : Bool := s.bundles.any fun b => b.id = id && b.stalled

/-- The first bundle of a list that is ready issues its next instruction. -/
def issueFirst (run : Instr → State → Out) (s : State) : List Nat → Out
  | [] => .next s
  | id :: r =>
    match s.bundleReady id with
    | .done s1 => .next s1
    | .run i s1 =>
      match run i s1 with
      | .next s2 => if s2.stallsAt id then issueFirst run s2 r else .next s2
      | o => o

/-- The port that holds a bundle issues one instruction. -/
def State.portTurn (s : State) (run : Instr → State → Out) (id : Nat) : Out := issueFirst run s (s.portOrder id)

/-- A thread's wait looked at again: a CUEWAIT whose counter may have risen (R328), a group whose switch of roles may be due (R110). -/
def State.wakeTurn (s : State) (team tid : Nat) : State :=
  match s.team? team, s.thread? team tid with
  | some t, some h =>
    if t.removed then s
    else
      match h.wait with
      | .cueWait addr target => s.wakeCueWait t h addr target
      | .role n => s.switchRole team (t.groupOf tid) n
      | _ => s
  | _, _ => s

/-- A turn that executes no instruction of the table. -/
def State.smallTurn (s : State) (t : Turn) : State :=
  match t with
  | .drain team group => s.drainGroup team group
  | .element core slot => s.copyTurn core slot
  | .row cluster => s.rowTurn cluster
  | .wake team tid => s.wakeTurn team tid
  | .evict c => s.evict c
  | .own who line cells => s.ownerStore who line cells
  | .share who line => s.shareTurn who line
  | .portRead port queue va => s.portRead port queue va
  | .remote dev line cells => s.remoteTurn dev line cells
  | .sense island => if island < 128 then s.sense island 0 none none else s
  | .warmReset => s.warm
  | .loadAsid n asid => s.loadAsid n asid
  | .controlRead n va => s.controlRead n va
  | _ => s

end Sys2Proof.Machine
end

