-- ==== Sys2Proof/Machine/Step.lean ====
section
/-! DEFINITION. One step of the part, and a state whose next instruction is a given word. -/

namespace Sys2Proof.Machine

open Sys2Proof

/-- Runs what a turn has made ready. -/
def runReady : Ready → Host.Outcome State Fault Refusal
  | .run i s => exec i s
  | .done s => .next s

/-- One step: the next agent moves. -/
def step (s : State) : Host.Outcome State Fault Refusal :=
  match s.nextTurn with
  | (.bundle id, s1) => s1.portTurn exec id
  | (.event i, s1) => if i.kind = .event then exec i { s1 with cur := .none } else .next s1
  | (.prompter cluster ctx, s1) => runReady (s1.prompterReady cluster ctx)
  | (.walker cluster, s1) => runReady (s1.walkerReady cluster)
  | (t, s1) => .next (s1.smallTurn t)

/-- The state with the instruction of a word placed where the next step fetches (R26, R258, R291): a walker word of at most 32 bits,
a core word, or where it is no core word a stream word. -/
def State.withFetchWord (s : State) (nbits w : Nat) : State :=
  if nbits ≤ 32 then s.withWalkerWord w
  else
    match decodeCore (BitVec.ofNat 64 w), decodeStream (BitVec.ofNat 64 w) with
    | .error _, .ok _ => s.withStreamWord w
    | _, _ => s.withCoreWord w

end Sys2Proof.Machine
end

