-- ==== Sys2Proof/Safety.lean ====
section
/-! DEFINITION. The terms in which claims are made: a safe state, when a bundle, a lane, a Prompter context or a walker may issue, and
what the end of an issue does to the PC records of its threads. -/

namespace Sys2Proof

open Sys2Proof.Machine

/-- An outcome that is a next state. -/
def goesOn (o : Host.Outcome State Fault Refusal) : Prop := ∃ s, o = .next s

/-- A safe state: its step goes on, and its memory is canonical. -/
def Safe (s : State) : Prop := goesOn (step s) ∧ Memory.wf s.mem = true

/-! ## A bundle that may issue -/

/-- Bundle `b` of team `t` issues an instruction of form `f`, and nothing stops it or makes it wait: steps 5 to 9 of R46 pass on every
thread (R46), operands are full and the token is below 63 (R33, R34), its register lines are resident (R113), no KLD has a k register
of it to deliver (R49). No thread is single-stepped (R230) and no ROLE is pending (R176). -/
structure Clear (s : State) (b : Bundle) (t : Team) (f : Form) : Prop where
  issues : s.issuer = some (b, t)
  /-- Step 5: the privilege. -/
  privilege : f.priv = true → ∀ h ∈ t.pick b.tids, h.priv = true
  /-- Step 6: the operands. -/
  formed : f.misformed = false
  quad : ∀ h ∈ t.pick b.tids, f.quadBad (t.allot h.tid) = false
  /-- Step 7: the allotment. -/
  allot : ∀ h ∈ t.pick b.tids, ∀ r ∈ f.regs, r < t.allot h.tid
  resident : ∀ h ∈ t.pick b.tids, ∀ l ∈ f.lines, l ∉ h.absent
  kFree : ∀ k ∈ f.ks, k ∉ t.kWait
  /-- Step 9 and the scoreboard. -/
  full : ∀ h ∈ t.pick b.tids, h.guard f.g f.gn = true → ∀ p ∈ f.srcs ++ f.dsts, ∀ r ∈ p.regs, r ∉ h.empty
  token : ∀ n, f.tok = some n → ∀ h ∈ t.pick b.tids, h.guard f.g f.gn = true → h.token n < 63
  unstepped : ∀ h ∈ t.pick b.tids, h.singleStep = false
  noRole : ∀ x ∈ b.tids, (t.group (t.groupOf x)).next = none

/-- Thread `h`, whose issue at cycle `now` is noted for the register cache (R113), as it stands when its instruction has ended. At the end of
a clause it joins a PC set, whose wait it shares, or a callee queue (R102, R105, R108). -/
structure Kept (closes : Bool) (now : Nat) (h k : Thread) : Prop where
  rest : k = { h with issuedAt := now, used := k.used, since := k.since, wait := k.wait }
  wait : k.wait = h.wait ∨ (closes = true ∧ k.wait = .callee)
  since : closes = false → k.since = h.since

/-- Bundle `b` ends its clause with the instruction at which it stands. -/
def ends (b : Bundle) (t : Team) : Bool := decide (b.count ≤ b.idx t + 1)

/-- State `m` with the threads of bundle `b` of a team advanced past their instruction, the bundle ended with its clause, and nothing
else changed (R24, R26, R101). `fell` is the record that NG reads (R28); callee queues change at the end of a clause only. -/
structure Advances (b : Bundle) (t : Team) (m s' : State) : Prop where
  rest : s' = { m with teams := s'.teams, bundles := s'.bundles, callees := s'.callees, nextId := s'.nextId }
  within : ends b t = false → s'.callees = m.callees ∧ s'.nextId = m.nextId
  others : ∀ id, id ≠ t.id → s'.team? id = m.team? id
  threads : ∀ u, m.team? t.id = some u → ∃ u', s'.team? t.id = some u'
    ∧ u' = { u with threads := u'.threads, fell := u'.fell }
    ∧ (∀ x, b.tids.contains x = false → u'.thread? x = u.thread? x)
    ∧ ∀ x h, b.tids.contains x = true → u.thread? x = some h → ∃ k, u'.thread? x = some k ∧ Kept (ends b t) m.time (h.advance b.count) k
  bundles : ∀ c, c.id ≠ b.id → c ∈ s'.bundles → c ∈ m.bundles
  ended : ends b t = true → ∀ c ∈ s'.bundles, c.id ≠ b.id

/-- Instruction `i` completes on bundle `b`: its own effect takes `s` to `m`, and the bundle advances. -/
def Completes (i : Instr) (s : State) (b : Bundle) (t : Team) (m : State) : Prop := ∃ s', exec i s = .next s' ∧ Advances b t m s'

/-- A lane instruction: wherever the bundle may issue form `f`, each active lane's thread becomes what `g` makes of it, and nothing
else changes but the advance of the bundle. -/
def Lanewise (i : Instr) (f : Form) (g : Team → Thread → Thread) : Prop :=
  ∀ s b t, Clear s b t f → Completes i s b t (s.updThreads t.id (t.active f b.tids) (g t))

/-- Lane `x` is the one active lane of a bundle that may issue form `f`; `s1`, `t1` and `h1` are the state, the team and the thread
once its destinations are empty and its token is raised (R33, R34). -/
structure Lane (s : State) (b : Bundle) (t : Team) (f : Form) (x : Nat) (s1 : State) (t1 : Team) (h1 : Thread) : Prop where
  clear : Clear s b t f
  only : t.active f b.tids = [x]
  start : s1 = s.updThreads t.id [x] f.atIssue
  team : s1.team? t.id = some t1
  thread : t1.thread? x = some h1

/-- The lanes of a list act in turn, each on what the lanes before it have left (R84): `act x m u h n` says that lane `x` takes `m` to `n`, where
`u` and `h` are its team and its thread as they then stand. -/
def InTurn (team : Nat) (act : Nat → State → Team → Thread → State → Prop) : List Nat → State → State → Prop
  | [], m, m' => m' = m
  | x :: l, m, m' => ∃ u h n, m.team? team = some u ∧ u.thread? x = some h ∧ act x m u h n ∧ InTurn team act l n m'

/-- An instruction that acts lane by lane: wherever the bundle may issue form `f`, and each active lane in turn does what `act` says from the
state at issue on (R33, R34), the instruction completes with what the last lane leaves. -/
def LaneByLane (i : Instr) (f : Form) (act : State → Team → Nat → State → Team → Thread → State → Prop) : Prop :=
  ∀ s b t m, Clear s b t f →
    InTurn t.id (act s t) (t.active f b.tids) (s.updThreads t.id (t.active f b.tids) f.atIssue) m → Completes i s b t m

/-- The threads of a list, one after another, have the PC addresses listed beside them for their targets; `aim x m a n` says that the target
of thread `x` is `a`, and that finding it takes `m` to `n`. -/
def Aimed (aim : Nat → State → W64 → State → Prop) : List Nat → State → List (Nat × W64) → State → Prop
  | [], m, [], m' => m' = m
  | x :: l, m, y :: r, m' => y.1 = x ∧ ∃ n, aim x m y.2 n ∧ Aimed aim l n r m'
  | _, _, _, _ => False

/-- Lane `x` is the only thread of such a bundle. -/
structure Solo (s : State) (b : Bundle) (t : Team) (f : Form) (x : Nat) (h : Thread) : Prop where
  clear : Clear s b t f
  alone : b.tids = [x]
  thread : t.thread? x = some h
  active : h.guard f.g f.gn = true

/-- Lane `x` is the only thread of such a bundle, with the state, the team and the thread at issue. -/
structure Alone (s : State) (b : Bundle) (t : Team) (f : Form) (x : Nat) (s1 : State) (t1 : Team) (h1 : Thread) : Prop where
  lane : Lane s b t f x s1 t1 h1
  alone : b.tids = [x]

/-- The active lanes `l` of the bundle belong to one group, and no other bundle carries threads of its PC set (R138); `s1` and `t1` are
the state and the team at issue. -/
structure OneGroup (s : State) (b : Bundle) (t : Team) (f : Form) (l : List Nat) (s1 : State) (t1 : Team) : Prop where
  clear : Clear s b t f
  paired : s.paired t b (b.idx t) = some [b]
  active : t.active f b.tids = l
  units : t.groupUnits b.tids l = [{ acts := l, all := l }]
  start : s1 = s.updThreads t.id l f.atIssue
  team : s1.team? t.id = some t1

/-- An access of `n` bytes at `va` passes steps 10.2 and 10.3 of R184, and lies in one line. -/
def Placed (va : W64) (n : Nat) (k : Ask) : Prop := canonical va = true ∧ va.toNat % k.align = 0 ∧ va.toNat % 128 + n ≤ 128

/-- It passes step 10.4 and the permissions of 10.5 as well: it is translated to `x`, with the state `m`. -/
def PagePasses (t : Team) (s : State) (h : Thread) (va : W64) (n : Nat) (k : Ask) (x : Xlat) (m : State) : Prop :=
  Placed va n k ∧ checkPage s (t.coreOf h.tid) t.asid h.priv va n k.use = (.ok x, m) ∧ (k.noHost = true → spaceOf m.ctl x.pa ≠ .host)

/-- The access of `n` bytes at `va` by thread `h` of team `t` fails the checks of R184 that `k` asks for, with the code of the first check
that it fails; those from 10.4 on are said of an access in one line. -/
inductive Refused (t : Team) (s : State) (h : Thread) (va : W64) (n : Nat) (k : Ask) : Nat → Prop
  /-- 10.2. -/
  | address : canonical va = false → Refused t s h va n k trapAccess
  /-- 10.3. -/
  | align : canonical va = true → va.toNat % k.align ≠ 0 → Refused t s h va n k trapAlign
  /-- 10.4: no translation, for the reason that the walk gives. -/
  | absent (e : Stop) (m : State) : Placed va n k → translate s (t.coreOf h.tid) t.asid va = (.error e, m) → Refused t s h va n k e.code
  /-- 10.5: the page is not permitted, and a walk anew does not permit it either (R209). -/
  | permission (x y : Xlat) (m : State) : Placed va n k → translate s (t.coreOf h.tid) t.asid va = (.ok x, m) →
      mayAccess m (t.coreOf h.tid) h.priv x n k.use = false →
      (let c := unitClass (t.coreOf h.tid)
       let v := bitsOf va.toNat 0 57
       let m1 := s.pushLines ((walkPath s c t.asid.toNat v).map lineOf)
       walk m1 c t.asid.toNat v = .ok y ∧ mayAccess m1 (t.coreOf h.tid) h.priv y n k.use = false) → Refused t s h va n k trapAccess
  /-- 10.5: host memory, for an access that needs a tag (R349). -/
  | host (x : Xlat) (m : State) : Placed va n k → checkPage s (t.coreOf h.tid) t.asid h.priv va n k.use = (.ok x, m) → k.noHost = true →
      spaceOf m.ctl x.pa = .host → Refused t s h va n k trapAccess
  /-- The page carries no AC bit for the atomic (R209). -/
  | atomic (x : Xlat) (m : State) (b : Nat) : PagePasses t s h va n k x m → parksOn k.use x.attr = false → k.ac = some b →
      spaceOf m.ctl x.pa ≠ .device → bitOf x.attr b = false → Refused t s h va n k trapAtomicUnsupported
  /-- 10.6. -/
  | window (x : Xlat) (m : State) : PagePasses t s h va n k x m → parksOn k.use x.attr = false →
      (∀ b, k.ac = some b → spaceOf m.ctl x.pa = .device ∨ bitOf x.attr b = true) → k.ncStop = true →
      nonCoherent m (t.coreOf h.tid) t.asid va x.pa = true → Refused t s h va n k trapNcWindow
  /-- 10.7, which a RECLAIM asks the other way round (R364). -/
  | lost (x : Xlat) (m : State) : PagePasses t s h va n k x m → parksOn k.use x.attr = false →
      (∀ b, k.ac = some b → spaceOf m.ctl x.pa = .device ∨ bitOf x.attr b = true) →
      (k.ncStop = true → nonCoherent m (t.coreOf h.tid) t.asid va x.pa = false) → isLost m x.pa = !k.reclaim →
      Refused t s h va n k (if k.reclaim then trapIllegalOperand else trapLostLine)

/-- The bundles `bs` complete a collective of form `f` together with bundle `b`, which issues it (R138): they carry the threads of its PC set
in the groups that it brings together, all of which stand at it, or are the one bundle of a word that runs on no lane (R6); steps 5 to 9
of R46 pass on their threads; no thread is single-stepped and no ROLE is pending. -/
structure Together (s : State) (b : Bundle) (bs : List Bundle) (t : Team) (f : Form) : Prop where
  issues : s.issuer = some (b, t)
  paired : (if f.idle = true then some [b] else s.paired t b (b.idx t)) = some bs
  passes : gate f t (bs.map Bundle.tids).flatten = .pass
  unstepped : ∀ h ∈ t.pick (bs.map Bundle.tids).flatten, h.singleStep = false
  noRole : ∀ x ∈ (bs.map Bundle.tids).flatten, (t.group (t.groupOf x)).next = none

/-- Every group of the bundle converges on a group operation: all its threads that have not exited stand here, in this bundle, with one
guard value (R43). -/
def Converged (s : State) (b : Bundle) (t : Team) (l : List Nat) : Prop :=
  let gs := s.boundGroups t b
  let set := s.members t b gs
  let here := set.filter (s.comes t set (b.idx t))
  s.issuing t b here = [b] ∧ ∀ g ∈ gs, t.convergence set here l g = .yes

/-- An instruction whose elements are rounded under `rm`: `act` is what it does with the draws of its lanes, `n` for each (R67, R68). -/
def Rounded (i : Instr) (f0 : Form) (rm n : Nat) (act : Team → List (Nat × List Nat) → State → State) : Prop :=
  ∀ s b t,
    (rm ≠ 5 → rm ≠ 6 → Clear s b t f0 →
      Completes i s b t (act t ((t.active f0 b.tids).map fun x => (x, [])) s))
    ∧ (rm = 6 → Clear s b t { f0 with ks := [56, 57, 58, 59, 60] } →
      Completes i s b t ((act t ((t.active f0 b.tids).map fun x => (x, ((t.thread? x).map fun h => t.keyedDraws h n).getD [])) s).updThreads
        t.id (t.active f0 b.tids) fun h => { h with srkc := h.srkc + BitVec.ofNat 64 n }))
    ∧ (rm = 5 → Clear s b t f0 → (t.active f0 b.tids).all (s.drawsReady t.id n) = true →
      Completes i s b t (act t ((t.active f0 b.tids).map fun x => (x, s.drawsOf t.id n x)) (s.dropDraws t.id n (t.active f0 b.tids))))
    ∧ (rm = 5 → Clear s b t f0 → (t.active f0 b.tids).all (s.drawsReady t.id n) = false →
      exec i s = .next ((s.askDraws t (t.active f0 b.tids) n).stall b))

/-- Instruction `i` stops thread `x` of team `t` with a trap code: a record of kind 0 with the thread's PC record waits for its place in
the ring, and the thread is parked (R219). -/
def StopsWith (i : Instr) (s : State) (t : Team) (x : Nat) (h : Thread) (code : Nat) : Prop :=
  ∃ s' r h', exec i s = .next s' ∧ r ∈ s'.traps.records ∧ r.team = t.id ∧ r.tid = x ∧ r.code = code ∧ r.kind = 0 ∧ r.pc = h.pc
    ∧ r.idx = h.idx ∧ r.written = false ∧ s'.thread? t.id x = some h' ∧ h'.wait = .stopped r.sub

/-- Thread `x`, the only one of bundle `b`, leaves it at its instruction and waits: its PC record stays, and nothing else of `m` changes
(R160, R162, R164, R185). Its issue is noted for the register cache (R113). -/
structure Leaves (b : Bundle) (t : Team) (x : Nat) (w : Wait) (m s' : State) : Prop where
  rest : s' = { m with teams := s'.teams, bundles := s'.bundles }
  thread : ∀ h, m.thread? t.id x = some h → ∃ k, s'.thread? t.id x = some k
    ∧ k = { h with wait := w, issuedAt := m.time, used := k.used }
  others : ∀ id y, id ≠ t.id ∨ y ≠ x → s'.thread? id y = m.thread? id y
  bundles : ∀ c ∈ s'.bundles, c.id ≠ b.id ∧ c ∈ m.bundles

/-- The lone thread `x` of bundle `b` stands at a new PC record, and `act` is what else happens to it; `slot` is the slot that its group
records. Nothing else of `m` changes (R156, R157, R159). -/
structure Moved (b : Bundle) (t : Team) (x : Nat) (slot : Option Nat) (act : Thread → Thread) (pc : W64) (idx : Nat) (m s' : State) :
    Prop where
  rest : s' = { m with teams := s'.teams, bundles := s'.bundles, callees := s'.callees, nextId := s'.nextId }
  within : ends b t = false → s'.callees = m.callees ∧ s'.nextId = m.nextId
  others : ∀ id, id ≠ t.id → s'.team? id = m.team? id
  threads : ∀ u, m.team? t.id = some u → ∃ u', s'.team? t.id = some u'
    ∧ u' = { (match slot with
              | some n => u.recordSlot n [x]
              | none => u) with threads := u'.threads }
    ∧ (∀ y, y ≠ x → u'.thread? y = u.thread? y)
    ∧ ∀ h, u.thread? x = some h → ∃ k, u'.thread? x = some k ∧ Kept (ends b t) m.time ((act h).goto pc idx) k
  bundles : ∀ c, c.id ≠ b.id → c ∈ s'.bundles → c ∈ m.bundles
  ended : ends b t = true → ∀ c ∈ s'.bundles, c.id ≠ b.id

/-- The instruction sends the lone thread of bundle `b` to a PC record. -/
def Transfers (i : Instr) (s : State) (b : Bundle) (t : Team) (x : Nat) (slot : Option Nat) (act : Thread → Thread) (pc : W64) (idx : Nat)
    (m : State) : Prop := ∃ s', exec i s = .next s' ∧ Moved b t x slot act pc idx m s'

/-! ## A word of a stream and an instruction of a walker that may issue -/

/-- A running Prompter context is about to execute its word (R260), with no pass of its context waiting for a phase. -/
structure Prompts (s : State) (p : Prompter) (t : Team) : Prop where
  cur : s.cur = .prompter p.cluster p.ctx
  ctx : (s.mx.ctxs.find? fun q => q.cluster = p.cluster && q.ctx = p.ctx) = some p
  team : s.team? p.team = some t
  settled : s.consumePasses p.cluster p.ctx = s

/-- A word of a stream whose own effect takes `s` to `m`: the context goes on behind it (R260). -/
def Prompted (i : Instr) (s : State) (p : Prompter) (m : State) : Prop :=
  exec i s = .next (m.updContext p.cluster p.ctx Prompter.advance)

/-- The phase of barrier `wb` that a word consumes before it executes (R165, R260): none under 15 or when it has been consumed, else one
that has completed; `q` and `m` are the context and the state from there on. -/
def Phased (s : State) (p : Prompter) (t : Team) (wb : Nat) (q : Prompter) (m : State) : Prop :=
  ((wb = 15 ∨ p.wbDone = true) ∧ q = p ∧ m = s)
  ∨ (wb ≠ 15 ∧ p.wbDone = false ∧ (look 0 p.consumed wb).toNat < (t.barrier wb).phase.toNat
      ∧ q = { p with consumed := keep 0 p.consumed wb (look 0 p.consumed wb + 1), wbDone := true }
      ∧ m = s.updContext p.cluster p.ctx fun _ => q)

/-- A walker context holds the issue slot and executes its next instruction (R287). -/
structure Walks (s : State) (c : Walker) : Prop where
  cur : s.cur = .walker c.cluster c.ctx
  ctx : s.walker? c.cluster c.ctx = some c

/-- One more instruction of a walker has issued (R287). -/
def tally (s : State) (cluster : Nat) : State :=
  { s with walk := { s.walk with issued := keep 0 s.walk.issued cluster (look 0 s.walk.issued cluster + 1) } }

/-- An instruction of a walker whose own effect leaves the context `d` and the state `m`: the context goes on behind it, unless a kill
has reached its job (R307). -/
def Walked (i : Instr) (s : State) (c d : Walker) (m : State) : Prop :=
  exec i s = .next ((tally (m.setWalker { d with pc := c.pc + 1, mid := false }) c.cluster).boundary c)

end Sys2Proof
end

