-- ==== Sys2Proof/Certificates/Slice0/Obligations.lean ====
section
/-! DEFINITION. The statements for the provers: what each instruction and each step of the part does, as the rules of the spec give it,
what it leaves unchanged, and what holds of every step. -/

section

open Sys2Proof Sys2Proof.Machine

/-! ## Lane instructions: integers (07 R126-R137) -/

/-- Integer arithmetic of format R (R126-R128, R131): in every active lane d takes the result of the operation on the operands after
their modifiers, the flags of the result are added to FPFLAGS, and nothing else changes. R127's rule, element by element: a modified operand
is the absolute value of the bits read in two's complement, then its negation, modulo 2^w; with sat the exact result is clamped to the range of the type and SA says that the
clamp changed it, without sat it wraps modulo 2^w and sets no flag. IADDC adds or subtracts with the carry of pC, which takes the carry or
the borrow out, so that it chains over words; c[6:3] and md[7:1] are zero, and p7 reads true and discards what is written to it. -/
def Obligations.IntegerArithmeticCompletes : Prop :=
  (∀ w : RWord,
  (let ty := w.ty.toNat
   let v (op : Int → Int → Int → Int) (h : Thread) : Nat × Flag :=
     intResult ty (modsOf w) op (h.tyVal ty w.a.toNat) (h.tyVal ty w.b.toNat) (h.tyVal ty w.c.toNat)
   let put (op : Int → Int → Int → Int) (_ : Team) (h : Thread) : Thread := (h.setTy ty w.d.toNat (v op h).1).addFlags (v op h).2
   Lanewise (.iadd w) (form2 w (regsOf w)) (put fun a b _ => a + b)
   ∧ Lanewise (.isub w) (form2 w (regsOf w)) (put fun a b _ => a - b)
   ∧ Lanewise (.imul w) (form2 w (regsOf w)) (put fun a b _ => a * b)
   ∧ Lanewise (.imulh w) (form2 w (regsOf w)) (put fun a b _ => a * b / (2 ^ tyWidth ty : Int))
   ∧ Lanewise (.imad w) (form3 w (regsOf w)) (put fun a b c => a * b + c)
   ∧ Lanewise (.imin w) (form2 w (regsOf w)) (put fun a b _ => min a b)
   ∧ Lanewise (.imax w) (form2 w (regsOf w)) (put fun a b _ => max a b))
  ∧ Lanewise (.iabs w) (form1 w (regsOf w)) (fun _ h =>
      let ty := w.ty.toNat
      let r := intResult ty (modsOf w) (fun a _ _ => (a.natAbs : Int)) (h.tyVal ty w.a.toNat) (h.tyVal ty 0) (h.tyVal ty 0)
      (h.setTy ty w.d.toNat r.1).addFlags r.2)
  ∧ Lanewise (.mov w) (form1 w (regsOf w)) (fun _ h =>
      let v := h.tyVal w.ty.toNat w.a.toNat
      h.setTy w.ty.toNat w.d.toNat (if w.ty.toNat = 10 ∨ w.ty.toNat = 11 then v % 2 ^ 16 else v))
  ∧ Lanewise (.iaddc w) (form2 w (regsOf w)) (fun _ h =>
      let ty := w.ty.toNat
      let r := addCarry (tyWidth ty) (bitOf w.md.toNat 0) (h.tyVal ty w.a.toNat) (h.tyVal ty w.b.toNat) (h.pred w.c.toNat)
      (h.setTy ty w.d.toNat r.1).setPred w.c.toNat r.2)
  ∧ Lanewise (.imadw w) (w.form [w.srcA 1, w.srcB 1, w.srcC 2] [w.dst 2]) (fun _ h =>
      let r := wideMad (intTy w.ty.toNat) w.sat (h.tyVal 0 w.a.toNat) (h.tyVal 0 w.b.toNat) (h.tyVal 2 w.c.toNat)
      (h.setTy 2 w.d.toNat r.1).addFlags r.2)
  ∧ Lanewise (.idot4 w) (form3 w 1) (fun _ h =>
      let r := dot4 (bitOf w.md.toNat 0) (bitOf w.md.toNat 1) w.sat (h.reg w.a.toNat).toNat (h.reg w.b.toNat).toNat (h.reg w.c.toNat).toNat
      (h.setTy 0 w.d.toNat r.1).addFlags r.2)
  ∧ Lanewise (.lea w) (w.form [w.srcA 2, w.srcB (regsOf w)] [w.dst 2]) (fun _ h =>
      let b := BitVec.ofInt 64 ((intTy w.ty.toNat).of (h.tyVal w.ty.toNat w.b.toNat))
      h.setPair w.d.toNat (h.pair w.a.toNat + (b <<< w.mode2))))
  ∧ (∀ (ty : Nat) (m : Mods) (op : Int → Int → Int → Int) (a b c : Nat), ty < 6 →
      let it := intTy ty
      let n := tyWidth ty
      let e (i : Nat) : Nat × Flag :=
        it.finish m.sat (op (modInt it m.na m.aa (elem a n i)) (modInt it m.nb m.ab (elem b n i)) (it.of (elem c n i)))
      (∀ i < tyCount ty, elem (intResult ty m op a b c).1 n i = (e i).1)
      ∧ (intResult ty m op a b c).2 = if (List.range (tyCount ty)).any fun i => (e i).2 = flagSA then flagSA else 0)
  ∧ (∀ (it : IntTy) (v : Nat) (neg abs : Bool), 0 < it.w →
      let y : Int := if abs then ((({ it with signed := true } : IntTy).of v).natAbs : Int) else it.of v
      let x := modInt it neg abs v
      it.lo ≤ x ∧ x ≤ it.hi ∧ (x - if neg then -y else y) % (2 ^ it.w : Int) = 0)
  ∧ (∀ (it : IntTy) (r : Int), 0 < it.w →
      (it.lo ≤ r → r ≤ it.hi → ∀ sat, (it.finish sat r).2 = 0 ∧ it.of (it.finish sat r).1 = r)
      ∧ ((it.finish false r).2 = 0 ∧ ((it.finish false r).1 : Int) = r % (2 ^ it.w : Int))
      ∧ (r < it.lo → (it.finish true r).2 = flagSA ∧ it.of (it.finish true r).1 = it.lo)
      ∧ (it.hi < r → (it.finish true r).2 = flagSA ∧ it.of (it.finish true r).1 = it.hi))
  ∧ (∀ (n a b : Nat) (p : Bool), 0 < n → a < 2 ^ n → b < 2 ^ n →
      let c := if p then 1 else 0
      addCarry n false a b p = ((a + b + c) % 2 ^ n, decide (2 ^ n ≤ a + b + c))
      ∧ (((addCarry n true a b p).1 : Nat) : Int) = ((a : Int) - b - c) % (2 ^ n : Int) ∧ (addCarry n true a b p).2 = decide (a < b + c))
  ∧ (∀ (n a0 a1 b0 b1 : Nat), 0 < n → a0 < 2 ^ n → a1 < 2 ^ n → b0 < 2 ^ n → b1 < 2 ^ n →
      let lo := addCarry n false a0 b0 false
      let hi := addCarry n false a1 b1 lo.2
      let dlo := addCarry n true a0 b0 false
      let dhi := addCarry n true a1 b1 dlo.2
      lo.1 + 2 ^ n * hi.1 + 2 ^ (2 * n) * (if hi.2 then 1 else 0) = (a0 + 2 ^ n * a1) + (b0 + 2 ^ n * b1)
      ∧ ((dlo.1 + 2 ^ n * dhi.1 : Nat) : Int) = (a0 + 2 ^ n * a1 : Int) - (b0 + 2 ^ n * b1) + (if dhi.2 then (2 ^ (2 * n) : Int) else 0))
  ∧ (∀ w : RWord, (Instr.iaddc w).wellFormed = true → w.c.toNat < 8 ∧ w.md.toNat < 2)
  ∧ (∀ (h : Thread) (v : Bool), h.pred 7 = true ∧ h.setPred 7 v = h)

/-- Logic, shifts, bit fields and counts of format R (R132-R135): d takes the bits, FPFLAGS and everything else stay. -/
def Obligations.LogicAndShiftsComplete : Prop := ∀ w : RWord,
  let ty := w.ty.toNat
  let n := tyWidth ty
  let bits (op : Nat → Nat → Nat) (_ : Team) (h : Thread) : Thread :=
    h.setTy ty w.d.toNat (op (h.tyVal ty w.a.toNat) (h.tyVal ty w.b.toNat) % 2 ^ n)
  let shift (op : Nat → Nat → Nat) (_ : Team) (h : Thread) : Thread :=
    h.setTy ty w.d.toNat (op (h.tyVal ty w.a.toNat) (h.reg w.b.toNat).toNat)
  let count (op : Nat → Nat → Nat) (_ : Team) (h : Thread) : Thread :=
    h.setReg w.d.toNat (BitVec.ofNat 32 (op n (h.tyVal ty w.a.toNat)))
  Lanewise (.and w) (form2 w (regsOf w)) (bits (· &&& ·))
  ∧ Lanewise (.or w) (form2 w (regsOf w)) (bits (· ||| ·))
  ∧ Lanewise (.xor w) (form2 w (regsOf w)) (bits (· ^^^ ·))
  ∧ Lanewise (.andn w) (form2 w (regsOf w)) (bits fun a b => a &&& (b ^^^ (2 ^ n - 1)))
  ∧ Lanewise (.not w) (form1 w (regsOf w)) (bits fun a _ => a ^^^ (2 ^ n - 1))
  ∧ Lanewise (.brev w) (form1 w (regsOf w)) (bits fun a _ => reverseBits n a)
  ∧ Lanewise (.shl w) (shiftForm w) (shift (shiftLeft n))
  ∧ Lanewise (.shr w) (shiftForm w) (shift (shiftRight n))
  ∧ Lanewise (.sha w) (shiftForm w) (shift (shiftArith n))
  ∧ Lanewise (.rot w) (shiftForm w) (shift (rotate n))
  ∧ Lanewise (.bfe w) (shiftForm w) (shift (fieldExtract (intTy ty)))
  ∧ Lanewise (.bfi w) (w.form [w.srcA (regsOf w), w.srcB 1, w.srcC (regsOf w)] [w.dst (regsOf w)])
      (fun u h => shift (fun a b => fieldInsert n a b (h.tyVal ty w.c.toNat)) u h)
  ∧ Lanewise (.popc w) (countForm w) (count popCount)
  ∧ Lanewise (.clz w) (countForm w) (count leadingZeros)
  ∧ Lanewise (.ctz w) (countForm w) (count trailingZeros)
  ∧ Lanewise (.bytep w) (form3 w 1) (fun _ h =>
      h.setReg w.d.toNat (BitVec.ofNat 32 (permuteBytes (h.reg w.a.toNat).toNat (h.reg w.b.toNat).toNat (h.reg w.c.toNat).toNat)))

/-- Comparison, selection and predicate logic (R130, R135): a predicate or d takes the truth values, and no flag changes. -/
def Obligations.IntegerComparisonsComplete : Prop := ∀ w : RWord,
  let ty := w.ty.toNat
  let val (h : Thread) (r : BitVec 7) : Int := (intTy ty).of (h.tyVal ty r.toNat)
  Lanewise (.icmp w) (w.form [w.srcA (regsOf w), w.srcB (regsOf w)] (if w.pd then [] else [w.dst (regsOf w)])) (fun _ h =>
      if w.pd then h.setPred w.d.toNat (intCmp w.mode2 (val h w.a) (val h w.b))
      else h.setTy ty w.d.toNat
        (perElem ty (fun x y _ => (if intCmp w.mode2 ((intTy ty).of x) ((intTy ty).of y) then 2 ^ tyWidth ty - 1 else 0, 0))
          (h.tyVal ty w.a.toNat) (h.tyVal ty w.b.toNat) 0).1)
  ∧ Lanewise (.isel w) (form2 w (regsOf w)) (fun _ h =>
      h.setTy ty w.d.toNat (if h.pred w.c.toNat then h.tyVal ty w.a.toNat else h.tyVal ty w.b.toNat))
  ∧ Lanewise (.plop w) (w.form [] []) (fun _ h =>
      let a := h.pred w.a.toNat != w.na
      let b := h.pred w.b.toNat != w.nb
      h.setPred w.d.toNat (match w.mode2 with
        | 0 => a && b
        | 1 => a || b
        | 2 => a != b
        | _ => a))

/-- The immediate forms (R38, R136, R137): imm32 stands for register b, and d for register c. -/
def Obligations.ImmediateFormsComplete : Prop := ∀ w : IWord,
  let ty := if bitOf w.md.toNat 1 then 1 else 0
  let put (op : Int → Int → Int → Int) (_ : Team) (h : Thread) : Thread :=
    let r := intResult ty { sat := bitOf w.md.toNat 0 } op (h.tyVal ty w.a.toNat) w.imm.toNat (h.tyVal ty w.d.toNat)
    (h.setTy ty w.d.toNat r.1).addFlags r.2
  let bits (op : Nat → Nat → Nat) (_ : Team) (h : Thread) : Thread :=
    h.setTy 0 w.d.toNat (op (h.tyVal 0 w.a.toNat) w.imm.toNat % 2 ^ 32)
  Lanewise (.iaddi w) (immForm w) (put fun a b _ => a + b)
  ∧ Lanewise (.isubi w) (immForm w) (put fun a b _ => a - b)
  ∧ Lanewise (.imuli w) (immForm w) (put fun a b _ => a * b)
  ∧ Lanewise (.imulhi w) (immForm w) (put fun a b _ => a * b / (2 ^ 32 : Int))
  ∧ Lanewise (.imadi w) (immForm3 w) (put fun a b c => a * b + c)
  ∧ Lanewise (.imini w) (immForm w) (put fun a b _ => min a b)
  ∧ Lanewise (.imaxi w) (immForm w) (put fun a b _ => max a b)
  ∧ Lanewise (.andi w) (immForm w) (bits (· &&& ·))
  ∧ Lanewise (.ori w) (immForm w) (bits (· ||| ·))
  ∧ Lanewise (.xori w) (immForm w) (bits (· ^^^ ·))
  ∧ Lanewise (.andni w) (immForm w) (bits fun a b => a &&& (b ^^^ (2 ^ 32 - 1)))
  ∧ Lanewise (.shli w) (immForm w) (bits (shiftLeft 32))
  ∧ Lanewise (.shri w) (immForm w) (bits (shiftRight 32))
  ∧ Lanewise (.shai w) (immForm w) (bits (shiftArith 32))
  ∧ Lanewise (.roti w) (immForm w) (bits (rotate 32))
  ∧ Lanewise (.bfei w) (immForm w) (bits (fieldExtract (intTy ty)))
  ∧ Lanewise (.bfii w) (immForm3 w) (fun u h => bits (fun a b => fieldInsert 32 a b (h.reg w.d.toNat).toNat) u h)
  ∧ Lanewise (.movi w) (w.form [] [w.dst (if bitOf w.md.toNat 0 then 2 else 1)]) (fun _ h =>
      if bitOf w.md.toNat 0 then h.setPair w.d.toNat (w.imm.signExtend 64) else h.setReg w.d.toNat w.imm)
  ∧ Lanewise (.iaddci w) (immForm w) (fun _ h =>
      let r := addCarry 32 false (h.tyVal 0 w.a.toNat) w.imm.toNat (h.pred w.md.toNat)
      (h.setTy 0 w.d.toNat r.1).setPred w.md.toNat r.2)
  ∧ Lanewise (.imadwi w) (w.form [w.srcA 1, { r := w.d.toNat, n := 2 }] [w.dst 2]) (fun _ h =>
      let r := wideMad (intTy ty) (bitOf w.md.toNat 0) (h.tyVal 0 w.a.toNat) w.imm.toNat (h.tyVal 2 w.d.toNat)
      (h.setTy 2 w.d.toNat r.1).addFlags r.2)
  ∧ Lanewise (.iabsi w) (immForm0 w) (fun _ h =>
      let r := (intTy 0).finish (bitOf w.md.toNat 0) (((intTy 0).of w.imm.toNat).natAbs : Int)
      (h.setTy 0 w.d.toNat r.1).addFlags r.2)
  ∧ Lanewise (.icmpi w) (w.form [w.srcA 1] []) (fun _ h =>
      h.setPred w.d.toNat (immCmp w.md.toNat (h.reg w.a.toNat).toNat w.imm.toNat))
  ∧ Lanewise (.iseli w) (immForm w) (fun _ h =>
      h.setReg w.d.toNat (if h.pred w.md.toNat then h.reg w.a.toNat else w.imm))
  ∧ Lanewise (.leai w) (w.form [w.srcA 2] [w.dst 2]) (fun _ h =>
      let b : W64 := if bitOf w.md.toNat 2 then w.imm.setWidth 64 else w.imm.signExtend 64
      h.setPair w.d.toNat (h.pair w.a.toNat + (b <<< bitsOf w.md.toNat 0 2)))
  ∧ Lanewise (.noti w) (immForm0 w) (fun _ h => h.setReg w.d.toNat (~~~w.imm))

/-- R137: MOVIH writes imm32 to the upper register of the even pair d and leaves every other register and all else as it was; an odd d stops
the lane with ILLEGAL_OPERAND; field a and md are reserved. Behind a MOVI.64 it completes a 64-bit constant. -/
def Obligations.MovihWritesTheUpperHalf : Prop := ∀ w : IWord,
  let f : Form := { w.form [] [{ r := w.d.toNat + 1, n := 1 }] with bad := bitOf w.d.toNat 0 }
  Lanewise (.movih w) f (fun _ h => h.setReg (w.d.toNat + 1) w.imm)
  ∧ (∀ (h : Thread) (d n : Nat) (v : W32), (h.setReg (d + 1) v).reg n = if n = d + 1 then v else h.reg n)
  ∧ (∀ s b t x h, s.issuer = some (b, t) → b.tids = [x] → t.pick [x] = [h] → h.tid = x → t.thread? x = some h →
      w.d.toNat % 2 = 1 → StopsWith (.movih w) s t x h trapIllegalOperand)
  ∧ ((Instr.movih w).wellFormed = true → w.a = 0 ∧ w.md = 0)
  ∧ (∀ h : Thread, ((h.setPair 4 ((0x80000000 : W32).signExtend 64)).setReg 5 1).pair 4 = 0x0000000180000000)

/-- R129: IDIV delivers the exact quotient truncated toward zero and IREM delivers a - b x quotient; by zero they deliver all ones and
a, with NV; the minimum over -1 is the minimum, or the maximum with SA under sat, and leaves 0. Both are long-latency producers: a lane leaves
d empty, with the result and its flags on their way (R33, R124), lane after lane (R84). -/
def Obligations.DivisionResults : Prop :=
  (let sends (op : Thread → Nat × Flag) (ty d : Nat) (_ : State) (t : Team) (x : Nat) (m : State) (_ : Team) (h : Thread) (m' : State) : Prop :=
     m' = { m.fresh with flight := { m.flight with
       results := m.flight.results ++ [{ id := m.nextId, team := t.id, tid := x, regs := tyOut ty d (op h).1, flags := (op h).2 }] } }
   (∀ w : RWord,
    let ty := w.ty.toNat
    let f : Form := { form2 w (regsOf w) with long := true }
    LaneByLane (.idiv w) f (sends (fun h => divide (intTy ty) w.sat (h.tyVal ty w.a.toNat) (h.tyVal ty w.b.toNat)) ty w.d.toNat)
    ∧ LaneByLane (.irem w) f (sends (fun h => remainder (intTy ty) (h.tyVal ty w.a.toNat) (h.tyVal ty w.b.toNat)) ty w.d.toNat))
   ∧ (∀ w : IWord,
    let it := intTy (if bitOf w.md.toNat 1 then 1 else 0)
    let f : Form := { immForm w with long := true }
    LaneByLane (.idivi w) f (sends (fun h => divide it (bitOf w.md.toNat 0) (h.tyVal 0 w.a.toNat) w.imm.toNat) 0 w.d.toNat)
    ∧ LaneByLane (.iremi w) f (sends (fun h => remainder it (h.tyVal 0 w.a.toNat) w.imm.toNat) 0 w.d.toNat)))
  ∧ (∀ (it : IntTy) (sat : Bool) (a b : Nat), 0 < it.w → a < 2 ^ it.w → b < 2 ^ it.w →
      let q := (it.of a).tdiv (it.of b)
      (b = 0 → divide it sat a b = (2 ^ it.w - 1, flagNV) ∧ remainder it a b = (a, flagNV))
      ∧ (b ≠ 0 → ¬(it.signed = true ∧ it.of a = it.lo ∧ it.of b = -1) →
          (divide it sat a b).2 = 0 ∧ it.of (divide it sat a b).1 = q
          ∧ (remainder it a b).2 = 0 ∧ it.of (remainder it a b).1 = it.of a - it.of b * q)
      ∧ (it.signed = true → it.of a = it.lo → it.of b = -1 →
          divide it false a b = (it.code it.lo, 0) ∧ (1 < it.w → divide it true a b = (it.code it.hi, flagSA)) ∧ remainder it a b = (0, 0)))

/-! ## Floating point, conversion and random values (04, 07 R143-R154) -/

/-- FADD, FSUB, FMUL, FFMA and FDOT2 (R143, R144): every element of d takes the exact result of its operands, rounded once under rm and
md's sat, and the flags are sticky. -/
def Obligations.FloatArithmeticCompletes : Prop := ∀ w : RWord,
  let ty := w.ty.toNat
  let f := fmtTy ty
  let rounded (op : Val → Val → Val → Val × Flag) : Team → List (Nat × List Nat) → State → State :=
    actShort fun draws h =>
      let r := perElemDraw ty draws (fun d a b c => roundWith f w.rm.toNat d w.sat (op (opA w f a) (opB w f b) (opC w f c)))
        (h.tyVal ty w.a.toNat) (h.tyVal ty w.b.toNat) (h.tyVal ty w.c.toNat)
      (h.setTy ty w.d.toNat r.1).addFlags r.2
  Rounded (.fadd w) (form2 w (regsOf w)) w.rm.toNat (tyCount ty) (rounded fun a b _ => vAdd w.rm.toNat a b)
  ∧ Rounded (.fsub w) (form2 w (regsOf w)) w.rm.toNat (tyCount ty)
      (rounded fun a b _ => (firstNan [a, b]).getD (addFin w.rm.toNat a b.negate))
  ∧ Rounded (.fmul w) (form2 w (regsOf w)) w.rm.toNat (tyCount ty) (rounded fun a b _ => vMul a b)
  ∧ Rounded (.ffma w) (form3 w (regsOf w)) w.rm.toNat (tyCount ty) (rounded fun a b c => vFma w.rm.toNat a b c)
  ∧ Rounded (.fdot2 w) (form3 w 1) w.rm.toNat 1 (actShort fun draws h =>
      let a := (h.reg w.a.toNat).toNat
      let b := (h.reg w.b.toNat).toNat
      let at_ (x : Nat) (neg : Bool) (i : Nat) : Val := f.decode (modFloat f neg false (elem x 16 i))
      let r := roundWith fmtF32 w.rm.toNat (draws.getD 0 0) w.sat
        (vDot2 w.rm.toNat (at_ a w.na 0) (at_ a w.na 1) (at_ b w.nb 0) (at_ b w.nb 1) (opC w fmtF32 (h.reg w.c.toNat).toNat))
      (h.setTy 6 w.d.toNat r.1).addFlags r.2)

/-- FMIN, FMAX, FCMP and FCLASS (R145-R147): no rounding, one of the operands, a truth value or a class bit. -/
def Obligations.FloatSelectionCompletes : Prop := ∀ w : RWord,
  let ty := w.ty.toNat
  let f := fmtTy ty
  let pick (lesser : Bool) (_ : Team) (h : Thread) : Thread :=
    let r := perElem ty (fun x y _ =>
      let a := modFloat f w.na w.aa x
      let b := modFloat f w.nb w.ab y
      match vMinMax lesser (f.decode a) (f.decode b) with
      | (some true, fl) => (a, fl)
      | (some false, fl) => (b, fl)
      | (none, fl) => (f.nanCode, fl)) (h.tyVal ty w.a.toNat) (h.tyVal ty w.b.toNat) 0
    (h.setTy ty w.d.toNat r.1).addFlags r.2
  Lanewise (.fmin w) (form2 w (regsOf w)) (pick true)
  ∧ Lanewise (.fmax w) (form2 w (regsOf w)) (pick false)
  ∧ Lanewise (.fcmp w) (w.form [w.srcA (regsOf w), w.srcB (regsOf w)] (if w.pd then [] else [w.dst (regsOf w)])) (fun _ h =>
      let a := h.tyVal ty w.a.toNat
      let b := h.tyVal ty w.b.toNat
      let cmp (x y : Nat) : Bool × Flag := floatCmp w.mode2 (opA w f x) (opB w f y)
      if w.pd then (h.setPred w.d.toNat (cmp a b).1).addFlags (cmp a b).2
      else
        let r := perElem ty (fun x y _ => (if (cmp x y).1 then 2 ^ tyWidth ty - 1 else 0, (cmp x y).2)) a b 0
        (h.setTy ty w.d.toNat r.1).addFlags r.2)
  ∧ Lanewise (.fclass w) (w.form [w.srcA (regsOf w)] [w.dst 1]) (fun _ h =>
      h.setReg w.d.toNat (BitVec.ofNat 32 (2 ^ classBit f (elem (h.tyVal ty w.a.toNat) (tyWidth ty) 0))))

/-- The long-latency floating-point instructions (R143, R148, R33): d is empty, and the rounded result is on its way with its flags. -/
def Obligations.FloatLongCompletes : Prop := ∀ w : RWord,
  let ty := w.ty.toNat
  let f := fmtTy ty
  let quot (op : Val → Val → Val → Val × Flag) (draws : List Nat) (h : Thread) : List (Nat × W32) × W32 :=
    let r := perElemDraw ty draws (fun d a b c => roundWith f w.rm.toNat d w.sat (op (opA w f a) (opB w f b) (opC w f c)))
      (h.tyVal ty w.a.toNat) (h.tyVal ty w.b.toNat) (h.tyVal ty w.c.toNat)
    (tyOut ty w.d.toNat r.1, r.2)
  let trans (op : Fmt → Nat → Bool → Val → Nat × Flag) (_ : List Nat) (h : Thread) : List (Nat × W32) × W32 :=
    let r := op f w.rm.toNat w.sat (opA w f (elem (h.tyVal ty w.a.toNat) (tyWidth ty) 0))
    (tyOut ty w.d.toNat r.1, r.2)
  Rounded (.fdiv w) (form2 w (regsOf w)) w.rm.toNat 1 (actLong (form2 w (regsOf w)) (quot fun a b _ => vDiv a b))
  ∧ Rounded (.fsqrt w) (form1 w (regsOf w)) w.rm.toNat 1 (actLong (form1 w (regsOf w)) (quot fun a _ _ => vSqrt a))
  ∧ Rounded (.frcp w) (form1 w (regsOf w)) w.rm.toNat 1 (actLong (form1 w (regsOf w)) (quot fun a _ _ => vRcp a))
  ∧ Rounded (.frsq w) (form1 w (regsOf w)) w.rm.toNat 1 (actLong (form1 w (regsOf w)) (quot fun a _ _ => vRsqrt a))
  ∧ Rounded (.fexp2 w) (form1 w (regsOf w)) w.rm.toNat 1 (actLong (form1 w (regsOf w)) (trans fExp2))
  ∧ Rounded (.flog2 w) (form1 w (regsOf w)) w.rm.toNat 1 (actLong (form1 w (regsOf w)) (trans fLog2))
  ∧ Rounded (.fsin w) (form1 w (regsOf w)) w.rm.toNat 1 (actLong (form1 w (regsOf w)) (trans fun f rm sat a => fTrig f rm sat false a))
  ∧ Rounded (.fcos w) (form1 w (regsOf w)) w.rm.toNat 1 (actLong (form1 w (regsOf w)) (trans fun f rm sat a => fTrig f rm sat true a))

/-- The conversions of R149, the codebook operation of R152, the keyed generator of R153, NOISE (R154) and CVTDQ (R151), which read the
core codebook as CBK does and so wait for its k registers (R49). CBK.enc sets NX where its entry differs from the value: an infinite one
that is no entry, and a tie, are encoded as R56 says, and two NaNs do not differ (log 80, log 24). A scale that is no FP10 scale stops CVTDQ with MATRIX_FORMAT. NOISE posts
its request for two draws and goes on; in a team that rehearses or replays it has them before it executes, which is the model's
choice in log 54. -/
def Obligations.ConversionsComplete : Prop := ∀ w : RWord,
  let n := convCount w
  let conv (f : Nat → Nat → Nat × Flag) : Team → List (Nat × List Nat) → State → State := actShort fun draws h =>
    let src := h.regsNat w.a.toNat (convRegs n (srcTy w))
    let rs := (List.range n).map fun i => f (draws.getD i 0) (bitsOf src (tySlot (srcTy w) * i) (tyWidth (srcTy w)))
    (h.setRegs w.d.toNat (pack (tySlot w.ty.toNat) (rs.map Prod.fst)) (convRegs n w.ty.toNat)).addFlags
      ((rs.map Prod.snd).foldl (· ||| ·) 0)
  Rounded (.cvtf w) (convForm w) w.rm.toNat n
    (conv fun d x => (fmtTy w.ty.toNat).round w.rm.toNat d w.sat ((fmtTy (srcTy w)).decode x))
  ∧ Rounded (.cvtfi w) (convForm w) w.rm.toNat n
      (conv fun d x => (intTy w.ty.toNat).ofVal w.rm.toNat d ((fmtTy (srcTy w)).decode x))
  ∧ Rounded (.cvtif w) (convForm w) w.rm.toNat n
      (conv fun d x => (fmtTy w.ty.toNat).round w.rm.toNat d w.sat (valOfInt ((intTy (srcTy w)).of x)))
  ∧ Lanewise (.cbk w) { form1 w 1 with ks := (List.range 8).map (48 + ·) } (fun t h =>
      let a := (h.reg w.a.toNat).toNat
      let f := fmtTy w.ty.toNat
      let e := t.coreBook.getD (a % 16) 0
      let r := if bitOf w.md.toNat 0 then coreEncode t.coreBook (f.decode (a % 2 ^ f.bits))
        else if w.ty = 6 then fmtF32.round 0 0 false (fmtBF16.decode e) else (e, 0)
      (h.setTy 1 w.d.toNat r.1).addFlags r.2)
  ∧ Lanewise (.rngk w) { w.form [w.srcA 1, w.srcB 2] [w.dst 1] with ks := [56, 57, 58, 59] } (fun t h =>
      h.setReg w.d.toNat (kcg t.key (h.reg w.a.toNat) (h.pair w.b.toNat)))
  ∧ (∀ s b t x s1 t1 h1, Lane s b t { w.form [] [w.dst 1] with long := true } x s1 t1 h1 → t.rehearsal = 0 →
      let q : DrawReq :=
        { id := 0, cluster := coreCluster (t.coreOf x), team := t.id, kind := 0, tid := x, who := .noise w.d.toNat,
          need := 2, got := [], slots := [], held := false }
      Completes (.noise w) s b t (s1.postDraw q))
  ∧ (∀ s b t, Clear s b t (w.form [] [w.dst 1]) → t.rehearsal ≠ 0 →
      let l := t.active (w.form [] [w.dst 1]) b.tids
      (l.all (s.drawsReady t.id 2) = true → Completes (.noise w) s b t (actLong (w.form [] [w.dst 1])
        (fun draws _ => ([(w.d.toNat, BitVec.ofNat 32 (draws.getD 0 0 + 65536 * draws.getD 1 0))], 0)) t
        (l.map fun x => (x, s.drawsOf t.id 2 x)) (s.dropDraws t.id 2 l)))
      ∧ (l.all (s.drawsReady t.id 2) = false → exec (.noise w) s = .next ((s.askDraws t l 2).stall b)))
  ∧ (∀ s b t x s1 t1 h1, Lane s b t { form1 w 1 with ks := if srcTy w = 11 then (List.range 8).map (48 + ·) else [] } x s1 t1 h1 →
      let a := (h1.reg w.a.toNat).toNat
      (∀ sc, sc10 (bitsOf a 16 10) = some sc →
        let v := scaleVal sc (codeDecode t.coreBook (srcTy w) (a % 2 ^ codeBits (srcTy w)))
        let r := roundWith (fmtTy w.ty.toNat) w.rm.toNat 0 false v
        Completes (.cvtdq w) s b t (s1.updThread t.id x fun y => (y.setTy 1 w.d.toNat r.1).addFlags r.2)))
  ∧ (∀ s b t x h, Solo s b t { form1 w 1 with ks := if srcTy w = 11 then (List.range 8).map (48 + ·) else [] } x h →
      sc10 (bitsOf (h.reg w.a.toNat).toNat 16 10) = none → StopsWith (.cvtdq w) s t x h trapMatrixFormat)

/-- R154: the lane's two draws, the first in the lower half, are delivered to d when the second has come; NOISE sets no flag. -/
def Obligations.NoiseDelivers : Prop := ∀ (s : State) (r : DrawReq) (t : Team) (h : Thread) (d0 draw dst : Nat),
  r ∈ s.noise.reqs → r.who = .noise dst → r.need = 2 → r.got = [d0] → d0 < 65536 → draw < 65536 →
  s.team? r.team = some t → t.thread? r.tid = some h → (∀ l, l ∉ h.absent) →
  ∃ h', (s.giveDraw r draw).thread? r.team r.tid = some h' ∧ h'.reg dst = BitVec.ofNat 32 (d0 + 65536 * draw)
    ∧ (∀ n, n ≠ dst → h'.reg n = h.reg n) ∧ dst ∉ h'.empty ∧ h'.fpflags = h.fpflags ∧ (s.giveDraw r draw).mem = s.mem

/-! ## Collectives (07 R138-R142, R150; 08 R175) -/

/-- The collectives act on all participants of a group at once, from what they held before (R138).
The model's choice in it is log 24. -/
def Obligations.CollectivesComplete : Prop := ∀ (w : RWord) (s : State) (b : Bundle) (t : Team) (l : List Nat) (s1 : State) (t1 : Team),
  let ty := w.ty.toNat
  let n := regsOf w
  let ps := l.filterMap t1.thread?
  (OneGroup s b t (w.form [w.srcA n, w.srcB 1] [w.dst n]) l s1 t1 →
    Completes (.shfl w) s b t (s1.updEach t.id (ps.map fun h =>
      let k := t1.lane h.tid
      let c : Nat := (h.reg w.b.toNat).toNat
      let src : Int := match w.mode2 with
        | 0 => c
        | 1 => (k : Int) - c
        | 2 => (k : Int) + c
        | _ => ((k ^^^ c : Nat) : Int)
      match ps.find? fun p => src = (t1.lane p.tid : Int) with
      | some p => (h.tid, fun x => (x.setTy ty w.d.toNat (p.tyVal ty w.a.toNat)).setPred w.c.toNat true)
      | none => (h.tid, fun x => (x.setTy ty w.d.toNat (h.tyVal ty w.a.toNat)).setPred w.c.toNat false))))
  ∧ (OneGroup s b t (w.form (if w.mode2 = 3 then [w.srcA n] else []) (if w.mode2 = 2 then [w.dst n] else [])) l s1 t1 →
    Completes (.vote w) s b t (s1.updEach t.id (ps.map fun h => (h.tid, fun x =>
      match w.mode2 with
      | 0 => x.setPred w.d.toNat (ps.all fun p => p.pred w.a.toNat)
      | 1 => x.setPred w.d.toNat (ps.any fun p => p.pred w.a.toNat)
      | 2 => x.setTy ty w.d.toNat (ps.foldl (fun m p => if p.pred w.a.toNat then m + 2 ^ t1.lane p.tid else m) 0)
      | _ => x.setPred w.d.toNat ((ps.map fun p => p.tyVal ty w.a.toNat).all fun v =>
          v = (ps.map fun p => p.tyVal ty w.a.toNat).headD 0)))))
  ∧ (OneGroup s b t (scanForm w) l s1 t1 →
    let sty := scanType w
    let steps (isMax : Bool) := scanList (scanStep sty w.rm.toNat isMax) (scanIdentity sty isMax, 0) (ps.map (scanInput w))
    Completes (.gscan w) s b t (s1.updEach t.id ((ps.zip (List.range ps.length)).map fun p =>
      let st := ((steps false)[p.2]?).getD ((0, 0), (0, 0))
      let r := if bitOf w.md.toNat 0 then (if p.2 = 0 then (0, 0) else st.1) else st.2
      (p.1.tid, fun x => (x.setTy sty w.d.toNat r.1).addFlags r.2)))
    ∧ Completes (.gred w) s b t (s1.updEach t.id (
      let r := (((steps (bitOf w.md.toNat 0)).map Prod.snd).getLast?).getD (0, 0)
      ps.map fun h => (h.tid, fun x => (x.setTy sty w.d.toNat r.1).addFlags r.2))))
  ∧ (OneGroup s b t { form1 w 1 with ks := if srcTy w = 11 then (List.range 8).map (48 + ·) else [] } l s1 t1 →
    let f := fmtTy ty
    Completes (.cvtq w) s b t (s1.updEach t.id (ps.map fun h =>
      let blk := t1.lane h.tid / 32
      let xs := (List.range 32).map fun i =>
        match ps.find? fun p => t1.lane p.tid = 32 * blk + i with
        | some p => f.decode ((p.reg w.a.toNat).toNat % 2 ^ f.bits)
        | none => Val.zero false
      let q := quantise t1.coreBook (srcTy w) xs
      let c := q.1.getD (t1.lane h.tid % 32) 0 % 2 ^ codeBits (srcTy w)
      (h.tid, fun x => (x.setTy 1 w.d.toNat (c + 65536 * q.2.1)).addFlags q.2.2))))
  ∧ (OneGroup s b t (w.form [] [w.dst 1]) l s1 t1 →
    let low := (ps.map fun h => t1.lane h.tid).headD 0
    Completes (.elect w) s b t (s1.updEach t.id (ps.map fun h => (h.tid, fun x =>
      (x.setReg w.d.toNat (BitVec.ofNat 32 low)).setPred w.c.toNat (decide (t1.lane h.tid = low))))))

/-- Every form of the conversions, the random values, the collectives, the fences and the cache control goes on in every bundle that may
issue it (R138-R142, R149-R154, R175, R194-R197, R201): under the conditions on the state and the operands that are written out here, and
no other, each thread of the bundles that complete together stands behind the instruction, and no byte of memory has changed. The
conditions are those of each instruction's rule: draws for rm 5, an FP10 scale for CVTDQ, a place in the request table for PREF, and the
accesses that a fence, WACK, CCTL or VOLINV waits for. Several bundles complete a collective together (R138); CCTL and VOLINV are
stated here for their `.all` forms. The model's choices in it are log 9, log 24, log 54 and log 70. -/
def Obligations.ConversionsCollectivesAndFencesGoOn : Prop := ∀ (s : State) (b : Bundle) (t : Team),
  let goes (i : Instr) (bs : List Bundle) : Prop := ∃ s', exec i s = .next s' ∧ s'.mem = s.mem
    ∧ ∀ c ∈ bs, ∀ x ∈ c.tids, ∀ h, t.thread? x = some h → ∃ k, s'.thread? t.id x = some k
      ∧ let n := (bs.map Bundle.count).foldl max 0
        (k.pc, k.idx) = ((h.advance n).pc, (h.advance n).idx)
  let book (w : RWord) : List Nat := if srcTy w = 11 then (List.range 8).map (48 + ·) else []
  (∀ w : RWord,
    (Clear s b t (convForm w) → w.rm ≠ 6 → (w.rm = 5 → (t.active (convForm w) b.tids).all (s.drawsReady t.id (convCount w)) = true) →
      goes (.cvtf w) [b] ∧ goes (.cvtfi w) [b] ∧ goes (.cvtif w) [b])
    ∧ (Clear s b t { convForm w with ks := [56, 57, 58, 59, 60] } → w.rm = 6 →
      goes (.cvtf w) [b] ∧ goes (.cvtfi w) [b] ∧ goes (.cvtif w) [b])
    ∧ (Clear s b t { form1 w 1 with ks := (List.range 8).map (48 + ·) } → goes (.cbk w) [b])
    ∧ (Clear s b t { w.form [w.srcA 1, w.srcB 2] [w.dst 1] with ks := [56, 57, 58, 59] } → goes (.rngk w) [b])
    ∧ (Clear s b t { w.form [] [w.dst 1] with long := true } → t.rehearsal = 0 → goes (.noise w) [b])
    ∧ (Clear s b t { form1 w 1 with ks := book w } →
      (∀ x ∈ t.active { form1 w 1 with ks := book w } b.tids, ∀ h, t.thread? x = some h →
        sc10 (bitsOf (h.reg w.a.toNat).toNat 16 10) ≠ none) → goes (.cvtdq w) [b])
    ∧ ∀ bs : List Bundle,
      (Together s b bs t (w.form [w.srcA (regsOf w), w.srcB 1] [w.dst (regsOf w)]) → goes (.shfl w) bs)
      ∧ (Together s b bs t (w.form (if w.mode2 = 3 then [w.srcA (regsOf w)] else []) (if w.mode2 = 2 then [w.dst (regsOf w)] else [])) →
          goes (.vote w) bs)
      ∧ (Together s b bs t (scanForm w) → goes (.gscan w) bs ∧ goes (.gred w) bs)
      ∧ (Together s b bs t { form1 w 1 with ks := book w } → goes (.cvtq w) bs)
      ∧ (Together s b bs t (w.form [] [w.dst 1]) → goes (.elect w) bs))
  ∧ (∀ w : MWord,
    let kept := w.form [] []
    (Clear s b t kept → (∀ x ∈ t.active kept b.tids,
        (w.w = 0 → s.loadsRead t.id x = true ∧ s.seenOpen t.id x = false)
        ∧ (w.w = 1 → ∀ r ∈ s.reqsOf t.id x, r.reads = true ∨ r.stage = .done) ∧ (w.w ≠ 0 → w.w ≠ 1 → s.quiet t.id x = true)
        ∧ (w.w ≠ 0 → 6 ≤ w.sc.toNat → s.outsideDone t.id x = true)) → goes (.fence w) [b])
    ∧ (Clear s b t kept → (∀ o ∈ s.flight.ops, o.team = t.id → o.kind.acked = true → o.tid ∉ t.active kept b.tids) → goes (.wack w) [b])
    ∧ (∀ x, Clear s b t { w.form [w.srcBase] [] with tok := tokenOf w.tk } →
        t.active { w.form [w.srcBase] [] with tok := tokenOf w.tk } b.tids = [x] → s.tableFull (t.coreOf x) = false → goes (.pref w) [b])
    ∧ (w.w = 1 → Clear s b t { kept with tok := tokenOf w.tk } → (∀ x ∈ b.tids, s.quiet t.id x = true) → goes (.cctl w) [b])
    ∧ (w.w = 1 → Clear s b t { w.form [w.srcBase] [] with tok := tokenOf w.tk } → (∀ x ∈ b.tids, s.quiet t.id x = true) →
        goes (.volinv w) [b]))

/-! ## Uniform registers, named states and system (08 R177-R180) -/

/-- k registers (R40, R177): KMOV, KMOVI, KADD and KPUT write kd, or a pair; KGET reads one into d; KLD sends one load for the
bundle, and its k registers wait for it. Nothing else changes. -/
def Obligations.UniformRegistersComplete : Prop :=
  (∀ (w : KWord) (s : State) (b : Bundle) (t : Team),
    let x := bitOf w.md.toNat 0
    let imm : Nat := if x then (w.imm.signExtend 64).toNat else w.imm.toNat
    (Clear s b t (kForm w.kd.toNat [w.ka.toNat] x) →
      Completes (.kmov w) s b t (s.updTeam t.id fun u => u.setKVal w.kd.toNat x (u.kVal w.ka.toNat x)))
    ∧ (Clear s b t (kForm w.kd.toNat [] x) → Completes (.kmovi w) s b t (s.updTeam t.id fun u => u.setKVal w.kd.toNat x imm))
    ∧ (Clear s b t (kForm w.kd.toNat [w.ka.toNat, w.kb.toNat] x) →
      Completes (.kadd w) s b t (s.updTeam t.id fun u => u.setKVal w.kd.toNat x (u.kVal w.ka.toNat x + u.kVal w.kb.toNat x + imm))))
  ∧ (∀ (w : IWord) (s : State) (b : Bundle) (t : Team) (l : List Nat) (s1 : State) (t1 : Team) (h1 : Thread),
    let x := bitOf w.md.toNat 0
    let n := if x then 2 else 1
    OneGroup s b t { w.form [w.srcA n] [] with bad := kDstBad w.d.toNat x, ks := kRegs w.d.toNat x } l s1 t1 → Converged s b t l →
    t1.thread? (l.headD 0) = some h1 →
    Completes (.kput w) s b t (s1.updTeam t.id fun u => u.setKVal w.d.toNat x (h1.regsNat w.a.toNat n)))
  ∧ (∀ w : IWord,
    let x := bitOf w.md.toNat 0
    let n := if x then 2 else 1
    let r := bitsOf w.a.toNat 0 6
    Lanewise (.kget w) { w.form [] [w.dst n] with bad := kSrcBad r x, ks := kRegs r x } fun t h => h.setRegs w.d.toNat (t.kVal r x) n)
  ∧ (∀ (w : KWord) (s : State) (b : Bundle) (t : Team) (h : Thread) (p : Part) (ps : List Part) (s1 : State),
  let x := bitOf w.md.toNat 0
  let n := if x then 8 else 4
  let sc := bitsOf w.md.toNat 1 3
  let ord := if sc = 0 then 0 else 1
  Clear s b t { bad := kDstBad w.kd.toNat x || kSrcBad w.ka.toNat true, ks := kRegs w.kd.toNat x ++ kRegs w.ka.toNat true } →
  t.thread? (t.lowest b.tids) = some h → s.mayStart t.id h.tid ord = true → s.tableFull (t.coreOf h.tid) = false →
  t.reach s h (t.kpair w.ka.toNat + w.imm.signExtend 64) n { align := n } = (.ok (some (p :: ps)), s1) →
  s1.ioWaits t.id h.tid (p :: ps) = false →
  Completes (.kld w) s b t (((s1.postAccess
    { id := 0, team := t.id, tid := h.tid, core := t.coreOf h.tid, kind := .kload (n / 4), dst := w.kd.toNat, tok := none, bytes := n,
      flags := 0 }
    { team := t.id, tid := h.tid, core := t.coreOf h.tid, asid := t.asid, batch := s.nextId, kind := .load, ord := ord, sc := sc }
    (p :: ps)).updTeam t.id fun u => { u with kWait := u.kWait ++ kRegs w.kd.toNat x }).withMates b.tids))

/-- SREAD and SWRITE (R178, R179): d takes the named state, 64 bits in a pair; each active lane writes its own states in turn (R84), and a
state of the team is written once, from the lowest active lane, a group's timer from the lowest of the group. A value with a reserved bit
stops with ILLEGAL_OPERAND.
The model's choices in it are log 14 and log 37. -/
def Obligations.NamedStates : Prop := ∀ (w : IWord) (s : State) (b : Bundle) (t : Team),
  let n := w.imm.toNat
  let k := if namedWide n then 2 else 1
  let fw : Form := { w.form [w.srcA k] [] with priv := namedPrivileged n, bad := !namedWritable n }
  (Clear s b t { w.form [] [w.dst k] with bad := !isNamed n } →
    Completes (.sread w) s b t (s.updThreads t.id (t.active (w.form [] [w.dst k]) b.tids) fun h =>
      h.setRegs w.d.toNat (namedValue s t h n) k))
  ∧ (n ≠ 0x17 → [0x10, 0x11, 0x1D].contains n = false → LaneByLane (.swrite w) fw fun _ t x m _ h m' =>
      namedReserved n (h.regsNat w.a.toNat k) = false ∧ m' = m.updThread t.id x fun y => y.writeNamed n (h.regsNat w.a.toNat k))
  ∧ (∀ h, Clear s b t fw → t.active fw b.tids ≠ [] → t.thread? ((t.active fw b.tids).headD 0) = some h →
      [0x10, 0x11, 0x1D].contains n = true → namedReserved n (h.regsNat w.a.toNat k) = false →
      Completes (.swrite w) s b t (s.updTeam t.id fun u => u.writeNamed n (h.regsNat w.a.toNat k)))
  ∧ (∀ l h, Clear s b t fw → t.active fw b.tids = l → t.groupUnits b.tids l = [{ acts := l, all := l }] → t.thread? (l.headD 0) = some h →
      n = 0x17 →
      Completes (.swrite w) s b t (s.updTeam t.id fun u => u.updGroup (t.groupOf (l.headD 0)) fun g => { g with tmrcmp := h.pair w.a.toNat }))
  ∧ (∀ x h, Solo s b t fw x h → n ≠ 0x17 → namedReserved n (h.regsNat w.a.toNat k) = true →
    StopsWith (.swrite w) s t x h trapIllegalOperand)

/-- ASIDSET, CTXEVICT and TMRSET (R180, R172, R226): the address space, the marks of a gang, and a group's timer.
The model's choices in it are log 7 and log 37. -/
def Obligations.SystemStateCompletes : Prop :=
  (∀ (w : KWord) (s : State) (b : Bundle) (t : Team), Clear s b t { priv := true, ks := [w.ka.toNat] } →
    Completes (.asidset w) s b t (s.updTeam t.id fun u => { u with asid := (u.kreg w.ka.toNat).setWidth 16 })
    ∧ (∀ v : Team, s.handle? (t.kreg w.ka.toNat) = some v →
        let mine (x : Team) : Bool := x.grid = v.grid && x.gang = v.gang
        (w.md = 0 → v.saveArea.isSome → Completes (.ctxevict w) s b t
          { s with teams := updWhere s.teams mine fun x => { x with marked := true } })
        ∧ (w.md ≠ 0 → Completes (.ctxevict w) s b t
          { s with teams := updWhere s.teams (fun x => mine x && !x.removed) fun x => { x with marked := false } }))
    ∧ (s.handle? (t.kreg w.ka.toNat) = none → Completes (.ctxevict w) s b t s))
  ∧ (∀ (w : IWord) (s : State) (b : Bundle) (t : Team) (x : Nat) (s1 : State) (t1 : Team) (h1 : Thread),
    let abs := bitOf w.md.toNat 0
    Lane s b t (w.form (if abs then [w.srcA 2] else []) []) x s1 t1 h1 →
    Completes (.tmrset w) s b t (s1.updTeam t.id fun u => u.updGroup (t.groupOf x) fun g =>
      { g with tmrcmp := if abs then h1.pair w.a.toNat else s1.clock t.cluster + w.imm.setWidth 64 }))

/-- TLBINV (R180, R211): its first issue starts a shoot-down over the units of its extent, and once every one of them has
acknowledged the bundle goes on. MSTART (R180, R251): the idle Prompter context of the team starts at the header in ka; while it runs a
stream MSTART stops the thread with MATRIX_STATE.
The model's choice in it is log 33. -/
def Obligations.TlbinvAndMstartComplete : Prop :=
  (∀ (w : KWord) (s : State) (b : Bundle) (t : Team),
  Clear s b t { priv := true, bad := kSrcBad w.ka.toNat true, ks := kRegs w.ka.toNat true ++ [w.kb.toNat] } →
  (∀ x, (s.units.shoots.find? fun y => y.owner = some b.id) = some x → x.units = [] →
    Completes (.tlbinv w) s b t { s with units := { s.units with shoots := s.units.shoots.filter fun y => y.id ≠ x.id } })
  ∧ ((s.units.shoots.find? fun y => y.owner = some b.id) = none →
    exec (.tlbinv w) s = .next (s.shootDown
      { kind := bitsOf w.md.toNat 0 2, vas := [bitsOf (t.kpair w.ka.toNat).toNat 0 57], asid := (t.kreg w.kb.toNat).toNat % 65536 }
      (bitsOf w.md.toNat 2 2) (t.coreOf (t.lowest b.tids)) (some b.id) false)))
  ∧ (∀ (w : KWord) (s : State) (b : Bundle) (t : Team) (p : Prompter),
  Clear s b t { bad := kSrcBad w.ka.toNat true, ks := kRegs w.ka.toNat true } → s.allQuiet t.id b.tids = true →
  s.context? t = some p →
  (p.busy = false → Completes (.mstart w) s b t (s.startStream p (t.kpair w.ka.toNat) none))
  ∧ (∀ x h, p.busy = true → b.tids = [x] → t.thread? x = some h → StopsWith (.mstart w) s t x h trapMatrixState))

/-! ## Control (08 R155-R176) -/

/-- BRA, CALL, RET, BRX and CALLX (R156-R159): the lone thread of a bundle goes to its target, which is checked first and has a place in
the PC table, with no callee queue of its team waiting for one; CALL and CALLX write the link; md[0] records slot bs. An index beyond DTLEN,
or a target that fails R25, stops the lane. In a bundle of any number of threads each lane whose guard holds goes to its own target, the
others fall through to the next header without a link (R156), and each stands there with the rest of its state as it was. Where the running
set so comes to stand at several PC records it is chosen afresh: the eligible PC set with the lowest thread runs (R102, R103). -/
def Obligations.TransfersComplete : Prop := ∀ (w : BWord) (s : State) (b : Bundle) (t : Team) (x : Nat) (h : Thread),
  let slot : Option Nat := if bitOf w.md.toNat 0 then some w.bs.toNat else none
  let link (h : Thread) : Thread := h.setPair 6 h.nextAddr
  let here := h.pc + w.off.signExtend 64
  let there := h.pair w.a.toNat
  let entry : W64 := t.launch.dtBase + 8 * (h.reg w.a.toNat).setWidth 64
  let open_ (m : State) (va : W64) : Prop := m.targetStop (t.coreOf x) t.asid h.priv va = none ∧ (m.pcSets t [x]).length < 64
    ∧ ∀ q ∈ m.callees, q.team ≠ t.id
  let read (ps : List Part) (m : State) : State × W64 :=
    let r := m.readNat (t.coreOf x) ps
    (r.1, BitVec.ofNat 64 r.2)
  (Solo s b t (transferForm w [] []) x h → open_ s here → Transfers (.bra w) s b t x slot id here 0 s)
  ∧ (Solo s b t (transferForm w [] [{ r := 6, n := 2 }]) x h → open_ s here → Transfers (.call w) s b t x slot link here 0 s)
  ∧ (Solo s b t (transferForm w [spanA w 2] []) x h → open_ s there → Transfers (.ret w) s b t x slot id there 0 s)
  ∧ (∀ ps m, Solo s b t (transferForm w [spanA w 1] []) x h → h.reg w.a.toNat < t.launch.dtLen →
      s.quiet t.id x = true → s.coreBusy (t.coreOf x) = false → t.reachNow s h entry 8 {} = (.ok (some ps), m) → open_ (read ps m).1 (read ps m).2 →
      Transfers (.brx w) s b t x slot id (read ps m).2 0 (read ps m).1)
  ∧ (∀ ps m, Solo s b t (transferForm w [spanA w 1] [{ r := 6, n := 2 }]) x h → h.reg w.a.toNat < t.launch.dtLen →
      s.quiet t.id x = true → s.coreBusy (t.coreOf x) = false → t.reachNow s h entry 8 {} = (.ok (some ps), m) → open_ (read ps m).1 (read ps m).2 →
      Transfers (.callx w) s b t x slot link (read ps m).2 0 (read ps m).1)
  ∧ (Solo s b t (transferForm w [spanA w 1] []) x h → t.launch.dtLen ≤ h.reg w.a.toNat → StopsWith (.brx w) s t x h trapBadTarget)
  ∧ (∀ code, Solo s b t (transferForm w [] []) x h → s.targetStop (t.coreOf x) t.asid h.priv here = some code →
      StopsWith (.bra w) s t x h code)
  ∧ (∀ (i : Instr) (f : Form) (act : Thread → Thread) (aim : Thread → State → W64 → State → Prop) (l : List (Nat × W64)) (m : State),
      let near (a : Thread → W64) (h : Thread) (m : State) (va : W64) (n : State) : Prop := va = a h ∧ n = m
      let far (h : Thread) (m : State) (va : W64) (n : State) : Prop := ∃ ps m0, h.reg w.a.toNat < t.launch.dtLen
        ∧ t.reachNow m h (t.launch.dtBase + 8 * (h.reg w.a.toNat).setWidth 64) 8 {} = (.ok (some ps), m0)
        ∧ n = (m0.readNat (t.coreOf h.tid) ps).1 ∧ va = BitVec.ofNat 64 (m0.readNat (t.coreOf h.tid) ps).2
      let links : List Span := [{ r := 6, n := 2 }]
      let quiet := ∀ y ∈ t.active f b.tids, s.quiet t.id y = true ∧ s.coreBusy (t.coreOf y) = false
      let aims (y : Nat) (m : State) (va : W64) (n : State) : Prop := ∃ h, t.thread? y = some h
        ∧ ((h.guard f.g f.gn = true ∧ aim h m va n ∧ n.targetStop (t.coreOf y) t.asid h.priv va = none)
          ∨ (h.guard f.g f.gn = false ∧ va = h.nextAddr ∧ n = m))
      ((i = .bra w ∧ f = transferForm w [] [] ∧ act = id ∧ aim = near fun h => h.pc + w.off.signExtend 64)
        ∨ (i = .call w ∧ f = transferForm w [] links ∧ act = link ∧ aim = near fun h => h.pc + w.off.signExtend 64)
        ∨ (i = .ret w ∧ f = transferForm w [spanA w 2] [] ∧ act = id ∧ aim = near fun h => h.pair w.a.toNat)
        ∨ (i = .brx w ∧ f = transferForm w [spanA w 1] [] ∧ act = id ∧ aim = far ∧ quiet)
        ∨ (i = .callx w ∧ f = transferForm w [spanA w 1] links ∧ act = link ∧ aim = far ∧ quiet)) →
      Clear s b t f → b.tids.Nodup → Aimed aims (t.inOrder b.tids) s l m → (m.pcSets t b.tids).length + b.tids.length ≤ 64 →
      (∀ q ∈ m.callees, q.team ≠ t.id) →
      ∃ s', exec i s = .next s' ∧ s'.mem = m.mem
        ∧ (∀ y va h, (y, va) ∈ l → m.thread? t.id y = some h → ∃ k, s'.thread? t.id y = some k ∧ Kept (ends b t) m.time
            ((if h.guard f.g f.gn then act h else h).goto va 0) k)
        ∧ (∀ u v k r, ends b t = true → (∃ y z va vb, (y, va) ∈ l ∧ (z, vb) ∈ l ∧ va ≠ vb ∧ (∀ h, s'.thread? t.id y = some h → h.wait = .ready)
              ∧ ∀ h, s'.thread? t.id z = some h → h.wait = .ready) →
            (∀ y ∈ b.tids, t.running.contains y = true ∧ (∀ h, t.thread? y = some h → h.exited = false)
              ∧ ∀ c ∈ s.bundles, c.team = t.id → y ∈ c.tids → c.id = b.id) →
            let brought := s'.updTeam t.id fun _ => s'.refresh u
            t.turned < m.time → t.removed = false → s'.team? t.id = some u → brought.eligibleSets (s'.refresh u) = k :: r →
            (s'.settleSet t.id).team? t.id = some v →
            v.front = k ∧ v.running = (brought.standing (s'.refresh u) k).map Thread.tid))

/-- Traps that an instruction raises (R168, R169): TRAP and RAISE enter the thread's own handler, with TEPC and TCAUSE saved, or leave a
record for the supervisor at the next header; BRK leaves one at itself; TFENCE stops on an enabled sticky flag (R171). The user code of
TRAP and BRK is in TCAUSE bits [23:16]. A handler address that fails R25 stops the lane at the instruction with that code, which is the
model's choice in log 69; that a trap for the supervisor saves the user code as well is its choice in log 73. -/
def Obligations.TrapsAreTaken : Prop := ∀ (w : BWord) (s : State) (b : Bundle) (t : Team) (x : Nat) (h : Thread),
  let f : Form := { w.form [] with ends := true }
  let fr : Form := { w.form [spanA w 2] with dsts := [{ r := 4, n := 2 }], ends := true }
  let own := h.uhnd ≠ 0 ∧ h.tcause.getLsbD 12 = false
  let handler := s.targetStop (t.coreOf x) t.asid h.priv h.uhnd
  let save (code n : Nat) (y : Thread) : Thread :=
    { y with tepc := h.nextAddr, tcause := BitVec.ofNat 32 (code + 2 ^ 12 + 2 ^ 16 * n) }
  let userCode (i : Instr) : Prop :=
    ∃ s' h', exec i s = .next s' ∧ s'.thread? t.id x = some h' ∧ bitsOf h'.tcause.toNat 16 8 = w.md.toNat % 256
  (Solo s b t f x h →
    (own → handler = none → Transfers (.trap w) s b t x none (save trapUser w.md.toNat) h.uhnd 0 s)
    ∧ (∀ code, own → handler = some code → StopsWith (.trap w) s t x h code)
    ∧ (¬own → StopsWith (.trap w) s t x (h.goto h.nextAddr 0) trapUser ∧ userCode (.trap w))
    ∧ StopsWith (.brk w) s t x h trapBreak ∧ userCode (.brk w))
  ∧ (Solo s b t fr x h →
    (own → handler = none →
      Transfers (.raise w) s b t x none (fun y => save trapException 0 (y.setPair 4 (y.pair w.a.toNat))) h.uhnd 0 s)
    ∧ (∀ code, own → handler = some code → StopsWith (.raise w) s t x h code)
    ∧ (¬own → StopsWith (.raise w) s t x (h.goto h.nextAddr 0) trapException))
  ∧ (Solo s b t (w.form []) x h → h.empty = [] →
    (h.fpflags &&& h.fpenable = 0 → Completes (.tfence w) s b t s)
    ∧ (h.fpflags &&& h.fpenable ≠ 0 → StopsWith (.tfence w) s t x h trapArith))

/-- TRET (R170): with TCAUSE bit 12 set the thread clears it and resumes at TEPC with the saved index, or at the landing pad; with it
clear the lane stops with ILLEGAL_OPERAND.
The model's choice in it is log 34. -/
def Obligations.TrapReturnCompletes : Prop := ∀ (w : BWord) (s : State) (b : Bundle) (t : Team) (x : Nat) (h : Thread),
  let pad := bitOf w.md.toNat 1
  let pc : W64 := if pad then h.pair w.a.toNat else h.tepc
  let idx : Nat := if pad then 0 else bitsOf h.tcause.toNat 8 4
  Solo s b t (transferForm w (if pad then [spanA w 2] else []) []) x h →
  (h.tcause.getLsbD 12 = true → s.targetStop (t.coreOf x) t.asid h.priv pc = none → (s.pcSets t [x]).length < 64 →
    (∀ q ∈ s.callees, q.team ≠ t.id) → Transfers (.tret w) s b t x none (fun y => { y with tcause := y.tcause &&& ~~~BitVec.ofNat 32 (2 ^ 12) }) pc idx s)
  ∧ (h.tcause.getLsbD 12 = false → StopsWith (.tret w) s t x h trapIllegalOperand)

/-- RECON, YIELD and NAP (R160-R162): RECON passes a free slot and waits at an open one; YIELD ends its clause and is a yield point; NAP
with 0 ends its clause, otherwise the lane waits until the cycles have passed.
The model's choice in it is log 7. -/
def Obligations.WaitsOfThreads : Prop := ∀ (w : BWord) (s : State) (b : Bundle) (t : Team) (x : Nat) (h : Thread),
  let f : Form := { w.form [] with ends := true }
  (Solo s b t f x h →
    (((t.group (t.groupOf x)).slots.find? fun y => y.1 = w.bs.toNat) = none →
      ∃ s', exec (.recon w) s = .next (s'.closeSlots t.id) ∧ Advances b t s s')
    ∧ (((t.group (t.groupOf x)).slots.find? fun y => y.1 = w.bs.toNat) ≠ none →
      ∃ s', exec (.recon w) s = .next (s'.closeSlots t.id) ∧ Leaves b t x (.recon w.bs.toNat) s s'))
  ∧ (Clear s b t f → ∃ s', Advances b t s s'
      ∧ exec (.yield w) s = .next (if (t.active f b.tids).isEmpty ∨ b.runs t = false then s' else s'.yieldPoint t.id))
  ∧ (Solo s b t { w.form [spanA w 1] with ends := true } x h →
    (h.reg w.a.toNat = 0 → Completes (.nap w) s b t s)
    ∧ (h.reg w.a.toNat ≠ 0 → ∃ s', exec (.nap w) s = .next s' ∧ Leaves b t x (.nap (s.time + (h.reg w.a.toNat).toNat)) s s'))

/-- BARA, BARW, BARS and ROLE (R163, R164, R176) on one converged group. An arrival that makes the expected count completes the
phase; BARW consumes one completed phase, or its threads wait; BARS sets the expected count, and 0 or more than 64 stops the lane; ROLE
names the role that the group takes at the end of its clause, and a number that is no role stops the lane. The switch of R110: once every
thread of the group waits for role n with all its registers full, they stand at the role's entry, keep what lies below its allotment, and
the group has the role. -/
def Obligations.GroupOperationsComplete : Prop :=
  (∀ (w : BWord) (s : State) (b : Bundle) (t : Team) (l : List Nat) (s1 : State) (t1 : Team),
  let n := w.md.toNat
  let bar := t.barrier n
  let g := t.groupOf (l.headD 0)
  let noWaiter := ∀ h ∈ t.threads, h.wait ≠ .barrier n
  let closes (x : Barrier) (b : Bool) : Barrier :=
    if b then { x with phase := x.phase + 1, arrived := 0, pending := 0, flags := keep 0 x.flags (x.phase + 1).toNat x.pending } else x
  (OneGroup s b t (w.form []) l s1 t1 → Converged s b t l → s.allQuiet t.id l = true → noWaiter →
    Completes (.bara w) s b t (s.updTeam t.id fun u => u.updBarrier n fun _ =>
      closes { bar with arrived := bar.arrived + 1 } (decide (bar.expect ≤ bar.arrived + 1))))
  ∧ (OneGroup s b t { w.form [] with ends := true } l s1 t1 → Converged s b t l →
    ((t.group g).waitedPhase n < bar.phase.toNat → Completes (.barw w) s b t (s.consume t.id g n l))
    ∧ (∀ x, bar.phase.toNat ≤ (t.group g).waitedPhase n → l = [x] → b.tids = [x] →
        ∃ s', exec (.barw w) s = .next s' ∧ Leaves b t x (.barrier n) s s'))
  ∧ (OneGroup s b t (w.form [spanA w 1]) l s1 t1 → Converged s b t l → ∀ h, t.thread? (l.headD 0) = some h →
    let e := (h.reg w.a.toNat).toNat
    (1 ≤ e → e ≤ 64 → noWaiter → Completes (.bars w) s b t (s.updTeam t.id fun u => u.updBarrier n fun _ =>
      closes { bar with expect := e } (decide (e ≤ bar.arrived))))
    ∧ (∀ x, (e = 0 ∨ 64 < e) → l = [x] → b.tids = [x] → StopsWith (.bars w) s t x h trapIllegalOperand))
  ∧ (OneGroup s b t (w.form []) l s1 t1 → Converged s b t l →
    (n < t.launch.roles.length → b.idx t + 1 < b.count →
      Completes (.role w) s b t (s.updTeam t.id fun u => u.updGroup g fun y => { y with next := some n }))
    ∧ (∀ x h, t.launch.roles.length ≤ n → l = [x] → b.tids = [x] → t.thread? x = some h →
        StopsWith (.role w) s t x h trapIllegalOperand)))
  ∧ (∀ (s : State) (t : Team) (g n x : Nat) (h : Thread) (r : Role),
  s.team? t.id = some t → t.launch.roles[n]? = some r → g < t.groups.length → t.thread? x = some h → t.groupOf x = g → h.exited = false →
  (∀ y ∈ t.groupThreads g, y.exited = false → y.wait = .role n ∧ y.empty = [] ∧ y.absent = [] ∧ y.singleStep = false) →
  ∃ h' t', (s.switchRole t.id g n).team? t.id = some t' ∧ t'.thread? x = some h' ∧ h'.pc = r.entry ∧ h'.idx = 0
    ∧ (h'.wait = .ready ∨ h'.wait = .callee)
    ∧ (t'.group g).role = n ∧ (t'.group g).next = none ∧ (∀ k < r.allot, h'.reg k = h.reg k) ∧ h'.preds = h.preds
    ∧ ((∀ core, (s.heldLines core).length + (t.groupThreads g).length * ((r.allot + 31) / 32) ≤ 1024) →
        (s.switchRole t.id g n).mem = s.mem))


/-- EXIT, LAUNCH and LAUNCHT (R166, R167, R122): a lane without rooms stops for good; a lane that holds one stops with ROOM_STATE; a
child's record is enqueued where the queue has room, otherwise LAUNCH parks and LAUNCHT answers false. A launch address that is no
multiple of 256 stops the lane with ALIGN.
The model's choice in it is log 32. -/
def Obligations.ExitsAndLaunches : Prop := ∀ (w : BWord) (s : State) (b : Bundle) (t : Team) (x : Nat) (h : Thread),
  let f : Form := { w.form [] with ends := true }
  let fl : Form := { w.form [spanA w 2] with ends := true }
  let va := h.pair w.a.toNat
  let told (v : Bool) (m : State) : State := m.updThread t.id x fun y => y.setPred w.md.toNat v
  (Solo s b t f x h →
    (h.held = [] → ∃ s', exec (.exit w) s = .next (s'.closeSlots t.id)
      ∧ Moved b t x none (fun y => { y with exited := true }) h.pc h.idx s s')
    ∧ (h.held ≠ [] → ∃ s' r, exec (.exit w) s = .next s' ∧ r ∈ s'.traps.records ∧ r.tid = x ∧ r.code = trapRoomState
        ∧ r.pc = h.pc ∧ r.idx = h.idx ∧ r.restart = restartable trapRoomState))
  ∧ (Solo s b t fl x h → s.quiet t.id x = true → (∀ y ∈ t.threads, ∀ n, y.wait = .taskQueue n → n < s.nextId) →
    (∀ ps m0, va.toNat % 256 = 0 → t.reach s h va 256 {} = (.ok (some ps), m0) →
      let r := m0.readParts (clusterUnit t.cluster) ps
      let m := r.1
      let k : Task := { die := t.die, addr := va, asid := t.asid, bytes := r.2, origin := .thread t.id, cls := fieldOf r.2 25 1 }
      (m.queued t.die < 4096 → Completes (.launch w) s b t (m.enqueue k) ∧ Completes (.launcht w) s b t (told true (m.enqueue k)))
      ∧ (4096 ≤ m.queued t.die → Completes (.launcht w) s b t (told false m)
          ∧ ∃ s', exec (.launch w) s = .next (if b.runs t then s'.yieldPoint t.id else s')
            ∧ Leaves b t x (.taskQueue m.nextId) m.fresh s'))
    ∧ (va.toNat % 256 ≠ 0 → StopsWith (.launch w) s t x h trapAlign ∧ StopsWith (.launcht w) s t x h trapAlign))

/-! ## Memory, scratchpad, fences and volumes (09 R181-R201) -/

/-- LD, LDSUB, LDV and LDVOL (R187, R192, R193, R199): a lane whose bytes are readable posts its load, d empty, lane after lane (R84); an
LDVOL that finds no tile takes the background at once. An address that fails R184 stops the lane at its instruction: one that is not
canonical with ACCESS, a misaligned one with ALIGN, a page that is missing or not permitted with PAGE_FAULT or ACCESS, a tagged load in a
non-coherent window with NC_WINDOW and of host memory with ACCESS, and a LOST line with LOST_LINE.
The model's choices in it are log 9 and log 21. -/
def Obligations.LoadsComplete : Prop := ∀ w : MWord,
  let n := widthRegs w.w
  let len := widthBytes w.w
  let sends (s : State) (u : Team) (x : Nat) (m : State) (kind : OpKind) (dst bytes : Nat) (rk : ReqKind) (ps : List Part) : State := m.postAccess
    { id := 0, team := u.id, tid := x, core := u.coreOf x, kind := kind, dst := dst, tok := none, bytes := bytes, flags := 0 }
    { team := u.id, tid := x, core := u.coreOf x, asid := u.asid, batch := s.nextId, kind := rk, ord := w.ord.toNat, sc := w.sc.toNat } ps
  let may (x : Nat) (m0 : State) (u : Team) (h : Thread) (va : W64) (bytes : Nat) (k : Ask) (ps : List Part) (m : State) : Prop :=
    m0.mayStart u.id x w.ord.toNat = true ∧ m0.tableFull (u.coreOf x) = false ∧ u.reach m0 h va bytes k = (.ok (some ps), m)
    ∧ ps ≠ [] ∧ m.ioWaits u.id x ps = false
  let ldForm : Form := { w.form (w.srcBase :: w.srcIndex) [w.dst n] with long := true }
  let subForm : Form := { w.form [w.srcBase] [w.dst 1] with long := true }
  let tagForm : Form := { w.form [w.srcBase] (w.dst n :: if w.b = 0 then [] else [{ r := w.b.toNat, n := 1 }]) with long := true }
  let volForm : Form := { w.form (w.srcBase :: mCoords w) [w.dst n] with long := true, quad := some w.b.toNat }
  let subBytes := if bitsOf w.b.toNat 0 2 ≤ 1 then 8 else 16
  let ldAsk : Ask := { align := if w.ord = 0 ∧ w.w.toNat ≤ 3 then 1 else len }
  let tagAsk : Ask := { align := len, ncStop := true, noHost := true }
  LaneByLane (.ld w) ldForm (fun s _ x m0 u h m' => ∃ ps m, may x m0 u h (w.ea h) len ldAsk ps m
    ∧ m' = sends s u x m (.load n) w.d.toNat len .load ps)
  ∧ LaneByLane (.ldsub w) subForm (fun s _ x m0 u h m' => ∃ p ps m, may x m0 u h (w.eaPlain h) subBytes { align := subBytes } (p :: ps) m
    ∧ m' = sends s u x m (.sub (bitsOf w.b.toNat 0 2)) w.d.toNat subBytes
      (if attrSub p.attr && !p.nc && spaceOf m0.ctl p.pa = .device then .sub (bitsOf w.b.toNat 0 2) (bitOf w.b.toNat 2) else .load) (p :: ps))
  ∧ LaneByLane (.ldv w) tagForm (fun s _ x m0 u h m' => ∃ ps m, may x m0 u h (w.eaPlain h) len tagAsk ps m
    ∧ m' = sends s u x m (.ldv n) (w.d.toNat + 128 * w.b.toNat) len .ldv ps)
  ∧ LaneByLane (.ldvol w) volForm (fun s _ x m0 u h m' => m0.quiet u.id x = true ∧ ∃ c m1, locate w u h m0 = .got c m1
    ∧ ((∃ a ps m, c.tree = .tile a ∧ may x m1 u h (a + BitVec.ofNat 64 c.off) c.vol.size { align := c.vol.size, ncStop := true } ps m
        ∧ m' = sends s u x m (.load n) w.d.toNat c.vol.size .load ps)
      ∨ (∃ k a, c.tree = .absent k a ∧ m' = m1.updThread u.id x fun y => y.setRegs w.d.toNat (c.vol.background % 2 ^ (8 * c.vol.size)) n)))
  ∧ (∀ (s : State) (b : Bundle) (t : Team) (x : Nat) (s1 : State) (t1 : Team) (h1 : Thread) (code : Nat),
    s1.mayStart t.id x w.ord.toNat = true → s1.tableFull (t.coreOf x) = false →
    (Alone s b t ldForm x s1 t1 h1 → Refused t1 s1 h1 (w.ea h1) len ldAsk code → StopsWith (.ld w) s t x h1 code)
    ∧ (Alone s b t subForm x s1 t1 h1 → Refused t1 s1 h1 (w.eaPlain h1) subBytes { align := subBytes } code →
      StopsWith (.ldsub w) s t x h1 code)
    ∧ (Alone s b t tagForm x s1 t1 h1 → Refused t1 s1 h1 (w.eaPlain h1) len tagAsk code → StopsWith (.ldv w) s t x h1 code))

/-- ST and STVOL (R187, R199, R200): a lane whose bytes are writable queues its store, lane after lane (R84); a STVOL lane without a tile
first asks the home slice of the parent for one, and stores in the tile that it is given. An address that fails R184 stops the lane of a
ST, as it does that of a load.
The model's choice in it is log 9. -/
def Obligations.StoresComplete : Prop := ∀ w : MWord,
  let len := widthBytes w.w
  let form : Form := { w.form ([w.srcBase] ++ w.srcIndex ++ [w.srcData (widthRegs w.w)]) [] with tok := tokenOf w.tk }
  let ask : Ask := { use := .write, align := if w.ord = 0 ∧ w.w.toNat ≤ 3 then 1 else len }
  let queues (s : State) (x : Nat) (m0 : State) (u : Team) (h : Thread) (va : W64) (d : List Byte) (k : Ask) (m' : State) : Prop :=
    m0.mayStart u.id x w.ord.toNat = true ∧ m0.tableFull (u.coreOf x) = false
    ∧ ∃ ps m, u.reach m0 h va d.length k = (.ok (some ps), m) ∧ m.ioWaits u.id x ps = false ∧ m' = m.postAccess
      { id := 0, team := u.id, tid := x, core := u.coreOf x, kind := .store, dst := 0, tok := tokenOf w.tk, bytes := d.length, flags := 0 }
      { team := u.id, tid := x, core := u.coreOf x, asid := u.asid, batch := s.nextId, kind := .store, ord := w.ord.toNat,
        sc := w.sc.toNat, data := d } ps
  LaneByLane (.st w) form (fun s _ x m0 u h m' => queues s x m0 u h (w.ea h) (h.dataBytes w.d.toNat len) ask m')
  ∧ (∀ (s : State) (b : Bundle) (t : Team) (x : Nat) (s1 : State) (t1 : Team) (h1 : Thread) (code : Nat),
    Alone s b t form x s1 t1 h1 → s1.mayStart t.id x w.ord.toNat = true → s1.tableFull (t.coreOf x) = false →
    Refused t1 s1 h1 (w.ea h1) len ask code → StopsWith (.st w) s t x h1 code)
  ∧ (∀ (s : State) (b : Bundle) (t : Team) (m' : State),
    let acts := t.active (stvolForm w) b.tids
    let holds (x : Nat) (m0 : State) (c : Cell) (a : W64) : Prop := c.tree = .tile a
      ∨ ∃ k ptr r, c.tree = .absent k ptr ∧ m0.alloc? t.id x = some r ∧ r.answer = some (.tile a)
    let stores (x : Nat) (m0 : State) (u : Team) (h : Thread) (n : State) : Prop :=
      (∀ r, m0.alloc? t.id x = some r → r.answer = none ∨ ∃ a, r.answer = some (.tile a))
      ∧ ∃ c m1 a, locate w u h (m0.dropAlloc t.id x) = .got c m1 ∧ holds x m0 c a
        ∧ queues s x m1 u h (a + BitVec.ofNat 64 c.off) (h.dataBytes w.d.toNat c.vol.size)
          { use := .write, align := c.vol.size, ncStop := true } n
    Clear s b t (stvolForm w) → (∀ x ∈ acts, s.quiet t.id x = true) →
    (acts.filterMap (needsTile w t s) ≠ [] → exec (.stvol w) s = .next (s.askTiles (acts.filterMap (needsTile w t s))))
    ∧ (acts.filterMap (needsTile w t s) = [] → (∀ a ∈ s.units.allocs, a.team = t.id → a.tid ∈ acts → a.answer ≠ none) →
        InTurn t.id stores acts (s.updThreads t.id acts (stvolForm w).atIssue) m' → Completes (.stvol w) s b t m'))

/-- LDS, STS and ATS (R190, R191) act on an aligned extent inside the allocation, lane after lane (R84): LDS answers from the lane's own
stores of the forwarding table over the bank's bytes, STS takes its place in the store queue and the forwarding table, and ATS acts at the
bank. The bank takes a lone store of an instruction from the queue with its token cleared. An extent that begins at or beyond the end of
the allocation stops the lane with ACCESS, a misaligned one inside it with ALIGN, and an aligned one that crosses the end with ACCESS.
The model's choices in it are log 6, log 9 and log 22. -/
def Obligations.ScratchpadCompletes : Prop := ∀ w : MWord,
  let n := widthRegs w.w
  let len := widthBytes w.w
  let inside (u : Team) (ea : W64) : Prop := ea.toNat % len = 0 ∧ ea.toNat + len ≤ u.launch.spadBytes ∧ ea.toNat < u.launch.spadBytes
  let code := bitsOf w.off.toNat 10 4
  let atsEa (h : Thread) : W64 := h.pair w.a.toNat + (w.off.setWidth 10).signExtend 64
  let ldsForm : Form := { w.form (w.srcBase :: w.srcIndex) [w.dst n] with long := true }
  let stsForm : Form := { w.form ([w.srcBase] ++ w.srcIndex ++ [w.srcData n]) [] with tok := tokenOf w.tk }
  let atsForm : Form := { w.form ([w.srcBase, w.srcB n] ++ if code = 11 then [({ r := w.d.toNat, n := n } : Span)] else []) [w.dst n] with long := true }
  let ldsGo (m : State) (team x : Nat) (h : Thread) : Prop := m.mayStart team x w.ord.toNat = true ∧ m.loadsRead team x = true
    ∧ m.seenQueued team x = false ∧ (w.ord.toNat % 2 = 1 → m.forwards team x (w.ea h).toNat len = [])
  let atsGo (m : State) (team x : Nat) : Prop := m.mayStart team x w.ord.toNat = true ∧ m.loadsRead team x = true
    ∧ m.storesSent team x = true ∧ m.seenOpen team x = false
  LaneByLane (.lds w) ldsForm (fun _ _ x m u h m' => ldsGo m u.id x h ∧ inside u (w.ea h)
    ∧ let own := m.forwards u.id x (w.ea h).toNat len
      m' = (m.updThread u.id x fun y => y.setRegs w.d.toNat (ofBytes (u.spadSeen m x (w.ea h).toNat len)) n).fresh.noteSeen u.id x m.nextId
        (own.map Req.id))
  ∧ (∀ (s : State) (t : Team) (x off : Nat), s.forwards t.id x off len = [] → t.spadSeen s x off len = t.spadBytesAt off len)
  ∧ LaneByLane (.sts w) stsForm (fun s _ x m u h m' => m.mayStart u.id x w.ord.toNat = true ∧ s.forwardsFull (u.coreOf x) = false
    ∧ inside u (w.ea h) ∧ m' = (m.postOp
      { id := 0, team := u.id, tid := x, core := u.coreOf x, kind := .sts, dst := 0, tok := tokenOf w.tk, bytes := len, flags := 0 }).postReq
      { id := 0, op := m.nextId, team := u.id, tid := x, core := u.coreOf x, kind := .sts, pa := (w.ea h).toNat, len := len,
        data := h.dataBytes w.d.toNat len, cmp := [], pos := 0, ord := w.ord.toNat, sc := w.sc.toNat, nc := false, cm := 0,
        va := (w.ea h).toNat, asid := u.asid, batch := s.nextId, stage := .queued, paths := [] })
  ∧ (∀ (s : State) (u : Team) (r : Req) (o : Op), s.team? u.id = some u → r.kind = .sts → s.op? r.op = some o →
    (s.flight.reqs.filter fun q => q.team = u.id && q.inQueue) = [r] → s.storeWaits r = false →
    s.drainGroup u.id (u.groupOf r.tid) = ((s.updTeam u.id fun v => v.spadPut r.pa r.data).tokenDone u.id r.tid o.tok).dropOp r.op)
  ∧ LaneByLane (.ats w) atsForm (fun _ _ x m u h m' => atsGo m u.id x ∧ inside u (atsEa h)
    ∧ let ea := atsEa h
      let old := u.spadLe ea.toNat len
      let xb := h.regsNat w.b.toNat n
      let o := atsOp code (w.w = 3)
      let r := if code = 11 then rmwNew 8 o.2 old (h.regsNat w.d.toNat n) xb else rmwNew o.1 o.2 old xb 0
      m' = (if r.2.2 then m.updTeam u.id fun v => v.spadPut ea.toNat (toBytes len r.1) else m).updThread u.id x fun y =>
        (y.setRegs w.d.toNat old n).addFlags r.2.1)
  ∧ (∀ (s : State) (b : Bundle) (t : Team) (x : Nat) (s1 : State) (t1 : Team) (h1 : Thread),
    let stops (i : Instr) (ea : W64) : Prop :=
      (t.launch.spadBytes ≤ ea.toNat → StopsWith i s t x h1 trapAccess)
      ∧ (ea.toNat < t.launch.spadBytes → ea.toNat % len ≠ 0 → StopsWith i s t x h1 trapAlign)
      ∧ (ea.toNat < t.launch.spadBytes → ea.toNat % len = 0 → t.launch.spadBytes < ea.toNat + len → StopsWith i s t x h1 trapAccess)
    (Alone s b t ldsForm x s1 t1 h1 → ldsGo s1 t.id x h1 → stops (.lds w) (w.ea h1))
    ∧ (Alone s b t stsForm x s1 t1 h1 → s1.mayStart t.id x w.ord.toNat = true → s.forwardsFull (t.coreOf x) = false →
      stops (.sts w) (w.ea h1))
    ∧ (Alone s b t atsForm x s1 t1 h1 → atsGo s1 t.id x → stops (.ats w) (atsEa h1)))

/-- PREF, FENCE and WACK (R194-R196): a prefetch is dropped or sent and never stops; a fence and a WACK complete once the accesses
that they wait for are far enough, and change nothing. CCTL and VOLINV (R197, R201): what leaves the caches of the extent; a page that is
not present changes nothing, nor does a tile outside its volume.
The model's choices in it are log 9 and log 70. -/
def Obligations.FencesAndCacheControlComplete : Prop :=
  (∀ (w : MWord) (s : State) (b : Bundle) (t : Team) (x : Nat) (s1 : State) (t1 : Team) (h1 : Thread),
  (Lane s b t (w.form [] []) x s1 t1 h1 →
    ((w.w = 0 → s.loadsRead t.id x = true ∧ s.seenOpen t.id x = false) → (w.w = 1 → ∀ r ∈ s.reqsOf t.id x, r.reads = true ∨ r.stage = .done) →
      (w.w ≠ 0 → w.w ≠ 1 → s.quiet t.id x = true) → (w.w ≠ 0 → 6 ≤ w.sc.toNat → s.outsideDone t.id x = true) →
      Completes (.fence w) s b t s)
    ∧ ((∀ o ∈ s.flight.ops, o.team = t.id → o.tid = x → o.kind.acked = true → w.sc.toNat ≤ 2 ∧ o.kind = .store
        ∧ ∀ r ∈ s.flight.reqs, r.op = o.id → ackedAt (if r.cm = 2 then 7 else w.sc.toNat) r = true) → Completes (.wack w) s b t s)
    ∧ ((∃ o ∈ s.flight.ops, o.team = t.id ∧ o.tid = x ∧ o.kind.acked = true ∧ 2 < w.sc.toNat) → exec (.wack w) s = .next (s.stall b)))
  ∧ (Lane s b t { w.form [w.srcBase] [] with tok := tokenOf w.tk } x s1 t1 h1 →
    let ea := w.eaPlain h1
    (∀ e m, checkAccess s1 (t.coreOf x) t.asid h1.priv ea 1 .read = (.error e, m) →
      Completes (.pref w) s b t (m.tokenDone t.id x (tokenOf w.tk)))
    ∧ (∀ a m, checkAccess s1 (t.coreOf x) t.asid h1.priv ea 1 .read = (.ok a, m) →
      ((attrTi a.attr || nonCoherent m (t.coreOf x) t.asid ea a.pa || isLost m a.pa) = true →
        Completes (.pref w) s b t (m.tokenDone t.id x (tokenOf w.tk)))
      ∧ ((attrTi a.attr || nonCoherent m (t.coreOf x) t.asid ea a.pa || isLost m a.pa) = false → m.tableFull (t.coreOf x) = false →
        Completes (.pref w) s b t (m.postAccess
          { id := 0, team := t.id, tid := x, core := t.coreOf x, kind := .plain, dst := 0, tok := tokenOf w.tk, bytes := 1, flags := 0 }
          { team := t.id, tid := x, core := t.coreOf x, asid := t.asid, batch := s.nextId, kind := .load, sc := w.sc.toNat }
          [{ va := ea, pa := a.pa, key := memKey m.ctl a.pa, len := 1, pos := 0, attr := a.attr, nc := false }])))))
  ∧ (∀ (w : MWord) (s : State) (b : Bundle) (t : Team) (x : Nat) (s1 : State) (t1 : Team)
    (h1 : Thread),
  let core := t.coreOf x
  let done (m : State) : State := m.tokenDone t.id x (tokenOf w.tk)
  let mine (c : Coh) (k : Copy) : Prop := (match k.who with
      | .l1 d => inExtent t core 1 d = true
      | .rdc d => 4 ≤ w.sc.toNat ∧ d = coreDie core
      | _ => False) ∧ (k.st = .loose ∨ c.managed.contains (k.line / 65536 * 65536) = true)
  (Lane s b t { w.form (if w.w = 1 then [] else [w.srcBase]) [] with tok := tokenOf w.tk } x s1 t1 h1 → s1.quiet t.id x = true →
    let ea := w.eaPlain h1
    (w.w = 1 → ∃ l, (∀ k, k ∈ l ↔ k ∈ s1.coh.copies ∧ ¬mine s1.coh k)
      ∧ Completes (.cctl w) s b t (done { s1 with coh := { s1.coh with copies := l } }))
    ∧ (∀ e m, w.w ≠ 1 → checkAccess s1 core t.asid h1.priv ea 1 .read = (.error e, m) → e.code = trapPageFault →
      Completes (.cctl w) s b t (done m))
    ∧ (∀ a m, w.w ≠ 1 → checkAccess s1 core t.asid h1.priv ea 1 .read = (.ok a, m) →
      let line := lineOf (memKey m.ctl a.pa)
      let nc := nonCoherent m core t.asid ea a.pa
      (w.w = 0 → nc = false → Completes (.cctl w) s b t (done m))
      ∧ (w.w = 0 → nc = true → ∃ l, (∀ k, k ∈ l ↔ k ∈ m.coh.copies ∧ ¬(k.line = line ∧ mine m.coh k))
          ∧ Completes (.cctl w) s b t (done { m with coh := { m.coh with copies := l } }))
      ∧ (∀ k, w.w = 2 → m.coh.copy? .hostPort line = some k → k.modified = true → nc = true →
          Completes (.cctl w) s b t (done { m with mem := putBytes m.mem line k.data, coh := m.coh.setCopy { k with st := .e } }))
      ∧ (w.w = 2 → (∀ k, m.coh.copy? .hostPort line = some k → k.modified = false ∨ nc = false) → Completes (.cctl w) s b t (done m))
      ∧ (3 ≤ w.w.toNat →
          let page := match tlbHit m.units.tlb (unitsOf core) t.asid.toNat (bitsOf ea.toNat 0 57) with
            | some e => (memKey m.ctl e.pa, e.len)
            | none => (line, 128)
          Completes (.cctl w) s b t (done { m with units := { m.units with icache := m.units.icache.filter fun e =>
            !(inExtent t core (max w.sc.toNat 1) e.1 && page.1 ≤ e.2.1 && e.2.1 < page.1 + page.2) } }))))
  ∧ (Lane s b t { w.form (w.srcBase :: if w.w = 0 then mCoords w else []) [] with tok := tokenOf w.tk } x s1 t1 h1 →
    s1.quiet t.id x = true →
    let desc := h1.pair w.a.toNat
    let c (i : Nat) : Nat := (h1.reg (w.b.toNat + i)).toNat
    let reach (d : Nat) : Bool := if w.sc.toNat ≤ 2 then d = core else inExtent t core w.sc.toNat d
    let drops (m : State) (hit : Clb → Bool) : State := done { m with units := { m.units with
      clb := m.units.clb.filter fun e => !(reach e.core && hit e)
      volumes := m.units.volumes.filter fun v => !(w.w = 1 && reach v.1 && v.2.1 = t.asid.toNat && v.2.2.1 = desc) } }
    let mine (e : Clb) : Bool := e.asid = t.asid.toNat && e.desc = desc
    (w.w = 1 → Completes (.volinv w) s b t (drops s1 mine))
    ∧ (∀ d m v, w.w ≠ 1 → volumeRead t1 h1 s1 desc = .got d m → volumeOf d = some v →
      (c 0 < v.dimX ∧ c 1 < v.dimY ∧ c 2 < v.dimZ →
        Completes (.volinv w) s b t (drops m fun e => mine e && e.tile = tileKey (c 0 / 8) (c 1 / 8) (c 2 / 8)))
      ∧ (¬(c 0 < v.dimX ∧ c 1 < v.dimY ∧ c 2 < v.dimZ) → Completes (.volinv w) s b t (drops m fun _ => false)))))


/-! ## The slice engine's instructions (19 R355-R364) -/

/-- ATOM, RED and CAS4 (R355-R357, R361): a lane that passes its checks posts its read-modify-write for the home, lane after lane (R84). An
address that fails R184 stops the lane of an ATOM or a RED, one on a page that gives it no AC bit with ATOMIC_UNSUPPORTED. A CAS4 stops with
ACCESS where its block ends beyond the allocation, with ALIGN where it is not on 16 bytes, with ILLEGAL_OPERAND for an entry that breaks a
rule or a line named twice, and as its first entry that fails R184. -/
def Obligations.AtomicsComplete : Prop :=
  (∀ (w : RWord),
    let op := bitsOf w.md.toNat 0 4
    let ord := bitsOf w.md.toNat 4 2
    let ty := w.ty.toNat
    let n := tyRegs ty
    let bytes := 4 * n
    let ask : Ask := { use := .rmw, align := bytes, ac := some (rmwAc op) }
    let atomForm : Form := { w.form ([w.srcA 2, w.srcB n] ++ if op = 8 then [w.srcC n] else []) [w.dst n] with long := true }
    let redForm : Form := { w.form [w.srcA 2, w.srcB n] [] with tok := tokenOf w.tk }
    let sends (s : State) (x : Nat) (m0 : State) (u : Team) (h : Thread) (kind : OpKind) (dst : Nat) (tok : Option Nat) (m' : State) : Prop :=
      m0.mayStart u.id x ord = true ∧ m0.tableFull (u.coreOf x) = false
      ∧ ∃ ps m, u.reach m0 h (h.pair w.a.toNat) bytes ask = (.ok (some ps), m) ∧ m.ioWaits u.id x ps = false ∧ m' = m.postAccess
        { id := 0, team := u.id, tid := x, core := u.coreOf x, kind := kind, dst := dst, tok := tok, bytes := bytes, flags := 0 }
        { team := u.id, tid := x, core := u.coreOf x, asid := u.asid, batch := s.nextId, kind := .rmw op ty, ord := ord, sc := w.rm.toNat,
          data := h.dataBytes w.b.toNat bytes, cmp := h.dataBytes w.c.toNat bytes } ps
    LaneByLane (.atom w) atomForm (fun s _ x m0 u h m' => sends s x m0 u h (.atom n) w.d.toNat none m')
    ∧ LaneByLane (.red w) redForm (fun s _ x m0 u h m' => sends s x m0 u h .red 0 (tokenOf w.tk) m')
    ∧ (∀ (s : State) (b : Bundle) (t : Team) (x : Nat) (s1 : State) (t1 : Team) (h1 : Thread) (code : Nat),
      s1.mayStart t.id x ord = true → s1.tableFull (t.coreOf x) = false → Refused t1 s1 h1 (h1.pair w.a.toNat) bytes ask code →
      (Alone s b t atomForm x s1 t1 h1 → StopsWith (.atom w) s t x h1 code)
      ∧ (Alone s b t redForm x s1 t1 h1 → StopsWith (.red w) s t x h1 code)))
  ∧ (∀ (w : MWord),
    let n := w.w.toNat + 1
    let form : Form := { w.form [w.srcB 1] [w.dst 1] with long := true }
    let block (h : Thread) : Nat := (h.reg w.b.toNat).toNat
    let entries (u : Team) (h : Thread) : List CasEntry := (List.range n).map (casEntry u (block h))
    let formed (u : Team) (h : Thread) : Prop := block h % 16 = 0 ∧ block h + 64 + 128 * n ≤ u.launch.spadBytes
      ∧ (∀ e ∈ entries u h, e.ok = true) ∧ ((entries u h).map fun e => e.va.toNat / 128).eraseDups.length = n
    LaneByLane (.cas4 w) form (fun s _ x m0 u h m' => formed u h
      ∧ m0.storesSent u.id x = true ∧ m0.mayStart u.id x w.ord.toNat = true ∧ m0.tableFull (u.coreOf x) = false
      ∧ ∃ q l m, casReach u h m0 (entries u h) = (.ok (some (q :: l)), m)
        ∧ ((q :: l).map fun y => lineOf y.2.key).eraseDups.length = n ∧ ((q :: l).map fun y => spanKey y.2.key).eraseDups.length = 1
        ∧ m.ioWaits u.id x ((q :: l).map Prod.snd) = false
        ∧ m' = (m.postOp
          { id := 0, team := u.id, tid := x, core := u.coreOf x, kind := .cas4, dst := w.d.toNat, tok := none, bytes := 0, flags := 0 }).postReq
          { id := 0, op := m.nextId, team := u.id, tid := x, core := u.coreOf x,
            kind := .cas4 ((q :: l).map fun y => (y.2.key, y.1.tag, y.1.len)), pa := q.2.pa, len := q.2.len,
            data := (((List.range n).zip (entries u h)).map fun y => u.spadBytesAt (block h + 64 + 128 * y.1) y.2.len).flatten, cmp := [],
            pos := 0, ord := w.ord.toNat, sc := w.sc.toNat, nc := false, cm := attrCm q.2.attr, va := q.2.va.toNat, asid := u.asid,
            batch := s.nextId, stage := .queued, paths := [] })
    ∧ (∀ (s : State) (b : Bundle) (t : Team) (x : Nat) (s1 : State) (t1 : Team) (h1 : Thread),
      Alone s b t form x s1 t1 h1 → s1.storesSent t.id x = true →
      let stops (code : Nat) : Prop := StopsWith (.cas4 w) s t x h1 code
      let inside := block h1 + 64 + 128 * n ≤ t1.launch.spadBytes
      let legal := (∀ e ∈ entries t1 h1, e.ok = true) ∧ ((entries t1 h1).map fun e => e.va.toNat / 128).eraseDups.length = n
      let starts := s1.mayStart t.id x w.ord.toNat = true ∧ s1.tableFull (t.coreOf x) = false
      (¬inside → stops trapAccess)
      ∧ (inside → block h1 % 16 ≠ 0 → stops trapAlign)
      ∧ (inside → block h1 % 16 = 0 → ¬legal → stops trapIllegalOperand)
      ∧ (∀ code e r, inside → block h1 % 16 = 0 → legal → starts → entries t1 h1 = e :: r →
        Refused t1 s1 h1 e.va e.len { use := .rmw, align := 16, noHost := true, ncStop := true, ac := some 10 } code → stops code)
      ∧ (∀ l m, formed t1 h1 → starts → casReach t1 h1 s1 (entries t1 h1) = (.ok (some l), m) →
        (l.map fun y => lineOf y.2.key).eraseDups.length = n → (l.map fun y => spanKey y.2.key).eraseDups.length ≠ 1 → stops trapAtomicSpan)))

/-- GATH, SCAT and SCATA (R358-R360): a lane with a legal list whose elements all pass their checks posts one request for each, from
PROG on, and PROG returns to 0; lane after lane (R84). A count of 0, above 256 or not above PROG stops the lane with ILLEGAL_OPERAND, a list
or an array beyond the allocation with ACCESS, a misaligned one with ALIGN. Where an element fails R184, the elements before it are posted,
PROG names it, and the lane stops with the code of the check.
The model's choice in it is log 20. -/
def Obligations.ListOperationsComplete : Prop := ∀ w : MWord,
  let size := widthBytes w.w
  let list (h : Thread) : Nat := (h.reg w.b.toNat).toNat
  let count (h : Thread) : Nat := (h.reg (w.b.toNat + 1)).toNat
  let arr (h : Thread) : Nat := (h.reg (w.b.toNat + 2)).toNat
  let prog (h : Thread) : Nat := h.prog.toNat
  let counted (h : Thread) : Prop := 1 ≤ count h ∧ count h ≤ 256 ∧ prog h < count h
  let held (u : Team) (h : Thread) : Prop := list h + 4 * count h ≤ u.launch.spadBytes ∧ arr h + size * count h ≤ u.launch.spadBytes
  let aligned (h : Thread) : Prop := list h % 4 = 0 ∧ arr h % size = 0
  let may (m : State) (u : Team) (x : Nat) : Prop := m.acqPending u.id x = false ∧ m.quiet u.id x = true ∧ m.tableFull (u.coreOf x) = false
  let off12 : W64 := (w.off.setWidth 12).signExtend 64
  let o := scataOp (bitsOf w.off.toNat 12 2) w.w.toNat
  let args (h : Thread) (off : W64) (use : Use) (ac : Option Nat) : ListArgs :=
    { size := size, base := h.pair w.a.toNat + off, use := use, ac := ac, list := list h }
  let stored (u : Team) (h : Thread) (i : Nat) : List Byte := u.spadBytesAt (arr h + size * i) size
  let acPasses (m0 : State) (u : Team) (h : Thread) (a : ListArgs) (m : State) : Prop :=
    (a.ac = none ∧ m = m0) ∨ (a.ac ≠ none ∧ listAc a u h m0 (prog h) (count h - prog h) = (none, m))
  let sends (s : State) (x : Nat) (m : State) (u : Team) (kind : OpKind) (dst : Nat) (tok : Option Nat) (req : ReqKind)
      (data : Nat → List Byte) (l : List (Nat × List Part)) : State :=
    ((m.postOp { id := 0, team := u.id, tid := x, core := u.coreOf x, kind := kind, dst := dst, tok := tok, bytes := size, flags := 0 }).postList
      m.nextId { team := u.id, tid := x, core := u.coreOf x, asid := u.asid, batch := s.nextId, kind := req, sc := w.sc.toNat } size data
      l).updThread u.id x fun y => { y with prog := 0 }
  let posts (s : State) (x : Nat) (m0 : State) (u : Team) (h : Thread) (a : ListArgs) (kind : OpKind) (dst : Nat) (tok : Option Nat)
      (req : ReqKind) (data : Nat → List Byte) (m' : State) : Prop :=
    counted h ∧ held u h ∧ aligned h ∧ may m0 u x ∧ ∃ m1 e l m, acPasses m0 u h a m1
      ∧ listFrom a u h m1 (prog h) (count h - prog h) = (e :: l, .all, m) ∧ ((e :: l).any fun y => m.ioWaits u.id x y.2) = false
      ∧ m' = sends s x m u kind dst tok req data (e :: l)
  let gathForm : Form := { listForm w [w.dst 1] with long := true }
  let putForm : Form := { listForm w [] with tok := tokenOf w.tk }
  let gathArgs (h : Thread) : ListArgs := args h (w.off.signExtend 64) .read none
  let scatArgs (h : Thread) : ListArgs := args h (w.off.signExtend 64) .write none
  let scataArgs (h : Thread) : ListArgs := args h off12 .rmw (some (rmwAc o.1))
  LaneByLane (.gath w) gathForm (fun s _ x m0 u h m' =>
    posts s x m0 u h (gathArgs h) (.gath (count h) size (arr h)) w.d.toNat none .load (fun _ => []) m')
  ∧ LaneByLane (.scat w) putForm (fun s _ x m0 u h m' => posts s x m0 u h (scatArgs h) .scat 0 (tokenOf w.tk) .scat (stored u h) m')
  ∧ LaneByLane (.scata w) putForm (fun s _ x m0 u h m' =>
    posts s x m0 u h (scataArgs h) .scata 0 (tokenOf w.tk) (.rmw o.1 o.2) (stored u h) m')
  ∧ (∀ (s : State) (b : Bundle) (t : Team) (x : Nat) (s1 : State) (t1 : Team) (h1 : Thread),
    let stops (i : Instr) (a : ListArgs) : Prop :=
      (¬counted h1 → StopsWith i s t x h1 trapIllegalOperand)
      ∧ (counted h1 → ¬held t1 h1 → StopsWith i s t x h1 trapAccess)
      ∧ (counted h1 → held t1 h1 → ¬aligned h1 → StopsWith i s t x h1 trapAlign)
      ∧ (counted h1 → held t1 h1 → aligned h1 → may s1 t1 x →
        (∀ code m, acPasses s1 t1 h1 a m → Refused t1 m h1 (a.at_ t1 (prog h1)) size { use := a.use, align := size } code →
          StopsWith i s t x h1 code)
        ∧ (∀ m1 l e m, acPasses s1 t1 h1 a m1 → listFrom a t1 h1 m1 (prog h1) (count h1 - prog h1) = (l, .stop e, m) →
          (l.any fun y => m.ioWaits t.id x y.2) = false → StopsWith i s t x h1 e.code
          ∧ ∃ s' h', exec i s = .next s' ∧ s'.thread? t.id x = some h' ∧ h'.prog = BitVec.ofNat 64 (prog h1 + l.length))
        ∧ (∀ e m, a.ac ≠ none → listAc a t1 h1 s1 (prog h1) (count h1 - prog h1) = (some e, m) → StopsWith i s t x h1 trapAtomicUnsupported))
    (Alone s b t gathForm x s1 t1 h1 → stops (.gath w) (gathArgs h1))
    ∧ (Alone s b t putForm x s1 t1 h1 → stops (.scat w) (scatArgs h1) ∧ stops (.scata w) (scataArgs h1)))

/-- SFLUSH, REGMODE and RECLAIM (R362-R364), lane after lane (R84): the lines of a range recalled and discarded, a region switched, a LOST
line rewritten with its tag raised. A SFLUSH stops with ILLEGAL_OPERAND for a length that is not a number of lines, with ACCESS for an address
that is not canonical and with ALIGN for one that is not on a line.
The model's choice in it is log 28. -/
def Obligations.RegionOperationsComplete : Prop := ∀ w : MWord,
  let done (m : State) (u : Team) (x : Nat) : State := m.tokenDone u.id x (tokenOf w.tk)
  let bytes (h : Thread) : Nat := (h.reg w.b.toNat).toNat
  let region (a : Xlat) : Nat := a.pa / 65536 * 65536
  let flushForm : Form := { w.form [w.srcBase, w.srcB 1] [] with tok := tokenOf w.tk }
  LaneByLane (.sflush w) flushForm (fun _ _ x m0 u h m' =>
    let ea := w.eaPlain h
    m0.quiet u.id x = true ∧ bytes h % 128 = 0 ∧ canonical ea = true ∧ ea.toNat % 128 = 0
    ∧ ∃ l m, flushLines u h m0 ea (bytes h / 128) = (.ok l, m) ∧ (∀ y ∈ m.coh.txns, y.line ∉ l)
      ∧ ((w.w ≠ 1 ∧ m' = done (m.flushFrames l) u x)
        ∨ (w.w = 1 ∧ m' = done (l.foldl (fun m a => m.discard a fun d => w.sc = 5 || d = coreDie (u.coreOf x)) m) u x)))
  ∧ LaneByLane (.regmode w) { w.form [w.srcBase] [] with tok := tokenOf w.tk, priv := true } (fun _ _ x m0 u h m' =>
    let ea := w.eaPlain h
    regmodeUsed m0 (u.coreOf x) u.asid = true ∧ canonical ea = true ∧ ea.toNat % 65536 = 0
    ∧ ∃ a m, checkAccess m0 (u.coreOf x) u.asid h.priv ea 1 .read = (.ok a, m) ∧ spaceOf m.ctl a.pa = .device
      ∧ (∀ y ∈ m.coh.txns, ¬(region a ≤ y.line ∧ y.line < region a + 65536))
      ∧ m' = done (m.switchRegion (region a) (w.w = 0)) u x)
  ∧ LaneByLane (.reclaim w) { w.form [w.srcBase, w.srcB 1] [] with tok := tokenOf w.tk, priv := true } (fun _ _ x m0 u h m' =>
    m0.quiet u.id x = true ∧ bytes h % 16 = 0 ∧ bytes h + 128 ≤ u.launch.spadBytes
    ∧ ∃ p ps m, u.reach m0 h (w.eaPlain h) 128 { use := .write, align := 128, reclaim := true } = (.ok (some (p :: ps)), m)
      ∧ let m1 := m.putLine p.key (u.spadBytesAt (bytes h) 128)
        m' = done { m1 with coh := { m1.coh with lost := m1.coh.lost.filter fun y => y ≠ p.key } } u x)
  ∧ (∀ (s : State) (b : Bundle) (t : Team) (x : Nat) (s1 : State) (t1 : Team) (h1 : Thread), Alone s b t flushForm x s1 t1 h1 →
    (bytes h1 % 128 ≠ 0 → StopsWith (.sflush w) s t x h1 trapIllegalOperand)
    ∧ (bytes h1 % 128 = 0 → canonical (w.eaPlain h1) = false → StopsWith (.sflush w) s t x h1 trapAccess)
    ∧ (bytes h1 % 128 = 0 → canonical (w.eaPlain h1) = true → (w.eaPlain h1).toNat % 128 ≠ 0 → StopsWith (.sflush w) s t x h1 trapAlign))

/-! ## Rooms (21 R371-R389) -/

/-- RBIND, RUNBIND and RSTAT (R382, R389), lane after lane (R84): d takes the status, and a legal descriptor makes the region live; an idle
region's indices go back to its descriptor; the snapshot is a long-latency result.
The model's choices in it are log 29 and log 9. -/
def Obligations.RegionsBindAndReport : Prop := ∀ w : RWord,
  let status (n : Nat) (m : State) (u : Team) (x : Nat) : State := m.updThread u.id x fun y => y.setReg w.d.toNat (BitVec.ofNat 32 n)
  let here (m : State) (pa : Nat) : List Region := m.ushers.regions.filter fun y => home y.desc = home pa
  LaneByLane (.rbind w) (w.form [w.srcA 2] [w.dst 1]) (fun _ _ x m0 u h m' => m0.quiet u.id x = true
    ∧ ∃ pa m r, roomDesc u h m0 (h.pair w.a.toNat) = .got pa m ∧ isLost m pa = false ∧ m.coreStores (u.coreOf x) (lineOf pa) = []
      ∧ let d := m.readHome (lineOf pa)
        regionOf pa ((d.2.drop (pa - lineOf pa)).take 64) = some r
        ∧ ((m.region? pa ≠ none ∧ m' = status 1 m u x)
          ∨ (m.region? pa = none ∧ 64 ≤ (here m pa).length ∧ m' = status 2 m u x)
          ∨ (m.region? pa = none ∧ (here m pa).length < 64
            ∧ m' = status 0 { d.1 with ushers := { d.1.ushers with regions := d.1.ushers.regions ++ [r] } } u x)))
  ∧ LaneByLane (.runbind w) (w.form [w.srcA 2] [w.dst 1]) (fun _ _ x m0 u h m' => m0.quiet u.id x = true
    ∧ ∃ pa m, roomDesc u h m0 (h.pair w.a.toNat) = .got pa m
      ∧ ((m.region? pa = none ∧ m' = status 1 m u x)
        ∨ ∃ r, m.region? pa = some r
          ∧ (((r.mode ≠ none ∨ r.q ≠ []) ∧ m' = status 2 m u x)
            ∨ (r.mode = none ∧ r.q = [] ∧ m' = status 0 { m.writeIndices r with
                ushers := { (m.writeIndices r).ushers with regions := (m.writeIndices r).ushers.regions.filter fun y => y.desc ≠ pa } } u x))))
  ∧ LaneByLane (.rstat w) { w.form [w.srcA 2] [w.dst 2] with long := true } (fun _ _ x m0 u h m' =>
    ∃ pa m, roomDesc u h m0 (h.pair w.a.toNat) = .got pa m
      ∧ let v := Region.stat (m.region? pa) (bitsOf w.md.toNat 0 1)
        m' = { m.fresh with flight := { m.flight with results := m.flight.results ++
          [{ id := m.nextId, team := u.id, tid := x, flags := 0,
             regs := [(w.d.toNat, BitVec.ofNat 32 v), (w.d.toNat + 1, BitVec.ofNat 32 (v / 2 ^ 32))] }] } })

/-- ENTER, ETRY, ENTERM and LEAVE (R378, R383-R385): a lane sends its demand, leaves the bundle while it waits, and with its answer goes
on with the pairs in its held set; a LEAVE with nothing to fill gives the pair up and sends its message.
The model's choice in it is log 29. -/
def Obligations.RoomsAreEnteredAndLeft : Prop :=
  (∀ (i : Instr) (f : Form) (ask : Team → Thread → State → Found Demand) (s : State) (b : Bundle) (t : Team) (x : Nat),
    ((∃ w : RWord, i = .enter w ∧ f = w.form (w.srcA 2 :: countSpan w) [] ∧ ask = enterDemand w .enter)
      ∨ (∃ w : RWord, i = .etry w ∧ f = w.form (w.srcA 2 :: countSpan w) [] ∧ ask = enterDemand w (.etry w.c.toNat))
      ∨ (∃ w : RWord, i = .enterm w ∧ ask = entermDemand w
          ∧ f = { w.form (((List.range (bitsOf w.md.toNat 0 2 + 1)).map fun j => { r := w.a.toNat + 2 * j, n := 2, fe := w.feA })
                ++ [w.srcB 1]) [] with bad := w.a.toNat % 8 ≠ 0 })) →
    Clear s b t f → t.active f b.tids = [x] →
    (∀ h d m, s.demand? t.id x = none → t.thread? x = some h → ask t h s = .got d m →
      exec i s = .next { m.postDemands [d] with bundles := trimBundles [b.id] b.tids false m.bundles })
    ∧ (∀ d, s.demand? t.id x = some d → d.reached = false → exec i s = .next (s.stall b))
    ∧ (∀ d a, s.demand? t.id x = some d → d.reached = true → d.team = t.id → d.tid = x → d.answer = some a →
        Completes i s b t (s.enterDone d a))
    ∧ (∀ d, s.demand? t.id x = some d → d.reached = true → d.answer = none → b.tids = [x] →
        ∃ s', exec i s = .next s' ∧ Leaves b t x .usher s s'))
  ∧ (∀ (w : RWord) (s : State) (b : Bundle) (t : Team) (x : Nat) (s1 : State) (t1 : Team) (h1 : Thread),
    Lane s b t (w.form [w.srcA 2] []) x s1 t1 h1 →
    (hasFill w t s x = true → exec (.leave w) s = .next (s.fillAll w t b [x]))
    ∧ (∀ pa r e m, hasFill w t s x = false → leaving w t1 h1 s1 = .got (pa, r, e) m → m.quiet t.id x = true →
      Completes (.leave w) s b t { m.fresh.updThread t.id x (fun y => y.dropHeld e) with
        ushers := { m.ushers with leaves := m.ushers.leaves ++ [{ id := m.nextId, team := t.id, tid := x, desc := pa }] } }))

/-- PUSH, POP and RACC (R386-R388), lane after lane (R84): an occupant stores the element at its slot, takes the element at the pop index or
at the index that it has kept, or adds to the pending reduction; without a slot or an element the predicate answers false. Its pair, the
region and the element pass the checks of R381.
The model's choices in it are log 29, log 83 and log 9. -/
def Obligations.RoomsHoldElements : Prop := ∀ w : RWord,
  let set (v : Bool) (m : State) (u : Team) (x : Nat) : State := m.updThread u.id x fun y => y.setPred w.c.toNat v
  let reaches (m0 : State) (u : Team) (x : Nat) (h : Thread) (ea : W64) (n : Nat) (k : Ask) (ps : List Part) (m1 : State) : Prop :=
    m0.mayStart u.id x 0 = true ∧ m0.tableFull (u.coreOf x) = false ∧ u.reach m0 h ea n k = (.ok (some ps), m1) ∧ m1.ioWaits u.id x ps = false
  let ask (r : Region) (use : Use) : Ask := { use := use, align := r.esize, ncStop := true }
  let d := dataSpan w.d false
  LaneByLane (.push w) (w.form [w.srcA 2, dataSpan w.b w.feB] []) (fun s _ x m0 u h m' =>
    ∃ pa m r e, roomDesc u h m0 (h.pair w.a.toNat) = .got pa m
      ∧ occupant m u h (h.pair w.a.toNat) pa 3 true w.b.toNat = .ok (r, e)
      ∧ let d := h.dataBytes w.b.toNat r.esize
        let stores (m1 : State) (ps : List Part) : State := m1.postAccess
          { id := 0, team := u.id, tid := x, core := u.coreOf x, kind := .store, dst := 0, tok := none, bytes := d.length, flags := 0 }
          { team := u.id, tid := x, core := u.coreOf x, asid := u.asid, batch := s.nextId, kind := .store, data := d } ps
        (e.mode ≠ 5 ∧ e.left ≠ 0 ∧ ∃ ps m1, reaches m u x h (r.elem e.next.toNat) d.length (ask r .write) ps m1
          ∧ m' = set true ((stores m1 ps).updThread u.id x fun y => y.setHeld e { e with next := e.next + 1, left := e.left - 1 }) u x)
        ∨ (e.mode = 5 ∧ (r.rtail - r.pidx).toNat < r.n ∧ ∃ ps m1, reaches m u x h (r.elem r.rtail.toNat) d.length (ask r .write) ps m1
          ∧ m' = set true ((stores m1 ps).setRegion { r with rtail := r.rtail + 1 }) u x)
        ∨ ((e.mode ≠ 5 → e.left = 0) ∧ (e.mode = 5 → r.n ≤ (r.rtail - r.pidx).toNat) ∧ m' = set false m u x))
  ∧ LaneByLane (.pop w) { w.form [w.srcA 2] [{ d with fe := false }] with long := true } (fun s _ x m0 u h m' =>
    m0.mayStart u.id x 0 = true ∧ m0.popping u.id x = false
    ∧ ∃ pa m r e, roomDesc u h m0 (h.pair w.a.toNat) = .got pa m
      ∧ occupant m u h (h.pair w.a.toNat) pa 4 true w.d.toNat = .ok (r, e)
      ∧ let i := if e.left = 1 then e.next else r.pidx
        (e.left ≠ 1 ∧ r.pidx = r.rtail ∧ m' = m.updThread u.id x fun y => (y.markFull d.regs).setPred w.c.toNat false)
        ∨ ((e.left = 1 ∨ r.pidx ≠ r.rtail) ∧ ∃ p ps m1,
          reaches (if e.left = 1 then m else m.setRegion { r with pidx := r.pidx + 1 }) u x h (r.elem i.toNat) r.esize (ask r .read) (p :: ps) m1
          ∧ m' = (m1.postAccess
            { id := 0, team := u.id, tid := x, core := u.coreOf x, kind := .pop ((r.esize + 3) / 4) e.desc i, dst := w.d.toNat, tok := none,
              bytes := r.esize, flags := 0 }
            { team := u.id, tid := x, core := u.coreOf x, asid := u.asid, batch := s.nextId, kind := .load } (p :: ps)).updThread u.id x
              fun y => (y.setHeld e { e with next := 0, left := 0 }).setPred w.c.toNat true))
  ∧ LaneByLane (.racc w) (w.form [w.srcA 2, w.srcB 1, dataSpan w.c w.feC] []) (fun _ _ x m0 u h m' =>
    let n := (h.reg w.b.toNat).toNat
    ∃ pa m r e p ps m1, roomDesc u h m0 (h.pair w.a.toNat) = .got pa m
      ∧ occupant m u h (h.pair w.a.toNat) pa 2 false w.c.toNat = .ok (r, e) ∧ n < r.n
      ∧ u.reach m h (r.elem n) r.esize (ask r .write) = (.ok (some (p :: ps)), m1)
      ∧ (r.pend.any (fun y => y.1 = p.key) = true ∨ m1.storesOpen (u.coreOf x) u.id x p.key = false)
      ∧ m' = m1.setRegion (r.reduce p.key (m1.peekLe p.key r.esize) (h.regsNat w.c.toNat ((r.esize + 3) / 4))))

/-! ## Cues (17 R314-R331) -/

/-- CUENEW, COPY, COPYT and WLKGO (R324): a legal definition takes a slot, every active lane receives the ID, and all but CUENEW arm the
cue; COPYT answers 0xFFFF_FFFF where no slot can be taken.
The model's choice in it is log 31. -/
def Obligations.CuesAreDefined : Prop := ∀ (w : CWord) (s : State) (b : Bundle) (t : Team) (l : List Nat) (s1 : State) (t1 : Team)
    (h : Thread) (c : Cue) (m : State),
  let f : Form := { defineForm w with quad := some w.b.toNat }
  let gives (v : W32) (m : State) : State := m.updThreads t.id l fun y => y.setReg w.d.toNat v
  let id := c.ident t1
  Converged s b t l → t1.thread? (l.headD 0) = some h → s1.quiet t.id h.tid = true →
  (OneGroup s b t f l s1 t1 →
    (defineCue w none w.md.toNat t1 h s1 = .made c m → Completes (.cuenew w) s b t (gives id m))
    ∧ (defineCue w (some 0) 0 t1 h s1 = .made c m →
      Completes (.copy w) s b t ((gives id m).arm c.core c.slot) ∧ Completes (.copyt w) s b t ((gives id m).arm c.core c.slot))
    ∧ (defineCue w (some 0) 0 t1 h s1 = .full m →
      Completes (.copyt w) s b t (gives 0xFFFFFFFF m) ∧ exec (.copy w) s = .next (s.stall b)))
  ∧ (OneGroup s b t { w.form [w.srcA, w.srcC] [{ r := w.d.toNat, n := 1 }] with quad := some w.b.toNat } l s1 t1 →
    defineCue w (some 1) 0 t1 h s1 = .made c m → Completes (.wlkgo w) s b t ((gives id m).arm c.core c.slot))

/-- CUEDEP, CUEARM and CUEKILL (R325-R327): an edge is recorded, and serves at once when its predecessor is DONE; arming and killing
answer the state that results, and 0 for a stale ID. CUEKILL waits while the cue still has work that the kill must not cut.
The model's choice in it is log 31. -/
def Obligations.CuesAreCommanded : Prop := ∀ (w : CWord) (s : State) (b : Bundle) (t : Team) (l : List Nat) (s1 : State) (t1 : Team)
    (h : Thread),
  let gives (v : Nat) (m : State) : State := m.updThreads t.id l fun y => y.setReg w.d.toNat (BitVec.ofNat 32 v)
  let code (m : State) (c : Cue) : Nat := ((m.cue? c.core c.slot).map fun y => y.st.code).getD 0
  Converged s b t l → t1.thread? (l.headD 0) = some h →
  (∀ x, OneGroup s b t (w.form [w.srcA] []) l s1 t1 → s1.cueOf t1 (h.reg (w.a.toNat + 1)) = some x →
    (x.st = .defined ∨ x.st = .armed) → x.reached < x.preds →
    let s2 := s1.updCue x.core x.slot fun y => { y with reached := y.reached + 1 }
    (s1.cueOf t1 (h.reg w.a.toNat) = none → Completes (.cuedep w) s b t (s2.decrement x.core x.slot x.gen))
    ∧ (∀ p, s1.cueOf t1 (h.reg w.a.toNat) = some p → ¬(p.core = x.core ∧ p.slot = x.slot) → p.edges.length < 8 →
      let s3 := s2.updCue p.core p.slot fun z => { z with edges := z.edges ++ [(x.core, x.slot, x.gen)] }
      (p.st = .done → Completes (.cuedep w) s b t (s3.decrement x.core x.slot x.gen))
      ∧ (p.st ≠ .done → Completes (.cuedep w) s b t s3)))
  ∧ (OneGroup s b t (idForm w [{ r := w.d.toNat, n := 1 }]) l s1 t1 →
    (s1.quiet t.id h.tid = true →
      (s1.cueOf t1 (h.reg w.a.toNat) = none → Completes (.cuearm w) s b t (gives 0 s1))
      ∧ (∀ c, s1.cueOf t1 (h.reg w.a.toNat) = some c → Completes (.cuearm w) s b t (gives (code (s1.rearm c) c) (s1.rearm c))))
    ∧ (s1.cueOf t1 (h.reg w.a.toNat) = none → Completes (.cuekill w) s b t (gives 0 s1))
    ∧ (∀ c y, s1.cueOf t1 (h.reg w.a.toNat) = some c → (s1.killCue c).cue? c.core c.slot = some y →
      let joins := (c.st = .active ∨ c.st = .faulted ∨ c.st = .killed) ∧ c.kind ≠ .walker
      (y.killing = true → exec (.cuekill w) s = .next ((s.killCue c).stall b))
      ∧ (y.killing = false → joins →
          Completes (.cuekill w) s b t (gives y.st.code ((s1.killCue c).enterFlags t.id h.tid y.flags)))
      ∧ (y.killing = false → ¬joins → Completes (.cuekill w) s b t (gives y.st.code (s1.killCue c)))))

/-- CUEWAIT and CUEPROG (R328, R329): a lane whose counter has reached its target goes on with the flags that it joins, another one
waits; the progress or the state of a cue arrives as a long-latency result. That the waiting lane leaves its bundle at the instruction is the
model's reading (log 74).
The model's choices in it are log 31, log 74 and log 9. -/
def Obligations.CuesAreAwaited : Prop := ∀ (w : IWord) (s : State) (b : Bundle) (t : Team) (x : Nat),
  let byReg := bitOf w.md.toNat 0
  let f := w.form (w.srcA 2 :: if byReg then [{ r := w.d.toNat, n := 2 }] else []) []
  (∀ h p ps m, Solo s b t f x h → s.quiet t.id x = true →
    let target : W64 := if byReg then h.pair w.d.toNat else w.imm.setWidth 64
    t.reach s h (h.pair w.a.toNat) 8 { align := 8 } = (.ok (some (p :: ps)), m) → m.unlanded (t.coreOf x) (p :: ps) = false →
    let r := m.readNat (t.coreOf x) (p :: ps)
    (target.toNat ≤ r.2 → Completes (.cuewait w) s b t (r.1.enterFlags t.id x
      (r.1.joinFlags t.id (t.coreOf x) (cueWaitScope w.md.toNat) p.key (toBytes 8 r.2) true)))
    ∧ (r.2 < target.toNat → ∃ s', exec (.cuewait w) s = .next s' ∧ Leaves b t x (.cueWait (h.pair w.a.toNat) target) r.1 s'))
  ∧ (∀ s1 t1 h1,
    let n := if bitOf w.md.toNat 0 then 1 else 2
    Lane s b t { w.form [w.srcA 1] [w.dst n] with long := true, bad := w.d.toNat % 2 ≠ 0 || w.a.toNat % 2 ≠ 0 } x s1 t1 h1 →
    let v := match s1.cueOf t1 (h1.reg w.a.toNat) with
      | none => 0
      | some c => if n = 1 then c.st.code else s1.cueProgress c
    Completes (.cueprog w) s b t { s1.fresh with flight := { s1.flight with
      results := s1.flight.results ++ [{ id := s1.nextId, team := t.id, tid := x, regs := regWords w.d.toNat n v, flags := 0 }] } })

/-! ## The Prompter's words (12 R251-R257, 13 R258-R280) -/

/-- MLDW, MLDWT, MLDWS, MLDCB and MRULE (R263-R266, R273): a word whose operands are readable, and whose earlier passes have latched,
commits its tile, codebook or rule to the context; a tile that waits behind a pass that has stopped is committed once that pass has
completed, and a walker's buffer is taken at the commit; where its job has been killed meanwhile the load starts again.
The model's choices in it are log 38, log 39 and log 40. -/
def Obligations.StreamLoadsComplete : Prop := ∀ (w : PWord) (s : State) (p : Prompter) (t : Team) (q : Prompter) (m m1 : State) (g : Staged),
  let commit (x : Option Weights × Option (List Nat) × W32) (taken : Option (Nat × Nat)) (m : State) : State :=
    let m1 := m.updContext p.cluster p.ctx fun y =>
      { y with slot := (x.1.map some).getD y.slot, codebook := (x.2.1.map some).getD y.codebook, flags := y.flags ||| x.2.2 }
    match taken with
    | some c => m1.takeTile p.cluster c
    | none => m1
  let mine := m.passesOf p.cluster p.ctx
  let stands (taken : Option (Nat × Nat)) (m : State) : Prop := ∀ c, taken = some c → m.tileStands p.cluster c = true
  let free := q.staged = none ∧ (∀ y ∈ mine, y.latched = true) ∧ (∀ y ∈ mine, y.halted = false) ∧ stands g.taken m1
  let kept := commit (g.tile, g.book, g.flags) g.taken m1
  Prompts s p t → Phased s p t w.wb.toNat q m →
  (free → readTile w q t m = .got g m1 → Prompted (.mldw w) s p kept)
  ∧ (q.staged = none → mine = [] → stands g.taken m1 → readAccTile w q t m = .got g m1 → Prompted (.mldwt w) s p kept)
  ∧ (free → readSparseTile w q t m = .got g m1 → Prompted (.mldws w) s p kept)
  ∧ (free → readBook w q t m = .got g m1 → Prompted (.mldcb w) s p kept)
  ∧ (∀ z, q.staged = some z → (∀ y ∈ mine, y.halted = false) → ∀ i ∈ [Instr.mldw w, .mldwt w, .mldws w, .mldcb w],
      (stands q.stagedFrom m → Prompted i s p (commit z q.stagedFrom m))
      ∧ (∀ c, q.stagedFrom = some c → m.tileStands p.cluster c = false →
          exec i s = .next (m.updContext p.cluster p.ctx fun y => { y with staged := none, stagedFrom := none })))
  ∧ (∀ d r, locationStop t w.kind (t.place w.kind w.ka) = none → readAt m t p.cluster w.kind (t.place w.kind w.ka) 0 64 = .got d m1 →
      ruleOf d = .ok r → Prompted (.mrule w) s p (m1.updContext p.cluster p.ctx fun y => { y with rule := some r }))

/-- The words that become passes (R251, R252, R267-R275): with a place in the table and in the context's share of it the pass is posted
with the operands as they stand; otherwise the word waits. -/
def Obligations.PassesArePosted : Prop := ∀ (w : PWord) (s : State) (p : Prompter) (t : Team), Prompts s p t →
  let e := s.engine p.cluster
  let room := e.table.length < 16 ∧ (s.passesOf p.cluster p.ctx).length < 4
  let k (n : BitVec 6) : W64 := (t.kreg n.toNat).setWidth 64
  let at_ := t.place w.kind w.ka
  let posts (i : Instr) (kind : PassKind) (ka kc km : W64) : Prop :=
    (room → Prompted i s p (s.fresh.setEngine { e with table := e.table ++ [newPass s p t kind w ka kc km] }))
    ∧ (¬room → exec i s = .next s)
  posts (.mma w) .mma at_ (k w.kc) (k w.km)
  ∧ posts (.mmac w) .mmac at_ (k w.kc) (k w.km)
  ∧ posts (.mzero w) .mzero 0 (k w.kc) 0
  ∧ posts (.mstc w) .mstc at_ (k w.kc) (k w.km)
  ∧ posts (.mturn w) .mturn at_ (t.place (bitsOf w.md.toNat 2 2) w.kc) (k w.km)
  ∧ posts (.mdrain w) .mdrain (t.kpair w.ka.toNat) (k w.kc) (t.kpair w.km.toNat)
  ∧ posts (.msave w) .msave (t.kpair w.ka.toNat) (k w.kc) 0
  ∧ posts (.mload w) .mload (t.kpair w.ka.toNat) (k w.kc) 0
  ∧ posts (.mepi w) .mepi at_ (k w.kc) (k w.km)

/-- The words that the context executes itself (R276-R280): nothing, a phase consumed, a phase signalled with the flags of the stream,
the configuration, MPROG, jumps, loops, the end, and sums of k registers.
The model's choices in it are log 38 and log 43. -/
def Obligations.StreamControlCompletes : Prop := ∀ (w : PWord) (s : State) (p : Prompter) (t : Team) (q : Prompter) (m : State),
  let ctx (m : State) (f : Prompter → Prompter) : State := m.updContext p.cluster p.ctx f
  let base (k : BitVec 6) (old : W64) : W64 := if k = 0 then old else t.kpair k.toNat
  let target := p.hdr + w.off32.signExtend 64
  let jumps (m : State) : State := ctx m fun y => { y with hdr := target, idx := 0, count := 0, wbDone := false }
  let header := ∃ x, (s.fetch (clusterUnit p.cluster) t.asid false target).1 = .ok x ∧ isHeader x = true ∧ (headerOf x).cls = 2
  let n := bitsOf w.md.toNat 0 6
  Prompts s p t →
  Prompted (.mnop w) s p s
  ∧ (Phased s p t w.wb.toNat q m →
      Prompted (.mwait w) s p m
      ∧ (m.passesOf p.cluster p.ctx = [] →
          (w.sb = 15 → Prompted (.msig w) s p m) ∧ (w.sb ≠ 15 → Prompted (.msig w) s p (m.signal t.id w.sb.toNat q.flags)))
      ∧ Prompted (.mqcfg w) s p (ctx m fun y => { y with cfg :=
          { square := w.md = 1, baseA := base w.ka y.cfg.baseA, baseW := base w.kb y.cfg.baseW, baseO := base w.kc y.cfg.baseO } }))
  ∧ (w.wb ≠ 15 → p.wbDone = false → (t.barrier w.wb.toNat).phase.toNat ≤ (look 0 p.consumed w.wb.toNat).toNat →
      exec (.mwait w) s = .next s)
  ∧ (w.md = 0 → Prompted (.mprog w) s p (s.updTeam t.id fun u => u.setK w.ka.toNat (BitVec.ofNat 32 p.mprog)))
  ∧ (w.md ≠ 0 → s.passesOf p.cluster p.ctx = [] →
      Prompted (.mprog w) s p (ctx s fun y => { y with mprog := (t.kreg w.ka.toNat).toNat }))
  ∧ (header → exec (.mjmp w) s = .next (jumps s))
  ∧ (t.kreg n = 0 → Prompted (.mloop w) s p s)
  ∧ (t.kreg n ≠ 0 → header → exec (.mloop w) s = .next (jumps (s.updTeam t.id fun u => u.setK n (u.kreg n - 1))))
  ∧ (∃ s', exec (.mend w) s = .next (s'.settleIdle p.cluster p.ctx) ∧ s' = ctx s fun y => { y.advance with st := .ending })
  ∧ Prompted (.mkadd w) s p (s.updTeam t.id fun u =>
      if w.md = 1 then u.setKpair w.ka.toNat (u.kpair w.kb.toNat + w.imm20.signExtend 64)
      else u.setK w.ka.toNat (u.kreg w.kb.toNat + w.imm20.signExtend 32))

/-! ## The walkers' instructions (15 R286-R307) -/

/-- The instructions that compute (R293): the register takes the result, Z and N follow it, C where the instruction writes it; a
comparison writes flags only; a move of an immediate writes none. -/
def Obligations.WalkerArithmeticCompletes : Prop := ∀ (s : State) (c : Walker) (d a b : BitVec 4) (i : BitVec 14) (r : BitVec 1) (n : BitVec 5),
  Walks s c →
  let x : W32 := look 0 c.w a.toNat
  let y : W32 := look 0 c.w b.toNat
  let old : W32 := look 0 c.w d.toNat
  let imm : W32 := i.signExtend 32
  let put (v : W32) : Walker := { c with w := keep 0 c.w d.toNat v }
  let out (v : W32) (cy : Bool) : Walker := { put v with z := v = 0, n := v.msb, c := cy }
  let count := n.toNat + (if r = 1 then y.toNat % 32 else 0)
  Walked .wnop s c c s
  ∧ Walked (.wmovi d i) s c (put imm) s
  ∧ Walked (.wmoviSh d i) s c (put ((old <<< 14) ||| i.setWidth 32)) s
  ∧ Walked (.wmov d a) s c (out x c.c) s
  ∧ Walked (.wadd d a b) s c (out (x + y) (decide (2 ^ 32 ≤ x.toNat + y.toNat))) s
  ∧ Walked (.waddi d a i) s c (out (x + imm) (decide (2 ^ 32 ≤ x.toNat + imm.toNat))) s
  ∧ Walked (.wsub d a b) s c (out (x - y) (decide (x.toNat < y.toNat))) s
  ∧ Walked (.wand d a b) s c (out (x &&& y) c.c) s
  ∧ Walked (.wor d a b) s c (out (x ||| y) c.c) s
  ∧ Walked (.wshl d a b r n) s c (out (x <<< count) c.c) s
  ∧ Walked (.wshr d a b r n) s c (out (x >>> count) c.c) s
  ∧ Walked (.wmin d a b) s c (out (if x.toNat < y.toNat then x else y) c.c) s
  ∧ Walked (.wpopc d a) s c (out (BitVec.ofNat 32 ((List.range 32).filter fun k => x.getLsbD k).length) c.c) s
  ∧ (∃ k, (k < 32 ∧ x.getLsbD k = true ∨ k = 32 ∧ x = 0) ∧ (∀ j < k, x.getLsbD j = false)
      ∧ Walked (.wffs d a) s c { put (BitVec.ofNat 32 k) with z := x = 0, n := false } s)
  ∧ Walked (.wcmp a b) s c { c with z := x = y, n := (x - y).msb, c := decide (x.toNat < y.toNat) } s
  ∧ Walked (.wcmpi a i) s c { c with z := x = imm, n := (x - imm).msb, c := decide (x.toNat < imm.toNat) } s

/-- Loads, stores, progress and transfers of a walker (R287, R292, R294-R296): a load gives the slot up and waits for its data; a store
goes home, and WST.c counts it; a transfer within the program lands at its target, one outside it is WALKER_ILLEGAL; WHALT frees the
context, whose registers, flags and WPROG stay.
The model's choices in it are log 2 and log 44. -/
def Obligations.WalkerMemoryAndControlComplete : Prop := ∀ (s : State) (c : Walker) (d a : BitVec 4) (k : BitVec 3) (i : BitVec 14)
    (cond : BitVec 4) (o : BitVec 22) (mask : BitVec 2) (p : Part) (ps : List Part) (m : State),
  Walks s c →
  let va := c.job.bases.getD k.toNat 0 + (look 0 c.w a.toNat).setWidth 64 + i.signExtend 64
  let x : W32 := look 0 c.w d.toNat
  let loads (n : Nat) : State := (m.setWalker { c with wait := .load d.toNat p.key n va.toNat, pc := c.pc + 1 }).passSlot c.cluster
  let waits (w : WalkWait) : Out := .next ((s.setWalker { c with wait := w }).passSlot c.cluster)
  let stored : State := (p :: ps).foldl (fun m q => m.writeNow q.key (((toBytes 4 x.toNat).drop q.pos).take q.len) q.nc) m
  let target : Int := (c.pc : Int) + o.toInt
  let inside (t : Int) : Prop := 0 ≤ t ∧ t < c.job.len
  let jumps (t : Int) (c' : Walker) : Out := .next (tally (s.setWalker { c' with pc := t.toNat }) c.cluster)
  let illegal : Out := .next (s.walkerIllegal c c.pc)
  (c.reach s va 4 .read = .got (p :: ps) m → exec (.wld d a k i) s = .next (loads 4))
  ∧ (c.reach s va 2 .read = .got (p :: ps) m → exec (.wldh d a k i) s = .next (loads 2))
  ∧ (c.reach s va 4 .write = .got (p :: ps) m →
      Walked (.wst d a k i) s c c stored ∧ Walked (.wstC d a k i) s c { c with wprog := c.wprog + 1 } stored)
  ∧ (c.holds cond.toNat = false → Walked (.wbr cond o) s c c s)
  ∧ (inside target → (c.holds cond.toNat = true → exec (.wbr cond o) s = jumps target c) ∧ exec (.wjmp o) s = jumps target c
      ∧ exec (.wjmpLink o) s = jumps target { c with w := keep 0 c.w 15 (BitVec.ofNat 32 (c.pc + 1)) })
  ∧ (¬inside target → exec (.wjmp o) s = illegal ∧ (c.holds cond.toNat = true → exec (.wbr cond o) s = illegal))
  ∧ (c.job.len ≤ 1024 → let back : W32 := look 0 c.w 15
      (back.toNat < c.job.len → exec .wjmpRet s = jumps (back.toNat : Int) c)
      ∧ (c.job.len ≤ back.toNat → exec .wjmpRet s = illegal))
  ∧ ((mask.getLsbD 1 = true → ∀ y ∈ c.tiles, y.ready = false) → Walked (.wwait mask) s c c s)
  ∧ (mask.getLsbD 1 = true → (∃ y ∈ c.tiles, y.ready = true) → exec (.wwait mask) s = waits .tiles)
  ∧ exec .wyield s = .next ((s.setWalker { c with pc := c.pc + 1 }).passSlot c.cluster)
  ∧ Walked (.wprog d) s c { c with w := keep 0 c.w d.toNat c.wprog } s
  ∧ Walked (.wprogSet a) s c { c with wprog := look 0 c.w a.toNat } s
  ∧ ((∃ y ∈ c.tiles, y.ready = true) → exec .whalt s = waits .halt)
  ∧ (∀ q, (∀ y ∈ c.tiles, y.ready = false) → c.cue = some q →
      exec .whalt s = .next (((s.setWalker c.free).updCue
        q.1 q.2 fun z => { z with counting := true, flags := z.flags ||| c.flags, progress := c.wprog.toNat }).passSlot c.cluster))

/-- R292: WBR with condition 0 to 8 jumps exactly where its test of Z, N and C holds, and otherwise the context goes on behind it; a word of
WBR with another condition stops the context with WALKER_ILLEGAL. -/
def Obligations.WalkerConditionsFollowTheFlags : Prop :=
  (∀ (s : State) (c : Walker) (o : BitVec 22), Walks s c →
    let target : Int := (c.pc : Int) + o.toInt
    let takes (cond : BitVec 4) (b : Bool) : Prop :=
      (b = true → 0 ≤ target → target < c.job.len → exec (.wbr cond o) s = .next (tally (s.setWalker { c with pc := target.toNat }) c.cluster))
      ∧ (b = false → Walked (.wbr cond o) s c c s)
    takes 0 true ∧ takes 1 c.z ∧ takes 2 (!c.z) ∧ takes 3 c.c ∧ takes 4 (!c.c) ∧ takes 5 c.n ∧ takes 6 (!c.n) ∧ takes 7 (c.c || c.z)
    ∧ takes 8 (!(c.c || c.z)))
  ∧ (∀ (s s0 : State) (cluster : Nat) (c : Walker) (w : W32), s.nextTurn = (.walker cluster, s0) →
      s0.walker? cluster (look 0 s0.walk.slot cluster) = some c → s0.walkerCanRun c = true → look 0 s0.walk.issued cluster < 256 →
      c.stopped = false → c.pc < c.job.len → look 0 c.prog c.pc = w → w >>> 26 = 0x13 → 9 ≤ (w >>> 22).toNat % 16 →
      step s = .next (s0.walkerIllegal c c.pc))

/-- Tiles and the merge unit (R297-R301): WEMIT puts a code into the filling buffer, WTILE hands it over or writes its rows to the
scratchpad, WMERGE names the streams, WMNEXT delivers the next element of their union, WSCAN does one element of a running sum. An
element whose lines have not come makes the context wait for them; a zero that is dropped and an element of WSCAN leave the context at
the instruction, which counts as issued.
The model's choices in it are log 2, log 44 and log 63. -/
def Obligations.WalkerTilesAndMergeComplete : Prop := ∀ (s : State) (c : Walker) (d a b : BitVec 4) (k : BitVec 3) (i : BitVec 14)
    (t : Team) (p q v : Nat) (f : Flag) (one two : Bool) (idx : Nat) (m m1 : State) (ps : List Part),
  Walks s c →
  let x : W32 := look 0 c.w a.toNat
  let y : W32 := look 0 c.w b.toNat
  let blank : Tile := { codes := [], ready := false, taken := 0, order := 0 }
  let waits (w : WalkWait) (m : State) : Out := .next ((m.setWalker { c with wait := w }).passSlot c.cluster)
  let again (d : Walker) (m : State) : Out := .next (tally (m.setWalker { d with mid := true }) c.cluster)
  let other := 1 - c.fill
  let size := 16 * codeBits c.job.fmt
  let place (j : Nat) : Nat := x.toNat + j * (if c.job.stride = 0 then size else c.job.stride)
  let rows (j : Nat) : List Byte := tileBytes c.job.fmt ((c.tiles[c.fill]?).getD blank) j
  let pos := (y + i.signExtend 32).toNat
  (c.job.dest ≠ 3 → pos < 128 * c.job.rows → Walked (.wemit a b i) s c { c with wprog := c.wprog + 1, tiles := c.tiles.modify c.fill fun z =>
      { z with codes := keep 0 z.codes pos (x.toNat % 2 ^ codeBits c.job.fmt) } } s)
  ∧ (((c.tiles[other]?).map Tile.ready).getD false = false →
    (c.job.dest < 2 → a = 0 → Walked (.wtile a) s c { c with fill := other, tiles := (c.tiles.modify c.fill fun z =>
        { z with ready := true, taken := 0, order := s.nextId }).modify other fun _ => blank } s.fresh)
    ∧ (c.job.dest = 2 → s.team? c.team = some t → (∀ j < c.job.rows, place j + size ≤ t.launch.spadBytes) →
      Walked (.wtile a) s c { c with fill := other, tiles := [blank, blank] }
        ((List.range c.job.rows).foldl (fun s j => s.updTeam c.team fun u => u.spadPut (place j) (rows j)) s)))
  ∧ (((c.tiles[other]?).map Tile.ready).getD false = true → c.job.dest = 2 ∨ (c.job.dest < 2 ∧ a = 0) →
      exec (.wtile a) s = waits .buffer s)
  ∧ Walked (.wmerge a b) s c { c with merge := some (a.toNat, b.toNat) } s
  ∧ (c.merge = some (p, q) → (∀ r ∈ [p, p + 1, q, q + 1], d.toNat ≠ r ∧ a.toNat ≠ r) →
    (c.union s p q = .got none m → Walked (.wmnext d a) s c { c with z := true } m)
    ∧ (c.union s p q = .got (some (idx, v, f, one, two)) m →
      let out := c.missing m (c.unionLoads p q one two)
      let w1 := if one then keep 0 c.w p (look 0 c.w p + 1) else c.w
      let w2 := if two then keep 0 w1 q (look 0 w1 q + 1) else w1
      let val := if v % 2 ^ 31 = 0 ∧ one = true ∧ two = true then 0 else v
      (out ≠ [] → exec (.wmnext d a) s = waits (.elements out) m)
      ∧ (out = [] → v % 2 ^ 31 = 0 → c.job.dropZero = true → exec (.wmnext d a) s = again { c with w := w2, flags := c.flags ||| f } m)
      ∧ (out = [] → ¬(v % 2 ^ 31 = 0 ∧ c.job.dropZero = true) →
          Walked (.wmnext d a) s c { c with w := keep 0 (keep 0 w2 d.toNat (BitVec.ofNat 32 idx)) a.toNat (BitVec.ofNat 32 val),
                                            flags := c.flags ||| f, z := false, n := false } m)))
  ∧ (y = 0 → Walked (.wscan d a b k) s c c s)
  ∧ (y ≠ 0 → let va := c.job.bases.getD k.toNat 0 + 4 * x.setWidth 64
    let out := c.missing m [va]
    c.read32 s va = .got v m →
    (out ≠ [] → exec (.wscan d a b k) s = waits (.elements out) m)
    ∧ (out = [] → c.reach m va 4 .write = .got ps m1 → exec (.wscan d a b k) s = again
        { c with w := keep 0 (keep 0 (keep 0 c.w d.toNat (look 0 c.w d.toNat + BitVec.ofNat 32 v)) a.toNat (x + 1)) b.toNat (y - 1) }
        (ps.foldl (fun m r => m.writeNow r.key (((toBytes 4 (look 0 c.w d.toNat).toNat).drop r.pos).take r.len) r.nc) m1)))

/-! ## Events: casting, memory, coherence (06, 18) -/

/-- The Casting unit and the timers (R101, R103, R105, R106, R108, R122, R162, R173, R433): the running set is chosen afresh where it has split
or can go no further; a cast takes what is pending, or forms the bundles of the running set behind its header; the counters of a team run
while another set of it has an eligible thread, and a watchdog that has expired marks the running set; a nap or a park that is over ends.
The model's choices in it are log 7, log 36, log 61 and log 86. -/
def Obligations.CastingEventsComplete : Prop := ∀ (s : State) (team : Nat) (t : Team), s.team? team = some t →
  let next := s.settleSet team
  let casts : Prop := t.marked = false ∧ t.removed = false ∧ s.unseated t = []
  (∀ s1, casts → s.takePending t = some s1 → exec (.bundleCast team) s = .next s1)
  ∧ (t.removed = false →
      let u := s.moveOn (s.refresh t)
      let m := s.updTeam team fun _ => u
      ((m.choiceDue u = false ∨ m.eligibleSets u = []) → next = m)
      ∧ (∀ k r, m.choiceDue u = true → m.eligibleSets u = k :: r → next = m.switchTo u k))
  ∧ (∀ u h r w s1, casts → s.takePending t = none → next.team? team = some u →
      let front : List Thread := next.standing u u.front
      let ready := front.filter (next.eligible u)
      ready = h :: r → next.fetch (u.coreOf h.tid) u.asid h.priv h.pc = (.ok w, s1) → isHeader w = true → (headerOf w).cls < 2 →
      (headerOf w).lowZero = true → h.idx < (headerOf w).count →
      exec (.bundleCast team) s = .next ((u.plan (headerOf w) h.idx front ready).foldl (fun s l => s.castOne u (headerOf w) h.idx l) s1))
  ∧ (∀ u, next.team? team = some u → u.removed = false → next.otherWaits u = true →
      exec (.dpfExpiry team) s = .next (s.tick (u.dpf.toNat - u.dpfCount))
      ∧ exec (.watchdogExpiry team) s = .next (s.tick (u.wdog.toNat - u.wdogCount))
      ∧ ∀ d, s.teams = [t] → (s.callees.any fun q => q.team = team) = false →
        let m := next.updTeam team fun y => { y with dpfCount := y.dpfCount + d }
        let n := u.wdogCount + d
        let hit := (u.threads.filter fun h => u.running.contains h.tid && !h.exited).map Thread.tid
        let marked := hit.foldl (fun s x => s.updLine0 team x fun h => { h with pendWatchdog := true }) m
        let ends (m : State) (n : Nat) : State :=
          let m1 := m.updTeam team fun y => { y with wdogCount := n }
          { m1 with time := m1.time + d }
        (n < u.wdog.toNat → s.tick d = ends m n)
        ∧ (u.wdog.toNat ≤ n → s.tick d = ends marked ((n - u.wdog.toNat) % max 1 u.wdog.toNat)))
  ∧ (∀ g, t.removed = false → (t.group g).tmrcmp ≠ 0 → (t.group g).tmrcmp ≤ s.clock t.cluster →
      let live := (t.groupThreads g).filter fun h => !h.exited
      let naps (h : Thread) : Bool := match h.wait with
        | .nap _ => true
        | _ => false
      let due := (live.map Thread.tid).foldl (fun s x => s.updLine0 team x fun h => { h with pendTimer := true })
        (s.updTeam team fun t => t.updGroup g fun x => { x with tmrcmp := 0 })
      exec (.timerExpiry team g) s = .next (((live.filter naps).map Thread.tid).foldl (fun s x => s.resumePast team x 0) due))
  ∧ (∀ tid h n, s.thread? team tid = some h → h.wait = .nap n → t.removed = false → n ≤ s.time →
      exec (.napEnd team tid) s = .next (s.resumePast team tid 0))
  ∧ (∀ q, (s.pcSets t []).length < 64 → (s.callees.filter fun q => q.team = team) = [q] →
      exec (.calleeQueueTake team) s = .next { s.updThreads team q.tids (fun h =>
          if h.wait = .callee then { h with wait := .ready, since := s.time } else h) with
        callees := s.callees.filter fun x => x.order ≠ q.order })
  ∧ (∀ die h w x b s1, s.firstParked die = some (t, h) → s.taskRoom die = true →
      (s.fetch (t.coreOf h.tid) t.asid h.priv h.wordAddr).1 = .ok w → decodeCore w = .ok (.launch x) →
      launchBytes t h (h.pair x.a.toNat) s = .got b s1 →
      exec (.launchRetry die) s = .next ((s1.enqueue (childTask t (h.pair x.a.toNat) b)).resumePast t.id h.tid
        (BitVec.ofNat 32 (s1.queued die))))

/-- Accesses on their way (R34, R85, R87, R88, R94, R114, R185, R200, R211, R336, R344, R346): a read takes its bytes at its home, a write
changes the line and its tag, a read-modify-write does both as one; data and acknowledgements come back. A plain load at the home leaves
memory, tags and threads as they are, its request has the home's bytes, and the L1 takes the line in S.
The model's choices in it are log 2, log 9, log 25 and log 33. -/
def Obligations.MemoryEventsComplete : Prop := ∀ (s : State) (r : Req), s.req? r.id = some r →
  let line := s.lineOf' r
  let free : Prop := s.blocked line = false ∧ s.coh.lost.contains line = false
  let off := s.keyOf r - line
  let own (m : State) (ps : Pieces) : State := if r.nc = true then { m with coh := m.coh.looseWrite r.core line ps } else m
  let base := s.peekBytes line 128
  let plain : Prop := free ∧ s.coh.owner? line = none ∧ isDeviceLine line = true ∧ r.kind = .load ∧ r.stage = .queued ∧ r.nc = false ∧ r.cm = 0
    ∧ s.loadOrder r = true ∧ s.acquireWaits r = false ∧ s.early r line = [] ∧ s.isGath r = false
    ∧ (coreDie r.core = homeDie line ∨ 6 ≤ r.sc) ∧ s.coh.entriesLive (home line) < 16384 ∧ s.coh.roomOf (.l1 r.core) ≠ 0
  let reads (m : State) (fills : Prop) : Prop := m.mem = s.mem ∧ m.teams = s.teams ∧ m.coh.tags = s.coh.tags
    ∧ m.flight.reqs = updWhere s.flight.reqs (fun q => q.id = r.id) (fun q =>
        { q with data := s.partOf r line base, cmp := toBytes 4 (s.tag line), stage := .performed })
    ∧ (fills → m.coh.copy? (.l1 r.core) line = some { who := .l1 r.core, line := line, st := .s, data := base })
  (∀ s1, s.l1Hit r = false → s.upgrades r = false → s.serveRead r = some s1 → exec (.homeRead r.id) s = .next s1)
  ∧ (∀ s1, s.upgrades r = true → s.serveRead r = some s1 → exec (.precisionUpgrade r.id) s = .next s1)
  ∧ (plain → s.l1Hit r = false → s.upgrades r = false → ∃ m, exec (.homeRead r.id) s = .next m ∧ reads m (r.sc ≤ 2))
  ∧ (plain → s.upgrades r = true → ∃ m, exec (.precisionUpgrade r.id) s = .next m ∧ reads m (r.sc ≤ 5))
  ∧ (free → s.coh.owner? line = none → r.unapplied = true →
    (r.kind = .store → r.stage = .sent → r.paths = [] → (s.flight.reqs.filter fun q => q.kind = .store && q.batch = r.batch && s.lineOf' q = line) = [r] →
      (∀ q ∈ s.flight.reqs, q.id ≠ r.id → line ∉ s.linesFor q) →
      let same (q : Req) : Bool := q.kind = .store && q.batch = r.batch && s.lineOf' q = line
      (spaceOf s.ctl r.pa ≠ .host → exec (.homeWrite r.id) s = .next (own
        (s.homeApply line r.id [(off, r.data)] (some (.l1 r.core)) (r.nc || !isDeviceLine line) same) [(off, r.data)]))
      ∧ (spaceOf s.ctl r.pa = .host → r.nc = true → exec (.homeWrite r.id) s =
          .next (own ((s.hostDirty line [(off, r.data)]).updReqs same fun q => { q with stage := .done }) [(off, r.data)]))
      ∧ (spaceOf s.ctl r.pa = .host → r.nc = false → exec (.homeWrite r.id) s =
          .next ((s.hostSnoop line).homeApply line r.id [(off, r.data)] none true same)))
    ∧ (∀ op ty, r.kind = .rmw op ty → s.rmwWaits r [line] = false → r.stage = .queued → s.markersOf r ≠ [] →
      exec (.homeWrite r.id) s = .next (s.updReqs (fun q => q.id = r.id) fun q => { q with stage := .sent, paths := s.markersOf r }))
    ∧ (∀ op ty, r.kind = .rmw op ty → s.rmwWaits r [line] = false → (r.stage = .queued → s.markersOf r = []) → r.paths = [] →
      spaceOf s.ctl r.pa ≠ .host →
      let old : List Byte := (getBytes s.mem line 128).drop off |>.take r.len
      let n := rmwNew op ty (ofBytes old) (ofBytes r.data) (ofBytes r.cmp)
      let s2 := (s.updOp r.op fun o => { o with flags := o.flags ||| n.2.1 }).updReqs (fun q => q.id = r.id) fun q => { q with data := old }
      exec (.homeWrite r.id) s = .next (if n.2.2
        then own (s2.homeApply line r.id [(off, toBytes r.len n.1)] none (r.nc || !isDeviceLine line) fun q => q.id = r.id)
          [(off, toBytes r.len n.1)]
        else
          let s3 := s2.updReqs (fun q => q.id = r.id) fun q => { q with stage := .done }
          if r.nc = true then { s3 with coh := s3.coh.dropLoose r.core line } else s3)))
  ∧ (∀ o n, (s.sampleL1 o.id).op? o.id = some o → o.kind = .load n →
      ((s.sampleL1 o.id).opReqs o.id).all (fun q => q.stage = .performed || q.stage = .done) = true →
      let m := s.sampleL1 o.id
      let v := ofBytes ((m.opReqs o.id).map Req.data).flatten
      exec (.loadReturn o.id) s = .next (((m.acquireJoin o (m.opReqs o.id)).deliver o.team o.tid (regWords o.dst n v)).dropOp o.id))
  ∧ (∀ o, s.op? o.id = some o → o.kind = .store → (s.opReqs o.id).all (fun q => q.stage = .done) = true →
      exec (.storeAcknowledgement o.id) s = .next (((s.enterFlags o.team o.tid o.flags).tokenDone o.team o.tid o.tok).dropOp o.id))
  ∧ (∀ x, (s.flight.results.find? fun y => y.id = x.id) = some x →
      let m := (s.enterFlags x.team x.tid x.flags).deliver x.team x.tid x.regs
      exec (.longLatencyResult x.id) s = .next { m with flight := { m.flight with results := m.flight.results.filter fun y => y.id ≠ x.id } })
  ∧ (∀ team tid l t h, s.team? team = some t → s.thread? team tid = some h →
      ((t.removed = true ∨ ∃ n, h.wait = .stopped n) → exec (.registerLineFill team tid l) s = .next s)
      ∧ (t.removed = false → (∀ n, h.wait ≠ .stopped n) → h.absent.contains l = true →
        exec (.registerLineFill team tid l) s = .next (if s.targetsImage team h then s else (s.lineRoom (t.coreOf tid)).fillLine team tid l)))
  ∧ (∀ team tid, s.units.shoots.any Shoot.clears = false →
      exec (.transitResume team tid) s = .next (s.updThread team tid fun h => if h.wait = .transit then { h with wait := .ready } else h))
  ∧ (∀ path, (s.flight.reqs.takeWhile fun q => q.id ≠ r.id) = [] →
      exec (.flushMarkerArrival r.id path) s = .next (s.updReqs (fun q => q.id = r.id) fun q => { q with paths := q.paths.filter fun p => p ≠ path }))
  ∧ (∀ a t h b v s1, (s.units.allocs.find? fun x => x.id = a.id && x.answer.isNone) = some a → s.team? a.team = some t →
      s.thread? a.team a.tid = some h → volumeRead t h s a.desc = .got b s1 → volumeOf b = some v →
      let r := allocFrom t h a v s1 4
      ((r.1 ≠ .park ∨ s.coreBusy (t.coreOf h.tid) = false) → exec (.volAllocRequest a.id) s = .next (r.2.answerAlloc a.id r.1))
      ∧ (r.1 = .park → s.coreBusy (t.coreOf h.tid) = true → exec (.volAllocRequest a.id) s = .next s))
  ∧ (∀ x u, (s.units.shoots.find? fun y => y.id = x.id && y.units.contains u) = some x →
      let n : Names := { kind := x.kind, vas := x.vas, asid := x.asid }
      let left := x.units.filter fun y => y ≠ u
      s.flight.reqs.any (s.holdsUp n u) = false → s.walk.ctxs.any (s.jobHoldsUp n u) = false →
      exec (.shootDownAcknowledge x.id u) s = .next { s with units := { s.units with
        shoots := if left.isEmpty && x.owner.isNone then s.units.shoots.filter fun y => y.id ≠ x.id
          else updWhere s.units.shoots (fun y => y.id = x.id) fun y => { y with units := left }
        tlb := s.units.tlb.filter fun e => !(e.unit = u && n.hits e)
        windows := s.units.windows.filter fun w => !(w.1 = u && (n.kind = 2 || (n.kind = 1 && w.2.1 = n.asid))) } })

/-- Probes, owners, the host and failing storage (R339-R345, R348, R349, R353, R424, R427): a receiver applies a probe and answers with its half
mask; the write completes when every answer is there, after the census and the split of a conflict; an owner takes a line, gives it up or
writes it back. A line granted has its owner in E with memory's bytes and no other tracked copy; one written back has the owner's bytes in
memory, its tag raised and no owner; one marked LOST has no tracked copy and no owner, and keeps its tag. The storage number in the log's
detail is the model's (log 19), that a refused read or write of the host changes nothing is its reading (log 56), and a write of the host is
opened and answered in one step (log 2).
The model's choices in it are log 2, log 7, log 19, log 20, log 23, log 52, log 53 and log 56. -/
def Obligations.CoherenceEventsComplete : Prop := ∀ (s : State) (line : Nat),
  let ln := lineOf line
  let open_ : Prop := isDeviceLine ln = true ∧ s.blocked ln = false ∧ s.coh.lost.contains ln = false
  let only : Prop := ∀ x ∈ s.coh.dir, x.covers ln = true → s.coh.entry? ln = some x
  (∀ t p n who, s.txn? line = some t → (t.probes.find? fun p => p.dest = who && p.reply.isNone) = some p →
    let c := s.coh.applyProbe line p t.elems t.data
    let told : State := { s with coh := { c with txns := updWhere c.txns (fun x => x.line = line) fun x =>
      { x with probes := updWhere x.probes (fun q => q = p) fun q => { q with reply := some (c.answer line who) } } } }
    (sharerOf n = who → (∀ d, who ≠ .rdc d) → exec (.probe line n) s = .next told) ∧ (who = .rdc n → exec (.rdcProbe line n) s = .next told))
  ∧ (∀ t e, s.txn? line = some t → s.mates line = [t] → s.coh.entry? line = some e → (∀ p ∈ t.probes, p.reply ≠ none) →
      let split := conflicts e line ((t.probes.filter fun p => p.act ≠ .census).filterMap Probe.reply)
      let asked := t.probes.map Probe.dest
      let rest := e.sharers.filter fun x => !asked.contains x.1
      (split = false → exec (.probeAnswer line) s =
          .next ({ s with coh := s.coh.leaveEntry line (asked.filter fun w => s.coh.held t w = 0) }.endTxn t))
      ∧ (split = true → rest = [] → exec (.probeAnswer line) s = .next ((s.splitBy e (s.coh.held t)).endTxn t))
      ∧ (split = true → rest ≠ [] → exec (.probeAnswer line) s = .next { s with coh := { s.coh with txns := s.coh.txns.map fun x =>
          if x = t then { t with probes := t.probes ++ rest.map fun y => { dest := y.1, act := .census, changed := [], reply := none } }
          else x } }))
  ∧ (∀ e level, (s.coh.dir.find? fun e => e.level = level && e.block ≤ line && line < e.block + levelSize level && 1 ≤ level
        && e.slice = home ln) = some e → e.owner = none → 65536 ≤ s.time - e.quiet → s.coh.txns = [] →
      let parent := e.block / (2 * levelSize level) * (2 * levelSize level)
      let sib := if e.block = parent then parent + levelSize level else parent
      (∀ x ∈ s.coh.dir, x.slice = e.slice → overlaps x.block (levelSize x.level) sib (levelSize level) = false) →
      exec (.directoryMerge line level) s = .next { s with coh :=
        (s.coh.putEntry e { e with level := level - 1, block := parent, quiet := s.time }).count e.slice 5 1 })
  ∧ (∀ n, n < 16 → exec (.readForOwnership (2056 + n) line) s = .next (s.grant (.control n) ln))
  ∧ (∀ n, n < 2 → exec (.readForOwnership (2072 + n) line) s = .next (if s.portMaps n ln then s.grant (.port n) ln else s))
  ∧ (∀ d, exec (.readForOwnership (2076 + d) line) s = .next (if s.ctl.reaches d then s.grant (.device d) ln else s))
  ∧ exec (.hostReadExclusive line) s = .next (s.grant .host ln)
  ∧ (∀ cells, s.blocked ln = false → exec (.recall line cells) s = .next (s.writeBack ln cells (some .s)))
  ∧ (∀ n who st cells, sharerOf n = who → who ≠ .hostPort → s.blocked ln = false → s.coh.owner? ln = some (who, st) →
      exec (.ownerWriteBack n line cells) s = .next (s.writeBack ln cells none))
  ∧ (∀ k cells, s.coh.copy? .hostPort ln = some k → exec (.ownerWriteBack 2075 line cells) s = .next { s with
      mem := if k.modified then putBytes s.mem ln k.data else s.mem, coh := s.coh.dropCopy .hostPort ln })
  ∧ (∀ s1, open_ → s.lets .host ln false = true → s.ownerForRead ln true = some s1 → exec (.hostReadShared line) s = .next (s1.takeCopy .host ln .s (s1.peekBytes ln 128)))
  ∧ (∀ cells, isHostLine ln = true ∨ (open_ ∧ s.lets .host ln true = true ∧ ∀ st, s.coh.owner? ln ≠ some (.host, st)) →
      exec (.hostWrite line cells) s = .next (s.writeLine ln
        ((cells.filter fun x => ln ≤ x.1 && x.1 < ln + 128).map fun x => (x.1 - ln, [x.2])) false))
  ∧ (∀ cells, open_ → (s.lets .host ln false = false → exec (.hostReadShared line) s = .next s)
      ∧ (s.lets .host ln true = false → (∀ st, s.coh.owner? ln ≠ some (.host, st)) → exec (.hostWrite line cells) s = .next s))
  ∧ (∀ n st, s.coh.owner? ln = some (sharerOf n, st) → st = .m ∨ st = .o → exec (.lostMark n line) s = .next (s.markLost ln))
  ∧ (∀ who, open_ → s.lets who ln false = true → s.lets who ln true = true → s.coh.owner? ln = none → s.coh.entriesLive (home ln) + 4 ≤ 16384 →
      let m := s.grant who ln
      m.mem = s.mem ∧ m.coh.tags = s.coh.tags ∧ m.coh.owner? ln = some (who, .e)
      ∧ m.coh.copy? who ln = some { who := who, line := ln, st := .e, data := getBytes s.mem ln 128 }
      ∧ ∀ k ∈ m.coh.copies, k.line = ln → k.who ≠ who → k.st = .loose)
  ∧ (∀ who st k, isDeviceLine ln = true → s.coh.owner? ln = some (who, st) → s.coh.copy? who ln = some k → k.modified = true → only →
      let m := s.writeBack ln [] (some .s)
      let n := s.writeBack ln [] none
      (m.mem = putBytes s.mem ln k.data ∧ m.tag ln = (s.tag ln + 1) % 2 ^ 24 ∧ m.coh.owner? ln = none
        ∧ m.coh.copy? who ln = some { k with st := .s })
      ∧ n.mem = putBytes s.mem ln k.data ∧ n.tag ln = (s.tag ln + 1) % 2 ^ 24 ∧ n.coh.owner? ln = none ∧ n.coh.copy? who ln = none)
  ∧ (isDeviceLine ln = true → s.coh.lost.contains ln = false → (∀ r ∈ s.flight.reqs, ln ∉ s.linesFor r) → only →
      let m := s.markLost ln
      m.mem = s.mem ∧ m.teams = s.teams ∧ m.tag ln = s.tag ln ∧ m.coh.lost = ln :: s.coh.lost ∧ m.coh.owner? ln = none
      ∧ (∀ k ∈ m.coh.copies, k.line = ln → k.st = .loose) ∧ m.ctl = (s.log 3 (homeDie ln) (homeSlice ln) 0 ln).ctl
      ∧ m.sliceCounter (home ln) 10 = (s.sliceCounter (home ln) 10 + 1) % 2 ^ 64)
  ∧ (∀ k u lasting, let s1 := s.log (if lasting then 2 else 1) (storageDie k u line) u (BitVec.ofNat 32 k) (if k ≤ 3 then line else 0)
      exec (.eccError k u line lasting) s = .next (if lasting then s1.lastingError k u line else s1))
  ∧ (∀ u, let row := ln :: Config.rowLines ln
      ((∀ l ∈ row, s.coh.refills (lineOf l) = true) → s.lastingError 0 u line = { s with coh := s.coh.wear 0 (homeDie ln) })
      ∧ (∀ f, s.coh.frames.find? (fun f => f.lines.contains ln) = some f → f.lines = [ln] →
        s.lastingError 1 u line = (let m := if s.coh.dirty.contains ln then s.markLost ln else { s with coh := s.coh.leaveFrame ln }
          { m with coh := m.coh.wear 1 (home ln) }))
      ∧ s.lastingError 2 u line = { s with coh := (s.coh.dropCopy (.l1 u) ln).wear 2 u }
      ∧ s.lastingError 3 u line = { s with coh := (s.coh.dropCopy (.rdc u) ln).wear 3 u }
      ∧ s.lastingError 4 u line = { s with coh := s.coh.wear 4 u, units := { s.units with
          tlb := s.units.tlb.filter fun e => !(e.unit = u && e.va ≤ line && line < e.va + e.len) } }
      ∧ s.lastingError 5 u line = { s with coh := s.coh.wear 5 u, units := { s.units with
          clb := s.units.clb.filter fun e => !(e.core = u && e.tile = line) } })

/-! ## Events: distributors, the supervisor's commands, rooms, engines (06, 10, 12, 15, 17, 21) -/

/-- The distributors (R118, R120, R122, R166, R228, R229, R432): a queued record is accepted, a gang is placed, a finished team retires, a
counter is incremented, a marked team leaves and a gang comes back.
The model's choices in it are log 2 (which unit moves next), log 45 and log 49, log 46 (the dies of a grid), log 75 (how many teams the last
gang asks for), log 15 (free bytes in the areas, the time left of a timer) and log 19 (the unit through which a distributor translates,
PRESUMED). -/
def Obligations.DistributorEventsComplete : Prop := ∀ (s : State) (die : Nat),
  (∀ k, (s.dist.tasks.filter fun k => k.die = die) = [k] →
      exec (.taskQueueTake die) s = .next ({ s with dist := { s.dist with tasks := s.dist.tasks.erase k } }.accept die k.addr k.asid k.bytes
        k.origin 0)
      ∧ ∀ rs s1 m, readRoles { s with dist := { s.dist with tasks := s.dist.tasks.erase k } } (distUnit die) k.asid k.bytes = (rs, s1) →
          engWrite s1 (distUnit die) k.asid (k.addr + 120) (toBytes 4 (launchStatus k.bytes rs)) [] = .got () m →
          let l := launchOf k.addr k.bytes rs
          let status := launchStatus k.bytes rs
          (status = 0 → exec (.taskQueueTake die) s = .next { m.fresh with dist := { m.dist with grids := m.dist.grids ++
              [{ id := m.nextId, die := die, recAddr := k.addr, asid := k.asid, launch := l, origin := k.origin, cls := l.cls, placed := 0,
                 retired := 0, status := 0 }] } })
          ∧ (status ≠ 0 → exec (.taskQueueTake die) s = .next { m.fresh with dist := { m.dist with increments := m.dist.increments ++
              [{ die := die, counter := l.counter, recAddr := k.addr, asid := k.asid, held := false, grid := m.nextId, origin := k.origin,
                 status := status }] } }))
  ∧ (∀ g core cores s1, s.nextGrid die = some g → g.dies.contains (coreDie core) = true →
      (∀ c ∈ core :: cores, coreDie c = coreDie core) → s.outTeams (coreDie core) = [] →
      (core :: cores).length = min g.launch.gangP (g.launch.total - g.placed) →
      s.fresh.placeTeams g g.placed s.nextId 0 (core :: cores).length (core :: cores) = some s1 →
      exec (.teamPlacement die (core :: cores)) s = .next { s1 with dist := { s1.dist with
        grids := updWhere s1.dist.grids (fun x => x.id = g.id) fun x => { x with placed := x.placed + (core :: cores).length } } })
  ∧ (∀ team t g, s.team? team = some t → s.mayRetire t = true → ((s.dropTeam t).dist.grids.find? fun g => g.id = t.grid) = some g →
      let m := s.dropTeam t
      let i : Increment := { die := g.die, counter := g.launch.counter, recAddr := g.recAddr, asid := g.asid, held := false, grid := g.id,
                             origin := g.origin, status := g.status }
      exec (.teamRetire team) s = .next (if g.retired + 1 < g.launch.total
        then { m with dist := { m.dist with grids := updWhere m.dist.grids (fun x => x.id = g.id) fun x => { x with retired := x.retired + 1 } } }
        else { m with dist := { m.dist with grids := m.dist.grids.filter fun x => x.id ≠ g.id, increments := m.dist.increments ++ [i] } }))
  ∧ (∀ i p ps s1, (s.dist.increments.find? fun i => i.die = die && !i.held && !i.made) = some i →
      engReach s (distUnit die) i.asid i.counter 8 .rmw [] = .got (p :: ps) s1 →
      let m := s1.writeNow p.key (toBytes 8 ((s1.peekLe p.key 8 + 1) % 2 ^ 64)) ((p :: ps).any Part.nc)
      (m.dist.increments.filter fun x => x.grid = i.grid) = [i] → (m.dist.increments.filter Increment.made) = [] →
      (i.queue = none ∨ m.dist.waitsFor i = false → exec (.counterIncrement die) s = .next ({ m with dist := { m.dist with
        increments := m.dist.increments.filter fun x => x.grid ≠ i.grid } }.launchDone i))
      ∧ (i.queue ≠ none → m.dist.waitsFor i = true → exec (.counterIncrement die) s = .next { m with dist := { m.dist with
        increments := updWhere m.dist.increments (fun x => x.grid = i.grid) fun x => { x with made := true } } }))
  ∧ (∀ (counter record : W64),
      let names (i : Increment) : Bool := i.die = die && i.held && i.counter = counter && i.recAddr = record
      s.dist.increments.any names = true → exec (.counterRetry die counter record) s = .next { s with dist := { s.dist with
        increments := updWhere s.dist.increments names fun i => { i with held := false } } })
  ∧ (∀ team t area size m, s.team? team = some t → t.saveArea = some (area, size) → t.marked = true → t.removed = false →
      s.waitingGrids t.die ≠ [] → s.atRest t = true → s.saveJobs t = (true, m) →
      let kept := ((((m.putAwayContext t).dropBundles t).writeNow area (t.spadBytesAt 0 t.launch.spadBytes) false).writeNow
        (area + t.launch.spadBytes) (s.accBytes t) false).writeAreaBytes (area + size - 4096) 4096
      let withK : State := match kept.kArea t with
        | some a => (kept.writeNow a ((List.range 64).map fun n => toBytes 4 (t.kreg n).toNat).flatten false).writeAreaBytes (a + 256) 3840
        | none => kept
      let away := withK.moveCues t (awayCore t)
      let armed := (List.range t.groups.length).filter fun g => (t.group g).tmrcmp ≠ 0
      exec (.teamRemoval team) s = .next (away.updTeam team fun y =>
        { y with removed := true, timerLeft := armed.map fun g => (g, ((t.group g).tmrcmp - s.clock t.cluster).toNat),
                 groups := y.groups.map fun g => { g with tmrcmp := 0 } }))
  ∧ (∀ gang t l cores s1, (s.teams.filter fun t => t.gang = gang) = t :: l → (∀ u ∈ t :: l, u.removed = true) →
      (t :: l).length = cores.length → s.goesFirst t = false → s.returnTeams ((t :: l).zip cores) = some s1 →
      exec (.teamReturn gang cores) s = .next s1)
  ∧ (∀ gone core s1 old area size,
      let m := (gone.threads.map Thread.tid).foldl (fun s x => s.spillThread gone.id x) s
      s.returnTeam gone core = some s1 → m.team? gone.id = some old → old.saveArea = some (area, size) →
      (∀ h ∈ old.threads, ∀ n, h.wait ≠ .nap n) →
      ∃ t, s1.team? gone.id = some t ∧ t.removed = false ∧ t.marked = false ∧ t.core = core ∧ coreDie core = old.die
        ∧ t.spad = putBytes [] 0 (m.peekBytes area old.launch.spadBytes)
        ∧ ∀ a, m.kArea old = some a → t.k = (List.range 64).foldl (fun l n =>
            keep 0 l n (BitVec.ofNat 32 (fieldOf (m.peekBytes a 256) (4 * n) 4))) [])

/-- Trap rings and the team-control port (R220, R222, R223, R226, R227, R330): a record goes to its ring and the produced index rises; a
command names a parked sub-group, a team or a cue by its handle; END_TEAM leaves no thread, no bundle and no pass of the team; a re-armed
cue starts or waits for its predecessors; a killed cue ends, at once or at the boundary of what it is inside.
The model's choices in it are log 2 and log 48. -/
def Obligations.SupervisorEventsComplete : Prop := ∀ (s : State) (die : Nat) (handle : W32) (tid : BitVec 16) (mask : W64),
  (∀ r, (s.traps.records.find? fun r => r.die = die && !r.written) = some r → (s.ring die).full = false →
      let g := s.ring die
      let m := (s.writeNow (g.base + 64 * (g.produced.toNat % g.size)) r.bytes false).updRing die fun x => { x with produced := x.produced + 1 }
      let told (x : TrapRec) : TrapRec := { x with written := true }
      exec (.trapRecordWrite die) s = .next { m with traps := { m.traps with
        records := (updWhere m.traps.records (fun x => x.sub = r.sub) told).filter fun x => x.sub ≠ r.sub || r.kind ≤ 1
        raised := keep 0 m.traps.raised g.server (look 0 m.traps.raised g.server + 1) } })
  ∧ (∀ v : W64, (s.ring die).consumed ≤ v → v ≤ (s.ring die).produced →
      exec (.consumedIndexWrite die v) s = .next (s.updRing die fun x => { x with consumed := v }))
  ∧ (∀ t r, s.answered die handle tid mask = some (t, r) →
      let go (f : Thread → Thread) : State := s.unpark t r f
      let lanes := t.parkedIn r.sub
      (r.kind = 0 → exec (.resume die handle tid mask) s = .next ((go fun h => { h with singleStep := false }).arrive t.id lanes)
        ∧ exec (.resumeStepped die handle tid mask) s = .next ((go fun h => { h with singleStep := true }).arrive t.id lanes)
        ∧ (∀ x t1 h w, lanes = [x] → (go id).team? t.id = some t1 → (go id).thread? t.id x = some h →
            ((go id).fetch (t1.coreOf x) t1.asid h.priv h.pc).1 = .ok w → h.idx + 1 < (headerOf w).count →
            exec (.skip die handle tid mask) s =
              .next (((go id).updLine0 t.id x fun y => y.advance (headerOf w).count).arrive t.id [x])))
      ∧ (r.kind = 1 → ∃ m, exec (.resume die handle tid mask) s = .next m ∧ m.traps.records = s.traps.records.filter (fun x => x.sub ≠ r.sub)
        ∧ match ((s.mx.engines.map Engine.table).flatten ++ s.mx.away).find? fun x =>
              x.team = t.id && x.stopped && x.hdr = r.pc && x.idx = r.idx with
          | some x => ∀ y ∈ (m.mx.engines.map Engine.table).flatten ++ m.mx.away, y.id = x.id ∨ y.id ∈ x.partners → y.stopped = false
          | none => ∀ p ∈ m.mx.ctxs ++ m.mx.awayCtxs, p.team = t.id → p.st ≠ .stopped)
      ∧ ∃ m, exec (.endTeam die handle tid mask) s = .next m
        ∧ (∀ u ∈ m.teams, u.id = t.id → ∀ h ∈ u.threads,
            h.exited = true ∧ h.wait = .ready ∧ h.held = [] ∧ h.parked = false ∧ h.absent = [])
        ∧ (∀ b ∈ m.bundles, b.team ≠ t.id) ∧ (∀ q ∈ m.callees, q.team ≠ t.id)
        ∧ (∀ e ∈ m.mx.engines, ∀ x ∈ e.table, x.team ≠ t.id) ∧ (∀ g ∈ m.dist.grids, g.id = t.grid → g.status = 0x80))
  ∧ (s.answered die handle tid mask = none → exec (.resume die handle tid mask) s = .next (s.log 5 die 0 0 0))
  ∧ (∀ t (size : W32) (addr : W64), s.byHandle die handle = some t →
      ((t.marked = true → t.saveArea = some (addr.toNat, size.toNat)) → t.launch.spadBytes + 512 * t.launch.accRows + 4096 ≤ size.toNat → addr.toNat % 4096 = 0 → addr.toNat + size.toNat ≤ 2 ^ 40 →
        exec (.saveAreaCommand die handle size addr) s = .next (s.updTeam t.id fun x => { x with saveArea := some (addr.toNat, size.toNat) }))
      ∧ (t.marked = false → exec (.saveAreaWithdraw die handle) s = .next (s.updTeam t.id fun x => { x with saveArea := none })))
  ∧ (∀ (id : W32) c, s.cueNamed die handle id = some c → s.cue? c.core c.slot = some c →
      let dead (m : State) (f : W32) : State :=
        ({ m with noise := { m.noise with reqs := m.noise.reqs.filter fun r => r.who ≠ Drawer.cue c.core c.slot } }.fresh).updCue c.core c.slot
          fun x => { x with st := .killed, ended := m.nextId, progress := s.cueProgress c, flags := x.flags ||| f, counting := false,
                            killing := false }
      exec (.reArm die handle id) s = .next (match c.st with
        | .defined => if c.count = 0 then s.fresh.updCue c.core c.slot fun x => { x with st := .active, order := s.nextId }
                      else s.updCue c.core c.slot fun x => { x with st := .armed }
        | .faulted => if c.restartable then s.updCue c.core c.slot fun x => { x with st := .active } else s
        | _ => s)
      ∧ (c.st = .done ∨ c.st = .killed → exec (.kill die handle id) s = .next s)
      ∧ (c.st = .active → c.kind = .walker → s.insideWord c = true →
          exec (.kill die handle id) s = .next (s.updCue c.core c.slot fun x => { x with killing := true }))
      ∧ (c.st = .active → c.kind = .stream → (s.endStream c.core c.slot).streamsOn c = true →
          exec (.kill die handle id) s = .next ((s.endStream c.core c.slot).updCue c.core c.slot fun x => { x with killing := true }))
      ∧ (c.marks = [] →
          (c.st = .defined ∨ c.st = .armed ∨ (c.st = .faulted ∧ c.kind ≠ .walker) ∨ (c.st = .active ∧ (c.kind = .copy ∨ c.kind = .launch)) →
            exec (.kill die handle id) s = .next (dead s 0))
          ∧ (c.kind = .walker → c.st = .faulted ∨ (c.st = .active ∧ s.insideWord c = false) →
            exec (.kill die handle id) s = .next (dead (s.dropJob c.core c.slot) 0))
          ∧ (c.kind = .stream → c.st = .active → (s.endStream c.core c.slot).streamsOn c = false →
            exec (.kill die handle id) s = .next (dead (s.endStream c.core c.slot) (s.streamFlags c)))))

/-- The Usher (R374, R375, R376, R378, R383): a demand of any kind opens a room, enters it or waits, and one that cannot wait stops its
lane; a LEAVE makes room for the waiting line, and the last occupant's draws the curtain, which writes the pending reductions, publishes
the indices and opens the next mode; a room that has reached its tenure while others wait closes; an ETRY whose budget has passed is
answered with false; an answered lane goes on.
The model's choices in it are log 7 and log 29. -/
def Obligations.UsherEventsComplete : Prop := ∀ (s : State) (d : Demand) (r : Region),
  ((s.ushers.demands.find? fun x => x.id = d.id && !x.placed) = some d → s.region? d.desc = some r →
      (∀ x ∈ s.ushers.demands, s.budgetPassed x s.time = false) → s.leavesFirst d = false → s.arriving d = [d] →
      let mark (x : Demand) : Demand := { x with placed := true, at_ := s.time }
      let m : State := { s with ushers := { s.ushers with demands := updWhere s.ushers.demands (fun x => x.id = d.id) mark } }
      let p := m.applyRegion (r.demand d.mode s.time { team := d.team, tid := d.tid, count := d.count })
      (r.full d.mode = true → exec (.usherDemand d.id) s = .next ((s.giveBack d).demandStops d trapRoomWait))
      ∧ (r.full d.mode = false → (∀ n, d.kind ≠ .etry n) → exec (.usherDemand d.id) s = .next p)
      ∧ (∀ n, r.full d.mode = false → d.kind = .etry n → exec (.usherDemand d.id) s = .next
          (if r.budget = 0 && ((p.demand? d.team d.tid).map fun x => x.answer.isNone).getD false
           then (p.withdrawAt d.desc d.team d.tid).answerDemand d.team d.tid (false, 0, 0) else p)))
  ∧ (∀ mode now (w : Waiter),
      let a := r.demand mode now w
      (r.mode = none → r.occupants = [] → a.1.mode = some mode ∧ a.1.occ = 1 ∧ a.1.opened = now ∧ a.1.closing = false
        ∧ a.1.occupants = [(w.team, w.tid)] ∧ a.2.map (fun x => (x.team, x.tid)) = [(w.team, w.tid)])
      ∧ (r.mode = some mode → r.closing = false → r.occ < r.cap mode → r.line = [] →
          a.1.occ = r.occ + 1 ∧ a.1.occupants = r.occupants ++ [(w.team, w.tid)] ∧ a.1.mode = some mode
            ∧ a.2.map (fun x => (x.team, x.tid)) = [(w.team, w.tid)])
      ∧ (r.mode = some mode → r.closing = false → r.cap mode ≤ r.occ ∨ r.line ≠ [] → a = ({ r with line := r.line ++ [w] }, []))
      ∧ (r.mode.isSome = true → r.mode ≠ some mode ∨ r.closing = true → a.2 = [] ∧ a.1.occ = r.occ ∧ a.1.mode = r.mode
          ∧ (r.closing = true ∨ r.expired now = false → a.1 = { r with q := joinQ r.q mode [w] })
          ∧ (r.closing = false → r.expired now = true → a.1 =
              { r with closing := true, line := [], q := joinQ (joinQ r.q mode [w]) (r.mode.getD 0) r.line })))
  ∧ (∀ l, (s.ushers.leaves.find? fun x => x.id = l.id) = some l → s.region? l.desc = some r →
      let m : State := { s with ushers := { s.ushers with leaves := s.ushers.leaves.filter fun x => x.id ≠ l.id } }
      let mode := r.mode.getD 0
      let head := if mode = 4 ∨ (mode = 5 ∧ r.queue) then r.pidx else r.head
      let tail := if mode = 3 ∨ (mode = 5 ∧ r.queue) then r.rtail else r.tail
      let written := m.writeRuns (r.pend.map fun p => (p.1, toBytes r.esize (pendCode r.red p.2)))
      let shown := if head = r.head ∧ tail = r.tail then written
        else written.writeNow (r.desc + 40) (toBytes 4 head.toNat ++ toBytes 4 tail.toNat) false
      let left : Region := { r with occ := r.occ - 1, occupants := r.occupants.filter fun x => x ≠ (l.team, l.tid) }
      (r.occupants.contains (l.team, l.tid) = false → exec (.usherLeave l.id) s = .next m)
      ∧ (r.occupants = [(l.team, l.tid)] → r.occ = 1 → exec (.usherLeave l.id) s = .next (match joinQ r.q mode r.line with
          | [] => shown.setRegion { r with occ := 0, occupants := [], head := head, tail := tail, pend := [], mode := none, closing := false,
                                           line := [], q := [] }
          | e :: rest => shown.applyRegion (({ r with occ := 0, occupants := [], head := head, tail := tail, pend := [], q := rest } :
              Region).openFor e.1 s.time e.2)))
      ∧ (r.occupants.contains (l.team, l.tid) = true → 1 < r.occ →
          (r.closing = true ∨ r.line = [] ∨ r.cap mode ≤ r.occ - 1 → exec (.usherLeave l.id) s = .next (m.setRegion left))
          ∧ (∀ w ws, r.closing = false → r.line = w :: ws → r.occ - 1 < r.cap mode →
              let a := ({ left with line := [] } : Region).admitFrom (w :: ws)
              exec (.usherLeave l.id) s = .next (m.applyRegion ({ a.1 with line := a.2.2 }, a.2.1)))))
  ∧ (s.region? r.desc = some r → r.mode.isSome = true → r.closing = false → r.q ≠ [] →
      (if r.tenure = 0 then 8192 else r.tenure) ≤ s.time - r.opened →
      exec (.tenureExpiry r.desc) s = .next (s.setRegion { r with closing := true, line := [], q := joinQ r.q (r.mode.getD 0) r.line }))
  ∧ (∀ n, s.demand? d.team d.tid = some d → s.region? d.desc = some r → d.kind = .etry n → d.placed = true → d.answer = none →
      r.budget ≤ s.time - d.at_ →
      exec (.etryBudgetExpiry d.team d.tid) s = .next ((s.setRegion (r.withdraw d.team d.tid)).answerDemand d.team d.tid (false, 0, 0)))
  ∧ (∀ a t h, s.demand? d.team d.tid = some d → d.answer = some a → s.team? d.team = some t → s.thread? d.team d.tid = some h →
      h.wait = .usher → t.removed = false →
      exec (.roomAdmission d.team d.tid) s = .next ((s.enterDone d a).resumePast d.team d.tid 0))

/-- Cues, walkers and passes (R245, R252, R253, R255, R287, R290, R294, R315, R317, R321, R330): a cue starts, completes or faults; a job
takes its context, with the state of its save area where it was saved; a pass is granted when its engine is free, ages while it waits,
and completes in stream order, or stops at its row.
The model's choices in it are log 2, log 7, log 42, log 43, log 44 and log 67 (a pass's place in the table is free at its completion,
DESIGN CHOICE). -/
def Obligations.EngineEventsComplete : Prop := ∀ (s : State) (cluster : Nat),
  (∀ core slot c, s.cue? core slot = some c →
    (∀ m, s.startStep c = .did m → exec (.cueStart core slot) s = .next m)
    ∧ (∀ t, c.st = .active → c.started = false → s.team? c.team = some t → t.removed = false →
        let begun (m : State) : State := m.updCue core slot fun y => { y with started := true }
        (c.kind = .copy → c.shoot = none → c.transits = ([], []) → exec (.cueStart core slot) s = .next (begun s))
        ∧ (∀ b s1, c.kind = .walker → (s.cues.any fun x => x.kind = .walker && x.st = .active && !x.started && x.cluster = c.cluster &&
              x.order < c.order) = false → engReadLong s c.unit c.asid c.recA 4 = .got b s1 →
            exec (.cueStart core slot) s = .next (begun { s1 with walk := { s1.walk with jobs := s1.walk.jobs ++
              [{ cluster := c.cluster, ctx := fieldOf b 13 1 % 4, core := core, slot := slot, record := b, saved := false }] } }))
        ∧ (∀ b s1, c.kind = .launch → s.taskRoom (coreDie core) = true → engReadLong s c.unit c.asid c.recA 4 = .got b s1 →
            exec (.cueStart core slot) s = .next (begun (s1.enqueue { die := coreDie core, addr := c.recA, asid := c.asid, bytes := b,
                                                                      origin := .cue core slot c.gen, cls := c.cls })))
        ∧ (∀ p, c.kind = .stream → s.context? t = some p → p.st = .idle → exec (.cueStart core slot) s = .next (begun
            (s.updContext p.cluster p.ctx fun x => { x with st := .running, hdr := c.recA, idx := 0, count := 0, wbDone := false,
                                                            staged := none, stagedFrom := none, cue := some (core, slot) }))))
    ∧ (∀ p ps m, c.st = .active → c.performed = true → engReach s c.unit c.asid c.counter 8 .rmw c.marks = .got (p :: ps) m →
        let v := (m.peekLe p.key 8 + 1) % 2 ^ 64
        let m2 := (m.writeNow p.key (toBytes 8 v) ((p :: ps).any Part.nc)).noteJoin
          { key := p.key, value := v, team := c.team, core := c.core, scope := c.scope, flags := c.flags }
        let m3 := (m2.unmark c).fresh.updCue c.core c.slot fun y => { y with st := .done, ended := s.nextId }
        exec (.cueCompletion core slot) s = .next (c.edges.foldl (fun s e => s.decrement e.1 e.2.1 e.2.2) m3))
    ∧ (∀ x r m, s.startStep c = .fault x r m → exec (.cueFault core slot) s = .next (m.faultCue c x r)))
  ∧ (256 ≤ look 0 s.walk.issued cluster → exec (.walkerSlotRotation cluster) s = .next (s.passSlot cluster))
  ∧ (∀ c, s.walker? cluster c.ctx = some c →
      (∀ d pa len va, c.wait = .load d pa len va →
        let r := s.fetchLine c pa va
        exec (.walkerLoadReturn cluster c.ctx) s = .next (r.1.setWalker
          { r.2 with w := keep 0 r.2.w d (BitVec.ofNat 32 (r.2.arrived pa len)), wait := .none }))
      ∧ (∀ l, c.wait = .elements l →
        let r := l.foldl (fun a x => a.1.fetchLine a.2 x.1 x.2) (s, c)
        exec (.walkerLoadReturn cluster c.ctx) s = .next (r.1.setWalker { r.2 with wait := .none })))
  ∧ (∀ ctx j q prog m, ((s.walker? cluster ctx).map Walker.running).getD false = false → s.nextJob cluster ctx = some j →
      s.cue? j.core j.slot = some q → jobLegal j.record = true →
      let job := jobOf j.record
      let fresh : Walker := { Walker.idle cluster ctx with
        cue := some (j.core, j.slot), team := q.team, asid := q.asid, job := job, record := j.record, running := true, stored := j.saved,
        wprog := BitVec.ofNat 32 q.progress, w := (job.init.zip (List.range 16)).foldl (fun m p => keep 0 m p.2 p.1) [] }
      let taken : State := { s with walk := { s.walk with
        jobs := s.walk.jobs.filter fun x => !(x.core = j.core && x.slot = j.slot), ctxs := fresh :: s.walk.ctxs.filter fun x => !(x.cluster = cluster && x.ctx = ctx) } }
      loadProgram taken (clusterUnit cluster) q.asid job.program 0 [] job.len = .got prog m →
      let ready : Walker := { fresh with prog := prog }
      (j.saved = false → exec (.walkerJobStart cluster ctx) s = .next (m.setWalker ready))
      ∧ (∀ b m1, j.saved = true → engReadLong m (clusterUnit cluster) q.asid job.save 514 = .got b m1 →
          exec (.walkerJobStart cluster ctx) s = .next (m1.setWalker (ready.restored b))))
  ∧ exec (.passAging cluster) s = .next (s.setEngine { s.engine cluster with table := (s.engine cluster).table.map fun x =>
      if x.granted then x
      else { x with cls := x.cls - (s.time - x.posted) / 4096, posted := x.posted + 4096 * ((s.time - x.posted) / 4096) } })
  ∧ (∀ x t m, let s1 := (List.range 8).foldl (fun s c => s.consumePasses cluster c) (s.agePasses cluster)
      (s1.engine cluster).busy = false → s1.nextPass cluster = some x → s1.team? x.team = some t →
      s1.chain cluster t x = some [(cluster, t)] →
      let s2 := s1.reserve cluster x
      s2.matching x [(cluster, t)] = some [m] → m.2.2.2 = { x with reserved := true } → (s2.engine m.1).busy = false →
      s2.firstBad [m] = none →
      exec (.passGrant cluster) s = .next (s2.startPass m true [m.2.2.2.id])
      ∧ ∀ z ∈ ((s2.startPass m true [m.2.2.2.id]).engine cluster).table, z.id = x.id →
          z.granted = true ∧ z.reserved = false ∧ z.grantedAt = s.time
          ∧ (x.latched = false → z = { x with
              granted := true, reserved := false, latched := true, weights := if x.isMul then m.2.1.slot else none,
              codebook := if x.isMul then m.2.1.codebook.getD [] else [], row := m.2.1.mprog, partners := [x.id],
              fromLatch := x.isMul && (match (s2.engine cluster).reuse with
                | some r => decide (r.ctx = x.ctx)
                | none => false),
              capture := x.isMul && decide (x.word.ru = 1) && (s2.engine cluster).reuse.isNone, grantedAt := s.time }))
  ∧ (∀ x p, let e := s.engine cluster
      (e.table.find? fun x => x.finished && decide (((s.passesOf cluster x.ctx)[0]?).map Pass.id = some x.id)) = some x →
      (s.mx.ctxs.find? fun p => p.cluster = cluster && p.ctx = x.ctx) = some p →
      let m := (s.setEngine { e with table := e.table.filter fun y => y.id ≠ x.id }).updContext cluster x.ctx fun q =>
        { q with flags := p.flags ||| x.flags }
      exec (.passCompletion cluster) s = .next ((if x.word.sb = 15 then m
        else m.signal x.team x.word.sb.toNat (p.flags ||| x.flags)).settleIdle cluster x.ctx))
  ∧ (∀ x p t e m, s.runningPass cluster = some (x, p, t) → rowStep x p t cluster s = .stop e m →
      let l := if x.isMul then (m.runners x).getD [] else [(cluster, t, x)]
      ∃ n, exec (.passStop cluster) s = .next n
        ∧ (∀ k ∈ l, ∀ z ∈ (n.engine k.1).table, z.id = k.2.2.id → z.stopped = true ∧ z.halted = true ∧ z.granted = false)
        ∧ (l = [(cluster, t, x)] → x.kind ≠ .mload → ∀ q ∈ n.mx.ctxs, q.cluster = cluster → q.ctx = x.ctx → q.mprog = x.row)
        ∧ (∀ k ∈ l, k.2.2.id = x.id → ∃ r ∈ n.traps.records, r.kind = 1 ∧ r.team = k.2.1.id ∧ r.code = e.code ∧ r.pc = k.2.2.hdr ∧
            r.idx = k.2.2.idx ∧ r.va = e.va ∧ r.written = false))

/-- Noise (R76-R81): a source delivers to the oldest request of its cluster, records the draw of a rehearsing team at the done index, or a
replaying consumer takes the records of its tag and ordinals, which count with the last of them; the done index then stands past the
leading records that any team of the launch has taken; a failing source delivers nothing until
it passes.
The model's choices in it are log 2, log 10, log 54 and log 81 (a ring base that is not aligned). -/
def Obligations.NoiseEventsComplete : Prop := ∀ (s : State) (cluster : Nat) (r : DrawReq),
  exec (.noiseHealthFailure cluster) s = .next ((if s.noise.failing.contains cluster then s
    else { s with noise := { s.noise with failing := cluster :: s.noise.failing } }).log 4 (clusterDie cluster) cluster 0 0)
  ∧ exec (.noiseHealthPass cluster) s = .next { s with noise := { s.noise with failing := s.noise.failing.filter fun c => c ≠ cluster } }
  ∧ (s.nextLive cluster = some r → s.noise.failing.contains cluster = false → s.drawMode r = 0 →
      exec (.noiseDrawDelivery cluster) s = .next ({ s with noise := { s.noise with drawn := s.noise.drawn + 1 } }.giveDraw r
        (Config.noiseDraw s.noise.drawn).toNat))
  ∧ (∀ t done limit m, s.nextLive cluster = some r → s.noise.failing.contains cluster = false → s.team? r.team = some t → t.rehearsal = 1 →
      drawIndices s t (clusterUnit cluster) r = .got (done, limit) m →
      let u := clusterUnit cluster
      let draw := (Config.noiseDraw m.noise.drawn).toNat
      let word := draw % 2 ^ 16 + 2 ^ 16 * (r.tid % 2 ^ 10) + 2 ^ 26 * (r.kind % 8) + 2 ^ 32 * (look 0 t.draws (1024 * r.kind + r.tid) % 2 ^ 32)
      let drawn : State := { m with noise := { m.noise with drawn := m.noise.drawn + 1 } }
      (∀ m1 m2, done < limit → engWrite drawn u t.asid (t.ringBase + BitVec.ofNat 64 (8 * (done % t.ringSize))) (toBytes 8 word) [] = .got () m1 →
          engWrite m1 u t.asid (t.launch.segBase + 16) (toBytes 8 (done + 1)) [] = .got () m2 →
          exec (.rehearsalRecord cluster) s = .next (m2.giveDraw r draw))
      ∧ (limit ≤ done → exec (.rehearsalRecord cluster) s = .next m))
  ∧ (∀ t b s1 s2 draw i, s.replayReq cluster r.id = some r → s.team? r.team = some t → t.rehearsal = 2 →
      let u := clusterUnit cluster
      let at_ := t.launch.segBase + 16
      let tag := 1024 * r.kind + r.tid
      engRead s u t.asid at_ 16 [] = .got b s1 →
      let done := fieldOf b 0 8
      let room := min t.ringSize (fieldOf b 8 8 - done)
      findRecord s1 t u r.kind r.tid ((look 0 t.draws tag + r.slots.length) % 2 ^ 32) done room = .got (some (draw, i)) s2 →
      let r1 := { r with got := r.got ++ [draw], slots := r.slots ++ [i] }
      let past := takenFrom (s2.noise.taken ++ r1.slots.map fun j => (t.grid, j)) t.grid done room
      (r1.ready = false → exec (.replayDraw cluster r.id) s = .next (s2.setDraw r1))
      ∧ (∀ s3, r1.ready = true → engWrite s2 u t.asid at_ (toBytes 8 (done + past)) [] = .got () s3 →
          exec (.replayDraw cluster r.id) s = .next (((s3.takeRecords t r1.slots (done + past)).setDraw { r1 with slots := [] }).updTeam r.team
            fun t => { t with draws := keep 0 t.draws tag (look 0 t.draws tag + r1.slots.length) })))

/-- The host, the ports and control space (R417, R419, R420, R422-R424, R426, R429, R430): doorbells and completion entries, port queues,
registers, lost paths and devices, the islands' sensors and bring-up.
The model's choices in it are log 2, log 13, log 16, log 55, log 56, log 57 and log 58. -/
def Obligations.HostEventsComplete : Prop := ∀ (s : State) (q : Nat),
  let c := s.ctl
  let put (off : Nat) (v : W64) : State := { s with ctl := c.setReg off v }
  (∀ tail : W32, q < 16 → c.hostMay (queueWord q 1) = true →
      exec (.hostDoorbell q tail) s = .next ({ s with ctl := c.setHi32 (queueWord q 1) tail.toNat }.serveQueue q))
  ∧ (∀ x, (c.completions.find? fun x => x.queue = q) = some x → c.queueOn q = true →
      let k := c.doneTail q
      let at_ := (c.reg (queueWord q 3)).toNat + 16 * (k % c.queueSize q)
      (k + 2 ^ 32 - c.doneHead q) % 2 ^ 32 < c.queueSize q → ringSpace c at_ = true →
      let m := s.writeNow at_ (completionBytes k (c.queueSize q) x) false
      let after : Ctl := { m.ctl with completions := m.ctl.completions.erase x }
      exec (.hostCompletionWrite q) s = .next { m with ctl := after.setHi32 (queueWord q 4) (k + 1) })
  ∧ (∀ head : W32, q < 16 → c.hostMay (queueWord q 4) = true →
      exec (.completionHeadWrite q head) s = .next { s with ctl := c.setLo32 (queueWord q 4) head.toNat })
  ∧ (∀ port, port < 3 → q < 256 → c.ready = true →
      let at_ := (c.reg (0x20 + 8 * port)).toNat + 32 * q
      let m := s.push (lineOf at_)
      let b := m.peekBytes at_ 32
      let mine (p : PortQueue) : Bool := p.port = port && p.queue = q
      ringSpace c at_ = true → accessPasses c (portClass port) at_ false = true →
      (bitOf (fieldOf b 20 1) 0 = false →
        exec (.queueEnable port q) s = .next { m with ctl := { m.ctl with ports := m.ctl.ports.filter fun p => !mine p } })
      ∧ (bitOf (fieldOf b 20 1) 0 = true → m.ctl.ports.any mine = false →
        exec (.queueEnable port q) s = .next { m with ctl := { m.ctl with ports :=
          { port := port, queue := q, subBase := BitVec.ofNat 64 (fieldOf b 0 8), compBase := BitVec.ofNat 64 (fieldOf b 8 8),
            asid := BitVec.ofNat 16 (fieldOf b 16 2), size := fieldOf b 18 2, done := 0 } :: m.ctl.ports } }))
  ∧ (∀ port cells p bad ps s1 s2, (c.ports.find? fun p => p.port = port && p.queue = q) = some p → p.size ≠ 0 →
      s.portWork p cells = .got bad s1 →
      portReach s1 p (p.compBase + BitVec.ofNat 64 (16 * (p.done % p.size))) 16 .write = .got ps s2 →
      let body := (List.range 16).map fun i => if bad then Config.portError (s2.choices + i) else Config.portByte (s2.choices + i)
      let w := ps.foldl (fun s x => s.writeNow x.key ((body.drop x.pos).take x.len) x.nc) { s2 with choices := s2.choices + 16 }
      let count (x : PortQueue) : PortQueue := { x with done := x.done + 1 }
      exec (.portWorkCompletion port q cells) s = .next { w with ctl := { w.ctl with
        ports := updWhere w.ctl.ports (fun x => x.port = port && x.queue = q) count } })
  ∧ (∀ n k h v, c.ready = true → n < 516 → k < 6 → h < 32 →
      let off := 0x2000000 + 0x1000 * n + 0x100 * k + 8 * h
      exec (.accessTableWrite off v) s = .next (put off (if h % 2 = 0 then v else BitVec.ofNat 64 (v.toNat % 2 ^ 35))))
  ∧ (∀ nonce, c.hostMay 0x5000020 = true →
      let asks := (List.range 4).foldl (fun (c : Ctl) i => c.setReg (0x5000000 + 8 * i) (BitVec.ofNat 64 (nonce.toNat / 2 ^ (64 * i)))) c
      exec (.attestationRequest nonce) s = .next ({ s with ctl := asks }.attest))
  ∧ (∀ n v, 1 ≤ n → n ≤ 6 → exec (.controlRegisterWrite (8 * n) v) s = .next (put (8 * n) v))
  ∧ (∀ n v, n < 2048 → exec (.controlRegisterWrite (0x1000000 + 8 * n) v) s = .next (put (0x1000000 + 8 * n) (BitVec.ofNat 64 (v.toNat % 2 ^ 15))))
  ∧ (∀ dev path, path < 16 → c.down.contains (dev, path) = false →
      let m := s.updReqs (fun r => r.device c = some dev) fun r => { r with paths := r.paths.filter fun p => p ≠ path }
      exec (.pathDown dev path) s = .next { m with ctl := { m.ctl with down := (dev, path) :: m.ctl.down } })
  ∧ (∀ dev, c.unreachable.contains dev = false → (∀ p < 16, c.down.contains (dev, p) = true) → s.flight.reqs = [] → s.flight.ops = [] →
      let gone : State := { s with ctl := { c with unreachable := dev :: c.unreachable } }
      let held := s.coh.copies.filter fun (k : Copy) => k.who = .device dev
      let less := held.foldl (fun s (k : Copy) => if k.modified then s.markLost k.line else s.writeBack k.line [] none) gone
      exec (.deviceUnreachable dev) s = .next (less.log 6 8 0 (BitVec.ofNat 32 dev) 0))
  ∧ (q < 128 → exec (.thermalTrip q) s = .next ((s.sense q 1050 none (some 32)).log 8 (Config.islandDie q) q 0 0)
      ∧ (1000 * (c.reg 0x18).toNat < c.power → exec (.powerCap q) s = .next
          ((s.sense q 0 (some (bitsOf (c.reg (telemetryOf q)).toNat 48 16)) none).log 7 (Config.islandDie q) q 0 0)))
  ∧ (∀ block, c.ready = false → c.halted = false →
      let m := s.bringUpFields block
      exec (.bringUp true block) s = .next ((List.range 16).foldl (fun s q => s.serveQueue q)
        { m with ctl := { m.ctl with ready := true, measured := m.ctl.measure }.setReg 0 2 })
      ∧ exec (.bringUp false block) s = .next ({ s with ctl := { c with halted := true }.setReg 0 1 }.log 9 8 0 0 0))

/-! ## The machine as a whole -/

/-- A step runs the instruction that the turn's agent has fetched and decoded (R23, R46 steps 1 to 4, R104, R260, R287; the order of turns is
log 1). The port of a bundle takes its bundles by effective class, then grid age, then team number, and one that is not ready lets the
next go; a bundle reads the word at its PC record, a Prompter context the word behind its header, a walker context its program at its PC;
an event is run as it stands. -/
def Obligations.StepRunsDecodedInstruction : Prop := ∀ (s s0 : State),
  (∀ t r, s.agenda = t :: r → s.nextTurn = (t, { s.pass 1 with agenda := r }))
  ∧ (∀ id a x l, s.nextTurn = (.bundle id, s0) → (s0.bundles.find? fun b => b.id = id) = some a → s0.portOrder id = x :: l →
      (∃ c ∈ s0.bundles, c.id = x ∧ s0.portOf c = s0.portOf a ∧ c.notBefore ≤ s0.time
        ∧ ∀ d ∈ s0.bundles, s0.portOf d = s0.portOf a → d.notBefore ≤ s0.time → rankLe (s0.rank c) (s0.rank d) = true)
      ∧ ∀ b t h w i s1, (s0.bundles.find? fun b => b.id = x) = some b → s0.team? b.team = some t →
        (b.threads t)[0]? = some h → b.notBefore ≤ s0.time → s0.fetch (t.coreOf h.tid) t.asid h.priv h.wordAddr = (.ok w, s1) →
        decodeCore w = .ok i → (endsClause i = true → b.count ≤ h.idx + 1) →
        let m : State := { s1 with cur := .bundle x, bundles := s1.bundles.filter (fun c => c.id ≠ x) ++ [{ b with stalled := false }] }
        (∀ s2, exec i m = .next s2 → step s = if s2.stallsAt x = true then issueFirst exec s2 l else .next s2)
        ∧ (∀ f, exec i m = .fault f → step s = .fault f) ∧ ∀ r, exec i m = .refused r → step s = .refused r)
  ∧ (∀ cluster ctx p t w i s1, s.nextTurn = (.prompter cluster ctx, s0) →
      (s0.mx.ctxs.find? fun p => p.cluster = cluster && p.ctx = ctx) = some p → s0.team? p.team = some t → p.st = .running →
      t.removed = false → p.count ≠ 0 → s0.fetch (clusterUnit cluster) t.asid false (p.hdr + BitVec.ofNat 64 (8 + 8 * p.idx)) = (.ok w, s1) →
      decodeStream w = .ok i → (endsStream i = true → p.count ≤ p.idx + 1) → step s = exec i { s1 with cur := .prompter cluster ctx })
  ∧ (∀ cluster c i, s.nextTurn = (.walker cluster, s0) → s0.walker? cluster (look 0 s0.walk.slot cluster) = some c →
      s0.walkerCanRun c = true → look 0 s0.walk.issued cluster < 256 → c.stopped = false → c.pc < c.job.len →
      decodeWalker (look 0 c.prog c.pc) = .ok i → step s = exec i { s0.endWait c with cur := .walker cluster c.ctx })
  ∧ (∀ i, s.nextTurn = (.event i, s0) → i.kind = .event → step s = exec i { s0 with cur := .none })

/-- Words of the spec's own tables decode to the instructions that they stand for, one of each format (R36-R42, R258, R291). -/
def Obligations.WordsOfTheSpecDecode : Prop :=
  decodeTableWord 64 0x0042830800800F00 = some (.iadd { d := 5, a := 3, b := 4, c := 0, g := 1, gn := 0, fe := 0, ty := 0, rm := 0, tk := 15, md := 0 })
  ∧ decodeTableWord 64 0x40C50B1837835F20 = 
    some (.ffma { d := 10, a := 11, b := 12, c := 13, g := 7, gn := 0, fe := 0, ty := 6, rm := 5, tk := 15, md := 0x20 })
  ∧ decodeTableWord 64 0xC50000E000001388 = some (.tmrset { d := 0, a := 0, g := 7, gn := 0, fe := 0, md := 0, imm := 5000 })
  ∧ decodeTableWord 64 0xC010800100000040 = some (.bra { g := 2, gn := 0, bs := 1, a := 0, md := 1, off := 0x40 })
  ∧ decodeTableWord 64 0xD854000000000040 = some (.kmovi { kd := 20, ka := 0, kb := 0, md := 0, imm := 64 })
  ∧ decodeTableWord 64 0x80041401C103C040 = some (.ld { d := 8, a := 20, b := 0, g := 7, gn := 0, fe := 0, w := 2, sc := 0, ord := 0, tk := 15, off := 0x40 })
  ∧ decodeTableWord 64 0xB8CF18186B800F00 = some (.copy { d := 30, a := 24, b := 12, c := 26, g := 7, gn := 0, fe := 0, md := 0, tk := 15, cp := 0 })
  ∧ decodeTableWord 32 0x41504000 = some (.wld 5 4 1 0)
  ∧ decodeTableWord 32 0x4CFFFFF1 = some (.wbr 3 0x3FFFF1)

/-- Encoding and decoding agree in both directions (R36-R42, R46 steps 2 to 4, R258, R259, R291): every well-formed instruction that has
a word is read back from it with every field, by the decoder of the unit that fetches it; and a word that a decoder accepts is the word
of the instruction it gives, so no bit of it is dropped. -/
def Obligations.EncodingsReadBack : Prop :=
  (∀ i : Instr, i.wellFormed = true → i.kind ≠ .event → decodeBytes i.kind (encode i) = .ok i)
  ∧ (∀ (w : W64) (i : Instr), decodeCore w = .ok i → i.kind = .core ∧ i.wellFormed = true ∧ encodeWord i = w)
  ∧ (∀ (w : W64) (i : Instr), decodeStream w = .ok i → i.kind = .stream ∧ i.wellFormed = true ∧ encodeWord i = w)
  ∧ (∀ (w : W32) (i : Instr), decodeWalker w = .ok i → i.kind = .walker ∧ i.wellFormed = true ∧ encodeWalker i = w)

/-- Every step keeps the memory in its canonical form: addresses strictly rising, and no entry that an unlisted address would read as. -/
def Obligations.StepsKeepMemoryCanonical : Prop := ∀ s s' : State, Memory.wf s.mem = true → step s = .next s' → Memory.wf s'.mem = true

/-- The part right after reset (R225, R336, R430; what no rule gives is log 3 and log 5): no team, no bundle and no engine work is there,
memory and every sequence tag read 0, no trap ring is set, no interrupt has been raised, the part is neither ready nor halted, and the
memory has its canonical form. -/
def Obligations.ResetIsEmpty : Prop :=
  State.reset.teams = [] ∧ State.reset.bundles = [] ∧ State.reset.flight.reqs = [] ∧ State.reset.mx.ctxs = [] ∧ State.reset.walk.ctxs = []
  ∧ State.reset.cues = [] ∧ Memory.wf State.reset.mem = true ∧ (∀ a, getByte State.reset.mem a = 0) ∧ (∀ line, State.reset.tag line = 0)
  ∧ (∀ die < 8, (State.reset.ring die).set_ = false ∧ (State.reset.ring die).full = true ∧ (State.reset.ring die).produced = 0
      ∧ look 0 State.reset.traps.raised die = 0)
  ∧ State.reset.ctl.reg 0 = 0 ∧ State.reset.ctl.ready = false ∧ State.reset.ctl.halted = false

/-- A write to memory changes its own bytes and no other, and two memories in canonical form that read alike are equal.
The model's choice in it is log 5. -/
def Obligations.MemoryReadsWhatWasWritten : Prop :=
  (∀ (m : List Host.Cell) (a : Nat) (d : List Byte), getBytes (putBytes m a d) a d.length = d)
  ∧ (∀ (m : List Host.Cell) (a : Nat) (d : List Byte) (x : Nat), x < a ∨ a + d.length ≤ x → getByte (putBytes m a d) x = getByte m x)
  ∧ (∀ m n : List Host.Cell, Memory.wf m = true → Memory.wf n = true → (∀ a, getByte m a = getByte n a) → m = n)

/-- Step 5 of R46: a privileged instruction in a thread outside supervisor mode stops it with PRIVILEGE, whatever its guard (R48, R179,
R180): TLBINV, ASIDSET, CTXEVICT, REGMODE, RECLAIM, and SWRITE of a state that only the supervisor writes. -/
def Obligations.PrivilegedInstructionsStop : Prop := ∀ (s : State) (b : Bundle) (t : Team) (x : Nat) (h : Thread) (k : KWord) (m : MWord) (i : IWord),
  s.issuer = some (b, t) → b.tids = [x] → t.pick [x] = [h] → h.tid = x → t.thread? x = some h → h.priv = false →
  StopsWith (.tlbinv k) s t x h trapPrivilege ∧ StopsWith (.asidset k) s t x h trapPrivilege ∧ StopsWith (.ctxevict k) s t x h trapPrivilege
  ∧ StopsWith (.regmode m) s t x h trapPrivilege ∧ StopsWith (.reclaim m) s t x h trapPrivilege
  ∧ (i.imm = 0x10 ∨ i.imm = 0x11 ∨ i.imm = 0x1D ∨ i.imm = 0x1E → StopsWith (.swrite i) s t x h trapPrivilege)

/-- One write applied at its home (R85, R336): the tag of its line rises by 1 modulo 2^24, whether or not a bit changes, and no other
tag does; the line holds its old bytes with the pieces laid over them, and every byte outside the line reads as before. -/
def Obligations.WritesRaiseTheirLinesTag : Prop := ∀ (s : State) (line : Nat) (ps : Pieces) (req : Option Nat) (writer : Option Sharer)
    (nc : Bool), isDeviceLine line = true → (∀ p ∈ ps, p.1 + p.2.length ≤ 128) →
  let m := s.openWrite line req ps writer nc
  m.tag line = (s.tag line + 1) % 2 ^ 24
  ∧ (∀ other, other ≠ line → m.tag other = s.tag other)
  ∧ getBytes m.mem line 128 = applyPieces (getBytes s.mem line 128) ps
  ∧ (∀ a, a < line ∨ line + 128 ≤ a → getByte m.mem a = getByte s.mem a)


end
end

