-- ==== Sys2Proof/Laws/Issue.lean ====
section
/-! SUPPORT. What issuing an instruction does: the gate of a bundle that is clear, lanes that act in turn, and the end of an issue. -/

namespace Sys2Proof.Laws

open Sys2Proof Sys2Proof.Machine

/-! ## Teams and threads found after an update -/

theorem find_updWhere {α : Type} (l : List α) (p q : α → Bool) (f : α → α) (hp : ∀ a, p (f a) = p a) :
    (updWhere l q f).find? p = (l.find? p).map fun a => if q a then f a else a := by
  induction l with
  | nil => rfl
  | cons a r ih =>
    unfold updWhere at *
    by_cases hq : q a <;> by_cases ha : p a <;> simp [List.find?, hq, ha, hp, ih]

theorem team_updTeam (s : State) (id id' : Nat) (f : Team → Team) (hf : ∀ t, (f t).id = t.id) :
    (s.updTeam id f).team? id' = (s.team? id').map fun t => if t.id = id then f t else t := by
  unfold State.team? State.updTeam
  rw [find_updWhere _ _ _ _ (by simp [hf])]
  simp

theorem team_id {s : State} {id : Nat} {t : Team} (h : s.team? id = some t) : t.id = id := by
  have := List.find?_some h
  simpa using this

theorem thread_tid {t : Team} {x : Nat} {h : Thread} (hx : t.thread? x = some h) : h.tid = x := by
  have := List.find?_some hx
  simpa using this

theorem thread_congr {t u : Team} (h : t.threads = u.threads) (x : Nat) : t.thread? x = u.thread? x := by
  unfold Team.thread?; rw [h]

theorem group_congr {t u : Team} (h : t.groups = u.groups) (x : Nat) : t.group x = u.group x := by
  unfold Team.group; rw [h]

theorem thread_updWhere (t : Team) (x : Nat) (q : Thread → Bool) (f : Thread → Thread) (hf : ∀ h, (f h).tid = h.tid) :
    ({ t with threads := updWhere t.threads q f } : Team).thread? x = (t.thread? x).map fun h => if q h then f h else h := by
  unfold Team.thread?
  exact find_updWhere _ _ _ _ (by simp [hf])

/-! ## The gate -/

theorem any_eq_false_of {α : Type} {l : List α} {p : α → Bool} (h : ∀ a ∈ l, p a = false) : l.any p = false := by
  simpa using h

/-- Nothing stops or delays a bundle that is clear. -/
theorem clear_gate {s : State} {b : Bundle} {t : Team} {f : Form} (c : Clear s b t f) : gate f t b.tids = .pass := by
  have h1 : (f.priv && (t.pick b.tids).any fun h => !h.priv) = false := by
    cases hp : f.priv with
    | false => simp
    | true => simpa using c.privilege hp
  have h2 : ((t.pick b.tids).any fun h => f.quadBad (t.allot h.tid)) = false := any_eq_false_of c.quad
  have h3 : ((t.pick b.tids).any fun h => f.beyond (t.allot h.tid)) = false :=
    any_eq_false_of fun h hh => any_eq_false_of fun r hr => by simpa using c.allot h hh r hr
  have h4 : ((t.pick b.tids).any fun h => f.lines.any h.absent.contains) = false :=
    any_eq_false_of fun h hh => any_eq_false_of fun l hl => by simpa using c.resident h hh l hl
  have h5 : f.ks.any t.kWait.contains = false := any_eq_false_of fun k hk => by simpa using c.kFree k hk
  have hact : ∀ h ∈ (t.pick b.tids).filter (fun h => h.guard f.g f.gn), ∀ p ∈ f.srcs ++ f.dsts,
      p.regs.any h.empty.contains = false := by
    intro h hh p hp
    rw [List.mem_filter] at hh
    exact any_eq_false_of fun r hr => by simpa using c.full h hh.1 hh.2 p hp r hr
  have h6 : ((t.pick b.tids).filter (fun h => h.guard f.g f.gn)).any (emptySource f) = false :=
    any_eq_false_of fun h hh => any_eq_false_of fun p hp => by
      rw [hact h hh p (List.mem_append_left _ hp)]; simp
  have h7 : ((t.pick b.tids).filter (fun h => h.guard f.g f.gn)).any (laneWaits f) = false :=
    any_eq_false_of fun h hh => by
      unfold laneWaits
      rw [any_eq_false_of fun p hp => hact h hh p (List.mem_append_left _ hp),
        any_eq_false_of fun p hp => hact h hh p (List.mem_append_right _ hp)]
      rw [List.mem_filter] at hh
      cases ht : f.tok with
      | none => rfl
      | some n => simpa using c.token n ht h hh.1 hh.2
  unfold gate
  have hh : gateHead f t (t.pick b.tids) = .pass := by
    unfold gateHead
    rw [h1, c.formed, h2, h3, h4, h5]
    simp
  rw [hh]
  unfold gateTail
  simp only [h6, h7]
  simp

/-! ## The end of an issue -/

theorem advance_tid (h : Thread) (n : Nat) : (h.advance n).tid = h.tid := by
  unfold Thread.advance Thread.goto; split <;> rfl

theorem advance_singleStep (h : Thread) (n : Nat) : (h.advance n).singleStep = h.singleStep := by
  unfold Thread.advance Thread.goto; split <;> rfl

theorem stopLanes_nil (s : State) (team : Nat) : s.stopLanes team [] = s := by
  unfold State.stopLanes
  cases s.team? team with
  | none => rfl
  | some t => simp [Team.subGroups, List.eraseDups, sortBy]

/-- What the end of an issue asks of the state that the instruction leaves: no thread of the bundle is single-stepped and none waits
for a ROLE. -/
structure Quiet (m : State) (b : Bundle) (team : Nat) : Prop where
  unstepped : ∀ t, m.team? team = some t → ∀ h ∈ t.threads, h.tid ∈ b.tids → h.singleStep = false
  noRole : ∀ t, m.team? team = some t → ∀ x ∈ b.tids, (t.group (t.groupOf x)).next = none

theorem filter_all {α : Type} (l : List α) : (l.filter fun _ => true) = l := by simp

theorem trimBundles_mem {ids stay : List Nat} {closes : Bool} {bs : List Bundle} {c : Bundle} (h : c ∈ trimBundles ids stay closes bs) :
    (c.id ∈ ids → closes = false) ∧ (c.id ∉ ids → c ∈ bs) := by
  unfold trimBundles at h
  rw [List.mem_filter, List.mem_map] at h
  obtain ⟨⟨d, hd, rfl⟩, hne⟩ := h
  by_cases hc : ids.contains d.id = true
  · have hm : d.id ∈ ids := by simpa using hc
    simp only [hc, if_true] at *
    cases closes <;> simp_all
  · have hm : d.id ∉ ids := by simpa using hc
    simp_all

/-- A thread of the bundle at the end of an issue: noted for the register cache, and advanced (R26, R113). -/
def endedThread (f : Form) (b : Bundle) (now : Nat) (h : Thread) : Thread := (h.touch f.lines now).advance b.count

theorem endedThread_tid (f : Form) (b : Bundle) (now : Nat) (h : Thread) : (endedThread f b now h).tid = h.tid := advance_tid _ _

theorem endedThread_singleStep (f : Form) (b : Bundle) (now : Nat) (h : Thread) : (endedThread f b now h).singleStep = h.singleStep :=
  advance_singleStep _ _

/-- What the end of an issue leaves of a thread, before it joins a PC set. -/
theorem endedThread_eq (f : Form) (b : Bundle) (now : Nat) (h : Thread) :
    endedThread f b now h = { h.advance b.count with issuedAt := now, used := (endedThread f b now h).used } := by
  unfold endedThread Thread.touch Thread.advance
  by_cases hi : h.idx + 1 < b.count <;> simp [hi, Thread.goto, Thread.nextAddr]

/-- A team at the end of an issue: the threads of the bundle advance, and a fall-through is noted for NG (R26, R28). -/
def endedTeam (f : Form) (b : Bundle) (closes : Bool) (now : Nat) (u : Team) : Team :=
  { u with
    threads := updWhere u.threads (fun h => b.tids.contains h.tid) (endedThread f b now)
    fell := if closes && !f.ends then u.fell ++ [b.tids.filter b.tids.contains].filter fun l => !l.isEmpty else u.fell }

/-- The state at the end of an issue, before pending ROLEs, PC sets and single steps are looked at. -/
def ended (f : Form) (b : Bundle) (team : Nat) (closes : Bool) (m : State) : State :=
  let s1 := (m.updThreads team b.tids fun h => h.touch f.lines m.time).updThreads team b.tids fun h => h.advance b.count
  let s2 : State := { s1 with bundles := trimBundles [b.id] b.tids closes m.bundles }
  if closes && !f.ends then s2.noteFall team [b.tids.filter b.tids.contains] else s2

theorem updWhere_twice (l : List Thread) (tids : List Nat) (f g : Thread → Thread) (hf : ∀ h, (f h).tid = h.tid) :
    updWhere (updWhere l (fun h => tids.contains h.tid) f) (fun h => tids.contains h.tid) g
      = updWhere l (fun h => tids.contains h.tid) fun h => g (f h) := by
  unfold updWhere
  rw [List.map_map]
  congr 1; funext h
  by_cases hh : h.tid ∈ tids <;> simp [hh, hf]

theorem ended_threads (f : Form) (b : Bundle) (team : Nat) (m : State) (id : Nat) :
    ((m.updThreads team b.tids fun h => h.touch f.lines m.time).updThreads team b.tids fun h => h.advance b.count).team? id
      = (m.team? id).map fun u => if u.id = team then
          { u with threads := updWhere u.threads (fun h => b.tids.contains h.tid) (endedThread f b m.time) } else u := by
  unfold State.updThreads
  rw [team_updTeam _ _ _ _ (by intro u; rfl), team_updTeam _ _ _ _ (by intro u; rfl), Option.map_map]
  congr 1; funext u
  by_cases hu : u.id = team
  · simp only [Function.comp, hu, if_true]
    rw [updWhere_twice _ _ _ _ (by intro h; rfl)]
    rfl
  · simp [hu]

theorem ended_team (f : Form) (b : Bundle) (team : Nat) (closes : Bool) (m : State) (id : Nat) :
    (ended f b team closes m).team? id = (m.team? id).map fun u => if u.id = team then endedTeam f b closes m.time u else u := by
  have h2 := ended_threads f b team m id
  unfold ended
  by_cases ho : (closes && !f.ends) = true
  · simp only [ho, if_true]
    unfold State.noteFall
    rw [team_updTeam _ _ _ _ (by intro u; rfl)]
    rw [show ∀ (s1 : State) (bs : List Bundle), ({ s1 with bundles := bs } : State).team? id = s1.team? id from fun _ _ => rfl, h2,
      Option.map_map]
    congr 1; funext u
    by_cases hu : u.id = team <;> simp [hu, ho, endedTeam]
  · simp only [ho]
    rw [if_neg (by simp), show ∀ (s1 : State) (bs : List Bundle), ({ s1 with bundles := bs } : State).team? id = s1.team? id from
      fun _ _ => rfl, h2]
    congr 1; funext u
    by_cases hu : u.id = team <;> simp [hu, ho, endedTeam]

theorem ended_rest (f : Form) (b : Bundle) (team : Nat) (closes : Bool) (m : State) :
    ended f b team closes m = { m with teams := (ended f b team closes m).teams, bundles := trimBundles [b.id] b.tids closes m.bundles } := by
  unfold ended; simp only; split <;> rfl

theorem endedTeam_thread (f : Form) (b : Bundle) (closes : Bool) (now : Nat) (u : Team) (x : Nat) :
    (endedTeam f b closes now u).thread? x = (u.thread? x).map fun h => if b.tids.contains x then endedThread f b now h else h := by
  rw [thread_congr (t := endedTeam f b closes now u)
    (u := { u with threads := updWhere u.threads (fun h => b.tids.contains h.tid) (endedThread f b now) }) rfl,
    thread_updWhere _ _ _ _ (fun h => endedThread_tid f b now h)]
  cases hx : u.thread? x with
  | none => rfl
  | some h =>
    have := thread_tid hx
    simp [this]

/-! ## Threads that come to a PC set -/

/-- What joining PC sets leaves of a team: the threads that join may wait in a callee queue, and their PC sets' waits are noted. -/
structure Seated (l : List Nat) (u v : Team) : Prop where
  rest : v = { u with threads := v.threads }
  others : ∀ x, l.contains x = false → v.thread? x = u.thread? x
  none : ∀ x, u.thread? x = none → v.thread? x = none
  threads : ∀ x h, u.thread? x = some h → ∃ k, v.thread? x = some k ∧ k = { h with since := k.since, wait := k.wait }
    ∧ (k.wait = h.wait ∨ k.wait = .callee)

theorem Seated.same (l : List Nat) (u : Team) : Seated l u u :=
  ⟨rfl, fun _ _ => rfl, fun _ hx => hx, fun _ h hx => ⟨h, hx, rfl, .inl rfl⟩⟩

/-- All that `arrive` does (R108). -/
theorem arrive_spec (s : State) (team : Nat) (l : List Nat) :
    s.arrive team l = { s with teams := (s.arrive team l).teams, callees := (s.arrive team l).callees, nextId := (s.arrive team l).nextId }
    ∧ (∀ id, id ≠ team → (s.arrive team l).team? id = s.team? id)
    ∧ ∀ u, s.team? team = some u → ∃ v, (s.arrive team l).team? team = some v ∧ Seated l u v := by
  unfold State.arrive
  cases hu : s.team? team with
  | none => exact ⟨rfl, fun _ _ => rfl, fun u h => by simp at h⟩
  | some t =>
    simp only
    generalize hn : (t.threads.filter fun h => l.contains h.tid && h.wait = .ready && !h.exited && !s.inBundle team h.tid).map Thread.tid = new
    generalize (t.inOrder new).foldl _ _ = seat
    have hteam : ∀ (c : List Callee) (n id : Nat) (g : Thread → Thread),
        (({ s with callees := c, nextId := n } : State).updThreads team new g).team? id = (s.team? id).map fun u => if u.id = team then
          { u with threads := updWhere u.threads (fun h => new.contains h.tid) g } else u := by
      intro c n id g
      unfold State.updThreads
      rw [team_updTeam _ _ _ _ (by intro u; rfl)]
      rfl
    refine ⟨rfl, ?_, ?_⟩
    · intro id hid
      rw [hteam]
      cases hm : s.team? id with
      | none => rfl
      | some u => simp [team_id hm, hid]
    · intro u hut
      cases hut
      refine ⟨_, by rw [hteam, hu, Option.map_some, if_pos (team_id hu)], ⟨rfl, ?_, ?_, ?_⟩⟩
      · intro x hx
        rw [thread_updWhere _ _ _ _ (by intro h; rfl)]
        cases hxt : t.thread? x with
        | none => rfl
        | some h =>
          have hnot : new.contains h.tid = false := by
            rw [← hn, thread_tid hxt]
            simp only [List.contains_eq_mem, List.mem_map, List.mem_filter, Bool.and_eq_true, decide_eq_false_iff_not]
            rintro ⟨y, ⟨-, hy⟩, rfl⟩
            simp only [decide_eq_true_eq] at hy
            simp only [List.contains_eq_mem, decide_eq_false_iff_not] at hx
            exact hx hy.1.1.1
          rw [Option.map_some, hnot]; rfl
      · intro x hxt
        rw [thread_updWhere _ _ _ _ (by intro h; rfl), hxt]; rfl
      · intro x h hxt
        rw [thread_updWhere _ _ _ _ (by intro h; rfl), hxt, Option.map_some]
        cases hc : new.contains h.tid with
        | true =>
          refine ⟨_, rfl, rfl, ?_⟩
          rw [if_pos rfl]; dsimp only
          split
          · exact .inr rfl
          · exact .inl rfl
        | false => exact ⟨_, rfl, rfl, .inl rfl⟩

/-! ## The end of an issue -/

theorem holdRoles_none {s : State} {team : Nat} {tids : List Nat}
    (h : ∀ u, s.team? team = some u → ∀ x ∈ tids, (u.group (u.groupOf x)).next = none) : s.holdRoles team tids = s := by
  unfold State.holdRoles
  cases hu : s.team? team with
  | none => rfl
  | some u =>
    simp only
    have : (tids.filter fun x => ((u.group (u.groupOf x)).next).isSome) = [] := by
      rw [List.filter_eq_nil_iff]
      intro x hx
      rw [h u hu x hx]; simp
    rw [this]; rfl

theorem stepStops_none {s : State} {team : Nat} {tids : List Nat} {ids : List (Nat × W32)}
    (h : ∀ x ∈ tids, ∀ y, s.thread? team x = some y → y.singleStep = false) : s.stepStops team tids ids = s := by
  unfold State.stepStops
  have : (tids.filter fun x => ((s.thread? team x).map Thread.stepOver).getD false) = [] := by
    rw [List.filter_eq_nil_iff]
    intro x hx
    cases hy : s.thread? team x with
    | none => simp
    | some y => simp [Thread.stepOver, h x hx y hy]
  rw [this]; exact stopLanes_nil _ _

theorem ended_noRole {m : State} {f : Form} {t : Team} {b : Bundle} (q : Quiet m b t.id) (closes : Bool) :
    (ended f b t.id closes m).holdRoles t.id b.tids = ended f b t.id closes m := by
  refine holdRoles_none fun u hu x hx => ?_
  rw [ended_team] at hu
  cases hm : m.team? t.id with
  | none => rw [hm] at hu; simp at hu
  | some v =>
    rw [hm] at hu
    simp only [Option.map_some, team_id hm, if_true, Option.some.injEq] at hu
    subst hu
    rw [group_congr (t := endedTeam f b closes m.time v) (u := v) rfl,
      show (endedTeam f b closes m.time v).groupOf x = v.groupOf x from rfl]
    exact q.noRole v hm x hx

/-- The state at the end of an issue, with the threads of a clause that is over in their PC sets. -/
def seated (f : Form) (b : Bundle) (team : Nat) (closes : Bool) (m : State) : State :=
  if closes then (ended f b team closes m).arrive team b.tids else ended f b team closes m

theorem seated_spec (f : Form) (b : Bundle) (team : Nat) (closes : Bool) (m : State) :
    (seated f b team closes m = { m with
        teams := (seated f b team closes m).teams, bundles := trimBundles [b.id] b.tids closes m.bundles,
        callees := (seated f b team closes m).callees, nextId := (seated f b team closes m).nextId })
    ∧ (closes = false → (seated f b team closes m).callees = m.callees ∧ (seated f b team closes m).nextId = m.nextId)
    ∧ (∀ id, id ≠ team → (seated f b team closes m).team? id = m.team? id)
    ∧ ∀ u, m.team? team = some u → ∃ v, (seated f b team closes m).team? team = some v
      ∧ (closes = false → v = endedTeam f b closes m.time u) ∧ Seated b.tids (endedTeam f b closes m.time u) v := by
  have hother : ∀ id, id ≠ team → (ended f b team closes m).team? id = m.team? id := by
    intro id hid
    rw [ended_team]
    cases hm : m.team? id with
    | none => rfl
    | some u => simp [team_id hm, hid]
  have hteam : ∀ u, m.team? team = some u → (ended f b team closes m).team? team = some (endedTeam f b closes m.time u) := by
    intro u hu
    rw [ended_team, hu, Option.map_some, if_pos (team_id hu)]
  unfold seated
  cases closes with
  | false =>
    simp only [if_false, Bool.false_eq_true]
    have hr := ended_rest f b team false m
    refine ⟨?_, fun _ => ?_, hother, fun u hu => ⟨_, hteam u hu, fun _ => rfl, Seated.same _ _⟩⟩
    · exact hr.trans (by rw [hr])
    · rw [hr]; exact ⟨rfl, rfl⟩
  | true =>
    simp only [if_true]
    have hr := ended_rest f b team true m
    obtain ⟨h1, h2, h3⟩ := arrive_spec (ended f b team true m) team b.tids
    refine ⟨?_, fun h => by simp at h, fun id hid => (h2 id hid).trans (hother id hid), fun u hu => ?_⟩
    · rw [h1]; simp only
      rw [hr]
    · obtain ⟨v, hv, hs⟩ := h3 _ (hteam u hu)
      exact ⟨v, hv, fun h => by simp at h, hs⟩

theorem finish_ended {m : State} {f : Form} {t : Team} {b : Bundle} (q : Quiet m b t.id) (idx : Nat) :
    m.finish f t.id [b] idx { s := m } = seated f b t.id (decide (b.count ≤ idx + 1)) m := by
  have key : m.finish f t.id [b] idx { s := m }
      = ((if decide (b.count ≤ idx + 1) then
            ((ended f b t.id (decide (b.count ≤ idx + 1)) m).holdRoles t.id b.tids).arrive t.id b.tids
          else ended f b t.id (decide (b.count ≤ idx + 1)) m).stopLanes t.id []).stepStops t.id b.tids [] := by
    unfold State.finish
    simp only [List.map_cons, List.map_nil, List.flatten_cons, List.flatten_nil, List.append_nil, List.contains_nil, Bool.not_false,
      filter_all, List.foldl_cons, List.foldl_nil, Nat.zero_max, State.setWaits]
    rfl
  rw [key, ended_noRole q, stopLanes_nil]
  refine stepStops_none fun x hx y hy => ?_
  obtain ⟨-, -, -, hteam⟩ := seated_spec f b t.id (decide (b.count ≤ idx + 1)) m
  unfold State.thread? at hy
  cases hm : m.team? t.id with
  | none =>
    exfalso
    have : (seated f b t.id (decide (b.count ≤ idx + 1)) m).team? t.id = none := by
      unfold seated
      have he : (ended f b t.id (decide (b.count ≤ idx + 1)) m).team? t.id = none := by rw [ended_team, hm]; rfl
      split
      · unfold State.arrive; rw [he]; exact he
      · exact he
    unfold seated at this
    rw [this] at hy; simp at hy
  | some u =>
    obtain ⟨v, hv, -, hs⟩ := hteam u hm
    unfold seated at hv
    rw [hv, Option.bind_some] at hy
    have he := endedTeam_thread f b (decide (b.count ≤ idx + 1)) m.time u x
    cases hux : u.thread? x with
    | none =>
      rw [hux] at he
      rw [hs.none x he] at hy; simp at hy
    | some h =>
      rw [hux] at he
      obtain ⟨k, hk, hk1, -⟩ := hs.threads x _ he
      rw [hy] at hk
      cases hk
      rw [hk1]
      have hss : ∀ h' : Thread, (if b.tids.contains x then endedThread f b m.time h' else h').singleStep = h'.singleStep := by
        intro h'; split
        · exact endedThread_singleStep f b m.time h'
        · rfl
      rw [hss]
      exact q.unstepped u hm h (List.mem_of_find?_eq_some hux) (by rw [thread_tid hux]; exact hx)

/-- The end of an issue that nothing stops. -/
theorem finish_advances {m : State} {f : Form} {t : Team} {b : Bundle} (q : Quiet m b t.id) :
    Advances b t m (m.finish f t.id [b] (b.idx t) { s := m }) := by
  rw [finish_ended q, show decide (b.count ≤ b.idx t + 1) = ends b t from rfl]
  obtain ⟨hr, hw, ho, ht⟩ := seated_spec f b t.id (ends b t) m
  have hb : (seated f b t.id (ends b t) m).bundles = trimBundles [b.id] b.tids (ends b t) m.bundles := by rw [hr]
  refine ⟨?_, hw, ho, ?_, ?_, ?_⟩
  · exact hr.trans (by rw [hb])
  · intro u hu
    obtain ⟨v, hv, he, hs⟩ := ht u hu
    refine ⟨v, hv, ?_, ?_, ?_⟩
    · rw [hs.rest]; rfl
    · intro x hx
      rw [hs.others x hx, endedTeam_thread]
      simp only [hx]
      cases u.thread? x <;> rfl
    · intro x h hx hxt
      have he' := endedTeam_thread f b (ends b t) m.time u x
      rw [hxt, Option.map_some] at he'
      simp only [hx, if_true] at he'
      obtain ⟨k, hk, hk1, hk2⟩ := hs.threads x _ he'
      refine ⟨k, hk, ⟨?_, ?_, ?_⟩⟩
      · rw [hk1, endedThread_eq]
      · have hwait : (endedThread f b m.time h).wait = (h.advance b.count).wait := by rw [endedThread_eq]
        rw [← hwait]
        cases hends : ends b t with
        | true => exact hk2.imp id fun h => ⟨rfl, h⟩
        | false =>
          left
          rw [he hends, he'] at hk
          cases hk; rfl
      · intro hends
        rw [he hends, he'] at hk
        cases hk
        rw [endedThread_eq]
  · intro c hc hmem
    rw [hb] at hmem
    exact (trimBundles_mem hmem).2 (by simpa using hc)
  · intro ho' c hc hid
    rw [hb] at hc
    have := (trimBundles_mem hc).1 (by simp [hid])
    simp [ho'] at this

/-! ## The wrappers of Issue.lean on a clear bundle -/

theorem issuer_team {s : State} {b : Bundle} {t : Team} (h : s.issuer = some (b, t)) : s.team? t.id = some t := by
  unfold State.issuer at h
  split at h
  · split at h
    · rename_i c _
      cases ht : s.team? c.team with
      | none => simp [ht] at h
      | some u =>
        simp only [ht, Option.map_some, Option.some.injEq, Prod.mk.injEq] at h
        obtain ⟨rfl, rfl⟩ := h
        rw [team_id ht]; exact ht
    · cases h
  · cases h

/-- A bundle that is clear leaves a quiet state as long as single steps and ROLEs stay as they are. -/
theorem quiet_of_clear {s m : State} {b : Bundle} {t u : Team} {f : Form} (c : Clear s b t f) (hu : m.team? t.id = some u)
    (hs : ∀ h ∈ u.threads, h.tid ∈ b.tids → ∃ h' ∈ t.threads, h'.tid = h.tid ∧ h'.singleStep = h.singleStep)
    (hg : u.groups = t.groups) (hw : u.launch.width = t.launch.width) : Quiet m b t.id := by
  constructor
  · intro v hv h hh hb
    rw [hu] at hv; cases hv
    obtain ⟨h', hm, ht, he⟩ := hs h hh hb
    rw [← he]
    exact c.unstepped h' (by unfold Team.pick; rw [List.mem_filter]; exact ⟨hm, by rw [ht]; simpa using hb⟩)
  · intro v hv x hx
    rw [hu] at hv; cases hv
    have := c.noRole x hx
    simp only [Team.group, Team.groupOf, Team.width, hg, hw] at this ⊢
    exact this

theorem updWhere_keeps {t : Team} {q : Thread → Bool} {g : Thread → Thread} (ht : ∀ h, (g h).tid = h.tid)
    (hs : ∀ h, (g h).singleStep = h.singleStep) :
    ∀ h ∈ updWhere t.threads q g, ∃ h' ∈ t.threads, h'.tid = h.tid ∧ h'.singleStep = h.singleStep := by
  intro h hh
  unfold updWhere at hh
  rw [List.mem_map] at hh
  obtain ⟨a, ha, rfl⟩ := hh
  exact ⟨a, ha, by split <;> simp [ht], by split <;> simp [hs]⟩

/-- An instruction that changes only its lanes' threads. -/
theorem issueThread_completes {s : State} {b : Bundle} {t : Team} {f : Form} {g : Team → Thread → Thread} (c : Clear s b t f)
    (hl : f.long = false) (hk : f.tok = none) (ht : ∀ h, (g t h).tid = h.tid) (hs : ∀ h, (g t h).singleStep = h.singleStep) :
    ∃ s', issueThread f g s = .next s' ∧ Advances b t (s.updThreads t.id (t.active f b.tids) (g t)) s' := by
  have hat : ∀ h, f.atIssue h = h := by
    intro h; unfold Form.atIssue; rw [hl, hk]; rfl
  refine ⟨(s.updThreads t.id (t.active f b.tids) (g t)).finish f t.id [b] (b.idx t)
    { s := s.updThreads t.id (t.active f b.tids) (g t) }, ?_, finish_advances ?_⟩
  · unfold issueThread
    rw [c.issues]
    simp only [clear_gate c, hat]
  · have hteam : (s.updThreads t.id (t.active f b.tids) (g t)).team? t.id
        = some { t with threads := updWhere t.threads (fun h => (t.active f b.tids).contains h.tid) (g t) } := by
      have := team_updTeam s t.id t.id (fun u => { u with
        threads := updWhere u.threads (fun h => (t.active f b.tids).contains h.tid) (g t) }) (by intro u; rfl)
      unfold State.updThreads
      rw [this, issuer_team c.issues]
      simp
    exact quiet_of_clear c hteam (fun h hh _ => updWhere_keeps ht hs h hh) rfl rfl

/-- The state of a lane at issue has the team with its thread at issue. -/
theorem lane_team {s : State} {b : Bundle} {t : Team} {f : Form} {x : Nat} {s1 : State} {t1 : Team} {h1 : Thread}
    (c : Lane s b t f x s1 t1 h1) :
    t1 = { t with threads := updWhere t.threads (fun h => [x].contains h.tid) f.atIssue } := by
  have := team_updTeam s t.id t.id (fun u => { u with
    threads := updWhere u.threads (fun h => [x].contains h.tid) f.atIssue }) (by intro u; rfl)
  have h := c.team
  rw [c.start] at h
  unfold State.updThreads at h
  rw [this, issuer_team c.clear.issues] at h
  simpa using h.symm

theorem atIssue_tid (f : Form) (h : Thread) : (f.atIssue h).tid = h.tid := by
  unfold Form.atIssue; simp only; split <;> split <;> rfl

theorem atIssue_singleStep (f : Form) (h : Thread) : (f.atIssue h).singleStep = h.singleStep := by
  unfold Form.atIssue; simp only; split <;> split <;> rfl

/-- A lane instruction whose one active lane completes. -/
theorem issueLanes_completes {s : State} {b : Bundle} {t : Team} {f : Form} {x : Nat} {s1 m : State} {t1 u : Team} {h1 : Thread}
    {body : Nat → Nat → State → Res} (c : Lane s b t f x s1 t1 h1) (hb : body t.id x s1 = .ok m) (hu : m.team? t.id = some u)
    (hs : ∀ h ∈ u.threads, h.tid ∈ b.tids → ∃ h' ∈ t1.threads, h'.tid = h.tid ∧ h'.singleStep = h.singleStep)
    (hg : u.groups = t.groups) (hw : u.launch.width = t.launch.width) :
    ∃ s', issueLanes f body s = .next s' ∧ Advances b t m s' := by
  refine ⟨m.finish f t.id [b] (b.idx t) { s := m }, ?_, finish_advances (quiet_of_clear c.clear hu ?_ hg hw)⟩
  · unfold issueLanes
    rw [c.clear.issues]
    simp only [clear_gate c.clear, c.only]
    have : ([b].map fun c => c.idx t).foldl max 0 = b.idx t := by simp
    simp only [State.runOn, List.map_cons, List.map_nil, List.flatten_cons, List.flatten_nil, List.append_nil]
    rw [← c.start]
    simp [runUnits, hb, Run.add]
  · intro h hh hb'
    obtain ⟨h', hm, ht, he⟩ := hs h hh hb'
    rw [lane_team c] at hm
    obtain ⟨a, ha, hat, hae⟩ := updWhere_keeps (t := t) (atIssue_tid f) (atIssue_singleStep f) h' hm
    exact ⟨a, ha, hat.trans ht, hae.trans he⟩

/-- A lane instruction that `issueThread` runs, as the statements say it. -/
theorem lanewise_of {i : Instr} {f : Form} {g : Team → Thread → Thread} (h : ∀ s, exec i s = issueThread f g s)
    (hl : f.long = false) (hk : f.tok = none) (ht : ∀ t h, (g t h).tid = h.tid) (hs : ∀ t h, (g t h).singleStep = h.singleStep) :
    Lanewise i f g := by
  intro s b t c
  obtain ⟨s', e, a⟩ := issueThread_completes (g := g) c hl hk (ht t) (hs t)
  exact ⟨s', (h s).trans e, a⟩

theorem updThreads_nil (s : State) (team : Nat) (f : Thread → Thread) : s.updThreads team [] f = s := by
  unfold State.updThreads State.updTeam updWhere
  have : (s.teams.map fun a => if decide (a.id = team) = true then
      { a with threads := a.threads.map fun a => if ([] : List Nat).contains a.tid = true then f a else a } else a) = s.teams := by
    rw [List.map_eq_iff]
    intro i
    cases h : s.teams[i]? with
    | none => simp
    | some a => simp
  rw [this]

/-- An instruction that acts once for its bundle. -/
theorem issueOnce_completes {s m : State} {b : Bundle} {t u : Team} {f : Form} {body : Nat → State → Res} (c : Clear s b t f)
    (hb : body t.id s = .ok m) (hu : m.team? t.id = some u)
    (hs : ∀ h ∈ u.threads, h.tid ∈ b.tids → ∃ h' ∈ t.threads, h'.tid = h.tid ∧ h'.singleStep = h.singleStep)
    (hg : u.groups = t.groups) (hw : u.launch.width = t.launch.width) :
    ∃ s', issueOnce f body s = .next s' ∧ Advances b t m s' := by
  refine ⟨m.finish f t.id [b] (b.idx t) { s := m }, ?_, finish_advances (quiet_of_clear c hu hs hg hw)⟩
  unfold issueOnce
  rw [c.issues]
  simp only [clear_gate c, State.runOn, List.map_cons, List.map_nil, List.flatten_cons, List.flatten_nil, List.append_nil,
    updThreads_nil]
  simp [runUnits, hb, Run.add]

/-! ## Lane after lane (R84) -/

/-- Team `v` has the groups of team `u` and its threads, none of them stepped that was not; what else the threads hold may differ. -/
structure SameCast (u v : Team) : Prop where
  groups : v.groups = u.groups
  width : v.launch.width = u.launch.width
  threads : ∀ h ∈ v.threads, ∃ h' ∈ u.threads, h'.tid = h.tid ∧ h'.singleStep = h.singleStep

theorem SameCast.refl (u : Team) : SameCast u u := ⟨rfl, rfl, fun h hh => ⟨h, hh, rfl, rfl⟩⟩

theorem SameCast.trans {u v w : Team} (a : SameCast u v) (b : SameCast v w) : SameCast u w := by
  refine ⟨b.groups.trans a.groups, b.width.trans a.width, fun h hh => ?_⟩
  obtain ⟨h1, hm1, ht1, hs1⟩ := b.threads h hh
  obtain ⟨h2, hm2, ht2, hs2⟩ := a.threads h1 hm1
  exact ⟨h2, hm2, ht2.trans ht1, hs2.trans hs1⟩

/-- An update of some threads that leaves their numbers and their stepping alone. -/
theorem SameCast.upd (u : Team) (q : Thread → Bool) {g : Thread → Thread} (ht : ∀ h, (g h).tid = h.tid)
    (hs : ∀ h, (g h).singleStep = h.singleStep) : SameCast u { u with threads := updWhere u.threads q g } :=
  ⟨rfl, rfl, updWhere_keeps ht hs⟩

/-- Lanes that act in turn and all go on are the units of a run that neither stops, holds nor moves anything. -/
theorem runUnits_inTurn {f : Form} {team : Nat} {body : Nat → Nat → State → Res} {act : Nat → State → Team → Thread → State → Prop}
    (hb : ∀ x m u h n, m.team? team = some u → u.thread? x = some h → act x m u h n →
      body team x m = .ok n ∧ ∃ v, n.team? team = some v ∧ SameCast u v) :
    ∀ (l : List Nat) (m m' : State) (u : Team), m.team? team = some u → InTurn team act l m m' →
      runUnits f team (fun l s => body team (l.headD 0) s) { s := m } (l.map fun x => { acts := [x], all := [x] }) = { s := m' }
      ∧ ∃ v, m'.team? team = some v ∧ SameCast u v
  | [], m, m', u, hu, hi => by
    cases hi
    exact ⟨rfl, u, hu, SameCast.refl u⟩
  | x :: l, m, m', u, hu, hi => by
    obtain ⟨w, h, n, hw, hx, ha, hr⟩ := hi
    obtain ⟨hok, v, hv, hc⟩ := hb x m w h n hw hx ha
    have : w = u := by rw [hu] at hw; exact (Option.some.inj hw).symm
    subst this
    obtain ⟨he, z, hz, hcz⟩ := runUnits_inTurn hb l n m' v hv hr
    refine ⟨?_, z, hz, hc.trans hcz⟩
    simpa [runUnits, hok, Run.add] using he

/-- A lane instruction each of whose active lanes completes in turn. -/
theorem laneByLane_of {i : Instr} {f : Form} {body : State → Nat → Nat → State → Res}
    {act : State → Team → Nat → State → Team → Thread → State → Prop} (he : ∀ s, exec i s = issueLanes f (body s) s)
    (hb : ∀ s t x m u h n, m.team? t.id = some u → u.thread? x = some h → act s t x m u h n →
      body s t.id x m = .ok n ∧ ∃ v, n.team? t.id = some v ∧ SameCast u v) : LaneByLane i f act := by
  intro s b t m c hi
  have h0 : (s.updThreads t.id (t.active f b.tids) f.atIssue).team? t.id
      = some { t with threads := updWhere t.threads (fun h => (t.active f b.tids).contains h.tid) f.atIssue } := by
    have := team_updTeam s t.id t.id (fun u => { u with
      threads := updWhere u.threads (fun h => (t.active f b.tids).contains h.tid) f.atIssue }) (by intro u; rfl)
    unfold State.updThreads
    rw [this, issuer_team c.issues]
    simp
  obtain ⟨hr, v, hv, hc⟩ := runUnits_inTurn (f := f) (hb s t) _ _ _ _ h0 hi
  have hq := (SameCast.upd t (fun h => (t.active f b.tids).contains h.tid) (atIssue_tid f) (atIssue_singleStep f)).trans hc
  refine ⟨m.finish f t.id [b] (b.idx t) { s := m }, ?_,
    finish_advances (quiet_of_clear c hv (fun h hh _ => hq.threads h hh) hq.groups hq.width)⟩
  rw [he]
  unfold issueLanes
  rw [c.issues]
  simp only [clear_gate c, State.runOn]
  have hflat : (List.map Unit_.acts (List.map (fun x => ({ acts := [x], all := [x] } : Unit_)) (t.active f b.tids))).flatten
      = t.active f b.tids := by
    induction t.active f b.tids with
    | nil => rfl
    | cons a l ih => simpa using ih
  rw [hflat, hr]
  simp

end Sys2Proof.Laws
end

