-- ==== Sys2Proof/Laws/Memory.lean ====
section
/-! SUPPORT. The canonical form of a map and of memory: what one write does to it, and that every operation that writes memory keeps
it. -/

namespace Sys2Proof.Machine

open Sys2Proof

/-! ## Maps -/

theorem ascending_cons {α : Type} (a : Nat × α) (r : List (Nat × α)) :
    ascending (a :: r) = true ↔ (∀ x ∈ r, a.1 < x.1) ∧ ascending r = true := by
  induction r generalizing a with
  | nil => simp [ascending]
  | cons b r ih =>
    simp only [ascending, Bool.and_eq_true, decide_eq_true_eq, List.mem_cons, forall_eq_or_imp]
    constructor
    · rintro ⟨h, hb⟩
      exact ⟨⟨h, fun x hx => Nat.lt_trans h (((ih b).1 hb).1 x hx)⟩, hb⟩
    · rintro ⟨⟨h, _⟩, hb⟩
      exact ⟨h, hb⟩

theorem ascending_filter {α : Type} (p : Nat × α → Bool) (m : List (Nat × α)) (h : ascending m = true) :
    ascending (m.filter p) = true := by
  induction m with
  | nil => rfl
  | cons a r ih =>
    have h' := (ascending_cons a r).1 h
    rw [List.filter_cons]
    split
    · exact (ascending_cons _ _).2 ⟨fun x hx => h'.1 x (List.mem_filter.1 hx).1, ih h'.2⟩
    · exact ih h'.2

theorem mem_insertKey {α : Type} (a : Nat) (v : α) (m : List (Nat × α)) (x : Nat × α) : x ∈ insertKey a v m ↔ x = (a, v) ∨ x ∈ m := by
  induction m with
  | nil => simp [insertKey]
  | cons b r ih =>
    simp only [insertKey]
    split
    · simp
    · simp only [List.mem_cons, ih]
      constructor <;> rintro (h | h | h) <;> simp [h]

theorem ascending_insertKey {α : Type} (a : Nat) (v : α) (m : List (Nat × α)) (h : ascending m = true) (hn : ∀ x ∈ m, x.1 ≠ a) :
    ascending (insertKey a v m) = true := by
  induction m with
  | nil => rfl
  | cons b r ih =>
    have h' := (ascending_cons b r).1 h
    simp only [insertKey]
    split
    · next hb =>
      refine (ascending_cons _ _).2 ⟨fun x hx => ?_, h⟩
      rcases List.mem_cons.1 hx with rfl | hr
      · exact hb
      · exact Nat.lt_trans hb (h'.1 x hr)
    · next hb =>
      refine (ascending_cons _ _).2 ⟨fun x hx => ?_, ih h'.2 fun x hx => hn x (List.mem_cons_of_mem _ hx)⟩
      rcases (mem_insertKey a v r x).1 hx with rfl | hr
      · have := hn b List.mem_cons_self
        simp only at this ⊢
        omega
      · exact h'.1 x hr

/-- One value written keeps the canonical form. -/
theorem wfMap_keep {α : Type} [DecidableEq α] (d : α) (m : List (Nat × α)) (a : Nat) (v : α) (h : wfMap d m = true) :
    wfMap d (keep d m a v) = true := by
  simp only [wfMap, Bool.and_eq_true, List.all_eq_true, decide_eq_true_eq] at h ⊢
  simp only [keep]
  split
  · exact ⟨ascending_filter _ m h.1, fun x hx => h.2 x (List.mem_filter.1 hx).1⟩
  · next hv =>
    refine ⟨ascending_insertKey a v _ (ascending_filter _ m h.1) fun x hx => by simpa using (List.mem_filter.1 hx).2, fun x hx => ?_⟩
    rcases (mem_insertKey a v _ x).1 hx with rfl | hr
    · exact hv
    · exact h.2 x (List.mem_filter.1 hr).1

/-- A part of a map that a test picks keeps the canonical form. -/
theorem wfMap_filter {α : Type} [DecidableEq α] (d : α) (p : Nat × α → Bool) (m : List (Nat × α)) (h : wfMap d m = true) :
    wfMap d (m.filter p) = true := by
  simp only [wfMap, Bool.and_eq_true, List.all_eq_true, decide_eq_true_eq] at h ⊢
  exact ⟨ascending_filter _ m h.1, fun x hx => h.2 x (List.mem_filter.1 hx).1⟩

theorem look_filter_ne {α : Type} (d : α) (m : List (Nat × α)) (a b : Nat) (h : b ≠ a) : look d (m.filter fun c => c.1 ≠ a) b = look d m b := by
  induction m with
  | nil => rfl
  | cons c r ih =>
    rw [List.filter_cons]
    split
    · simp only [look, ih]
    · next hc =>
      have : c.1 = a := by simpa using hc
      simp only [look, ih]
      rw [if_neg (by omega)]

theorem look_filter_eq {α : Type} (d : α) (m : List (Nat × α)) (a : Nat) : look d (m.filter fun c => c.1 ≠ a) a = d := by
  induction m with
  | nil => rfl
  | cons c r ih =>
    rw [List.filter_cons]
    split
    · next hc =>
      have : c.1 ≠ a := by simpa using hc
      simp only [look, ih, if_neg this]
    · exact ih

theorem look_insertKey {α : Type} (d : α) (a : Nat) (v : α) (m : List (Nat × α)) (b : Nat) (hn : ∀ x ∈ m, x.1 ≠ a) :
    look d (insertKey a v m) b = if b = a then v else look d m b := by
  induction m with
  | nil => simp only [insertKey, look, eq_comm]
  | cons c r ih =>
    have hc := hn c List.mem_cons_self
    have ih' := ih fun x hx => hn x (List.mem_cons_of_mem _ hx)
    simp only [insertKey]
    split
    · simp only [look, eq_comm]
    · simp only [look, ih']
      by_cases h : c.1 = b
      · rw [if_pos h, if_neg (by omega), if_pos h]
      · simp [h]

/-- What a map reads as after one value is written. -/
theorem look_keep {α : Type} [DecidableEq α] (d : α) (m : List (Nat × α)) (a : Nat) (v : α) (b : Nat) :
    look d (keep d m a v) b = if b = a then v else look d m b := by
  simp only [keep]
  split
  · next hv =>
    by_cases h : b = a
    · rw [if_pos h, h, look_filter_eq, hv]
    · rw [if_neg h, look_filter_ne d m a b h]
  · rw [look_insertKey d a v _ b fun x hx => by simpa using (List.mem_filter.1 hx).2]
    by_cases h : b = a
    · rw [if_pos h, if_pos h]
    · rw [if_neg h, if_neg h, look_filter_ne d m a b h]

/-! ## Memory -/

theorem reset_memory_wf : Memory.wf State.reset.mem = true := rfl

theorem putByte_wf (m : List Host.Cell) (a : Nat) (b : Byte) (h : Memory.wf m = true) : Memory.wf (putByte m a b) = true :=
  wfMap_keep blankByte m a b h

theorem putBytes_wf (m : List Host.Cell) (a : Nat) (d : List Byte) (h : Memory.wf m = true) : Memory.wf (putBytes m a d) = true := by
  induction d generalizing m a with
  | nil => exact h
  | cons b r ih => exact ih _ _ (putByte_wf m a b h)

theorem putLe_wf (m : List Host.Cell) (a n v : Nat) (h : Memory.wf m = true) : Memory.wf (putLe m a n v) = true := putBytes_wf m a _ h

theorem getByte_putByte (m : List Host.Cell) (a : Nat) (b : Byte) (x : Nat) :
    getByte (putByte m a b) x = if x = a then b else getByte m x := look_keep blankByte m a b x

/-! ## What changes memory and coherence only -/

/-- All that an operation on lines can do: it changes memory, coherence and the accesses in flight, and keeps the canonical form. -/
structure Touches (s s' : State) : Prop where
  rest : s' = { s with mem := s'.mem, coh := s'.coh, flight := s'.flight }
  wf : Memory.wf s.mem = true → Memory.wf s'.mem = true

theorem Touches.refl (s : State) : Touches s s := ⟨rfl, id⟩

theorem Touches.trans {a b c : State} (h : Touches a b) (g : Touches b c) : Touches a c :=
  ⟨g.rest.trans (by rw [h.rest]), fun w => g.wf (h.wf w)⟩

theorem touches_coh (s : State) (c : Coh) : Touches s { s with coh := c } := ⟨rfl, id⟩

theorem touches_flight (s : State) (f : Flight) : Touches s { s with flight := f } := ⟨rfl, id⟩

theorem touches_foldl {α : Type} {f : State → α → State} (hf : ∀ s a, Touches s (f s a)) (l : List α) (s : State) :
    Touches s (l.foldl f s) := by
  induction l generalizing s with
  | nil => exact Touches.refl s
  | cons a l ih => exact (hf s a).trans (ih (f s a))

theorem place_touches (s : State) (line : Nat) : Touches s (s.place line) := by
  unfold State.place
  simp only
  split
  · exact touches_coh _ _
  · split
    · exact Touches.refl s
    · exact touches_coh _ _

theorem hold_touches (s : State) (line : Nat) : Touches s (s.hold line) := by
  unfold State.hold
  split
  · exact Touches.refl s
  · split
    · split
      · exact Touches.refl s
      · exact (touches_coh s _).trans (place_touches _ _)
    · exact place_touches _ _

theorem putLine_touches (s : State) (line : Nat) (d : List Byte) : Touches s (s.putLine line d) :=
  Touches.trans ⟨rfl, putBytes_wf _ _ _⟩ (hold_touches _ line)

theorem writeBack_touches (s : State) (line : Nat) (cells : List Host.Cell) (after : Option CopyState) :
    Touches s (s.writeBack line cells after) := by
  unfold State.writeBack
  split
  · split
    · exact touches_coh _ _
    · simp only
      have h : ∀ (b : Bool) (d : List Byte), Touches s (if b = true then s.putLine line d else s) := by
        intro b d; split
        · exact putLine_touches _ _ _
        · exact Touches.refl s
      split
      · exact (h _ _).trans (touches_coh _ _)
      · exact (h _ _).trans (touches_coh _ _)
      · exact h _ _
  · exact Touches.refl s

theorem makeRoom_touches (s : State) (slice : Nat) (e : Option DirEntry) : Touches s (s.makeRoom slice e) := by
  unfold State.makeRoom
  split
  · exact Touches.refl s
  · simp only
    split
    · exact Touches.refl s
    · split
      · exact (writeBack_touches _ _ _ _).trans (touches_coh _ _)
      · exact touches_coh _ _

theorem addSharer_touches (s : State) (line : Nat) (who : Sharer) (st : CopyState) : Touches s (s.addSharer line who st) := by
  unfold State.addSharer
  split
  · exact Touches.refl s
  · split
    · exact touches_coh _ _
    · exact (makeRoom_touches _ _ _).trans (touches_coh _ _)

theorem splitBy_touches (s : State) (e : DirEntry) (mask : Sharer → Nat) : Touches s (s.splitBy e mask) := by
  unfold State.splitBy
  simp only
  split
  · exact (makeRoom_touches _ _ _).trans (touches_coh _ _)
  · exact touches_coh _ _

theorem isolate_touches (s : State) (line n : Nat) : Touches s (s.isolate line n) := by
  induction n generalizing s with
  | zero => exact Touches.refl s
  | succ n ih =>
    unfold State.isolate
    split
    · split
      · exact (splitBy_touches _ _ _).trans (ih _)
      · exact Touches.refl s
    · exact Touches.refl s

theorem openWrite_touches (s : State) (line : Nat) (req : Option Nat) (ps : Pieces) (w : Option Sharer) (nc : Bool) :
    Touches s (s.openWrite line req ps w nc) :=
  (putLine_touches s line _).trans (touches_coh _ _)

theorem answerProbe_touches (s : State) (line : Nat) (who : Sharer) : Touches s (s.answerProbe line who) := by
  unfold State.answerProbe
  split
  · exact Touches.refl s
  · split
    · exact Touches.refl s
    · exact touches_coh _ _

theorem settle_touches (s : State) (t : Txn) : Touches s (s.settle t) := by
  unfold State.settle
  split
  · exact Touches.refl s
  · split
    · exact splitBy_touches _ _ _
    · exact touches_coh _ _

theorem endTxn_touches (s : State) (t : Txn) : Touches s (s.endTxn t) := by
  unfold State.endTxn
  simp only
  split
  · exact touches_coh _ _
  · split
    · exact (touches_coh s _).trans (touches_flight _ _)
    · exact (touches_coh s _).trans (touches_flight _ _)
    · split
      · exact touches_coh _ _
      · exact (touches_coh s _).trans (touches_flight _ _)

theorem closeTxn_touches (s : State) (line : Nat) : Touches s (s.closeTxn line) := by
  unfold State.closeTxn
  simp only
  split
  · exact Touches.refl s
  · split
    · exact touches_coh _ _
    · exact touches_foldl (fun s t => (settle_touches s t).trans (endTxn_touches _ t)) _ _

theorem answerAll_touches (s : State) (line : Nat) : Touches s (s.answerAll line) :=
  touches_foldl (f := fun s (t : Txn) => t.probes.foldl (fun s p => s.answerProbe t.line p.dest) s)
    (fun s t => touches_foldl (fun s (p : Probe) => answerProbe_touches s t.line p.dest) t.probes s) _ _

theorem push_touches (s : State) (line : Nat) : Touches s (s.push line) := by
  unfold State.push
  split
  · exact (((answerAll_touches _ _).trans (closeTxn_touches _ _)).trans (answerAll_touches _ _)).trans (closeTxn_touches _ _)
  · exact Touches.refl s

theorem pushRegion_touches (s : State) (line : Nat) : Touches s (s.pushRegion line) := by
  unfold State.pushRegion
  simp only
  split
  · exact push_touches _ _
  · exact (push_touches _ _).trans (touches_foldl push_touches _ _)

theorem hostSnoop_touches (s : State) (line : Nat) : Touches s (s.hostSnoop line) := by
  unfold State.hostSnoop
  split
  · exact Touches.refl s
  · refine ⟨rfl, fun h => ?_⟩
    dsimp only
    split
    · split
      · exact putBytes_wf _ _ _ h
      · exact h
    · exact h

/-- A line that is not host memory has nothing to take away. -/
theorem hostSnoop_device (s : State) (line : Nat) (h : isHostLine line = false) : s.hostSnoop line = s := by
  simp [State.hostSnoop, h]

theorem writeLine_touches (s : State) (line : Nat) (ps : Pieces) (nc : Bool) : Touches s (s.writeLine line ps nc) := by
  have h0 : Touches s ((s.hostSnoop line).pushRegion line) := (hostSnoop_touches s line).trans (pushRegion_touches _ _)
  unfold State.writeLine
  generalize (s.hostSnoop line).pushRegion line = m at h0
  simp only
  refine Touches.trans ?_ ((openWrite_touches _ _ _ _ _ _).trans (push_touches _ _))
  split
  · exact h0.trans (writeBack_touches _ _ _ _)
  · exact h0

/-- A write of any bytes with all its effects. -/
theorem writeNow_touches (s : State) (key : Nat) (d : List Byte) (nc : Bool) : Touches s (s.writeNow key d nc) :=
  touches_foldl (fun s line => writeLine_touches s line _ nc) _ _

theorem writeRuns_touches (s : State) (runs : List (Nat × List Byte)) : Touches s (s.writeRuns runs) :=
  touches_foldl (fun s line => writeLine_touches s line _ false) _ _

theorem takeCopy_touches (s : State) (who : Sharer) (line : Nat) (st : CopyState) (l : List Byte) : Touches s (s.takeCopy who line st l) :=
  (touches_coh s _).trans (addSharer_touches _ _ _ _)

theorem ownerForRead_touches {s s' : State} {line : Nat} {b : Bool} (h : s.ownerForRead line b = some s') : Touches s s' := by
  unfold State.ownerForRead at h
  split at h
  · split at h
    · split at h
      · cases h
      · split at h <;> (cases h; exact touches_coh _ _)
    · cases h
  · split at h
    · cases h
    · cases h; exact Touches.refl s
  · cases h; exact writeBack_touches _ _ _ _
  · cases h; exact Touches.refl s

theorem readHome_touches (s : State) (line : Nat) : Touches s (s.readHome line).1 := by
  unfold State.readHome
  simp only
  refine ((push_touches s line).trans ?_).trans (hold_touches _ line)
  cases h : (s.push line).ownerForRead line false with
  | some s' => exact ownerForRead_touches h
  | none => exact writeBack_touches _ _ _ _

theorem readBeside_touches (s : State) (line : Nat) : Touches s (s.readBeside line).1 := by
  unfold State.readBeside
  split
  · exact Touches.refl s
  · exact (push_touches s line).trans (hold_touches _ _)

theorem readFor_touches (s : State) (die line cm : Nat) (nc : Bool) : Touches s (s.readFor die line cm nc).1 := by
  unfold State.readFor
  simp only
  split
  · split
    · split
      · exact Touches.refl s
      · exact readBeside_touches _ _
    · split
      · exact (readBeside_touches _ _).trans (touches_coh _ _)
      · exact readBeside_touches _ _
  · split
    · exact Touches.refl s
    · split
      · exact readHome_touches _ _
      · split
        · split
          · exact Touches.refl s
          · exact (readHome_touches _ _).trans (takeCopy_touches _ _ _ _ _)
        · exact (readHome_touches _ _).trans (takeCopy_touches _ _ _ _ _)

theorem homeApply_touches (s : State) (line req : Nat) (ps : Pieces) (w : Option Sharer) (nc : Bool) (mark : Req → Bool) :
    Touches s (s.homeApply line req ps w nc mark) :=
  (openWrite_touches s line (some req) ps w nc).trans (touches_flight _ _)

theorem bringUpFields_wf (s : State) (block : List (Nat × BitVec 64)) (h : Memory.wf s.mem = true) :
    Memory.wf (s.bringUpFields block).mem = true := wfMap_filter blankByte _ _ h

theorem withCoreWord_wf (s : State) (w : Nat) (h : Memory.wf s.mem = true) : Memory.wf (s.withCoreWord w).mem = true := putLe_wf _ _ _ _ h

theorem withStreamWord_wf (s : State) (w : Nat) (h : Memory.wf s.mem = true) : Memory.wf (s.withStreamWord w).mem = true :=
  putLe_wf _ _ _ _ h

end Sys2Proof.Machine
end

