-- ==== Sys2Proof/Laws/State.lean ====
section
/-! SUPPORT. What the updates of threads, teams and the state leave: one lemma for each field that later proofs read. -/

namespace Sys2Proof.Laws

open Sys2Proof Sys2Proof.Machine

@[simp] theorem setReg_tid (h : Thread) (n : Nat) (v : W32) : (h.setReg n v).tid = h.tid := rfl
@[simp] theorem setReg_singleStep (h : Thread) (n : Nat) (v : W32) : (h.setReg n v).singleStep = h.singleStep := rfl
@[simp] theorem setReg_preds (h : Thread) (n : Nat) (v : W32) : (h.setReg n v).preds = h.preds := rfl
@[simp] theorem setReg_fpflags (h : Thread) (n : Nat) (v : W32) : (h.setReg n v).fpflags = h.fpflags := rfl
@[simp] theorem setReg_pc (h : Thread) (n : Nat) (v : W32) : (h.setReg n v).pc = h.pc := rfl
@[simp] theorem setReg_idx (h : Thread) (n : Nat) (v : W32) : (h.setReg n v).idx = h.idx := rfl

@[simp] theorem setRegs_tid (h : Thread) (r v n : Nat) : (h.setRegs r v n).tid = h.tid := by
  induction n generalizing h r v with
  | zero => rfl
  | succ n ih => simp [Thread.setRegs, ih]

@[simp] theorem setRegs_singleStep (h : Thread) (r v n : Nat) : (h.setRegs r v n).singleStep = h.singleStep := by
  induction n generalizing h r v with
  | zero => rfl
  | succ n ih => simp [Thread.setRegs, ih]

@[simp] theorem setRegs_fpflags (h : Thread) (r v n : Nat) : (h.setRegs r v n).fpflags = h.fpflags := by
  induction n generalizing h r v with
  | zero => rfl
  | succ n ih => simp [Thread.setRegs, ih]

@[simp] theorem setTy_tid (h : Thread) (ty r v : Nat) : (h.setTy ty r v).tid = h.tid := setRegs_tid h r v _
@[simp] theorem setTy_singleStep (h : Thread) (ty r v : Nat) : (h.setTy ty r v).singleStep = h.singleStep := setRegs_singleStep h r v _
@[simp] theorem setPair_tid (h : Thread) (n : Nat) (v : W64) : (h.setPair n v).tid = h.tid := rfl
@[simp] theorem setPair_singleStep (h : Thread) (n : Nat) (v : W64) : (h.setPair n v).singleStep = h.singleStep := rfl
@[simp] theorem addFlags_tid (h : Thread) (f : W32) : (h.addFlags f).tid = h.tid := rfl
@[simp] theorem addFlags_singleStep (h : Thread) (f : W32) : (h.addFlags f).singleStep = h.singleStep := rfl
@[simp] theorem setPred_tid (h : Thread) (n : Nat) (v : Bool) : (h.setPred n v).tid = h.tid := by
  unfold Thread.setPred; split <;> rfl
@[simp] theorem setPred_singleStep (h : Thread) (n : Nat) (v : Bool) : (h.setPred n v).singleStep = h.singleStep := by
  unfold Thread.setPred; split <;> rfl
@[simp] theorem addToken_tid (h : Thread) (n : Nat) : (h.addToken n).tid = h.tid := rfl
@[simp] theorem addToken_singleStep (h : Thread) (n : Nat) : (h.addToken n).singleStep = h.singleStep := rfl
@[simp] theorem subToken_tid (h : Thread) (n : Nat) : (h.subToken n).tid = h.tid := rfl
@[simp] theorem subToken_singleStep (h : Thread) (n : Nat) : (h.subToken n).singleStep = h.singleStep := rfl
@[simp] theorem markEmpty_tid (h : Thread) (rs : List Nat) : (h.markEmpty rs).tid = h.tid := rfl
@[simp] theorem markEmpty_singleStep (h : Thread) (rs : List Nat) : (h.markEmpty rs).singleStep = h.singleStep := rfl
@[simp] theorem goto_tid (h : Thread) (pc : W64) (i : Nat) : (h.goto pc i).tid = h.tid := rfl
@[simp] theorem goto_singleStep (h : Thread) (pc : W64) (i : Nat) : (h.goto pc i).singleStep = h.singleStep := rfl
@[simp] theorem enterUser_tid (h : Thread) (c : Nat) (pc : W64) (i n : Nat) : (h.enterUser c pc i n).tid = h.tid := rfl
@[simp] theorem leaveUser_tid (h : Thread) (pc : W64) (i : Nat) : (h.leaveUser pc i).tid = h.tid := rfl

/-! ## A field of the state that an update does not name -/

@[simp] theorem updTeam_mem (s : State) (i : Nat) (f : Team → Team) : (s.updTeam i f).mem = s.mem := rfl
@[simp] theorem updTeam_coh (s : State) (i : Nat) (f : Team → Team) : (s.updTeam i f).coh = s.coh := rfl
@[simp] theorem updTeam_units (s : State) (i : Nat) (f : Team → Team) : (s.updTeam i f).units = s.units := rfl
@[simp] theorem updTeam_bundles (s : State) (i : Nat) (f : Team → Team) : (s.updTeam i f).bundles = s.bundles := rfl
@[simp] theorem updTeam_flight (s : State) (i : Nat) (f : Team → Team) : (s.updTeam i f).flight = s.flight := rfl
@[simp] theorem updTeam_ctl (s : State) (i : Nat) (f : Team → Team) : (s.updTeam i f).ctl = s.ctl := rfl
@[simp] theorem updTeam_time (s : State) (i : Nat) (f : Team → Team) : (s.updTeam i f).time = s.time := rfl
@[simp] theorem updTeam_traps (s : State) (i : Nat) (f : Team → Team) : (s.updTeam i f).traps = s.traps := rfl
@[simp] theorem updThread_mem (s : State) (i x : Nat) (f : Thread → Thread) : (s.updThread i x f).mem = s.mem := rfl
@[simp] theorem updThreads_mem (s : State) (i : Nat) (l : List Nat) (f : Thread → Thread) : (s.updThreads i l f).mem = s.mem := rfl
@[simp] theorem updThread_flight (s : State) (i x : Nat) (f : Thread → Thread) : (s.updThread i x f).flight = s.flight := rfl
@[simp] theorem updThreads_flight (s : State) (i : Nat) (l : List Nat) (f : Thread → Thread) : (s.updThreads i l f).flight = s.flight :=
  rfl
@[simp] theorem fresh_teams (s : State) : s.fresh.teams = s.teams := rfl
@[simp] theorem fresh_mem (s : State) : s.fresh.mem = s.mem := rfl
@[simp] theorem fresh_flight (s : State) : s.fresh.flight = s.flight := rfl
theorem fresh_nextId (s : State) : s.fresh.nextId = s.nextId + 1 := by rfl
@[simp] theorem fresh_team (s : State) (i : Nat) : s.fresh.team? i = s.team? i := rfl
@[simp] theorem postReq_teams (s : State) (r : Req) : (s.postReq r).teams = s.teams := rfl
@[simp] theorem postReq_mem (s : State) (r : Req) : (s.postReq r).mem = s.mem := rfl
@[simp] theorem postOp_teams (s : State) (o : Op) : (s.postOp o).teams = s.teams := rfl
@[simp] theorem postOp_mem (s : State) (o : Op) : (s.postOp o).mem = s.mem := rfl
@[simp] theorem log_teams (s : State) (k d u : Nat) (w : W32) (a : Nat) : (s.log k d u w a).teams = s.teams := by
  unfold State.log; rfl
@[simp] theorem log_mem (s : State) (k d u : Nat) (w : W32) (a : Nat) : (s.log k d u w a).mem = s.mem := by
  unfold State.log; rfl

/-- The posting of an access changes no team and no memory. -/
theorem postParts_teams (s : State) (op : Nat) (p : Post) (ps : List Part) : (s.postParts op p ps).teams = s.teams := by
  unfold State.postParts
  induction ps generalizing s with
  | nil => rfl
  | cons a r ih => rw [List.foldl_cons, ih]; rfl

theorem postParts_mem (s : State) (op : Nat) (p : Post) (ps : List Part) : (s.postParts op p ps).mem = s.mem := by
  unfold State.postParts
  induction ps generalizing s with
  | nil => rfl
  | cons a r ih => rw [List.foldl_cons, ih]; rfl

@[simp] theorem postAccess_teams (s : State) (o : Op) (p : Post) (ps : List Part) : (s.postAccess o p ps).teams = s.teams := by
  unfold State.postAccess; rw [postParts_teams]; rfl

@[simp] theorem postAccess_mem (s : State) (o : Op) (p : Post) (ps : List Part) : (s.postAccess o p ps).mem = s.mem := by
  unfold State.postAccess; rw [postParts_mem]; rfl

end Sys2Proof.Laws
end

