-- ==== Sys2Proof/Laws/Stops.lean ====
section
/-! SUPPORT. What taking a trap for the supervisor leaves (R219): a record with the lane's PC record, and a parked lane. -/

namespace Sys2Proof.Laws

open Sys2Proof Sys2Proof.Machine

/-- Thread `x` of a team waits as `w` says. -/
def Waits (s : State) (id x : Nat) (w : Wait) : Prop := ∃ h, s.thread? id x = some h ∧ h.wait = w

theorem thread_of {s : State} {id x : Nat} {t : Team} {h : Thread} (ht : s.team? id = some t) (hx : t.thread? x = some h) :
    s.thread? id x = some h := by
  unfold State.thread?; rw [ht]; exact hx

theorem find_updThread (l : List Thread) (x : Nat) (f : Thread → Thread) (hf : ∀ h, h.tid = x → (f h).tid = x) :
    (updWhere l (fun h => h.tid = x) f).find? (fun h => h.tid = x) = (l.find? fun h => h.tid = x).map f := by
  induction l with
  | nil => rfl
  | cons b l ih =>
    have he : updWhere (b :: l) (fun h => h.tid = x) f = (if b.tid = x then f b else b) :: updWhere l (fun h => h.tid = x) f := by
      simp [updWhere]
    rw [he, List.find?_cons, List.find?_cons, ih]
    by_cases hb : b.tid = x
    · simp only [hb, if_true, hf b hb, decide_true]; rfl
    · simp only [hb, if_false, decide_false]

theorem thread_updThread (s : State) (id x : Nat) (f : Thread → Thread) (hf : ∀ h, h.tid = x → (f h).tid = x) :
    (s.updThread id x f).thread? id x = (s.thread? id x).map f := by
  have ht := team_updTeam s id id (fun u => u.updThread x f) (by intro u; rfl)
  unfold State.thread? State.updThread
  rw [ht]
  cases hs : s.team? id with
  | none => rfl
  | some u =>
    simp only [Option.map_some, team_id hs, if_true, Option.bind_some]
    exact find_updThread u.threads x f hf

theorem writeNow_thread (s : State) (key : Nat) (d : List Byte) (nc : Bool) (id x : Nat) :
    (s.writeNow key d nc).thread? id x = s.thread? id x := by
  rw [(writeNow_touches s key d nc).rest]; rfl

theorem spillLine_waits {s : State} {id x : Nat} {w : Wait} (line : Nat) (h : Waits s id x w) : Waits (s.spillLine id x line) id x w := by
  unfold State.spillLine
  split
  · exact h
  · split
    · split
      · exact h
      · obtain ⟨a, ha, hw⟩ := h
        refine ⟨{ a with absent := line :: a.absent }, ?_, hw⟩
        have hu (f : Thread → Thread) (hf : ∀ h, h.tid = x → (f h).tid = x) (hg : f a = { a with absent := line :: a.absent }) :
            (s.updThread id x f).thread? id x = some { a with absent := line :: a.absent } := by
          rw [thread_updThread _ _ _ _ hf, ha, Option.map_some, hg]
        have both (c : Prop) [Decidable c] (p q : State) (v : Option Thread) (hp : p.thread? id x = v) (hq : q.thread? id x = v) :
            (if c then p else q).thread? id x = v := by split <;> assumption
        exact both _ _ _ _ (hu _ (by intro h e; exact e) rfl) (by rw [writeNow_thread]; exact hu _ (by intro h e; exact e) rfl)
    · exact h

theorem spillThread_waits {s : State} {id x : Nat} {w : Wait} (h : Waits s id x w) : Waits (s.spillThread id x) id x w := by
  unfold State.spillThread
  split
  · exact h
  · next t ht =>
    generalize t.lines x = l
    clear ht
    induction l generalizing s with
    | nil => exact h
    | cons a l ih => exact ih (spillLine_waits a h)

theorem ofStateLine_tid (h : Thread) (b : List Byte) : (h.ofStateLine b).tid = h.tid := by
  unfold Thread.ofStateLine; rfl

theorem updLine0_waits {s : State} {t : Team} {h : Thread} {x : Nat} {w : Wait} {f : Thread → Thread} (ht : s.team? t.id = some t)
    (hx : t.thread? x = some h) (hf : ∀ h, (f h).tid = h.tid) (hw : ∀ h, (f h).wait = w) : Waits (s.updLine0 t.id x f) t.id x w := by
  have hs := thread_of ht hx
  have hid := thread_tid hx
  have plain : Waits (s.updThread t.id x f) t.id x w :=
    ⟨f h, by rw [thread_updThread _ _ _ _ (by intro a e; rw [hf, e]), hs]; rfl, hw h⟩
  unfold State.updLine0
  rw [ht]
  simp only [hx]
  split
  · split
    · next key _ =>
      have h1 : (f (h.ofStateLine (s.peekBytes key 128))).tid = x := by rw [hf, ofStateLine_tid, hid]
      have h2 := hw (h.ofStateLine (s.peekBytes key 128))
      generalize f (h.ofStateLine (s.peekBytes key 128)) = h' at h1 h2
      refine ⟨h', ?_, h2⟩
      rw [writeNow_thread, thread_updThread _ _ _ _ (by intro a _; exact h1), hs]
      rfl
    · exact plain
  · exact plain

/-- One lane that stops (R219): the record of its sub-group waits for the ring, with the lane's PC record, and the lane is parked. -/
theorem stopLanes_one {s : State} {t : Team} {h : Thread} {x : Nat} (info : Stop) (ht : s.team? t.id = some t) (hx : t.thread? x = some h) :
    ∃ r h', r ∈ (s.stopLanes t.id [(x, info)]).traps.records ∧ r.team = t.id ∧ r.tid = x ∧ r.code = info.code ∧ r.kind = 0 ∧ r.pc = h.pc
      ∧ r.idx = h.idx ∧ r.written = false ∧ (s.stopLanes t.id [(x, info)]).thread? t.id x = some h' ∧ h'.wait = .stopped r.sub := by
  have hg : t.subGroups [(x, info)] = [(t.groupOf x, info.code)] := by
    simp [Team.subGroups, List.eraseDups, List.eraseDupsBy, List.eraseDupsBy.loop, sortBy, insertBy]
  have hl : t.lowest [x] = x := by simp [Team.lowest, Team.inOrder, sortBy, insertBy]
  have key : s.stopLanes t.id [(x, info)] = s.parkGroup t.id [x] info := by
    unfold State.stopLanes
    rw [ht]
    simp [hg, hl]
  rw [key]
  unfold State.parkGroup
  rw [ht]
  simp only [hl, hx, List.foldl_cons, List.foldl_nil]
  have hf : s.fresh.team? t.id = some t := ht
  obtain ⟨h', h1, h2⟩ := spillThread_waits (updLine0_waits (f := fun h => { h with wait := .stopped s.nextId, parked := true })
    hf hx (by intro h; rfl) (by intro h; rfl))
  refine ⟨_, h', List.mem_append_right _ (List.mem_singleton.2 rfl), rfl, rfl, rfl, rfl, rfl, rfl, rfl, h1, h2⟩

end Sys2Proof.Laws
end

