-- ==== Sys2Proof/Laws/Units.lean ====
section
/-! SUPPORT. What the shared operations of the Prompter contexts and of the walkers do with an instruction that completes. -/

namespace Sys2Proof.Laws

open Sys2Proof Sys2Proof.Machine

/-- A walker instruction whose body goes on behind it. -/
theorem walked_of {i : Instr} {s m : State} {c d : Walker} {body : Walker → State → WalkEnd} (h : exec i s = issueWalker body s)
    (w : Walks s c) (hb : body c s = .next d m) : Walked i s c d m := by
  unfold Walked
  rw [h]
  unfold issueWalker
  simp only [w.cur, w.ctx, hb]
  rfl

/-- A walker instruction that goes on at an index inside its program. -/
theorem jumped_of {i : Instr} {s m : State} {c d : Walker} {body : Walker → State → WalkEnd} {t : Int} (h : exec i s = issueWalker body s)
    (w : Walks s c) (hb : body c s = .jump t d m) (ht : 0 ≤ t ∧ t < c.job.len) :
    exec i s = .next (tally (m.setWalker { d with pc := t.toNat }) c.cluster) := by
  rw [h]
  unfold issueWalker
  simp only [w.cur, w.ctx, hb]
  rw [if_neg (by omega)]
  rfl

/-- A stream word that waits for no phase and is done. -/
theorem prompted_of {i : Instr} {s m : State} {p : Prompter} {t : Team} {body : Prompter → Team → State → WordEnd}
    (h : exec i s = issueWord none body s) (w : Prompts s p t) (hb : body p t s = .done m) : Prompted i s p m := by
  unfold Prompted
  rw [h]
  unfold issueWord
  have hs : s.streamIssuer = some (p, t) := by
    unfold State.streamIssuer
    simp [w.cur, w.ctx, w.team]
  simp only [w.cur, w.settled, hs, hb]

end Sys2Proof.Laws
end

