-- ==== Sys2Proof/Tests/Slice0.lean ====
section
/-! SUPPORT. Tests: words of every instruction that has one, written out from the spec's own tables (R36-R42, R48, R258, R260, R291-R301),
ill-formed terms, single steps on small states, and states that meet the hypotheses of the statements. -/

namespace Sys2Proof.Tests

set_option Elab.async false

open Sys2Proof Sys2Proof.Machine

/-! ## Words: the opcodes of R48, R260 and R293-R301, the fields at the bits of R36-R42, R258 and R291 -/

/-- Each word decodes to its core instruction and is its encoding. -/
def coreReads (l : List (Nat × Instr)) : Bool :=
  l.all fun p => decodeTableWord 64 p.1 = some p.2 && encodeWord p.2 = BitVec.ofNat 64 p.1 && p.2.kind = .core

/-- Each word decodes to its stream instruction and is its encoding. -/
def streamReads (l : List (Nat × Instr)) : Bool :=
  l.all fun p => (decodeStream (BitVec.ofNat 64 p.1)).toOption = some p.2 && encodeWord p.2 = BitVec.ofNat 64 p.1 && p.2.kind = .stream

/-- Each word decodes to its walker instruction and is its encoding. -/
def walkerReads (l : List (Nat × Instr)) : Bool :=
  l.all fun p => decodeTableWord 32 p.1 = some p.2 && encodeWalker p.2 = BitVec.ofNat 32 p.1 && p.2.kind = .walker

theorem test_decode_format_R_1 : coreReads
  [ (0x000AA20002E68F00, .mov { d := 0x15, a := 0x22, b := 0, c := 0, g := 5, gn := 1, fe := 4, ty := 0xd, rm := 0, tk := 0xf, md := 0 }),
    (0x004AA25E02F28FF8, .iadd { d := 0x15, a := 0x22, b := 0x2f, c := 0, g := 5, gn := 1, fe := 6, ty := 5, rm := 0, tk := 0xf, md := 0xf8 }),
    (0x008AA25E02F28FF8, .isub { d := 0x15, a := 0x22, b := 0x2f, c := 0, g := 5, gn := 1, fe := 6, ty := 5, rm := 0, tk := 0xf, md := 0xf8 }),
    (0x00CAA25E0AF18F01, .iaddc { d := 0x15, a := 0x22, b := 0x2f, c := 2, g := 5, gn := 1, fe := 6, ty := 3, rm := 0, tk := 0xf, md := 1 }),
    (0x010AA25E02F28FE0, .imul { d := 0x15, a := 0x22, b := 0x2f, c := 0, g := 5, gn := 1, fe := 6, ty := 5, rm := 0, tk := 0xf, md := 0xe0 }),
    (0x014AA25E02F18F00, .imulh { d := 0x15, a := 0x22, b := 0x2f, c := 0, g := 5, gn := 1, fe := 6, ty := 3, rm := 0, tk := 0xf, md := 0 }),
    (0x018AA25EF2FA8FE0, .imad { d := 0x15, a := 0x22, b := 0x2f, c := 0x3c, g := 5, gn := 1, fe := 7, ty := 5, rm := 0, tk := 0xf, md := 0xe0 }),
    (0x01CAA25EF2F88F80, .imadw { d := 0x15, a := 0x22, b := 0x2f, c := 0x3c, g := 5, gn := 1, fe := 7, ty := 1, rm := 0, tk := 0xf, md := 0x80 }),
    (0x020AA25E02F18F80, .idiv { d := 0x15, a := 0x22, b := 0x2f, c := 0, g := 5, gn := 1, fe := 6, ty := 3, rm := 0, tk := 0xf, md := 0x80 }),
    (0x024AA25E02F18F00, .irem { d := 0x15, a := 0x22, b := 0x2f, c := 0, g := 5, gn := 1, fe := 6, ty := 3, rm := 0, tk := 0xf, md := 0 }),
    (0x028AA25E02F28F00, .imin { d := 0x15, a := 0x22, b := 0x2f, c := 0, g := 5, gn := 1, fe := 6, ty := 5, rm := 0, tk := 0xf, md := 0 }),
    (0x02CAA25E02F28F00, .imax { d := 0x15, a := 0x22, b := 0x2f, c := 0, g := 5, gn := 1, fe := 6, ty := 5, rm := 0, tk := 0xf, md := 0 }),
    (0x030AA20002E28F80, .iabs { d := 0x15, a := 0x22, b := 0, c := 0, g := 5, gn := 1, fe := 4, ty := 5, rm := 0, tk := 0xf, md := 0x80 }),
    (0x0341A25E02F08F07, .icmp { d := 3, a := 0x22, b := 0x2f, c := 0, g := 5, gn := 1, fe := 6, ty := 1, rm := 0, tk := 0xf, md := 7 }),
    (0x038AA25E0AF38F00, .isel { d := 0x15, a := 0x22, b := 0x2f, c := 2, g := 5, gn := 1, fe := 6, ty := 7, rm := 0, tk := 0xf, md := 0 }),
    (0x03CAA25E02F18F03, .lea { d := 0x15, a := 0x22, b := 0x2f, c := 0, g := 5, gn := 1, fe := 6, ty := 3, rm := 0, tk := 0xf, md := 3 }),
    (0x040AA25E02F18F00, .and { d := 0x15, a := 0x22, b := 0x2f, c := 0, g := 5, gn := 1, fe := 6, ty := 3, rm := 0, tk := 0xf, md := 0 }),
    (0x044AA25E02F18F00, .or { d := 0x15, a := 0x22, b := 0x2f, c := 0, g := 5, gn := 1, fe := 6, ty := 3, rm := 0, tk := 0xf, md := 0 }),
    (0x048AA25E02F18F00, .xor { d := 0x15, a := 0x22, b := 0x2f, c := 0, g := 5, gn := 1, fe := 6, ty := 3, rm := 0, tk := 0xf, md := 0 }),
    (0x04CAA25E02F18F00, .andn { d := 0x15, a := 0x22, b := 0x2f, c := 0, g := 5, gn := 1, fe := 6, ty := 3, rm := 0, tk := 0xf, md := 0 }),
    (0x050AA20002E18F00, .not { d := 0x15, a := 0x22, b := 0, c := 0, g := 5, gn := 1, fe := 4, ty := 3, rm := 0, tk := 0xf, md := 0 }),
    (0x054AA25E02F18F00, .shl { d := 0x15, a := 0x22, b := 0x2f, c := 0, g := 5, gn := 1, fe := 6, ty := 3, rm := 0, tk := 0xf, md := 0 }),
    (0x058AA25E02F18F00, .shr { d := 0x15, a := 0x22, b := 0x2f, c := 0, g := 5, gn := 1, fe := 6, ty := 3, rm := 0, tk := 0xf, md := 0 }),
    (0x05CAA25E02F18F00, .sha { d := 0x15, a := 0x22, b := 0x2f, c := 0, g := 5, gn := 1, fe := 6, ty := 3, rm := 0, tk := 0xf, md := 0 }),
    (0x060AA25E02F18F00, .rot { d := 0x15, a := 0x22, b := 0x2f, c := 0, g := 5, gn := 1, fe := 6, ty := 3, rm := 0, tk := 0xf, md := 0 }),
    (0x064AA25E02F18F00, .bfe { d := 0x15, a := 0x22, b := 0x2f, c := 0, g := 5, gn := 1, fe := 6, ty := 3, rm := 0, tk := 0xf, md := 0 }) ] = true := by decide

theorem test_decode_format_R_2 : coreReads
  [ (0x068AA25EF2F98F00, .bfi { d := 0x15, a := 0x22, b := 0x2f, c := 0x3c, g := 5, gn := 1, fe := 7, ty := 3, rm := 0, tk := 0xf, md := 0 }),
    (0x06CAA20002E18F00, .popc { d := 0x15, a := 0x22, b := 0, c := 0, g := 5, gn := 1, fe := 4, ty := 3, rm := 0, tk := 0xf, md := 0 }),
    (0x070AA20002E18F00, .clz { d := 0x15, a := 0x22, b := 0, c := 0, g := 5, gn := 1, fe := 4, ty := 3, rm := 0, tk := 0xf, md := 0 }),
    (0x074AA20002E18F00, .ctz { d := 0x15, a := 0x22, b := 0, c := 0, g := 5, gn := 1, fe := 4, ty := 3, rm := 0, tk := 0xf, md := 0 }),
    (0x078AA20002E18F00, .brev { d := 0x15, a := 0x22, b := 0, c := 0, g := 5, gn := 1, fe := 4, ty := 3, rm := 0, tk := 0xf, md := 0 }),
    (0x07CAA25EF2F88F00, .bytep { d := 0x15, a := 0x22, b := 0x2f, c := 0x3c, g := 5, gn := 1, fe := 7, ty := 1, rm := 0, tk := 0xf, md := 0 }),
    (0x0801850C02C00F45, .plop { d := 3, a := 5, b := 6, c := 0, g := 5, gn := 1, fe := 0, ty := 0, rm := 0, tk := 0xf, md := 0x45 }),
    (0x084AA25EF2FA8F83, .idot4 { d := 0x15, a := 0x22, b := 0x2f, c := 0x3c, g := 5, gn := 1, fe := 7, ty := 5, rm := 0, tk := 0xf, md := 0x83 }),
    (0x088AA25E0AF38F03, .shfl { d := 0x15, a := 0x22, b := 0x2f, c := 2, g := 5, gn := 1, fe := 6, ty := 7, rm := 0, tk := 0xf, md := 3 }),
    (0x08C1850002C00F04, .vote { d := 3, a := 5, b := 0, c := 0, g := 5, gn := 1, fe := 0, ty := 0, rm := 0, tk := 0xf, md := 4 }),
    (0x090AA20002E3BF00, .gscan { d := 0x15, a := 0x22, b := 0, c := 0, g := 5, gn := 1, fe := 4, ty := 7, rm := 3, tk := 0xf, md := 0 }),
    (0x094AA20002E32F00, .gred { d := 0x15, a := 0x22, b := 0, c := 0, g := 5, gn := 1, fe := 4, ty := 6, rm := 2, tk := 0xf, md := 0 }),
    (0x400AA25E02F4EFF8, .fadd { d := 0x15, a := 0x22, b := 0x2f, c := 0, g := 5, gn := 1, fe := 6, ty := 9, rm := 6, tk := 0xf, md := 0xf8 }),
    (0x404AA25E02F4EFF8, .fsub { d := 0x15, a := 0x22, b := 0x2f, c := 0, g := 5, gn := 1, fe := 6, ty := 9, rm := 6, tk := 0xf, md := 0xf8 }),
    (0x408AA25E02F4EFF8, .fmul { d := 0x15, a := 0x22, b := 0x2f, c := 0, g := 5, gn := 1, fe := 6, ty := 9, rm := 6, tk := 0xf, md := 0xf8 }),
    (0x40CAA25EF2FCEFF9, .ffma { d := 0x15, a := 0x22, b := 0x2f, c := 0x3c, g := 5, gn := 1, fe := 7, ty := 9, rm := 6, tk := 0xf, md := 0xf9 }),
    (0x410AA25E02F48F78, .fmin { d := 0x15, a := 0x22, b := 0x2f, c := 0, g := 5, gn := 1, fe := 6, ty := 9, rm := 0, tk := 0xf, md := 0x78 }),
    (0x414AA25E02F48F78, .fmax { d := 0x15, a := 0x22, b := 0x2f, c := 0, g := 5, gn := 1, fe := 6, ty := 9, rm := 0, tk := 0xf, md := 0x78 }),
    (0x4181A25E02F38F2D, .fcmp { d := 3, a := 0x22, b := 0x2f, c := 0, g := 5, gn := 1, fe := 6, ty := 7, rm := 0, tk := 0xf, md := 0x2d }),
    (0x41CAA20002E58F00, .fclass { d := 0x15, a := 0x22, b := 0, c := 0, g := 5, gn := 1, fe := 4, ty := 0xb, rm := 0, tk := 0xf, md := 0 }),
    (0x420AA25E02F5EFF8, .fdiv { d := 0x15, a := 0x22, b := 0x2f, c := 0, g := 5, gn := 1, fe := 6, ty := 0xb, rm := 6, tk := 0xf, md := 0xf8 }),
    (0x424AA20002E5CFD0, .fsqrt { d := 0x15, a := 0x22, b := 0, c := 0, g := 5, gn := 1, fe := 4, ty := 0xb, rm := 4, tk := 0xf, md := 0xd0 }),
    (0x428AA20002E5CFD0, .frcp { d := 0x15, a := 0x22, b := 0, c := 0, g := 5, gn := 1, fe := 4, ty := 0xb, rm := 4, tk := 0xf, md := 0xd0 }),
    (0x42CAA20002E5CFD0, .frsq { d := 0x15, a := 0x22, b := 0, c := 0, g := 5, gn := 1, fe := 4, ty := 0xb, rm := 4, tk := 0xf, md := 0xd0 }),
    (0x430AA20002E5CFD0, .fexp2 { d := 0x15, a := 0x22, b := 0, c := 0, g := 5, gn := 1, fe := 4, ty := 0xb, rm := 4, tk := 0xf, md := 0xd0 }),
    (0x434AA20002E5CFD0, .flog2 { d := 0x15, a := 0x22, b := 0, c := 0, g := 5, gn := 1, fe := 4, ty := 0xb, rm := 4, tk := 0xf, md := 0xd0 }) ] = true := by decide

theorem test_decode_format_R_3 : coreReads
  [ (0x438AA20002E5CFD0, .fsin { d := 0x15, a := 0x22, b := 0, c := 0, g := 5, gn := 1, fe := 4, ty := 0xb, rm := 4, tk := 0xf, md := 0xd0 }),
    (0x43CAA20002E5CFD0, .fcos { d := 0x15, a := 0x22, b := 0, c := 0, g := 5, gn := 1, fe := 4, ty := 0xb, rm := 4, tk := 0xf, md := 0xd0 }),
    (0x440AA25EF2FCEFE1, .fdot2 { d := 0x15, a := 0x22, b := 0x2f, c := 0x3c, g := 5, gn := 1, fe := 7, ty := 9, rm := 6, tk := 0xf, md := 0xe1 }),
    (0x600AA20002E6EF86, .cvtf { d := 0x15, a := 0x22, b := 0, c := 0, g := 5, gn := 1, fe := 4, ty := 0xd, rm := 6, tk := 0xf, md := 0x86 }),
    (0x604AA20002E2EF0C, .cvtfi { d := 0x15, a := 0x22, b := 0, c := 0, g := 5, gn := 1, fe := 4, ty := 5, rm := 6, tk := 0xf, md := 0xc }),
    (0x608AA20002E6EF83, .cvtif { d := 0x15, a := 0x22, b := 0, c := 0, g := 5, gn := 1, fe := 4, ty := 0xd, rm := 6, tk := 0xf, md := 0x83 }),
    (0x60CAA20002E58F05, .cvtq { d := 0x15, a := 0x22, b := 0, c := 0, g := 5, gn := 1, fe := 4, ty := 0xb, rm := 0, tk := 0xf, md := 5 }),
    (0x610AA20002E5CF0A, .cvtdq { d := 0x15, a := 0x22, b := 0, c := 0, g := 5, gn := 1, fe := 4, ty := 0xb, rm := 4, tk := 0xf, md := 0xa }),
    (0x614AA20002E58F01, .cbk { d := 0x15, a := 0x22, b := 0, c := 0, g := 5, gn := 1, fe := 4, ty := 0xb, rm := 0, tk := 0xf, md := 1 }),
    (0x618AA25E02F08F00, .rngk { d := 0x15, a := 0x22, b := 0x2f, c := 0, g := 5, gn := 1, fe := 6, ty := 1, rm := 0, tk := 0xf, md := 0 }),
    (0x61CA800002C08F00, .noise { d := 0x15, a := 0, b := 0, c := 0, g := 5, gn := 1, fe := 0, ty := 1, rm := 0, tk := 0xf, md := 0 }),
    (0xA00AA25EF2F9CF18, .atom { d := 0x15, a := 0x22, b := 0x2f, c := 0x3c, g := 5, gn := 1, fe := 7, ty := 3, rm := 4, tk := 0xf, md := 0x18 }),
    (0xA040225E02F35621, .red { d := 0, a := 0x22, b := 0x2f, c := 0, g := 5, gn := 1, fe := 6, ty := 6, rm := 5, tk := 6, md := 0x21 }),
    (0xB00AA20002E00F00, .rbind { d := 0x15, a := 0x22, b := 0, c := 0, g := 5, gn := 1, fe := 4, ty := 0, rm := 0, tk := 0xf, md := 0 }),
    (0xB040225E02F00F03, .enter { d := 0, a := 0x22, b := 0x2f, c := 0, g := 5, gn := 1, fe := 6, ty := 0, rm := 0, tk := 0xf, md := 3 }),
    (0xB080225E02F00F02, .enterm { d := 0, a := 0x22, b := 0x2f, c := 0, g := 5, gn := 1, fe := 6, ty := 0, rm := 0, tk := 0xf, md := 2 }),
    (0xB0C0225E16F00F03, .etry { d := 0, a := 0x22, b := 0x2f, c := 5, g := 5, gn := 1, fe := 6, ty := 0, rm := 0, tk := 0xf, md := 3 }),
    (0xB100220002E00F00, .leave { d := 0, a := 0x22, b := 0, c := 0, g := 5, gn := 1, fe := 4, ty := 0, rm := 0, tk := 0xf, md := 0 }),
    (0xB140225E0AF00F00, .push { d := 0, a := 0x22, b := 0x2f, c := 2, g := 5, gn := 1, fe := 6, ty := 0, rm := 0, tk := 0xf, md := 0 }),
    (0xB18AA2000AE00F00, .pop { d := 0x15, a := 0x22, b := 0, c := 2, g := 5, gn := 1, fe := 4, ty := 0, rm := 0, tk := 0xf, md := 0 }),
    (0xB1C0225EF2F80F00, .racc { d := 0, a := 0x22, b := 0x2f, c := 0x3c, g := 5, gn := 1, fe := 7, ty := 0, rm := 0, tk := 0xf, md := 0 }),
    (0xB20AA20002E00F01, .rstat { d := 0x15, a := 0x22, b := 0, c := 0, g := 5, gn := 1, fe := 4, ty := 0, rm := 0, tk := 0xf, md := 1 }),
    (0xB24AA20002E00F00, .runbind { d := 0x15, a := 0x22, b := 0, c := 0, g := 5, gn := 1, fe := 4, ty := 0, rm := 0, tk := 0xf, md := 0 }),
    (0xC48A80000AC00F00, .elect { d := 0x15, a := 0, b := 0, c := 2, g := 5, gn := 1, fe := 0, ty := 0, rm := 0, tk := 0xf, md := 0 }) ] = true := by decide

theorem test_decode_format_I_1 : coreReads
  [ (0x200A80B189ABCDEF, .movi { d := 0x15, a := 0, g := 5, gn := 1, fe := 0, md := 1, imm := 0x89abcdef }),
    (0x204AA2BB89ABCDEF, .iaddi { d := 0x15, a := 0x22, g := 5, gn := 1, fe := 1, md := 3, imm := 0x89abcdef }),
    (0x208AA2BA89ABCDEF, .isubi { d := 0x15, a := 0x22, g := 5, gn := 1, fe := 1, md := 2, imm := 0x89abcdef }),
    (0x20CAA2BF89ABCDEF, .iaddci { d := 0x15, a := 0x22, g := 5, gn := 1, fe := 1, md := 7, imm := 0x89abcdef }),
    (0x210AA2BA89ABCDEF, .imuli { d := 0x15, a := 0x22, g := 5, gn := 1, fe := 1, md := 2, imm := 0x89abcdef }),
    (0x214AA2BA89ABCDEF, .imulhi { d := 0x15, a := 0x22, g := 5, gn := 1, fe := 1, md := 2, imm := 0x89abcdef }),
    (0x218AA2BA89ABCDEF, .imadi { d := 0x15, a := 0x22, g := 5, gn := 1, fe := 1, md := 2, imm := 0x89abcdef }),
    (0x21CAA2BA89ABCDEF, .imadwi { d := 0x15, a := 0x22, g := 5, gn := 1, fe := 1, md := 2, imm := 0x89abcdef }),
    (0x220AA2BA89ABCDEF, .idivi { d := 0x15, a := 0x22, g := 5, gn := 1, fe := 1, md := 2, imm := 0x89abcdef }),
    (0x224AA2BA89ABCDEF, .iremi { d := 0x15, a := 0x22, g := 5, gn := 1, fe := 1, md := 2, imm := 0x89abcdef }),
    (0x228AA2BA89ABCDEF, .imini { d := 0x15, a := 0x22, g := 5, gn := 1, fe := 1, md := 2, imm := 0x89abcdef }),
    (0x22CAA2BA89ABCDEF, .imaxi { d := 0x15, a := 0x22, g := 5, gn := 1, fe := 1, md := 2, imm := 0x89abcdef }),
    (0x230A80B189ABCDEF, .iabsi { d := 0x15, a := 0, g := 5, gn := 1, fe := 0, md := 1, imm := 0x89abcdef }),
    (0x234322BD89ABCDEF, .icmpi { d := 6, a := 0x22, g := 5, gn := 1, fe := 1, md := 5, imm := 0x89abcdef }),
    (0x238AA2BE89ABCDEF, .iseli { d := 0x15, a := 0x22, g := 5, gn := 1, fe := 1, md := 6, imm := 0x89abcdef }),
    (0x23CAA2BD89ABCDEF, .leai { d := 0x15, a := 0x22, g := 5, gn := 1, fe := 1, md := 5, imm := 0x89abcdef }),
    (0x240AA2BA89ABCDEF, .andi { d := 0x15, a := 0x22, g := 5, gn := 1, fe := 1, md := 2, imm := 0x89abcdef }),
    (0x244AA2BA89ABCDEF, .ori { d := 0x15, a := 0x22, g := 5, gn := 1, fe := 1, md := 2, imm := 0x89abcdef }),
    (0x248AA2BA89ABCDEF, .xori { d := 0x15, a := 0x22, g := 5, gn := 1, fe := 1, md := 2, imm := 0x89abcdef }),
    (0x24CAA2BA89ABCDEF, .andni { d := 0x15, a := 0x22, g := 5, gn := 1, fe := 1, md := 2, imm := 0x89abcdef }),
    (0x250A80B289ABCDEF, .noti { d := 0x15, a := 0, g := 5, gn := 1, fe := 0, md := 2, imm := 0x89abcdef }),
    (0x254AA2BA89ABCDEF, .shli { d := 0x15, a := 0x22, g := 5, gn := 1, fe := 1, md := 2, imm := 0x89abcdef }),
    (0x258AA2BA89ABCDEF, .shri { d := 0x15, a := 0x22, g := 5, gn := 1, fe := 1, md := 2, imm := 0x89abcdef }),
    (0x25CAA2BA89ABCDEF, .shai { d := 0x15, a := 0x22, g := 5, gn := 1, fe := 1, md := 2, imm := 0x89abcdef }),
    (0x260AA2BA89ABCDEF, .roti { d := 0x15, a := 0x22, g := 5, gn := 1, fe := 1, md := 2, imm := 0x89abcdef }),
    (0x264AA2BA89ABCDEF, .bfei { d := 0x15, a := 0x22, g := 5, gn := 1, fe := 1, md := 2, imm := 0x89abcdef }) ] = true := by decide

theorem test_decode_format_I_2 : coreReads
  [ (0x268AA2BA89ABCDEF, .bfii { d := 0x15, a := 0x22, g := 5, gn := 1, fe := 1, md := 2, imm := 0x89abcdef }),
    (0x3F8A80B089ABCDEF, .movih { d := 0x15, a := 0, g := 5, gn := 1, fe := 0, md := 0, imm := 0x89abcdef }),
    (0xB94022BA89ABCDEF, .cuewait { d := 0, a := 0x22, g := 5, gn := 1, fe := 1, md := 2, imm := 0x89abcdef }),
    (0xB98AA2B900000000, .cueprog { d := 0x15, a := 0x22, g := 5, gn := 1, fe := 1, md := 1, imm := 0 }),
    (0xC50000B089ABCDEF, .tmrset { d := 0, a := 0, g := 5, gn := 1, fe := 0, md := 0, imm := 0x89abcdef }),
    (0xD8CAA2B900000000, .kput { d := 0x15, a := 0x22, g := 5, gn := 1, fe := 1, md := 1, imm := 0 }),
    (0xD90AA2B100000000, .kget { d := 0x15, a := 0x22, g := 5, gn := 1, fe := 0, md := 1, imm := 0 }),
    (0xD98A80B089ABCDEF, .sread { d := 0x15, a := 0, g := 5, gn := 1, fe := 0, md := 0, imm := 0x89abcdef }),
    (0xD9C022B889ABCDEF, .swrite { d := 0, a := 0x22, g := 5, gn := 1, fe := 1, md := 0, imm := 0x89abcdef }) ] = true := by decide

theorem test_decode_format_M : coreReads
  [ (0x800AA25F7357EA5B, .ld { d := 0x15, a := 0x22, b := 0x2f, g := 5, gn := 1, fe := 4, w := 6, sc := 5, ord := 1, tk := 0xf, off := 0x2a5b }),
    (0x804AA25F75D9AA5B, .st { d := 0x15, a := 0x22, b := 0x2f, g := 5, gn := 1, fe := 5, w := 3, sc := 5, ord := 2, tk := 6, off := 0x2a5b }),
    (0x808AA25F71B7EA5B, .lds { d := 0x15, a := 0x22, b := 0x2f, g := 5, gn := 1, fe := 4, w := 3, sc := 3, ord := 1, tk := 0xf, off := 0x2a5b }),
    (0x80CAA25F7DA8EA5B, .sts { d := 0x15, a := 0x22, b := 0x2f, g := 5, gn := 1, fe := 7, w := 3, sc := 2, ord := 2, tk := 3, off := 0x2a5b }),
    (0x810AA25F719FF45B, .ats { d := 0x15, a := 0x22, b := 0x2f, g := 5, gn := 1, fe := 4, w := 3, sc := 1, ord := 3, tk := 0xf, off := 0x345b }),
    (0x814AA20D73D3EA5B, .ldsub { d := 0x15, a := 0x22, b := 6, g := 5, gn := 1, fe := 4, w := 7, sc := 5, ord := 0, tk := 0xf, off := 0x2a5b }),
    (0x818AA25F72D7EA5B, .ldv { d := 0x15, a := 0x22, b := 0x2f, g := 5, gn := 1, fe := 4, w := 5, sc := 5, ord := 1, tk := 0xf, off := 0x2a5b }),
    (0x81C022017041EA5B, .pref { d := 0, a := 0x22, b := 0, g := 5, gn := 1, fe := 4, w := 0, sc := 4, ord := 0, tk := 7, off := 0x2a5b }),
    (0x820000016163C000, .fence { d := 0, a := 0, b := 0, g := 5, gn := 1, fe := 0, w := 2, sc := 6, ord := 0, tk := 0xf, off := 0 }),
    (0x824000016053C000, .wack { d := 0, a := 0, b := 0, g := 5, gn := 1, fe := 0, w := 0, sc := 5, ord := 0, tk := 0xf, off := 0 }),
    (0x8280220171A06A5B, .cctl { d := 0, a := 0x22, b := 0, g := 5, gn := 1, fe := 4, w := 3, sc := 2, ord := 0, tk := 1, off := 0x2a5b }),
    (0x82CAA25F71D7C000, .ldvol { d := 0x15, a := 0x22, b := 0x2f, g := 5, gn := 1, fe := 4, w := 3, sc := 5, ord := 1, tk := 0xf, off := 0 }),
    (0x830AA25F79D88000, .stvol { d := 0x15, a := 0x22, b := 0x2f, g := 5, gn := 1, fe := 6, w := 3, sc := 5, ord := 2, tk := 2, off := 0 }),
    (0x8340225F70510000, .volinv { d := 0, a := 0x22, b := 0x2f, g := 5, gn := 1, fe := 4, w := 0, sc := 5, ord := 0, tk := 4, off := 0 }),
    (0xA08AA25F79D3EA5B, .gath { d := 0x15, a := 0x22, b := 0x2f, g := 5, gn := 1, fe := 6, w := 3, sc := 5, ord := 0, tk := 0xf, off := 0x2a5b }),
    (0xA0C0225F79D16A5B, .scat { d := 0, a := 0x22, b := 0x2f, g := 5, gn := 1, fe := 6, w := 3, sc := 5, ord := 0, tk := 5, off := 0x2a5b }),
    (0xA100225F79D15A5B, .scata { d := 0, a := 0x22, b := 0x2f, g := 5, gn := 1, fe := 6, w := 3, sc := 5, ord := 0, tk := 5, off := 0x1a5b }),
    (0xA14A805F69D3C000, .cas4 { d := 0x15, a := 0, b := 0x2f, g := 5, gn := 1, fe := 2, w := 3, sc := 5, ord := 0, tk := 0xf, off := 0 }),
    (0xA180225F78D02A5B, .sflush { d := 0, a := 0x22, b := 0x2f, g := 5, gn := 1, fe := 6, w := 1, sc := 5, ord := 0, tk := 0, off := 0x2a5b }),
    (0xA1C022017080EA5B, .regmode { d := 0, a := 0x22, b := 0, g := 5, gn := 1, fe := 4, w := 1, sc := 0, ord := 0, tk := 3, off := 0x2a5b }),
    (0xA200225F7800EA5B, .reclaim { d := 0, a := 0x22, b := 0x2f, g := 5, gn := 1, fe := 6, w := 0, sc := 0, ord := 0, tk := 3, off := 0x2a5b }) ] = true := by decide

theorem test_decode_format_C : coreReads
  [ (0xB80AA25EF2ED3FA0, .cuenew { d := 0x15, a := 0x22, b := 0x2f, c := 0x3c, g := 5, gn := 1, fe := 5, md := 0x53, tk := 0xf, cp := 0xa0 }),
    (0xB840220002E00FA0, .cuedep { d := 0, a := 0x22, b := 0, c := 0, g := 5, gn := 1, fe := 4, md := 0, tk := 0xf, cp := 0xa0 }),
    (0xB88AA20002E00FA0, .cuearm { d := 0x15, a := 0x22, b := 0, c := 0, g := 5, gn := 1, fe := 4, md := 0, tk := 0xf, cp := 0xa0 }),
    (0xB8CAA25EF2E80FA0, .copy { d := 0x15, a := 0x22, b := 0x2f, c := 0x3c, g := 5, gn := 1, fe := 5, md := 0, tk := 0xf, cp := 0xa0 }),
    (0xB90AA25EF2E80FA0, .copyt { d := 0x15, a := 0x22, b := 0x2f, c := 0x3c, g := 5, gn := 1, fe := 5, md := 0, tk := 0xf, cp := 0xa0 }),
    (0xB9CAA20002E00FA0, .cuekill { d := 0x15, a := 0x22, b := 0, c := 0, g := 5, gn := 1, fe := 4, md := 0, tk := 0xf, cp := 0xa0 }),
    (0xBA0AA25EF2E80FA0, .wlkgo { d := 0x15, a := 0x22, b := 0x2f, c := 0x3c, g := 5, gn := 1, fe := 5, md := 0, tk := 0xf, cp := 0xa0 }) ] = true := by decide

theorem test_decode_format_B : coreReads
  [ (0xC02F0001FFFFFF78, .bra { g := 5, gn := 1, bs := 6, a := 0, md := 1, off := 0xffffff78 }),
    (0xC06F220100000000, .brx { g := 5, gn := 1, bs := 6, a := 0x22, md := 1, off := 0 }),
    (0xC0AC000012345678, .call { g := 5, gn := 1, bs := 0, a := 0, md := 0, off := 0x12345678 }),
    (0xC0EDA20100000000, .callx { g := 5, gn := 1, bs := 3, a := 0x22, md := 1, off := 0 }),
    (0xC12EA20100000000, .ret { g := 5, gn := 1, bs := 5, a := 0x22, md := 1, off := 0 }),
    (0xC17B000100000000, .recon { g := 7, gn := 0, bs := 6, a := 0, md := 1, off := 0 }),
    (0xC1AC000000000000, .yield { g := 5, gn := 1, bs := 0, a := 0, md := 0, off := 0 }),
    (0xC1EC220000000000, .nap { g := 5, gn := 1, bs := 0, a := 0x22, md := 0, off := 0 }),
    (0xC22C000900000000, .bara { g := 5, gn := 1, bs := 0, a := 0, md := 9, off := 0 }),
    (0xC26C000E00000000, .barw { g := 5, gn := 1, bs := 0, a := 0, md := 0xe, off := 0 }),
    (0xC2AC220B00000000, .bars { g := 5, gn := 1, bs := 0, a := 0x22, md := 0xb, off := 0 }),
    (0xC2EC000000000000, .exit { g := 5, gn := 1, bs := 0, a := 0, md := 0, off := 0 }),
    (0xC32C220000000000, .launch { g := 5, gn := 1, bs := 0, a := 0x22, md := 0, off := 0 }),
    (0xC36C220500000000, .launcht { g := 5, gn := 1, bs := 0, a := 0x22, md := 5, off := 0 }),
    (0xC3AC00A700000000, .trap { g := 5, gn := 1, bs := 0, a := 0, md := 0xa7, off := 0 }),
    (0xC3EC220000000000, .raise { g := 5, gn := 1, bs := 0, a := 0x22, md := 0, off := 0 }),
    (0xC42C220200000000, .tret { g := 5, gn := 1, bs := 0, a := 0x22, md := 2, off := 0 }),
    (0xC46C000000000000, .tfence { g := 5, gn := 1, bs := 0, a := 0, md := 0, off := 0 }),
    (0xC4EC000600000000, .role { g := 5, gn := 1, bs := 0, a := 0, md := 6, off := 0 }),
    (0xC56C005C00000000, .brk { g := 5, gn := 1, bs := 0, a := 0, md := 0x5c, off := 0 }) ] = true := by decide

theorem test_decode_format_K : coreReads
  [ (0xD815880100000000, .kmov { kd := 0x15, ka := 0x22, kb := 0, md := 1, imm := 0 }),
    (0xD855000189ABCDEF, .kmovi { kd := 0x15, ka := 0, kb := 0, md := 1, imm := 0x89abcdef }),
    (0xD895880B89ABCDEF, .kld { kd := 0x15, ka := 0x22, kb := 0, md := 0xb, imm := 0x89abcdef }),
    (0xD9558AF189ABCDEF, .kadd { kd := 0x15, ka := 0x22, kb := 0x2f, md := 1, imm := 0x89abcdef }),
    (0xDA008AFD00000000, .tlbinv { kd := 0, ka := 0x22, kb := 0x2f, md := 0xd, imm := 0 }),
    (0xDA40880000000000, .asidset { kd := 0, ka := 0x22, kb := 0, md := 0, imm := 0 }),
    (0xDA80880100000000, .ctxevict { kd := 0, ka := 0x22, kb := 0, md := 1, imm := 0 }),
    (0xDAC0880000000000, .mstart { kd := 0, ka := 0x22, kb := 0, md := 0, imm := 0 }) ] = true := by decide

theorem test_decode_format_P : streamReads
  [ (0x00FF000000000000, .mnop { wb := 0xf, sb := 0xf, ru := 0, ka := 0, kb := 0, kc := 0, km := 0, fa := 0, fo := 0, sp := 0, ch := 0, tr := 0, md := 0 }),
    (0x013F251816300201, .mldw { wb := 3, sb := 0xf, ru := 0, ka := 0x12, kb := 0x23, kc := 0, km := 0x2c, fa := 6, fo := 0, sp := 0, ch := 0, tr := 2, md := 1 }),
    (0x024F011BB6480000, .mldwt { wb := 4, sb := 0xf, ru := 0, ka := 0, kb := 0x23, kc := 0x1d, km := 0x2c, fa := 9, fo := 0, sp := 0, ch := 0, tr := 0, md := 0 }),
    (0x035F251BD6303001, .mldws { wb := 5, sb := 0xf, ru := 0, ka := 0x12, kb := 0x23, kc := 0x1e, km := 0x2c, fa := 6, fo := 0, sp := 3, ch := 0, tr := 0, md := 1 }),
    (0x046F240000000001, .mldcb { wb := 6, sb := 0xf, ru := 0, ka := 0x12, kb := 0, kc := 0, km := 0, fa := 0, fo := 0, sp := 0, ch := 0, tr := 0, md := 1 }),
    (0x0539A51BB6308902, .mma { wb := 3, sb := 9, ru := 1, ka := 0x12, kb := 0x23, kc := 0x1d, km := 0x2c, fa := 6, fo := 1, sp := 0, ch := 2, tr := 1, md := 2 }),
    (0x0639A51BB630A701, .mmac { wb := 3, sb := 9, ru := 1, ka := 0x12, kb := 0x23, kc := 0x1d, km := 0x2c, fa := 6, fo := 1, sp := 2, ch := 1, tr := 3, md := 1 }),
    (0x0712011BA0000000, .mzero { wb := 1, sb := 2, ru := 0, ka := 0, kb := 0x23, kc := 0x1d, km := 0, fa := 0, fo := 0, sp := 0, ch := 0, tr := 0, md := 0 }),
    (0x0812271BB60580D0, .mstc { wb := 1, sb := 2, ru := 0, ka := 0x13, kb := 0x23, kc := 0x1d, km := 0x2c, fa := 0, fo := 0xb, sp := 0, ch := 0, tr := 0, md := 0xd0 }),
    (0x0912251BD6300005, .mturn { wb := 1, sb := 2, ru := 0, ka := 0x12, kb := 0x23, kc := 0x1e, km := 0x2c, fa := 6, fo := 0, sp := 0, ch := 0, tr := 0, md := 5 }),
    (0x0A8F240000000001, .mrule { wb := 8, sb := 0xf, ru := 0, ka := 0x12, kb := 0, kc := 0, km := 0, fa := 0, fo := 0, sp := 0, ch := 0, tr := 0, md := 1 }),
    (0x0B12251BB6000000, .mdrain { wb := 1, sb := 2, ru := 0, ka := 0x12, kb := 0x23, kc := 0x1d, km := 0x2c, fa := 0, fo := 0, sp := 0, ch := 0, tr := 0, md := 0 }),
    (0x0C12251BA0000001, .msave { wb := 1, sb := 2, ru := 0, ka := 0x12, kb := 0x23, kc := 0x1d, km := 0, fa := 0, fo := 0, sp := 0, ch := 0, tr := 0, md := 1 }),
    (0x0D12251BA0000001, .mload { wb := 1, sb := 2, ru := 0, ka := 0x12, kb := 0x23, kc := 0x1d, km := 0, fa := 0, fo := 0, sp := 0, ch := 0, tr := 0, md := 1 }),
    (0x0E7F000000000000, .mwait { wb := 7, sb := 0xf, ru := 0, ka := 0, kb := 0, kc := 0, km := 0, fa := 0, fo := 0, sp := 0, ch := 0, tr := 0, md := 0 }),
    (0x0F78000000000000, .msig { wb := 7, sb := 8, ru := 0, ka := 0, kb := 0, kc := 0, km := 0, fa := 0, fo := 0, sp := 0, ch := 0, tr := 0, md := 0 }),
    (0x107F24A2C0000001, .mqcfg { wb := 7, sb := 0xf, ru := 0, ka := 0x12, kb := 0x14, kc := 0x16, km := 0, fa := 0, fo := 0, sp := 0, ch := 0, tr := 0, md := 1 }),
    (0x1112271BB6008008, .mepi { wb := 1, sb := 2, ru := 0, ka := 0x13, kb := 0x23, kc := 0x1d, km := 0x2c, fa := 0, fo := 1, sp := 0, ch := 0, tr := 0, md := 8 }),
    (0x12FF440000000000, .mprog { wb := 0xf, sb := 0xf, ru := 0, ka := 0x22, kb := 0, kc := 0, km := 0, fa := 0, fo := 0, sp := 0, ch := 0, tr := 0, md := 0 }),
    (0x13FF7FFFFFFC0000, .mjmp { wb := 0xf, sb := 0xf, ru := 0, ka := 0x3f, kb := 0x3f, kc := 0x3f, km := 0x3f, fa := 0xf, fo := 8, sp := 0, ch := 0, tr := 0, md := 0 }),
    (0x14FF7FFFFF780028, .mloop { wb := 0xf, sb := 0xf, ru := 0, ka := 0x3f, kb := 0x3f, kc := 0x3f, km := 0x3e, fa := 0xf, fo := 0, sp := 0, ch := 0, tr := 0, md := 0x28 }),
    (0x15FF000000000000, .mend { wb := 0xf, sb := 0xf, ru := 0, ka := 0, kb := 0, kc := 0, km := 0, fa := 0, fo := 0, sp := 0, ch := 0, tr := 0, md := 0 }),
    (0x16FF25253AB48001, .mkadd { wb := 0xf, sb := 0xf, ru := 0, ka := 0x12, kb := 0x24, kc := 0x29, km := 0x35, fa := 6, fo := 9, sp := 0, ch := 0, tr := 0, md := 1 }) ] = true := by decide

theorem test_decode_walker : walkerReads
  [ (0x00000000, .wnop),
    (0x05403FFD, .wmovi 5 0x3FFD),
    (0x05406345, .wmoviSh 5 0x2345),
    (0x09640000, .wmov 5 9),
    (0x0D678000, .wadd 5 9 14),
    (0x11643FFD, .waddi 5 9 0x3FFD),
    (0x15678000, .wsub 5 9 14),
    (0x19678000, .wand 5 9 14),
    (0x1D678000, .wor 5 9 14),
    (0x21640002, .wshl 5 9 0 0 2),
    (0x2564001F, .wshr 5 9 0 0 31),
    (0x29678000, .wmin 5 9 14),
    (0x2D640000, .wpopc 5 9),
    (0x31640000, .wffs 5 9),
    (0x34278000, .wcmp 9 14),
    (0x38243FFD, .wcmpi 9 0x3FFD),
    (0x4165BFFD, .wld 5 9 6 0x3FFD),
    (0x4565C004, .wldh 5 9 7 4),
    (0x4964C004, .wst 5 9 3 4),
    (0x4966C004, .wstC 5 9 3 4),
    (0x4E3FFFF1, .wbr 8 0x3FFFF1),
    (0x503FFFF7, .wjmp 0x3FFFF7),
    (0x5040004D, .wjmpLink 77),
    (0x50800000, .wjmpRet),
    (0x60197FFD, .wemit 6 5 0x3FFD),
    (0x64240000, .wtile 9),
    (0x68000003, .wwait 3),
    (0x701A8000, .wmerge 6 10),
    (0x75640000, .wmnext 5 9),
    (0x79678006, .wscan 5 9 14 6),
    (0x80000000, .wyield),
    (0x84000000, .whalt),
    (0x89400000, .wprog 5),
    (0x88240001, .wprogSet 9) ] = true := by decide

/-! ## Words that the spec's own tables print (03, 07, 08, 09, 15) -/

theorem test_decode_printed_words : coreReads
  [ (0x0042830800800F00, .iadd { d := 5, a := 3, b := 4, c := 0, g := 1, gn := 0, fe := 0, ty := 0, rm := 0, tk := 15, md := 0 }),
    (0x40C50B1837835F20, .ffma { d := 10, a := 11, b := 12, c := 13, g := 7, gn := 0, fe := 0, ty := 6, rm := 5, tk := 15, md := 0x20 }),
    (0x600A180003860F06, .cvtf { d := 20, a := 24, b := 0, c := 0, g := 7, gn := 0, fe := 0, ty := 12, rm := 0, tk := 15, md := 6 }),
    (0xC010800100000040, .bra { g := 2, gn := 0, bs := 1, a := 0, md := 1, off := 0x40 }),
    (0xC0F8140000000000, .callx { g := 7, gn := 0, bs := 0, a := 20, md := 0, off := 0 }),
    (0xC138060000000000, .ret { g := 7, gn := 0, bs := 0, a := 6, md := 0, off := 0 }),
    (0xC178800100000000, .recon { g := 7, gn := 0, bs := 1, a := 0, md := 1, off := 0 }),
    (0xC238000300000000, .bara { g := 7, gn := 0, bs := 0, a := 0, md := 3, off := 0 }),
    (0xC278000400000000, .barw { g := 7, gn := 0, bs := 0, a := 0, md := 4, off := 0 }),
    (0xC378180200000000, .launcht { g := 7, gn := 0, bs := 0, a := 24, md := 2, off := 0 }),
    (0xC50000E000001388, .tmrset { d := 0, a := 0, g := 7, gn := 0, fe := 0, md := 0, imm := 5000 }),
    (0xD854000000000040, .kmovi { kd := 20, ka := 0, kb := 0, md := 0, imm := 64 }),
    (0xD8CA09E000000000, .kput { d := 20, a := 9, g := 7, gn := 0, fe := 0, md := 0, imm := 0 }),
    (0xD98300E000000001, .sread { d := 6, a := 0, g := 7, gn := 0, fe := 0, md := 0, imm := 1 }),
    (0x80041401C103C040, .ld { d := 8, a := 20, b := 0, g := 7, gn := 0, fe := 0, w := 2, sc := 0, ord := 0, tk := 15, off := 0x40 }),
    (0x80441401C12BC040, .st { d := 8, a := 20, b := 0, g := 7, gn := 0, fe := 0, w := 2, sc := 2, ord := 2, tk := 15, off := 0x40 }),
    (0x81049815C103C008, .ats { d := 9, a := 24, b := 10, g := 7, gn := 0, fe := 0, w := 2, sc := 0, ord := 0, tk := 15, off := 8 }),
    (0x81461405C383C000, .ldsub { d := 12, a := 20, b := 2, g := 7, gn := 0, fe := 0, w := 7, sc := 0, ord := 0, tk := 15, off := 0 }),
    (0x8185141DC183C000, .ldv { d := 10, a := 20, b := 14, g := 7, gn := 0, fe := 0, w := 3, sc := 0, ord := 0, tk := 15, off := 0 }),
    (0x82000001C143C000, .fence { d := 0, a := 0, b := 0, g := 7, gn := 0, fe := 0, w := 2, sc := 4, ord := 0, tk := 15, off := 0 }),
    (0x82400001C053C000, .wack { d := 0, a := 0, b := 0, g := 7, gn := 0, fe := 0, w := 0, sc := 5, ord := 0, tk := 15, off := 0 }),
    (0x82C49419C103C000, .ldvol { d := 9, a := 20, b := 12, g := 7, gn := 0, fe := 0, w := 2, sc := 0, ord := 0, tk := 15, off := 0 }),
    (0xB8CF18186B800F00, .copy { d := 30, a := 24, b := 12, c := 26, g := 7, gn := 0, fe := 0, md := 0, tk := 15, cp := 0 }) ] = true := by decide

theorem test_decode_R309 : walkerReads
  [ (0x40800000, .wld 2 0 0 0), (0x40C00004, .wld 3 0 0 4), (0x3408C000, .wcmp 2 3), (0x4D000009, .wbr 4 9), (0x21080002, .wshl 4 2 0 0 2),
    (0x41504000, .wld 5 4 1 0), (0x45908000, .wldh 6 4 2 0), (0x0D560000, .wadd 5 5 8), (0x60194000, .wemit 6 5 0), (0x10880001, .waddi 2 2 1),
    (0x503FFFF7, .wjmp 0x3FFFF7), (0x10000004, .waddi 0 0 4), (0x12200080, .waddi 8 8 0x80), (0x34004000, .wcmp 0 1),
    (0x4CFFFFF1, .wbr 3 0x3FFFF1), (0x64240000, .wtile 9), (0x84000000, .whalt) ] = true := by decide

/-- What a decoder refuses a word with. -/
def refusedWith : Except Reject Instr → Option Reject
  | .ok _ => none
  | .error r => some r

/-- R256's example: with md = 0 the bs field of RECON is reserved; a header is no instruction; R47 leaves 0x0FF unassigned. -/
theorem test_refused_core : refusedWith (decodeCore 0xC178800000000000) = some .illegalEncoding
    ∧ refusedWith (decodeCore 0xF80C000000000000) = some .badHeader ∧ refusedWith (decodeCore 0x3FC0000000000000) = some .illegalInstruction := by
  decide

/-- R50, R258: a mop above 0x16 is unassigned, and an unused field that is not zero is MATRIX_ILLEGAL. -/
theorem test_refused_stream : refusedWith (decodeStream 0x17FF000000000000) = some .matrixIllegal
    ∧ refusedWith (decodeStream 0x00FF000000000001) = some .matrixIllegal := by decide

/-- R291: unassigned ops, illegal values and nonzero fields that the entry does not name. -/
theorem test_refused_walker : ([0x3C000000, 0x04424000, 0x421AC000, 0x50C00000, 0x50800001, 0x84000001,
    0x8C000000, 0x88400002, 0x88440000, 0x6824000A, 0x00000001, 0x64240001].all fun w => (decodeTableWord 32 w).isNone) = true := by decide

/-! ## Ill-formed terms (step 4 of R46, R259, R291) -/

/-- No term of a list is well formed. -/
def noneFits (l : List Instr) : Bool := l.all fun i => !i.wellFormed

theorem test_illformed_format_R_1 : noneFits
  [ .mov { d := 0x15, a := 0x22, b := 1, c := 0, g := 5, gn := 1, fe := 4, ty := 0xd, rm := 0, tk := 0xf, md := 0 },
    .mov { d := 0x15, a := 0x22, b := 0, c := 0, g := 5, gn := 1, fe := 5, ty := 0xd, rm := 0, tk := 0xf, md := 0 },
    .iadd { d := 0x15, a := 0x22, b := 0x2f, c := 0, g := 5, gn := 1, fe := 7, ty := 5, rm := 0, tk := 0xf, md := 0xf8 },
    .iadd { d := 0x15, a := 0x22, b := 0x2f, c := 0, g := 5, gn := 1, fe := 6, ty := 5, rm := 1, tk := 0xf, md := 0xf8 },
    .isub { d := 0x15, a := 0x22, b := 0x2f, c := 0, g := 5, gn := 1, fe := 6, ty := 6, rm := 0, tk := 0xf, md := 0xf8 },
    .isub { d := 0x15, a := 0x22, b := 0x2f, c := 0, g := 5, gn := 1, fe := 6, ty := 5, rm := 0, tk := 0xf, md := 0xf9 },
    .iaddc { d := 0x15, a := 0x22, b := 0x2f, c := 2, g := 5, gn := 1, fe := 6, ty := 0xe, rm := 0, tk := 0xf, md := 1 },
    .iaddc { d := 0x15, a := 0x22, b := 0x2f, c := 2, g := 5, gn := 1, fe := 6, ty := 3, rm := 0, tk := 3, md := 1 },
    .imul { d := 0x15, a := 0x22, b := 0x2f, c := 0, g := 5, gn := 1, fe := 6, ty := 5, rm := 1, tk := 0xf, md := 0xe0 },
    .imul { d := 0x15, a := 0x22, b := 0x2f, c := 1, g := 5, gn := 1, fe := 6, ty := 5, rm := 0, tk := 0xf, md := 0xe0 },
    .imulh { d := 0x15, a := 0x22, b := 0x2f, c := 0, g := 5, gn := 1, fe := 6, ty := 3, rm := 0, tk := 0xf, md := 1 },
    .imulh { d := 0x15, a := 0x22, b := 0x2f, c := 0, g := 5, gn := 1, fe := 7, ty := 3, rm := 0, tk := 0xf, md := 0 },
    .imad { d := 0x15, a := 0x22, b := 0x2f, c := 0x3c, g := 5, gn := 1, fe := 7, ty := 0xe, rm := 0, tk := 0xf, md := 0xe0 },
    .imad { d := 0x15, a := 0x22, b := 0x2f, c := 0x3c, g := 5, gn := 1, fe := 7, ty := 5, rm := 0, tk := 3, md := 0xe0 },
    .imadw { d := 0x15, a := 0x22, b := 0x2f, c := 0x3c, g := 5, gn := 1, fe := 7, ty := 1, rm := 1, tk := 0xf, md := 0x80 },
    .imadw { d := 0x15, a := 0x22, b := 0x2f, c := 0x3c, g := 5, gn := 1, fe := 7, ty := 2, rm := 0, tk := 0xf, md := 0x80 },
    .idiv { d := 0x15, a := 0x22, b := 0x2f, c := 0, g := 5, gn := 1, fe := 7, ty := 3, rm := 0, tk := 0xf, md := 0x80 },
    .idiv { d := 0x15, a := 0x22, b := 0x2f, c := 0, g := 5, gn := 1, fe := 6, ty := 3, rm := 1, tk := 0xf, md := 0x80 },
    .irem { d := 0x15, a := 0x22, b := 0x2f, c := 0, g := 5, gn := 1, fe := 6, ty := 4, rm := 0, tk := 0xf, md := 0 },
    .irem { d := 0x15, a := 0x22, b := 0x2f, c := 0, g := 5, gn := 1, fe := 6, ty := 3, rm := 0, tk := 0xf, md := 1 },
    .imin { d := 0x15, a := 0x22, b := 0x2f, c := 0, g := 5, gn := 1, fe := 6, ty := 0xe, rm := 0, tk := 0xf, md := 0 },
    .imin { d := 0x15, a := 0x22, b := 0x2f, c := 0, g := 5, gn := 1, fe := 6, ty := 5, rm := 0, tk := 3, md := 0 },
    .imax { d := 0x15, a := 0x22, b := 0x2f, c := 0, g := 5, gn := 1, fe := 6, ty := 5, rm := 1, tk := 0xf, md := 0 },
    .imax { d := 0x15, a := 0x22, b := 0x2f, c := 1, g := 5, gn := 1, fe := 6, ty := 5, rm := 0, tk := 0xf, md := 0 },
    .iabs { d := 0x15, a := 0x22, b := 0, c := 0, g := 5, gn := 1, fe := 5, ty := 5, rm := 0, tk := 0xf, md := 0x80 },
    .iabs { d := 0x15, a := 0x22, b := 0, c := 0, g := 5, gn := 1, fe := 4, ty := 5, rm := 1, tk := 0xf, md := 0x80 },
    .icmp { d := 3, a := 0x22, b := 0x2f, c := 0, g := 5, gn := 1, fe := 6, ty := 1, rm := 0, tk := 0xf, md := 0x0f },
    .icmp { d := 8, a := 0x22, b := 0x2f, c := 0, g := 5, gn := 1, fe := 6, ty := 1, rm := 0, tk := 0xf, md := 7 },
    .isel { d := 0x15, a := 0x22, b := 0x2f, c := 2, g := 5, gn := 1, fe := 6, ty := 7, rm := 0, tk := 3, md := 0 },
    .isel { d := 0x15, a := 0x22, b := 0x2f, c := 2, g := 5, gn := 1, fe := 6, ty := 4, rm := 0, tk := 0xf, md := 0 },
    .lea { d := 0x15, a := 0x22, b := 0x2f, c := 1, g := 5, gn := 1, fe := 6, ty := 3, rm := 0, tk := 0xf, md := 3 },
    .lea { d := 0x15, a := 0x22, b := 0x2f, c := 0, g := 5, gn := 1, fe := 6, ty := 0xe, rm := 0, tk := 0xf, md := 3 },
    .and { d := 0x15, a := 0x22, b := 0x2f, c := 0, g := 5, gn := 1, fe := 7, ty := 3, rm := 0, tk := 0xf, md := 0 },
    .and { d := 0x15, a := 0x22, b := 0x2f, c := 0, g := 5, gn := 1, fe := 6, ty := 3, rm := 1, tk := 0xf, md := 0 },
    .or { d := 0x15, a := 0x22, b := 0x2f, c := 0, g := 5, gn := 1, fe := 6, ty := 4, rm := 0, tk := 0xf, md := 0 },
    .or { d := 0x15, a := 0x22, b := 0x2f, c := 0, g := 5, gn := 1, fe := 6, ty := 3, rm := 0, tk := 0xf, md := 1 },
    .xor { d := 0x15, a := 0x22, b := 0x2f, c := 0, g := 5, gn := 1, fe := 6, ty := 0xe, rm := 0, tk := 0xf, md := 0 },
    .xor { d := 0x15, a := 0x22, b := 0x2f, c := 0, g := 5, gn := 1, fe := 6, ty := 3, rm := 0, tk := 3, md := 0 },
    .andn { d := 0x15, a := 0x22, b := 0x2f, c := 0, g := 5, gn := 1, fe := 6, ty := 3, rm := 1, tk := 0xf, md := 0 },
    .andn { d := 0x15, a := 0x22, b := 0x2f, c := 1, g := 5, gn := 1, fe := 6, ty := 3, rm := 0, tk := 0xf, md := 0 },
    .not { d := 0x15, a := 0x22, b := 0, c := 0, g := 5, gn := 1, fe := 6, ty := 3, rm := 0, tk := 0xf, md := 0 },
    .not { d := 0x15, a := 0x22, b := 0, c := 0, g := 5, gn := 1, fe := 4, ty := 4, rm := 0, tk := 0xf, md := 0 },
    .shl { d := 0x15, a := 0x22, b := 0x2f, c := 0, g := 5, gn := 1, fe := 6, ty := 3, rm := 0, tk := 3, md := 0 },
    .shl { d := 0x15, a := 0x22, b := 0x2f, c := 0, g := 5, gn := 1, fe := 6, ty := 4, rm := 0, tk := 0xf, md := 0 },
    .shr { d := 0x15, a := 0x22, b := 0x2f, c := 1, g := 5, gn := 1, fe := 6, ty := 3, rm := 0, tk := 0xf, md := 0 },
    .shr { d := 0x15, a := 0x22, b := 0x2f, c := 0, g := 5, gn := 1, fe := 6, ty := 0xe, rm := 0, tk := 0xf, md := 0 },
    .sha { d := 0x15, a := 0x22, b := 0x2f, c := 0, g := 5, gn := 1, fe := 7, ty := 3, rm := 0, tk := 0xf, md := 0 },
    .sha { d := 0x15, a := 0x22, b := 0x2f, c := 0, g := 5, gn := 1, fe := 6, ty := 3, rm := 1, tk := 0xf, md := 0 },
    .rot { d := 0x15, a := 0x22, b := 0x2f, c := 0, g := 5, gn := 1, fe := 6, ty := 4, rm := 0, tk := 0xf, md := 0 },
    .rot { d := 0x15, a := 0x22, b := 0x2f, c := 0, g := 5, gn := 1, fe := 6, ty := 3, rm := 0, tk := 0xf, md := 1 },
    .bfe { d := 0x15, a := 0x22, b := 0x2f, c := 0, g := 5, gn := 1, fe := 6, ty := 0xe, rm := 0, tk := 0xf, md := 0 },
    .bfe { d := 0x15, a := 0x22, b := 0x2f, c := 0, g := 5, gn := 1, fe := 6, ty := 3, rm := 0, tk := 3, md := 0 },
    .bfi { d := 0x15, a := 0x22, b := 0x2f, c := 0x3c, g := 5, gn := 1, fe := 7, ty := 4, rm := 0, tk := 0xf, md := 0 },
    .bfi { d := 0x15, a := 0x22, b := 0x2f, c := 0x3c, g := 5, gn := 1, fe := 7, ty := 3, rm := 0, tk := 0xf, md := 1 },
    .popc { d := 0x15, a := 0x22, b := 0, c := 0, g := 5, gn := 1, fe := 4, ty := 3, rm := 0, tk := 3, md := 0 },
    .popc { d := 0x15, a := 0x22, b := 0, c := 1, g := 5, gn := 1, fe := 4, ty := 3, rm := 0, tk := 0xf, md := 0 },
    .clz { d := 0x15, a := 0x22, b := 1, c := 0, g := 5, gn := 1, fe := 4, ty := 3, rm := 0, tk := 0xf, md := 0 },
    .clz { d := 0x15, a := 0x22, b := 0, c := 0, g := 5, gn := 1, fe := 5, ty := 3, rm := 0, tk := 0xf, md := 0 },
    .ctz { d := 0x15, a := 0x22, b := 0, c := 0, g := 5, gn := 1, fe := 6, ty := 3, rm := 0, tk := 0xf, md := 0 },
    .ctz { d := 0x15, a := 0x22, b := 0, c := 0, g := 5, gn := 1, fe := 4, ty := 4, rm := 0, tk := 0xf, md := 0 } ] = true := by decide

theorem test_illformed_format_R_2 : noneFits
  [ .brev { d := 0x15, a := 0x22, b := 0, c := 1, g := 5, gn := 1, fe := 4, ty := 3, rm := 0, tk := 0xf, md := 0 },
    .brev { d := 0x15, a := 0x22, b := 0, c := 0, g := 5, gn := 1, fe := 4, ty := 0xe, rm := 0, tk := 0xf, md := 0 },
    .bytep { d := 0x15, a := 0x22, b := 0x2f, c := 0x3c, g := 5, gn := 1, fe := 7, ty := 2, rm := 0, tk := 0xf, md := 0 },
    .bytep { d := 0x15, a := 0x22, b := 0x2f, c := 0x3c, g := 5, gn := 1, fe := 7, ty := 1, rm := 0, tk := 0xf, md := 1 },
    .plop { d := 3, a := 5, b := 6, c := 0, g := 5, gn := 1, fe := 0, ty := 0, rm := 0, tk := 0xf, md := 0x41 },
    .plop { d := 3, a := 5, b := 6, c := 0, g := 5, gn := 1, fe := 0, ty := 0, rm := 0, tk := 0xf, md := 0x4d },
    .plop { d := 3, a := 5, b := 6, c := 0, g := 5, gn := 1, fe := 0, ty := 0, rm := 0, tk := 0xf, md := 0x47 },
    .idot4 { d := 0x15, a := 0x22, b := 0x2f, c := 0x3c, g := 5, gn := 1, fe := 7, ty := 0xe, rm := 0, tk := 0xf, md := 0x83 },
    .idot4 { d := 0x15, a := 0x22, b := 0x2f, c := 0x3c, g := 5, gn := 1, fe := 7, ty := 5, rm := 0, tk := 3, md := 0x83 },
    .shfl { d := 0x15, a := 0x22, b := 0x2f, c := 2, g := 5, gn := 1, fe := 6, ty := 7, rm := 1, tk := 0xf, md := 3 },
    .shfl { d := 0x15, a := 0x22, b := 0x2f, c := 8, g := 5, gn := 1, fe := 6, ty := 7, rm := 0, tk := 0xf, md := 3 },
    .vote { d := 3, a := 5, b := 0, c := 0, g := 5, gn := 1, fe := 0, ty := 0, rm := 0, tk := 0xf, md := 0 },
    .vote { d := 3, a := 5, b := 0, c := 0, g := 5, gn := 1, fe := 0, ty := 0, rm := 0, tk := 0xf, md := 6 },
    .vote { d := 3, a := 5, b := 0, c := 0, g := 5, gn := 1, fe := 0, ty := 1, rm := 0, tk := 0xf, md := 5 },
    .gscan { d := 0x15, a := 0x22, b := 0, c := 0, g := 5, gn := 1, fe := 4, ty := 3, rm := 3, tk := 0xf, md := 0 },
    .gscan { d := 0x15, a := 0x22, b := 0, c := 0, g := 5, gn := 1, fe := 4, ty := 7, rm := 0, tk := 0xf, md := 2 },
    .gscan { d := 0x15, a := 0x22, b := 0, c := 0, g := 5, gn := 1, fe := 4, ty := 7, rm := 5, tk := 0xf, md := 0 },
    .gred { d := 0x15, a := 0x22, b := 0, c := 0, g := 5, gn := 1, fe := 4, ty := 6, rm := 2, tk := 0xf, md := 1 },
    .gred { d := 0x15, a := 0x22, b := 0, c := 0, g := 5, gn := 1, fe := 4, ty := 1, rm := 2, tk := 0xf, md := 2 },
    .fadd { d := 0x15, a := 0x22, b := 0x2f, c := 0, g := 5, gn := 1, fe := 6, ty := 9, rm := 6, tk := 0xf, md := 0xf9 },
    .fadd { d := 0x15, a := 0x22, b := 0x2f, c := 0, g := 5, gn := 1, fe := 7, ty := 9, rm := 6, tk := 0xf, md := 0xf8 },
    .fsub { d := 0x15, a := 0x22, b := 0x2f, c := 0, g := 5, gn := 1, fe := 6, ty := 9, rm := 6, tk := 3, md := 0xf8 },
    .fsub { d := 0x15, a := 0x22, b := 0x2f, c := 0, g := 5, gn := 1, fe := 6, ty := 0, rm := 6, tk := 0xf, md := 0xf8 },
    .fmul { d := 0x15, a := 0x22, b := 0x2f, c := 1, g := 5, gn := 1, fe := 6, ty := 9, rm := 6, tk := 0xf, md := 0xf8 },
    .fmul { d := 0x15, a := 0x22, b := 0x2f, c := 0, g := 5, gn := 1, fe := 6, ty := 0xe, rm := 6, tk := 0xf, md := 0xf8 },
    .ffma { d := 0x15, a := 0x22, b := 0x2f, c := 0x3c, g := 5, gn := 1, fe := 7, ty := 0xe, rm := 6, tk := 0xf, md := 0xf9 },
    .ffma { d := 0x15, a := 0x22, b := 0x2f, c := 0x3c, g := 5, gn := 1, fe := 7, ty := 9, rm := 6, tk := 3, md := 0xf9 },
    .fmin { d := 0x15, a := 0x22, b := 0x2f, c := 0, g := 5, gn := 1, fe := 6, ty := 0, rm := 0, tk := 0xf, md := 0x78 },
    .fmin { d := 0x15, a := 0x22, b := 0x2f, c := 0, g := 5, gn := 1, fe := 6, ty := 9, rm := 0, tk := 0xf, md := 0x79 },
    .fmax { d := 0x15, a := 0x22, b := 0x2f, c := 0, g := 5, gn := 1, fe := 6, ty := 0xe, rm := 0, tk := 0xf, md := 0x78 },
    .fmax { d := 0x15, a := 0x22, b := 0x2f, c := 0, g := 5, gn := 1, fe := 6, ty := 9, rm := 0, tk := 3, md := 0x78 },
    .fcmp { d := 3, a := 0x22, b := 0x2f, c := 0, g := 5, gn := 1, fe := 6, ty := 7, rm := 0, tk := 0xf, md := 0xad },
    .fcmp { d := 3, a := 0x22, b := 0x2f, c := 0, g := 5, gn := 1, fe := 6, ty := 8, rm := 0, tk := 0xf, md := 0x2d },
    .fcmp { d := 8, a := 0x22, b := 0x2f, c := 0, g := 5, gn := 1, fe := 6, ty := 7, rm := 0, tk := 0xf, md := 0x2d },
    .fclass { d := 0x15, a := 0x22, b := 0, c := 0, g := 5, gn := 1, fe := 5, ty := 0xb, rm := 0, tk := 0xf, md := 0 },
    .fclass { d := 0x15, a := 0x22, b := 0, c := 0, g := 5, gn := 1, fe := 4, ty := 0xb, rm := 1, tk := 0xf, md := 0 },
    .fdiv { d := 0x15, a := 0x22, b := 0x2f, c := 0, g := 5, gn := 1, fe := 6, ty := 0xb, rm := 6, tk := 0xf, md := 0xf9 },
    .fdiv { d := 0x15, a := 0x22, b := 0x2f, c := 0, g := 5, gn := 1, fe := 7, ty := 0xb, rm := 6, tk := 0xf, md := 0xf8 },
    .fsqrt { d := 0x15, a := 0x22, b := 0, c := 0, g := 5, gn := 1, fe := 4, ty := 0xe, rm := 4, tk := 0xf, md := 0xd0 },
    .fsqrt { d := 0x15, a := 0x22, b := 0, c := 0, g := 5, gn := 1, fe := 4, ty := 0xb, rm := 4, tk := 3, md := 0xd0 },
    .frcp { d := 0x15, a := 0x22, b := 0, c := 0, g := 5, gn := 1, fe := 4, ty := 0xb, rm := 5, tk := 0xf, md := 0xd0 },
    .frcp { d := 0x15, a := 0x22, b := 1, c := 0, g := 5, gn := 1, fe := 4, ty := 0xb, rm := 4, tk := 0xf, md := 0xd0 },
    .frsq { d := 0x15, a := 0x22, b := 0, c := 0, g := 5, gn := 1, fe := 4, ty := 0xb, rm := 4, tk := 0xf, md := 0xd1 },
    .frsq { d := 0x15, a := 0x22, b := 0, c := 0, g := 5, gn := 1, fe := 6, ty := 0xb, rm := 4, tk := 0xf, md := 0xd0 },
    .fexp2 { d := 0x15, a := 0x22, b := 0, c := 0, g := 5, gn := 1, fe := 4, ty := 0xb, rm := 4, tk := 3, md := 0xd0 },
    .fexp2 { d := 0x15, a := 0x22, b := 0, c := 1, g := 5, gn := 1, fe := 4, ty := 0xb, rm := 4, tk := 0xf, md := 0xd0 },
    .flog2 { d := 0x15, a := 0x22, b := 1, c := 0, g := 5, gn := 1, fe := 4, ty := 0xb, rm := 4, tk := 0xf, md := 0xd0 },
    .flog2 { d := 0x15, a := 0x22, b := 0, c := 0, g := 5, gn := 1, fe := 5, ty := 0xb, rm := 4, tk := 0xf, md := 0xd0 },
    .fsin { d := 0x15, a := 0x22, b := 0, c := 0, g := 5, gn := 1, fe := 6, ty := 0xb, rm := 4, tk := 0xf, md := 0xd0 },
    .fsin { d := 0x15, a := 0x22, b := 0, c := 0, g := 5, gn := 1, fe := 4, ty := 0, rm := 4, tk := 0xf, md := 0xd0 },
    .fcos { d := 0x15, a := 0x22, b := 0, c := 1, g := 5, gn := 1, fe := 4, ty := 0xb, rm := 4, tk := 0xf, md := 0xd0 },
    .fcos { d := 0x15, a := 0x22, b := 0, c := 0, g := 5, gn := 1, fe := 4, ty := 0xe, rm := 4, tk := 0xf, md := 0xd0 },
    .fdot2 { d := 0x15, a := 0x22, b := 0x2f, c := 0x3c, g := 5, gn := 1, fe := 7, ty := 9, rm := 6, tk := 0xf, md := 0xe3 },
    .fdot2 { d := 0x15, a := 0x22, b := 0x2f, c := 0x3c, g := 5, gn := 1, fe := 7, ty := 0xe, rm := 6, tk := 0xf, md := 0xe1 },
    .cvtf { d := 0x15, a := 0x22, b := 0, c := 0, g := 5, gn := 1, fe := 4, ty := 0xd, rm := 6, tk := 0xf, md := 0x80 },
    .cvtfi { d := 0x15, a := 0x22, b := 0, c := 0, g := 5, gn := 1, fe := 4, ty := 5, rm := 6, tk := 0xf, md := 0x8c },
    .cvtfi { d := 0x15, a := 0x22, b := 0, c := 0, g := 5, gn := 1, fe := 4, ty := 5, rm := 6, tk := 0xf, md := 2 },
    .cvtif { d := 0x15, a := 0x22, b := 0, c := 0, g := 5, gn := 1, fe := 4, ty := 0xd, rm := 6, tk := 0xf, md := 0x86 },
    .cvtq { d := 0x15, a := 0x22, b := 0, c := 0, g := 5, gn := 1, fe := 4, ty := 0xb, rm := 0, tk := 0xf, md := 9 },
    .cvtdq { d := 0x15, a := 0x22, b := 0, c := 0, g := 5, gn := 1, fe := 4, ty := 0xb, rm := 4, tk := 0xf, md := 9 } ] = true := by decide

theorem test_illformed_format_R_3 : noneFits
  [ .cvtdq { d := 0x15, a := 0x22, b := 0, c := 0, g := 5, gn := 1, fe := 4, ty := 0xb, rm := 5, tk := 0xf, md := 0xa },
    .cbk { d := 0x15, a := 0x22, b := 0, c := 0, g := 5, gn := 1, fe := 4, ty := 0, rm := 0, tk := 0xf, md := 1 },
    .cbk { d := 0x15, a := 0x22, b := 0, c := 0, g := 5, gn := 1, fe := 4, ty := 0xb, rm := 0, tk := 0xf, md := 3 },
    .rngk { d := 0x15, a := 0x22, b := 0x2f, c := 0, g := 5, gn := 1, fe := 7, ty := 1, rm := 0, tk := 0xf, md := 0 },
    .rngk { d := 0x15, a := 0x22, b := 0x2f, c := 0, g := 5, gn := 1, fe := 6, ty := 1, rm := 1, tk := 0xf, md := 0 },
    .noise { d := 0x15, a := 0, b := 0, c := 0, g := 5, gn := 1, fe := 0, ty := 0xe, rm := 0, tk := 0xf, md := 0 },
    .noise { d := 0x15, a := 0, b := 0, c := 0, g := 5, gn := 1, fe := 0, ty := 1, rm := 0, tk := 3, md := 0 },
    .atom { d := 0x15, a := 0x22, b := 0x2f, c := 0x3c, g := 5, gn := 1, fe := 7, ty := 3, rm := 4, tk := 0xf, md := 0xb },
    .atom { d := 0x15, a := 0x22, b := 0x2f, c := 0, g := 5, gn := 1, fe := 6, ty := 6, rm := 4, tk := 0xf, md := 9 },
    .atom { d := 0x15, a := 0x22, b := 0x2f, c := 0x3c, g := 5, gn := 1, fe := 7, ty := 3, rm := 0, tk := 0xf, md := 0x18 },
    .atom { d := 0x15, a := 0x22, b := 0x2f, c := 0, g := 5, gn := 1, fe := 7, ty := 9, rm := 4, tk := 0xf, md := 8 },
    .red { d := 0, a := 0x22, b := 0x2f, c := 0, g := 5, gn := 1, fe := 6, ty := 6, rm := 5, tk := 6, md := 0x27 },
    .red { d := 0, a := 0x22, b := 0x2f, c := 0, g := 5, gn := 1, fe := 6, ty := 6, rm := 5, tk := 6, md := 0x11 },
    .red { d := 0, a := 0x22, b := 0x2f, c := 0, g := 5, gn := 1, fe := 6, ty := 6, rm := 5, tk := 9, md := 0x21 },
    .red { d := 0, a := 0x22, b := 0x2f, c := 0, g := 5, gn := 1, fe := 6, ty := 6, rm := 5, tk := 6, md := 0x22 },
    .red { d := 1, a := 0x22, b := 0x2f, c := 0, g := 5, gn := 1, fe := 6, ty := 6, rm := 5, tk := 6, md := 0x21 },
    .rbind { d := 0x15, a := 0x22, b := 0, c := 0, g := 5, gn := 1, fe := 4, ty := 0, rm := 0, tk := 0xf, md := 1 },
    .rbind { d := 0x15, a := 0x22, b := 0, c := 0, g := 5, gn := 1, fe := 6, ty := 0, rm := 0, tk := 0xf, md := 0 },
    .enter { d := 0, a := 0x22, b := 0x2f, c := 0, g := 5, gn := 1, fe := 6, ty := 0, rm := 0, tk := 0xf, md := 6 },
    .enter { d := 0, a := 0x22, b := 0x2f, c := 0, g := 5, gn := 1, fe := 6, ty := 0, rm := 0, tk := 0xf, md := 2 },
    .enter { d := 0, a := 0x22, b := 0, c := 0, g := 5, gn := 1, fe := 6, ty := 0, rm := 0, tk := 0xf, md := 3 },
    .enterm { d := 0, a := 0x22, b := 0x2f, c := 0, g := 5, gn := 1, fe := 6, ty := 0, rm := 0, tk := 0xf, md := 4 },
    .etry { d := 0, a := 0x22, b := 0x2f, c := 5, g := 5, gn := 1, fe := 6, ty := 0, rm := 0, tk := 0xf, md := 7 },
    .etry { d := 0, a := 0x22, b := 0x2f, c := 9, g := 5, gn := 1, fe := 6, ty := 0, rm := 0, tk := 0xf, md := 3 },
    .etry { d := 0, a := 0x22, b := 0, c := 5, g := 5, gn := 1, fe := 6, ty := 0, rm := 0, tk := 0xf, md := 3 },
    .leave { d := 0, a := 0x22, b := 0, c := 1, g := 5, gn := 1, fe := 4, ty := 0, rm := 0, tk := 0xf, md := 0 },
    .leave { d := 0, a := 0x22, b := 0, c := 0, g := 5, gn := 1, fe := 4, ty := 0xe, rm := 0, tk := 0xf, md := 0 },
    .push { d := 0, a := 0x22, b := 0x2f, c := 2, g := 5, gn := 1, fe := 6, ty := 0, rm := 0, tk := 0xf, md := 1 },
    .push { d := 0, a := 0x22, b := 0x2f, c := 8, g := 5, gn := 1, fe := 6, ty := 0, rm := 0, tk := 0xf, md := 0 },
    .pop { d := 0x15, a := 0x22, b := 0, c := 2, g := 5, gn := 1, fe := 6, ty := 0, rm := 0, tk := 0xf, md := 0 },
    .pop { d := 0x15, a := 0x22, b := 0, c := 2, g := 5, gn := 1, fe := 4, ty := 1, rm := 0, tk := 0xf, md := 0 },
    .racc { d := 0, a := 0x22, b := 0x2f, c := 0x3c, g := 5, gn := 1, fe := 7, ty := 0xe, rm := 0, tk := 0xf, md := 0 },
    .racc { d := 0, a := 0x22, b := 0x2f, c := 0x3c, g := 5, gn := 1, fe := 7, ty := 0, rm := 0, tk := 3, md := 0 },
    .rstat { d := 0x15, a := 0x22, b := 0, c := 0, g := 5, gn := 1, fe := 5, ty := 0, rm := 0, tk := 0xf, md := 1 },
    .rstat { d := 0x15, a := 0x22, b := 0, c := 0, g := 5, gn := 1, fe := 4, ty := 0, rm := 1, tk := 0xf, md := 1 },
    .runbind { d := 0x15, a := 0x22, b := 0, c := 0, g := 5, gn := 1, fe := 4, ty := 1, rm := 0, tk := 0xf, md := 0 },
    .runbind { d := 0x15, a := 0x22, b := 0, c := 0, g := 5, gn := 1, fe := 4, ty := 0, rm := 0, tk := 0xf, md := 1 },
    .elect { d := 0x15, a := 0, b := 0, c := 8, g := 5, gn := 1, fe := 0, ty := 0, rm := 0, tk := 0xf, md := 0 },
    .elect { d := 0x15, a := 0, b := 0, c := 2, g := 5, gn := 1, fe := 0, ty := 0xe, rm := 0, tk := 0xf, md := 0 } ] = true := by decide

theorem test_illformed_format_I : noneFits
  [ .movi { d := 0x15, a := 1, g := 5, gn := 1, fe := 0, md := 1, imm := 0x89abcdef },
    .movi { d := 0x15, a := 0, g := 5, gn := 1, fe := 1, md := 1, imm := 0x89abcdef },
    .movi { d := 0x15, a := 0, g := 5, gn := 1, fe := 0, md := 2, imm := 0x89abcdef },
    .iaddi { d := 0x15, a := 0x22, g := 5, gn := 1, fe := 1, md := 4, imm := 0x89abcdef },
    .isubi { d := 0x15, a := 0x22, g := 5, gn := 1, fe := 1, md := 4, imm := 0x89abcdef },
    .imuli { d := 0x15, a := 0x22, g := 5, gn := 1, fe := 1, md := 4, imm := 0x89abcdef },
    .imulhi { d := 0x15, a := 0x22, g := 5, gn := 1, fe := 1, md := 1, imm := 0x89abcdef },
    .imadi { d := 0x15, a := 0x22, g := 5, gn := 1, fe := 1, md := 4, imm := 0x89abcdef },
    .imadwi { d := 0x15, a := 0x22, g := 5, gn := 1, fe := 1, md := 7, imm := 0x89abcdef },
    .idivi { d := 0x15, a := 0x22, g := 5, gn := 1, fe := 1, md := 4, imm := 0x89abcdef },
    .iremi { d := 0x15, a := 0x22, g := 5, gn := 1, fe := 1, md := 1, imm := 0x89abcdef },
    .imini { d := 0x15, a := 0x22, g := 5, gn := 1, fe := 1, md := 1, imm := 0x89abcdef },
    .imaxi { d := 0x15, a := 0x22, g := 5, gn := 1, fe := 1, md := 3, imm := 0x89abcdef },
    .iabsi { d := 0x15, a := 1, g := 5, gn := 1, fe := 0, md := 1, imm := 0x89abcdef },
    .iabsi { d := 0x15, a := 0, g := 5, gn := 1, fe := 0, md := 2, imm := 0x89abcdef },
    .icmpi { d := 8, a := 0x22, g := 5, gn := 1, fe := 1, md := 5, imm := 0x89abcdef },
    .andi { d := 0x15, a := 0x22, g := 5, gn := 1, fe := 1, md := 1, imm := 0x89abcdef },
    .ori { d := 0x15, a := 0x22, g := 5, gn := 1, fe := 1, md := 4, imm := 0x89abcdef },
    .xori { d := 0x15, a := 0x22, g := 5, gn := 1, fe := 1, md := 1, imm := 0x89abcdef },
    .andni { d := 0x15, a := 0x22, g := 5, gn := 1, fe := 1, md := 3, imm := 0x89abcdef },
    .noti { d := 0x15, a := 0, g := 5, gn := 1, fe := 1, md := 2, imm := 0x89abcdef },
    .noti { d := 0x15, a := 0, g := 5, gn := 1, fe := 0, md := 1, imm := 0x89abcdef },
    .shli { d := 0x15, a := 0x22, g := 5, gn := 1, fe := 1, md := 1, imm := 0x89abcdef },
    .shri { d := 0x15, a := 0x22, g := 5, gn := 1, fe := 1, md := 3, imm := 0x89abcdef },
    .shai { d := 0x15, a := 0x22, g := 5, gn := 1, fe := 1, md := 1, imm := 0x89abcdef },
    .roti { d := 0x15, a := 0x22, g := 5, gn := 1, fe := 1, md := 4, imm := 0x89abcdef },
    .bfei { d := 0x15, a := 0x22, g := 5, gn := 1, fe := 1, md := 1, imm := 0x89abcdef },
    .bfii { d := 0x15, a := 0x22, g := 5, gn := 1, fe := 1, md := 1, imm := 0x89abcdef },
    .movih { d := 0x15, a := 0, g := 5, gn := 1, fe := 0, md := 1, imm := 0x89abcdef },
    .movih { d := 0x15, a := 3, g := 5, gn := 1, fe := 0, md := 0, imm := 0x89abcdef },
    .cuewait { d := 1, a := 0x22, g := 5, gn := 1, fe := 1, md := 2, imm := 0x89abcdef },
    .cuewait { d := 0, a := 0x22, g := 5, gn := 1, fe := 1, md := 1, imm := 0x89abcdef },
    .cueprog { d := 0x15, a := 0x22, g := 5, gn := 1, fe := 1, md := 1, imm := 1 },
    .cueprog { d := 0x15, a := 0x22, g := 5, gn := 1, fe := 1, md := 2, imm := 0 },
    .tmrset { d := 1, a := 0, g := 5, gn := 1, fe := 0, md := 0, imm := 0x89abcdef },
    .tmrset { d := 0, a := 2, g := 5, gn := 1, fe := 0, md := 0, imm := 0x89abcdef },
    .tmrset { d := 0, a := 0, g := 5, gn := 1, fe := 0, md := 1, imm := 0x89abcdef },
    .tmrset { d := 0, a := 0, g := 5, gn := 1, fe := 0, md := 2, imm := 0x89abcdef },
    .kput { d := 0x40, a := 0x22, g := 5, gn := 1, fe := 1, md := 1, imm := 0 },
    .kput { d := 0x15, a := 0x22, g := 5, gn := 1, fe := 1, md := 1, imm := 1 },
    .kput { d := 0x15, a := 0x22, g := 5, gn := 1, fe := 1, md := 2, imm := 0 },
    .kget { d := 0x15, a := 0x40, g := 5, gn := 1, fe := 0, md := 1, imm := 0 },
    .kget { d := 0x15, a := 0x22, g := 5, gn := 1, fe := 1, md := 1, imm := 0 },
    .sread { d := 0x15, a := 1, g := 5, gn := 1, fe := 0, md := 0, imm := 0x89abcdef },
    .sread { d := 0x15, a := 0, g := 5, gn := 1, fe := 0, md := 1, imm := 0x89abcdef },
    .swrite { d := 1, a := 0x22, g := 5, gn := 1, fe := 1, md := 0, imm := 0x89abcdef },
    .swrite { d := 0, a := 0x22, g := 5, gn := 1, fe := 1, md := 1, imm := 0x89abcdef } ] = true := by decide

theorem test_illformed_format_B : noneFits
  [ .bra { g := 5, gn := 1, bs := 6, a := 1, md := 1, off := 0xffffff78 },
    .bra { g := 5, gn := 1, bs := 6, a := 0, md := 0, off := 0xffffff78 },
    .bra { g := 5, gn := 1, bs := 6, a := 0, md := 3, off := 0xffffff78 },
    .bra { g := 5, gn := 1, bs := 6, a := 0, md := 1, off := 4 },
    .brx { g := 5, gn := 1, bs := 6, a := 0x22, md := 1, off := 8 },
    .brx { g := 5, gn := 1, bs := 6, a := 0x22, md := 0, off := 0 },
    .call { g := 5, gn := 1, bs := 0, a := 0, md := 0, off := 1 },
    .call { g := 5, gn := 1, bs := 0, a := 6, md := 0, off := 0x12345678 },
    .callx { g := 5, gn := 1, bs := 3, a := 0x22, md := 1, off := 8 },
    .ret { g := 5, gn := 1, bs := 5, a := 0x22, md := 2, off := 0 },
    .recon { g := 0, gn := 0, bs := 6, a := 0, md := 1, off := 0 },
    .recon { g := 7, gn := 1, bs := 6, a := 0, md := 1, off := 0 },
    .recon { g := 7, gn := 0, bs := 6, a := 1, md := 1, off := 0 },
    .recon { g := 7, gn := 0, bs := 6, a := 0, md := 0, off := 0 },
    .recon { g := 7, gn := 0, bs := 6, a := 0, md := 1, off := 8 },
    .yield { g := 5, gn := 1, bs := 1, a := 0, md := 0, off := 0 },
    .yield { g := 5, gn := 1, bs := 0, a := 1, md := 0, off := 0 },
    .yield { g := 5, gn := 1, bs := 0, a := 0, md := 1, off := 0 },
    .nap { g := 5, gn := 1, bs := 0, a := 0x22, md := 1, off := 0 },
    .nap { g := 5, gn := 1, bs := 0, a := 0x22, md := 0, off := 8 },
    .bara { g := 5, gn := 1, bs := 0, a := 0, md := 0x10, off := 0 },
    .bara { g := 5, gn := 1, bs := 0, a := 1, md := 9, off := 0 },
    .barw { g := 5, gn := 1, bs := 0, a := 0, md := 0x10, off := 0 },
    .barw { g := 5, gn := 1, bs := 1, a := 0, md := 0xe, off := 0 },
    .bars { g := 5, gn := 1, bs := 0, a := 0x22, md := 0x10, off := 0 },
    .exit { g := 5, gn := 1, bs := 0, a := 1, md := 0, off := 0 },
    .exit { g := 5, gn := 1, bs := 0, a := 0, md := 1, off := 0 },
    .launch { g := 5, gn := 1, bs := 0, a := 0x22, md := 1, off := 0 },
    .launcht { g := 5, gn := 1, bs := 0, a := 0x22, md := 8, off := 0 },
    .trap { g := 5, gn := 1, bs := 0, a := 1, md := 0xa7, off := 0 },
    .trap { g := 5, gn := 1, bs := 2, a := 0, md := 0xa7, off := 0 },
    .raise { g := 5, gn := 1, bs := 0, a := 0x22, md := 1, off := 0 },
    .tret { g := 5, gn := 1, bs := 0, a := 0x22, md := 1, off := 0 },
    .tret { g := 5, gn := 1, bs := 0, a := 0x22, md := 0, off := 0 },
    .tfence { g := 5, gn := 1, bs := 0, a := 1, md := 0, off := 0 },
    .tfence { g := 5, gn := 1, bs := 0, a := 0, md := 4, off := 0 },
    .role { g := 5, gn := 1, bs := 0, a := 0, md := 8, off := 0 },
    .role { g := 5, gn := 1, bs := 0, a := 1, md := 6, off := 0 },
    .brk { g := 5, gn := 1, bs := 0, a := 0, md := 0x5c, off := 1 },
    .brk { g := 5, gn := 1, bs := 0, a := 1, md := 0x5c, off := 0 } ] = true := by decide

theorem test_illformed_format_K : noneFits
  [ .kmov { kd := 0x15, ka := 0x22, kb := 1, md := 1, imm := 0 },
    .kmov { kd := 0x15, ka := 0x22, kb := 0, md := 1, imm := 1 },
    .kmov { kd := 0x15, ka := 0x22, kb := 0, md := 2, imm := 0 },
    .kmovi { kd := 0x15, ka := 1, kb := 0, md := 1, imm := 0x89abcdef },
    .kmovi { kd := 0x15, ka := 0, kb := 1, md := 1, imm := 0x89abcdef },
    .kmovi { kd := 0x15, ka := 0, kb := 0, md := 2, imm := 0x89abcdef },
    .kld { kd := 0x15, ka := 0x22, kb := 1, md := 0xb, imm := 0x89abcdef },
    .kadd { kd := 0x15, ka := 0x22, kb := 0x2f, md := 2, imm := 0x89abcdef },
    .tlbinv { kd := 0, ka := 0x22, kb := 0x2f, md := 3, imm := 0 },
    .tlbinv { kd := 1, ka := 0x22, kb := 0x2f, md := 0xd, imm := 0 },
    .tlbinv { kd := 0, ka := 0x22, kb := 0x2f, md := 0xd, imm := 1 },
    .asidset { kd := 1, ka := 0x22, kb := 0, md := 0, imm := 0 },
    .asidset { kd := 0, ka := 0x22, kb := 1, md := 0, imm := 0 },
    .asidset { kd := 0, ka := 0x22, kb := 0, md := 1, imm := 0 },
    .asidset { kd := 0, ka := 0x22, kb := 0, md := 0, imm := 1 },
    .ctxevict { kd := 0, ka := 0x22, kb := 0, md := 2, imm := 0 },
    .ctxevict { kd := 1, ka := 0x22, kb := 0, md := 1, imm := 0 },
    .mstart { kd := 0, ka := 0x22, kb := 1, md := 0, imm := 0 },
    .mstart { kd := 0, ka := 0x22, kb := 0, md := 1, imm := 0 } ] = true := by decide

theorem test_illformed_format_M_1 : noneFits
  [ .ld { d := 0x15, a := 0x22, b := 0x2f, g := 5, gn := 1, fe := 4, w := 6, sc := 0, ord := 1, tk := 0xf, off := 0x2a5b },
    .ld { d := 0x15, a := 0x22, b := 0x2f, g := 5, gn := 1, fe := 5, w := 6, sc := 5, ord := 1, tk := 0xf, off := 0x2a5b },
    .ld { d := 0x15, a := 0x22, b := 0, g := 5, gn := 1, fe := 6, w := 6, sc := 5, ord := 1, tk := 0xf, off := 0x2a5b },
    .ld { d := 0x15, a := 0x22, b := 0x2f, g := 5, gn := 1, fe := 4, w := 7, sc := 5, ord := 1, tk := 0xf, off := 0x2a5b },
    .ld { d := 0x15, a := 0x22, b := 0x2f, g := 5, gn := 1, fe := 4, w := 6, sc := 5, ord := 2, tk := 0xf, off := 0x2a5b },
    .ld { d := 0x15, a := 0x22, b := 0x2f, g := 5, gn := 1, fe := 4, w := 6, sc := 5, ord := 1, tk := 3, off := 0x2a5b },
    .st { d := 0x15, a := 0x22, b := 0x2f, g := 5, gn := 1, fe := 5, w := 3, sc := 5, ord := 1, tk := 6, off := 0x2a5b },
    .st { d := 0x15, a := 0x22, b := 0x2f, g := 5, gn := 1, fe := 5, w := 3, sc := 5, ord := 2, tk := 8, off := 0x2a5b },
    .st { d := 0x15, a := 0x22, b := 0x2f, g := 5, gn := 1, fe := 5, w := 7, sc := 5, ord := 2, tk := 6, off := 0x2a5b },
    .lds { d := 0x15, a := 0x22, b := 0x2f, g := 5, gn := 1, fe := 4, w := 3, sc := 4, ord := 1, tk := 0xf, off := 0x2a5b },
    .lds { d := 0x15, a := 0x22, b := 0x2f, g := 5, gn := 1, fe := 5, w := 3, sc := 3, ord := 1, tk := 0xf, off := 0x2a5b },
    .lds { d := 0x15, a := 0x22, b := 0x2f, g := 5, gn := 1, fe := 4, w := 3, sc := 3, ord := 3, tk := 0xf, off := 0x2a5b },
    .sts { d := 0x15, a := 0x22, b := 0x2f, g := 5, gn := 1, fe := 7, w := 3, sc := 4, ord := 2, tk := 3, off := 0x2a5b },
    .sts { d := 0x15, a := 0x22, b := 0x2f, g := 5, gn := 1, fe := 7, w := 3, sc := 2, ord := 1, tk := 3, off := 0x2a5b },
    .ats { d := 0x15, a := 0x22, b := 0x2f, g := 5, gn := 1, fe := 4, w := 1, sc := 1, ord := 3, tk := 0xf, off := 0x345b },
    .ats { d := 0x15, a := 0x22, b := 0x2f, g := 5, gn := 1, fe := 4, w := 3, sc := 1, ord := 3, tk := 0xf, off := 0x3800 },
    .ats { d := 0x15, a := 0x22, b := 0x2f, g := 5, gn := 1, fe := 4, w := 3, sc := 1, ord := 3, tk := 0xf, off := 0x800 },
    .ats { d := 0x15, a := 0x22, b := 0x2f, g := 5, gn := 1, fe := 5, w := 3, sc := 1, ord := 3, tk := 0xf, off := 0x345b },
    .ats { d := 0x15, a := 0x22, b := 0x2f, g := 5, gn := 1, fe := 4, w := 3, sc := 4, ord := 3, tk := 0xf, off := 0x345b },
    .ats { d := 0x15, a := 0x22, b := 0x2f, g := 5, gn := 1, fe := 4, w := 3, sc := 1, ord := 3, tk := 0, off := 0x345b },
    .ldsub { d := 0x15, a := 0x22, b := 6, g := 5, gn := 1, fe := 4, w := 6, sc := 5, ord := 0, tk := 0xf, off := 0x2a5b },
    .ldsub { d := 0x15, a := 0x22, b := 8, g := 5, gn := 1, fe := 4, w := 7, sc := 5, ord := 0, tk := 0xf, off := 0x2a5b },
    .ldsub { d := 0x15, a := 0x22, b := 6, g := 5, gn := 1, fe := 6, w := 7, sc := 5, ord := 0, tk := 0xf, off := 0x2a5b },
    .ldsub { d := 0x15, a := 0x22, b := 6, g := 5, gn := 1, fe := 4, w := 7, sc := 5, ord := 2, tk := 0xf, off := 0x2a5b },
    .ldv { d := 0x15, a := 0x22, b := 0x2f, g := 5, gn := 1, fe := 4, w := 1, sc := 5, ord := 1, tk := 0xf, off := 0x2a5b },
    .ldv { d := 0x15, a := 0x22, b := 0x2f, g := 5, gn := 1, fe := 4, w := 7, sc := 5, ord := 1, tk := 0xf, off := 0x2a5b },
    .ldv { d := 0x15, a := 0x22, b := 0x2f, g := 5, gn := 1, fe := 6, w := 5, sc := 5, ord := 1, tk := 0xf, off := 0x2a5b },
    .ldv { d := 0x15, a := 0x22, b := 0x2f, g := 5, gn := 1, fe := 5, w := 5, sc := 5, ord := 1, tk := 0xf, off := 0x2a5b },
    .pref { d := 1, a := 0x22, b := 0, g := 5, gn := 1, fe := 4, w := 0, sc := 4, ord := 0, tk := 7, off := 0x2a5b },
    .pref { d := 0, a := 0x22, b := 1, g := 5, gn := 1, fe := 4, w := 0, sc := 4, ord := 0, tk := 7, off := 0x2a5b },
    .pref { d := 0, a := 0x22, b := 0, g := 5, gn := 1, fe := 4, w := 1, sc := 4, ord := 0, tk := 7, off := 0x2a5b },
    .pref { d := 0, a := 0x22, b := 0, g := 5, gn := 1, fe := 4, w := 0, sc := 4, ord := 1, tk := 7, off := 0x2a5b },
    .pref { d := 0, a := 0x22, b := 0, g := 5, gn := 1, fe := 4, w := 0, sc := 3, ord := 0, tk := 7, off := 0x2a5b },
    .pref { d := 0, a := 0x22, b := 0, g := 5, gn := 1, fe := 4, w := 0, sc := 4, ord := 0, tk := 0xe, off := 0x2a5b },
    .fence { d := 0, a := 1, b := 0, g := 5, gn := 1, fe := 0, w := 2, sc := 6, ord := 0, tk := 0xf, off := 0 },
    .fence { d := 0, a := 0, b := 0, g := 5, gn := 1, fe := 0, w := 3, sc := 6, ord := 0, tk := 0xf, off := 0 },
    .fence { d := 0, a := 0, b := 0, g := 5, gn := 1, fe := 0, w := 2, sc := 0, ord := 0, tk := 0xf, off := 0 },
    .fence { d := 0, a := 0, b := 0, g := 5, gn := 1, fe := 0, w := 2, sc := 6, ord := 2, tk := 0xf, off := 0 },
    .fence { d := 0, a := 0, b := 0, g := 5, gn := 1, fe := 0, w := 2, sc := 6, ord := 0, tk := 1, off := 0 },
    .fence { d := 0, a := 0, b := 0, g := 5, gn := 1, fe := 0, w := 2, sc := 6, ord := 0, tk := 0xf, off := 1 },
    .wack { d := 1, a := 0, b := 0, g := 5, gn := 1, fe := 0, w := 0, sc := 5, ord := 0, tk := 0xf, off := 0 },
    .wack { d := 0, a := 0, b := 0, g := 5, gn := 1, fe := 0, w := 1, sc := 5, ord := 0, tk := 0xf, off := 0 },
    .wack { d := 0, a := 0, b := 0, g := 5, gn := 1, fe := 0, w := 0, sc := 0, ord := 0, tk := 0xf, off := 0 },
    .cctl { d := 0, a := 0x22, b := 0, g := 5, gn := 1, fe := 4, w := 4, sc := 2, ord := 0, tk := 1, off := 0x2a5b },
    .cctl { d := 0, a := 0x22, b := 0, g := 5, gn := 1, fe := 4, w := 1, sc := 2, ord := 0, tk := 1, off := 0x2a5b },
    .cctl { d := 0, a := 0x22, b := 0, g := 5, gn := 1, fe := 4, w := 2, sc := 2, ord := 0, tk := 1, off := 0x2a5b },
    .cctl { d := 0, a := 0x22, b := 0, g := 5, gn := 1, fe := 4, w := 3, sc := 6, ord := 0, tk := 1, off := 0x2a5b },
    .cctl { d := 1, a := 0x22, b := 0, g := 5, gn := 1, fe := 4, w := 3, sc := 2, ord := 0, tk := 1, off := 0x2a5b },
    .cctl { d := 0, a := 0x22, b := 0, g := 5, gn := 1, fe := 4, w := 3, sc := 2, ord := 1, tk := 1, off := 0x2a5b },
    .ldvol { d := 0x15, a := 0x22, b := 0x2f, g := 5, gn := 1, fe := 4, w := 3, sc := 5, ord := 1, tk := 0xf, off := 1 },
    .ldvol { d := 0x15, a := 0x22, b := 0x2f, g := 5, gn := 1, fe := 4, w := 4, sc := 5, ord := 1, tk := 0xf, off := 0 },
    .ldvol { d := 0x15, a := 0x22, b := 0x2f, g := 5, gn := 1, fe := 4, w := 3, sc := 5, ord := 2, tk := 0xf, off := 0 },
    .stvol { d := 0x15, a := 0x22, b := 0x2f, g := 5, gn := 1, fe := 6, w := 3, sc := 5, ord := 2, tk := 2, off := 1 },
    .stvol { d := 0x15, a := 0x22, b := 0x2f, g := 5, gn := 1, fe := 6, w := 3, sc := 5, ord := 2, tk := 9, off := 0 },
    .stvol { d := 0x15, a := 0x22, b := 0x2f, g := 5, gn := 1, fe := 6, w := 3, sc := 5, ord := 1, tk := 2, off := 0 },
    .volinv { d := 0, a := 0x22, b := 0x2f, g := 5, gn := 1, fe := 4, w := 2, sc := 5, ord := 0, tk := 4, off := 0 },
    .volinv { d := 0, a := 0x22, b := 0x2f, g := 5, gn := 1, fe := 4, w := 1, sc := 5, ord := 0, tk := 4, off := 0 },
    .volinv { d := 0, a := 0x22, b := 0x2f, g := 5, gn := 1, fe := 4, w := 0, sc := 6, ord := 0, tk := 4, off := 0 },
    .volinv { d := 0, a := 0x22, b := 0x2f, g := 5, gn := 1, fe := 4, w := 0, sc := 5, ord := 0, tk := 4, off := 8 },
    .gath { d := 0x15, a := 0x22, b := 0x2f, g := 5, gn := 1, fe := 6, w := 3, sc := 5, ord := 1, tk := 0xf, off := 0x2a5b } ] = true := by decide

theorem test_illformed_format_M_2 : noneFits
  [ .gath { d := 0x15, a := 0x22, b := 0x2f, g := 5, gn := 1, fe := 6, w := 4, sc := 5, ord := 0, tk := 0xf, off := 0x2a5b },
    .gath { d := 0x15, a := 0x22, b := 0x2f, g := 5, gn := 1, fe := 7, w := 3, sc := 5, ord := 0, tk := 0xf, off := 0x2a5b },
    .gath { d := 0x15, a := 0x22, b := 0x2f, g := 5, gn := 1, fe := 6, w := 3, sc := 5, ord := 0, tk := 1, off := 0x2a5b },
    .scat { d := 1, a := 0x22, b := 0x2f, g := 5, gn := 1, fe := 6, w := 3, sc := 5, ord := 0, tk := 5, off := 0x2a5b },
    .scat { d := 0, a := 0x22, b := 0x2f, g := 5, gn := 1, fe := 6, w := 4, sc := 5, ord := 0, tk := 5, off := 0x2a5b },
    .scat { d := 0, a := 0x22, b := 0x2f, g := 5, gn := 1, fe := 6, w := 3, sc := 5, ord := 0, tk := 8, off := 0x2a5b },
    .scata { d := 0, a := 0x22, b := 0x2f, g := 5, gn := 1, fe := 6, w := 3, sc := 5, ord := 0, tk := 5, off := 0x3000 },
    .scata { d := 0, a := 0x22, b := 0x2f, g := 5, gn := 1, fe := 6, w := 3, sc := 5, ord := 0, tk := 5, off := 0x2000 },
    .scata { d := 1, a := 0x22, b := 0x2f, g := 5, gn := 1, fe := 6, w := 3, sc := 5, ord := 0, tk := 5, off := 0x1a5b },
    .cas4 { d := 0x15, a := 1, b := 0x2f, g := 5, gn := 1, fe := 2, w := 3, sc := 5, ord := 0, tk := 0xf, off := 0 },
    .cas4 { d := 0x15, a := 0, b := 0x2f, g := 5, gn := 1, fe := 2, w := 3, sc := 5, ord := 0, tk := 0xf, off := 1 },
    .cas4 { d := 0x15, a := 0, b := 0x2f, g := 5, gn := 1, fe := 1, w := 3, sc := 5, ord := 0, tk := 0xf, off := 0 },
    .cas4 { d := 0x15, a := 0, b := 0x2f, g := 5, gn := 1, fe := 2, w := 4, sc := 5, ord := 0, tk := 0xf, off := 0 },
    .sflush { d := 0, a := 0x22, b := 0x2f, g := 5, gn := 1, fe := 6, w := 1, sc := 3, ord := 0, tk := 0, off := 0x2a5b },
    .sflush { d := 0, a := 0x22, b := 0x2f, g := 5, gn := 1, fe := 6, w := 2, sc := 5, ord := 0, tk := 0, off := 0x2a5b },
    .sflush { d := 1, a := 0x22, b := 0x2f, g := 5, gn := 1, fe := 6, w := 1, sc := 5, ord := 0, tk := 0, off := 0x2a5b },
    .regmode { d := 0, a := 0x22, b := 1, g := 5, gn := 1, fe := 4, w := 1, sc := 0, ord := 0, tk := 3, off := 0x2a5b },
    .regmode { d := 0, a := 0x22, b := 0, g := 5, gn := 1, fe := 4, w := 1, sc := 1, ord := 0, tk := 3, off := 0x2a5b },
    .regmode { d := 0, a := 0x22, b := 0, g := 5, gn := 1, fe := 4, w := 2, sc := 0, ord := 0, tk := 3, off := 0x2a5b },
    .reclaim { d := 0, a := 0x22, b := 0x2f, g := 5, gn := 1, fe := 6, w := 1, sc := 0, ord := 0, tk := 3, off := 0x2a5b },
    .reclaim { d := 0, a := 0x22, b := 0x2f, g := 5, gn := 1, fe := 6, w := 0, sc := 1, ord := 0, tk := 3, off := 0x2a5b },
    .reclaim { d := 1, a := 0x22, b := 0x2f, g := 5, gn := 1, fe := 6, w := 0, sc := 0, ord := 0, tk := 3, off := 0x2a5b } ] = true := by decide

theorem test_illformed_format_C : noneFits
  [ .cuenew { d := 0x15, a := 0x22, b := 0x2f, c := 0x3c, g := 5, gn := 1, fe := 5, md := 0x53, tk := 0xf, cp := 0xa1 },
    .cuenew { d := 0x15, a := 0x22, b := 0x2f, c := 0x3c, g := 5, gn := 1, fe := 5, md := 0x53, tk := 0xf, cp := 0xb0 },
    .cuenew { d := 0x15, a := 0x22, b := 0x2f, c := 0x3c, g := 5, gn := 1, fe := 5, md := 0x53, tk := 1, cp := 0xa0 },
    .cuedep { d := 1, a := 0x22, b := 0, c := 0, g := 5, gn := 1, fe := 4, md := 0, tk := 0xf, cp := 0xa0 },
    .cuedep { d := 0, a := 0x22, b := 1, c := 0, g := 5, gn := 1, fe := 4, md := 0, tk := 0xf, cp := 0xa0 },
    .cuedep { d := 0, a := 0x22, b := 0, c := 1, g := 5, gn := 1, fe := 4, md := 0, tk := 0xf, cp := 0xa0 },
    .cuedep { d := 0, a := 0x22, b := 0, c := 0, g := 5, gn := 1, fe := 4, md := 1, tk := 0xf, cp := 0xa0 },
    .cuedep { d := 0, a := 0x22, b := 0, c := 0, g := 5, gn := 1, fe := 6, md := 0, tk := 0xf, cp := 0xa0 },
    .cuearm { d := 0x15, a := 0x22, b := 1, c := 0, g := 5, gn := 1, fe := 4, md := 0, tk := 0xf, cp := 0xa0 },
    .cuearm { d := 0x15, a := 0x22, b := 0, c := 0, g := 5, gn := 1, fe := 5, md := 0, tk := 0xf, cp := 0xa0 },
    .copy { d := 0x15, a := 0x22, b := 0x2f, c := 0x3c, g := 5, gn := 1, fe := 5, md := 1, tk := 0xf, cp := 0xa0 },
    .copy { d := 0x15, a := 0x22, b := 0x2f, c := 0x3c, g := 5, gn := 1, fe := 5, md := 0, tk := 7, cp := 0xa0 },
    .copyt { d := 0x15, a := 0x22, b := 0x2f, c := 0x3c, g := 5, gn := 1, fe := 5, md := 0, tk := 0xf, cp := 0xf },
    .cuekill { d := 0x15, a := 0x22, b := 0, c := 1, g := 5, gn := 1, fe := 4, md := 0, tk := 0xf, cp := 0xa0 },
    .wlkgo { d := 0x15, a := 0x22, b := 0x2f, c := 0x3c, g := 5, gn := 1, fe := 5, md := 2, tk := 0xf, cp := 0xa0 } ] = true := by decide

theorem test_illformed_format_P_1 : noneFits
  [ .mnop { wb := 0, sb := 0xf, ru := 0, ka := 0, kb := 0, kc := 0, km := 0, fa := 0, fo := 0, sp := 0, ch := 0, tr := 0, md := 0 },
    .mnop { wb := 0xf, sb := 0xf, ru := 0, ka := 1, kb := 0, kc := 0, km := 0, fa := 0, fo := 0, sp := 0, ch := 0, tr := 0, md := 0 },
    .mnop { wb := 0xf, sb := 0xf, ru := 0, ka := 0, kb := 0, kc := 0, km := 0, fa := 0, fo := 0, sp := 4, ch := 0, tr := 0, md := 0 },
    .mnop { wb := 0xf, sb := 0xf, ru := 0, ka := 0, kb := 0, kc := 0, km := 0, fa := 0, fo := 0, sp := 0, ch := 3, tr := 0, md := 0 },
    .mnop { wb := 0xf, sb := 0xf, ru := 0, ka := 0, kb := 0, kc := 0, km := 0, fa := 0, fo := 0, sp := 0, ch := 0, tr := 0, md := 1 },
    .mldw { wb := 3, sb := 1, ru := 0, ka := 0x12, kb := 0x23, kc := 0, km := 0x2c, fa := 6, fo := 0, sp := 0, ch := 0, tr := 2, md := 1 },
    .mldw { wb := 3, sb := 0xf, ru := 0, ka := 0x12, kb := 0x23, kc := 0, km := 0x2c, fa := 6, fo := 0, sp := 0, ch := 0, tr := 2, md := 3 },
    .mldw { wb := 3, sb := 0xf, ru := 0, ka := 0x12, kb := 0x23, kc := 0, km := 0x2c, fa := 6, fo := 0, sp := 0, ch := 0, tr := 2, md := 5 },
    .mldw { wb := 3, sb := 0xf, ru := 0, ka := 0x13, kb := 0x23, kc := 0, km := 0x2c, fa := 6, fo := 0, sp := 0, ch := 0, tr := 2, md := 1 },
    .mldw { wb := 3, sb := 0xf, ru := 0, ka := 0x12, kb := 0x23, kc := 1, km := 0x2c, fa := 6, fo := 0, sp := 0, ch := 0, tr := 2, md := 1 },
    .mldw { wb := 3, sb := 0xf, ru := 0, ka := 0x12, kb := 0x23, kc := 0, km := 0x2c, fa := 6, fo := 0, sp := 4, ch := 0, tr := 2, md := 1 },
    .mldwt { wb := 4, sb := 0xf, ru := 0, ka := 1, kb := 0x23, kc := 0x1d, km := 0x2c, fa := 9, fo := 0, sp := 0, ch := 0, tr := 0, md := 0 },
    .mldwt { wb := 4, sb := 0xf, ru := 0, ka := 0, kb := 0x23, kc := 0x1d, km := 0x2c, fa := 9, fo := 0, sp := 0, ch := 0, tr := 1, md := 0 },
    .mldwt { wb := 4, sb := 0xf, ru := 0, ka := 0, kb := 0x23, kc := 0x1d, km := 0x2c, fa := 9, fo := 0, sp := 0, ch := 0, tr := 0, md := 2 },
    .mldws { wb := 5, sb := 0xf, ru := 0, ka := 0x12, kb := 0x23, kc := 0x1e, km := 0x2c, fa := 6, fo := 0, sp := 0, ch := 0, tr := 0, md := 1 },
    .mldws { wb := 5, sb := 0xf, ru := 0, ka := 0x12, kb := 0x23, kc := 0x1e, km := 0x2c, fa := 6, fo := 0, sp := 3, ch := 0, tr := 1, md := 1 },
    .mldws { wb := 5, sb := 0xf, ru := 0, ka := 0x12, kb := 0x23, kc := 0x1e, km := 0x2c, fa := 6, fo := 0, sp := 3, ch := 0, tr := 0, md := 2 },
    .mldws { wb := 5, sb := 0xf, ru := 0, ka := 0x12, kb := 0x23, kc := 0x1f, km := 0x2c, fa := 6, fo := 0, sp := 3, ch := 0, tr := 0, md := 1 },
    .mldcb { wb := 6, sb := 0xf, ru := 0, ka := 0x12, kb := 0, kc := 0, km := 0, fa := 1, fo := 0, sp := 0, ch := 0, tr := 0, md := 1 },
    .mldcb { wb := 6, sb := 0xf, ru := 0, ka := 0x12, kb := 0, kc := 0, km := 0, fa := 0, fo := 0, sp := 0, ch := 0, tr := 0, md := 2 },
    .mma { wb := 3, sb := 9, ru := 1, ka := 0x12, kb := 0x23, kc := 0x1d, km := 0x2c, fa := 6, fo := 1, sp := 1, ch := 2, tr := 1, md := 2 },
    .mma { wb := 3, sb := 9, ru := 1, ka := 0x12, kb := 0x23, kc := 0x1d, km := 0x2c, fa := 6, fo := 1, sp := 0, ch := 2, tr := 1, md := 3 },
    .mma { wb := 3, sb := 9, ru := 1, ka := 0x12, kb := 0x23, kc := 0x1d, km := 0x2c, fa := 6, fo := 2, sp := 0, ch := 2, tr := 1, md := 2 },
    .mma { wb := 3, sb := 9, ru := 1, ka := 0x12, kb := 0x23, kc := 0x1d, km := 0x2c, fa := 6, fo := 1, sp := 0, ch := 3, tr := 1, md := 2 },
    .mmac { wb := 3, sb := 9, ru := 1, ka := 0x12, kb := 0x23, kc := 0x1d, km := 0x2c, fa := 6, fo := 1, sp := 0, ch := 1, tr := 3, md := 1 },
    .mmac { wb := 3, sb := 9, ru := 1, ka := 0x12, kb := 0x23, kc := 0x1d, km := 0x2c, fa := 6, fo := 1, sp := 5, ch := 1, tr := 3, md := 1 },
    .mmac { wb := 3, sb := 9, ru := 1, ka := 0x12, kb := 0x23, kc := 0x1d, km := 0x2c, fa := 6, fo := 3, sp := 2, ch := 1, tr := 3, md := 1 },
    .mzero { wb := 1, sb := 2, ru := 1, ka := 0, kb := 0x23, kc := 0x1d, km := 0, fa := 0, fo := 0, sp := 0, ch := 0, tr := 0, md := 0 },
    .mzero { wb := 1, sb := 2, ru := 0, ka := 0, kb := 0x23, kc := 0x1d, km := 1, fa := 0, fo := 0, sp := 0, ch := 0, tr := 0, md := 0 },
    .mstc { wb := 1, sb := 2, ru := 0, ka := 0x13, kb := 0x23, kc := 0x1d, km := 0x2c, fa := 0, fo := 0xb, sp := 0, ch := 0, tr := 0, md := 2 },
    .mstc { wb := 1, sb := 2, ru := 0, ka := 0x13, kb := 0x23, kc := 0x1d, km := 0x2c, fa := 0, fo := 0xb, sp := 0, ch := 0, tr := 0, md := 0x70 },
    .mstc { wb := 1, sb := 2, ru := 0, ka := 0x13, kb := 0x23, kc := 0x1d, km := 0x2c, fa := 1, fo := 0xb, sp := 0, ch := 0, tr := 0, md := 0xd0 },
    .mturn { wb := 1, sb := 2, ru := 0, ka := 0x12, kb := 0x23, kc := 0x1e, km := 0x2c, fa := 6, fo := 0, sp := 0, ch := 0, tr := 0, md := 8 },
    .mturn { wb := 1, sb := 2, ru := 0, ka := 0x12, kb := 0x23, kc := 0x1e, km := 0x2c, fa := 6, fo := 0, sp := 0, ch := 0, tr := 0, md := 2 },
    .mturn { wb := 1, sb := 2, ru := 0, ka := 0x12, kb := 0x23, kc := 0x1f, km := 0x2c, fa := 6, fo := 0, sp := 0, ch := 0, tr := 0, md := 5 },
    .mturn { wb := 1, sb := 2, ru := 0, ka := 0x12, kb := 0x23, kc := 0x1e, km := 0x2c, fa := 6, fo := 0, sp := 0, ch := 0, tr := 0, md := 0x14 },
    .mrule { wb := 8, sb := 0xf, ru := 0, ka := 0x12, kb := 0, kc := 0, km := 0, fa := 0, fo := 0, sp := 0, ch := 0, tr := 0, md := 2 },
    .mrule { wb := 8, sb := 0xf, ru := 0, ka := 0x12, kb := 1, kc := 0, km := 0, fa := 0, fo := 0, sp := 0, ch := 0, tr := 0, md := 1 },
    .mdrain { wb := 1, sb := 2, ru := 0, ka := 0x13, kb := 0x23, kc := 0x1d, km := 0x2c, fa := 0, fo := 0, sp := 0, ch := 0, tr := 0, md := 0 },
    .mdrain { wb := 1, sb := 2, ru := 0, ka := 0x12, kb := 0x23, kc := 0x1d, km := 0x2d, fa := 0, fo := 0, sp := 0, ch := 0, tr := 0, md := 0 },
    .mdrain { wb := 1, sb := 2, ru := 0, ka := 0x12, kb := 0x23, kc := 0x1d, km := 0x2c, fa := 0, fo := 0, sp := 0, ch := 0, tr := 0, md := 1 },
    .msave { wb := 1, sb := 2, ru := 0, ka := 0x12, kb := 0x23, kc := 0x1d, km := 0, fa := 0, fo := 0, sp := 0, ch := 0, tr := 0, md := 0 },
    .msave { wb := 1, sb := 2, ru := 0, ka := 0x13, kb := 0x23, kc := 0x1d, km := 0, fa := 0, fo := 0, sp := 0, ch := 0, tr := 0, md := 1 },
    .mload { wb := 1, sb := 2, ru := 0, ka := 0x12, kb := 0x23, kc := 0x1d, km := 0, fa := 0, fo := 0, sp := 0, ch := 0, tr := 0, md := 2 },
    .mload { wb := 1, sb := 2, ru := 0, ka := 0x12, kb := 0x23, kc := 0x1d, km := 1, fa := 0, fo := 0, sp := 0, ch := 0, tr := 0, md := 1 },
    .mwait { wb := 0xf, sb := 0xf, ru := 0, ka := 0, kb := 0, kc := 0, km := 0, fa := 0, fo := 0, sp := 0, ch := 0, tr := 0, md := 0 },
    .mwait { wb := 7, sb := 1, ru := 0, ka := 0, kb := 0, kc := 0, km := 0, fa := 0, fo := 0, sp := 0, ch := 0, tr := 0, md := 0 },
    .msig { wb := 7, sb := 8, ru := 0, ka := 1, kb := 0, kc := 0, km := 0, fa := 0, fo := 0, sp := 0, ch := 0, tr := 0, md := 0 },
    .mqcfg { wb := 7, sb := 0xf, ru := 0, ka := 0x13, kb := 0x14, kc := 0x16, km := 0, fa := 0, fo := 0, sp := 0, ch := 0, tr := 0, md := 1 },
    .mqcfg { wb := 7, sb := 0xf, ru := 0, ka := 0x12, kb := 0x14, kc := 0x16, km := 0, fa := 0, fo := 0, sp := 0, ch := 0, tr := 0, md := 2 },
    .mepi { wb := 1, sb := 2, ru := 0, ka := 0x13, kb := 0x23, kc := 0x1d, km := 0x2c, fa := 0, fo := 1, sp := 0, ch := 0, tr := 0, md := 0xc },
    .mepi { wb := 1, sb := 2, ru := 0, ka := 0x13, kb := 0x23, kc := 0x1d, km := 0x2c, fa := 0, fo := 1, sp := 0, ch := 0, tr := 0, md := 0x10 },
    .mepi { wb := 1, sb := 2, ru := 0, ka := 0x13, kb := 0x23, kc := 0x1d, km := 0x2c, fa := 0, fo := 2, sp := 0, ch := 0, tr := 0, md := 8 },
    .mepi { wb := 1, sb := 2, ru := 0, ka := 0x13, kb := 0x23, kc := 0x1d, km := 0x2c, fa := 0, fo := 1, sp := 0, ch := 0, tr := 0, md := 2 },
    .mprog { wb := 0xf, sb := 0xf, ru := 0, ka := 0xf, kb := 0, kc := 0, km := 0, fa := 0, fo := 0, sp := 0, ch := 0, tr := 0, md := 0 },
    .mprog { wb := 1, sb := 0xf, ru := 0, ka := 0x22, kb := 0, kc := 0, km := 0, fa := 0, fo := 0, sp := 0, ch := 0, tr := 0, md := 0 },
    .mprog { wb := 0xf, sb := 0xf, ru := 0, ka := 0x22, kb := 0, kc := 0, km := 0, fa := 0, fo := 0, sp := 0, ch := 0, tr := 0, md := 2 },
    .mjmp { wb := 0xf, sb := 0xf, ru := 0, ka := 0x3f, kb := 0x3f, kc := 0x3f, km := 0x3f, fa := 0xf, fo := 1, sp := 0, ch := 0, tr := 0, md := 0 },
    .mjmp { wb := 0xf, sb := 0xf, ru := 0, ka := 0x3f, kb := 0x3f, kc := 0x3f, km := 0x3f, fa := 0xf, fo := 8, sp := 0, ch := 0, tr := 0, md := 1 },
    .mjmp { wb := 0xf, sb := 0, ru := 0, ka := 0x3f, kb := 0x3f, kc := 0x3f, km := 0x3f, fa := 0xf, fo := 8, sp := 0, ch := 0, tr := 0, md := 0 } ] = true := by decide

theorem test_illformed_format_P_2 : noneFits
  [ .mloop { wb := 0xf, sb := 0xf, ru := 0, ka := 0x3f, kb := 0x3f, kc := 0x3f, km := 0x3e, fa := 0xf, fo := 0, sp := 0, ch := 0, tr := 0, md := 0xf },
    .mloop { wb := 0xf, sb := 0xf, ru := 0, ka := 0x3f, kb := 0x3f, kc := 0x3f, km := 0x3e, fa := 0xf, fo := 0, sp := 0, ch := 0, tr := 0, md := 0x40 },
    .mloop { wb := 0xf, sb := 0xf, ru := 0, ka := 0x3f, kb := 0x3f, kc := 0x3f, km := 0x3e, fa := 0xf, fo := 1, sp := 0, ch := 0, tr := 0, md := 0x28 },
    .mend { wb := 0xf, sb := 0xf, ru := 0, ka := 0, kb := 0, kc := 0, km := 0, fa := 0, fo := 0, sp := 0, ch := 0, tr := 1, md := 0 },
    .mkadd { wb := 0xf, sb := 0xf, ru := 0, ka := 0xf, kb := 0x24, kc := 0x29, km := 0x35, fa := 6, fo := 9, sp := 0, ch := 0, tr := 0, md := 1 },
    .mkadd { wb := 0xf, sb := 0xf, ru := 0, ka := 0x12, kb := 0x25, kc := 0x29, km := 0x35, fa := 6, fo := 9, sp := 0, ch := 0, tr := 0, md := 1 },
    .mkadd { wb := 0xf, sb := 0xf, ru := 0, ka := 0x13, kb := 0x24, kc := 0x29, km := 0x35, fa := 6, fo := 9, sp := 0, ch := 0, tr := 0, md := 1 },
    .mkadd { wb := 0xf, sb := 0xf, ru := 0, ka := 0x12, kb := 0x24, kc := 0x29, km := 0x35, fa := 6, fo := 9, sp := 0, ch := 0, tr := 0, md := 2 } ] = true := by decide

theorem test_illformed_walker : noneFits
  [ .wshl 5 9 14 0 2,
    .wshr 5 9 14 0 2,
    .wbr 9 4,
    .wmerge 5 10,
    .wmerge 6 11,
    .wmerge 6 6,
    .wmnext 5 5,
    .wscan 5 5 9 0,
    .wscan 5 9 5 0,
    .wscan 5 9 9 0 ] = true := by decide

/-! ## States that meet the hypotheses of the statements

One team of sixteen threads, of which thread 0 is the one that has not exited, with a page of data at 0x10000 that its core may read and
write. -/

/-- The team, with what a witness changes in thread 0 and in the team. -/
def oneTeam (h : Thread → Thread) (u : Team → Team) : Team :=
  let t := probeTeam State.reset
  u { t with id := 1, threads := t.threads.map fun y => if y.tid = 0 then h y else { y with exited := true } }

/-- Its bundle of thread 0, at the first of two instructions of its clause. -/
def oneBundle : Bundle := { id := 2, team := 1, slot := 0, tids := [0], start := 0, count := 2, cls := 0, notBefore := 0,
                             stalled := false }

/-- The part with that team alone, about to issue for that bundle. -/
def one (h : Thread → Thread) (u : Team → Team) : State :=
  let page : Tlb := { unit := 0, asid := 0, va := 0x10000, len := 0x10000, pa := 0x10000, attr := 7 + 2 ^ 9, leaf := 0 }
  { State.reset with
    cur := .bundle 2
    nextId := 3
    teams := [oneTeam h u]
    bundles := [oneBundle]
    units := { State.reset.units with tlb := [page, { page with unit := 2048 }], windows := [(0, 0, []), (2048, 0, [])] }
    ctl := (State.reset.ctl.open0 (home 0x10000)).open0 (home 0x10080) }

/-- The address that register pair x2 holds in a witness. -/
def atData (h : Thread) : Thread := h.setPair 2 0x10000

/-- The hypotheses of `Clear`, as a test. -/
def isClear (s : State) (b : Bundle) (t : Team) (f : Form) : Bool :=
  decide (s.issuer = some (b, t)) && (!f.priv || (t.pick b.tids).all Thread.priv) && !f.misformed
    && (t.pick b.tids).all (fun h => !f.quadBad (t.allot h.tid) && f.regs.all (fun r => decide (r < t.allot h.tid))
      && f.lines.all (fun l => !h.absent.contains l) && (f.srcs ++ f.dsts).all (fun p => p.regs.all fun r => !h.empty.contains r)
      && (match f.tok with
          | some n => decide (h.token n < 63)
          | none => true) && !h.singleStep)
    && f.ks.all (fun k => !t.kWait.contains k) && b.tids.all (fun x => decide ((t.group (t.groupOf x)).next = none))

theorem clear_of {s : State} {b : Bundle} {t : Team} {f : Form} (c : isClear s b t f = true) : Clear s b t f := by
  simp only [isClear, Bool.and_eq_true, Bool.or_eq_true, Bool.not_eq_true', List.all_eq_true, decide_eq_true_eq,
    List.contains_eq_mem, decide_eq_false_iff_not] at c
  obtain ⟨⟨⟨⟨⟨a1, a2⟩, a3⟩, a4⟩, a5⟩, a6⟩ := c
  refine { issues := a1, privilege := ?_, formed := a3, quad := ?_, allot := ?_, resident := ?_, kFree := a5, full := ?_, token := ?_,
           unstepped := ?_, noRole := a6 }
  · intro p
    cases a2 with
    | inl q => rw [p] at q; cases q
    | inr q => exact q
  · exact fun h m => (a4 h m).1.1.1.1.1
  · exact fun h m => (a4 h m).1.1.1.1.2
  · exact fun h m => (a4 h m).1.1.1.2
  · exact fun h m _ => (a4 h m).1.1.2
  · intro n e h m _
    have := (a4 h m).1.2
    rw [e] at this
    simpa using this
  · exact fun h m => (a4 h m).2

theorem test_clear : isClear (one atData id) oneBundle (oneTeam atData id) { srcs := [{ r := 2, n := 2 }] } = true := by decide

theorem clear_all {s : State} {b : Bundle} {t : Team} {l : List Form} (c : l.all (isClear s b t) = true) : ∀ f ∈ l, Clear s b t f :=
  fun f m => clear_of (List.all_eq_true.mp c f m)

/-- The state, the team and the thread of a lane once its destinations are empty and its token is raised. -/
def issued (s : State) (t : Team) (f : Form) (l : List Nat) : State := s.updThreads t.id l f.atIssue
def issuedTeam (s : State) (t : Team) (f : Form) (l : List Nat) : Team := ((issued s t f l).team? t.id).getD t
def issuedThread (s : State) (t : Team) (f : Form) (x : Nat) : Thread :=
  ((issuedTeam s t f [x]).thread? x).getD (Thread.fresh x 0 0 0)

/-- `Lane`, `Solo` and `OneGroup` as tests. -/
def isLane (s : State) (b : Bundle) (t : Team) (f : Form) (x : Nat) : Bool :=
  isClear s b t f && decide (t.active f b.tids = [x]) && ((issued s t f [x]).team? t.id).isSome
    && ((issuedTeam s t f [x]).thread? x).isSome

theorem some_getD {α : Type} {o : Option α} {d : α} (h : o.isSome = true) : o = some (o.getD d) := by cases o <;> simp_all

theorem lane_of {s : State} {b : Bundle} {t : Team} {f : Form} {x : Nat} (c : isLane s b t f x = true) :
    Lane s b t f x (issued s t f [x]) (issuedTeam s t f [x]) (issuedThread s t f x) := by
  simp only [isLane, Bool.and_eq_true, decide_eq_true_eq] at c
  exact ⟨clear_of c.1.1.1, c.1.1.2, rfl, some_getD c.1.2, some_getD c.2⟩

def isSolo (s : State) (b : Bundle) (t : Team) (f : Form) (x : Nat) (h : Thread) : Bool :=
  isClear s b t f && decide (b.tids = [x]) && decide (t.thread? x = some h) && h.guard f.g f.gn

theorem solo_of {s : State} {b : Bundle} {t : Team} {f : Form} {x : Nat} {h : Thread} (c : isSolo s b t f x h = true) : Solo s b t f x h := by
  simp only [isSolo, Bool.and_eq_true, decide_eq_true_eq] at c
  exact ⟨clear_of c.1.1.1, c.1.1.2, c.1.2, c.2⟩

def isGroup (s : State) (b : Bundle) (t : Team) (f : Form) (l : List Nat) : Bool :=
  isClear s b t f && decide (s.paired t b (b.idx t) = some [b]) && decide (t.active f b.tids = l)
    && decide ((t.groupUnits b.tids l).map (fun u => (u.acts, u.all)) = [(l, l)]) && ((issued s t f l).team? t.id).isSome

theorem group_of {s : State} {b : Bundle} {t : Team} {f : Form} {l : List Nat} (c : isGroup s b t f l = true) :
    OneGroup s b t f l (issued s t f l) (issuedTeam s t f l) := by
  simp only [isGroup, Bool.and_eq_true, decide_eq_true_eq] at c
  refine ⟨clear_of c.1.1.1.1, c.1.1.1.2, c.1.1.2, ?_, rfl, some_getD c.2⟩
  have h := c.1.2
  cases hu : t.groupUnits b.tids l with
  | nil => rw [hu] at h; simp at h
  | cons u r =>
    rw [hu] at h
    simp only [List.map_cons, List.cons.injEq, Prod.mk.injEq, List.map_eq_nil_iff] at h
    obtain ⟨⟨h1, h2⟩, h3⟩ := h
    cases u
    simp_all

/-- `Converged` as a test. -/
def isConverged (s : State) (b : Bundle) (t : Team) (l : List Nat) : Bool :=
  let gs := s.boundGroups t b
  let set := s.members t b gs
  let here := set.filter (s.comes t set (b.idx t))
  decide (s.issuing t b here = [b]) && gs.all fun g => decide (t.convergence set here l g = .yes)

theorem conv_of {s : State} {b : Bundle} {t : Team} {l : List Nat} (c : isConverged s b t l = true) : Converged s b t l := by
  simp only [isConverged, Bool.and_eq_true, decide_eq_true_eq, List.all_eq_true] at c
  exact c

/-- The state of the witnesses that only need registers, and its thread. -/
def plain : State := one atData id
def plainTeam : Team := oneTeam atData id
def plainThread : Thread := (plainTeam.thread? 0).getD (Thread.fresh 0 0 0 0)

/-- A word of format R on registers 10, 2, 4 and 6, or what else a witness names. -/
def rw_ (ty : BitVec 4) (md : BitVec 8 := 0) (d : BitVec 7 := 10) (a : BitVec 7 := 2) (b : BitVec 7 := 4) (c : BitVec 7 := 6)
    (rm : BitVec 3 := 0) (tk : BitVec 4 := 15) : RWord :=
  { d := d, a := a, b := b, c := c, g := 7, gn := 0, fe := 0, ty := ty, rm := rm, tk := tk, md := md }
def iw_ (md : BitVec 3 := 0) (imm : BitVec 32 := 5) (d : BitVec 7 := 10) (a : BitVec 7 := 2) : IWord :=
  { d := d, a := a, g := 7, gn := 0, fe := 0, md := md, imm := imm }
def bw_ (md : BitVec 8 := 0) (off : BitVec 32 := 0) (a : BitVec 7 := 2) (bs : BitVec 3 := 0) : BWord :=
  { g := 7, gn := 0, bs := bs, a := a, md := md, off := off }
def kw_ (md : BitVec 4 := 0) (kd : BitVec 6 := 20) (ka : BitVec 6 := 22) (kb : BitVec 6 := 24) (imm : BitVec 32 := 0) : KWord :=
  { kd := kd, ka := ka, kb := kb, md := md, imm := imm }
def mw_ (w : BitVec 3 := 2) (sc : BitVec 3 := 0) (ord : BitVec 2 := 0) (d : BitVec 7 := 10) (a : BitVec 7 := 2) (b : BitVec 7 := 0)
    (off : BitVec 14 := 0) (tk : BitVec 4 := 15) : MWord :=
  { d := d, a := a, b := b, g := 7, gn := 0, fe := 0, w := w, sc := sc, ord := ord, tk := tk, off := off }

theorem witness_IntegerArithmeticCompletes : ∀ f ∈ [form1 (rw_ 0) 1, form2 (rw_ 0) 1, form2 (rw_ 2) 2, form3 (rw_ 0) 1, form3 (rw_ 3) 2,
    (rw_ 0).form [(rw_ 0).srcA 1, (rw_ 0).srcB 1, (rw_ 0).srcC 2] [(rw_ 0).dst 2],
    (rw_ 1).form [(rw_ 1).srcA 2, (rw_ 1).srcB 1] [(rw_ 1).dst 2]], Clear plain oneBundle plainTeam f := clear_all (by decide)

theorem witness_LogicAndShiftsComplete : ∀ f ∈ [form2 (rw_ 2) 2, form1 (rw_ 3) 2, shiftForm (rw_ 0), shiftForm (rw_ 2), countForm (rw_ 2),
    (rw_ 2).form [(rw_ 2).srcA 2, (rw_ 2).srcB 1, (rw_ 2).srcC 2] [(rw_ 2).dst 2], form3 (rw_ 1) 1], Clear plain oneBundle plainTeam f :=
  clear_all (by decide)

theorem witness_IntegerComparisonsComplete : ∀ f ∈ [(rw_ 0 4).form [(rw_ 0 4).srcA 1, (rw_ 0 4).srcB 1] [],
    (rw_ 2).form [(rw_ 2).srcA 2, (rw_ 2).srcB 2] [(rw_ 2).dst 2], form2 (rw_ 0) 1, (rw_ 0).form [] []], Clear plain oneBundle plainTeam f :=
  clear_all (by decide)

theorem witness_ImmediateFormsComplete : ∀ f ∈ [immForm iw_, immForm3 iw_, immForm0 iw_, iw_.form [] [iw_.dst 2],
    { iw_.form [] [{ r := 11, n := 1 }] with bad := bitOf iw_.d.toNat 0 }, iw_.form [iw_.srcA 1, { r := 10, n := 2 }] [iw_.dst 2],
    iw_.form [iw_.srcA 1] [], iw_.form [iw_.srcA 2] [iw_.dst 2]], Clear plain oneBundle plainTeam f := clear_all (by decide)

/-- An access that reaches its bytes, and starts at once. -/
def lands (m0 : State) (t : Team) (h : Thread) (x : Nat) (va : W64) (n : Nat) (k : Ask) (ord : Nat) : Bool :=
  m0.mayStart t.id x ord && !m0.tableFull (t.coreOf x) && match t.reach m0 h va n k with
  | (.ok (some (p :: ps)), m) => !m.ioWaits t.id x (p :: ps)
  | _ => false

theorem lands_of {m0 : State} {t : Team} {h : Thread} {x : Nat} {va : W64} {n : Nat} {k : Ask} {ord : Nat}
    (c : lands m0 t h x va n k ord = true) : ∃ p ps m, (m0.mayStart t.id x ord = true ∧ m0.tableFull (t.coreOf x) = false)
      ∧ t.reach m0 h va n k = (.ok (some (p :: ps)), m)
      ∧ m.ioWaits t.id x (p :: ps) = false := by
  unfold lands at c
  rw [Bool.and_eq_true, Bool.and_eq_true, Bool.not_eq_true'] at c
  split at c
  · rename_i p ps m e
    exact ⟨p, ps, m, c.1, e, by simpa using c.2⟩
  · simp at c

/-- The team and the core of `lands`, where they are numbers. -/
theorem issued_at {m : State} {t : Team} {x n c : Nat} (e1 : t.id = n) (e2 : t.coreOf x = c)
    (h : m.mayStart t.id x 0 = true ∧ m.tableFull (t.coreOf x) = false) : m.mayStart n x 0 = true ∧ m.tableFull c = false := by
  subst e1 e2
  exact h

/-- A witness state for the system instructions: thread 0 runs in supervisor mode. -/
def kernelThread (h : Thread) : Thread := { atData h with priv := true }
def kernel : State := one kernelThread id
def kernelTeam : Team := oneTeam kernelThread id

theorem witness_DivisionResults_issue : ∃ s1 t1 h1, Lane plain oneBundle plainTeam { form2 (rw_ 0) 1 with long := true } 0 s1 t1 h1 :=
  ⟨_, _, _, lane_of (by decide)⟩

theorem witness_DivisionResults_immediate : ∃ s1 t1 h1, Lane plain oneBundle plainTeam { immForm iw_ with long := true } 0 s1 t1 h1 :=
  ⟨_, _, _, lane_of (by decide)⟩

/-- A team whose k22 holds the address of the data. -/
def kTeam (t : Team) : Team := t.setKpair 22 0x10000

theorem witness_UniformRegistersComplete_KLD : ∃ h p ps s1, let t := oneTeam atData kTeam; let s := one atData kTeam
    Clear s oneBundle t { bad := kDstBad 20 false || kSrcBad 22 true, ks := kRegs 20 false ++ kRegs 22 true }
    ∧ t.thread? (t.lowest oneBundle.tids) = some h ∧ (s.mayStart t.id h.tid 0 = true ∧ s.tableFull (t.coreOf h.tid) = false)
    ∧ t.reach s h (t.kpair 22 + 0) 4 { align := 4 } = (.ok (some (p :: ps)), s1) ∧ s1.ioWaits t.id h.tid (p :: ps) = false := by
  obtain ⟨p, ps, m, h1, h2, h3⟩ := lands_of (m0 := one atData kTeam) (t := oneTeam atData kTeam) (h := plainThread) (x := 0)
    (va := (oneTeam atData kTeam).kpair 22 + 0) (n := 4) (k := { align := 4 }) (ord := 0) (by decide)
  exact ⟨plainThread, p, ps, m, clear_of (by decide), by decide, h1, h2, h3⟩

/-- R129's three cases, at their edges: by zero, 7 over -2, the least number over -1. -/
theorem witness_DivisionResults : 0 < (intTy 0).w ∧ 2 ^ 32 - 2 < 2 ^ (intTy 0).w
    ∧ ¬((intTy 0).signed = true ∧ (intTy 0).of 7 = (intTy 0).lo ∧ (intTy 0).of (2 ^ 32 - 2) = -1)
    ∧ ((intTy 0).signed = true ∧ (intTy 0).of (2 ^ 31) = (intTy 0).lo ∧ (intTy 0).of (2 ^ 32 - 1) = -1) := by decide

theorem witness_IntegerArithmeticCompletes_results : (intTy 4).lo ≤ (intTy 4).hi ∧ (intTy 4).lo - 1 < (intTy 4).lo ∧ (intTy 4).hi < (intTy 4).hi + 1 := by decide

theorem witness_IntegerArithmeticCompletes_carries : 0 < 32 ∧ 2 ^ 32 - 1 < 2 ^ 32
    ∧ (Instr.iaddc { rw_ 1 (md := 1) (c := 7) with fe := 0 }).wellFormed = true := by decide

/-- An even d, and an odd one. -/
theorem witness_MovihWritesTheUpperHalf :
    Clear plain oneBundle plainTeam { iw_.form [] [{ r := iw_.d.toNat + 1, n := 1 }] with bad := bitOf iw_.d.toNat 0 }
    ∧ (plain.issuer = some (oneBundle, plainTeam) ∧ oneBundle.tids = [0] ∧ plainTeam.pick [0] = [plainThread] ∧ plainThread.tid = 0
      ∧ plainTeam.thread? 0 = some plainThread ∧ ({ iw_ with d := 11 } : IWord).d.toNat % 2 = 1)
    ∧ (Instr.movih { iw_ with a := 0 }).wellFormed = true :=
  ⟨clear_of (by decide), by decide, by decide⟩

/-- A draw of the lane that has arrived, and one that has not. -/
def drawn (l : List Nat) : State :=
  { plain with noise := { plain.noise with reqs := [{ id := 7, cluster := 0, team := 1, kind := 1, tid := 0, who := .lane, need := 1, got := l,
                                                      slots := [], held := false }] } }

/-- Each rounding mode of a form: a nearest mode, the noise sources with and without the draw, the keyed generator. -/
theorem witness_FloatArithmeticCompletes : Clear plain oneBundle plainTeam (form3 (rw_ 6) 1)
    ∧ Clear plain oneBundle plainTeam { form3 (rw_ 6 (rm := 6)) 1 with ks := [56, 57, 58, 59, 60] }
    ∧ Clear (drawn [5]) oneBundle plainTeam (form3 (rw_ 6 (rm := 5)) 1)
    ∧ (plainTeam.active (form3 (rw_ 6 (rm := 5)) 1) [0]).all ((drawn [5]).drawsReady 1 1) = true
    ∧ Clear (drawn []) oneBundle plainTeam (form3 (rw_ 6 (rm := 5)) 1)
    ∧ (plainTeam.active (form3 (rw_ 6 (rm := 5)) 1) [0]).all ((drawn []).drawsReady 1 1) = false :=
  ⟨clear_of (by decide), clear_of (by decide), clear_of (by decide), by decide, clear_of (by decide), by decide⟩

theorem witness_FloatSelectionCompletes : ∀ f ∈ [form2 (rw_ 6) 1, form2 (rw_ 7) 2, form1 (rw_ 7) 2, (rw_ 6 4).form [(rw_ 6).srcA 1, (rw_ 6).srcB 1] []],
    Clear plain oneBundle plainTeam f := clear_all (by decide)

theorem witness_FloatLongCompletes : ∀ f ∈ [form2 (rw_ 6) 1, form1 (rw_ 7) 2, { form1 (rw_ 6 (rm := 6)) 1 with ks := [56, 57, 58, 59, 60] }],
    Clear plain oneBundle plainTeam f := clear_all (by decide)

/-- A team that rehearses, and a NOISE's draws of its lane. -/
def rehearser : Team := oneTeam atData fun t => { t with rehearsal := 1 }
def rehearsing (l : List Nat) : State :=
  { drawn l with teams := [rehearser]
                 noise := { (drawn l).noise with reqs := [{ id := 7, cluster := 0, team := 1, kind := 1, tid := 0, who := .lane, need := 2, got := l,
                                                            slots := [], held := false }] } }

theorem witness_ConversionsComplete : (∀ f ∈ [convForm (rw_ 6 0x86), convForm (rw_ 0 6), convForm (rw_ 7 0), { form1 (rw_ 6) 1 with ks := (List.range 8).map (48 + ·) },
      { (rw_ 1).form [(rw_ 1).srcA 1, (rw_ 1).srcB 2] [(rw_ 1).dst 1] with ks := [56, 57, 58, 59] }], Clear plain oneBundle plainTeam f)
    ∧ (∃ s1 t1 h1, Lane plain oneBundle plainTeam { (rw_ 1).form [] [(rw_ 1).dst 1] with long := true } 0 s1 t1 h1)
    ∧ (∃ s1 t1 h1 sc, Lane plain oneBundle plainTeam (form1 (rw_ 6 10) 1) 0 s1 t1 h1 ∧ sc10 (bitsOf (h1.reg 2).toNat 16 10) = some sc)
    ∧ (∃ h f, f = (fun y : Thread => y.setReg 2 0x03FD0000) ∧ Solo (one f id) oneBundle (oneTeam f id) (form1 (rw_ 6 10) 1) 0 h
        ∧ sc10 (bitsOf (h.reg 2).toNat 16 10) = none)
    ∧ (∃ s1 t1 h1, Lane plain oneBundle plainTeam { form1 (rw_ 6 11) 1 with ks := (List.range 8).map (48 + ·) } 0 s1 t1 h1)
    ∧ srcTy (rw_ 6 11) = 11 ∧ plainTeam.rehearsal = 0
    ∧ (∀ l ∈ [[5, 9], []], Clear (rehearsing l) oneBundle rehearser ((rw_ 1).form [] [(rw_ 1).dst 1]) ∧ rehearser.rehearsal ≠ 0
        ∧ (rehearser.active ((rw_ 1).form [] [(rw_ 1).dst 1]) [0]).all ((rehearsing l).drawsReady 1 2) = !l.isEmpty) :=
  ⟨clear_all (by decide), ⟨_, _, _, lane_of (by decide)⟩, ⟨_, _, _, .zero, lane_of (by decide), by decide⟩,
    ⟨(((oneTeam (fun y => y.setReg 2 0x03FD0000) id).thread? 0)).getD plainThread, _, rfl, solo_of (by decide), by decide⟩,
    ⟨_, _, _, lane_of (by decide)⟩, by decide, rfl, fun l m => by
      have h : ([[5, 9], []].all fun l => isClear (rehearsing l) oneBundle rehearser ((rw_ 1).form [] [(rw_ 1).dst 1])
          && decide ((rehearser.active ((rw_ 1).form [] [(rw_ 1).dst 1]) [0]).all ((rehearsing l).drawsReady 1 2) = !l.isEmpty)) = true := by decide
      have c := List.all_eq_true.mp h l m
      rw [Bool.and_eq_true, decide_eq_true_eq] at c
      exact ⟨clear_of c.1, by decide, c.2⟩⟩

/-- The second draw of a NOISE that thread 0 waits for. -/
theorem witness_NoiseDelivers : let r : DrawReq := { id := 7, cluster := 0, team := 1, kind := 0, tid := 0, who := .noise 10, need := 2,
                                                     got := [65535], slots := [], held := false }
    let s : State := { plain with noise := { plain.noise with reqs := [r] } }
    r ∈ s.noise.reqs ∧ r.who = .noise 10 ∧ r.need = 2 ∧ r.got = [65535] ∧ s.team? r.team = some plainTeam
      ∧ plainTeam.thread? r.tid = some plainThread ∧ (∀ l, l ∉ plainThread.absent) :=
  ⟨List.mem_singleton.mpr rfl, rfl, rfl, rfl, by decide, by decide, by intro l; exact (by decide : plainThread.absent = []) ▸ List.not_mem_nil⟩

theorem witness_CollectivesComplete : ∀ f ∈ [(rw_ 2).form [(rw_ 2).srcA 2, (rw_ 2).srcB 1] [(rw_ 2).dst 2], (rw_ 1 3).form [(rw_ 1).srcA 1] [],
      (rw_ 1 2).form [] [(rw_ 1).dst 1], scanForm (rw_ 6), form1 (rw_ 6 5) 1, (rw_ 1).form [] [(rw_ 1).dst 1]],
    OneGroup plain oneBundle plainTeam f [0] (issued plain plainTeam f [0]) (issuedTeam plain plainTeam f [0]) := by
  intro f m
  apply group_of
  revert f
  have h : ([(rw_ 2).form [(rw_ 2).srcA 2, (rw_ 2).srcB 1] [(rw_ 2).dst 2], (rw_ 1 3).form [(rw_ 1).srcA 1] [],
      (rw_ 1 2).form [] [(rw_ 1).dst 1], scanForm (rw_ 6), form1 (rw_ 6 5) 1, (rw_ 1).form [] [(rw_ 1).dst 1]].all
        fun f => isGroup plain oneBundle plainTeam f [0]) = true := by decide
  exact List.all_eq_true.mp h

/-- `Together` of the one bundle, as a test. -/
def isTogether (s : State) (b : Bundle) (t : Team) (f : Form) : Bool :=
  decide (s.issuer = some (b, t)) && decide ((if f.idle = true then some [b] else s.paired t b (b.idx t)) = some [b])
    && (match gate f t b.tids with
        | .pass => true
        | _ => false)
    && (t.pick b.tids).all (fun h => !h.singleStep) && b.tids.all (fun x => decide ((t.group (t.groupOf x)).next = none))

theorem together_of {s : State} {b : Bundle} {t : Team} {f : Form} (c : isTogether s b t f = true) : Together s b [b] t f := by
  simp only [isTogether, Bool.and_eq_true, decide_eq_true_eq, List.all_eq_true, Bool.not_eq_true'] at c
  have e : (([b] : List Bundle).map Bundle.tids).flatten = b.tids := by simp
  refine ⟨c.1.1.1.1, c.1.1.1.2, ?_, by rw [e]; exact c.1.2, by rw [e]; exact c.2⟩
  rw [e]
  have g := c.1.1.2
  split at g
  · assumption
  · cases g

/-- A bundle that may issue each of the forms, whose lane has nothing in flight. -/
theorem witness_ConversionsCollectivesAndFencesGoOn :
    (∀ f ∈ [convForm (rw_ 6 0x86), { convForm (rw_ 6 0x86 (rm := 6)) with ks := [56, 57, 58, 59, 60] },
        { form1 (rw_ 6) 1 with ks := (List.range 8).map (48 + ·) }, { (rw_ 1).form [(rw_ 1).srcA 1, (rw_ 1).srcB 2] [(rw_ 1).dst 1] with ks := [56, 57, 58, 59] },
        { (rw_ 1).form [] [(rw_ 1).dst 1] with long := true }, { form1 (rw_ 6 11) 1 with ks := (List.range 8).map (48 + ·) }, mw_.form [] [],
        { mw_.form [mw_.srcBase] [] with tok := tokenOf mw_.tk }, { (mw_ 1).form [] [] with tok := tokenOf (mw_ 1).tk },
        { (mw_ 1).form [(mw_ 1).srcBase] [] with tok := tokenOf (mw_ 1).tk }], Clear plain oneBundle plainTeam f)
    ∧ (∀ f ∈ [(rw_ 2).form [(rw_ 2).srcA 2, (rw_ 2).srcB 1] [(rw_ 2).dst 2], (rw_ 1 3).form [(rw_ 1).srcA 1] [],
        (rw_ 1 2).form [] [(rw_ 1).dst 1], scanForm (rw_ 6), { form1 (rw_ 6 11) 1 with ks := (List.range 8).map (48 + ·) },
        (rw_ 1).form [] [(rw_ 1).dst 1]], Together plain oneBundle [oneBundle] plainTeam f)
    ∧ Clear (drawn [5]) oneBundle plainTeam (convForm (rw_ 6 0x86 (rm := 5)))
    ∧ ((plainTeam.active (convForm (rw_ 6 0x86 (rm := 5))) [0]).all ((drawn [5]).drawsReady 1 1)) = true
    ∧ (sc10 (bitsOf (plainThread.reg 2).toNat 16 10)).isSome = true
    ∧ (plain.loadsRead 1 0 && !plain.seenOpen 1 0 && plain.quiet 1 0 && plain.outsideDone 1 0 && !plain.tableFull 0) = true
    ∧ plain.flight.ops = [] ∧ plainTeam.active { mw_.form [mw_.srcBase] [] with tok := tokenOf mw_.tk } [0] = [0] := by
  refine ⟨clear_all (by decide), fun f m => ?_, clear_of (by decide), by decide, by decide, by decide, rfl, by decide⟩
  have h : ([(rw_ 2).form [(rw_ 2).srcA 2, (rw_ 2).srcB 1] [(rw_ 2).dst 2], (rw_ 1 3).form [(rw_ 1).srcA 1] [],
      (rw_ 1 2).form [] [(rw_ 1).dst 1], scanForm (rw_ 6), { form1 (rw_ 6 11) 1 with ks := (List.range 8).map (48 + ·) },
      (rw_ 1).form [] [(rw_ 1).dst 1]].all (isTogether plain oneBundle plainTeam)) = true := by decide
  exact together_of (List.all_eq_true.mp h f m)

theorem witness_UniformRegistersComplete : (∀ f ∈ [kForm 20 [22] false, kForm 20 [22, 24] true, kForm 20 [] false,
        { iw_.form [] [iw_.dst 1] with bad := kSrcBad 2 false, ks := kRegs 2 false }], Clear plain oneBundle plainTeam f)
    ∧ (∃ s1 t1 h1, OneGroup plain oneBundle plainTeam { iw_.form [iw_.srcA 1] [] with bad := kDstBad 20 false, ks := kRegs 20 false } [0] s1 t1
        ∧ Converged plain oneBundle plainTeam [0] ∧ t1.thread? 0 = some h1) :=
  ⟨clear_all (by decide), ⟨_, _, plainThread, group_of (by decide), conv_of (by decide), by decide⟩⟩

/-- SREAD of a narrow and of a wide state; SWRITE of the timer, of a team's state, of a thread's own, and of one with a reserved bit. -/
theorem witness_NamedStates : (∀ n ∈ [0, 0x18], Clear plain oneBundle plainTeam
        { iw_.form [] [iw_.dst (if namedWide n then 2 else 1)] with bad := !isNamed n })
    ∧ (∀ n ∈ [0x17, 0x10, 0x1E, 0x13, 0x15], ∃ s1 t1 h1, Lane kernel oneBundle kernelTeam
        { iw_.form [iw_.srcA (if namedWide n then 2 else 1)] [] with priv := namedPrivileged n, bad := !namedWritable n } 0 s1 t1 h1)
    ∧ ([0x17, 0x10, 0x15].all fun n => !namedReserved n 0x10000) = true
    ∧ Solo plain oneBundle plainTeam { iw_.form [iw_.srcA 1] [] with priv := namedPrivileged 0x13, bad := !namedWritable 0x13 } 0 plainThread
    ∧ namedReserved 0x13 (plainThread.regsNat 2 1) = true := by
  refine ⟨?_, ?_, by decide, solo_of (by decide), by decide⟩
  · intro n m
    have h : ([0, 0x18].all fun n => isClear plain oneBundle plainTeam
        { iw_.form [] [iw_.dst (if namedWide n then 2 else 1)] with bad := !isNamed n }) = true := by decide
    exact clear_of (List.all_eq_true.mp h n m)
  · intro n m
    have h : ([0x17, 0x10, 0x1E, 0x13, 0x15].all fun n => isLane kernel oneBundle kernelTeam
        { iw_.form [iw_.srcA (if namedWide n then 2 else 1)] [] with priv := namedPrivileged n, bad := !namedWritable n } 0) = true := by decide
    exact ⟨_, _, _, lane_of (List.all_eq_true.mp h n m)⟩

/-- CTXEVICT of the team itself, with and without a save area, and of a handle that names none. -/
theorem witness_SystemStateCompletes : Clear kernel oneBundle kernelTeam { priv := true, ks := [22] }
    ∧ (kernel.handle? (kernelTeam.kreg 22)).isSome = true
    ∧ (∃ u v, u = (fun t : Team => { t with saveArea := some (0x20000, 0x10000) }) ∧ (one kernelThread u).handle? ((oneTeam kernelThread u).kreg 22) = some v
        ∧ v.saveArea.isSome = true)
    ∧ (∃ u, u = (fun t : Team => t.setK 22 9) ∧ (one kernelThread u).handle? ((oneTeam kernelThread u).kreg 22) = none
        ∧ Clear (one kernelThread u) oneBundle (oneTeam kernelThread u) { priv := true, ks := [22] })
    ∧ (∃ s1 t1 h1, Lane plain oneBundle plainTeam (iw_.form [] []) 0 s1 t1 h1)
    ∧ (∃ s1 t1 h1, Lane plain oneBundle plainTeam (iw_.form [iw_.srcA 2] []) 0 s1 t1 h1) :=
  ⟨clear_of (by decide), by decide, ⟨_, oneTeam kernelThread fun t => { t with saveArea := some (0x20000, 0x10000) }, rfl, by decide, by decide⟩,
    ⟨_, rfl, by decide, clear_of (by decide)⟩, ⟨_, _, _, lane_of (by decide)⟩, ⟨_, _, _, lane_of (by decide)⟩⟩

/-- A shoot-down not yet begun, and one that every unit has acknowledged; a context that is idle, and one that is not. -/
theorem witness_TlbinvAndMstartComplete : let f : Form := { priv := true, bad := kSrcBad 22 true, ks := kRegs 22 true ++ [24] }
    let x : Shoot := { id := 9, kind := 1, vas := [0], asid := 0, units := [], owner := some 2, clears := false }
    let s : State := { kernel with units := { kernel.units with shoots := [x] } }
    let p : Prompter := Prompter.fresh 0 0 1 0 0
    let m (p : Prompter) : State := { plain with mx := { plain.mx with ctxs := [p] } }
    Clear kernel oneBundle kernelTeam f ∧ (kernel.units.shoots.find? fun y => y.owner = some oneBundle.id) = none
    ∧ Clear s oneBundle kernelTeam f ∧ (s.units.shoots.find? fun y => y.owner = some oneBundle.id) = some x ∧ x.units = []
    ∧ Clear (m p) oneBundle plainTeam { bad := kSrcBad 22 true, ks := kRegs 22 true } ∧ (m p).allQuiet 1 [0] = true
    ∧ (m p).context? plainTeam = some p ∧ p.busy = false
    ∧ (let q : Prompter := Prompter.fresh 0 0 1 0x10000 0
       Clear (m q) oneBundle plainTeam { bad := kSrcBad 22 true, ks := kRegs 22 true } ∧ (m q).allQuiet 1 [0] = true
       ∧ (m q).context? plainTeam = some q ∧ q.busy = true ∧ plainTeam.thread? 0 = some plainThread) :=
  ⟨clear_of (by decide), by decide, clear_of (by decide), by decide, rfl, clear_of (by decide), by decide, by decide, by decide,
    clear_of (by decide), by decide, by decide, by decide, by decide⟩

/-- A header of class 0 with two instructions stands at 0x10000, and 8 bytes further its address. -/
def code (h : Thread → Thread) (u : Team → Team) : State := { one h u with mem := putLe (putLe [] 0x10000 8 0xF804000000000000) 0x10008 8 0x10000 }

/-- A dispatch table of one entry. -/
def tableTeam (t : Team) : Team := { t with launch := { t.launch with dtBase := 0x10008, dtLen := 1 } }

theorem witness_TransfersComplete :
    Solo (code atData id) oneBundle plainTeam (transferForm bw_ [] []) 0 plainThread
    ∧ Solo (code atData id) oneBundle plainTeam (transferForm bw_ [] [{ r := 6, n := 2 }]) 0 plainThread
    ∧ Solo (code atData id) oneBundle plainTeam (transferForm bw_ [spanA bw_ 2] []) 0 plainThread
    ∧ plainThread.pc + (bw_.off).signExtend 64 = 0x10000 ∧ plainThread.pair 2 = 0x10000
    ∧ (code atData id).targetStop (plainTeam.coreOf 0) plainTeam.asid plainThread.priv 0x10000 = none
    ∧ ((code atData id).pcSets plainTeam [0]).length < 64 ∧ (code atData id).callees = [] := by
  refine ⟨solo_of (by decide), solo_of (by decide), solo_of (by decide), by decide, by decide, by decide, by decide, rfl⟩

/-- The result of the checks of an access, as a test. -/
def isReach (r : Reached) (ps : List Part) (m : State) : Bool := match r with
  | (.ok (some q), n) => q = ps && n = m
  | _ => false

theorem reach_of {r : Reached} {ps : List Part} {m : State} (c : isReach r ps m = true) : r = (.ok (some ps), m) := by
  unfold isReach at c
  split at c
  · simp at c; rw [c.1, c.2]
  · cases c

theorem witness_TransfersComplete_table : ∃ p m, let s := code id tableTeam; let t := oneTeam id tableTeam; let h := (t.thread? 0).getD plainThread
    Solo s oneBundle t (transferForm (bw_ (a := 8)) [spanA (bw_ (a := 8)) 1] []) 0 h ∧ h.reg 8 < t.launch.dtLen
    ∧ s.quiet 1 0 = true ∧ s.coreBusy (t.coreOf 0) = false
    ∧ t.reachNow s h (t.launch.dtBase + 8 * (h.reg 8).setWidth 64) 8 {} = (.ok (some [p]), m)
    ∧ BitVec.ofNat 64 (m.readNat (t.coreOf 0) [p]).2 = 0x10000
    ∧ (m.readNat (t.coreOf 0) [p]).1.targetStop (t.coreOf 0) t.asid h.priv 0x10000 = none
    ∧ ((m.readNat (t.coreOf 0) [p]).1.pcSets t [0]).length < 64 ∧ (m.readNat (t.coreOf 0) [p]).1.callees = [] :=
  ⟨{ va := 0x10008, pa := 0x10008, key := 0x10008, len := 8, pos := 0, attr := 7 + 2 ^ 9, nc := false }, code id tableTeam,
    solo_of (by decide), by decide, by decide, by decide, reach_of (by decide +kernel), by decide +kernel, by decide +kernel, by decide +kernel,
    by decide +kernel⟩

/-- An index at the table's length, and a target that is no multiple of 8. -/
theorem witness_TransfersComplete_stops : let u (h : Thread) : Thread := h.setReg 2 1
    let t := oneTeam u tableTeam
    Solo (code u tableTeam) oneBundle t (transferForm bw_ [spanA bw_ 1] []) 0 ((t.thread? 0).getD plainThread)
    ∧ t.launch.dtLen ≤ ((t.thread? 0).getD plainThread).reg 2
    ∧ (code atData id).targetStop (plainTeam.coreOf 0) plainTeam.asid plainThread.priv (plainThread.pc + 4) = some trapBadTarget :=
  ⟨solo_of (by decide), by decide, by decide⟩

/-- A thread with a handler of its own, and one that is in it. -/
def handled (h : Thread) : Thread := { atData h with uhnd := 0x10000 }
def inHandler (h : Thread) : Thread := { handled h with tcause := BitVec.ofNat 32 (2 ^ 12), tepc := 0x10000 }

theorem witness_TrapsAreTaken : let f : Form := { bw_.form [] with ends := true }
    let fr : Form := { bw_.form [spanA bw_ 2] with dsts := [{ r := 4, n := 2 }], ends := true }
    let h := ((oneTeam handled id).thread? 0).getD plainThread
    Solo (code handled id) oneBundle (oneTeam handled id) f 0 h ∧ h.uhnd ≠ 0 ∧ h.tcause.getLsbD 12 = false
    ∧ (code handled id).targetStop ((oneTeam handled id).coreOf 0) (oneTeam handled id).asid h.priv h.uhnd = none
    ∧ (code handled id).targetStop ((oneTeam handled id).coreOf 0) (oneTeam handled id).asid h.priv 0x10004 = some trapBadTarget
    ∧ Solo (code handled id) oneBundle (oneTeam handled id) fr 0 h
    ∧ Solo plain oneBundle plainTeam f 0 plainThread ∧ ¬(plainThread.uhnd ≠ 0 ∧ plainThread.tcause.getLsbD 12 = false)
    ∧ Solo plain oneBundle plainTeam fr 0 plainThread
    ∧ Solo plain oneBundle plainTeam (bw_.form []) 0 plainThread ∧ plainThread.empty = [] ∧ plainThread.fpflags &&& plainThread.fpenable = 0
    ∧ (let e (h : Thread) : Thread := { h with fpflags := 64, fpenable := 64 }
       Solo (one e id) oneBundle (oneTeam e id) (bw_.form []) 0 (((oneTeam e id).thread? 0).getD plainThread)
       ∧ (((oneTeam e id).thread? 0).getD plainThread).fpflags &&& (((oneTeam e id).thread? 0).getD plainThread).fpenable ≠ 0) :=
  ⟨solo_of (by decide), by decide, by decide, by decide, by decide, solo_of (by decide), solo_of (by decide), by decide, solo_of (by decide),
    solo_of (by decide), by decide, by decide, solo_of (by decide), by decide⟩

theorem witness_TrapReturnCompletes : let t := oneTeam inHandler id; let h := (t.thread? 0).getD plainThread; let s := code inHandler id
    Solo s oneBundle t (transferForm bw_ [] []) 0 h ∧ Solo s oneBundle t (transferForm (bw_ 2) [spanA (bw_ 2) 2] []) 0 h
    ∧ h.tcause.getLsbD 12 = true ∧ h.tepc = 0x10000 ∧ h.pair 2 = 0x10000 ∧ s.targetStop (t.coreOf 0) t.asid h.priv 0x10000 = none
    ∧ (s.pcSets t [0]).length < 64 ∧ s.callees = []
    ∧ Solo plain oneBundle plainTeam (transferForm bw_ [] []) 0 plainThread ∧ plainThread.tcause.getLsbD 12 = false :=
  ⟨solo_of (by decide), solo_of (by decide), by decide, by decide, by decide, by decide, by decide, rfl, solo_of (by decide), by decide⟩

/-- RECON of a free slot and of an open one; YIELD; NAP with 0 and with 65536. -/
theorem witness_WaitsOfThreads : let f : Form := { bw_.form [] with ends := true }
    let u (t : Team) : Team := t.recordSlot 0 [0]
    let h := ((oneTeam atData u).thread? 0).getD plainThread
    Solo plain oneBundle plainTeam f 0 plainThread ∧ (((plainTeam.group (plainTeam.groupOf 0)).slots.find? fun y => y.1 = 0)) = none
    ∧ Solo (one atData u) oneBundle (oneTeam atData u) f 0 h
    ∧ ((((oneTeam atData u).group ((oneTeam atData u).groupOf 0)).slots.find? fun y => y.1 = 0)) ≠ none
    ∧ Clear plain oneBundle plainTeam f
    ∧ Solo plain oneBundle plainTeam { bw_.form [spanA bw_ 1] with ends := true } 0 plainThread ∧ plainThread.reg 2 ≠ 0
    ∧ Solo plain oneBundle plainTeam { bw_.form [spanA (bw_ (a := 8)) 1] with ends := true } 0 plainThread ∧ plainThread.reg 8 = 0 :=
  ⟨solo_of (by decide), by decide, solo_of (by decide), by decide, clear_of (by decide), solo_of (by decide), by decide, solo_of (by decide), by decide⟩

/-- A phase of barrier 3 has completed. -/
def phased (t : Team) : Team := t.updBarrier 3 fun x => { x with phase := 1 }

theorem witness_GroupOperationsComplete : let h0 : Thread := plainThread
    (∃ s1 t1, OneGroup plain oneBundle plainTeam (bw_.form []) [0] s1 t1) ∧ Converged plain oneBundle plainTeam [0] ∧ plain.allQuiet 1 [0] = true
    ∧ (plainTeam.threads.all fun h => h.wait ≠ .barrier 3) = true
    ∧ (∃ s1 t1, OneGroup plain oneBundle plainTeam { bw_.form [] with ends := true } [0] s1 t1)
    ∧ (plainTeam.barrier 3).phase.toNat ≤ (plainTeam.group 0).waitedPhase 3
    ∧ (∃ s1 t1, OneGroup (one atData phased) oneBundle (oneTeam atData phased) { bw_.form [] with ends := true } [0] s1 t1)
    ∧ ((oneTeam atData phased).group 0).waitedPhase 3 < ((oneTeam atData phased).barrier 3).phase.toNat
    ∧ (∃ s1 t1, OneGroup plain oneBundle plainTeam ((bw_ (a := 8)).form [spanA (bw_ (a := 8)) 1]) [0] s1 t1)
    ∧ plainTeam.thread? 0 = some h0 ∧ (h0.reg 8).toNat = 0 ∧ 64 < (h0.reg 2).toNat
    ∧ (let e (h : Thread) : Thread := h.setReg 8 64
       (∃ s1 t1, OneGroup (one e id) oneBundle (oneTeam e id) ((bw_ (a := 8)).form [spanA (bw_ (a := 8)) 1]) [0] s1 t1)
       ∧ ((((oneTeam e id).thread? 0).getD h0).reg 8).toNat = 64)
    ∧ 0 < plainTeam.launch.roles.length ∧ oneBundle.idx plainTeam + 1 < oneBundle.count ∧ plainTeam.launch.roles.length ≤ 1 :=
  ⟨⟨_, _, group_of (by decide)⟩, conv_of (by decide), by decide, by decide, ⟨_, _, group_of (by decide)⟩, by decide,
    ⟨_, _, group_of (by decide)⟩, by decide, ⟨_, _, group_of (by decide)⟩, by decide, by decide, by decide,
    ⟨⟨_, _, group_of (by decide)⟩, by decide⟩, by decide, by decide, by decide⟩

/-- The switch: every thread of the group that has not exited waits for role 0. -/
theorem witness_GroupOperationsComplete_switch : let u (h : Thread) : Thread := { h with wait := .role 0 }
    let t := oneTeam u id
    (one u id).team? t.id = some t ∧ t.launch.roles[0]? = some { entry := 0x10000, allot := 128, cls := 0 } ∧ 0 < t.groups.length
    ∧ (∃ h, t.thread? 0 = some h ∧ h.exited = false) ∧ t.groupOf 0 = 0
    ∧ ((t.groupThreads 0).all fun y => y.exited || (y.wait = .role 0 && y.empty = [] && y.absent = [] && !y.singleStep)) = true :=
  ⟨by decide, rfl, by decide, ⟨((oneTeam (fun h => { h with wait := .role 0 }) id).thread? 0).getD plainThread, by decide, by decide⟩, by decide, by decide⟩

/-- EXIT of a thread without and with a held room; a launch record at 0x10000, and one that is not at a multiple of 256; room in the
queue. -/
theorem witness_ExitsAndLaunches : let f : Form := { bw_.form [] with ends := true }
    let fl : Form := { bw_.form [spanA bw_ 2] with ends := true }
    let e (h : Thread) : Thread := { h with held := [{ desc := 0x20000, mode := 2, next := 0, left := 0 }] }
    let o (h : Thread) : Thread := h.setPair 2 0x10080
    Solo plain oneBundle plainTeam f 0 plainThread ∧ plainThread.held = []
    ∧ Solo (one e id) oneBundle (oneTeam e id) f 0 (((oneTeam e id).thread? 0).getD plainThread)
    ∧ (((oneTeam e id).thread? 0).getD plainThread).held ≠ []
    ∧ Solo plain oneBundle plainTeam fl 0 plainThread ∧ plain.quiet 1 0 = true ∧ (plainThread.pair 2).toNat % 256 = 0
    ∧ (plainTeam.threads.all fun y => y.wait = .ready) = true
    ∧ (∃ p ps m, plainTeam.reach plain plainThread (plainThread.pair 2) 256 {} = (.ok (some (p :: ps)), m)) ∧ plain.queued plainTeam.die < 4096
    ∧ Solo (one o id) oneBundle (oneTeam o id) fl 0 (((oneTeam o id).thread? 0).getD plainThread)
    ∧ ((((oneTeam o id).thread? 0).getD plainThread).pair 2).toNat % 256 ≠ 0 := by
  refine ⟨solo_of (by decide), by decide, solo_of (by decide), by decide, solo_of (by decide), by decide, by decide, by decide, ?_, by decide,
    solo_of (by decide), by decide⟩
  obtain ⟨p, ps, m, -, h, -⟩ := lands_of (m0 := plain) (t := plainTeam) (h := plainThread) (x := 0) (va := plainThread.pair 2) (n := 256)
    (k := {}) (ord := 0) (by decide +kernel)
  exact ⟨p, ps, m, h⟩

/-- The queue of a die when it holds 4,096 records. -/
theorem witness_ExitsAndLaunches_full : let k : Task := { die := 0, addr := 0, asid := 0, bytes := [], origin := .queue 0 0, cls := 0 }
    let s : State := { plain with dist := { plain.dist with tasks := List.replicate 4096 k } }
    4096 ≤ s.queued plainTeam.die := by decide +kernel

theorem witness_LoadsComplete : let f : Form := { (mw_).form ((mw_).srcBase :: (mw_).srcIndex) [(mw_).dst 1] with long := true }
    ∃ s1 t1 h1 p ps m, Lane plain oneBundle plainTeam f 0 s1 t1 h1 ∧ (s1.mayStart 1 0 0 = true ∧ s1.tableFull 0 = false)
      ∧ t1.reach s1 h1 (mw_.ea h1) 4 { align := 1 } = (.ok (some (p :: ps)), m) ∧ m.ioWaits 1 0 (p :: ps) = false := by
  intro f
  obtain ⟨p, ps, m, h1, h2, h3⟩ := lands_of (m0 := issued plain plainTeam f [0]) (t := issuedTeam plain plainTeam f [0])
    (h := issuedThread plain plainTeam f 0) (x := 0) (va := mw_.ea (issuedThread plain plainTeam f 0)) (n := 4) (k := { align := 1 })
    (ord := 0) (by decide)
  exact ⟨_, _, _, p, ps, m, lane_of (by decide), h1, h2, h3⟩

theorem witness_LoadsComplete_wide : let w := mw_ 3 (b := 20)
    let f : Form := { w.form (w.srcBase :: []) [w.dst 1] with long := true }
    let g : Form := { w.form [w.srcBase] (w.dst 2 :: [{ r := 20, n := 1 }]) with long := true }
    (∃ s1 t1 h1 p ps m, Lane plain oneBundle plainTeam f 0 s1 t1 h1 ∧ (s1.mayStart 1 0 0 = true ∧ s1.tableFull 0 = false)
      ∧ t1.reach s1 h1 (w.eaPlain h1) 8 { align := 8 } = (.ok (some (p :: ps)), m) ∧ m.ioWaits 1 0 (p :: ps) = false)
    ∧ (∃ s1 t1 h1 p ps m, Lane plain oneBundle plainTeam g 0 s1 t1 h1 ∧ (s1.mayStart 1 0 0 = true ∧ s1.tableFull 0 = false)
      ∧ t1.reach s1 h1 (w.eaPlain h1) 8 { align := 8, ncStop := true, noHost := true } = (.ok (some (p :: ps)), m)
      ∧ m.ioWaits 1 0 (p :: ps) = false) := by
  intro w f g
  obtain ⟨p, ps, m, h1, h2, h3⟩ := lands_of (m0 := issued plain plainTeam f [0]) (t := issuedTeam plain plainTeam f [0])
    (h := issuedThread plain plainTeam f 0) (x := 0) (va := w.eaPlain (issuedThread plain plainTeam f 0)) (n := 8) (k := { align := 8 })
    (ord := 0) (by decide)
  obtain ⟨p', ps', m', h1', h2', h3'⟩ := lands_of (m0 := issued plain plainTeam g [0]) (t := issuedTeam plain plainTeam g [0])
    (h := issuedThread plain plainTeam g 0) (x := 0) (va := w.eaPlain (issuedThread plain plainTeam g 0)) (n := 8)
    (k := { align := 8, ncStop := true, noHost := true }) (ord := 0) (by decide)
  exact ⟨⟨_, _, _, p, ps, m, lane_of (by decide), h1, h2, h3⟩, ⟨_, _, _, p', ps', m', lane_of (by decide), h1', h2', h3'⟩⟩

/-- A `Found` that is found and passes a test. -/
def finds {α : Type} (r : Found α) (p : α → State → Bool) : Bool := match r with
  | .got a m => p a m
  | _ => false

theorem finds_of {α : Type} {r : Found α} {p : α → State → Bool} (c : finds r p = true) : ∃ a m, r = .got a m ∧ p a m = true := by
  unfold finds at c
  split at c
  · exact ⟨_, _, rfl, c⟩
  · cases c

/-- A volume of 8 x 8 x 8 elements of 4 bytes, whose descriptor the core holds; its tile at 0x10000 where `tile` says so, and otherwise none. -/
def volume (tile : Bool) : State :=
  let b := toBytes 8 0x10000 ++ toBytes 4 8 ++ toBytes 4 8 ++ toBytes 4 8 ++ toBytes 4 2 ++ List.replicate 104 0
  { plain with units := { plain.units with
      volumes := [(0, 0, 0x10000, b)]
      clb := if tile then [{ core := 0, asid := 0, desc := 0x10000, tile := 0, addr := 0x10000 }] else [] } }

/-- A tile, and the background of one that is absent. -/
theorem witness_LoadsComplete_volume : let w := mw_ 2 (b := 8)
    let f : Form := { w.form (w.srcBase :: mCoords w) [w.dst 1] with long := true, quad := some 8 }
    (∃ s1 t1 h1 c m0, Lane (volume true) oneBundle plainTeam f 0 s1 t1 h1 ∧ s1.quiet 1 0 = true ∧ locate w t1 h1 s1 = .got c m0
      ∧ ∃ a p ps m, c.tree = .tile a ∧ (m0.mayStart 1 0 0 = true ∧ m0.tableFull 0 = false)
        ∧ t1.reach m0 h1 (a + BitVec.ofNat 64 c.off) c.vol.size { align := c.vol.size, ncStop := true } = (.ok (some (p :: ps)), m)
        ∧ m.ioWaits 1 0 (p :: ps) = false)
    ∧ (∃ s1 t1 h1 c m0, Lane (volume false) oneBundle plainTeam f 0 s1 t1 h1 ∧ s1.quiet 1 0 = true ∧ locate w t1 h1 s1 = .got c m0
      ∧ ∃ k a, c.tree = .absent k a) := by
  intro w f
  obtain ⟨c, m0, e, h⟩ := finds_of (r := locate w (issuedTeam (volume true) plainTeam f [0]) (issuedThread (volume true) plainTeam f 0)
      (issued (volume true) plainTeam f [0]))
    (p := fun c m0 => match c.tree with
      | .tile a => lands m0 (issuedTeam (volume true) plainTeam f [0]) (issuedThread (volume true) plainTeam f 0) 0 (a + BitVec.ofNat 64 c.off)
          c.vol.size { align := c.vol.size, ncStop := true } 0
      | _ => false) (by decide)
  obtain ⟨c', m0', e', h'⟩ := finds_of (r := locate w (issuedTeam (volume false) plainTeam f [0]) (issuedThread (volume false) plainTeam f 0)
      (issued (volume false) plainTeam f [0]))
    (p := fun c _ => match c.tree with
      | .absent _ _ => true
      | _ => false) (by decide +kernel)
  refine ⟨⟨_, _, _, c, m0, lane_of (by decide), by decide, e, ?_⟩, ⟨_, _, _, c', m0', lane_of (by decide), by decide, e', ?_⟩⟩
  · split at h
    · rename_i a ht
      obtain ⟨p, ps, m, h1, h2, h3⟩ := lands_of h
      exact ⟨a, p, ps, m, ht, issued_at (by decide) (by decide) h1, h2, h3⟩
    · cases h
  · split at h'
    · rename_i k a ht
      exact ⟨k, a, ht⟩
    · cases h'

/-- A lane whose access at `va` reaches its bytes. -/
def laneLands (s : State) (t : Team) (f : Form) (va : Thread → W64) (n : Nat) (k : Ask) : Bool :=
  isLane s oneBundle t f 0
    && lands (issued s t f [0]) (issuedTeam s t f [0]) (issuedThread s t f 0) 0 (va (issuedThread s t f 0)) n k 0
    && decide ((issuedTeam s t f [0]).id = 1) && decide ((issuedTeam s t f [0]).coreOf 0 = 0)

theorem laneLands_of {s : State} {t : Team} {f : Form} {va : Thread → W64} {n : Nat} {k : Ask} (c : laneLands s t f va n k = true) :
    ∃ s1 t1 h1 p ps m, Lane s oneBundle t f 0 s1 t1 h1 ∧ (s1.mayStart 1 0 0 = true ∧ s1.tableFull 0 = false) ∧ t1.reach s1 h1 (va h1) n k = (.ok (some (p :: ps)), m)
      ∧ m.ioWaits 1 0 (p :: ps) = false := by
  simp only [laneLands, Bool.and_eq_true, decide_eq_true_eq] at c
  obtain ⟨p, ps, m, h1, h2, h3⟩ := lands_of c.1.1.2
  rw [c.1.2, c.2] at h1
  rw [c.1.2] at h3
  exact ⟨_, _, _, p, ps, m, lane_of c.1.1.1, h1, h2, h3⟩

/-- ST; STVOL with its tile, and before it has one. -/
theorem witness_StoresComplete : let w := mw_ (tk := 2)
    let v := mw_ 2 (b := 8)
    (∃ s1 t1 h1 p ps m, Lane plain oneBundle plainTeam { w.form ([w.srcBase] ++ w.srcIndex ++ [w.srcData 1]) [] with tok := tokenOf w.tk } 0 s1 t1 h1
      ∧ (s1.mayStart 1 0 0 = true ∧ s1.tableFull 0 = false) ∧ t1.reach s1 h1 (w.ea h1) 4 { use := .write, align := 1 } = (.ok (some (p :: ps)), m)
      ∧ m.ioWaits 1 0 (p :: ps) = false)
    ∧ ((∃ s1 t1 h1, Lane (volume false) oneBundle plainTeam (stvolForm v) 0 s1 t1 h1) ∧ (volume false).quiet 1 0 = true
      ∧ ∃ a, needsTile v plainTeam (volume false) 0 = some a)
    ∧ (∃ s1 t1 h1 c m0, Lane (volume true) oneBundle plainTeam (stvolForm v) 0 s1 t1 h1 ∧ (volume true).quiet 1 0 = true
      ∧ needsTile v plainTeam (volume true) 0 = none ∧ (volume true).units.allocs = [] ∧ locate v t1 h1 s1 = .got c m0
      ∧ ∃ a p ps m, c.tree = .tile a ∧ (m0.mayStart 1 0 0 = true ∧ m0.tableFull 0 = false)
        ∧ t1.reach m0 h1 (a + BitVec.ofNat 64 c.off) c.vol.size { use := .write, align := c.vol.size, ncStop := true } = (.ok (some (p :: ps)), m)
        ∧ m.ioWaits 1 0 (p :: ps) = false) := by
  intro w v
  obtain ⟨c, m0, e, h⟩ := finds_of (r := locate v (issuedTeam (volume true) plainTeam (stvolForm v) [0])
      (issuedThread (volume true) plainTeam (stvolForm v) 0) (issued (volume true) plainTeam (stvolForm v) [0]))
    (p := fun c m0 => match c.tree with
      | .tile a => lands m0 (issuedTeam (volume true) plainTeam (stvolForm v) [0]) (issuedThread (volume true) plainTeam (stvolForm v) 0) 0
          (a + BitVec.ofNat 64 c.off) c.vol.size { use := .write, align := c.vol.size, ncStop := true } 0
      | _ => false) (by decide)
  refine ⟨laneLands_of (va := fun h => w.ea h) (by decide), ⟨⟨_, _, _, lane_of (by decide)⟩, by decide, ?_⟩,
    ⟨_, _, _, c, m0, lane_of (by decide), by decide, by decide +kernel, rfl, e, ?_⟩⟩
  · exact Option.isSome_iff_exists.mp (by decide +kernel)
  · split at h
    · rename_i a ht
      obtain ⟨p, ps, m, h1, h2, h3⟩ := lands_of h
      exact ⟨a, p, ps, m, ht, issued_at (by decide) (by decide) h1, h2, h3⟩
    · cases h

/-- A request of thread 0 for the word at 0x10000, and its operation. -/
def aReq (k : ReqKind) (st : Stage) : Req :=
  { id := 6, op := 5, team := 1, tid := 0, core := 0, kind := k, pa := 0x10000, len := 4, data := [1, 2, 3, 4], cmp := [0, 0, 0, 0], pos := 0, ord := 0,
    sc := 4, nc := false, cm := 0, va := 0x10000, asid := 0, batch := 3, stage := st, paths := [] }

def anOp (k : OpKind) : Op := { id := 5, team := 1, tid := 0, core := 0, kind := k, dst := 10, tok := none, bytes := 4, flags := 0 }

def asking (o : OpKind) (k : ReqKind) (st : Stage) : State :=
  { plain with flight := { plain.flight with ops := [anOp o], reqs := [aReq k st] } }

/-- STVOL of a lane that has been given its tile. -/
theorem witness_StoresComplete_answered : let v := mw_ 2 (b := 8)
    let r : Alloc := { id := 9, team := 1, tid := 0, desc := 0x10000, tx := 0, ty := 0, tz := 0, answer := some (.tile 0x10000) }
    let s : State := { volume false with units := { (volume false).units with allocs := [r] } }
    (∃ s1 t1 h1, Lane s oneBundle plainTeam (stvolForm v) 0 s1 t1 h1 ∧ s.quiet 1 0 = true ∧ s.alloc? 1 0 = some r
      ∧ ∃ c m0, locate v t1 h1 (s1.dropAlloc 1 0) = .got c m0 ∧ (∃ k ptr, c.tree = .absent k ptr)
        ∧ ∃ p ps m, (m0.mayStart 1 0 0 = true ∧ m0.tableFull 0 = false)
          ∧ t1.reach m0 h1 (0x10000 + BitVec.ofNat 64 c.off) c.vol.size { use := .write, align := c.vol.size, ncStop := true }
            = (.ok (some (p :: ps)), m) ∧ m.ioWaits 1 0 (p :: ps) = false) := by
  intro v r s
  let t1 := issuedTeam s plainTeam (stvolForm v) [0]
  let h1 := issuedThread s plainTeam (stvolForm v) 0
  obtain ⟨c, m0, e, h⟩ := finds_of (r := locate v t1 h1 ((issued s plainTeam (stvolForm v) [0]).dropAlloc 1 0))
    (p := fun c m0 => (match c.tree with
      | .absent _ _ => true
      | _ => false) && lands m0 t1 h1 0 (0x10000 + BitVec.ofNat 64 c.off) c.vol.size { use := .write, align := c.vol.size, ncStop := true } 0)
    (by decide +kernel)
  rw [Bool.and_eq_true] at h
  obtain ⟨p, ps, m, g1, g2, g3⟩ := lands_of h.2
  refine ⟨_, _, _, lane_of (by decide), by decide, rfl, c, m0, e, ?_, p, ps, m, issued_at (by decide) (by decide) g1, g2, g3⟩
  have g := h.1
  split at g
  · exact ⟨_, _, by assumption⟩
  · cases g

/-- Offset 0x10000 lies beyond the allocation, 4092 is its last word, 2 is misaligned. -/
theorem witness_ScratchpadCompletes : let last (h : Thread) : Thread := h.setPair 2 4092
    let odd (h : Thread) : Thread := h.setPair 2 2
    let t := oneTeam last id
    let s := one last id
    let w := mw_
    let f : Form := { w.form (w.srcBase :: w.srcIndex) [w.dst 1] with long := true }
    let g : Form := { w.form ([w.srcBase] ++ w.srcIndex ++ [w.srcData 1]) [] with tok := none }
    let a : Form := { w.form ([w.srcBase, w.srcB 1] ++ []) [w.dst 1] with long := true }
    Lane s oneBundle t f 0 (issued s t f [0]) (issuedTeam s t f [0]) (issuedThread s t f 0)
    ∧ (w.ea (issuedThread s t f 0)).toNat % 4 = 0 ∧ (w.ea (issuedThread s t f 0)).toNat + 4 ≤ t.launch.spadBytes
    ∧ (issued s t f [0]).mayStart 1 0 0 = true ∧ (issued s t f [0]).loadsRead 1 0 = true ∧ (issued s t f [0]).storesSent 1 0 = true
    ∧ Lane s oneBundle t g 0 (issued s t g [0]) (issuedTeam s t g [0]) (issuedThread s t g 0)
    ∧ Lane s oneBundle t a 0 (issued s t a [0]) (issuedTeam s t a [0]) (issuedThread s t a 0)
    ∧ Solo plain oneBundle plainTeam f 0 plainThread ∧ plain.mayStart 1 0 0 = true ∧ plain.loadsRead 1 0 = true
    ∧ plainTeam.launch.spadBytes ≤ (w.ea plainThread).toNat
    ∧ Solo (one odd id) oneBundle (oneTeam odd id) f 0 (((oneTeam odd id).thread? 0).getD plainThread)
    ∧ (w.ea (((oneTeam odd id).thread? 0).getD plainThread)).toNat = 2
    ∧ ((issued s t f [0]).seenQueued 1 0 = false ∧ (issued s t f [0]).seenOpen 1 0 = false
      ∧ (issued s t f [0]).forwards 1 0 (w.ea (issuedThread s t f 0)).toNat 4 = [] ∧ s.forwardsFull 0 = false)
    ∧ (plain.seenQueued 1 0 = false ∧ plain.forwards 1 0 (w.ea plainThread).toNat 4 = [])
    ∧ (let r := { aReq .sts .queued with ord := 0 }
       let q : State := { asking .sts .sts .queued with flight := { (asking .sts .sts .queued).flight with reqs := [r] } }
       q.team? 1 = some plainTeam ∧ r.kind = .sts ∧ q.op? r.op = some (anOp .sts)
       ∧ (q.flight.reqs.filter fun x => x.team = 1 && x.inQueue) = [r] ∧ q.storeWaits r = false) :=
  ⟨lane_of (by decide), by decide, by decide, by decide, by decide, by decide, lane_of (by decide), lane_of (by decide), solo_of (by decide),
    by decide, by decide, by decide, solo_of (by decide), by decide, ⟨by decide, by decide, by decide, by decide⟩, ⟨by decide, by decide⟩,
    ⟨by decide, rfl, by decide, by decide, by decide⟩⟩

/-- A thread whose page is not present: pair x8 is 0. -/
theorem witness_FencesAndCacheControlComplete : let w := mw_
    let z := mw_ (a := 8)
    let f : Form := { w.form [w.srcBase] [] with tok := tokenOf w.tk }
    let fz : Form := { z.form [z.srcBase] [] with tok := tokenOf z.tk }
    (∃ s1 t1 h1, Lane plain oneBundle plainTeam (w.form [] []) 0 s1 t1 h1) ∧ plain.quiet 1 0 = true ∧ plain.outsideDone 1 0 = true
    ∧ (plain.loadsRead 1 0 = true ∧ plain.seenOpen 1 0 = false) ∧ plain.reqsOf 1 0 = [] ∧ plain.flight.ops = []
    ∧ Lane plain oneBundle plainTeam f 0 (issued plain plainTeam f [0]) (issuedTeam plain plainTeam f [0]) (issuedThread plain plainTeam f 0)
    ∧ (∃ a m, checkAccess (issued plain plainTeam f [0]) 0 0 false 0x10000 1 .read = (.ok a, m)
        ∧ (attrTi a.attr || nonCoherent m 0 0 0x10000 a.pa || isLost m a.pa) = false ∧ m.tableFull 0 = false)
    ∧ Lane plain oneBundle plainTeam fz 0 (issued plain plainTeam fz [0]) (issuedTeam plain plainTeam fz [0]) (issuedThread plain plainTeam fz 0)
    ∧ (∃ e m, checkAccess (issued plain plainTeam fz [0]) 0 0 false 0 1 .read = (.error e, m))
    ∧ (issued plain plainTeam f [0]).quiet 1 0 = true
    ∧ (∃ s1 t1 h1, Lane plain oneBundle plainTeam { (mw_ 1).form [] [] with tok := none } 0 s1 t1 h1)
    ∧ (∃ s1 t1 h1, Lane plain oneBundle plainTeam { (mw_ 0).form ((mw_ 0).srcBase :: mCoords (mw_ 0)) [] with tok := none } 0 s1 t1 h1) := by
  refine ⟨⟨_, _, _, lane_of (by decide)⟩, by decide, by decide, by decide, by decide, by decide, lane_of (by decide), ?_, lane_of (by decide), ?_,
    by decide, ⟨_, _, _, lane_of (by decide)⟩, ⟨_, _, _, lane_of (by decide)⟩⟩
  · have h : (match checkAccess (issued plain plainTeam { (mw_).form [(mw_).srcBase] [] with tok := tokenOf (mw_).tk } [0]) 0 0 false 0x10000 1 .read with
      | (.ok a, m) => !(attrTi a.attr || nonCoherent m 0 0 0x10000 a.pa || isLost m a.pa) && !m.tableFull 0
      | _ => false) = true := by decide
    split at h
    · rename_i a m e
      rw [Bool.and_eq_true, Bool.not_eq_true', Bool.not_eq_true'] at h
      exact ⟨a, m, e, h.1, h.2⟩
    · cases h
  · have h : (match checkAccess (issued plain plainTeam { (mw_ (a := 8)).form [(mw_ (a := 8)).srcBase] [] with tok := tokenOf (mw_ (a := 8)).tk } [0])
        0 0 false 0 1 .read with
      | (.error e, _) => e.code = trapPageFault || e.code = trapAccess
      | _ => false) = true := by decide +kernel
    split at h
    · rename_i e m he
      exact ⟨e, m, he⟩
    · cases h

/-- VOLINV of a tile inside the volume, and of one outside. -/
theorem witness_FencesAndCacheControlComplete_volinv : ∀ n ∈ [7, 8], let w := mw_ 0 1 (b := 8)
    let f : Form := { w.form (w.srcBase :: mCoords w) [] with tok := none }
    let e (h : Thread) : Thread := (atData h).setReg 8 (BitVec.ofNat 32 n)
    let s : State := { volume true with teams := [oneTeam e id] }
    ∃ s1 t1 h1, Lane s oneBundle (oneTeam e id) f 0 s1 t1 h1 ∧ s1.quiet 1 0 = true ∧ (h1.reg 8).toNat = n
      ∧ ∃ d m, volumeRead t1 h1 s1 0x10000 = .got d m ∧ ((volumeOf d).any fun v => decide (v.dimX = 8)) = true := by
  intro n m w f e s
  have h : ([7, 8].all fun n =>
      let e (h : Thread) : Thread := (atData h).setReg 8 (BitVec.ofNat 32 n)
      let s : State := { volume true with teams := [oneTeam e id] }
      let s1 := issued s (oneTeam e id) f [0]
      isLane s oneBundle (oneTeam e id) f 0 && s1.quiet 1 0 && decide (((issuedThread s (oneTeam e id) f 0).reg 8).toNat = n)
        && finds (volumeRead (issuedTeam s (oneTeam e id) f [0]) (issuedThread s (oneTeam e id) f 0) s1 0x10000)
            fun d _ => (volumeOf d).any fun v => decide (v.dimX = 8)) = true := by decide
  have c := List.all_eq_true.mp h n m
  simp only [Bool.and_eq_true, decide_eq_true_eq] at c
  exact ⟨_, _, _, lane_of c.1.1.1, c.1.1.2, c.1.2, finds_of c.2⟩

/-- A translation that ends at an invalid entry; a store on its way that a WACK to system scope waits for; a copy of the host port that has
been modified. -/
theorem witness_FencesAndCacheControlComplete_more : let z := mw_ 2 (a := 8)
    let f : Form := { z.form [z.srcBase] [] with tok := tokenOf z.tk }
    let s : State := { plain with ctl := plain.ctl.setReg 8 0x10000 }
    let o : Op := { id := 5, team := 1, tid := 0, core := 0, kind := .store, dst := 0, tok := none, bytes := 4, flags := 0 }
    let p : State := { plain with flight := { plain.flight with ops := [o] } }
    (∃ e m, checkAccess (issued s plainTeam f [0]) 0 0 false 0 1 .read = (.error e, m) ∧ e.code = trapPageFault)
    ∧ (∃ s1 t1 h1, Lane s oneBundle plainTeam f 0 s1 t1 h1) ∧ (issued s plainTeam f [0]).quiet 1 0 = true
    ∧ (∃ s1 t1 h1, Lane p oneBundle plainTeam ((mw_ 0 5).form [] []) 0 s1 t1 h1)
    ∧ o ∈ p.flight.ops ∧ o.kind.acked = true ∧ 2 < (mw_ 0 5).sc.toNat
    ∧ (∃ c : Coh, c = plain.coh.setCopy { who := .hostPort, line := 0x10000, st := .m, data := [] } ∧
        ∃ k, c.copy? .hostPort 0x10000 = some k ∧ k.modified = true) := by
  refine ⟨?_, ⟨_, _, _, lane_of (by decide)⟩, by decide, ⟨_, _, _, lane_of (by decide)⟩, List.mem_singleton.mpr rfl, by decide, by decide,
    ⟨_, rfl, { who := .hostPort, line := 0x10000, st := .m, data := [] }, by decide, by decide⟩⟩
  have h : (match checkAccess (issued { plain with ctl := plain.ctl.setReg 8 0x10000 } plainTeam
        { (mw_ 2 (a := 8)).form [(mw_ 2 (a := 8)).srcBase] [] with tok := tokenOf (mw_ 2 (a := 8)).tk } [0]) 0 0 false 0 1 .read with
      | (.error e, _) => decide (e.code = trapPageFault)
      | _ => false) = true := by decide +kernel
  split at h
  · rename_i e m he
    exact ⟨e, m, he, by simpa using h⟩
  · cases h

/-- The result of a CAS4's checks, as a test. -/
def casLands (x : Except Stop (Option (List (CasEntry × Part))) × State) : Bool := match x with
  | (.ok (some [q]), m) => !m.ioWaits 1 0 [q.2]
  | _ => false

theorem casLands_of {x : Except Stop (Option (List (CasEntry × Part))) × State} (c : casLands x = true) :
    ∃ q m, x = (.ok (some [q]), m) ∧ m.ioWaits 1 0 [q.2] = false := by
  unfold casLands at c
  split at c
  · exact ⟨_, _, rfl, by simpa using c⟩
  · cases c

/-- A scratchpad whose first 16 bytes name 16 bytes at 0x10000 under tag 0. -/
def casTeam (t : Team) : Team := (t.spadPut 0 (toBytes 8 0x10000)).spadPut 8 (toBytes 8 (2 ^ 32 * 16))
def casWord : MWord := mw_ 0 (a := 0) (b := 8)
def casForm : Form := { casWord.form [casWord.srcB 1] [casWord.dst 1] with long := true }

/-- A compare-and-swap of 8 bytes and a reduction of 4; CAS4 of one entry. -/
theorem witness_AtomicsComplete : let w := rw_ 3 8
    let r := rw_ 0 0 (d := 0) (tk := 3)
    let t := oneTeam atData casTeam
    let s := one atData casTeam
    (∃ s1 t1 h1 p ps m, Lane plain oneBundle plainTeam { w.form ([w.srcA 2, w.srcB 2] ++ [w.srcC 2]) [w.dst 2] with long := true } 0 s1 t1 h1
      ∧ (s1.mayStart 1 0 0 = true ∧ s1.tableFull 0 = false) ∧ t1.reach s1 h1 (h1.pair 2) 8 { use := .rmw, align := 8, ac := some (rmwAc 8) } = (.ok (some (p :: ps)), m)
      ∧ m.ioWaits 1 0 (p :: ps) = false)
    ∧ (∃ s1 t1 h1 p ps m, Lane plain oneBundle plainTeam { r.form [r.srcA 2, r.srcB 1] [] with tok := tokenOf r.tk } 0 s1 t1 h1
      ∧ (s1.mayStart 1 0 0 = true ∧ s1.tableFull 0 = false) ∧ t1.reach s1 h1 (h1.pair 2) 4 { use := .rmw, align := 4, ac := some (rmwAc 0) } = (.ok (some (p :: ps)), m)
      ∧ m.ioWaits 1 0 (p :: ps) = false)
    ∧ Lane s oneBundle t casForm 0 (issued s t casForm [0]) (issuedTeam s t casForm [0]) (issuedThread s t casForm 0)
    ∧ ((issuedThread s t casForm 0).reg 8).toNat = 0 ∧ (casEntry (issuedTeam s t casForm [0]) 0 0).ok = true
    ∧ ((issued s t casForm [0]).mayStart 1 0 0 = true ∧ (issued s t casForm [0]).storesSent 1 0 = true
      ∧ (issued s t casForm [0]).tableFull 0 = false)
    ∧ (∃ q m, casReach (issuedTeam s t casForm [0]) (issuedThread s t casForm 0) (issued s t casForm [0])
          [casEntry (issuedTeam s t casForm [0]) 0 0] = (.ok (some [q]), m) ∧ m.ioWaits 1 0 [q.2] = false) :=
  ⟨laneLands_of (va := fun h => h.pair 2) (by decide), laneLands_of (va := fun h => h.pair 2) (by decide), lane_of (by decide), by decide,
    by decide, by decide, casLands_of (by decide +kernel)⟩

/-- A list of one element whose index is 0, with its value at offset 64. -/
def listThread (h : Thread) : Thread := ((atData h).setReg 9 1).setReg 10 64
def listS : State := one listThread id
def listT : Team := oneTeam listThread id

/-- The result of a list's checks, as a test. -/
def listLands (x : List (Nat × List Part) × ListEnd × State) : Bool := match x with
  | (e :: l, .all, m) => !((e :: l).any fun y => m.ioWaits 1 0 y.2)
  | _ => false

theorem listLands_of {x : List (Nat × List Part) × ListEnd × State} (c : listLands x = true) :
    ∃ e l m, x = (e :: l, .all, m) ∧ ((e :: l).any fun y => m.ioWaits 1 0 y.2) = false := by
  unfold listLands at c
  split at c
  · exact ⟨_, _, _, rfl, by simpa using c⟩
  · cases c

theorem witness_ListOperationsComplete : let w := mw_ (b := 8) (d := 20)
    let g : Form := { listForm w [w.dst 1] with long := true }
    let f : Form := { listForm w [] with tok := tokenOf w.tk }
    let a (use : Use) (ac : Option Nat) : ListArgs := { size := 4, base := 0x10000, use := use, ac := ac, list := 0 }
    Lane listS oneBundle listT g 0 (issued listS listT g [0]) (issuedTeam listS listT g [0]) (issuedThread listS listT g 0)
    ∧ Lane listS oneBundle listT f 0 (issued listS listT f [0]) (issuedTeam listS listT f [0]) (issuedThread listS listT f 0)
    ∧ ((issuedThread listS listT g 0).reg 9).toNat = 1 ∧ (issuedThread listS listT g 0).prog = 0 ∧ (issued listS listT g [0]).quiet 1 0 = true
    ∧ ((issued listS listT g [0]).acqPending 1 0 = false ∧ (issued listS listT g [0]).tableFull 0 = false)
    ∧ (∃ e l m, listFrom (a .read none) (issuedTeam listS listT g [0]) (issuedThread listS listT g 0) (issued listS listT g [0]) 0 1 = (e :: l, .all, m)
        ∧ ((e :: l).any fun y => m.ioWaits 1 0 y.2) = false)
    ∧ (∃ e l m, listFrom (a .write none) (issuedTeam listS listT f [0]) (issuedThread listS listT f 0) (issued listS listT f [0]) 0 1
          = (e :: l, .all, m) ∧ ((e :: l).any fun y => m.ioWaits 1 0 y.2) = false)
    ∧ (listAc (a .rmw (some 9)) (issuedTeam listS listT f [0]) (issuedThread listS listT f 0) (issued listS listT f [0]) 0 1).1.isNone = true
    ∧ (∃ e l m, listFrom (a .rmw (some 9)) (issuedTeam listS listT f [0]) (issuedThread listS listT f 0)
          (listAc (a .rmw (some 9)) (issuedTeam listS listT f [0]) (issuedThread listS listT f 0) (issued listS listT f [0]) 0 1).2 0 1
          = (e :: l, .all, m) ∧ ((e :: l).any fun y => m.ioWaits 1 0 y.2) = false) :=
  ⟨lane_of (by decide), lane_of (by decide), by decide, by decide, by decide, by decide, listLands_of (by decide +kernel),
    listLands_of (by decide +kernel), by decide +kernel, listLands_of (by decide +kernel)⟩

/-- A line flushed; a region switched under an address space that uses REGMODE; a LOST line reclaimed from scratchpad offset 0. -/
def flushForm : Form := { (mw_ (b := 8)).form [(mw_ (b := 8)).srcBase, (mw_ (b := 8)).srcB 1] [] with tok := none }
def flushThread (h : Thread) : Thread := (atData h).setReg 8 128
def reclaimForm : Form := { flushForm with priv := true }
def regmodeForm : Form := { (mw_).form [(mw_).srcBase] [] with tok := none, priv := true }
def managing : State := { kernel with units := { kernel.units with windows := [(0, 0, [1])] } }
def losing : State := { kernel with coh := { kernel.coh with lost := [0x10000] } }

def lineLands (x : Except Stop (List Nat) × State) : Bool := match x with
  | (.ok [_], m) => decide (m.coh.txns = [])
  | _ => false

def pageLands (x : Except Stop Xlat × State) : Bool := match x with
  | (.ok a, m) => decide (spaceOf m.ctl a.pa = .device) && decide (m.coh.txns = [])
  | _ => false

theorem witness_RegionOperationsComplete : let s := one flushThread id
    let t := oneTeam flushThread id
    Lane s oneBundle t flushForm 0 (issued s t flushForm [0]) (issuedTeam s t flushForm [0]) (issuedThread s t flushForm 0)
    ∧ (issued s t flushForm [0]).quiet 1 0 = true ∧ ((issuedThread s t flushForm 0).reg 8).toNat = 128 ∧ canonical 0x10000 = true
    ∧ (∃ l m, flushLines (issuedTeam s t flushForm [0]) (issuedThread s t flushForm 0) (issued s t flushForm [0]) 0x10000 1 = (.ok [l], m) ∧ m.coh.txns = [])
    ∧ Lane managing oneBundle kernelTeam regmodeForm 0 (issued managing kernelTeam regmodeForm [0]) (issuedTeam managing kernelTeam regmodeForm [0])
        (issuedThread managing kernelTeam regmodeForm 0)
    ∧ regmodeUsed (issued managing kernelTeam regmodeForm [0]) 0 0 = true
    ∧ (∃ a m, checkAccess (issued managing kernelTeam regmodeForm [0]) 0 0 true 0x10000 1 .read = (.ok a, m) ∧ spaceOf m.ctl a.pa = .device
        ∧ m.coh.txns = [])
    ∧ (∃ s1 t1 h1 p ps m, Lane losing oneBundle kernelTeam reclaimForm 0 s1 t1 h1
      ∧ (s1.mayStart 1 0 0 = true ∧ s1.tableFull 0 = false) ∧ t1.reach s1 h1 ((mw_ (b := 8)).eaPlain h1) 128 { use := .write, align := 128, reclaim := true }
          = (.ok (some (p :: ps)), m)
      ∧ m.ioWaits 1 0 (p :: ps) = false) := by
  refine ⟨lane_of (by decide), by decide, by decide, by decide, ?_, lane_of (by decide), by decide, ?_,
    laneLands_of (va := fun h => (mw_ (b := 8)).eaPlain h) (by decide +kernel)⟩
  · have h : lineLands (flushLines (issuedTeam (one flushThread id) (oneTeam flushThread id) flushForm [0])
        (issuedThread (one flushThread id) (oneTeam flushThread id) flushForm 0) (issued (one flushThread id) (oneTeam flushThread id) flushForm [0])
        0x10000 1) = true := by decide +kernel
    unfold lineLands at h
    split at h
    · rename_i l m e
      exact ⟨l, m, e, by simpa using h⟩
    · cases h
  · have h : pageLands (checkAccess (issued managing kernelTeam regmodeForm [0]) 0 0 true 0x10000 1 .read) = true := by decide +kernel
    unfold pageLands at h
    split at h
    · rename_i a m e
      simp only [Bool.and_eq_true, decide_eq_true_eq] at h
      exact ⟨a, m, e, h.1, h.2⟩
    · cases h


/-- A descriptor of one element of 4 bytes at 0x10000, and a part in which its region is live. -/
def roomBytes (kind mask red : Nat) : List Byte :=
  toBytes 8 0x10000 ++ toBytes 4 1 ++ [2, BitVec.ofNat 8 kind, BitVec.ofNat 8 mask, BitVec.ofNat 8 red] ++ List.replicate 48 0

def roomS (kind mask red : Nat) (held : List Held) (q : Region → Region) : State :=
  let s := one (fun h => { atData h with held := held }) id
  { s with mem := putBytes [] 0x10000 (roomBytes kind mask red)
           ushers := { s.ushers with regions := ((regionOf 0x10000 (roomBytes kind mask red)).map q).toList } }

def roomT (held : List Held) : Team := oneTeam (fun h => { atData h with held := held }) id

theorem isSome_of {α : Type} {o : Option α} (c : o.isSome = true) : ∃ a, o = some a := Option.isSome_iff_exists.mp c

/-- RBIND of a region that is not live; RUNBIND of a live one that is idle, and of one that has an open room; a snapshot. -/
theorem witness_RegionsBindAndReport : let w := rw_ 0
    let f : Form := w.form [w.srcA 2] [w.dst 1]
    let g : Form := { w.form [w.srcA 2] [w.dst 2] with long := true }
    let s0 : State := { roomS 1 0x39 0 [] id with ushers := { plain.ushers with regions := [] } }
    let s1 := roomS 1 0x39 0 [] id
    let s2 := roomS 1 0x39 0 [] fun r => { r with mode := some 3, occ := 1 }
    let t := roomT []
    (∀ s ∈ [s0, s1, s2], Lane s oneBundle t f 0 (issued s t f [0]) (issuedTeam s t f [0]) (issuedThread s t f 0)
      ∧ (issued s t f [0]).quiet 1 0 = true)
    ∧ Lane s1 oneBundle t g 0 (issued s1 t g [0]) (issuedTeam s1 t g [0]) (issuedThread s1 t g 0)
    ∧ (∃ pa m, roomDesc (issuedTeam s0 t f [0]) (issuedThread s0 t f 0) (issued s0 t f [0]) 0x10000 = .got pa m
      ∧ (pa = 0x10000 ∧ isLost m pa = false ∧ (regionOf pa (((m.readHome (lineOf pa)).2.drop (pa - lineOf pa)).take 64)).isSome = true ∧ m.region? pa = none ∧ m.ushers.regions = []))
    ∧ (∃ pa m, roomDesc (issuedTeam s1 t f [0]) (issuedThread s1 t f 0) (issued s1 t f [0]) 0x10000 = .got pa m
      ∧ ((m.region? pa).any fun r => decide (r.mode = none ∧ r.q = [])) = true)
    ∧ (∃ pa m, roomDesc (issuedTeam s2 t f [0]) (issuedThread s2 t f 0) (issued s2 t f [0]) 0x10000 = .got pa m
      ∧ ((m.region? pa).any fun r => decide (r.mode ≠ none)) = true) := by
  intro w f g s0 s1 s2 t
  refine ⟨?_, lane_of (by decide), ?_, finds_of (p := fun pa m => (m.region? pa).any fun r => decide (r.mode = none ∧ r.q = [])) (by decide +kernel),
    finds_of (p := fun pa m => (m.region? pa).any fun r => decide (r.mode ≠ none)) (by decide +kernel)⟩
  · have h : ([s0, s1, s2].all fun s => isLane s oneBundle t f 0 && (issued s t f [0]).quiet 1 0) = true := by decide +kernel
    intro s m
    have := List.all_eq_true.mp h s m
    rw [Bool.and_eq_true] at this
    exact ⟨lane_of this.1, this.2⟩
  · obtain ⟨pa, m, e, h⟩ := finds_of (r := roomDesc (issuedTeam s0 t f [0]) (issuedThread s0 t f 0) (issued s0 t f [0]) 0x10000)
      (p := fun pa m => decide (pa = 0x10000) && !isLost m pa && (regionOf pa (((m.readHome (lineOf pa)).2.drop (pa - lineOf pa)).take 64)).isSome && decide (m.region? pa = none)
        && decide (m.ushers.regions = [])) (by decide +kernel)
    simp only [Bool.and_eq_true, decide_eq_true_eq, Bool.not_eq_true'] at h
    exact ⟨pa, m, e, h.1.1.1.1, h.1.1.1.2, h.1.1.2, h.1.2, h.2⟩

/-- A demand of thread 0 on its way, at the Usher, and answered. -/
def aDemand (placed : Bool) (a : Option (Bool × W32 × W32)) : Demand :=
  { id := 5, team := 1, tid := 0, va := 0x10000, desc := 0x10000, mode := 3, count := 1, kind := .enter, batch := 5, placed := placed, at_ := 0,
    answer := a }

def demanding (d : Demand) : State := { roomS 1 0x39 0 [] id with ushers := { (roomS 1 0x39 0 [] id).ushers with demands := [d] } }

/-- A pair of the region with one reserved slot, and one with none. -/
def aPair (left : W32) (mode : Nat := 3) : Held := { desc := 0x10000, mode := mode, next := 0, left := left }

theorem witness_RoomsAreEnteredAndLeft : let w := rw_ 0 3 (b := 0)
    let f : Form := w.form (w.srcA 2 :: countSpan w) []
    let g : Form := w.form [w.srcA 2] []
    let s := roomS 1 0x39 0 [] id
    let h := ((roomT []).thread? 0).getD plainThread
    Clear s oneBundle (roomT []) f ∧ (roomT []).active f [0] = [0] ∧ s.demand? 1 0 = none ∧ (roomT []).thread? 0 = some h
    ∧ (∃ d m, enterDemand w .enter (roomT []) h s = .got d m) ∧ (∃ d m, enterDemand w (.etry 6) (roomT []) h s = .got d m)
    ∧ (∀ d ∈ [aDemand false none, aDemand true none, aDemand true (some (true, 0, 1))], (demanding d).demand? 1 0 = some d
        ∧ Clear (demanding d) oneBundle (roomT []) f)
    ∧ (aDemand true none).reached = true ∧ (aDemand false none).reached = false
    ∧ (let t := roomT [aPair 1]; let s := roomS 1 0x39 0 [aPair 1] id
       Lane s oneBundle t g 0 (issued s t g [0]) (issuedTeam s t g [0]) (issuedThread s t g 0) ∧ hasFill w t s 0 = true)
    ∧ (let t := roomT [aPair 0]; let s := roomS 1 0x39 0 [aPair 0] id
       Lane s oneBundle t g 0 (issued s t g [0]) (issuedTeam s t g [0]) (issuedThread s t g 0) ∧ hasFill w t s 0 = false
       ∧ ∃ a m, leaving w (issuedTeam s t g [0]) (issuedThread s t g 0) (issued s t g [0]) = .got a m ∧ m.quiet 1 0 = true) := by
  refine ⟨clear_of (by decide), by decide, by decide, by decide, ?_, ?_, ?_, by decide, by decide, ⟨lane_of (by decide), by decide +kernel⟩,
    ⟨lane_of (by decide), by decide +kernel, finds_of (p := fun _ m => m.quiet 1 0) (by decide +kernel)⟩⟩
  · obtain ⟨d, m, e, -⟩ := finds_of (p := fun _ _ => true) (r := enterDemand (rw_ 0 3 (b := 0)) .enter (roomT []) (((roomT []).thread? 0).getD plainThread)
      (roomS 1 0x39 0 [] id)) (by decide +kernel)
    exact ⟨d, m, e⟩
  · obtain ⟨d, m, e, -⟩ := finds_of (p := fun _ _ => true) (r := enterDemand (rw_ 0 3 (b := 0)) (.etry 6) (roomT [])
      (((roomT []).thread? 0).getD plainThread) (roomS 1 0x39 0 [] id)) (by decide +kernel)
    exact ⟨d, m, e⟩
  · have h : ([aDemand false none, aDemand true none, aDemand true (some (true, 0, 1))].all fun d => decide ((demanding d).demand? 1 0 = some d)
        && isClear (demanding d) oneBundle (roomT []) ((rw_ 0 3 (b := 0)).form ((rw_ 0 3 (b := 0)).srcA 2 :: countSpan (rw_ 0 3 (b := 0))) [])) = true := by
      decide +kernel
    intro d m
    have := List.all_eq_true.mp h d m
    simp only [Bool.and_eq_true, decide_eq_true_eq] at this
    exact ⟨this.1, clear_of this.2⟩

/-- ENTERM of one pair, its descriptor named by x8. -/
theorem witness_RoomsAreEnteredAndLeft_enterm : let u (h : Thread) : Thread := h.setPair 8 0x10000
    let w := rw_ 0 (a := 8) (b := 12)
    let s : State := { one u id with mem := (roomS 1 0x39 0 [] id).mem, ushers := (roomS 1 0x39 0 [] id).ushers }
    let t := oneTeam u id
    let h := (t.thread? 0).getD plainThread
    Clear s oneBundle t { w.form [{ r := 8, n := 2, fe := w.feA }, w.srcB 1] [] with bad := decide (w.a.toNat % 8 ≠ 0) }
    ∧ s.demand? 1 0 = none ∧ t.thread? 0 = some h ∧ ∃ d m, entermDemand w t h s = .got d m := by
  intro u w s t h
  obtain ⟨d, m, e, -⟩ := finds_of (p := fun _ _ => true) (r := entermDemand w t h s) (by decide +kernel)
  exact ⟨clear_of (by decide), by decide, by decide, d, m, e⟩

/-- The occupant's test. -/
def holds (x : Except Stop (Region × Held)) (p : Region → Held → Bool) : Bool := match x with
  | .ok (r, e) => p r e
  | _ => false

theorem holds_of {x : Except Stop (Region × Held)} {p : Region → Held → Bool} (c : holds x p = true) : ∃ r e, x = .ok (r, e) ∧ p r e = true := by
  unfold holds at c
  split at c
  · exact ⟨_, _, rfl, c⟩
  · cases c

/-- What PUSH, POP and RACC ask of thread 0: its region, its pair and the element. -/
def occupies (s : State) (t : Team) (f : Form) (mode reg : Nat) (queue : Bool) (p : Region → Held → Bool) (k : Region → Held → W64) (use : Use) : Bool :=
  isLane s oneBundle t f 0 && finds (roomDesc (issuedTeam s t f [0]) (issuedThread s t f 0) (issued s t f [0]) 0x10000) fun pa m =>
    holds (occupant m (issuedTeam s t f [0]) (issuedThread s t f 0) 0x10000 pa mode queue reg) fun r e =>
      p r e && lands m (issuedTeam s t f [0]) (issuedThread s t f 0) 0 (k r e) 4 { use := use, align := 4 } 0

theorem occupies_of {s : State} {t : Team} {f : Form} {mode reg : Nat} {queue : Bool} {p : Region → Held → Bool} {k : Region → Held → W64} {use : Use}
    (c : occupies s t f mode reg queue p k use = true) : ∃ s1 t1 h1 pa m r e x xs m1, Lane s oneBundle t f 0 s1 t1 h1
      ∧ roomDesc t1 h1 s1 0x10000 = .got pa m ∧ occupant m t1 h1 0x10000 pa mode queue reg = .ok (r, e) ∧ p r e = true
      ∧ (m.mayStart t1.id 0 0 = true ∧ m.tableFull (t1.coreOf 0) = false) ∧ t1.reach m h1 (k r e) 4 { use := use, align := 4 } = (.ok (some (x :: xs)), m1)
      ∧ m1.ioWaits t1.id 0 (x :: xs) = false := by
  unfold occupies at c
  rw [Bool.and_eq_true] at c
  obtain ⟨pa, m, e1, h1⟩ := finds_of c.2
  obtain ⟨r, e, e2, h2⟩ := holds_of h1
  rw [Bool.and_eq_true] at h2
  obtain ⟨x, xs, m1, h3, h4, h5⟩ := lands_of h2.2
  exact ⟨_, _, _, pa, m, r, e, x, xs, m1, lane_of c.1, e1, e2, h2.1, h3, h4, h5⟩

/-- PUSH and POP to a queue of one element: a reserved slot, none left, the exclusive mode on an empty and on a full queue; an element to
pop and none; RACC to element 0. -/
theorem witness_RoomsHoldElements : let w := rw_ 0 (d := 20)
    let push : Form := w.form [w.srcA 2, dataSpan w.b w.feB] []
    let pop : Form := { w.form [w.srcA 2] [{ dataSpan w.d false with fe := false }] with long := true }
    let racc : Form := w.form [w.srcA 2, w.srcB 1, dataSpan w.c w.feC] []
    let at_ (i : W32) (r : Region) : W64 := r.elem i.toNat
    let one_ (r : Region) : Region := { r with rtail := 1 }
    occupies (roomS 1 0x39 0 [aPair 1] id) (roomT [aPair 1]) push 3 4 true (fun _ e => decide (e.mode ≠ 5 ∧ e.left ≠ 0))
        (fun r e => at_ e.next r) .write = true
    ∧ occupies (roomS 1 0x39 0 [aPair 0] id) (roomT [aPair 0]) push 3 4 true (fun _ e => decide (e.mode ≠ 5 ∧ e.left = 0)) (fun r _ => at_ 0 r) .write = true
    ∧ occupies (roomS 1 0x39 0 [aPair 0 5] id) (roomT [aPair 0 5]) push 3 4 true (fun r e => decide (e.mode = 5 ∧ (r.rtail - r.pidx).toNat < r.n))
        (fun r _ => at_ r.rtail r) .write = true
    ∧ occupies (roomS 1 0x39 0 [aPair 0 5] one_) (roomT [aPair 0 5]) push 3 4 true (fun r e => decide (e.mode = 5 ∧ r.n ≤ (r.rtail - r.pidx).toNat))
        (fun r _ => at_ 0 r) .write = true
    ∧ occupies (roomS 1 0x39 0 [aPair 0 4] one_) (roomT [aPair 0 4]) pop 4 20 true (fun r _ => decide (r.pidx ≠ r.rtail)) (fun r _ => at_ r.pidx r) .read = true
    ∧ occupies (roomS 1 0x39 0 [aPair 0 4] id) (roomT [aPair 0 4]) pop 4 20 true (fun r e => decide (e.left ≠ 1 ∧ r.pidx = r.rtail)) (fun r _ => at_ 0 r) .read
        = true
    ∧ occupies (roomS 0 0x04 0 [aPair 0 2] id) (roomT [aPair 0 2]) racc 2 6 false (fun r _ => decide (0 < r.n)) (fun r _ => at_ 0 r) .write = true := by
  decide +kernel

/-- A template of a kind at 0x10000, with record A and record B, at 0x10040, of a copy of one element; a counter at 0. -/
def cueS (kind : Nat) (cues : List Cue) : State :=
  let rec_ : W64 := if kind = 0 then 0x10040 else 0x10000
  let b := toBytes 8 (kind + 256 * 4) ++ toBytes 8 rec_.toNat ++ toBytes 8 (if kind = 0 then 0x10040 else 0) ++ List.replicate 40 0
  let shape := toBytes 8 0x10000 ++ toBytes 4 (2 ^ 16) ++ (List.replicate 4 (toBytes 4 1)).flatten ++ (List.replicate 4 (toBytes 2 1)).flatten
    ++ List.replicate 28 0
  { plain with mem := putBytes (putBytes [] 0x10000 b) 0x10040 shape, cues := cues }

/-- A cue of the team in a state, with what else a witness changes. -/
def aCue (slot : Nat) (st : CueState) : Cue :=
  let m : Template := { kind := 0, scope := 4, regDst := false, rm := 0, recA := 0, recB := 0, srcScale := 0, dstScale := 0, fixed := [], clean := true }
  { newCue m plainTeam 0 0 slot 0 [] none none 0x10000 1 0 with st := st }

/-- What a definition comes to, as a test: a cue, or no slot. -/
def makes (x : Defined) (full : Bool) : Bool := match x with
  | .made _ _ => !full
  | .full _ => full
  | _ => false

theorem makes_of {x : Defined} (c : makes x false = true) : ∃ q m, x = .made q m := by
  unfold makes at c
  split at c <;> first | exact ⟨_, _, rfl⟩ | cases c

theorem fills_of {x : Defined} (c : makes x true = true) : ∃ m, x = .full m := by
  unfold makes at c
  split at c <;> first | exact ⟨_, rfl⟩ | cases c

def cueWord : CWord := { d := 10, a := 2, b := 4, c := 12, g := 7, gn := 0, fe := 0, md := 0, tk := 15, cp := 0 }
def cueForm : Form := { defineForm cueWord with quad := some 4 }
def goForm : Form := { cueWord.form [cueWord.srcA, cueWord.srcC] [{ r := 10, n := 1 }] with quad := some 4 }

theorem witness_CuesAreDefined : let busy : List Cue := (List.range 128).map fun n => aCue n .active
    let t1 (s : State) (f : Form) : Team := issuedTeam s plainTeam f [0]
    let s1 (s : State) (f : Form) : State := issued s plainTeam f [0]
    (∀ s ∈ [cueS 0 [], cueS 0 busy], OneGroup s oneBundle plainTeam cueForm [0] (s1 s cueForm) (t1 s cueForm) ∧ (s1 s cueForm).quiet 1 0 = true
        ∧ (t1 s cueForm).thread? 0 = some plainThread)
    ∧ OneGroup (cueS 1 []) oneBundle plainTeam goForm [0] (s1 (cueS 1 []) goForm) (t1 (cueS 1 []) goForm) ∧ (s1 (cueS 1 []) goForm).quiet 1 0 = true
    ∧ (∀ s ∈ [cueS 0 [], cueS 0 busy, cueS 1 []], Converged s oneBundle plainTeam [0])
    ∧ (∃ c m, defineCue cueWord none 0 (t1 (cueS 0 []) cueForm) plainThread (s1 (cueS 0 []) cueForm) = .made c m)
    ∧ (∃ c m, defineCue cueWord (some 0) 0 (t1 (cueS 0 []) cueForm) plainThread (s1 (cueS 0 []) cueForm) = .made c m)
    ∧ (∃ m, defineCue cueWord (some 0) 0 (t1 (cueS 0 busy) cueForm) plainThread (s1 (cueS 0 busy) cueForm) = .full m)
    ∧ (∃ c m, defineCue cueWord (some 1) 0 (t1 (cueS 1 []) goForm) plainThread (s1 (cueS 1 []) goForm) = .made c m) := by
  intro busy t1 s1
  refine ⟨?_, group_of (by decide), by decide, fun s m => conv_of (List.all_eq_true.mp (by decide +kernel :
      ([cueS 0 [], cueS 0 busy, cueS 1 []].all fun s => isConverged s oneBundle plainTeam [0]) = true) s m), makes_of (by decide +kernel), makes_of (by decide +kernel),
    fills_of (by decide +kernel), makes_of (by decide +kernel)⟩
  have h : ([cueS 0 [], cueS 0 busy].all fun s => isGroup s oneBundle plainTeam cueForm [0] && (s1 s cueForm).quiet 1 0
      && decide ((t1 s cueForm).thread? 0 = some plainThread)) = true := by decide +kernel
  intro s m
  have := List.all_eq_true.mp h s m
  simp only [Bool.and_eq_true, decide_eq_true_eq] at this
  exact ⟨group_of this.1.1, this.1.2, this.2⟩

/-- The registers name cue 0, and its successor 1. -/
def cueThread (h : Thread) : Thread := (h.setReg 2 0).setReg 3 1
def cuesS (l : List Cue) : State := { one cueThread id with cues := l }
def cuesT : Team := oneTeam cueThread id

theorem witness_CuesAreCommanded : let f : Form := cueWord.form [cueWord.srcA] []
    let g : Form := idForm cueWord [{ r := 10, n := 1 }]
    let h := (cuesT.thread? 0).getD plainThread
    let x := aCue 1 .defined
    (∀ l ∈ [[x], [aCue 0 .done, x], [aCue 0 .killed, x], [aCue 0 .active, x]], Converged (cuesS l) oneBundle cuesT [0]
        ∧ OneGroup (cuesS l) oneBundle cuesT f [0] (issued (cuesS l) cuesT f [0]) (issuedTeam (cuesS l) cuesT f [0])
        ∧ (issued (cuesS l) cuesT f [0]).cueOf (issuedTeam (cuesS l) cuesT f [0]) (h.reg 3) = some x
        ∧ (issued (cuesS l) cuesT f [0]).cueOf (issuedTeam (cuesS l) cuesT f [0]) (h.reg 2) = l.find? fun c => c.slot = 0)
    ∧ x.reached < x.preds
    ∧ (∀ l ∈ [[], [aCue 0 .defined], [aCue 0 .active]], Converged (cuesS l) oneBundle cuesT [0]
        ∧ OneGroup (cuesS l) oneBundle cuesT g [0] (issued (cuesS l) cuesT g [0]) (issuedTeam (cuesS l) cuesT g [0])
        ∧ (issued (cuesS l) cuesT g [0]).quiet 1 0 = true
        ∧ (issued (cuesS l) cuesT g [0]).cueOf (issuedTeam (cuesS l) cuesT g [0]) (h.reg 2) = l.find? fun c => c.slot = 0)
    ∧ (∀ c ∈ [aCue 0 .defined, aCue 0 .active], ((((cuesS [c]).killCue c).cue? 0 0).map fun y => (y.counting, y.killing))
        = some (false, false)) := by
  intro f g h x
  refine ⟨?_, by decide, ?_, ?_⟩
  · have h : ([[x], [aCue 0 .done, x], [aCue 0 .killed, x], [aCue 0 .active, x]].all fun l => isGroup (cuesS l) oneBundle cuesT f [0]
        && decide ((issued (cuesS l) cuesT f [0]).cueOf (issuedTeam (cuesS l) cuesT f [0]) (h.reg 3) = some x)
        && decide ((issued (cuesS l) cuesT f [0]).cueOf (issuedTeam (cuesS l) cuesT f [0]) (h.reg 2) = l.find? fun c => c.slot = 0)
        && isConverged (cuesS l) oneBundle cuesT [0]) = true := by
      decide +kernel
    intro l m
    have := List.all_eq_true.mp h l m
    simp only [Bool.and_eq_true, decide_eq_true_eq] at this
    exact ⟨conv_of this.2, group_of this.1.1.1, this.1.1.2, this.1.2⟩
  · have h : ([[], [aCue 0 .defined], [aCue 0 .active]].all fun l => isGroup (cuesS l) oneBundle cuesT g [0]
        && (issued (cuesS l) cuesT g [0]).quiet 1 0
        && decide ((issued (cuesS l) cuesT g [0]).cueOf (issuedTeam (cuesS l) cuesT g [0]) (h.reg 2) = l.find? fun c => c.slot = 0)
        && isConverged (cuesS l) oneBundle cuesT [0]) = true := by
      decide +kernel
    intro l m
    have := List.all_eq_true.mp h l m
    simp only [Bool.and_eq_true, decide_eq_true_eq] at this
    exact ⟨conv_of this.2, group_of this.1.1.1, this.1.1.2, this.1.2⟩
  · decide +kernel

/-- A counter at 0 that has reached a target of 0 and not one of 5; the state and the progress of a cue. -/
theorem witness_CuesAreAwaited : let f : Form := iw_.form [iw_.srcA 2] []
    let g : Form := { iw_.form [iw_.srcA 1] [iw_.dst 2] with long := true, bad := false }
    Solo plain oneBundle plainTeam f 0 plainThread ∧ plain.quiet 1 0 = true
    ∧ plainTeam.reach plain plainThread (plainThread.pair 2) 8 { align := 8 }
        = (.ok (some [{ va := 0x10000, pa := 0x10000, key := 0x10000, len := 8, pos := 0, attr := 7 + 2 ^ 9, nc := false }]), plain)
    ∧ (0 : W64).toNat ≤ plain.peekLe 0x10000 8 ∧ plain.peekLe 0x10000 8 < (5 : W64).toNat
    ∧ (∀ l ∈ [[], [aCue 0 .active]], Lane (cuesS l) oneBundle cuesT g 0 (issued (cuesS l) cuesT g [0]) (issuedTeam (cuesS l) cuesT g [0])
        (issuedThread (cuesS l) cuesT g 0)) := by
  intro f g
  refine ⟨solo_of (by decide), by decide, reach_of (by decide +kernel), by decide, by decide, ?_⟩
  have h : ([[], [aCue 0 .active]].all fun l => isLane (cuesS l) oneBundle cuesT g 0) = true := by decide +kernel
  exact fun l m => lane_of (List.all_eq_true.mp h l m)

/-! ### Prompter contexts -/

/-- A context of the team that runs a stream, before its first word. -/
def aPrompter : Prompter := { Prompter.fresh 0 0 1 0x10000 0 with count := 2 }

/-- The part with that context about to execute its word; `u` changes the team, `f` the context. -/
def stream (u : Team → Team) (f : Prompter → Prompter) : State :=
  let s := one atData u
  { s with cur := .prompter 0 0, mx := { s.mx with ctxs := [f aPrompter] } }

def isPrompts (s : State) (p : Prompter) (t : Team) : Bool :=
  decide (s.cur = .prompter p.cluster p.ctx) && decide ((s.mx.ctxs.find? fun q => q.cluster = p.cluster && q.ctx = p.ctx) = some p)
    && decide (s.team? p.team = some t) && decide (s.consumePasses p.cluster p.ctx = s)

theorem prompts_of {s : State} {p : Prompter} {t : Team} (c : isPrompts s p t = true) : Prompts s p t := by
  simp only [isPrompts, Bool.and_eq_true, decide_eq_true_eq] at c
  exact ⟨c.1.1.1, c.1.1.2, c.1.2, c.2⟩

/-- A stream word on k20, k22, k24 and k26. -/
def pw_ (md : BitVec 8 := 0) (fa : BitVec 4 := 1) (wb : BitVec 4 := 15) (ka : BitVec 6 := 20) (kb : BitVec 6 := 22) (kc : BitVec 6 := 24)
    (km : BitVec 6 := 26) (sp : BitVec 3 := 0) : PWord :=
  { wb := wb, sb := 15, ru := 0, ka := ka, kb := kb, kc := kc, km := km, fa := fa, fo := 0, sp := sp, ch := 0, tr := 0, md := md }

/-- One row of 128 codes. -/
def oneRow (t : Team) : Team := t.setK 22 1

theorem witness_StreamLoadsComplete : let s := stream oneRow id
    let t := oneTeam atData oneRow
    Prompts s aPrompter t ∧ Phased s aPrompter t 15 aPrompter s
    ∧ aPrompter.staged = none ∧ s.passesOf 0 0 = []
    ∧ (∃ g m, readTile pw_ aPrompter t s = .got g m ∧ g.taken = none)
    ∧ (∃ g m, readAccTile pw_ aPrompter t s = .got g m ∧ g.taken = none)
    ∧ (∃ g m, readBook pw_ aPrompter t s = .got g m ∧ g.taken = none)
    ∧ (∃ d m, readAt s t 0 0 0 0 64 = .got d m ∧ (match ruleOf d with
        | .ok _ => true
        | .error _ => false) = true)
    ∧ locationStop t 0 (t.place 0 20) = none := by
  intro s t
  refine ⟨prompts_of (by decide +kernel), .inl ⟨.inl rfl, rfl, rfl⟩, rfl, by decide, ?_, ?_, ?_, ?_, by decide⟩
  · obtain ⟨g, m, e, h⟩ := finds_of (p := fun g _ => decide (g.taken = none)) (r := readTile pw_ aPrompter t s) (by decide +kernel)
    exact ⟨g, m, e, of_decide_eq_true h⟩
  · obtain ⟨g, m, e, h⟩ := finds_of (p := fun g _ => decide (g.taken = none)) (r := readAccTile pw_ aPrompter t s) (by decide +kernel)
    exact ⟨g, m, e, of_decide_eq_true h⟩
  · obtain ⟨g, m, e, h⟩ := finds_of (p := fun g _ => decide (g.taken = none)) (r := readBook pw_ aPrompter t s) (by decide +kernel)
    exact ⟨g, m, e, of_decide_eq_true h⟩
  · exact finds_of (p := fun d _ => match ruleOf d with
        | .ok _ => true
        | .error _ => false) (by decide +kernel)

/-- A word whose phase of barrier 3 has completed; a word that has staged its tile. -/
theorem witness_StreamLoadsComplete_phase : let t := oneTeam atData phased
    let s := stream phased id
    let g (p : Prompter) : Prompter := { p with staged := some (none, none, 0) }
    Prompts s aPrompter t ∧ (∃ q m, Phased s aPrompter t 3 q m)
    ∧ Prompts (stream id g) (g aPrompter) plainTeam ∧ (∃ z, (g aPrompter).staged = some z) ∧ (stream id g).passesOf 0 0 = []
    ∧ (g aPrompter).stagedFrom = none
    ∧ (let k (p : Prompter) : Prompter := { g p with stagedFrom := some (0, 9) }
       Prompts (stream id k) (k aPrompter) plainTeam ∧ (stream id k).tileStands 0 (0, 9) = false ∧ (stream id k).passesOf 0 0 = []) :=
  ⟨prompts_of (by decide +kernel), ⟨_, _, .inr ⟨by decide, rfl, by decide, rfl, rfl⟩⟩, prompts_of (by decide +kernel), ⟨_, rfl⟩, by decide, rfl,
    prompts_of (by decide +kernel), by decide, by decide⟩


/-- A pass of the context in its table. -/
def aPass : Pass := newPass (stream id id) aPrompter plainTeam .mzero pw_ 0 0 0

def passing (n : Nat) : State := (stream id id).setEngine { (stream id id).engine 0 with table := List.replicate n aPass }

/-- A table with room, and a context that has four passes in it. -/
theorem witness_PassesArePosted : Prompts (stream id id) aPrompter plainTeam ∧ ((stream id id).engine 0).table.length < 16
    ∧ ((stream id id).passesOf 0 0).length < 4
    ∧ Prompts (passing 4) aPrompter plainTeam ∧ ¬(((passing 4).engine 0).table.length < 16 ∧ ((passing 4).passesOf 0 0).length < 4) :=
  ⟨prompts_of (by decide +kernel), by decide, by decide, prompts_of (by decide +kernel), by decide +kernel⟩

/-- A class-2 header at 0x10000, which the context's header address and a jump of offset 0 name; the loop counter k1 at 0 and at 5. -/
def counted (t : Team) : Team := t.setK 1 5
def jumpS (u : Team → Team) : State := { stream u id with mem := putLe [] 0x10000 8 0xF880000000000000 }

def headerAt (s : State) (t : Team) (va : W64) : Bool := match (s.fetch (clusterUnit 0) t.asid false va).1 with
  | .ok x => isHeader x && decide ((headerOf x).cls = 2)
  | .error _ => false

theorem headerAt_of {s : State} {t : Team} {va : W64} (c : headerAt s t va = true) :
    ∃ x, (s.fetch (clusterUnit 0) t.asid false va).1 = .ok x ∧ isHeader x = true ∧ (headerOf x).cls = 2 := by
  unfold headerAt at c
  split at c
  · rename_i x e
    simp only [Bool.and_eq_true, decide_eq_true_eq] at c
    exact ⟨x, e, c.1, c.2⟩
  · cases c

theorem witness_StreamControlCompletes : let s := stream id id
    let w := pw_ 1 (fa := 0) (ka := 0) (kb := 0) (kc := 0) (km := 0)
    Prompts s aPrompter plainTeam ∧ Phased s aPrompter plainTeam 15 aPrompter s ∧ s.passesOf 0 0 = []
    ∧ (∃ q m, Phased (stream phased id) aPrompter (oneTeam atData phased) 3 q m)
    ∧ aPrompter.wbDone = false ∧ (plainTeam.barrier 3).phase.toNat ≤ (look 0 aPrompter.consumed 3).toNat
    ∧ Prompts (jumpS id) aPrompter plainTeam ∧ plainTeam.kreg 9 = 0
    ∧ Prompts (jumpS counted) aPrompter (oneTeam atData counted) ∧ (oneTeam atData counted).kreg 1 ≠ 0
    ∧ (∃ x, ((jumpS counted).fetch (clusterUnit 0) 0 false (aPrompter.hdr + w.off32.signExtend 64)).1 = .ok x ∧ isHeader x = true ∧ (headerOf x).cls = 2) := by
  intro s w
  exact ⟨prompts_of (by decide +kernel), .inl ⟨.inl rfl, rfl, rfl⟩, by decide, ⟨_, _, .inr ⟨by decide, rfl, by decide, rfl, rfl⟩⟩, rfl, by decide,
    prompts_of (by decide +kernel), by decide, prompts_of (by decide +kernel), by decide,
    headerAt_of (t := oneTeam atData counted) (by decide +kernel)⟩

/-! ### Walkers -/

/-- A walker context of the team that runs a job of four instructions over the data at 0x10000; `f` changes it. -/
def aWalker (f : Walker → Walker) : Walker :=
  f { Walker.idle 0 0 with
      running := true, team := 1, cue := some (0, 0)
      job := { program := 0, len := 4, fmt := 3, dest := 0, dropZero := false, ctx := 0, rows := 64, stride := 0, save := 0, bases := [0x10000], init := [] } }

def walking (f : Walker → Walker) : State :=
  { plain with cur := .walker 0 0, walk := { plain.walk with ctxs := [aWalker f] } }

theorem walks_of {f : Walker → Walker} (c : (decide ((walking f).cur = .walker (aWalker f).cluster (aWalker f).ctx)
    && decide ((walking f).walker? (aWalker f).cluster (aWalker f).ctx = some (aWalker f))) = true) : Walks (walking f) (aWalker f) := by
  simp only [Bool.and_eq_true, decide_eq_true_eq] at c
  exact ⟨c.1, c.2⟩

/-- CUEKILL of a job that stands inside an instruction. -/
theorem witness_CuesAreCommanded_killing : let c : Cue := { aCue 0 .active with kind := .walker }
    let s : State := { cuesS [c] with walk := { plain.walk with ctxs := [aWalker fun w => { w with mid := true }] } }
    let g : Form := idForm cueWord [{ r := 10, n := 1 }]
    Converged s oneBundle cuesT [0] ∧ OneGroup s oneBundle cuesT g [0] (issued s cuesT g [0]) (issuedTeam s cuesT g [0])
    ∧ (issued s cuesT g [0]).cueOf (issuedTeam s cuesT g [0]) (((cuesT.thread? 0).getD plainThread).reg 2) = some c
    ∧ ((((issued s cuesT g [0]).killCue c).cue? 0 0).map Cue.killing) = some true :=
  ⟨conv_of (by decide +kernel), group_of (by decide +kernel), by decide +kernel, by decide +kernel⟩

theorem witness_WalkerArithmeticCompletes : Walks (walking id) (aWalker id) := walks_of (by decide)

def isParts (r : Found (List Part)) : Bool := finds r fun ps m => !ps.isEmpty && decide (m.coh.txns = [])

theorem parts_of {r : Found (List Part)} (c : isParts r = true) : ∃ p ps m, r = .got (p :: ps) m := by
  obtain ⟨l, m, e, h⟩ := finds_of c
  cases l with
  | nil => simp at h
  | cons p ps => exact ⟨p, ps, m, e⟩

/-- Data to load and to store; a condition that does not hold and one that does; targets inside and outside; a link inside and outside; no
ready buffer and one. -/
theorem witness_WalkerMemoryAndControlComplete : let c := aWalker id
    let s := walking id
    let at4 (w : Walker) : Walker := { w with w := keep 0 w.w 15 4 }
    let full (w : Walker) : Walker := { w with tiles := [{ codes := [], ready := true, taken := 0, order := 0 }, { codes := [], ready := false, taken := 0, order := 0 }] }
    Walks s c
    ∧ (∃ p ps m, c.reach s 0x10000 4 .read = .got (p :: ps) m) ∧ (∃ p ps m, c.reach s 0x10000 2 .read = .got (p :: ps) m)
    ∧ (∃ p ps m, c.reach s 0x10000 4 .write = .got (p :: ps) m)
    ∧ c.holds 1 = false ∧ c.holds 0 = true
    ∧ (0 : Int) ≤ (c.pc : Int) + (3 : BitVec 22).toInt ∧ (c.pc : Int) + (3 : BitVec 22).toInt < c.job.len
    ∧ ¬((0 : Int) ≤ (c.pc : Int) + (0x3FFFFF : BitVec 22).toInt)
    ∧ (look 0 c.w 15).toNat < c.job.len ∧ c.job.len ≤ 1024
    ∧ Walks (walking at4) (aWalker at4) ∧ (aWalker at4).job.len ≤ (look 0 (aWalker at4).w 15).toNat
    ∧ (c.tiles.all fun y => !y.ready) = true ∧ c.cue = some (0, 0)
    ∧ Walks (walking full) (aWalker full) ∧ (∃ y ∈ (aWalker full).tiles, y.ready = true) := by
  intro c s at4 full
  exact ⟨walks_of (by decide), parts_of (by decide +kernel), parts_of (by decide +kernel), parts_of (by decide +kernel), by decide, by decide,
    by decide, by decide, by decide, by decide, by decide, walks_of (by decide), by decide, by decide, rfl, walks_of (by decide),
    ⟨_, List.mem_cons_self, rfl⟩⟩

/-- A job whose rows go to the scratchpad; a merge of two empty streams, and of one that has an element; a scan of no element and of one. -/
theorem witness_WalkerTilesAndMergeComplete : let pad (w : Walker) : Walker := { w with job := { w.job with dest := 2, rows := 1 } }
    let none_ (w : Walker) : Walker := { w with merge := some (2, 4) }
    let one_ (w : Walker) : Walker := { w with merge := some (2, 4), w := keep 0 w.w 3 1, job := { w.job with bases := [0x10000, 0x10000, 0x10000, 0x10000] } }
    let scan (w : Walker) : Walker := { w with w := keep 0 w.w 9 1 }
    Walks (walking id) (aWalker id) ∧ (aWalker id).job.dest ≠ 3 ∧ 0 < 128 * (aWalker id).job.rows
    ∧ ((((aWalker id).tiles[1 - (aWalker id).fill]?).map Tile.ready).getD false) = false ∧ (aWalker id).job.dest < 2
    ∧ Walks (walking pad) (aWalker pad) ∧ (walking pad).team? (aWalker pad).team = some plainTeam ∧ 16 * codeBits 3 ≤ plainTeam.launch.spadBytes
    ∧ Walks (walking none_) (aWalker none_) ∧ (∃ m, (aWalker none_).union (walking none_) 2 4 = .got none m)
    ∧ Walks (walking one_) (aWalker one_) ∧ (∃ q m, (aWalker one_).union (walking one_) 2 4 = .got (some q) m ∧ (aWalker one_).job.dropZero = false)
    ∧ Walks (walking scan) (aWalker scan) ∧ look 0 (aWalker scan).w 9 ≠ 0
    ∧ (∃ v m ps m1, (aWalker scan).read32 (walking scan) 0x10000 = .got v m ∧ (aWalker scan).reach m 0x10000 4 .write = .got ps m1)
    ∧ (let got (f : Walker → Walker) (w : Walker) : Walker := { f w with input := [(0x10000, List.replicate 128 0)] }
       Walks (walking (got scan)) (aWalker (got scan)) ∧ Walks (walking (got one_)) (aWalker (got one_))
       ∧ (aWalker (got scan)).missing (walking (got scan)) [0x10000] = [] ∧ (aWalker scan).missing (walking scan) [0x10000] ≠ []
       ∧ ((aWalker (got one_)).missing (walking (got one_)) ((aWalker (got one_)).unionLoads 2 4 true false) = []
         ∧ (aWalker one_).missing (walking one_) ((aWalker one_).unionLoads 2 4 true false) ≠ []))
    ∧ (let both (w : Walker) : Walker := { w with tiles := w.tiles.map fun y => { y with ready := true } }
       Walks (walking both) (aWalker both) ∧ ((((aWalker both).tiles[1 - (aWalker both).fill]?).map Tile.ready).getD false) = true) := by
  intro pad none_ one_ scan
  refine ⟨walks_of (by decide), by decide, by decide, by decide, by decide, walks_of (by decide), by decide, by decide, walks_of (by decide), ?_,
    walks_of (by decide), ?_, walks_of (by decide), by decide, ?_,
    ⟨walks_of (by decide), walks_of (by decide), by decide +kernel, by decide +kernel, by decide +kernel, by decide +kernel⟩,
    walks_of (by decide), by decide⟩
  · obtain ⟨a, m, e, h⟩ := finds_of (p := fun a _ => decide (a = none)) (r := (aWalker none_).union (walking none_) 2 4) (by decide +kernel)
    rw [decide_eq_true_eq] at h
    exact ⟨m, h ▸ e⟩
  · obtain ⟨a, m, e, h⟩ := finds_of (p := fun a _ => a.isSome) (r := (aWalker one_).union (walking one_) 2 4) (by decide +kernel)
    obtain ⟨q, hq⟩ := isSome_of h
    exact ⟨q, m, hq ▸ e, rfl⟩
  · obtain ⟨v, m, e, h⟩ := finds_of (p := fun _ m => isParts ((aWalker scan).reach m 0x10000 4 .write)) (r := (aWalker scan).read32 (walking scan) 0x10000)
      (by decide +kernel)
    obtain ⟨p, ps, m1, e1⟩ := parts_of h
    exact ⟨v, m, p :: ps, m1, e, e1⟩

/-! ### Events -/

/-- A part whose team stands outside any bundle. -/
def idle (h : Thread → Thread) (u : Team → Team) : State := { code h u with cur := .none, bundles := [] }

def isFetch (x : Except Stop W64 × State) (p : W64 → Bool) : Bool := match x with
  | (.ok w, _) => p w
  | _ => false

theorem fetch_of {x : Except Stop W64 × State} {p : W64 → Bool} (c : isFetch x p = true) : ∃ w m, x = (.ok w, m) ∧ p w = true := by
  unfold isFetch at c
  split at c
  · exact ⟨_, _, rfl, c⟩
  · cases c

/-- Two threads that have not exited, the second at 0x10008; the first one runs. -/
def two (t : Team) : Team :=
  { t with threads := updWhere t.threads (fun h => h.tid = 1) (fun h => { h with exited := false, pc := 0x10008 }), running := [0] }

theorem witness_CastingEventsComplete : let pend (h : Thread) : Thread := { h with pendTimer := true }
    let s := idle atData id
    let r := s.refresh plainTeam
    let now : State := s.updTeam 1 fun _ => r
    let late : State := { idle atData two with time := 2 ^ 26 }
    let nap (h : Thread) : Thread := { h with wait := .nap 3 }
    ((idle pend id).team? 1 = some (oneTeam pend id) ∧ ∃ m, (idle pend id).takePending (oneTeam pend id) = some m)
    ∧ (s.team? 1 = some plainTeam ∧ plainTeam.marked = false ∧ plainTeam.removed = false ∧ s.unseated plainTeam = []
      ∧ (idle pend id).unseated (oneTeam pend id) = []) ∧ s.takePending plainTeam = none
    ∧ (now.standing r plainTeam.front) = [plainThread] ∧ now.eligible r plainThread = true ∧ r.running = [0]
    ∧ (∃ w m, now.fetch (r.coreOf 0) plainTeam.asid plainThread.priv plainThread.pc = (.ok w, m)
        ∧ (isHeader w && decide ((headerOf w).cls < 2) && (headerOf w).lowZero && decide (0 < (headerOf w).count)) = true)
    ∧ late.team? 1 = some (oneTeam atData two) ∧ late.otherWaits (oneTeam atData two) = true
    ∧ (oneTeam atData two).removed = false ∧ late.teams = [oneTeam atData two]
    ∧ (oneTeam atData two).wdogCount + 1 < (oneTeam atData two).wdog.toNat
    ∧ (∃ d, (oneTeam atData two).wdogCount + d = (oneTeam atData two).wdog.toNat)
    ∧ (∃ h, ({ idle nap id with time := 3 } : State).thread? 1 0 = some h ∧ h.wait = .nap 3)
    ∧ (s.pcSets plainTeam []).length < 64 := by
  intro pend s r now late nap
  exact ⟨⟨by decide +kernel, isSome_of (by decide +kernel)⟩, ⟨by decide +kernel, rfl, rfl, by decide +kernel, by decide +kernel⟩,
    by decide +kernel, by decide +kernel, by decide +kernel, by decide +kernel, fetch_of (by decide +kernel), by decide +kernel,
    by decide +kernel, by decide +kernel, by decide +kernel, by decide +kernel, ⟨(oneTeam atData two).wdog.toNat, by decide +kernel⟩,
    ⟨((oneTeam nap id).thread? 0).getD plainThread, by decide +kernel, by decide +kernel⟩, by decide +kernel⟩

/-- A comparator that the clock of the island, whatever its skew, has reached. -/
theorem witness_CastingEventsComplete_timer : let u (t : Team) : Team := t.updGroup 0 fun g => { g with tmrcmp := 1 }
    ∃ s : State, s.team? 1 = some (oneTeam atData u) ∧ ((oneTeam atData u).group 0).tmrcmp ≠ 0
      ∧ ((oneTeam atData u).group 0).tmrcmp ≤ s.clock (oneTeam atData u).cluster := by
  intro u
  refine ⟨{ idle atData u with time := (1 - Config.clockSkew (Config.islandOf (oneTeam atData u).cluster % 128)).toNat }, by decide +kernel, by decide +kernel, ?_⟩
  have h : ((oneTeam atData u).group 0).tmrcmp = 1 := by decide +kernel
  rw [h]
  unfold State.clock
  show 1 ≤ BitVec.ofNat 64 (1 - Config.clockSkew (Config.islandOf (oneTeam atData u).cluster % 128)).toNat + _
  rw [BitVec.ofNat_toNat, BitVec.setWidth_eq, BitVec.sub_add_cancel]
  exact BitVec.le_refl 1

/-- A callee queue of one line, and a LAUNCH parked on a full queue that has room again: its record is at 0x10000. -/
theorem witness_CastingEventsComplete_queues : let q : Callee := { core := 0, team := 1, pc := 0x10000, role := 0, idx := 0, tids := [0], order := 0 }
    let park (h : Thread) : Thread := { atData h with wait := .taskQueue 0 }
    let s : State := { one park id with mem := putLe [] 0x10008 8 0xC338020000000000 }
    ((({ plain with callees := [q] } : State).callees.filter fun q => q.team = 1) = [q])
    ∧ (∃ h, s.firstParked 0 = some (oneTeam park id, h) ∧ h = ((oneTeam park id).thread? 0).getD plainThread) ∧ s.taskRoom 0 = true
    ∧ (∃ w m, s.fetch 0 0 false (((oneTeam park id).thread? 0).getD plainThread).wordAddr = (.ok w, m)
        ∧ ((decodeCore w).toOption.any fun i => match i with
          | .launch x => decide (x.a = 2)
          | _ => false) = true)
    ∧ (∃ b m, launchBytes (oneTeam park id) (((oneTeam park id).thread? 0).getD plainThread) 0x10000 s = .got b m) := by
  intro q park s
  obtain ⟨b, m, e, -⟩ := finds_of (p := fun _ _ => true) (r := launchBytes (oneTeam park id) (((oneTeam park id).thread? 0).getD plainThread) 0x10000 s)
    (by decide +kernel)
  exact ⟨by decide, ⟨_, by decide +kernel, rfl⟩, by decide +kernel, fetch_of (by decide +kernel), b, m, e⟩

/-- A read, a store and a read-modify-write at their home; a load and a store that come back; a result, a line, an ALLOC, a shoot-down. -/
theorem witness_MemoryEventsComplete : let rd := asking (.load 1) .load .queued
    let ld := asking (.load 1) .load .performed
    let st := asking .store .store .sent
    let rm := asking (.atom 1) (.rmw 0 0) .sent
    let dn := asking .store .store .done
    let x : Shoot := { id := 9, kind := 1, vas := [0], asid := 0, units := [0], owner := none, clears := false }
    let up : State := { asking (.load 1) .load .queued with coh := { plain.coh with copies := [{ who := .l1 0, line := 0x10000, st := .p 1 true, data := [] }] } }
    (rd.req? 6 = some (aReq .load .queued) ∧ rd.l1Hit (aReq .load .queued) = false ∧ rd.upgrades (aReq .load .queued) = false
      ∧ ∃ m, rd.serveRead (aReq .load .queued) = some m)
    ∧ (up.req? 6 = some (aReq .load .queued) ∧ up.upgrades (aReq .load .queued) = true
      ∧ ∃ m, up.serveRead (aReq .load .queued) = some m)
    ∧ (st.req? 6 = some (aReq .store .sent) ∧ st.busy 0x10000 = false ∧ st.coh.lost = [] ∧ st.coh.owner? 0x10000 = none
      ∧ (st.flight.reqs.filter fun q => q.kind = .store && q.batch = 3 && st.lineOf' q = 0x10000) = [aReq .store .sent]
      ∧ spaceOf st.ctl 0x10000 = .device ∧ (aReq .store .sent).unapplied = true)
    ∧ (rm.req? 6 = some (aReq (.rmw 0 0) .sent) ∧ rm.busy 0x10000 = false ∧ rm.coh.owner? 0x10000 = none ∧ (aReq (.rmw 0 0) .sent).unapplied = true
      ∧ (rm.flight.reqs.map Req.id) = [6])
    ∧ (let r : Req := { aReq (.rmw 0 0) .queued with pa := 2 ^ 51, ord := 2, sc := 6 }
       let q : State := { asking (.atom 1) (.rmw 0 0) .queued with
         ctl := plain.ctl.setReg 0x1000000 (BitVec.ofNat 64 (2 ^ 14 + 1))
         flight := { (asking (.atom 1) (.rmw 0 0) .queued).flight with reqs := [r] } }
       q.req? 6 = some r ∧ q.rmwWaits r [q.lineOf' r] = false ∧ q.markersOf r ≠ [] ∧ q.coh.owner? (q.lineOf' r) = none
       ∧ q.blocked (q.lineOf' r) = false ∧ r.unapplied = true)
    ∧ (let r : Req := { aReq .store .sent with pa := 2 ^ 50 }
       let q : State := { asking .store .store .sent with flight := { (asking .store .store .sent).flight with reqs := [r] } }
       q.req? 6 = some r ∧ spaceOf q.ctl r.pa = .host ∧ r.nc = false ∧ q.blocked (q.lineOf' r) = false ∧ q.coh.owner? (q.lineOf' r) = none
       ∧ (q.flight.reqs.filter fun x => x.kind = .store && x.batch = r.batch && q.lineOf' x = q.lineOf' r) = [r])
    ∧ (rm.rmwWaits (aReq (.rmw 0 0) .sent) [0x10000] = false ∧ rm.blocked 0x10000 = false ∧ st.blocked 0x10000 = false)
    ∧ ((ld.sampleL1 5).op? 5 = some (anOp (.load 1)) ∧ ((ld.sampleL1 5).opReqs 5).all (fun q => q.stage = .performed || q.stage = .done) = true)
    ∧ (dn.op? 5 = some (anOp .store) ∧ (dn.opReqs 5).all (fun q => q.stage = .done) = true)
    ∧ (rd.flight.reqs.takeWhile fun q => q.id ≠ 6) = []
    ∧ (({ plain with units := { plain.units with shoots := [x] } } : State).units.shoots.find? fun y => y.id = 9 && y.units.contains 0) = some x
    ∧ plain.units.shoots.any Shoot.clears = false ∧ plain.thread? 1 0 = some plainThread ∧ (∀ n, plainThread.wait ≠ .stopped n) := by
  intro rd ld st rm dn x up
  refine ⟨⟨by decide +kernel, by decide +kernel, by decide +kernel, isSome_of (by decide +kernel)⟩,
    ⟨by decide +kernel, by decide +kernel, isSome_of (by decide +kernel)⟩,
    ⟨by decide +kernel, by decide +kernel, by decide +kernel, by decide +kernel, by decide +kernel, by decide +kernel, by decide +kernel⟩,
    ⟨by decide +kernel, by decide +kernel, by decide +kernel, by decide +kernel, by decide +kernel⟩,
    ⟨by decide +kernel, by decide +kernel, by decide +kernel, by decide +kernel, by decide +kernel, by decide +kernel⟩,
    ⟨by decide +kernel, by decide +kernel, rfl, by decide +kernel, by decide +kernel, by decide +kernel⟩,
    ⟨by decide +kernel, by decide +kernel, by decide +kernel⟩,
    ⟨by decide +kernel, by decide +kernel⟩, ⟨by decide +kernel, by decide +kernel⟩, by decide +kernel, by decide +kernel, by decide +kernel,
    by decide +kernel, ?_⟩
  intro n h
  have : plainThread.wait = .ready := by decide +kernel
  rw [this] at h
  cases h

/-- A request for a tile of the volume whose descriptor the core holds. -/
theorem witness_MemoryEventsComplete_alloc : let a : Alloc := { id := 7, team := 1, tid := 0, desc := 0x10000, tx := 0, ty := 0, tz := 0, answer := none }
    let s : State := { volume false with units := { (volume false).units with allocs := [a] } }
    (s.units.allocs.find? fun x => x.id = 7 && x.answer.isNone) = some a ∧ s.team? 1 = some plainTeam ∧ s.thread? 1 0 = some plainThread
    ∧ (∃ b m, volumeRead plainTeam plainThread s 0x10000 = .got b m ∧ (volumeOf b).isSome = true)
    ∧ ({ plain with flight := { plain.flight with results := [{ id := 4, team := 1, tid := 0, regs := [(10, 7)], flags := 0 }] } } : State).flight.results.length = 1 :=
  ⟨by decide +kernel, by decide +kernel, by decide +kernel, finds_of (p := fun b _ => (volumeOf b).isSome) (by decide +kernel), rfl⟩

/-- The home of a line lets the host read and write all of its memory. -/
def openHome (c : Ctl) (t : Nat) : Ctl :=
  (c.setReg (0x2000000 + 0x1000 * t + 0x200) 0).setReg (0x2000000 + 0x1000 * t + 0x208) (BitVec.ofNat 64 (2 ^ 35 - 1))

/-- A line with a sharer: a probe without and with its answer; a merge; a copy that the host port holds; an owner. -/
theorem witness_CoherenceEventsComplete : let e : DirEntry := { slice := home 0x10000, block := 0x10000, level := 3, sharers := [(.l1 0, 0x1FF)], owner := none, quiet := 0 }
    let p (r : Option Nat) (who : Sharer) : Probe := { dest := who, act := .invalidate, changed := [], reply := r }
    let txn (r : Option Nat) (who : Sharer) : Txn := { line := 0x10000, req := none, probes := [p r who], data := List.replicate 128 0, elems := [] }
    let s (r : Option Nat) (who : Sharer) : State := { plain with coh := { plain.coh with txns := [txn r who], dir := [e] } }
    let own : DirEntry := { e with owner := some (.control 0, .m), sharers := [] }
    let port : State := { plain with coh := { plain.coh with copies := [{ who := .hostPort, line := 0x10000, st := .m, data := [] }] } }
    ((s none (.l1 0)).txn? 0x10000 = some (txn none (.l1 0)) ∧ ((txn none (.l1 0)).probes.find? fun p => p.dest = .l1 0 && p.reply.isNone) = some (p none (.l1 0))
      ∧ sharerOf 0 = .l1 0)
    ∧ ((s none (.rdc 1)).txn? 0x10000 = some (txn none (.rdc 1))
      ∧ ((txn none (.rdc 1)).probes.find? fun p => p.dest = .rdc 1 && p.reply.isNone) = some (p none (.rdc 1)))
    ∧ ((s (some 0) (.l1 0)).txn? 0x10000 = some (txn (some 0) (.l1 0)) ∧ (s (some 0) (.l1 0)).coh.entry? 0x10000 = some e
      ∧ conflicts e 0x10000 ((txn (some 0) (.l1 0)).probes.filterMap Probe.reply) = false
      ∧ (s (some 0) (.l1 0)).mates 0x10000 = [txn (some 0) (.l1 0)])
    ∧ (∀ l ∈ [[(.l1 0, 0x1FF)], [(.l1 0, 0x1FF), (.l1 4, 0x1FF)]],
       let e1 : DirEntry := { e with level := 1, block := 0x10000 / levelSize 1 * levelSize 1, sharers := l }
       let m := if e1.half 0x10000 = 0 then 2 else 1
       let q : State := { plain with coh := { plain.coh with txns := [txn (some m) (.l1 0)], dir := [e1] } }
       q.txn? 0x10000 = some (txn (some m) (.l1 0)) ∧ q.mates 0x10000 = [txn (some m) (.l1 0)] ∧ q.coh.entry? 0x10000 = some e1
       ∧ conflicts e1 0x10000 [m] = true ∧ ((l.filter fun x => !([Sharer.l1 0].contains x.1)).isEmpty = decide (l.length = 1)))
    ∧ (({ plain with time := 65536, coh := { plain.coh with dir := [e] } } : State).coh.dir.find? fun e => e.level = 3 && e.block ≤ 0x10000
        && 0x10000 < e.block + levelSize 3 && 1 ≤ 3 && e.slice = home 0x10000) = some e
    ∧ (∃ st, ({ plain with coh := { plain.coh with dir := [own] } } : State).coh.owner? 0x10000 = some (sharerOf 2056, st) ∧ st = .m)
    ∧ plain.blocked 0x10000 = false ∧ isDeviceLine 0x10000 = true ∧ isHostLine (2 ^ 50) = true
    ∧ (plain.lets .host 0x10000 false = false ∧ plain.lets .host 0x10000 true = false ∧ ∀ st, plain.coh.owner? 0x10000 ≠ some (.host, st))
    ∧ (let q : State := { plain with ctl := openHome plain.ctl (home 0x10000) }
       q.lets .host 0x10000 false = true ∧ q.lets .host 0x10000 true = true ∧ q.blocked 0x10000 = false
       ∧ (∃ m, q.ownerForRead 0x10000 true = some m) ∧ ∀ st, q.coh.owner? 0x10000 ≠ some (.host, st))
    ∧ (∃ k, port.coh.copy? .hostPort 0x10000 = some k) := by
  intro e p txn s own port
  refine ⟨⟨by decide +kernel, by decide +kernel, by decide +kernel⟩, ⟨by decide +kernel, by decide +kernel⟩,
    ⟨by decide +kernel, by decide +kernel, by decide +kernel, by decide +kernel⟩, by decide +kernel, by decide +kernel, ⟨.m, by decide +kernel, rfl⟩,
    by decide +kernel, by decide +kernel, by decide, ⟨by decide +kernel, by decide +kernel, ?_⟩,
    ⟨by decide +kernel, by decide +kernel, by decide +kernel, isSome_of (by decide +kernel), ?_⟩, isSome_of (by decide +kernel)⟩
  · intro st
    have : plain.coh.owner? 0x10000 = none := by decide +kernel
    simp [this]
  · intro st
    have : plain.coh.owner? 0x10000 = none := by decide +kernel
    simp [this]

/-! ### Distributors, the supervisor, Ushers, engines -/

/-- A context segment that the core's unit translates, as it lies in device memory. -/
def segS (s : State) : State :=
  let page : Tlb := { unit := 0, asid := 0, va := 0x100000, len := 0x100000, pa := 0x100000, attr := 7, leaf := 0 }
  { s with units := { s.units with tlb := page :: { page with unit := 2048 } :: s.units.tlb }, ctl := (List.range 64).foldl (fun c n => c.open0 n) s.ctl }

def aGrid (placed : Nat) : Grid :=
  { id := 0, die := 0, recAddr := 0, asid := 0, launch := { probeLaunch with counter := 0x10000 }, origin := .queue 0 7, cls := 0, placed := placed, retired := 0,
    status := 0 }

def aTask : Task := { die := 0, addr := 0x10000, asid := 0, bytes := [], origin := .thread 1, cls := 0 }
def anIncrement (held : Bool) : Increment :=
  { die := 0, counter := 0x10000, recAddr := 0, asid := 0, held := held, grid := 0, origin := .queue 0 7, status := 0 }

def distS (d : Dist) (h : Thread → Thread) (u : Team → Team) : State := { segS (idle h u) with dist := d }

def gone (h : Thread) : Thread := { h with exited := true }
def saved (t : Team) : Team := { t with saveArea := some (0x20000, 0x40000), marked := true }
def out (t : Team) : Team :=
  { t with saveArea := some (0x20000, 0x40000), marked := true, removed := true, threads := t.threads.map fun h => { h with absent := List.range 9 } }

theorem witness_DistributorEventsComplete :
    (let s := distS { grids := [], tasks := [aTask], increments := [], gens := [] } atData id
     (s.dist.tasks.filter fun k => k.die = 0) = [aTask])
    ∧ (let s := distS { grids := [aGrid 0], tasks := [], increments := [], gens := [] } atData id
       s.nextGrid 0 = some (aGrid 0) ∧ (aGrid 0).dies.contains (coreDie 1) = true ∧ s.outTeams (coreDie 1) = []
       ∧ ([1] : List Nat).length = min (aGrid 0).launch.gangP ((aGrid 0).launch.total - (aGrid 0).placed)
       ∧ ∃ m, s.fresh.placeTeams (aGrid 0) 0 s.nextId 0 1 [1] = some m)
    ∧ (let s := distS { grids := [aGrid 1], tasks := [], increments := [], gens := [] } gone id
       s.team? 1 = some (oneTeam gone id) ∧ s.mayRetire (oneTeam gone id) = true
       ∧ ((s.dropTeam (oneTeam gone id)).dist.grids.find? fun g => g.id = (oneTeam gone id).grid) = some (aGrid 1)
       ∧ ¬((aGrid 1).retired + 1 < (aGrid 1).launch.total))
    ∧ (let s := distS { grids := [], tasks := [], increments := [anIncrement false], gens := [] } atData id
       (s.dist.increments.find? fun i => i.die = 0 && !i.held) = some (anIncrement false)
       ∧ ∃ p ps m, engReach s (distUnit 0) 0 0x10000 8 .rmw [] = .got (p :: ps) m)
    ∧ ((distS { grids := [], tasks := [], increments := [anIncrement true], gens := [] } atData id).dist.increments.any fun i =>
        i.die = 0 && i.held && i.counter = 0x10000 && i.recAddr = 0) = true
    ∧ (let s := distS { grids := [aGrid 0], tasks := [], increments := [], gens := [] } atData saved
       s.team? 1 = some (oneTeam atData saved) ∧ s.waitingGrids 0 ≠ [] ∧ s.atRest (oneTeam atData saved) = true
       ∧ (s.saveJobs (oneTeam atData saved)).1 = true)
    ∧ (let s := distS { grids := [], tasks := [], increments := [], gens := [] } atData out
       (s.teams.filter fun t => t.gang = 0) = [oneTeam atData out] ∧ (oneTeam atData out).removed = true ∧ s.goesFirst (oneTeam atData out) = false
       ∧ ∃ m, s.returnTeams [(oneTeam atData out, 1)] = some m) := by
  refine ⟨by decide +kernel, ⟨by decide +kernel, by decide +kernel, by decide +kernel, by decide +kernel, isSome_of (by decide +kernel)⟩,
    ⟨by decide +kernel, by decide +kernel, by decide +kernel, by decide +kernel⟩, ⟨by decide +kernel, ?_⟩, by decide +kernel,
    ⟨by decide +kernel, by decide +kernel, by decide +kernel, by decide +kernel⟩,
    ⟨by decide +kernel, rfl, by decide +kernel, isSome_of (by decide +kernel)⟩⟩
  exact parts_of (by decide +kernel)

def aRecord (kind : Nat) (written : Bool) : TrapRec :=
  { sub := 8, die := 0, handle := 0, team := 1, tid := 0, code := trapUser, kind := kind, restart := true, mask := 1, pc := 0x10000, idx := 0, under := 0,
    access := 0, level := 0, ident := 0, va := 0, progress := 0, written := written }

def trapS (kind : Nat) (written : Bool) : State :=
  let s := code (fun h => { atData h with wait := .stopped 8 }) id
  { s with traps := { s.traps with records := [aRecord kind written], rings := [{ base := 0x20000, size := 4, server := 0, set_ := true, produced := 2, consumed := 1 }] } }

theorem witness_SupervisorEventsComplete : let t := oneTeam (fun h => { atData h with wait := .stopped 8 }) id
    let one_ := (((trapS 0 true).unpark t (aRecord 0 true) id).thread? 1 0).getD plainThread
    (((trapS 0 false).traps.records.find? fun r => r.die = 0 && !r.written) = some (aRecord 0 false) ∧ ((trapS 0 false).ring 0).full = false)
    ∧ ((trapS 0 true).ring 0).consumed ≤ (2 : W64) ∧ (2 : W64) ≤ ((trapS 0 true).ring 0).produced
    ∧ (trapS 0 true).answered 0 0 0 1 = some (t, aRecord 0 true) ∧ (trapS 1 true).answered 0 0 0 1 = some (t, aRecord 1 true)
    ∧ (trapS 0 false).answered 0 0 0 1 = none
    ∧ t.parkedIn 8 = [0]
    ∧ (∃ w, (((trapS 0 true).unpark t (aRecord 0 true) id).fetch (t.coreOf 0) t.asid one_.priv one_.pc).1 = .ok w ∧ one_.idx + 1 < (headerOf w).count)
    ∧ plain.byHandle 0 0 = some plainTeam ∧ plainTeam.marked = false
    ∧ plainTeam.launch.spadBytes + 512 * plainTeam.launch.accRows + 4096 ≤ (0x20000 : W32).toNat ∧ (0x40000 : W64).toNat % 4096 = 0
      ∧ (0x40000 : W64).toNat + (0x20000 : W32).toNat ≤ 2 ^ 40
    ∧ ({ plain with cues := [aCue 0 .defined] } : State).cueNamed 0 0 0 = some (aCue 0 .defined) := by
  intro t one_
  refine ⟨⟨by decide +kernel, by decide +kernel⟩, by decide +kernel, by decide +kernel, by decide +kernel, by decide +kernel, by decide +kernel,
    by decide +kernel, ?_, by decide +kernel, by decide +kernel, by decide +kernel, by decide +kernel, by decide +kernel⟩
  obtain ⟨w, m, e, h⟩ := fetch_of (p := fun w => decide (one_.idx + 1 < (headerOf w).count))
    (x := ((trapS 0 true).unpark t (aRecord 0 true) id).fetch (t.coreOf 0) t.asid one_.priv one_.pc) (by decide +kernel)
  exact ⟨w, by rw [e], of_decide_eq_true h⟩

/-- A region whose usher the tests speak to, out of a descriptor of a kind. -/
def usherS (q : Region → Region) (l : List Demand) (held : List Held) : State :=
  let s := roomS 1 0x39 0 held q
  { s with ushers := { s.ushers with demands := l, leaves := [{ id := 9, team := 1, tid := 0, desc := 0x10000 }] } }

def aRoom (q : Region → Region) : Option Region := (regionOf 0x10000 (roomBytes 1 0x39 0)).map q

/-- A demand on its way; a region that has reached its tenure while a mode waits; an ETRY whose budget has passed; an answered lane. -/
theorem witness_UsherEventsComplete : let d := aDemand false none
    let try_ : Demand := { aDemand true none with kind := .etry 6 }
    let got := aDemand true (some (true, 0, 1))
    let open_ (r : Region) : Region := { r with mode := some 3, occ := 1, q := [(0, [{ team := 1, tid := 1, count := 1 }])] }
    let wait (h : Thread) : Thread := { atData h with wait := .usher }
    (∃ r, (usherS id [d] []).region? 0x10000 = some r ∧ r.full d.mode = false)
    ∧ ((usherS id [d] []).ushers.demands.find? fun x => x.id = 5 && !x.placed) = some d ∧ d.kind = .enter
    ∧ ((usherS id [d] []).ushers.demands.filter fun x => x.batch = d.batch && home x.desc = home d.desc && !x.placed && !x.reached) = [d]
    ∧ ((usherS id [d] []).ushers.leaves.find? fun x => x.id = 9) = some { id := 9, team := 1, tid := 0, desc := 0x10000 }
    ∧ (∃ r, ({ usherS open_ [] [] with time := 8192 } : State).region? 0x10000 = some r
        ∧ (r.mode.isSome && !r.closing && !r.q.isEmpty && decide ((if r.tenure = 0 then 8192 else r.tenure) ≤ 8192 - r.opened)) = true)
    ∧ ((usherS id [try_] []).demand? 1 0 = some try_ ∧ try_.placed = true ∧ try_.answer = none
      ∧ ∃ r, (usherS id [try_] []).region? 0x10000 = some r ∧ r.budget ≤ (usherS id [try_] []).time - try_.at_)
    ∧ (let s : State := { one wait id with ushers := { plain.ushers with demands := [got] } }
       s.demand? 1 0 = some got ∧ s.team? 1 = some (oneTeam wait id) ∧ ∃ h, s.thread? 1 0 = some h ∧ h.wait = .usher) := by
  intro d try_ got open_ wait
  have some2 : ∀ (o : Option Region) (p : Region → Bool), o.any p = true → ∃ r, o = some r ∧ p r = true := by
    intro o p h
    cases o with
    | none => cases h
    | some r => exact ⟨r, rfl, h⟩
  refine ⟨?_, by decide +kernel, rfl, by decide +kernel, by decide +kernel, some2 _ (fun r => r.mode.isSome && !r.closing && !r.q.isEmpty
      && decide ((if r.tenure = 0 then 8192 else r.tenure) ≤ 8192 - r.opened)) (by decide +kernel),
    ⟨by decide +kernel, rfl, rfl, ?_⟩, ⟨by decide +kernel, by decide +kernel, ((oneTeam wait id).thread? 0).getD plainThread, by decide +kernel, by decide +kernel⟩⟩
  · obtain ⟨r, e, h⟩ := some2 ((usherS id [d] []).region? 0x10000) (fun r => !r.full d.mode) (by decide +kernel)
    exact ⟨r, e, by simpa using h⟩
  · obtain ⟨r, e, h⟩ := some2 ((usherS id [try_] []).region? 0x10000) (fun r => decide (r.budget ≤ (usherS id [try_] []).time - try_.at_)) (by decide +kernel)
    exact ⟨r, e, of_decide_eq_true h⟩

/-- A copy that has just been armed. -/
def armed : State := match defineCue cueWord (some 0) 0 plainTeam plainThread (cueS 0 []) with
  | .made c m => m.arm c.core c.slot
  | _ => plain

/-- What a cue's start comes to, as a test. -/
def starts (x : CueStep) (fault : Bool) : Bool := match x with
  | .did _ => !fault
  | .fault _ _ _ => fault
  | _ => false

theorem starts_of {x : CueStep} (c : starts x false = true) : ∃ m, x = .did m := by
  unfold starts at c
  split at c <;> first | exact ⟨_, rfl⟩ | cases c

theorem faults_of {x : CueStep} (c : starts x true = true) : ∃ a r m, x = .fault a r m := by
  unfold starts at c
  split at c <;> first | exact ⟨_, _, _, rfl⟩ | cases c

def jobRecord (saved : Bool) : List Byte :=
  toBytes 8 0x10000 ++ toBytes 2 1 ++ [1, if saved then 2 else 0, 0, 0] ++ toBytes 2 1 ++ List.replicate 8 0
    ++ toBytes 8 (if saved then 0x20000 else 0) ++ List.replicate 224 0

def jobS : State :=
  { plain with cues := [{ aCue 0 .active with kind := .walker }]
               walk := { plain.walk with jobs := [{ cluster := 0, ctx := 0, core := 0, slot := 0, record := jobRecord false, saved := false }] } }

/-- The same of a job that was saved, with a save area at 0x20000 in the host window, which its unit may read. -/
def savedS : State :=
  let page : Tlb := { unit := 2048, asid := 0, va := 0x20000, len := 0x10000, pa := 2 ^ 50, attr := 7, leaf := 0 }
  { jobS with units := { jobS.units with tlb := page :: jobS.units.tlb }
              ctl := (jobS.ctl.setReg (0x2000000 + 0x1000 * 512) 0).setReg (0x2000000 + 0x1000 * 512 + 8) (BitVec.ofNat 64 (2 ^ 35 - 1))
              walk := { plain.walk with jobs := [{ cluster := 0, ctx := 0, core := 0, slot := 0, record := jobRecord true, saved := true }] } }

/-- An engine with one pass. -/
def engineS (u : Team → Team) (f : Pass → Pass) : State :=
  let s := stream u id
  s.setEngine { s.engine 0 with table := [f (newPass s aPrompter (oneTeam atData u) .mzero pw_ 0 0 0)] }

/-- What a row comes to, as a test. -/
def halts (x : RowStep) : Bool := match x with
  | .stop _ _ => true
  | _ => false

theorem halts_of {x : RowStep} (c : halts x = true) : ∃ e m, x = .stop e m := by
  unfold halts at c
  split at c <;> first | exact ⟨_, _, rfl⟩ | cases c

theorem witness_EngineEventsComplete :
    (∃ c, armed.cue? 0 0 = some c ∧ ∃ m, armed.startStep c = .did m)
    ∧ (let c : Cue := { aCue 0 .active with kind := .stream }
       let s : State := { plain with cues := [c] }
       s.cue? 0 0 = some c ∧ ∃ a r m, s.startStep c = .fault a r m)
    ∧ (let c : Cue := { aCue 0 .active with started := true, counting := true }
       ({ plain with cues := [c] } : State).cue? 0 0 = some c ∧ c.performed = true
       ∧ ∃ p ps m, engReach { plain with cues := [c] } c.unit c.asid c.counter 8 .rmw c.marks = .got (p :: ps) m)
    ∧ (∀ x ∈ [WalkWait.load 5 0x10000 4 0x10000, .elements [(0x10000, 0x10000)]], let f (w : Walker) : Walker := { w with wait := x }
       (walking f).walker? 0 0 = some (aWalker f) ∧ (aWalker f).wait = x)
    ∧ 256 ≤ look 0 ({ plain with walk := { plain.walk with issued := [(0, 256)] } } : State).walk.issued 0
    ∧ ((jobS.walker? 0 0).isNone = true ∧ (∃ j, jobS.nextJob 0 0 = some j ∧ j.saved = false ∧ jobLegal j.record = true)
      ∧ ∃ prog m, loadProgram jobS (clusterUnit 0) 0 0x10000 0 [] 1 = .got prog m)
    ∧ (let s := (List.range 8).foldl (fun s c => s.consumePasses 0 c) ((engineS oneRow id).agePasses 0)
       ∃ x m, (s.engine 0).busy = false ∧ s.nextPass 0 = some x ∧ s.team? x.team = some (oneTeam atData oneRow)
         ∧ s.chain 0 (oneTeam atData oneRow) x = some [(0, oneTeam atData oneRow)]
         ∧ (s.reserve 0 x).matching x [(0, oneTeam atData oneRow)] = some [m] ∧ m.2.2.2 = { x with reserved := true }
         ∧ ((s.reserve 0 x).engine m.1).busy = false ∧ (s.reserve 0 x).firstBad [m] = none) := by
  refine ⟨⟨(armed.cue? 0 0).getD (aCue 0 .active), by decide +kernel, starts_of (by decide +kernel)⟩, ⟨by decide +kernel, faults_of (by decide +kernel)⟩,
    ⟨by decide +kernel, by decide +kernel, parts_of (by decide +kernel)⟩, ?_, by decide, ?_, ?_⟩
  · intro x m
    simp only [List.mem_cons, List.not_mem_nil, or_false] at m
    rcases m with rfl | rfl <;> exact ⟨by decide +kernel, rfl⟩
  · obtain ⟨b, m, e, -⟩ := finds_of (p := fun _ _ => true) (r := loadProgram jobS (clusterUnit 0) 0 0x10000 0 [] 1) (by decide +kernel)
    exact ⟨by decide +kernel, ⟨{ cluster := 0, ctx := 0, core := 0, slot := 0, record := jobRecord false, saved := false },
      by decide +kernel, rfl, by decide +kernel⟩, b, m, e⟩
  · let x := newPass (stream oneRow id) aPrompter (oneTeam atData oneRow) .mzero pw_ 0 0 0
    exact ⟨x, (0, aPrompter, oneTeam atData oneRow, { x with reserved := true }), by decide +kernel, by decide +kernel, by decide +kernel,
      by decide +kernel, by decide +kernel, rfl, by decide +kernel, by decide +kernel⟩

/-- A job that was saved. -/
theorem witness_EngineEventsComplete_saved : (savedS.nextJob 0 0).isSome = true ∧ jobLegal (jobRecord true) = true
    ∧ ∃ prog m b m1, loadProgram savedS (clusterUnit 0) 0 0x10000 0 [] 1 = .got prog m
      ∧ engReadLong m (clusterUnit 0) 0 (jobOf (jobRecord true)).save 514 = .got b m1 := by
  refine ⟨by decide +kernel, by decide +kernel, ?_⟩
  obtain ⟨b, m, e, h⟩ := finds_of (p := fun _ m => finds (engReadLong m (clusterUnit 0) 0 (jobOf (jobRecord true)).save 514) fun _ _ => true)
    (r := loadProgram savedS (clusterUnit 0) 0 0x10000 0 [] 1) (by decide +kernel)
  obtain ⟨b1, m1, e1, -⟩ := finds_of h
  exact ⟨b, m, b1, m1, e, e1⟩

/-- A finished pass, and a running store whose operand is not mapped. -/
theorem witness_EngineEventsComplete_pass : let fin (x : Pass) : Pass := { x with finished := true }
    let run (x : Pass) : Pass := { x with kind := .mstc, word := { pw_ 1 with fo := 0 }, ka := 0x90000, granted := true }
    (∃ x, ((engineS oneRow fin).engine 0).table.find? (fun x => x.finished && decide ((((engineS oneRow fin).passesOf 0 x.ctx)[0]?).map Pass.id = some x.id)) = some x
      ∧ ((engineS oneRow fin).mx.ctxs.find? fun p => p.cluster = 0 && p.ctx = x.ctx) = some aPrompter)
    ∧ (∃ x p t, (engineS oneRow run).runningPass 0 = some (x, p, t) ∧ ∃ e m, rowStep x p t 0 (engineS oneRow run) = .stop e m) := by
  intro fin run
  let y := newPass (stream oneRow id) aPrompter (oneTeam atData oneRow) .mzero pw_ 0 0 0
  exact ⟨⟨fin y, by decide +kernel, by decide +kernel⟩, ⟨run y, aPrompter, oneTeam atData oneRow, by decide +kernel, halts_of (by decide +kernel)⟩⟩

/-- A NOISE of the lane that waits for its draws; the ring of its team holds one draw's room, or one draw. -/
def noiseReq : DrawReq :=
  { id := 7, cluster := 0, team := 1, kind := 0, tid := 0, who := .noise 10, need := 2, got := [], slots := [], held := false }

/-- The segment's indices: `done` and the limit; a ring of four records at 0x10040, the second of ordinal 1; a recording or a replaying
team. -/
def ringS (mode limit : Nat) : State :=
  let u (t : Team) : Team := { t with rehearsal := mode, ringBase := 0x10040, ringSize := 4, launch := { t.launch with segBase := 0x10000 } }
  let s := one atData u
  { s with mem := putLe (putLe [] 0x10018 8 limit) 0x10048 8 (2 ^ 32), noise := { s.noise with reqs := [noiseReq] } }

/-- Live, recording into a ring with room and into a full one, and replaying the first and the second of two draws. -/
theorem witness_NoiseEventsComplete : let u := clusterUnit 0
    ((ringS 0 1).nextLive 0 = some noiseReq ∧ (ringS 0 1).noise.failing.contains 0 = false ∧ (ringS 0 1).drawMode noiseReq = 0)
    ∧ ((ringS 1 1).nextLive 0 = some noiseReq ∧ ∃ t, (ringS 1 1).team? 1 = some t ∧ t.rehearsal = 1
      ∧ (∃ x m, drawIndices (ringS 1 1) t u noiseReq = .got x m ∧ (decide (x.1 < x.2) && finds (engWrite
          { m with noise := { m.noise with drawn := m.noise.drawn + 1 } } u t.asid (t.ringBase + BitVec.ofNat 64 (8 * (x.1 % t.ringSize)))
          (toBytes 8 1) []) fun _ m1 => finds (engWrite m1 u t.asid (t.launch.segBase + 16) (toBytes 8 (x.1 + 1)) []) fun _ _ => true) = true)
      ∧ ∃ x m, drawIndices (ringS 1 0) t u noiseReq = .got x m ∧ decide (x.2 ≤ x.1) = true)
    ∧ (∀ g ∈ [[], [9]], let r : DrawReq := { noiseReq with got := g, slots := List.range g.length }
       let s : State := { ringS 2 2 with noise := { (ringS 2 2).noise with reqs := [r] } }
       s.replayReq 0 7 = some r ∧ ∃ t, s.team? 1 = some t ∧ t.rehearsal = 2
        ∧ ∃ b s1, engRead s u t.asid (t.launch.segBase + 16) 16 [] = .got b s1
          ∧ (finds (findRecord s1 t u 0 0 r.slots.length 0 2) fun d s2 => d.any (fun x => x.2 = g.length)
              && finds (engWrite s2 u t.asid (t.launch.segBase + 16) (toBytes 8 1) []) fun _ _ => true) = true) := by
  intro u
  refine ⟨⟨by decide +kernel, by decide +kernel, by decide +kernel⟩,
    ⟨by decide +kernel, ((ringS 1 1).team? 1).getD plainTeam, by decide +kernel, by decide +kernel, ?_, ?_⟩, ?_⟩
  · obtain ⟨x, m, e, h⟩ := finds_of (r := drawIndices (ringS 1 1) (((ringS 1 1).team? 1).getD plainTeam) u noiseReq)
      (p := fun x m => decide (x.1 < x.2) && finds (engWrite { m with noise := { m.noise with drawn := m.noise.drawn + 1 } } u
        (((ringS 1 1).team? 1).getD plainTeam).asid ((((ringS 1 1).team? 1).getD plainTeam).ringBase +
          BitVec.ofNat 64 (8 * (x.1 % (((ringS 1 1).team? 1).getD plainTeam).ringSize))) (toBytes 8 1) []) fun _ m1 =>
        finds (engWrite m1 u (((ringS 1 1).team? 1).getD plainTeam).asid ((((ringS 1 1).team? 1).getD plainTeam).launch.segBase + 16)
          (toBytes 8 (x.1 + 1)) []) fun _ _ => true) (by decide +kernel)
    exact ⟨x, m, e, h⟩
  · exact finds_of (p := fun (x : Nat × Nat) _ => decide (x.2 ≤ x.1)) (by decide +kernel)
  · intro g m
    simp only [List.mem_cons, List.not_mem_nil, or_false] at m
    rcases m with rfl | rfl <;>
      exact ⟨by decide +kernel, ((ringS 2 2).team? 1).getD plainTeam, by decide +kernel, by decide +kernel, finds_of (by decide +kernel)⟩

/-- A part that is ready, whose host may reach everything, with a queue of 16 entries, a port queue and a completion. -/
def hostS : State :=
  let s := one atData id
  let page : Tlb := { unit := 2560, asid := 0, va := 0x10000, len := 0x10000, pa := 0x10000, attr := 7, leaf := 0 }
  let c1 := (((s.ctl.setReg 0x20 0x10000).setReg (queueWord 0 1) 16).setReg (queueWord 0 3) 0x10000).setReg (0x2000000 + 0x1000 * home 0x10000 + 0x308) (BitVec.ofNat 64 (2 ^ 35 - 1))
  { s with
    units := { s.units with tlb := page :: s.units.tlb, windows := (2560, 0, []) :: s.units.windows }
    ctl := { openHome (openHome c1 514) 515 with
             ready := true, completions := [{ queue := 0, tag := 7, status := 0 }],
             ports := [{ port := 0, queue := 0, subBase := 0, compBase := 0x10000, asid := 0, size := 4, done := 0 }] } }

theorem witness_HostEventsComplete : let c := hostS.ctl
    c.hostMay (queueWord 0 1) = true ∧ c.hostMay (queueWord 0 4) = true ∧ c.hostMay 0x5000020 = true
    ∧ (∃ x, (c.completions.find? fun x => x.queue = 0) = some x) ∧ c.queueOn 0 = true
    ∧ (c.doneTail 0 + 2 ^ 32 - c.doneHead 0) % 2 ^ 32 < c.queueSize 0 ∧ ringSpace c ((c.reg (queueWord 0 3)).toNat + 16 * (c.doneTail 0 % c.queueSize 0)) = true
    ∧ c.ready = true ∧ ringSpace c ((c.reg 0x20).toNat + 32 * 1) = true ∧ bitOf (fieldOf (hostS.peekBytes ((c.reg 0x20).toNat + 32 * 1) 32) 20 1) 0 = false
    ∧ (∃ p, (c.ports.find? fun p => p.port = 0 && p.queue = 0) = some p ∧ p.size ≠ 0
        ∧ ∃ bad s1, hostS.portWork p [] = .got bad s1 ∧ finds (portReach s1 p 0x10000 16 .write) (fun _ _ => true) = true)
    ∧ accessPasses c (portClass 0) ((c.reg 0x20).toNat + 32 * 1) false = true
    ∧ 1000 * (c.reg 0x18).toNat < (c.setReg (telemetryOf 0) 1).power
    ∧ c.down.contains (1, 0) = false
    ∧ (let d : Ctl := { c with down := (List.range 16).map fun p => (1, p) }
       d.unreachable.contains 1 = false ∧ (∀ p < 16, d.down.contains (1, p) = true) ∧ hostS.flight.reqs = [] ∧ hostS.flight.ops = [])
    ∧ plain.ctl.ready = false ∧ plain.ctl.halted = false := by
  intro c
  refine ⟨by decide +kernel, by decide +kernel, by decide +kernel, isSome_of (by decide +kernel), by decide +kernel, by decide +kernel, by decide +kernel,
    by decide +kernel, by decide +kernel, by decide +kernel, ⟨_, rfl, by decide, finds_of (by decide +kernel)⟩, by decide +kernel, by decide +kernel, by decide +kernel,
    ⟨by decide +kernel, by decide +kernel, by decide, by decide⟩, by decide, by decide⟩

/-- R417, R220: the die's trap ring shows its indices in control space; a reserved offset reads 0. -/
theorem test_control_space_read : (trapS 0 true).controlRegister 0x20C00 = 2 ∧ (trapS 0 true).controlRegister 0x20C08 = 1
    ∧ (trapS 0 true).controlRegister 0x20C10 = 0 ∧ (trapS 0 true).controlRegister 0x20C04 = 0 := by decide +kernel

/-! ### The machine as a whole -/

/-- A word that decodes to an instruction. -/
theorem decodes_of {e : Except Reject Instr} {i : Instr} (h : e.toOption = some i) : e = .ok i := by
  cases e <;> simp_all [Except.toOption]

/-- One turn of each kind of agent, on the state that `withFetchWord` makes: IADD, MNOP, WNOP, and an event. -/
theorem witness_StepRunsDecodedInstruction : let s := State.reset.withFetchWord 64 0x0042830800800F00
    let p := State.reset.withFetchWord 64 0x00FF000000000000
    let w := State.reset.withFetchWord 32 0
    let x (s : State) : State := { s.tick 1 with agenda := [] }
    (∃ t r, s.agenda = t :: r ∧ s.nextTurn = (.bundle 1, x s) ∧ ∃ b u h, (x s).bundles = [b] ∧ b.id = 1 ∧ (x s).portOrder 1 = [1] ∧ (x s).team? b.team = some u ∧ (b.threads u)[0]? = some h
      ∧ b.notBefore ≤ (x s).time
      ∧ ∃ v m, (x s).fetch (u.coreOf h.tid) u.asid h.priv h.wordAddr = (.ok v, m) ∧ ((decodeCore v).toOption.any fun i => !endsClause i) = true)
    ∧ (p.nextTurn = (.prompter 0 0, x p) ∧ ∃ c u, ((x p).mx.ctxs.find? fun y => y.cluster = 0 && y.ctx = 0) = some c ∧ (x p).team? c.team = some u ∧ c.st = .running
      ∧ u.removed = false ∧ c.count ≠ 0
      ∧ ∃ v m, (x p).fetch (clusterUnit 0) u.asid false (c.hdr + BitVec.ofNat 64 (8 + 8 * c.idx)) = (.ok v, m) ∧ ((decodeStream v).toOption.any fun i => !endsStream i) = true)
    ∧ (w.nextTurn = (.walker 0, x w) ∧ ∃ c, (x w).walker? 0 (look 0 (x w).walk.slot 0) = some c ∧ (x w).walkerCanRun c = true
      ∧ look 0 (x w).walk.issued 0 < 256 ∧ c.stopped = false ∧ c.pc < c.job.len ∧ decodeWalker (look 0 c.prog c.pc) = .ok .wnop)
    ∧ (({ State.reset with agenda := [.event (.passAging 0)] } : State).nextTurn = (.event (.passAging 0), x State.reset) ∧ (Instr.passAging 0).kind = .event) := by
  intro s p w x
  let u : Team := probeTeam State.reset
  exact ⟨⟨.bundle 1, [], by decide +kernel, by decide +kernel, { id := 1, team := 0, slot := 0, tids := List.range 16, count := 1, cls := 0, start := 0, notBefore := 0, stalled := false }, u, Thread.fresh 0 0x10000 (u.stackTop 0) 0,
      by decide +kernel, rfl, by decide +kernel, by decide +kernel, by decide +kernel, by decide +kernel,
      fetch_of (p := fun v => (decodeCore v).toOption.any fun i => !endsClause i) (by decide +kernel)⟩,
    ⟨by decide +kernel, { Prompter.fresh 0 0 0 0x10000 State.reset.mx.nextCkpt with count := 1 }, u, by decide +kernel, by decide +kernel, by decide +kernel, by decide +kernel,
      by decide, fetch_of (p := fun v => (decodeStream v).toOption.any fun i => !endsStream i) (by decide +kernel)⟩,
    ⟨by decide +kernel, ((x w).walker? 0 0).getD (Walker.idle 0 0), by decide +kernel, by decide +kernel, by decide +kernel, by decide +kernel,
      by decide +kernel, decodes_of (by decide +kernel)⟩, ⟨by decide +kernel, rfl⟩⟩

/-- A walker that is about to fetch a WBR whose condition is 9. -/
theorem witness_WalkerConditionsFollowTheFlags : Walks (walking id) (aWalker id)
    ∧ (0 : Int) ≤ ((aWalker id).pc : Int) + (3 : BitVec 22).toInt ∧ ((aWalker id).pc : Int) + (3 : BitVec 22).toInt < (aWalker id).job.len
    ∧ (let s := State.reset.withFetchWord 32 0x4E400001
      ∃ s0 c, s.nextTurn = (.walker 0, s0) ∧ s0.walker? 0 (look 0 s0.walk.slot 0) = some c ∧ s0.walkerCanRun c = true
        ∧ look 0 s0.walk.issued 0 < 256 ∧ c.stopped = false ∧ c.pc < c.job.len ∧ look 0 c.prog c.pc = 0x4E400001) :=
  ⟨walks_of (by decide), by decide, by decide, _, _, rfl, rfl, by decide +kernel, by decide, by decide, by decide, rfl⟩

/-- Both encodings of a well-formed instruction exist: a word of each decoder. -/
theorem witness_EncodingsReadBack : Instr.wellFormed (.iadd (rw_ 0 (c := 0))) = true ∧ (Instr.iadd (rw_ 0 (c := 0))).kind ≠ .event
    ∧ refusedWith (decodeCore 0x0042830800800F00) = none ∧ refusedWith (decodeStream 0x00FF000000000000) = none ∧ refusedWith (decodeWalker 0) = none := by
  decide

/-- A step from a canonical memory. -/
theorem witness_StepsKeepMemoryCanonical : let s := State.reset.withFetchWord 64 0x0042830800800F00
    Memory.wf s.mem = true ∧ (match step s with
      | .next _ => true
      | _ => false) = true := by decide +kernel

theorem witness_MemoryReadsWhatWasWritten : (5 < 6 ∨ 6 + [1, 2].length ≤ 5) ∧ (6 + ([1, 2] : List Byte).length ≤ 8) ∧ Memory.wf (putBytes [] 6 [1, 2]) = true := by
  decide

theorem witness_PrivilegedInstructionsStop : plain.issuer = some (oneBundle, plainTeam) ∧ oneBundle.tids = [0] ∧ plainTeam.pick [0] = [plainThread]
    ∧ plainThread.tid = 0 ∧ plainTeam.thread? 0 = some plainThread ∧ plainThread.priv = false := by decide +kernel

theorem witness_WritesRaiseTheirLinesTag : isDeviceLine 0x10000 = true ∧ (∀ p ∈ ([(126, [1, 2])] : Pieces), p.1 + p.2.length ≤ 128) := by decide


/-! A sparse tile in the scratchpad: 64 rows of positions, each one its row modulo 4. -/

@[irreducible] def sparseCells : List Host.Cell := (List.range 8192).map fun i => (i, BitVec.ofNat 8 (i / 128 % 4))
def sparse (t : Team) : Team := { t.setK 22 64 with spad := sparseCells, launch := { t.launch with spadBytes := 8192 } }
def sparseRow (j : Nat) : List Nat := List.replicate 128 (j % 4)

theorem look_graph {f : Nat → Byte} {a : Nat} : ∀ {l : List Nat}, a ∈ l → look blankByte (l.map fun i => (i, f i)) a = f a
  | b :: l, h => by
    simp only [List.map_cons, look]
    split
    · simp_all
    · exact look_graph ((List.mem_cons.mp h).resolve_left fun e => ‹¬b = a› e.symm)

theorem getBytes_same {m : List Host.Cell} {v : Byte} : ∀ {n a : Nat}, (∀ k < n, getByte m (a + k) = v) → getBytes m a n = List.replicate n v
  | 0, _, _ => rfl
  | n + 1, a, h => by
    rw [getBytes, List.replicate_succ, show getByte m a = v from h 0 (by omega),
      getBytes_same fun k hk => by rw [Nat.add_assoc, Nat.add_comm 1]; exact h (k + 1) (by omega)]

theorem getByte_sparse {a : Nat} (h : a < 8192) : getByte sparseCells a = BitVec.ofNat 8 (a / 128 % 4) := by
  unfold getByte sparseCells
  exact look_graph (f := fun i => BitVec.ofNat 8 (i / 128 % 4)) (List.mem_range.mpr h)

theorem sparseCells_row {j : Nat} (h : j < 64) : getBytes sparseCells (128 * j) 128 = List.replicate 128 (BitVec.ofNat 8 (j % 4)) :=
  getBytes_same fun k hk => by
    rw [getByte_sparse (by omega), show (128 * j + k) / 128 = j by omega]

theorem bits_row : ∀ v < 4, ((List.range 128).map fun i => bitsOf (ofBytes (List.replicate 128 (BitVec.ofNat 8 v))) (0 + 8 * i) 8) = List.replicate 128 v := by
  decide +kernel

theorem readRows_of {f : State → Nat → Found (List Nat)} {s : State} {row : Nat → List Nat} :
    ∀ {n j : Nat}, (∀ k, j ≤ k → k < j + n → f s k = .got (row k) s) → readRows f s j n = .got ((List.range' j n).map row) s
  | 0, _, _ => rfl
  | n + 1, j, h => by
    rw [readRows, h j (by omega) (by omega)]
    simp only [readRows_of (n := n) (j := j + 1) fun k h1 h2 => h k (by omega) (by omega)]
    rfl

theorem sparse_ok : positionsOk 4 ((List.range' 0 64).map sparseRow) = true := by
  simp only [positionsOk, List.all_eq_true, List.mem_range, List.length_map, List.length_range']
  intro r hr c hc
  have v (x : Nat) (hx : x < 64) : (((List.range' 0 64).map sparseRow).getD x []).getD c 0 = x % 4 := by
    have h : (List.range' 0 64)[x]? = some x := by simp [hx]
    have g : (List.replicate 128 (x % 4))[c]? = some (x % 4) := by rw [List.getElem?_replicate, if_pos hc]
    rw [List.getD, List.getD, List.getElem?_map, h, Option.map_some, Option.getD_some, sparseRow, g, Option.getD_some]
  simp only [v r hr, v (r - 1) (by omega), Bool.and_eq_true, Bool.or_eq_true, decide_eq_true_eq]
  omega

theorem readBits_sparse {s : State} {t : Team} (e : s.team? t.id = some t) (hs : t.spad = sparseCells) (hb : t.launch.spadBytes = 8192) {j : Nat} (h : j < 64) :
    readBits s t 0 0 0 (1024 * j) 8 128 = .got (sparseRow j) s := by
  have h1 : 1024 * j / 8 = 128 * j := by omega
  have h2 : (1024 * j + 128 * 8 + 7) / 8 - 128 * j = 128 := by omega
  have h3 : 1024 * j % 8 = 0 := by omega
  have h4 : ¬(8192 < (0 : W64).toNat + 128 * j + 128) := by simp; omega
  simp only [readBits, readAt, extentAt, h1, h2, h3, hb, if_neg h4, if_true, Extent.bytes, e, Option.map_some, Option.getD_some, Team.spadBytesAt, hs]
  rw [show (0 : W64).toNat + 128 * j = 128 * j by simp, sparseCells_row h, bits_row _ (Nat.mod_lt _ (by decide))]
  rfl

theorem readSparse_of {w : PWord} {p : Prompter} {t : Team} {s : State} {l : List (List Nat)} (hk : w.kind = 0) (h1 : t.place 0 w.ka = 0)
    (h2 : t.place 0 w.kc = 0) (h3 : t.kreg w.kb.toNat = 64) (h4 : t.kreg w.km.toNat = 0) (hf : w.fa = 3) (hs : w.sp = 1) (hc : p.cluster = 0)
    (l0 : locationStop t 0 0 = none) (all : readRows (fun s j => readBits s t 0 0 0 (1024 * j) 8 128) s 0 64 = .got l s)
    (ok : positionsOk 4 l = true) : ∃ g m, readSparseTile w p t s = .got g m := by
  have row (j : Nat) : rowBit (extStride 64) 8 128 j = 1024 * j := by simp [rowBit, extStride]; omega
  have c : codeBits 3 = 8 := rfl
  have n : extCount 64 = 64 := rfl
  have m0 (b : W64) : modeStop 0 b = none := rfl
  have e : extentStop 64 = none := rfl
  have k : keptOf 1 = 4 := rfl
  have sc : modeScaled 0 = false := rfl
  have three : (3 : BitVec 4).toNat = 3 := rfl
  have one : (1 : BitVec 3).toNat = 1 := rfl
  simp only [readSparseTile, hk, h1, h2, h3, h4, hf, hs, hc, l0, three, one, n, m0, e, k, c, show tileRows 3 = 64 from rfl]
  split
  · rename_i x hx
    simp [firstStop, stopIf] at hx
  · simp only [row, all, ok, withScales, sc, Bool.not_false, if_true, Bool.false_eq_true, if_false]
    exact ⟨_, _, rfl⟩

/-- MLDWS: the positions of each group ascend from 0 to 3. -/
theorem witness_StreamLoadsComplete_sparse : let s := stream sparse id
    let t := oneTeam atData sparse
    Prompts s aPrompter t ∧ Phased s aPrompter t 15 aPrompter s ∧ aPrompter.staged = none ∧ s.passesOf 0 0 = []
    ∧ ∃ g m, readSparseTile (pw_ (fa := 3) (sp := 1)) aPrompter t s = .got g m := by
  intro s t
  have rows : ∀ k, 0 ≤ k → k < 0 + 64 → readBits s t 0 0 0 (1024 * k) 8 128 = .got (sparseRow k) s :=
    fun k _ hk => readBits_sparse (t := t) rfl rfl rfl (by omega)
  have settled : s.consumePasses 0 0 = s := by
    unfold State.consumePasses
    rw [show s.passesOf 0 0 = [] from rfl]
    rfl
  exact ⟨⟨rfl, rfl, rfl, settled⟩, .inl ⟨.inl rfl, rfl, rfl⟩, rfl, rfl,
    readSparse_of (t := t) rfl (by decide) (by decide) (by decide) (by decide) rfl rfl rfl rfl (readRows_of rows) sparse_ok⟩

/-! Single steps, with results that the spec's examples and rules give. -/

/-- Thread 0 of the witness team after an instruction, its registers first set as `f` says. -/
def after (i : Instr) (f : Thread → Thread) : Option Thread :=
  match exec i (one (fun h => f (atData h)) id) with
  | .next s => s.thread? 1 0
  | _ => none

/-- What is on its way to a register after a long-latency instruction. -/
def sent (i : Instr) (f : Thread → Thread) : List (List (Nat × W32) × W32) :=
  match exec i (one (fun h => f (atData h)) id) with
  | .next s => s.flight.results.map fun r => (r.regs, r.flags)
  | _ => []

/-- Registers 2, 4 and 6, the operands a, b and c. -/
def abc (a b c : W32) (h : Thread) : Thread := ((h.setReg 2 a).setReg 4 b).setReg 6 c

/-- R127: the sum 2^31 clamps to 2^31 - 1 with SA, bit 6 of FPFLAGS (R65). -/
theorem test_IADD_saturates : (after (.iadd (rw_ 0 0x80 (c := 0))) (abc 0x7FFFFFFF 1 0)).map (fun h => (h.reg 10, h.fpflags))
    = some (0x7FFFFFFF, flagSA) := by decide +kernel
/-- R127: I16x2 wraps in each element, without a flag. -/
theorem test_IADD_packed : (after (.iadd (rw_ 4 (c := 0))) (abc 0x7FFFFFFF 0x00010001 0)).map (fun h => (h.reg 10, h.fpflags))
    = some (0x80000000, 0) := by decide +kernel
/-- R127: 0 - 1 borrows. -/
theorem test_IADDC_borrows : (after (.iaddc (rw_ 1 1 (c := 1))) (abc 0 1 0)).map (fun h => (h.reg 10, h.pred 1))
    = some (0xFFFFFFFF, true) := by decide +kernel
/-- R126: the upper half of -1 x 2. -/
theorem test_IMULH_signed : (after (.imulh (rw_ 0 (c := 0))) (abc 0xFFFFFFFF 2 0)).map (fun h => h.reg 10) = some 0xFFFFFFFF := by decide +kernel
/-- R129: -7 / 2 is -3, and leaves -1. -/
theorem test_IDIV_truncates : sent (.idiv (rw_ 0 (c := 0))) (abc 0xFFFFFFF9 2 0) = [([(10, 0xFFFFFFFD)], 0)] := by decide +kernel
theorem test_IREM_sign : sent (.irem (rw_ 0 (c := 0))) (abc 0xFFFFFFF9 2 0) = [([(10, 0xFFFFFFFF)], 0)] := by decide +kernel
/-- R132: a shift by 40 fills with the sign. -/
theorem test_SHA_beyond : (after (.sha (rw_ 0 (c := 0))) (abc 0x80000000 40 0)).map (fun h => h.reg 10) = some 0xFFFFFFFF := by decide +kernel
/-- R133: four bits from bit 4, all ones, extended by sign. -/
theorem test_BFE_signed : (after (.bfe (rw_ 0 (c := 0))) (abc 0xF0 0x0404 0)).map (fun h => h.reg 10) = some 0xFFFFFFFF := by decide +kernel
/-- R134: bytes 7, 4, 0 of the pool, and a nibble of 9. -/
theorem test_BYTEP_pool : (after (.bytep (rw_ 0)) (abc 0x03020100 0x07060504 0x9047)).map (fun h => h.reg 10) = some 0x00000407 := by decide +kernel
/-- R137's example. -/
theorem test_MOVIH_example : (after (.movih (iw_ 0 1 4 0)) (fun h => h.setPair 4 0xFFFFFFFF80000000)).map (fun h => h.pair 4)
    = some 0x0000000180000000 := by decide +kernel
/-- R149's example: 1.0625, 464.0, -0.001 and 3.0 to E4M3. -/
theorem test_CVTF_example : (after (.cvtf (rw_ 12 6 (d := 20) (a := 24) (b := 0) (c := 0)))
    (fun h => (((h.setReg 24 0x3F880000).setReg 25 0x43E80000).setReg 26 0xBA83126F).setReg 27 0x40400000)).map (fun h => (h.reg 20, h.fpflags &&& 3))
    = some (0x44817E38, 3) := by decide +kernel
/-- R143 under RNE: 1 + 2^-24 ties to 1.0, inexactly. -/
theorem test_FADD_tie : (after (.fadd (rw_ 6 (c := 0))) (abc 0x3F800000 0x33800000 0)).map (fun h => (h.reg 10, h.fpflags))
    = some (0x3F800000, flagNX) := by decide +kernel
/-- R145: -0 is less than +0. -/
theorem test_FMIN_zeros : (after (.fmin (rw_ 6 (c := 0))) (abc 0 0x80000000 0)).map (fun h => (h.reg 10, h.fpflags)) = some (0x80000000, 0) := by
  decide +kernel
/-- R148's example: 2^200 is above F32. -/
theorem test_FEXP2_overflow : sent (.fexp2 (rw_ 6 (b := 0) (c := 0))) (abc 0x43480000 0 0) = [([(10, 0x7F800000)], flagOF ||| flagNX)] := by decide +kernel
/-- R293: 3 - 5 borrows and is negative. -/
theorem test_WSUB_borrow : (match exec (.wsub 1 2 3) (walking fun c => { c with w := keep 0 (keep 0 c.w 2 3) 3 5 }) with
    | .next s => (s.walker? 0 0).map fun c => (look 0 c.w 1, c.z, c.n, c.c)
    | _ => none) = some (0xFFFFFFFE, false, true, true) := by decide +kernel


/-! ### Lanes in turn, and the stops of an access -/

/-- What a one-lane witness says of its lane is what `LaneByLane` asks for. -/
theorem turn_of_lane {s : State} {b : Bundle} {t : Team} {f : Form} {x : Nat} {s1 : State} {t1 : Team} {h1 : Thread} {n : State}
    {act : Nat → State → Team → Thread → State → Prop} (l : Lane s b t f x s1 t1 h1) (a : act x s1 t1 h1 n) :
    Clear s b t f ∧ InTurn t.id act (t.active f b.tids) (s.updThreads t.id (t.active f b.tids) f.atIssue) n := by
  refine ⟨l.clear, ?_⟩
  rw [l.only, ← l.start]
  exact ⟨t1, h1, n, l.team, l.thread, a, rfl⟩

/-- The lanes of a list act in turn, as a function. -/
def turns (team : Nat) (f : Nat → State → Team → Thread → Option State) : List Nat → State → Option State
  | [], m => some m
  | x :: l, m =>
    match m.team? team with
    | none => none
    | some u =>
      match u.thread? x with
      | none => none
      | some h =>
        match f x m u h with
        | none => none
        | some n => turns team f l n

theorem turns_of {team : Nat} {f : Nat → State → Team → Thread → Option State} {act : Nat → State → Team → Thread → State → Prop}
    (hf : ∀ x m u h n, f x m u h = some n → act x m u h n) : ∀ {l : List Nat} {m m' : State}, turns team f l m = some m' → InTurn team act l m m' := by
  intro l
  induction l with
  | nil => intro m m' e; simp only [turns, Option.some.injEq] at e; exact e.symm
  | cons x l ih =>
    intro m m' e
    unfold turns at e
    split at e
    · cases e
    · rename_i u hu
      split at e
      · cases e
      · rename_i h hh
        split at e
        · cases e
        · rename_i n hn
          exact ⟨u, h, n, hu, hh, hf _ _ _ _ _ hn, ih e⟩

/-- Threads 0 and 1 in one bundle, x2 of both at the data. -/
def pairTeam (t : Team) : Team := { t with threads := updWhere t.threads (fun h => h.tid = 1) fun h => { atData h with exited := false } }
def pairBundle : Bundle := { oneBundle with tids := [0, 1] }
def pairS : State := { one atData pairTeam with bundles := [pairBundle] }

/-- One lane of a plain LD, and of a STS, as functions. -/
def ldLane (x : Nat) (m0 : State) (u : Team) (h : Thread) : Option State :=
  if m0.mayStart u.id x 0 && !m0.tableFull (u.coreOf x) then
    match u.reach m0 h (mw_.ea h) 4 { align := 1 } with
    | (.ok (some (p :: ps)), m) => if m.ioWaits u.id x (p :: ps) then none else some (m.postAccess
        { id := 0, team := u.id, tid := x, core := u.coreOf x, kind := .load 1, dst := 10, tok := none, bytes := 4, flags := 0 }
        { team := u.id, tid := x, core := u.coreOf x, asid := u.asid, batch := 3, kind := .load } (p :: ps))
    | _ => none
  else none

theorem ldLane_of {x : Nat} {m0 : State} {u : Team} {h : Thread} {n : State} (c : ldLane x m0 u h = some n) :
    ∃ ps m, (m0.mayStart u.id x 0 = true ∧ m0.tableFull (u.coreOf x) = false ∧ u.reach m0 h (mw_.ea h) 4 { align := 1 } = (.ok (some ps), m)
      ∧ ps ≠ [] ∧ m.ioWaits u.id x ps = false) ∧ n = m.postAccess
        { id := 0, team := u.id, tid := x, core := u.coreOf x, kind := .load 1, dst := 10, tok := none, bytes := 4, flags := 0 }
        { team := u.id, tid := x, core := u.coreOf x, asid := u.asid, batch := 3, kind := .load } ps := by
  unfold ldLane at c
  split at c
  · rename_i g
    rw [Bool.and_eq_true, Bool.not_eq_true'] at g
    split at c
    · rename_i p ps m e
      split at c
      · cases c
      · rename_i w
        exact ⟨p :: ps, m, ⟨g.1, g.2, e, List.cons_ne_nil _ _, by simpa using w⟩, by simpa using c.symm⟩
    · cases c
  · cases c

/-- Two lanes of one LD, each of which posts its load. -/
theorem witness_LoadsComplete_lanes : let f : Form := { mw_.form (mw_.srcBase :: mw_.srcIndex) [mw_.dst 1] with long := true }
    let t := oneTeam atData pairTeam
    Clear pairS pairBundle t f ∧ t.active f pairBundle.tids = [0, 1] ∧ ∃ m', InTurn 1 (fun x m0 u h m' => ∃ ps m,
      (m0.mayStart u.id x 0 = true ∧ m0.tableFull (u.coreOf x) = false ∧ u.reach m0 h (mw_.ea h) 4 { align := 1 } = (.ok (some ps), m)
        ∧ ps ≠ [] ∧ m.ioWaits u.id x ps = false) ∧ m' = m.postAccess
        { id := 0, team := u.id, tid := x, core := u.coreOf x, kind := .load 1, dst := 10, tok := none, bytes := 4, flags := 0 }
        { team := u.id, tid := x, core := u.coreOf x, asid := u.asid, batch := 3, kind := .load } ps)
      [0, 1] (pairS.updThreads 1 [0, 1] f.atIssue) m' := by
  intro f t
  obtain ⟨m', e⟩ := isSome_of (o := turns 1 ldLane [0, 1] (pairS.updThreads 1 [0, 1] f.atIssue)) (by decide +kernel)
  exact ⟨clear_of (by decide), by decide, m', turns_of (fun _ _ _ _ _ => ldLane_of) e⟩

/-- The code with which an access is refused, once its page is known. -/
def refusalAt (k : Ask) (m : State) (x : Xlat) (nc : Bool) : Option Nat :=
  if k.noHost && decide (spaceOf m.ctl x.pa = .host) then some trapAccess
  else if parksOn k.use x.attr then none
  else if k.ac.any fun b => decide (spaceOf m.ctl x.pa ≠ .device) && !bitOf x.attr b then some trapAtomicUnsupported
  else if k.ncStop && nc then some trapNcWindow
  else if isLost m x.pa = !k.reclaim then some (if k.reclaim then trapIllegalOperand else trapLostLine)
  else none

/-- `Refused` as a function. -/
def refusal (t : Team) (s : State) (h : Thread) (va : W64) (n : Nat) (k : Ask) : Option Nat :=
  if canonical va = false then some trapAccess
  else if va.toNat % k.align ≠ 0 then some trapAlign
  else if va.toNat % 128 + n ≤ 128 then
    match translate s (t.coreOf h.tid) t.asid va with
    | (.error e, _) => some e.code
    | (.ok x, m) =>
      if mayAccess m (t.coreOf h.tid) h.priv x n k.use then
        match checkPage s (t.coreOf h.tid) t.asid h.priv va n k.use with
        | (.ok x, m) => refusalAt k m x (nonCoherent m (t.coreOf h.tid) t.asid va x.pa)
        | _ => none
      else
        let c := unitClass (t.coreOf h.tid)
        let v := bitsOf va.toNat 0 57
        let m1 := s.pushLines ((walkPath s c t.asid.toNat v).map lineOf)
        match walk m1 c t.asid.toNat v with
        | .ok y => if mayAccess m1 (t.coreOf h.tid) h.priv y n k.use then none else some trapAccess
        | .error _ => none
  else none

theorem refusalAt_of {t : Team} {s : State} {h : Thread} {va : W64} {n : Nat} {k : Ask} {x : Xlat} {m : State} {c : Nat} (p : Placed va n k)
    (e : checkPage s (t.coreOf h.tid) t.asid h.priv va n k.use = (.ok x, m))
    (r : refusalAt k m x (nonCoherent m (t.coreOf h.tid) t.asid va x.pa) = some c) : Refused t s h va n k c := by
  unfold refusalAt at r
  split at r
  · rename_i q
    rw [Bool.and_eq_true, decide_eq_true_eq] at q
    cases r
    exact .host x m p e q.1 q.2
  · rename_i q
    have hh : k.noHost = true → spaceOf m.ctl x.pa ≠ .host := by
      intro a b
      exact q (by rw [Bool.and_eq_true, decide_eq_true_eq]; exact ⟨a, b⟩)
    split at r
    · cases r
    · rename_i w
      have hw : parksOn k.use x.attr = false := by simpa using w
      split at r
      · rename_i a
        cases hb : k.ac with
        | none => rw [hb] at a; cases a
        | some b =>
          rw [hb, Option.any_some, Bool.and_eq_true, decide_eq_true_eq, Bool.not_eq_true'] at a
          cases r
          exact .atomic x m b ⟨p, e, hh⟩ hw hb a.1 a.2
      · rename_i a
        have ha : ∀ b, k.ac = some b → spaceOf m.ctl x.pa = .device ∨ bitOf x.attr b = true := by
          intro b hb
          rw [hb] at a
          simp only [Option.any_some, Bool.and_eq_true, decide_eq_true_eq, Bool.not_eq_true', not_and, Bool.not_eq_false] at a
          by_cases d : spaceOf m.ctl x.pa = .device
          · exact .inl d
          · exact .inr (a d)
        split at r
        · rename_i d
          rw [Bool.and_eq_true] at d
          cases r
          exact .window x m ⟨p, e, hh⟩ hw ha d.1 d.2
        · rename_i d
          have hd : k.ncStop = true → nonCoherent m (t.coreOf h.tid) t.asid va x.pa = false := by
            intro g
            rw [g] at d
            simpa using d
          split at r
          · rename_i g
            have r' := Option.some.inj r
            rw [← r']
            exact .lost x m ⟨p, e, hh⟩ hw ha hd g
          · cases r

theorem refusal_of {t : Team} {s : State} {h : Thread} {va : W64} {n : Nat} {k : Ask} {c : Nat} (r : refusal t s h va n k = some c) :
    Refused t s h va n k c := by
  unfold refusal at r
  split at r
  · rename_i q
    cases r
    exact .address q
  · rename_i q
    have hq : canonical va = true := by simpa using q
    split at r
    · rename_i a
      cases r
      exact .align hq a
    · rename_i a
      split at r
      · rename_i w
        have p : Placed va n k := ⟨hq, by simpa using a, w⟩
        split at r
        · rename_i e m he
          cases r
          exact .absent e m p he
        · rename_i x m he
          split at r
          · split at r
            · rename_i y m2 hc
              exact refusalAt_of p hc r
            · cases r
          · rename_i hm
            dsimp only at r
            split at r
            · rename_i y hy
              split at r
              · cases r
              · rename_i hn
                cases r
                exact .permission x y m p he (by simpa using hm) ⟨hy, by simpa using hn⟩
            · cases r
      · cases r

/-- An address whose walk from the address-space table at 0x10000 comes through one entry of one table, the word at 0x10080. -/
def loopVa : W64 := BitVec.ofNat 64 (16 * (2 ^ 48 + 2 ^ 39 + 2 ^ 30 + 2 ^ 21 + 2 ^ 12))
/-- That table, whose leaf carries the reserved memory type 3. -/
def loopMem : List Host.Cell := putLe (putLe [] 0x10000 8 0x10001) 0x10080 8 (0x10000061)
/-- Pages of host memory at 0x30000, which the units may reach and which carry no AC bit. -/
def hostPage (s : State) : State :=
  let page : Tlb := { unit := 0, asid := 0, va := 0x30000, len := 0x10000, pa := 2 ^ 50, attr := 7, leaf := 0 }
  { s with units := { s.units with tlb := page :: s.units.tlb }
           ctl := (s.ctl.setReg (0x2000000 + 0x1000 * 512) 0).setReg (0x2000000 + 0x1000 * 512 + 8) (BitVec.ofNat 64 (2 ^ 35 - 1)) }

/-- The addresses and states at which an access is refused: not canonical, misaligned, absent, not permitted, host memory, no AC bit, a
managed region, a LOST line. -/
inductive Fails where
  | address | align | absent | permission | host | atomic | window | lost

def Fails.va : Fails → W64
  | .address => BitVec.ofNat 64 (2 ^ 60)
  | .align => 0x10001
  | .absent => 0
  | .permission => loopVa
  | .host | .atomic => 0x30000
  | .window | .lost => 0x10000

def Fails.thread (x : Fails) (h : Thread) : Thread := h.setPair 2 x.va
def Fails.team (x : Fails) : Team := oneTeam x.thread casTeam
def Fails.state (x : Fails) : State :=
  let s := one x.thread casTeam
  match x with
  | .absent => { s with ctl := s.ctl.setReg 8 0x10000 }
  | .permission => { s with ctl := s.ctl.setReg 8 0x10000, mem := loopMem }
  | .host | .atomic => hostPage s
  | .window => { s with coh := { s.coh with managed := [0x10000] } }
  | .lost => { s with coh := { s.coh with lost := [0x10000] } }
  | _ => s

/-- A form whose lone lane is refused with a code. -/
def fails (x : Fails) (f : Form) (va : Thread → W64) (n : Nat) (k : Ask) (code : Nat) : Bool :=
  let s1 := issued x.state x.team f [0]
  isLane x.state oneBundle x.team f 0 && s1.mayStart 1 0 0 && !s1.tableFull 0
    && decide (refusal (issuedTeam x.state x.team f [0]) s1 (issuedThread x.state x.team f 0) (va (issuedThread x.state x.team f 0)) n k = some code)

theorem fails_of {x : Fails} {f : Form} {va : Thread → W64} {n : Nat} {k : Ask} {code : Nat} (c : fails x f va n k code = true) :
    ∃ s1 t1 h1, Alone x.state oneBundle x.team f 0 s1 t1 h1 ∧ (s1.mayStart 1 0 0 = true ∧ s1.tableFull 0 = false)
      ∧ Refused t1 s1 h1 (va h1) n k code := by
  simp only [fails, Bool.and_eq_true, Bool.not_eq_true', decide_eq_true_eq] at c
  exact ⟨_, _, _, ⟨lane_of c.1.1.1, rfl⟩, ⟨c.1.1.2, c.1.2⟩, refusal_of c.2⟩

/-- Every way in which a load is refused, one load for each: LD of 4 and of 16 bytes, LDSUB, LDV. -/
theorem witness_LoadsComplete_stops : let w := mw_
    let q := mw_ 4 (d := 12)
    let f (w : MWord) (n : Nat) : Form := { w.form (w.srcBase :: w.srcIndex) [w.dst n] with long := true }
    let sub : Form := { w.form [w.srcBase] [w.dst 1] with long := true }
    let tag : Form := { w.form [w.srcBase] (w.dst 1 :: []) with long := true }
    let tagAsk : Ask := { align := 4, ncStop := true, noHost := true }
    fails .address (f w 1) w.ea 4 { align := 1 } trapAccess = true
    ∧ fails .align (f q 4) q.ea 16 { align := 16 } trapAlign = true
    ∧ fails .absent (f w 1) w.ea 4 { align := 1 } trapPageFault = true
    ∧ fails .permission (f w 1) w.ea 4 { align := 1 } trapAccess = true
    ∧ fails .lost (f w 1) w.ea 4 { align := 1 } trapLostLine = true
    ∧ fails .align sub w.eaPlain 8 { align := 8 } trapAlign = true
    ∧ fails .lost sub w.eaPlain 8 { align := 8 } trapLostLine = true
    ∧ fails .align tag w.eaPlain 4 tagAsk trapAlign = true
    ∧ fails .host tag w.eaPlain 4 tagAsk trapAccess = true
    ∧ fails .window tag w.eaPlain 4 tagAsk trapNcWindow = true
    ∧ fails .lost tag w.eaPlain 4 tagAsk trapLostLine = true := by decide +kernel

/-- ST refused; the store of a lane that has no permission. -/
theorem witness_StoresComplete_stops : let w := mw_ 4 (d := 12) (tk := 2)
    let f : Form := { w.form ([w.srcBase] ++ w.srcIndex ++ [w.srcData 4]) [] with tok := tokenOf w.tk }
    let k : Ask := { use := .write, align := 16 }
    fails .address f w.ea 16 k trapAccess = true ∧ fails .align f w.ea 16 k trapAlign = true ∧ fails .absent f w.ea 16 k trapPageFault = true
    ∧ fails .permission f w.ea 16 k trapAccess = true ∧ fails .lost f w.ea 16 k trapLostLine = true := by decide +kernel

/-- ATOM and RED refused; CAS4 whose first entry is. -/
theorem witness_AtomicsComplete_stops : let w := rw_ 0 8
    let r := rw_ 0 0 (d := 0) (tk := 3)
    let atom : Form := { w.form ([w.srcA 2, w.srcB 1] ++ [w.srcC 1]) [w.dst 1] with long := true }
    let red : Form := { r.form [r.srcA 2, r.srcB 1] [] with tok := tokenOf r.tk }
    let va (h : Thread) : W64 := h.pair 2
    let k (b : Nat) : Ask := { use := .rmw, align := 4, ac := some (rmwAc b) }
    let cas : Ask := { use := .rmw, align := 16, noHost := true, ncStop := true, ac := some 10 }
    fails .address atom va 4 (k 8) trapAccess = true ∧ fails .align atom va 4 (k 8) trapAlign = true
    ∧ fails .absent atom va 4 (k 8) trapPageFault = true ∧ fails .permission atom va 4 (k 8) trapAccess = true
    ∧ fails .atomic atom va 4 (k 8) trapAtomicUnsupported = true ∧ fails .lost atom va 4 (k 8) trapLostLine = true
    ∧ fails .atomic red va 4 (k 0) trapAtomicUnsupported = true ∧ fails .lost red va 4 (k 0) trapLostLine = true
    ∧ fails .window casForm (fun _ => 0x10000) 16 cas trapNcWindow = true ∧ fails .lost casForm (fun _ => 0x10000) 16 cas trapLostLine = true := by
  decide +kernel

/-- An extent of 8 bytes in an allocation of 4,100 bytes: beyond it, misaligned in it, and aligned across its end. -/
theorem witness_ScratchpadCompletes_stops : let w := mw_ 3 (d := 12)
    let lds : Form := { w.form (w.srcBase :: w.srcIndex) [w.dst 2] with long := true }
    let sts : Form := { w.form ([w.srcBase] ++ w.srcIndex ++ [w.srcData 2]) [] with tok := none }
    let ats : Form := { w.form ([w.srcBase, w.srcB 2] ++ []) [w.dst 2] with long := true }
    let u (t : Team) : Team := { t with launch := { t.launch with spadBytes := 4100 } }
    let at_ (n : Nat) (h : Thread) : Thread := h.setPair 2 (BitVec.ofNat 64 n)
    (∀ n ∈ [4100, 4098, 4096], let s := one (at_ n) u; let t := oneTeam (at_ n) u
      (∀ f ∈ [lds, sts, ats], Alone s oneBundle t f 0 (issued s t f [0]) (issuedTeam s t f [0]) (issuedThread s t f 0)
        ∧ (issued s t f [0]).mayStart 1 0 0 = true ∧ (issued s t f [0]).loadsRead 1 0 = true ∧ (issued s t f [0]).storesSent 1 0 = true
        ∧ (issued s t f [0]).seenQueued 1 0 = false ∧ (issued s t f [0]).seenOpen 1 0 = false ∧ s.forwardsFull 0 = false
        ∧ (w.ea (issuedThread s t f 0)).toNat = n ∧ ((issuedThread s t f 0).pair 2 + 0).toNat = n))
    ∧ (oneTeam id u).launch.spadBytes = 4100 ∧ (4100 ≤ 4100 ∧ (4098 < 4100 ∧ 4098 % 8 ≠ 0) ∧ (4096 < 4100 ∧ 4096 % 8 = 0 ∧ 4100 < 4096 + 8)) := by
  intro w lds sts ats u at_
  refine ⟨?_, by decide, by decide⟩
  have h : ([4100, 4098, 4096].all fun n => [lds, sts, ats].all fun f => let s := one (at_ n) u; let t := oneTeam (at_ n) u
      isLane s oneBundle t f 0 && (issued s t f [0]).mayStart 1 0 0 && (issued s t f [0]).loadsRead 1 0 && (issued s t f [0]).storesSent 1 0
        && !(issued s t f [0]).seenQueued 1 0 && !(issued s t f [0]).seenOpen 1 0 && !s.forwardsFull 0
        && decide ((w.ea (issuedThread s t f 0)).toNat = n) && decide (((issuedThread s t f 0).pair 2 + 0).toNat = n)) = true := by decide +kernel
  intro n m s t f g
  have c := List.all_eq_true.mp (List.all_eq_true.mp h n m) f g
  simp only [Bool.and_eq_true, Bool.not_eq_true', decide_eq_true_eq] at c
  exact ⟨⟨lane_of c.1.1.1.1.1.1.1.1, rfl⟩, c.1.1.1.1.1.1.1.2, c.1.1.1.1.1.1.2, c.1.1.1.1.1.2, c.1.1.1.1.2, c.1.1.1.2, c.1.1.2, c.1.2, c.2⟩

/-- One lane of a STS, as a function. -/
def stsLane (x : Nat) (m : State) (u : Team) (h : Thread) : Option State :=
  let ea := mw_.ea h
  if m.mayStart u.id x 0 && (decide (ea.toNat % 4 = 0) && (decide (ea.toNat + 4 ≤ u.launch.spadBytes) && decide (ea.toNat < u.launch.spadBytes))) then
    some ((m.postOp
      { id := 0, team := u.id, tid := x, core := u.coreOf x, kind := .sts, dst := 0, tok := none, bytes := 4, flags := 0 }).postReq
      { id := 0, op := m.nextId, team := u.id, tid := x, core := u.coreOf x, kind := .sts, pa := ea.toNat, len := 4,
        data := h.dataBytes 10 4, cmp := [], pos := 0, ord := 0, sc := 0, nc := false, cm := 0,
        va := ea.toNat, asid := u.asid, batch := 3, stage := .queued, paths := [] })
  else none

/-- Two lanes of one STS to the same bytes. -/
theorem witness_ScratchpadCompletes_lanes : let z (h : Thread) : Thread := h
    let both (t : Team) : Team := { t with threads := updWhere t.threads (fun h => h.tid = 1) fun h => { h with exited := false } }
    let s : State := { one z both with bundles := [pairBundle] }
    let f : Form := { mw_.form ([mw_.srcBase] ++ mw_.srcIndex ++ [mw_.srcData 1]) [] with tok := none }
    Clear s pairBundle (oneTeam z both) f ∧ (oneTeam z both).active f pairBundle.tids = [0, 1] ∧ s.forwardsFull 0 = false
    ∧ ∃ m', InTurn 1 (fun x m u h m' => m.mayStart u.id x 0 = true
        ∧ ((mw_.ea h).toNat % 4 = 0 ∧ (mw_.ea h).toNat + 4 ≤ u.launch.spadBytes ∧ (mw_.ea h).toNat < u.launch.spadBytes) ∧ m' = (m.postOp
          { id := 0, team := u.id, tid := x, core := u.coreOf x, kind := .sts, dst := 0, tok := none, bytes := 4, flags := 0 }).postReq
          { id := 0, op := m.nextId, team := u.id, tid := x, core := u.coreOf x, kind := .sts, pa := (mw_.ea h).toNat, len := 4,
            data := h.dataBytes 10 4, cmp := [], pos := 0, ord := 0, sc := 0, nc := false, cm := 0,
            va := (mw_.ea h).toNat, asid := u.asid, batch := 3, stage := .queued, paths := [] }) [0, 1] (s.updThreads 1 [0, 1] f.atIssue) m' := by
  intro z both s f
  obtain ⟨m', e⟩ := isSome_of (o := turns 1 stsLane [0, 1] (s.updThreads 1 [0, 1] f.atIssue)) (by decide +kernel)
  refine ⟨clear_of (by decide), by decide, by decide +kernel, m', turns_of (fun x m u h n c => ?_) e⟩
  unfold stsLane at c
  dsimp only at c
  split at c
  · rename_i g
    simp only [Bool.and_eq_true, decide_eq_true_eq] at g
    exact ⟨g.1, g.2, by simpa using c.symm⟩
  · cases c

/-- A block that ends beyond the allocation, one that is not on 16 bytes, and one whose entry names no bytes. -/
theorem witness_AtomicsComplete_block : let at_ (n : Nat) (h : Thread) : Thread := (atData h).setReg 8 (BitVec.ofNat 32 n)
    (∀ n ∈ [4096 - 64, 8, 16], let s := one (at_ n) casTeam; let t := oneTeam (at_ n) casTeam
      Alone s oneBundle t casForm 0 (issued s t casForm [0]) (issuedTeam s t casForm [0]) (issuedThread s t casForm 0)
      ∧ (issued s t casForm [0]).storesSent 1 0 = true ∧ ((issuedThread s t casForm 0).reg 8).toNat = n
      ∧ (n = 16 → (casEntry (issuedTeam s t casForm [0]) n 0).ok = false))
    ∧ (oneTeam atData casTeam).launch.spadBytes < 4096 - 64 + 64 + 128 ∧ 8 % 16 ≠ 0 := by
  intro at_
  refine ⟨?_, by decide, by decide⟩
  have h : ([4096 - 64, 8, 16].all fun n => let s := one (at_ n) casTeam; let t := oneTeam (at_ n) casTeam
      isLane s oneBundle t casForm 0 && (issued s t casForm [0]).storesSent 1 0 && decide (((issuedThread s t casForm 0).reg 8).toNat = n)
        && (decide (n ≠ 16) || !(casEntry (issuedTeam s t casForm [0]) n 0).ok)) = true := by decide +kernel
  intro n m s t
  have c := List.all_eq_true.mp h n m
  simp only [Bool.and_eq_true, Bool.or_eq_true, Bool.not_eq_true', decide_eq_true_eq] at c
  refine ⟨⟨lane_of c.1.1.1, rfl⟩, c.1.1.2, c.1.2, fun e => ?_⟩
  cases c.2 with
  | inl q => exact absurd e q
  | inr q => exact q

/-- Two entries whose lines have different home slices. -/
theorem witness_AtomicsComplete_span : let entry (a j : Nat) (t : Team) : Team := (t.spadPut (16 * j) (toBytes 8 a)).spadPut (16 * j + 8) (toBytes 8 (2 ^ 32 * 16))
    let u (t : Team) : Team := entry 0x10000 0 (entry 0x10080 1 t)
    let w := mw_ 1 (a := 0) (b := 8)
    let f : Form := { w.form [w.srcB 1] [w.dst 1] with long := true }
    let s := one atData u
    let t := oneTeam atData u
    let es := [casEntry (issuedTeam s t f [0]) 0 0, casEntry (issuedTeam s t f [0]) 0 1]
    Alone s oneBundle t f 0 (issued s t f [0]) (issuedTeam s t f [0]) (issuedThread s t f 0)
    ∧ (issued s t f [0]).storesSent 1 0 = true ∧ ((issuedThread s t f 0).reg 8).toNat = 0
    ∧ (∀ e ∈ es, e.ok = true) ∧ (es.map fun e => e.va.toNat / 128).eraseDups.length = 2
    ∧ ∃ l m, casReach (issuedTeam s t f [0]) (issuedThread s t f 0) (issued s t f [0]) es = (.ok (some l), m)
      ∧ (decide ((l.map fun y => lineOf y.2.key).eraseDups.length = 2) && decide ((l.map fun y => spanKey y.2.key).eraseDups.length ≠ 1)) = true := by
  intro entry u w f s t es
  have h : (match casReach (issuedTeam s t f [0]) (issuedThread s t f 0) (issued s t f [0]) es with
    | (.ok (some l), _) => decide ((l.map fun y => lineOf y.2.key).eraseDups.length = 2) && decide ((l.map fun y => spanKey y.2.key).eraseDups.length ≠ 1)
    | _ => false) = true := by decide +kernel
  refine ⟨⟨lane_of (by decide +kernel), rfl⟩, by decide +kernel, by decide +kernel, List.all_eq_true.mp (by decide +kernel : (es.all fun e => e.ok) = true), by decide +kernel, ?_⟩
  split at h
  · rename_i l m e
    exact ⟨l, m, e, h⟩
  · cases h

/-- Lists that stop: no element and too many, beyond the allocation, misaligned; an element whose line is LOST, the first one and, behind
one that is posted, the second; a page that carries no AC bit. -/
theorem witness_ListOperationsComplete_stops : let w := mw_ (b := 8) (d := 20)
    let g : Form := { listForm w [w.dst 1] with long := true }
    let u (list n arr : Nat) (h : Thread) : Thread :=
      (((atData h).setReg 8 (BitVec.ofNat 32 list)).setReg 9 (BitVec.ofNat 32 n)).setReg 10 (BitVec.ofNat 32 arr)
    let args (use : Use) (ac : Option Nat) (base : W64) : ListArgs := { size := 4, base := base, use := use, ac := ac, list := 0 }
    (∀ x ∈ [(0, 0, 64), (0, 257, 64), (4096, 1, 64), (0, 1, 4096), (2, 1, 64), (0, 1, 66)],
      let s := one (u x.1 x.2.1 x.2.2) id; let t := oneTeam (u x.1 x.2.1 x.2.2) id
      Alone s oneBundle t g 0 (issued s t g [0]) (issuedTeam s t g [0]) (issuedThread s t g 0)
      ∧ ((issuedThread s t g 0).reg 8).toNat = x.1 ∧ ((issuedThread s t g 0).reg 9).toNat = x.2.1 ∧ ((issuedThread s t g 0).reg 10).toNat = x.2.2)
    ∧ (let s : State := { one (u 0 1 64) id with coh := { plain.coh with lost := [0x10000] } }; let t := oneTeam (u 0 1 64) id
       let s1 := issued s t g [0]
       Alone s oneBundle t g 0 s1 (issuedTeam s t g [0]) (issuedThread s t g 0)
       ∧ (s1.acqPending 1 0 = false ∧ s1.quiet 1 0 = true ∧ s1.tableFull 0 = false)
       ∧ Refused (issuedTeam s t g [0]) s1 (issuedThread s t g 0) ((args .read none 0x10000).at_ (issuedTeam s t g [0]) 0) 4
          { use := .read, align := 4 } trapLostLine)
    ∧ (let far (t : Team) : Team := t.spadPut 4 (toBytes 4 32)
       let s : State := { one (u 0 2 64) far with coh := { plain.coh with lost := [0x10080] } }; let t := oneTeam (u 0 2 64) far
       ∃ l e m, listFrom (args .read none 0x10000) (issuedTeam s t g [0]) (issuedThread s t g 0) (issued s t g [0]) 0 2 = (l, .stop e, m)
        ∧ (decide (l.length = 1) && decide (e.code = trapLostLine) && !(l.any fun y => m.ioWaits 1 0 y.2)) = true)
    ∧ (let s := hostPage (one (u 0 1 64) id); let t := oneTeam (u 0 1 64) id
       ∃ e m, listAc (args .rmw (some 9) 0x30000) (issuedTeam s t g [0]) (issuedThread s t g 0) (issued s t g [0]) 0 1 = (some e, m)) := by
  intro w g u args
  refine ⟨?_, ?_, ?_, ?_⟩
  · have h : ([(0, 0, 64), (0, 257, 64), (4096, 1, 64), (0, 1, 4096), (2, 1, 64), (0, 1, 66)].all fun (x : Nat × Nat × Nat) =>
        let s := one (u x.1 x.2.1 x.2.2) id; let t := oneTeam (u x.1 x.2.1 x.2.2) id
        isLane s oneBundle t g 0 && decide (((issuedThread s t g 0).reg 8).toNat = x.1) && decide (((issuedThread s t g 0).reg 9).toNat = x.2.1)
          && decide (((issuedThread s t g 0).reg 10).toNat = x.2.2)) = true := by decide +kernel
    intro x m s t
    have c := List.all_eq_true.mp h x m
    simp only [Bool.and_eq_true, decide_eq_true_eq] at c
    exact ⟨⟨lane_of c.1.1.1, rfl⟩, c.1.1.2, c.1.2, c.2⟩
  · exact ⟨⟨lane_of (by decide +kernel), rfl⟩, by decide +kernel, refusal_of (by decide +kernel)⟩
  · intro far s t
    have h : (match listFrom (args .read none 0x10000) (issuedTeam s t g [0]) (issuedThread s t g 0) (issued s t g [0]) 0 2 with
      | (l, .stop e, m) => decide (l.length = 1) && decide (e.code = trapLostLine) && !(l.any fun y => m.ioWaits 1 0 y.2)
      | _ => false) = true := by decide +kernel
    split at h
    · rename_i l e m q
      exact ⟨l, e, m, q, h⟩
    · cases h
  · intro s t
    have h : (match listAc (args .rmw (some 9) 0x30000) (issuedTeam s t g [0]) (issuedThread s t g 0) (issued s t g [0]) 0 1 with
      | (some _, _) => true
      | _ => false) = true := by decide +kernel
    split at h
    · rename_i e m q
      exact ⟨e, m, q⟩
    · cases h

/-- A SFLUSH of 100 bytes, at an address that is not canonical, and off a line. -/
theorem witness_RegionOperationsComplete_stops : let u (va : W64) (n : Nat) (h : Thread) : Thread := (h.setPair 2 va).setReg 8 (BitVec.ofNat 32 n)
    ∀ x ∈ [((0x10000 : W64), 100), (BitVec.ofNat 64 (2 ^ 60), 128), (0x10004, 128)], let s := one (u x.1 x.2) id; let t := oneTeam (u x.1 x.2) id
      Alone s oneBundle t flushForm 0 (issued s t flushForm [0]) (issuedTeam s t flushForm [0]) (issuedThread s t flushForm 0)
      ∧ (mw_ (b := 8)).eaPlain (issuedThread s t flushForm 0) = x.1 ∧ ((issuedThread s t flushForm 0).reg 8).toNat = x.2
      ∧ (x.2 % 128 ≠ 0 ∨ canonical x.1 = false ∨ x.1.toNat % 128 ≠ 0) := by
  intro u
  have h : ([((0x10000 : W64), 100), (BitVec.ofNat 64 (2 ^ 60), 128), (0x10004, 128)].all fun x => let s := one (u x.1 x.2) id; let t := oneTeam (u x.1 x.2) id
      isLane s oneBundle t flushForm 0 && decide ((mw_ (b := 8)).eaPlain (issuedThread s t flushForm 0) = x.1)
        && decide (((issuedThread s t flushForm 0).reg 8).toNat = x.2)
        && (decide (x.2 % 128 ≠ 0) || (!canonical x.1 || decide (x.1.toNat % 128 ≠ 0)))) = true := by decide +kernel
  intro x m s t
  have c := List.all_eq_true.mp h x m
  simp only [Bool.and_eq_true, Bool.or_eq_true, Bool.not_eq_true', decide_eq_true_eq] at c
  exact ⟨⟨lane_of c.1.1.1, rfl⟩, c.1.1.2, c.1.2, c.2⟩

/-- SWRITE: a lane that acts in turn on a state of its own, a state of the team, and the timer of a group. -/
theorem witness_NamedStates_writes : let fw (n : Nat) : Form := { iw_.form [iw_.srcA (if namedWide n then 2 else 1)] [] with
        priv := namedPrivileged n, bad := !namedWritable n }
    Clear kernel oneBundle kernelTeam (fw 0x15) ∧ kernelTeam.active (fw 0x15) [0] = [0] ∧ [0x10, 0x11, 0x1D].contains 0x15 = false
    ∧ Clear kernel oneBundle kernelTeam (fw 0x10) ∧ kernelTeam.active (fw 0x10) [0] = [0] ∧ (∃ h, kernelTeam.thread? 0 = some h
      ∧ namedReserved 0x10 (h.regsNat 2 (if namedWide 0x10 then 2 else 1)) = false ∧ namedReserved 0x15 (h.regsNat 2 (if namedWide 0x15 then 2 else 1)) = false)
    ∧ Clear kernel oneBundle kernelTeam (fw 0x17) ∧ kernelTeam.active (fw 0x17) [0] = [0]
    ∧ (kernelTeam.groupUnits [0] [0]).map (fun u => (u.acts, u.all)) = [([0], [0])] :=
  ⟨clear_of (by decide), by decide, by decide, clear_of (by decide), by decide, ⟨(kernelTeam.thread? 0).getD plainThread, by decide, by decide, by decide⟩,
    clear_of (by decide), by decide, by decide⟩

/-- Threads 0 and 1, of which thread 0 has p0 set; the last instruction of a clause; headers at 0x10000 and at 0x10020. -/
def splitTeam (t : Team) : Team :=
  { t with threads := t.threads.map (fun h => if h.tid = 0 then { h with preds := 1 } else if h.tid = 1 then { h with exited := false } else h),
           running := [0, 1] }
def splitBundle : Bundle := { oneBundle with tids := [0, 1], count := 1 }
def splitS : State :=
  { one id splitTeam with bundles := [splitBundle], mem := putLe (putLe [] 0x10000 8 0xF804000000000000) 0x10020 8 0xF804000000000000, time := 5 }

/-- BRA.p0 in a bundle of two threads: thread 0 goes to 0x10020, thread 1 falls through to 0x10010. Behind it the running set stands at two PC
records and is chosen afresh: the set of thread 0 runs. -/
theorem witness_TransfersComplete_split : let w : BWord := { bw_ 0 0x20 with g := 0 }
    let t := oneTeam id splitTeam
    let f := transferForm w [] []
    let aims (y : Nat) (m : State) (va : W64) (n : State) : Prop := ∃ h, t.thread? y = some h
      ∧ ((h.guard f.g f.gn = true ∧ (va = h.pc + w.off.signExtend 64 ∧ n = m) ∧ n.targetStop (t.coreOf y) t.asid h.priv va = none)
        ∨ (h.guard f.g f.gn = false ∧ va = h.nextAddr ∧ n = m))
    let l : List (Nat × W64) := [(0, 0x10020), (1, 0x10010)]
    Clear splitS splitBundle t f ∧ splitBundle.tids.Nodup ∧ Aimed aims (t.inOrder splitBundle.tids) splitS l splitS
    ∧ (splitS.pcSets t splitBundle.tids).length + splitBundle.tids.length ≤ 64 ∧ splitS.callees = [] ∧ ends splitBundle t = true
    ∧ (t.turned < splitS.time ∧ t.removed = false ∧ t.running = [0, 1] ∧ splitS.bundles = [splitBundle])
    ∧ (match exec (.bra w) splitS with
      | .next s' =>
        match s'.team? t.id, (s'.settleSet t.id).team? t.id with
        | some u, some v => decide (((s'.updTeam t.id fun _ => s'.refresh u).eligibleSets (s'.refresh u)).length = 2) && (u.threads.take 2).all (fun h => decide (h.wait = .ready))
            && decide (v.running = [0]) && decide ((s'.thread? 1 0).map Thread.pc = some 0x10020) && decide ((s'.thread? 1 1).map Thread.pc = some 0x10010)
        | _, _ => false
      | _ => false) = true := by
  intro w t f aims l
  have a0 : aims 0 splitS 0x10020 splitS := ⟨(t.thread? 0).getD plainThread, by decide, .inl ⟨by decide, ⟨by decide, rfl⟩, by decide +kernel⟩⟩
  have a1 : aims 1 splitS 0x10010 splitS := ⟨(t.thread? 1).getD plainThread, by decide, .inr ⟨by decide, by decide +kernel, rfl⟩⟩
  have o : t.inOrder splitBundle.tids = [0, 1] := by decide
  refine ⟨clear_of (by decide), by decide, ?_, by decide +kernel, rfl, by decide, ⟨by decide, by decide, by decide, rfl⟩, by decide +kernel⟩
  rw [o]
  exact ⟨rfl, splitS, a0, rfl, splitS, a1, rfl⟩

/-- The lines of the group's new allotment fit into the register cache of every core. -/
theorem witness_GroupOperationsComplete_lines : let u (h : Thread) : Thread := { h with wait := .role 0 }
    let t := oneTeam u id
    ∀ core, ((one u id).heldLines core).length + (t.groupThreads 0).length * ((128 + 31) / 32) ≤ 1024 := by
  intro u t core
  have zero : ((one u id).heldLines 0).length + (t.groupThreads 0).length * ((128 + 31) / 32) ≤ 1024 := by decide +kernel
  by_cases e : core = 0
  · rw [e]; exact zero
  · have all : ∀ h ∈ t.threads, t.coreOf h.tid = 0 := by decide +kernel
    have none : (one u id).heldLines core = [] := by
      unfold State.heldLines
      rw [show (one u id).teams = [t] from rfl, List.map_cons, List.map_nil]
      have : (t.threads.filter fun h => decide (t.coreOf h.tid = core)) = [] := by
        rw [List.filter_eq_nil_iff]
        intro h m
        rw [all h m]
        simpa using fun q => e q.symm
      rw [this]
      rfl
    rw [none]
    exact Nat.le_trans (by simp) zero

/-- No store to the counter's line is under way, and it reads 0. -/
theorem witness_CuesAreAwaited_landed : let ps : List Part := [{ va := 0x10000, pa := 0x10000, key := 0x10000, len := 8, pos := 0, attr := 7 + 2 ^ 9, nc := false }]
    plain.unlanded (plainTeam.coreOf 0) ps = false ∧ (plain.readNat (plainTeam.coreOf 0) ps).2 = 0 := by decide +kernel

/-- A running set that stays, one that is chosen afresh, and the bundles of a header that is cast. -/
theorem witness_CastingEventsComplete_choice : let s := idle atData id
    let r := s.moveOn (s.refresh plainTeam)
    let now : State := s.updTeam 1 fun _ => r
    let far (t : Team) : Team := { two t with front := (t.front.1 + 0x20000, t.front.2), running := [0, 1] }
    let q := idle atData far
    let rq := q.moveOn (q.refresh (oneTeam atData far))
    let nq : State := q.updTeam 1 fun _ => rq
    (s.team? 1 = some plainTeam ∧ plainTeam.removed = false ∧ now.choiceDue r = false ∧ s.settleSet 1 = now)
    ∧ (q.team? 1 = some (oneTeam atData far) ∧ nq.choiceDue rq = true ∧ ∃ k l, nq.eligibleSets rq = k :: l)
    ∧ (∃ u, (s.settleSet 1).team? 1 = some u ∧ ((((s.settleSet 1).standing u u.front).filter ((s.settleSet 1).eligible u)).map Thread.tid) = [0]
      ∧ (∃ w m, (s.settleSet 1).fetch (u.coreOf 0) u.asid plainThread.priv plainThread.pc = (.ok w, m)
        ∧ (isHeader w && decide ((headerOf w).cls < 2) && (headerOf w).lowZero && decide (plainThread.idx < (headerOf w).count)) = true)) := by
  intro s r now far q rq nq
  refine ⟨⟨by decide +kernel, rfl, by decide +kernel, by decide +kernel⟩, ⟨by decide +kernel, by decide +kernel, ?_⟩,
    ⟨((s.settleSet 1).team? 1).getD plainTeam, by decide +kernel, by decide +kernel, fetch_of (by decide +kernel)⟩⟩
  have h : (nq.eligibleSets rq).isEmpty = false := by decide +kernel
  cases e : nq.eligibleSets rq with
  | nil => rw [e] at h; cases h
  | cons k l => exact ⟨k, l, rfl⟩

/-- A plain load at its home, with and without a copy that it upgrades. -/
theorem witness_MemoryEventsComplete_plain : let p (c : List Copy) (sc : Nat) : State := { asking (.load 1) .load .queued with
        coh := { plain.coh with copies := c }, flight := { (asking (.load 1) .load .queued).flight with reqs := [{ aReq .load .queued with sc := sc }] } }
    ∀ x ∈ [(([] : List Copy), false), ([{ who := .l1 0, line := 0x10000, st := .p 1 true, data := [] }], true)], let s := p x.1 2; let r := { aReq .load .queued with sc := 2 }
      s.req? 6 = some r ∧ (s.blocked 0x10000 = false ∧ s.coh.lost = [] ∧ s.coh.owner? 0x10000 = none ∧ isDeviceLine 0x10000 = true)
      ∧ (r.nc = false ∧ r.cm = 0 ∧ s.loadOrder r = true ∧ s.acquireWaits r = false ∧ s.early r 0x10000 = [] ∧ s.isGath r = false)
      ∧ (coreDie r.core = homeDie 0x10000 ∨ 6 ≤ r.sc) ∧ s.coh.entriesLive (home 0x10000) < 16384 ∧ s.coh.roomOf (.l1 r.core) ≠ 0
      ∧ s.l1Hit r = false ∧ s.upgrades r = x.2 := by
  decide +kernel

/-- A line that the host may have whole, and room for the entry that a grant needs; a modified copy of an owner; a line that nothing asks for;
a row of lines that all have copies, whatever lines it holds, and one line that is alone in its frame. -/
theorem witness_CoherenceEventsComplete_owners : let line := 0x10000
    let q : State := { plain with ctl := openHome plain.ctl (home line) }
    let own : DirEntry := { slice := home line, block := line, level := 3, sharers := [], owner := some (.control 0, .m), quiet := 0 }
    let k : Copy := { who := .control 0, line := line, st := .m, data := List.replicate 128 7 }
    let o : State := { plain with coh := { plain.coh with dir := [own], copies := [k] } }
    (isDeviceLine line = true ∧ q.blocked line = false ∧ q.coh.lost.contains line = false ∧ q.lets .host line false = true ∧ q.lets .host line true = true
      ∧ q.coh.owner? line = none ∧ q.coh.entriesLive (home line) + 4 ≤ 16384)
    ∧ (o.coh.owner? line = some (.control 0, .m) ∧ o.coh.copy? (.control 0) line = some k ∧ k.modified = true
      ∧ ∀ x ∈ o.coh.dir, x.covers line = true → o.coh.entry? line = some x)
    ∧ (plain.coh.lost.contains line = false ∧ plain.flight.reqs = [] ∧ plain.coh.dir = [])
    ∧ (∃ c : Coh, ∀ l ∈ line :: Config.rowLines line, c.refills (lineOf l) = true)
    ∧ (∃ c : Coh, c.frames.find? (fun f => f.lines.contains line) = some { slice := home line, lines := [line] }) := by
  intro line q own k o
  refine ⟨by decide +kernel, ⟨by decide +kernel, by decide +kernel, rfl, ?_⟩, ⟨by decide, rfl, rfl⟩,
    ⟨{ plain.coh with copies := (line :: Config.rowLines line).map fun l => { who := .l1 0, line := lineOf l, st := .s, data := [] } }, ?_⟩,
    ⟨{ plain.coh with frames := [{ slice := home line, lines := [line] }] }, by decide +kernel⟩⟩
  · intro x m _
    have e : o.coh.entry? line = some own := by decide +kernel
    rw [e, List.mem_singleton.mp m]
  · intro l m
    unfold Coh.refills
    rw [Bool.or_eq_true]
    exact .inr (List.any_eq_true.mpr ⟨_, List.mem_map_of_mem m, by simp⟩)

/-- A launch record that no rule of R116 refuses, with its counter at 0x10000, and one whose allotment is 9. -/
def record (allot : Nat) : List Byte :=
  [(8, 1, 0), (10, 2, 16), (12, 4, 1), (16, 4, 1), (20, 4, 1), (24, 1, allot), (26, 1, 1), (44, 2, 1), (46, 2, 1), (104, 8, 0x100000), (112, 8, 0x10000)].foldl
    (fun b x => b.take x.1 ++ toBytes x.2.1 x.2.2 ++ b.drop (x.1 + x.2.1)) (List.replicate 256 0)

/-- The distributor takes a record that is accepted, and one that is not. -/
theorem witness_DistributorEventsComplete_accept : ∀ x ∈ ([(128, 0), (9, 3)] : List (Nat × Nat)), let k : Task := { aTask with bytes := record x.1 }
    let s := distS { grids := [], tasks := [k], increments := [], gens := [] } atData id
    let r := readRoles { s with dist := { s.dist with tasks := s.dist.tasks.erase k } } (distUnit 0) k.asid k.bytes
    (s.dist.tasks.filter fun k => k.die = 0) = [k] ∧ launchStatus k.bytes r.1 = x.2
    ∧ finds (engWrite r.2 (distUnit 0) k.asid (k.addr + 120) (toBytes 4 (launchStatus k.bytes r.1)) []) (fun _ _ => true) = true := by
  intro x m
  simp only [List.mem_cons, List.not_mem_nil, or_false] at m
  rcases m with rfl | rfl <;> exact ⟨by decide +kernel, by decide +kernel, by decide +kernel⟩

/-- An increment that waits for none, and one behind another of its queue that is still to come. -/
theorem witness_DistributorEventsComplete_order : let first : Increment := { anIncrement false with die := 1, grid := 5 }
    ∀ l ∈ [[anIncrement false], [first, anIncrement false]], let s := distS { grids := [], tasks := [], increments := l, gens := [] } atData id
      (s.dist.increments.find? fun i => i.die = 0 && !i.held && !i.made) = some (anIncrement false)
      ∧ ∃ p ps m, engReach s (distUnit 0) 0 0x10000 8 .rmw [] = .got (p :: ps) m
        ∧ (m.dist.increments.filter fun x => x.grid = 0) = [anIncrement false] ∧ (m.dist.increments.filter Increment.made) = []
        ∧ m.dist.waitsFor (anIncrement false) = decide (l.length = 2) := by
  intro first
  have h : ([[anIncrement false], [first, anIncrement false]].all fun l => let s := distS { grids := [], tasks := [], increments := l, gens := [] } atData id
      decide ((s.dist.increments.find? fun i => i.die = 0 && !i.held && !i.made) = some (anIncrement false))
        && finds (engReach s (distUnit 0) 0 0x10000 8 .rmw []) fun ps m => !ps.isEmpty && (decide ((m.dist.increments.filter fun x => x.grid = 0) = [anIncrement false])
          && (decide ((m.dist.increments.filter Increment.made) = []) && decide (m.dist.waitsFor (anIncrement false) = decide (l.length = 2))))) = true := by
    decide +kernel
  intro l i s
  have c := List.all_eq_true.mp h l i
  rw [Bool.and_eq_true, decide_eq_true_eq] at c
  obtain ⟨ps, m, e, g⟩ := finds_of c.2
  simp only [Bool.and_eq_true, decide_eq_true_eq, Bool.not_eq_true'] at g
  cases ps with
  | nil => cases g.1
  | cons p ps => exact ⟨c.1, p, ps, m, e, g.2⟩

/-- A team that comes back, with its save area, and no thread of it in a nap. -/
theorem witness_DistributorEventsComplete_back : let s := distS { grids := [], tasks := [], increments := [], gens := [] } atData out
    let gone := oneTeam atData out
    let m := (gone.threads.map Thread.tid).foldl (fun s x => s.spillThread gone.id x) s
    (∃ n, s.returnTeam gone 1 = some n) ∧ ∃ old, m.team? gone.id = some old ∧ old.saveArea = some (0x20000, 0x40000)
      ∧ (old.threads.all fun h => decide (h.wait = .ready)) = true ∧ ∃ a, m.kArea old = some a := by
  intro s gone m
  exact ⟨isSome_of (by decide +kernel), (m.team? gone.id).getD gone, by decide +kernel, by decide +kernel, by decide +kernel, isSome_of (by decide +kernel)⟩

/-- The record of a pass, with the stopped pass that it names; each state of a cue that RE_ARM and KILL find. -/
theorem witness_SupervisorEventsComplete_states : let pass : Pass := { aPass with stopped := true, hdr := 0x10000, idx := 0 }
    let s := (trapS 1 true).setEngine { (trapS 1 true).engine 0 with table := [pass] }
    let job (mid : Bool) (s : State) : State := { s with walk := { s.walk with
      ctxs := [aWalker fun w => { w with cue := some (0, 0), running := true, mid := mid }] } }
    let flow (posted : Bool) (s : State) : State := let m : State := { s with mx := { (stream id fun p => { p with cue := some (0, 0) }).mx with engines := s.mx.engines } }
      if posted then m.setEngine { m.engine 0 with table := [aPass] } else m
    let walker (c : Cue) : Cue := { c with kind := .walker }
    let strm (c : Cue) : Cue := { c with kind := .stream }
    let named (c : Cue) (m : State) : Bool := decide (m.cueNamed 0 0 0 = some c) && decide (m.cue? c.core c.slot = some c) && decide (c.marks = [])
    let holds_ (c : Cue) : State := { plain with cues := [c] }
    ((s.answered 0 0 0 1).map Prod.snd = some (aRecord 1 true) ∧ (((s.mx.engines.map Engine.table).flatten ++ s.mx.away).find? fun x =>
        x.team = 1 && x.stopped && x.hdr = (aRecord 1 true).pc && x.idx = (aRecord 1 true).idx) = some pass)
    ∧ ([aCue 0 .defined, aCue 0 .armed, aCue 0 .active, { aCue 0 .faulted with restartable := true }, aCue 0 .done, aCue 0 .killed].all fun c =>
        named c (holds_ c)) = true
    ∧ (named (walker (aCue 0 .active)) (job true (holds_ (walker (aCue 0 .active)))) = true
      ∧ (job true (holds_ (walker (aCue 0 .active)))).insideWord (walker (aCue 0 .active)) = true)
    ∧ (named (walker (aCue 0 .active)) (job false (holds_ (walker (aCue 0 .active)))) = true
      ∧ (job false (holds_ (walker (aCue 0 .active)))).insideWord (walker (aCue 0 .active)) = false)
    ∧ (∀ posted ∈ [true, false], named (strm (aCue 0 .active)) (flow posted (holds_ (strm (aCue 0 .active)))) = true
      ∧ ((flow posted (holds_ (strm (aCue 0 .active)))).endStream 0 0).streamsOn (strm (aCue 0 .active)) = posted) := by
  decide +kernel

/-- A demand on its way, with no budget passed and no leave before it, to a room that is not full and to one that is; the ETRY of it. -/
theorem witness_UsherEventsComplete_demand : let d := aDemand false none
    let try_ : Demand := { d with kind := .etry 6 }
    let crowd (r : Region) : Region := { r with mode := some 3, occ := 1, caps := [0, 0, 0, 1], line := List.replicate 65535 { team := 1, tid := 1, count := 1 } }
    let s (q : Region → Region) (d : Demand) : State := { usherS q [d] [] with ushers := { (usherS q [d] []).ushers with leaves := [] } }
    (∀ x ∈ [(d, false), (try_, false), (d, true)], let m := s (if x.2 then crowd else id) x.1
      (m.ushers.demands.find? fun y => y.id = x.1.id && !y.placed) = some x.1 ∧ (m.ushers.demands.all fun y => !m.budgetPassed y m.time) = true
      ∧ m.leavesFirst x.1 = false ∧ m.arriving x.1 = [x.1] ∧ (m.region? x.1.desc).map (fun r => r.full x.1.mode) = some x.2) := by
  decide +kernel

/-- A region to which a demand for mode 3 comes: none open; open with room, full, and closing; open in another mode, within its tenure and past
it. -/
theorem witness_UsherEventsComplete_region :
    let blank : Region :=
      { desc := 0x10000, base := 0x10000, n := 1, esize := 4, queue := true,
        mask := 0x39, red := 0, caps := [], budget := 0, tenure := 0, fill := (0 : W64), mode := none, occ := 0, closing := false, line := [], q := [], opened := 0,
        head := 0, tail := 0, rtail := 0, pidx := 0, pend := [], occupants := [] }
    let at_ (q : Region → Region) : Region := (aRoom q).getD blank
    ((at_ id).mode = none ∧ (at_ id).occupants = [])
    ∧ (let r := at_ fun r => { r with mode := some 3, occ := 1 }; r.occ < r.cap 3 ∧ r.line = [] ∧ r.closing = false)
    ∧ (let r := at_ fun r => { r with mode := some 3, occ := 1, caps := [0, 0, 0, 1] }; r.cap 3 ≤ r.occ)
    ∧ (let r := at_ fun r => { r with mode := some 3, occ := 1, closing := true }; r.mode.isSome = true ∧ r.closing = true)
    ∧ (let r := at_ fun r => { r with mode := some 4, occ := 1 }; r.mode ≠ some 3 ∧ r.expired 8191 = false ∧ r.expired 8192 = true) := by
  decide +kernel

/-- A LEAVE of a lane that holds nothing, of the last occupant with and without a mode that waits, and of one of two with and without a lane in
line. -/
theorem witness_UsherEventsComplete_leave : let last (q : List (Nat × List Waiter)) (r : Region) : Region :=
      { r with mode := some 3, occ := 1, occupants := [(1, 0)], q := q }
    let more (l : List Waiter) (r : Region) : Region := { r with mode := some 3, occ := 2, occupants := [(1, 0), (1, 1)], line := l }
    let w : Waiter := { team := 1, tid := 2, count := 1 }
    (∀ q ∈ [id, last [], last [(4, [w])], more [], more [w]], ((usherS q [] []).ushers.leaves.find? fun x => x.id = 9)
        = some { id := 9, team := 1, tid := 0, desc := 0x10000 } ∧ (usherS q [] []).region? 0x10000 = aRoom q ∧ (aRoom q).isSome = true)
    ∧ (aRoom id).map (fun r => r.occupants.contains (1, 0)) = some false
    ∧ (aRoom (last [])).map (fun r => joinQ r.q 3 r.line) = some [] ∧ (aRoom (last [(4, [w])])).map (fun r => joinQ r.q 3 r.line) = some [(4, [w])]
    ∧ (aRoom (more [])).map (fun r => (r.occupants.contains (1, 0), decide (1 < r.occ), r.line)) = some (true, true, [])
    ∧ (aRoom (more [w])).map (fun r => (r.closing, r.line, decide (r.occ - 1 < r.cap 3))) = some (false, [w], true) := by
  refine ⟨?_, by decide +kernel, by decide +kernel, by decide +kernel, by decide +kernel, by decide +kernel⟩
  intro q m
  simp only [List.mem_cons, List.not_mem_nil, or_false] at m
  rcases m with rfl | rfl | rfl | rfl | rfl <;> exact ⟨by decide +kernel, by decide +kernel, by decide +kernel⟩

/-- What each kind of cue needs to start: a copy nothing, a walker job and a launch their record, a stream its idle context. -/
theorem witness_EngineEventsComplete_starts : let c (k : CueKind) : Cue := { aCue 0 .active with kind := k, recA := 0x10000 }
    let s (k : CueKind) : State := { (stream id fun p => { p with st := .idle }) with cues := [c k] }
    (∀ k ∈ [CueKind.copy, .walker, .launch, .stream], (s k).cue? 0 0 = some (c k) ∧ (s k).team? (c k).team = some plainTeam)
    ∧ ((c .copy).shoot = none ∧ (c .copy).transits = ([], []) ∧ plainTeam.removed = false ∧ ∀ k, (c k).started = false ∧ (c k).st = .active)
    ∧ ((s .walker).cues.any fun x => x.kind = .walker && x.st = .active && !x.started && x.cluster = (c .walker).cluster && x.order < (c .walker).order) = false
    ∧ (∀ k ∈ [CueKind.walker, .launch], finds (engReadLong (s k) (c k).unit (c k).asid (c k).recA 4) (fun _ _ => true) = true)
    ∧ (s .launch).taskRoom (coreDie 0) = true ∧ ((s .stream).context? plainTeam).map Prompter.st = some .idle := by
  refine ⟨by decide +kernel, ⟨rfl, by decide +kernel, rfl, fun _ => ⟨rfl, rfl⟩⟩, by decide +kernel, ?_, by decide +kernel, by decide +kernel⟩
  intro k m
  simp only [List.mem_cons, List.not_mem_nil, or_false] at m
  rcases m with rfl | rfl <;> decide +kernel

end Sys2Proof.Tests
end

section
/-! The words of the formats R, I, B, K, M, C and P (R36-R42, R258): what is read from a word that has been put together, and what is put together again
from what has been read. -/

namespace Sys2Proof.Words

open Sys2Proof

/-! ### Format R (R36) -/

theorem rOf_rBits (op : BitVec 10) (v : RWord) : rOf (rBits op v) = v := by
  cases v
  simp (disch := decide) only [rOf, rBits, BitVec.extractLsb'_append_eq_of_add_le, BitVec.extractLsb'_append_eq_of_le, -Nat.reduceAdd]
  simp

theorem opcode_rBits (op : BitVec 10) (v : RWord) : (rBits op v).extractLsb' 54 10 = op := by
  simp (disch := decide) only [rBits, BitVec.extractLsb'_append_eq_of_le, -Nat.reduceAdd]
  simp

theorem rBits_rOf {w : W64} {o : Nat} (h : (w.extractLsb' 54 10).toNat = o) : rBits (BitVec.ofNat 10 o) (rOf w) = w := by
  rw [← h, BitVec.ofNat_toNat, BitVec.setWidth_eq]
  simp (disch := decide) only [rOf, rBits, BitVec.extractLsb'_append_extractLsb'_eq_extractLsb', -Nat.reduceAdd]
  exact BitVec.extractLsb'_eq_self

/-! ### Format I (R38) -/

theorem iOf_iBits (op : BitVec 10) (v : IWord) : iOf (iBits op v) = v := by
  cases v
  simp (disch := decide) only [iOf, iBits, BitVec.extractLsb'_append_eq_of_add_le, BitVec.extractLsb'_append_eq_of_le, -Nat.reduceAdd]
  simp

theorem opcode_iBits (op : BitVec 10) (v : IWord) : (iBits op v).extractLsb' 54 10 = op := by
  simp (disch := decide) only [iBits, BitVec.extractLsb'_append_eq_of_le, -Nat.reduceAdd]
  simp

theorem iBits_iOf {w : W64} {o : Nat} (h : (w.extractLsb' 54 10).toNat = o) : iBits (BitVec.ofNat 10 o) (iOf w) = w := by
  rw [← h, BitVec.ofNat_toNat, BitVec.setWidth_eq]
  simp (disch := decide) only [iOf, iBits, BitVec.extractLsb'_append_extractLsb'_eq_extractLsb', -Nat.reduceAdd]
  exact BitVec.extractLsb'_eq_self

/-! ### Format B (R39) -/

theorem bOf_bBits (op : BitVec 10) (v : BWord) : bOf (bBits op v) = v := by
  cases v
  simp (disch := decide) only [bOf, bBits, BitVec.extractLsb'_append_eq_of_add_le, BitVec.extractLsb'_append_eq_of_le, -Nat.reduceAdd]
  simp

theorem opcode_bBits (op : BitVec 10) (v : BWord) : (bBits op v).extractLsb' 54 10 = op := by
  simp (disch := decide) only [bBits, BitVec.extractLsb'_append_eq_of_le, -Nat.reduceAdd]
  simp

theorem bBits_bOf {w : W64} {o : Nat} (h : (w.extractLsb' 54 10).toNat = o) : bBits (BitVec.ofNat 10 o) (bOf w) = w := by
  rw [← h, BitVec.ofNat_toNat, BitVec.setWidth_eq]
  simp (disch := decide) only [bOf, bBits, BitVec.extractLsb'_append_extractLsb'_eq_extractLsb', -Nat.reduceAdd]
  exact BitVec.extractLsb'_eq_self

/-! ### Format K (R40) -/

theorem kOf_kBits (op : BitVec 10) (v : KWord) : kOf (kBits op v) = v := by
  cases v
  simp (disch := decide) only [kOf, kBits, BitVec.extractLsb'_append_eq_of_add_le, BitVec.extractLsb'_append_eq_of_le, -Nat.reduceAdd]
  simp

theorem opcode_kBits (op : BitVec 10) (v : KWord) : (kBits op v).extractLsb' 54 10 = op := by
  simp (disch := decide) only [kBits, BitVec.extractLsb'_append_eq_of_le, -Nat.reduceAdd]
  simp

theorem kBits_kOf {w : W64} {o : Nat} (h : (w.extractLsb' 54 10).toNat = o) : kBits (BitVec.ofNat 10 o) (kOf w) = w := by
  rw [← h, BitVec.ofNat_toNat, BitVec.setWidth_eq]
  simp (disch := decide) only [kOf, kBits, BitVec.extractLsb'_append_extractLsb'_eq_extractLsb', -Nat.reduceAdd]
  exact BitVec.extractLsb'_eq_self

/-! ### Format M (R41) -/

theorem mOf_mBits (op : BitVec 10) (v : MWord) : mOf (mBits op v) = v := by
  cases v
  simp (disch := decide) only [mOf, mBits, BitVec.extractLsb'_append_eq_of_add_le, BitVec.extractLsb'_append_eq_of_le, -Nat.reduceAdd]
  simp

theorem opcode_mBits (op : BitVec 10) (v : MWord) : (mBits op v).extractLsb' 54 10 = op := by
  simp (disch := decide) only [mBits, BitVec.extractLsb'_append_eq_of_le, -Nat.reduceAdd]
  simp

theorem mBits_mOf {w : W64} {o : Nat} (h : (w.extractLsb' 54 10).toNat = o) : mBits (BitVec.ofNat 10 o) (mOf w) = w := by
  rw [← h, BitVec.ofNat_toNat, BitVec.setWidth_eq]
  simp (disch := decide) only [mOf, mBits, BitVec.extractLsb'_append_extractLsb'_eq_extractLsb', -Nat.reduceAdd]
  exact BitVec.extractLsb'_eq_self

/-! ### Format C (R42) -/

theorem cOf_cBits (op : BitVec 10) (v : CWord) : cOf (cBits op v) = v := by
  cases v
  simp (disch := decide) only [cOf, cBits, BitVec.extractLsb'_append_eq_of_add_le, BitVec.extractLsb'_append_eq_of_le, -Nat.reduceAdd]
  simp

theorem opcode_cBits (op : BitVec 10) (v : CWord) : (cBits op v).extractLsb' 54 10 = op := by
  simp (disch := decide) only [cBits, BitVec.extractLsb'_append_eq_of_le, -Nat.reduceAdd]
  simp

theorem cBits_cOf {w : W64} {o : Nat} (h : (w.extractLsb' 54 10).toNat = o) : cBits (BitVec.ofNat 10 o) (cOf w) = w := by
  rw [← h, BitVec.ofNat_toNat, BitVec.setWidth_eq]
  simp (disch := decide) only [cOf, cBits, BitVec.extractLsb'_append_extractLsb'_eq_extractLsb', -Nat.reduceAdd]
  exact BitVec.extractLsb'_eq_self

/-! ### Format P (R258) -/

theorem pOf_pBits (op : BitVec 8) (v : PWord) : pOf (pBits op v) = v := by
  cases v
  simp (disch := decide) only [pOf, pBits, BitVec.extractLsb'_append_eq_of_add_le, BitVec.extractLsb'_append_eq_of_le, -Nat.reduceAdd]
  simp

theorem opcode_pBits (op : BitVec 8) (v : PWord) : (pBits op v).extractLsb' 56 8 = op := by
  simp (disch := decide) only [pBits, BitVec.extractLsb'_append_eq_of_le, -Nat.reduceAdd]
  simp

theorem pBits_pOf {w : W64} {o : Nat} (h : (w.extractLsb' 56 8).toNat = o) : pBits (BitVec.ofNat 8 o) (pOf w) = w := by
  rw [← h, BitVec.ofNat_toNat, BitVec.setWidth_eq]
  simp (disch := decide) only [pOf, pBits, BitVec.extractLsb'_append_extractLsb'_eq_extractLsb', -Nat.reduceAdd]
  exact BitVec.extractLsb'_eq_self

/-! ## Words as bytes (R1, R291) -/

theorem wordOfBytes_bytes (n v : Nat) : wordOfBytes ((List.range n).map fun k => BitVec.ofNat 8 (v >>> (8 * k))) = v % 256 ^ n := by
  induction n generalizing v with
  | zero => simp [wordOfBytes, Nat.mod_one]
  | succ n ih =>
    have hshift : ∀ k, v >>> (8 * (k + 1)) = (v / 256) >>> (8 * k) := by
      intro k
      rw [Nat.mul_add, Nat.add_comm, Nat.shiftRight_add, Nat.shiftRight_eq_div_pow v]
    have htail := ih (v / 256)
    rw [List.range_succ_eq_map, List.map_cons, List.map_map]
    simp only [wordOfBytes, List.foldr_cons, Function.comp_def, Nat.succ_eq_add_one, hshift] at htail ⊢
    rw [htail, Nat.pow_succ', Nat.mod_mul]
    simp

theorem ofBytes_word64 (w : W64) :
    BitVec.ofNat 64 (wordOfBytes ((List.range 8).map fun k => w.extractLsb' (8 * k) 8)) = w := by
  refine BitVec.eq_of_toNat_eq ?_
  have h := wordOfBytes_bytes 8 w.toNat
  rw [BitVec.toNat_ofNat]
  exact (congrArg (· % 2 ^ 64) h).trans (by have := w.isLt; omega)

theorem ofBytes_word32 (w : W32) :
    BitVec.ofNat 32 (wordOfBytes ((List.range 4).map fun k => w.extractLsb' (8 * k) 8)) = w := by
  refine BitVec.eq_of_toNat_eq ?_
  have h := wordOfBytes_bytes 4 w.toNat
  rw [BitVec.toNat_ofNat]
  exact (congrArg (· % 2 ^ 32) h).trans (by have := w.isLt; omega)

theorem decodeBytes_core {i : Instr} (hk : i.kind = .core) : decodeBytes .core (encode i) = decodeCore (encodeWord i) := by
  simp [decodeBytes, encode, hk, List.take_of_length_le, ofBytes_word64]

theorem decodeBytes_stream {i : Instr} (hk : i.kind = .stream) : decodeBytes .stream (encode i) = decodeStream (encodeWord i) := by
  simp [decodeBytes, encode, hk, List.take_of_length_le, ofBytes_word64]

theorem decodeBytes_walker {i : Instr} (hk : i.kind = .walker) : decodeBytes .walker (encode i) = decodeWalker (encodeWalker i) := by
  simp [decodeBytes, encode, hk, List.take_of_length_le, ofBytes_word32]

/-! ## The maps of core words and of stream words (R48, R260) -/

/-- What an opcode map has read from word `w`, if anything: no clause header, and an instruction of kind `k` with that word. -/
structure Reads (k : WordKind) (w : W64) (o : Option Instr) : Prop where
  header : o.isSome = true → isHeader w = false
  kind : ∀ i ∈ o, i.kind = k
  word : ∀ i ∈ o, encodeWord i = w

theorem reads_none (k : WordKind) (w : W64) : Reads k w none := ⟨nofun, nofun, nofun⟩

/-- The marker stands in the upper six bits of the opcode (R20). -/
theorem isHeader_core {w : W64} {o : Nat} (h : (w.extractLsb' 54 10).toNat = o) (ho : o / 16 ≠ 62) : isHeader w = false := by
  simp only [isHeader, decide_eq_false_iff_not]
  intro hm
  have hm' := congrArg BitVec.toNat hm
  simp only [BitVec.extractLsb'_toNat, Nat.shiftRight_eq_div_pow] at h hm'
  change _ = 62 at hm'
  omega

theorem isHeader_stream {w : W64} {o : Nat} (h : (w.extractLsb' 56 8).toNat = o) (ho : o / 4 ≠ 62) : isHeader w = false := by
  simp only [isHeader, decide_eq_false_iff_not]
  intro hm
  have hm' := congrArg BitVec.toNat hm
  simp only [BitVec.extractLsb'_toNat, Nat.shiftRight_eq_div_pow] at h hm'
  change _ = 62 at hm'
  omega

/-- The map reads instruction `i` back from the word that it is put into. -/
structure ReadBack (map : W64 → Option Instr) (i : Instr) : Prop where
  eq : map (encodeWord i) = some i

section
variable {w : W64} {o : Nat}


theorem reads_r {f : RWord → Instr} (h : (w.extractLsb' 54 10).toNat = o) (ho : o / 16 ≠ 62) (hk : ∀ v, (f v).kind = .core)
    (hw : ∀ v, encodeWord (f v) = rBits (BitVec.ofNat 10 o) v) : Reads .core w (some (f (rOf w))) :=
  ⟨fun _ => isHeader_core h ho, by rintro _ ⟨⟩; exact hk _, by rintro _ ⟨⟩; exact (hw _).trans (rBits_rOf h)⟩

theorem reads_i {f : IWord → Instr} (h : (w.extractLsb' 54 10).toNat = o) (ho : o / 16 ≠ 62) (hk : ∀ v, (f v).kind = .core)
    (hw : ∀ v, encodeWord (f v) = iBits (BitVec.ofNat 10 o) v) : Reads .core w (some (f (iOf w))) :=
  ⟨fun _ => isHeader_core h ho, by rintro _ ⟨⟩; exact hk _, by rintro _ ⟨⟩; exact (hw _).trans (iBits_iOf h)⟩

theorem reads_b {f : BWord → Instr} (h : (w.extractLsb' 54 10).toNat = o) (ho : o / 16 ≠ 62) (hk : ∀ v, (f v).kind = .core)
    (hw : ∀ v, encodeWord (f v) = bBits (BitVec.ofNat 10 o) v) : Reads .core w (some (f (bOf w))) :=
  ⟨fun _ => isHeader_core h ho, by rintro _ ⟨⟩; exact hk _, by rintro _ ⟨⟩; exact (hw _).trans (bBits_bOf h)⟩

theorem reads_k {f : KWord → Instr} (h : (w.extractLsb' 54 10).toNat = o) (ho : o / 16 ≠ 62) (hk : ∀ v, (f v).kind = .core)
    (hw : ∀ v, encodeWord (f v) = kBits (BitVec.ofNat 10 o) v) : Reads .core w (some (f (kOf w))) :=
  ⟨fun _ => isHeader_core h ho, by rintro _ ⟨⟩; exact hk _, by rintro _ ⟨⟩; exact (hw _).trans (kBits_kOf h)⟩

theorem reads_m {f : MWord → Instr} (h : (w.extractLsb' 54 10).toNat = o) (ho : o / 16 ≠ 62) (hk : ∀ v, (f v).kind = .core)
    (hw : ∀ v, encodeWord (f v) = mBits (BitVec.ofNat 10 o) v) : Reads .core w (some (f (mOf w))) :=
  ⟨fun _ => isHeader_core h ho, by rintro _ ⟨⟩; exact hk _, by rintro _ ⟨⟩; exact (hw _).trans (mBits_mOf h)⟩

theorem reads_c {f : CWord → Instr} (h : (w.extractLsb' 54 10).toNat = o) (ho : o / 16 ≠ 62) (hk : ∀ v, (f v).kind = .core)
    (hw : ∀ v, encodeWord (f v) = cBits (BitVec.ofNat 10 o) v) : Reads .core w (some (f (cOf w))) :=
  ⟨fun _ => isHeader_core h ho, by rintro _ ⟨⟩; exact hk _, by rintro _ ⟨⟩; exact (hw _).trans (cBits_cOf h)⟩

theorem reads_p {f : PWord → Instr} (h : (w.extractLsb' 56 8).toNat = o) (ho : o / 4 ≠ 62) (hk : ∀ v, (f v).kind = .stream)
    (hw : ∀ v, encodeWord (f v) = pBits (BitVec.ofNat 8 o) v) : Reads .stream w (some (f (pOf w))) :=
  ⟨fun _ => isHeader_stream h ho, by rintro _ ⟨⟩; exact hk _, by rintro _ ⟨⟩; exact (hw _).trans (pBits_pOf h)⟩

end

theorem readBack_r {f : RWord → Instr} {v : RWord} (op : BitVec 10) (he : encodeWord (f v) = rBits op v)
    (hm : ∀ w, w.extractLsb' 54 10 = op → coreOf w = some (f (rOf w))) : ReadBack coreOf (f v) :=
  ⟨by rw [he, hm _ (opcode_rBits op v), rOf_rBits]⟩

theorem readBack_i {f : IWord → Instr} {v : IWord} (op : BitVec 10) (he : encodeWord (f v) = iBits op v)
    (hm : ∀ w, w.extractLsb' 54 10 = op → coreOf w = some (f (iOf w))) : ReadBack coreOf (f v) :=
  ⟨by rw [he, hm _ (opcode_iBits op v), iOf_iBits]⟩

theorem readBack_b {f : BWord → Instr} {v : BWord} (op : BitVec 10) (he : encodeWord (f v) = bBits op v)
    (hm : ∀ w, w.extractLsb' 54 10 = op → coreOf w = some (f (bOf w))) : ReadBack coreOf (f v) :=
  ⟨by rw [he, hm _ (opcode_bBits op v), bOf_bBits]⟩

theorem readBack_k {f : KWord → Instr} {v : KWord} (op : BitVec 10) (he : encodeWord (f v) = kBits op v)
    (hm : ∀ w, w.extractLsb' 54 10 = op → coreOf w = some (f (kOf w))) : ReadBack coreOf (f v) :=
  ⟨by rw [he, hm _ (opcode_kBits op v), kOf_kBits]⟩

theorem readBack_m {f : MWord → Instr} {v : MWord} (op : BitVec 10) (he : encodeWord (f v) = mBits op v)
    (hm : ∀ w, w.extractLsb' 54 10 = op → coreOf w = some (f (mOf w))) : ReadBack coreOf (f v) :=
  ⟨by rw [he, hm _ (opcode_mBits op v), mOf_mBits]⟩

theorem readBack_c {f : CWord → Instr} {v : CWord} (op : BitVec 10) (he : encodeWord (f v) = cBits op v)
    (hm : ∀ w, w.extractLsb' 54 10 = op → coreOf w = some (f (cOf w))) : ReadBack coreOf (f v) :=
  ⟨by rw [he, hm _ (opcode_cBits op v), cOf_cBits]⟩

theorem readBack_p {f : PWord → Instr} {v : PWord} (op : BitVec 8) (he : encodeWord (f v) = pBits op v)
    (hm : ∀ w, w.extractLsb' 56 8 = op → streamOf w = some (f (pOf w))) : ReadBack streamOf (f v) :=
  ⟨by rw [he, hm _ (opcode_pBits op v), pOf_pBits]⟩

set_option maxRecDepth 2000 in
/-- The map of core words, entry by entry (R48). -/
theorem coreOf_reads (w : W64) : Reads .core w (coreOf w) := by
  unfold coreOf
  split <;> rename_i h
  case h_168 => exact reads_none _ _
  all_goals first
    | refine reads_r h (by decide) ?_ ?_
    | refine reads_i h (by decide) ?_ ?_
    | refine reads_b h (by decide) ?_ ?_
    | refine reads_k h (by decide) ?_ ?_
    | refine reads_m h (by decide) ?_ ?_
    | refine reads_c h (by decide) ?_ ?_
  all_goals exact fun _ => rfl

/-- The map of stream words, entry by entry (R260). -/
theorem streamOf_reads (w : W64) : Reads .stream w (streamOf w) := by
  unfold streamOf
  split <;> rename_i h
  case h_24 => exact reads_none _ _
  all_goals exact reads_p h (by decide) (fun _ => rfl) fun _ => rfl

set_option maxRecDepth 2000 in
/-- Every core instruction has its entry in the map. -/
theorem coreOf_encodeWord {i : Instr} (hk : i.kind = .core) : ReadBack coreOf i := by
  cases i <;> cases hk
  all_goals first
    | apply readBack_r
    | apply readBack_i
    | apply readBack_b
    | apply readBack_k
    | apply readBack_m
    | apply readBack_c
  all_goals first
    | exact rfl
    | intro w h; unfold coreOf; rw [h]; rfl

/-- Every stream word has its entry in the map. -/
theorem streamOf_encodeWord {i : Instr} (hk : i.kind = .stream) : ReadBack streamOf i := by
  cases i <;> cases hk <;> apply readBack_p
  all_goals first
    | exact rfl
    | intro w h; unfold streamOf; rw [h]; rfl

/-! ## The map of walker words (R291) -/

section
variable (op : BitVec 6) (d a b : BitVec 4) (k : BitVec 3) (m : BitVec 1) (i : BitVec 14) (o : BitVec 22)

theorem opcode_wBits : (wBits op d a b i).extractLsb' 26 6 = op := by
  simp (disch := decide) only [wBits, BitVec.extractLsb'_append_eq_of_le, -Nat.reduceAdd]
  simp

theorem fieldD_wBits : (wBits op d a b i).extractLsb' 22 4 = d := by
  simp (disch := decide) only [wBits, BitVec.extractLsb'_append_eq_of_add_le, BitVec.extractLsb'_append_eq_of_le, -Nat.reduceAdd]
  simp

theorem fieldA_wBits : (wBits op d a b i).extractLsb' 18 4 = a := by
  simp (disch := decide) only [wBits, BitVec.extractLsb'_append_eq_of_add_le, BitVec.extractLsb'_append_eq_of_le, -Nat.reduceAdd]
  simp

theorem fieldB_wBits : (wBits op d a b i).extractLsb' 14 4 = b := by
  simp (disch := decide) only [wBits, BitVec.extractLsb'_append_eq_of_add_le, BitVec.extractLsb'_append_eq_of_le, -Nat.reduceAdd]
  simp

theorem imm_wBits : (wBits op d a b i).extractLsb' 0 14 = i := by
  simp (disch := decide) only [wBits, BitVec.extractLsb'_append_eq_of_add_le, -Nat.reduceAdd]
  simp

theorem shiftByReg_wBits (r : BitVec 1) (n : BitVec 5) : (wBits op d a b ((0 : BitVec 8) ++ r ++ n)).extractLsb' 5 1 = r := by
  simp (disch := decide) only [wBits, BitVec.extractLsb'_append_eq_of_add_le, BitVec.extractLsb'_append_eq_of_le, -Nat.reduceAdd]
  simp

theorem shiftByImm_wBits (r : BitVec 1) (n : BitVec 5) : (wBits op d a b ((0 : BitVec 8) ++ r ++ n)).extractLsb' 0 5 = n := by
  simp (disch := decide) only [wBits, BitVec.extractLsb'_append_eq_of_add_le, -Nat.reduceAdd]
  simp

theorem waited_wBits (s : BitVec 2) : (wBits op d a b ((0 : BitVec 12) ++ s)).extractLsb' 0 2 = s := by
  simp (disch := decide) only [wBits, BitVec.extractLsb'_append_eq_of_add_le, -Nat.reduceAdd]
  simp

theorem scanKind_wBits (k : BitVec 3) : (wBits op d a b ((0 : BitVec 11) ++ k)).extractLsb' 0 3 = k := by
  simp (disch := decide) only [wBits, BitVec.extractLsb'_append_eq_of_add_le, -Nat.reduceAdd]
  simp

theorem kind_wBits : (wBits op d a (m ++ k) i).extractLsb' 14 3 = k := by
  simp (disch := decide) only [wBits, BitVec.extractLsb'_append_eq_of_add_le, BitVec.extractLsb'_append_eq_of_le, -Nat.reduceAdd]
  simp

theorem counted_wBits : (wBits op d a (m ++ k) i)[17] = m[0] := by
  rw [← BitVec.getLsbD_eq_getElem]
  simp (disch := decide) only [wBits, BitVec.getLsbD_append, -Nat.reduceAdd]
  simp

theorem opcode_wbBits : (wbBits op d o).extractLsb' 26 6 = op := by
  simp (disch := decide) only [wbBits, BitVec.extractLsb'_append_eq_of_le, -Nat.reduceAdd]
  simp

theorem fieldC_wbBits : (wbBits op d o).extractLsb' 22 4 = d := by
  simp (disch := decide) only [wbBits, BitVec.extractLsb'_append_eq_of_add_le, BitVec.extractLsb'_append_eq_of_le, -Nat.reduceAdd]
  simp

theorem offset_wbBits : (wbBits op d o).extractLsb' 0 22 = o := by
  simp (disch := decide) only [wbBits, BitVec.extractLsb'_append_eq_of_add_le, -Nat.reduceAdd]
  simp

end

/-- Every walker instruction has its entry in the map. -/
theorem walkerOf_encodeWalker {i : Instr} (hk : i.kind = .walker) : walkerOf (encodeWalker i) = some i := by
  cases i <;> cases hk
  case wbr | wjmp | wjmpLink | wjmpRet =>
    show walkerOf (wbBits _ _ _) = _
    unfold walkerOf
    simp [opcode_wbBits, fieldC_wbBits, offset_wbBits]
  case wshl | wshr =>
    show walkerOf (wBits _ _ _ _ _) = _
    unfold walkerOf
    simpa [opcode_wBits, fieldD_wBits, fieldA_wBits, fieldB_wBits] using ⟨shiftByReg_wBits .., shiftByImm_wBits ..⟩
  case wwait =>
    show walkerOf (wBits _ _ _ _ _) = _
    unfold walkerOf
    simpa [opcode_wBits] using waited_wBits ..
  case wscan =>
    show walkerOf (wBits _ _ _ _ _) = _
    unfold walkerOf
    simpa [opcode_wBits, fieldD_wBits, fieldA_wBits, fieldB_wBits] using scanKind_wBits ..
  all_goals
    show walkerOf (wBits _ _ _ _ _) = _
    unfold walkerOf
    simp [opcode_wBits, fieldD_wBits, fieldA_wBits, fieldB_wBits, imm_wBits, kind_wBits, counted_wBits]

theorem walkerOf_kind (w : W32) : ∀ i ∈ walkerOf w, i.kind = .walker := by
  unfold walkerOf
  dsimp only
  split
  all_goals repeat' split
  all_goals rintro _ ⟨⟩
  all_goals rfl

/-! ## The decoders (R46, R259, R291) -/

theorem decodeCore_ok {w : W64} {i : Instr} :
    decodeCore w = .ok i ↔ isHeader w = false ∧ coreOf w = some i ∧ i.wellFormed = true := by
  unfold decodeCore
  cases isHeader w <;> cases coreOf w with
  | none => simp
  | some j => by_cases hj : j.wellFormed = true <;> simp [hj] <;> rintro rfl <;> simp [hj]

theorem decodeStream_ok {w : W64} {i : Instr} :
    decodeStream w = .ok i ↔ isHeader w = false ∧ streamOf w = some i ∧ i.wellFormed = true := by
  unfold decodeStream
  cases isHeader w <;> cases streamOf w with
  | none => simp
  | some j => by_cases hj : j.wellFormed = true <;> simp [hj] <;> rintro rfl <;> simp [hj]

theorem decodeWalker_ok {w : W32} {i : Instr} :
    decodeWalker w = .ok i ↔ walkerOf w = some i ∧ i.wellFormed = true ∧ encodeWalker i = w := by
  unfold decodeWalker
  cases walkerOf w with
  | none => simp
  | some j =>
    simp only [Option.some.injEq]
    constructor
    · intro h
      split at h
      case isTrue hj => cases h; simpa using hj
      case isFalse => cases h
    · rintro ⟨rfl, hw, he⟩
      simp [hw, he]

theorem decodeBytes_encode {i : Instr} (hw : i.wellFormed = true) (hk : i.kind ≠ .event) : decodeBytes i.kind (encode i) = .ok i := by
  cases h : i.kind with
  | core =>
    have hm := (coreOf_encodeWord h).eq
    rw [decodeBytes_core h]
    exact decodeCore_ok.2 ⟨(coreOf_reads _).header (by rw [hm]; rfl), hm, hw⟩
  | stream =>
    have hm := (streamOf_encodeWord h).eq
    rw [decodeBytes_stream h]
    exact decodeStream_ok.2 ⟨(streamOf_reads _).header (by rw [hm]; rfl), hm, hw⟩
  | walker =>
    rw [decodeBytes_walker h]
    exact decodeWalker_ok.2 ⟨walkerOf_encodeWalker h, hw, rfl⟩
  | event => exact absurd h hk

/-- Settles O55: each entry of an opcode map is read in both directions, and the fields of each format fill its word. -/
theorem encodingsReadBack : Obligations.EncodingsReadBack := by
  refine ⟨fun i hw hk => decodeBytes_encode hw hk, fun w i h => ?_, fun w i h => ?_, fun w i h => ?_⟩
  · obtain ⟨-, hm, hw⟩ := decodeCore_ok.1 h
    exact ⟨(coreOf_reads w).kind i hm, hw, (coreOf_reads w).word i hm⟩
  · obtain ⟨-, hm, hw⟩ := decodeStream_ok.1 h
    exact ⟨(streamOf_reads w).kind i hm, hw, (streamOf_reads w).word i hm⟩
  · obtain ⟨hm, hw, he⟩ := decodeWalker_ok.1 h
    exact ⟨walkerOf_kind w i hm, hw, he⟩

end Sys2Proof.Words
end


section
/-! The immediate forms (R38, R136, R137), words of the spec's own tables (O54) and the long-latency floating-point instructions. -/

namespace Sys2Proof.Words

open Sys2Proof Sys2Proof.Machine Sys2Proof.Laws

/-! ## Immediate forms -/

/-- An instruction that writes a result of a type to its lanes' d. -/
theorem setTy_lanewise {i : Instr} {f : Form} {ty d : Nat} {v : Thread → Nat}
    (he : ∀ s, exec i s = issueThread f (fun _ h => h.setTy ty d (v h)) s) (hl : f.long = false) (hk : f.tok = none) :
    Lanewise i f fun _ h => h.setTy ty d (v h) :=
  lanewise_of he hl hk (fun _ h => setTy_tid h ..) fun _ h => setTy_singleStep h ..

/-- An instruction that writes a result of a type with its flags. -/
theorem put_lanewise {i : Instr} {f : Form} {ty d : Nat} {r : Thread → Nat × Flag}
    (he : ∀ s, exec i s = issueThread f (fun _ h => h.put ty d (r h)) s) (hl : f.long = false) (hk : f.tok = none) :
    Lanewise i f fun _ h => (h.setTy ty d (r h).1).addFlags (r h).2 :=
  lanewise_of he hl hk (fun _ h => setTy_tid h ..) fun _ h => setTy_singleStep h ..

/-- Settles O4: each immediate form changes only its lanes' threads, by the operation with imm32 for b and d for c. -/
theorem immediateFormsComplete : Obligations.ImmediateFormsComplete := by
  intro w
  dsimp only
  refine ⟨?iaddi, ?isubi, ?imuli, ?imulhi, ?imadi, ?imini, ?imaxi, ?andi, ?ori, ?xori, ?andni, ?shli, ?shri, ?shai, ?roti, ?bfei, ?bfii,
    ?movi, ?iaddci, ?imadwi, ?iabsi, ?icmpi, ?iseli, ?leai, ?noti⟩
  case iaddi | isubi | imuli | imulhi | imadi | imini | imaxi | imadwi | iabsi => exact put_lanewise (fun _ => rfl) rfl rfl
  case andi | ori | xori | andni | shli | shri | shai | roti | bfei | bfii => exact setTy_lanewise (fun _ => rfl) rfl rfl
  case movi =>
    refine lanewise_of (fun _ => rfl) rfl rfl (fun _ h => ?_) fun _ h => ?_ <;> cases bitOf w.md.toNat 0 <;> rfl
  case iaddci => exact lanewise_of (fun _ => rfl) rfl rfl (fun _ h => by simp) fun _ h => by simp
  case icmpi => exact lanewise_of (fun _ => rfl) rfl rfl (fun _ h => by simp) fun _ h => by simp
  case iseli | leai | noti => exact lanewise_of (fun _ => rfl) rfl rfl (fun _ _ => rfl) fun _ _ => rfl

/-- Settles O54: each word is read by the decoder as the spec's tables read it. -/
theorem wordsOfTheSpecDecode : Obligations.WordsOfTheSpecDecode := by
  refine ⟨?_, ?_, ?_, ?_, ?_, ?_, ?_, ?_, ?_⟩ <;> decide

end Sys2Proof.Words
end


section
/-! Instructions whose results are rounded under one of the modes of R67 and R68, and the long-latency ones among them (R33, R143, R148). -/

namespace Sys2Proof.Rounding

open Sys2Proof Sys2Proof.Machine Sys2Proof.Laws

/-! ## The cast of a team is kept -/

/-- An operation on the lanes of team `id` that leaves the team its groups and its threads' numbers and stepping. -/
def KeepsCast (id : Nat) (f : State → State) : Prop :=
  ∀ s u, s.team? id = some u → ∃ v, (f s).team? id = some v ∧ SameCast u v

theorem KeepsCast.foldl {α : Type} {id : Nat} {f : State → α → State} (hf : ∀ a, KeepsCast id fun s => f s a) (l : List α) :
    KeepsCast id fun s => l.foldl f s := by
  induction l with
  | nil => exact fun s u hu => ⟨u, hu, SameCast.refl u⟩
  | cons a l ih =>
    intro s u hu
    obtain ⟨v, hv, cv⟩ := hf a s u hu
    obtain ⟨w, hw, cw⟩ := ih _ v hv
    exact ⟨w, hw, cv.trans cw⟩

theorem team_updTeam_same {s : State} {id : Nat} {f : Team → Team} {u : Team} (hu : s.team? id = some u) (hf : ∀ t, (f t).id = t.id) :
    (s.updTeam id f).team? id = some (f u) := by
  rw [team_updTeam _ _ _ _ hf, hu, Option.map_some, if_pos (team_id hu)]

theorem team_updThreads {s : State} {id : Nat} {u : Team} (l : List Nat) (g : Thread → Thread) (hu : s.team? id = some u) :
    (s.updThreads id l g).team? id = some { u with threads := updWhere u.threads (fun h => l.contains h.tid) g } := by
  exact team_updTeam_same hu fun _ => rfl

theorem keepsCast_updThreads {id : Nat} (l : List Nat) {g : Thread → Thread} (ht : ∀ h, (g h).tid = h.tid)
    (hs : ∀ h, (g h).singleStep = h.singleStep) : KeepsCast id fun s => s.updThreads id l g :=
  fun _ u hu => ⟨_, team_updThreads l g hu, SameCast.upd u _ ht hs⟩

theorem keepsCast_updThread {id x : Nat} {g : Thread → Thread} (ht : ∀ h, (g h).tid = h.tid)
    (hs : ∀ h, (g h).singleStep = h.singleStep) : KeepsCast id fun s => s.updThread id x g := by
  exact fun _ u hu => ⟨u.updThread x g, team_updTeam_same hu fun _ => rfl, SameCast.upd u _ ht hs⟩

/-- Results that come later change of a team only what is marked empty (R33). -/
theorem keepsCast_actLong (f : Form) (g : List Nat → Thread → List (Nat × W32) × W32) (t : Team) (lanes : List (Nat × List Nat)) :
    KeepsCast t.id (actLong f g t lanes) := by
  refine KeepsCast.foldl (fun p s u hu => ?_) lanes
  cases hx : s.thread? t.id p.1 with
  | none => simp only [hx]; exact ⟨u, hu, SameCast.refl u⟩
  | some h => simp only [hx]; exact keepsCast_updThread (atIssue_tid _) (atIssue_singleStep _) s.fresh u hu

/-! ## Issue under the rounding modes -/

/-- The end of an issue on a state in which the team has its cast. -/
theorem advances_of_cast {s m : State} {b : Bundle} {t v : Team} {f : Form} (c : Clear s b t f) (hv : m.team? t.id = some v)
    (hc : SameCast t v) : Advances b t m (m.finish f t.id [b] (b.idx t) { s := m }) :=
  finish_advances (quiet_of_clear c hv (fun h hh _ => hc.threads h hh) hc.groups hc.width)

/-- An instruction that `issueRounded` runs: it goes on at once, with keyed draws under rm 6, and under rm 5 with the draws that its
lanes have taken or by asking for them. -/
theorem rounded_of {i : Instr} {f : Form} {rm n : Nat} {act : Team → List (Nat × List Nat) → State → State}
    (he : ∀ s, exec i s = issueRounded f rm n act s) (hk : ∀ t lanes, KeepsCast t.id (act t lanes)) : Rounded i f rm n act := by
  intro s b t
  refine ⟨fun h5 h6 c => ?plain, fun h6 c => ?keyed, fun h5 c hr => ?drawn, fun h5 c hr => ?asks⟩
  case plain =>
    obtain ⟨v, hv, hc⟩ := hk t ((t.active f b.tids).map fun x => (x, [])) s t (issuer_team c.issues)
    refine ⟨_, ?_, advances_of_cast c hv hc⟩
    rw [he]
    unfold issueRounded
    simp only [h6, h5, if_false, c.issues, clear_gate c]
  case keyed =>
    obtain ⟨v, hv, hc⟩ := hk t ((t.active f b.tids).map fun x => (x, ((t.thread? x).map fun h => t.keyedDraws h n).getD [])) s t
      (issuer_team c.issues)
    obtain ⟨v', hv', hc'⟩ := keepsCast_updThreads (t.active f b.tids)
      (g := fun h => { h with srkc := h.srkc + BitVec.ofNat 64 n }) (fun _ => rfl) (fun _ => rfl) _ v hv
    refine ⟨_, ?_, advances_of_cast c hv' (hc.trans hc')⟩
    rw [he]
    unfold issueRounded
    simp only [h6, if_true, c.issues, clear_gate c]
    rfl
  case drawn =>
    obtain ⟨v, hv, hc⟩ := hk t ((t.active f b.tids).map fun x => (x, s.drawsOf t.id n x)) (s.dropDraws t.id n (t.active f b.tids)) t
      (issuer_team c.issues)
    refine ⟨_, ?_, advances_of_cast c hv hc⟩
    rw [he]
    unfold issueRounded
    simp only [h5, Nat.reduceEqDiff, if_false, if_true, c.issues, clear_gate c, hr]
  case asks =>
    rw [he]
    unfold issueRounded
    simp only [h5, Nat.reduceEqDiff, if_false, if_true, c.issues, clear_gate c, hr, Bool.false_eq_true]

/-- Settles O9: each long-latency instruction issues under the rounding modes and sends its rounded result. -/
theorem floatLongCompletes : Obligations.FloatLongCompletes := by
  intro w
  dsimp only
  refine ⟨?_, ?_, ?_, ?_, ?_, ?_, ?_, ?_⟩ <;> exact rounded_of (fun _ => rfl) (keepsCast_actLong _ _)

end Sys2Proof.Rounding
end


section
/-! Privileged instructions outside supervisor mode (R46 step 5, R48, R179, R180). -/

namespace Sys2Proof.Privilege

open Sys2Proof Sys2Proof.Machine Sys2Proof.Laws

/-- An instruction whose whole effect is the stop of one lane. -/
theorem stopsWith_of {i : Instr} {s : State} {t : Team} {x : Nat} {h : Thread} (info : Stop) (ht : s.team? t.id = some t)
    (hx : t.thread? x = some h) (he : exec i s = .next (s.stopLanes t.id [(x, info)])) : StopsWith i s t x h info.code := by
  obtain ⟨r, h', hr⟩ := stopLanes_one info ht hx
  exact ⟨_, r, h', he, hr⟩

/-- Step 5 of R46 comes first: the one thread of a bundle stops, whatever else the form asks and whatever its guard. -/
theorem gate_privilege {f : Form} {t : Team} {x : Nat} {h : Thread} (hf : f.priv = true) (hp : t.pick [x] = [h]) (ht : h.tid = x)
    (hh : h.priv = false) : gate f t [x] = .stops [(x, { code := trapPrivilege })] := by
  have hhead : gateHead f t [h] = .stops [(x, { code := trapPrivilege })] := by simp [gateHead, hf, hh, ht]
  simp [gate, hp, hhead]

section
variable {s : State} {b : Bundle} {t : Team} {x : Nat} {f : Form} {l : Stops} (hi : s.issuer = some (b, t)) (hg : gate f t b.tids = .stops l)
include hi hg

theorem issueOnce_stops (body : Nat → State → Res) : issueOnce f body s = .next (s.stopLanes t.id l) := by
  simp [issueOnce, hi, hg]

theorem issueLanes_stops (body : Nat → Nat → State → Res) : issueLanes f body s = .next (s.stopLanes t.id l) := by
  simp [issueLanes, hi, hg]

end

/-- The states that only the supervisor writes (R178) take one of the two ways of SWRITE; both pass the gate first. -/
theorem execSwrite_stops {s : State} {b : Bundle} {t : Team} {w : IWord} {l : Stops} (hi : s.issuer = some (b, t))
    (hw : w.imm = 0x10 ∨ w.imm = 0x11 ∨ w.imm = 0x1D ∨ w.imm = 0x1E) (hg : ∀ f : Form, f.priv = true → gate f t b.tids = .stops l) :
    execSwrite w s = .next (s.stopLanes t.id l) := by
  rcases hw with hw | hw | hw | hw <;>
    simp [execSwrite, hw, hi, issueLanes, hg, namedPrivileged]

/-- Settles O59: the gate turns the thread away at step 5, before the instruction does anything. -/
theorem privilegedInstructionsStop : Obligations.PrivilegedInstructionsStop := by
  intro s b t x h k m i hi hb hp htid hx hh
  have hg (f : Form) (hf : f.priv = true) : gate f t b.tids = .stops [(x, { code := trapPrivilege })] := by
    rw [hb]
    exact gate_privilege hf hp htid hh
  have stops {j : Instr} (he : exec j s = .next (s.stopLanes t.id [(x, { code := trapPrivilege })])) :
      StopsWith j s t x h trapPrivilege := stopsWith_of { code := trapPrivilege } (issuer_team hi) hx he
  refine ⟨stops ?tlbinv, stops ?asidset, stops ?ctxevict, stops ?regmode, stops ?reclaim, fun hw => stops ?swrite⟩
  case tlbinv =>
    show execTlbinv k s = _
    simp only [execTlbinv, hi, hg]
  case asidset =>
    show execAsidset k s = _
    unfold execAsidset
    exact issueOnce_stops hi (hg _ rfl) _
  case ctxevict =>
    show execCtxevict k s = _
    unfold execCtxevict
    exact issueOnce_stops hi (hg _ rfl) _
  case regmode | reclaim =>
    refine issueLanes_stops hi ?_ _
    exact hg _ rfl
  case swrite => exact execSwrite_stops hi hw hg

end Sys2Proof.Privilege
end


section
/-! What a step runs (R23, R46 steps 1 to 4, R104, R260, R287). -/

namespace Sys2Proof.Turns

open Sys2Proof Sys2Proof.Machine

/-! ## The order in which a port takes its bundles (R104) -/

theorem mem_insertBy {α : Type} (le : α → α → Bool) (a : α) (l : List α) (x : α) : x ∈ insertBy le a l ↔ x = a ∨ x ∈ l := by
  induction l with
  | nil => exact List.mem_cons
  | cons b l ih =>
    unfold insertBy
    split
    · exact List.mem_cons
    · rw [List.mem_cons, ih, List.mem_cons]
      exact or_left_comm

theorem mem_sortBy {α : Type} (le : α → α → Bool) (l : List α) (a : α) : a ∈ sortBy le l ↔ a ∈ l := by
  induction l with
  | nil => exact Iff.rfl
  | cons b l ih =>
    show a ∈ insertBy le b (sortBy le l) ↔ _
    rw [mem_insertBy, ih, List.mem_cons]

section
variable {α : Type} {le : α → α → Bool} (ht : ∀ a b, le a b = true ∨ le b a = true)
  (htr : ∀ a b c, le a b = true → le b c = true → le a c = true)
include ht htr

theorem pairwise_insertBy {l : List α} (h : l.Pairwise fun a b => le a b = true) (a : α) :
    (insertBy le a l).Pairwise fun a b => le a b = true := by
  induction l with
  | nil => exact List.pairwise_singleton _ _
  | cons b l ih =>
    obtain ⟨hb, hl⟩ := List.pairwise_cons.1 h
    unfold insertBy
    split
    next hab =>
      refine List.pairwise_cons.2 ⟨fun c hc => ?_, h⟩
      obtain rfl | hc := List.mem_cons.1 hc
      · exact hab
      · exact htr a b c hab (hb c hc)
    next hab =>
      refine List.pairwise_cons.2 ⟨fun c hc => ?_, ih hl⟩
      obtain rfl | hc := (mem_insertBy le a l c).1 hc
      · exact (ht c b).resolve_left hab
      · exact hb c hc

theorem pairwise_sortBy (l : List α) : (sortBy le l).Pairwise fun a b => le a b = true := by
  induction l with
  | nil => exact List.Pairwise.nil
  | cons a l ih => exact pairwise_insertBy ht htr ih a

/-- The first of a sorted list is least. -/
theorem head_sortBy_le {l r : List α} {a : α} (h : sortBy le l = a :: r) : ∀ b ∈ l, le a b = true := by
  have hsorted := pairwise_sortBy ht htr l
  rw [h, List.pairwise_cons] at hsorted
  intro b hb
  rw [← mem_sortBy le, h, List.mem_cons] at hb
  obtain rfl | hb := hb
  · exact (ht b b).elim id id
  · exact hsorted.1 b hb

end

theorem rankLe_total (a b : Nat × Nat × Nat) : rankLe a b = true ∨ rankLe b a = true := by
  simp only [rankLe, Bool.or_eq_true, Bool.and_eq_true, decide_eq_true_eq]
  omega

theorem rankLe_trans (a b c : Nat × Nat × Nat) (hab : rankLe a b = true) (hbc : rankLe b c = true) : rankLe a c = true := by
  simp only [rankLe, Bool.or_eq_true, Bool.and_eq_true, decide_eq_true_eq] at *
  omega

theorem portOrder_head {s : State} {id x : Nat} {a : Bundle} {l : List Nat} (ha : (s.bundles.find? fun b => b.id = id) = some a)
    (ho : s.portOrder id = x :: l) :
    ∃ c ∈ s.bundles, c.id = x ∧ s.portOf c = s.portOf a ∧ c.notBefore ≤ s.time
      ∧ ∀ d ∈ s.bundles, s.portOf d = s.portOf a → d.notBefore ≤ s.time → rankLe (s.rank c) (s.rank d) = true := by
  unfold State.portOrder at ho
  rw [ha] at ho
  obtain ⟨c, r, hs, hc, -⟩ := List.map_eq_cons_iff.1 ho
  have hmem := (mem_sortBy _ _ c).1 (hs ▸ List.mem_cons_self)
  have hleast := head_sortBy_le (fun a b => rankLe_total (s.rank a) (s.rank b)) (fun a b c => rankLe_trans (s.rank a) (s.rank b) (s.rank c)) hs
  simp only [List.mem_filter, Bool.and_eq_true, decide_eq_true_eq] at hmem hleast
  obtain ⟨hin, hport, htime⟩ := hmem
  exact ⟨c, hin, hc, hport, htime, fun d hd hp hn => hleast d ⟨hd, hp, hn⟩⟩

/-! ## What an agent has fetched and decoded -/

theorem bundleReady_run {s s1 : State} {x : Nat} {b : Bundle} {t : Team} {h : Thread} {w : W64} {i : Instr}
    (hb : (s.bundles.find? fun b => b.id = x) = some b) (ht : s.team? b.team = some t) (hh : (b.threads t)[0]? = some h)
    (hn : b.notBefore ≤ s.time) (hf : s.fetch (t.coreOf h.tid) t.asid h.priv h.wordAddr = (.ok w, s1)) (hd : decodeCore w = .ok i)
    (he : endsClause i = true → b.count ≤ h.idx + 1) :
    s.bundleReady x = .run i { s1 with cur := .bundle x, bundles := s1.bundles.filter (fun c => c.id ≠ x) ++ [{ b with stalled := false }] } := by
  have hn' : ¬ s.time < b.notBefore := by omega
  have he' : ¬ (endsClause i = true ∧ h.idx + 1 < b.count) := fun ⟨h1, h2⟩ => by have := he h1; omega
  simp only [State.bundleReady, hb, ht, hh, hn', hf, hd, he', if_false]

theorem prompterReady_run {s s1 : State} {cluster ctx : Nat} {p : Prompter} {t : Team} {w : W64} {i : Instr}
    (hp : (s.mx.ctxs.find? fun p => p.cluster = cluster && p.ctx = ctx) = some p) (ht : s.team? p.team = some t) (hr : p.st = .running)
    (hin : t.removed = false) (hc : p.count ≠ 0)
    (hf : s.fetch (clusterUnit cluster) t.asid false (p.hdr + BitVec.ofNat 64 (8 + 8 * p.idx)) = (.ok w, s1))
    (hd : decodeStream w = .ok i) (he : endsStream i = true → p.count ≤ p.idx + 1) :
    s.prompterReady cluster ctx = .run i { s1 with cur := .prompter cluster ctx } := by
  have he' : ¬ (endsStream i = true ∧ p.idx + 1 < p.count) := fun ⟨h1, h2⟩ => by have := he h1; omega
  simp [State.prompterReady, hp, ht, hr, hin, hc, hf, hd, he']

theorem walkerReady_run {s : State} {cluster : Nat} {c : Walker} {i : Instr} (hw : s.walker? cluster (look 0 s.walk.slot cluster) = some c)
    (hr : s.walkerCanRun c = true) (hi : look 0 s.walk.issued cluster < 256) (hs : c.stopped = false) (hpc : c.pc < c.job.len)
    (hd : decodeWalker (look 0 c.prog c.pc) = .ok i) :
    s.walkerReady cluster = .run i { s.endWait c with cur := .walker cluster c.ctx } := by
  have hi' : ¬ 256 ≤ look 0 s.walk.issued cluster := by omega
  have hpc' : ¬ c.job.len ≤ c.pc := by omega
  simp only [State.walkerReady, hw, Option.filter, hr, if_true, Option.isSome_some, hi', hs, hpc', hd, if_false, Bool.false_eq_true]

/-- Settles O53: each kind of turn, with what its agent has made ready. -/
theorem stepRunsDecodedInstruction : Obligations.StepRunsDecodedInstruction := by
  intro s s0
  refine ⟨?agenda, ?bundle, ?prompter, ?walker, ?event⟩
  case agenda =>
    intro t r ha
    simp only [State.nextTurn, ha]
  case bundle =>
    intro id a x l hturn ha ho
    refine ⟨portOrder_head ha ho, ?_⟩
    intro b t h w i s1 hb ht hh hn hf hd he m
    have hready : s0.bundleReady x = .run i m := bundleReady_run hb ht hh hn hf hd he
    have hstep : step s = issueFirst exec s0 (x :: l) := by
      simp only [step, hturn, State.portTurn, ho]
    refine ⟨fun s2 h2 => ?_, fun f hf => ?_, fun r hr => ?_⟩
    · rw [hstep, issueFirst]; simp only [hready, h2]
    · rw [hstep, issueFirst]; simp only [hready, hf]
    · rw [hstep, issueFirst]; simp only [hready, hr]
  case prompter =>
    intro cluster ctx p t w i s1 hturn hp ht hr hin hc hf hd he
    simp only [step, hturn, prompterReady_run hp ht hr hin hc hf hd he, runReady]
  case walker =>
    intro cluster c i hturn hw hr hi hs hpc hd
    simp only [step, hturn, walkerReady_run hw hr hi hs hpc hd, runReady]
  case event =>
    intro i hturn hk
    simp only [step, hturn, hk, if_true]

end Sys2Proof.Turns
end


section
/-! Uniform registers (R40, R177), and what translation leaves as it was (R203-R209): teams, bundles and whatever else is not memory,
coherence, accesses in flight or a translation unit. -/

namespace Sys2Proof.Uniform

open Sys2Proof Sys2Proof.Machine Sys2Proof.Laws Sys2Proof.Rounding

/-! ## What the checks of an access change -/

/-- All that translating can do: it changes memory, coherence, the accesses in flight and the translation units. -/
def Looks (s s' : State) : Prop := s' = { s with mem := s'.mem, coh := s'.coh, flight := s'.flight, units := s'.units }

theorem Looks.refl (s : State) : Looks s s := rfl

theorem Looks.trans {a b c : State} (h : Looks a b) (g : Looks b c) : Looks a c := by
  unfold Looks at *
  rw [h] at g
  exact g

theorem Looks.of_touches {s s' : State} (h : Touches s s') : Looks s s' := by
  unfold Looks
  rw [h.rest]

theorem Looks.teams {s s' : State} (h : Looks s s') : s'.teams = s.teams := by
  rw [h]

theorem looks_units (s : State) (u : Units) : Looks s { s with units := u } := rfl

theorem pushLines_looks (s : State) (lines : List Nat) : Looks s (s.pushLines lines) :=
  .of_touches (touches_foldl push_touches lines s)

theorem keepWindows_looks (s : State) (unit asid : Nat) : Looks s (s.keepWindows unit asid) := by
  unfold State.keepWindows
  dsimp only
  split
  · exact .refl s
  · exact (pushLines_looks s _).trans (looks_units _ _)

theorem keepWalk_looks (s : State) (unit asid va : Nat) (x : Xlat) : Looks s (keepWalk s unit asid va x) :=
  (looks_units s _).trans (keepWindows_looks _ _ _)

theorem translate_looks (s : State) (unit : Nat) (asid : BitVec 16) (va : W64) : Looks s (translate s unit asid va).2 := by
  unfold Machine.translate
  dsimp only
  split
  · exact .refl s
  · split
    · exact pushLines_looks s _
    · exact (pushLines_looks s _).trans (keepWalk_looks _ _ _ _ _)

theorem translateFor_looks (s : State) (unit : Nat) (asid : BitVec 16) (va : W64) (may : State → Xlat → Bool) :
    Looks s (translateFor s unit asid va may).2 := by
  have ht := translate_looks s unit asid va
  unfold translateFor
  split
  next h => rw [h] at ht; exact ht
  next h =>
    rw [h] at ht
    split
    · exact ht
    · dsimp only
      split
      · exact pushLines_looks s _
      · split
        · exact (pushLines_looks s _).trans (keepWalk_looks _ _ _ _ _)
        · exact pushLines_looks s _

theorem checkPage_looks (s : State) (unit : Nat) (asid : BitVec 16) (priv : Bool) (va : W64) (n : Nat) (u : Use) :
    Looks s (checkPage s unit asid priv va n u).2 := by
  have ht := translateFor_looks s unit asid va fun s x => mayAccess s unit priv x n u
  unfold checkPage
  split <;> (next h => rw [h] at ht; exact ht)

theorem reachPieces_looks (unit : Nat) (asid : BitVec 16) (priv : Bool) (use : Use) :
    ∀ (l : List (W64 × Nat × Nat)) (s : State), Looks s (reachPieces s unit asid priv use l).2
  | [], s => .refl s
  | p :: r, s => by
    have hc := checkPage_looks s unit asid priv p.1 p.2.2 use
    unfold reachPieces
    split
    next h => rw [h] at hc; exact hc
    next h =>
      rw [h] at hc
      have hr := hc.trans (reachPieces_looks unit asid priv use r _)
      split <;> (next h' => rw [h'] at hr; exact hr)

theorem reach_looks (t : Team) (s : State) (h : Thread) (va : W64) (n : Nat) (k : Ask) : Looks s (t.reach s h va n k).2 := by
  have hp := reachPieces_looks (t.coreOf h.tid) t.asid h.priv k.use (cutLines va n) s
  unfold Team.reach Machine.reach
  dsimp only
  split
  · exact .refl s
  · split
    · exact .refl s
    · split
      next hr => rw [hr] at hp; exact hp
      next hr => rw [hr] at hp; (repeat' split) <;> exact hp

theorem reachNow_looks (t : Team) (s : State) (h : Thread) (va : W64) (n : Nat) (k : Ask) : Looks s (t.reachNow s h va n k).2 := by
  have hr := reach_looks t s h va n k
  unfold Team.reachNow
  split
  next he => rw [he] at hr; split <;> exact hr
  next => exact hr

/-! ## The gate in its two parts, and group operations -/

/-- Steps 5 to 7 and the scoreboard both pass where the gate as a whole does. -/
theorem gate_pass {f : Form} {t : Team} {tids : List Nat} (h : gate f t tids = .pass) :
    gateHead f t (t.pick tids) = .pass ∧ gateTail f (t.pick tids) = .pass := by
  unfold gate at h
  split at h
  next hh => exact ⟨hh, h⟩
  next hh => exact absurd h hh

/-- A group operation on one converged group of one bundle (R43). -/
theorem issueGroups_completes {s m s1 : State} {b : Bundle} {t t1 v : Team} {f : Form} {l : List Nat} {code : Nat}
    {body : Nat → Nat → List Nat → State → Res} (c : OneGroup s b t f l s1 t1) (hc : Converged s b t l)
    (hb : body t.id (t.groupOf (l.headD 0)) l s1 = .ok m) (hv : m.team? t.id = some v) (hs : SameCast t v) :
    ∃ s', issueGroups f code body s = .next s' ∧ Advances b t m s' := by
  refine ⟨_, ?_, advances_of_cast c.clear hv hs⟩
  obtain ⟨hissue, hconv⟩ := hc
  obtain ⟨hhead, htail⟩ := gate_pass (clear_gate c.clear)
  have hone : ∀ gs : List Convergence, (∀ g ∈ gs, g = .yes) → gs.contains .no = false ∧ gs.contains .waits = false := by
    intro gs hg
    simp only [List.contains_eq_mem, decide_eq_false_iff_not]
    exact ⟨fun hm => (nomatch hg _ hm), fun hm => (nomatch hg _ hm)⟩
  obtain ⟨hno, hwaits⟩ := hone (if f.idle then [] else (s.boundGroups t b).map
    (t.convergence (s.members t b (s.boundGroups t b))
      ((s.members t b (s.boundGroups t b)).filter (s.comes t (s.members t b (s.boundGroups t b)) (b.idx t))) l)) (by
    intro g hg
    split at hg
    · cases hg
    · rw [List.mem_map] at hg
      obtain ⟨k, hk, rfl⟩ := hg
      exact hconv k hk)
  unfold issueGroups
  rw [c.clear.issues]
  simp only [hissue, ite_self, List.map_cons, List.map_nil, List.flatten_cons, List.flatten_nil, List.append_nil, hhead, c.active, hno,
    hwaits, htail, Bool.false_eq_true, if_false, c.units, State.runOn, ← c.start, runUnits,
    Run.add, hb, List.foldl_cons, List.foldl_nil, Nat.zero_max]

/-! ## The k registers of a team -/

theorem setKVal_cast (u : Team) (d : Nat) (wide : Bool) (v : Nat) : SameCast u (u.setKVal d wide v) := by
  unfold Team.setKVal
  split <;> exact ⟨rfl, rfl, fun h hh => ⟨h, hh, rfl, rfl⟩⟩

theorem setKVal_id (u : Team) (d : Nat) (wide : Bool) (v : Nat) : (u.setKVal d wide v).id = u.id := by
  unfold Team.setKVal
  split <;> rfl

theorem putK_team {s : State} {id : Nat} {u : Team} (d : Nat) (wide : Bool) (v : Team → Nat) (hu : s.team? id = some u) :
    (s.updTeam id fun u => u.setKVal d wide (v u)).team? id = some (u.setKVal d wide (v u)) :=
  team_updTeam_same hu fun _ => setKVal_id _ _ _ _

/-- An instruction of format K that writes a k register from the team. -/
theorem putK_completes {i : Instr} {s : State} {b : Bundle} {t : Team} {f : Form} {d : Nat} {wide : Bool} {v : Team → Nat}
    (he : exec i s = issueOnce f (fun team s => .ok (s.putK team d wide v)) s) (c : Clear s b t f) :
    Completes i s b t (s.updTeam t.id fun u => u.setKVal d wide (v u)) := by
  have hs := setKVal_cast t d wide (v t)
  unfold Completes
  rw [he]
  exact issueOnce_completes c rfl (putK_team d wide v (issuer_team c.issues)) (fun h hh _ => hs.threads h hh) hs.groups hs.width

theorem kput_completes (w : IWord) {s : State} {b : Bundle} {t : Team} {l : List Nat} {s1 : State} {t1 : Team} {h1 : Thread}
    (c : OneGroup s b t { w.form [w.srcA (if bitOf w.md.toNat 0 then 2 else 1)] [] with
      bad := kDstBad w.d.toNat (bitOf w.md.toNat 0), ks := kRegs w.d.toNat (bitOf w.md.toNat 0) } l s1 t1)
    (hc : Converged s b t l) (hx : t1.thread? (l.headD 0) = some h1) :
    Completes (.kput w) s b t (s1.updTeam t.id fun u =>
      u.setKVal w.d.toNat (bitOf w.md.toNat 0) (h1.regsNat w.a.toNat (if bitOf w.md.toNat 0 then 2 else 1))) := by
  have hcast : SameCast t t1 := by
    have h := c.team
    rw [c.start, team_updThreads _ _ (issuer_team c.clear.issues), Option.some.injEq] at h
    rw [← h]
    exact SameCast.upd t _ (atIssue_tid _) (atIssue_singleStep _)
  unfold Completes
  show ∃ s', execKput w s = .next s' ∧ _
  unfold execKput
  refine issueGroups_completes c hc ?_ (putK_team _ _ (fun _ => h1.regsNat w.a.toNat _) c.team) (hcast.trans (setKVal_cast _ _ _ _))
  simp only [thread_of c.team hx]
  rfl

theorem withMates_team (s : State) (tids : List Nat) (id : Nat) : (s.withMates tids).team? id = s.team? id := rfl

theorem postAccess_team (s : State) (o : Op) (p : Post) (ps : List Part) (id : Nat) : (s.postAccess o p ps).team? id = s.team? id := by
  unfold State.team?
  rw [State.postAccess, postParts_teams, postOp_teams]

theorem Looks.team {s s' : State} (h : Looks s s') (id : Nat) : s'.team? id = s.team? id := by
  unfold State.team?
  rw [h.teams]

/-- A load that nothing holds back, once its access has passed its checks. -/
theorem loadLane_posts {t : Team} {h : Thread} {s s1 : State} {ea : W64} {n : Nat} {k : Ask} {ord sc batch : Nat} {kind : OpKind}
    {dst : Nat} {rk : Part → ReqKind} {p : Part} {ps : List Part} (hstart : s.mayStart t.id h.tid ord = true)
    (hroom : s.tableFull (t.coreOf h.tid) = false) (hr : t.reach s h ea n k = (.ok (some (p :: ps)), s1))
    (hio : s1.ioWaits t.id h.tid (p :: ps) = false) :
    loadLane t h s ea n k ord sc batch kind dst rk = .ok (s1.postAccess
      { id := 0, team := t.id, tid := h.tid, core := t.coreOf h.tid, kind := kind, dst := dst, tok := none, bytes := n, flags := 0 }
      { team := t.id, tid := h.tid, core := t.coreOf h.tid, asid := t.asid, batch := batch, kind := rk p, ord := ord, sc := sc }
      (p :: ps)) := by
  unfold loadLane onReach
  simp only [hstart, hroom, hr, hio, Bool.not_true, Bool.or_self, Bool.false_eq_true, if_false]

/-- Settles O14: k registers are a field of the team that no thread and no group sees. -/
theorem uniformRegistersComplete : Obligations.UniformRegistersComplete := by
  refine ⟨fun w s b t => ⟨?kmov, ?kmovi, ?kadd⟩, fun w s b t l s1 t1 h1 c hc hx => kput_completes w c hc hx, fun w => ?kget, ?kld⟩
  case kmov => exact putK_completes rfl
  case kmovi => exact putK_completes rfl
  case kadd => exact putK_completes rfl
  case kget => exact lanewise_of (fun _ => rfl) rfl rfl (fun _ _ => setRegs_tid _ _ _ _) fun _ _ => setRegs_singleStep _ _ _ _
  case kld =>
    intro w s b t h p ps s1
    dsimp only
    intro c hx hstart hroom hr hio
    have hu := issuer_team c.issues
    have hu1 : s1.team? t.id = some t := by
      have := reach_looks t s h (t.kpair w.ka.toNat + w.imm.signExtend 64) (if bitOf w.md.toNat 0 then 8 else 4)
        { align := if bitOf w.md.toNat 0 then 8 else 4 }
      rw [hr] at this
      rw [this.team, hu]
    unfold Completes
    show ∃ s', execKld w s = .next s' ∧ _
    unfold execKld KWord.wide
    rw [c.issues]
    refine issueOnce_completes c (u := { t with kWait := t.kWait ++ kRegs w.kd.toNat (bitOf w.md.toNat 0) }) ?_ ?_
      (fun h hh _ => ⟨h, hh, rfl, rfl⟩) rfl rfl
    · unfold withLane
      simp only [hu, hx, loadLane_posts hstart hroom hr hio]
    · rw [withMates_team]
      exact team_updTeam_same ((postAccess_team s1 _ _ _ t.id).trans hu1) fun _ => rfl

end Sys2Proof.Uniform
end


section
/-! Accesses on their way: service at the home, their return and acknowledgement, and the other events of the memory path (R34, R87, R94,
R114, R185, R200, R211, R336, R343, R344). -/

namespace Sys2Proof.MemoryEvents

open Sys2Proof Sys2Proof.Machine Sys2Proof.Laws

/-! ## What a read at the home changes of coherence -/

/-- A line that finds its place in a frame changes frames and what they hold newer than memory, and nothing else (R334). -/
def Framed (c c' : Coh) : Prop := c' = { c with frames := c'.frames, dirty := c'.dirty }

theorem Framed.trans {a b c : Coh} (h : Framed a b) (g : Framed b c) : Framed a c := by
  unfold Framed at *
  rw [h] at g
  exact g

theorem framed_leaveFrames (l : List Nat) (c : Coh) : Framed c (l.foldl Coh.leaveFrame c) := by
  induction l generalizing c with
  | nil => rfl
  | cons a l ih => exact Framed.trans (b := c.leaveFrame a) rfl (ih _)

theorem place_framed (s : State) (line : Nat) : s.place line = { s with coh := (s.place line).coh } ∧ Framed s.coh (s.place line).coh := by
  unfold State.place
  dsimp only
  split
  · exact ⟨rfl, rfl⟩
  · split
    · exact ⟨rfl, rfl⟩
    · exact ⟨rfl, (framed_leaveFrames _ _).trans rfl⟩

theorem hold_framed (s : State) (line : Nat) : s.hold line = { s with coh := (s.hold line).coh } ∧ Framed s.coh (s.hold line).coh := by
  unfold State.hold
  split
  · exact ⟨rfl, rfl⟩
  · split
    · split
      · exact ⟨rfl, rfl⟩
      · obtain ⟨hs, hc⟩ := place_framed { s with coh := { s.coh with frames := framesLess s.coh.frames line } } line
        exact ⟨hs, Framed.trans (b := { s.coh with frames := framesLess s.coh.frames line }) rfl hc⟩
    · exact place_framed s line

theorem makeRoom_of_room {s : State} {slice : Nat} (h : s.coh.entriesLive slice < 16384) (spare : Option DirEntry) :
    s.makeRoom slice spare = s := by
  unfold State.makeRoom
  rw [if_pos h]

/-- A sharer added where the directory has room changes the directory only (R338, R342). -/
theorem addSharer_of_room {s : State} {line : Nat} (h : s.coh.entriesLive (home line) < 16384) (who : Sharer) (st : CopyState) :
    s.addSharer line who st = { s with coh := { s.coh with dir := (s.addSharer line who st).coh.dir } } := by
  unfold State.addSharer
  split
  · rfl
  · split
    · rfl
    · rw [makeRoom_of_room h]

/-- An agent with room for a line holds the copy that it takes in. -/
theorem copy_keepCopy {c : Coh} {k : Copy} (h : c.roomOf k.who ≠ 0) : (c.keepCopy k).copy? k.who k.line = some k := by
  obtain ⟨n, hn⟩ := Nat.exists_eq_succ_of_ne_zero h
  unfold Coh.copy? Coh.keepCopy Coh.setCopy
  simp [hn, firstOf]

/-- What serving a read leaves of a state: the directory, the frames and the copies may differ. -/
def Served (s m : State) : Prop :=
  m = { s with coh := { s.coh with frames := m.coh.frames, dirty := m.coh.dirty, dir := m.coh.dir, copies := m.coh.copies } }

theorem served_hold (s : State) (line : Nat) : Served s (s.hold line) := by
  obtain ⟨hs, hc⟩ := hold_framed s line
  unfold Served Framed at *
  conv => lhs; rw [hs, hc]
  rw [hc]

theorem Served.trans {a b c : State} (h : Served a b) (g : Served b c) : Served a c := by
  unfold Served at *
  rw [h] at g
  exact g

theorem served_takeCopy {s : State} {line : Nat} (h : s.coh.entriesLive (home line) < 16384) (who : Sharer) (st : CopyState) (l : List Byte) :
    Served s (s.takeCopy who line st l) := by
  have hadd := addSharer_of_room (s := { s with coh := s.coh.keepCopy { who := who, line := line, st := st, data := dataFor st l } }) h
    (listedAs who line) st
  unfold State.takeCopy Served
  rw [hadd]
  rfl

theorem served_fillL1 {s : State} {line : Nat} (h : s.coh.entriesLive (home line) < 16384) (r : Req) (base : List Byte) :
    Served s (s.fillL1 r line base) := by
  unfold State.fillL1
  dsimp only
  split
  · exact served_takeCopy h _ _ _
  · rfl

theorem copy_takeCopy {s : State} {line : Nat} {who : Sharer} (h : s.coh.entriesLive (home line) < 16384) (hr : s.coh.roomOf who ≠ 0)
    (l : List Byte) :
    (s.takeCopy who line .s l).coh.copy? who line = some { who := who, line := line, st := .s, data := l } := by
  have hadd := addSharer_of_room (s := { s with coh := s.coh.keepCopy { who := who, line := line, st := .s, data := l } }) h
    (listedAs who line) .s
  unfold State.takeCopy dataFor
  rw [hadd]
  exact copy_keepCopy (c := s.coh) (k := { who := who, line := line, st := .s, data := l }) hr

/-- Where the core holds a line under a subscription that a load outranks (R346). -/
theorem l1State_of_upgrades {s : State} {r : Req} (hk : r.kind = .load) (h : s.upgrades r = true) :
    ∃ f upd, s.l1State r.core (s.lineOf' r) = .p f upd := by
  unfold State.upgrades at h
  unfold State.l1State
  cases hc : s.coh.copy? (.l1 r.core) (s.lineOf' r) with
  | none => rw [hc] at h; cases h
  | some k =>
    rw [hc, hk, Option.map_some, Option.getD_some] at h
    rw [Option.map_some, Option.getD_some]
    cases hs : k.st with
    | p f upd => exact ⟨f, upd, rfl⟩
    | _ => rw [hs] at h; cases h

/-- A load at the home takes its line in whole: within its scope, or in place of a subscribed copy. -/
theorem fillL1_load {s : State} {r : Req} {line : Nat} (hk : r.kind = .load) (base : List Byte)
    (h : r.sc ≤ 2 ∨ (r.sc ≤ 5 ∧ ∃ f upd, s.l1State r.core line = .p f upd)) :
    s.fillL1 r line base = s.takeCopy (.l1 r.core) line .s (s.coreView r.core line base) := by
  have hnothing : keepsNothing (s.l1State r.core line) .load = false := by
    cases s.l1State r.core line <;> rfl
  have hkeeps : keepsCopy (s.l1State r.core line) .s = false := by
    cases s.l1State r.core line <;> rfl
  unfold State.fillL1
  simp only [hk, copyFor, hnothing, hkeeps, Bool.false_and, Bool.or_self, Bool.not_false, Bool.and_true, Bool.false_or]
  refine if_pos ?_
  rcases h with h | ⟨h, f, upd, hl⟩
  · simp [h]
  · simp [h, hl]

/-! ## A plain load at its home -/

/-- A load that its home can serve as it stands, with no store of its core to the line under way. -/
structure PlainLoad (s : State) (r : Req) : Prop where
  kind : r.kind = .load
  stage : r.stage = .queued
  coherent : r.nc = false
  cached : r.cm = 0
  device : isDeviceLine (s.lineOf' r) = true
  unblocked : s.blocked (s.lineOf' r) = false
  kept : s.coh.lost.contains (s.lineOf' r) = false
  unowned : s.coh.owner? (s.lineOf' r) = none
  order : s.loadOrder r = true
  acquire : s.acquireWaits r = false
  early : s.early r (s.lineOf' r) = []
  plain : s.isGath r = false
  near : coreDie r.core = homeDie (s.lineOf' r) ∨ 6 ≤ r.sc
  entries : s.coh.entriesLive (home (s.lineOf' r)) < 16384
  room : s.coh.roomOf (.l1 r.core) ≠ 0

theorem not_busy_of_unblocked {s : State} {line : Nat} (h : s.blocked line = false) : s.busy line = false :=
  (Bool.or_eq_false_iff.1 h).1

theorem ownerForRead_unowned {s : State} {line : Nat} (h : s.coh.owner? line = none) (b : Bool) : s.ownerForRead line b = some s := by
  unfold State.ownerForRead
  rw [h]

/-- Such a load is served by the home, past the RDC of its die. -/
theorem serveRead_plain {s : State} {r : Req} (p : PlainLoad s r) : s.serveRead r = some (s.serveCoherent r (s.lineOf' r)) := by
  have hreads : r.reads = true := by unfold Req.reads; rw [p.kind]
  have hwaits : s.homeWaits r (s.lineOf' r) = false := by unfold State.homeWaits; simp [p.kind, p.plain]
  have hhome : s.homeOnly r = false := by unfold State.homeOnly; simp [p.cached, p.kind, p.plain]
  have hrdc : s.rdcHit r (s.lineOf' r) = none := by
    unfold State.rdcHit
    rw [if_pos]
    rcases p.near with h | h <;> simp [h]
  unfold State.serveRead
  simp only [hreads, p.stage, p.order, p.acquire, hwaits, p.kept, p.coherent, p.device, hhome, hrdc, not_busy_of_unblocked p.unblocked,
    ownerForRead_unowned p.unowned, ne_eq, not_true_eq_false, decide_false, Bool.not_true, Bool.or_self, Bool.false_and, Bool.false_eq_true,
    if_false]

theorem served_l1State {s m : State} (h : m.coh.copies = s.coh.copies) (core line : Nat) : m.l1State core line = s.l1State core line := by
  unfold State.l1State Coh.copy?
  rw [h]

/-- It has the home's bytes, and memory, tags and teams stay; its L1 takes the line in where it fills. -/
theorem serveCoherent_plain {s : State} {r : Req} (p : PlainLoad s r) :
    let line := s.lineOf' r
    let base := s.peekBytes line 128
    let m := s.serveCoherent r line
    m.mem = s.mem ∧ m.teams = s.teams ∧ m.coh.tags = s.coh.tags
    ∧ m.flight.reqs = updWhere s.flight.reqs (fun q => q.id = r.id) (fun q =>
        { q with data := s.partOf r line base, cmp := toBytes 4 (s.tag line), stage := .performed })
    ∧ (r.sc ≤ 2 ∨ (r.sc ≤ 5 ∧ s.upgrades r = true) →
        m.coh.copy? (.l1 r.core) line = some { who := .l1 r.core, line := line, st := .s, data := base }) := by
  intro line base m
  obtain ⟨hhold, hframed⟩ := hold_framed s line
  have hentries : (s.hold line).coh.entriesLive (home line) < 16384 := by rw [hframed]; exact p.entries
  have hserved : Served s ((s.hold line).fillL1 r line base) := (served_hold s line).trans (served_fillL1 hentries r base)
  have hvalue : s.valueOf r (s.lineView r line base) = s.partOf r line base := by
    unfold State.valueOf State.lineView
    rw [p.kind, p.early]
    rfl
  have hm : m = ((s.hold line).fillL1 r line base).answerReq r (s.partOf r line base) (s.tag line) := by
    show s.serveCoherent r line = _
    unfold State.serveCoherent
    dsimp only
    rw [if_neg, hvalue]
    rcases p.near with h | h
    · simp [h, line]
    · have : ¬ r.sc ≤ 5 := by omega
      simp [this]
  have hkeep : ∀ n : State, ∀ d tag, (n.answerReq r d tag).mem = n.mem ∧ (n.answerReq r d tag).teams = n.teams
      ∧ (n.answerReq r d tag).coh = n.coh ∧ (n.answerReq r d tag).flight.reqs
        = updWhere n.flight.reqs (fun q => q.id = r.id) fun q => { q with data := d, cmp := toBytes 4 tag, stage := .performed } := by
    intro n d tag
    unfold State.answerReq State.noteSeen
    split <;> exact ⟨rfl, rfl, rfl, rfl⟩
  obtain ⟨hmem, hteams, hcoh, hreqs⟩ := hkeep ((s.hold line).fillL1 r line base) (s.partOf r line base) (s.tag line)
  rw [hm, hmem, hteams, hcoh, hreqs]
  unfold Served at hserved
  refine ⟨by rw [hserved], by rw [hserved], by rw [hserved], by rw [hserved], fun hf => ?_⟩
  have hview : (s.hold line).coreView r.core line base = base := by
    have hstores : s.coreStores r.core line = [] := (List.append_eq_nil_iff.1 p.early).1
    have : (s.hold line).coreStores r.core line = s.coreStores r.core line := by rw [hhold]; rfl
    unfold State.coreView State.layOver
    rw [this, hstores]
    rfl
  rw [fillL1_load p.kind, hview]
  · exact copy_takeCopy hentries (by rw [hframed]; exact p.room) _
  · refine hf.imp_right fun ⟨h5, hu⟩ => ⟨h5, ?_⟩
    have hl : (s.hold line).l1State r.core line = s.l1State r.core line := served_l1State (by rw [hframed]) _ _
    rw [hl]
    exact l1State_of_upgrades p.kind hu

/-! ## Writes at the home -/

/-- A request that the home can write for: its own, not yet applied, on a line that is free. -/
structure MayWrite (s : State) (r : Req) : Prop where
  req : s.req? r.id = some r
  unapplied : r.unapplied = true
  unblocked : s.blocked (s.lineOf' r) = false
  kept : s.coh.lost.contains (s.lineOf' r) = false
  unowned : s.coh.owner? (s.lineOf' r) = none

theorem homeWrite_store {s : State} {r : Req} (h : MayWrite s r) (hk : r.kind = .store) :
    exec (.homeWrite r.id) s = .next (s.storeAtHome r) := by
  show execHomeWrite r.id s = _
  unfold execHomeWrite
  simp only [h.req, hk, h.unapplied, h.unblocked, h.kept, h.unowned, Bool.not_false, Option.isNone_none, Bool.and_self, if_true]

theorem homeWrite_rmw {s : State} {r : Req} {op ty : Nat} (h : MayWrite s r) (hk : r.kind = .rmw op ty) :
    exec (.homeWrite r.id) s = .next (s.rmwAtHome r op ty) := by
  show execHomeWrite r.id s = _
  unfold execHomeWrite
  simp only [h.req, hk, h.unapplied, h.unblocked, h.kept, h.unowned, Bool.not_false, Option.isNone_none, Bool.and_self, if_true]

/-- What the write of a store comes to once nothing keeps it: into the host-port agent, or at the home (R198, R336, R349). -/
theorem storeAtHome_alone {s : State} {r : Req} (hs : r.stage = .sent) (hp : r.paths = [])
    (hone : (s.flight.reqs.filter fun q => q.kind = .store && q.batch = r.batch && s.lineOf' q = s.lineOf' r) = [r])
    (hother : ∀ q ∈ s.flight.reqs, q.id ≠ r.id → s.lineOf' r ∉ s.linesFor q) :
    let line := s.lineOf' r
    let ps : Pieces := [(s.keyOf r - line, r.data)]
    let same (q : Req) : Bool := q.kind = .store && q.batch = r.batch && s.lineOf' q = line
    s.storeAtHome r = match spaceOf s.ctl r.pa, r.nc with
      | .host, true => ((s.hostDirty line ps).updReqs same fun q => { q with stage := .done }).ownCopies r line ps
      | _, _ => s.coreWrite r line ps (some (.l1 r.core)) same := by
  intro line ps same
  have hbefore : ((s.flight.reqs.takeWhile fun q => q.id ≠ r.id).any fun q => q.kind = .store && q.stage = .sent && q.batch ≠ r.batch
      && s.lineOf' q = line && coreCluster q.core = coreCluster r.core) = false := by
    refine any_eq_false_of fun q hq => ?_
    have hid : q.id ≠ r.id := by simpa using List.all_eq_true.1 List.all_takeWhile q hq
    have hline := hother q (List.takeWhile_sublist _ |>.subset hq) hid
    by_cases hk : q.kind = .store
    · have : s.lineOf' q ≠ line := by
        unfold State.linesFor at hline
        rw [hk] at hline
        exact fun h => hline (by simp [← h, line])
      simp [this]
    · simp [hk]
  have hearlier : ([r].any fun q => s.flight.reqs.any fun p => earlier p q && p.kind ≠ .store && p.kind ≠ .sts && p.unapplied
      && (s.linesFor p).contains line) = false := by
    refine any_eq_false_of fun q hq => any_eq_false_of fun p hmem => ?_
    rw [List.mem_singleton] at hq
    subst hq
    by_cases hid : p.id = q.id
    · simp [earlier, hid]
    · have := hother p hmem hid
      simp [line, this]
  have hall : sortBy (fun a b => a.id ≤ b.id) (s.flight.reqs.filter fun q => q.kind = .store && q.batch = r.batch && s.lineOf' q = s.lineOf' r)
      = [r] := by rw [hone]; rfl
  unfold State.storeAtHome
  simp only [hall]
  rw [if_neg]
  · rfl
  · rw [hbefore, hearlier]
    simp [hs, hp]

theorem markers_sent {s : State} {r : Req} {op ty : Nat} (hw : s.rmwWaits r [s.lineOf' r] = false) (hq : r.stage = .queued)
    (hm : s.markersOf r ≠ []) :
    s.rmwAtHome r op ty = s.updReqs (fun q => q.id = r.id) fun q => { q with stage := .sent, paths := s.markersOf r } := by
  unfold State.rmwAtHome
  simp [hw, hq, hm]

/-- The rest of a read-modify-write that no marker of it keeps, away from host memory (R87). -/
theorem rmwAtHome_applied {s : State} {r : Req} {op ty : Nat} (hw : s.rmwWaits r [s.lineOf' r] = false)
    (hq : r.stage = .queued → s.markersOf r = []) (hp : r.paths = []) (hspace : spaceOf s.ctl r.pa ≠ .host) :
    let line := s.lineOf' r
    let old : List Byte := (getBytes s.mem line 128).drop (s.keyOf r - line) |>.take r.len
    let n := rmwNew op ty (ofBytes old) (ofBytes r.data) (ofBytes r.cmp)
    let s2 := (s.updOp r.op fun o => { o with flags := o.flags ||| n.2.1 }).updReqs (fun q => q.id = r.id) fun q => { q with data := old }
    s.rmwAtHome r op ty = if n.2.2
      then s2.coreWrite r line [(s.keyOf r - line, toBytes r.len n.1)] none fun q => q.id = r.id
      else
        let s3 := s2.updReqs (fun q => q.id = r.id) fun q => { q with stage := .done }
        if r.nc then { s3 with coh := s3.coh.dropLoose r.core line } else s3 := by
  intro line old n s2
  have hmarked : (r.stage = .queued && !(s.markersOf r).isEmpty) = false := by
    by_cases h : r.stage = .queued
    · simp [hq h]
    · simp [h]
  unfold State.rmwAtHome
  simp only [hw, hmarked, hp, List.isEmpty_nil, Bool.not_true, Bool.false_eq_true, if_false]
  rfl

theorem coreWrite_home {s : State} {r : Req} {line : Nat} {ps : Pieces} {writer : Option Sharer} {mark : Req → Bool}
    (h : spaceOf s.ctl r.pa ≠ .host) :
    s.coreWrite r line ps writer mark = (s.homeApply line r.id ps writer (r.nc || !isDeviceLine line) mark).ownCopies r line ps := by
  unfold State.coreWrite
  split
  next hs => exact absurd hs h
  next => rfl

theorem coreWrite_host {s : State} {r : Req} {line : Nat} {ps : Pieces} {writer : Option Sharer} {mark : Req → Bool}
    (h : spaceOf s.ctl r.pa = .host) :
    s.coreWrite r line ps writer mark = ((s.hostSnoop line).homeApply line r.id ps none true mark).ownCopies r line ps := by
  unfold State.coreWrite
  rw [h]

/-! ## Delivery, lines of registers, transit and markers -/

theorem loadReturn_delivers {s : State} {o : Op} {n : Nat} (ho : (s.sampleL1 o.id).op? o.id = some o) (hk : o.kind = .load n)
    (ha : ((s.sampleL1 o.id).opReqs o.id).all (fun q => q.stage = .performed || q.stage = .done) = true) :
    let m := s.sampleL1 o.id
    exec (.loadReturn o.id) s = .next (((m.acquireJoin o (m.opReqs o.id)).deliver o.team o.tid
      (regWords o.dst n (ofBytes ((m.opReqs o.id).map Req.data).flatten))).dropOp o.id) := by
  intro m
  show execLoadReturn o.id s = _
  unfold execLoadReturn State.returnOp
  simp only [ho, hk, ha, if_true]
  rfl

theorem storeAcknowledgement_ends {s : State} {o : Op} (ho : s.op? o.id = some o) (hk : o.kind = .store)
    (ha : (s.opReqs o.id).all (fun q => q.stage = .done) = true) :
    exec (.storeAcknowledgement o.id) s = .next (((s.enterFlags o.team o.tid o.flags).tokenDone o.team o.tid o.tok).dropOp o.id) := by
  show execStoreAcknowledgement o.id s = _
  unfold execStoreAcknowledgement
  simp [ho, hk, ha, OpKind.acked]

theorem longLatencyResult_delivers {s : State} {x : Result} (hx : (s.flight.results.find? fun y => y.id = x.id) = some x) :
    let m := (s.enterFlags x.team x.tid x.flags).deliver x.team x.tid x.regs
    exec (.longLatencyResult x.id) s
      = .next { m with flight := { m.flight with results := m.flight.results.filter fun y => y.id ≠ x.id } } := by
  intro m
  show execLongLatencyResult x.id s = _
  unfold execLongLatencyResult
  rw [hx]

/-- A team that is out, or a stopped lane, takes in no line (R219, R229). -/
theorem registerLineFill_kept {s : State} {team tid l : Nat} {t : Team} {h : Thread} (ht : s.team? team = some t)
    (hh : s.thread? team tid = some h) (hk : t.removed = true ∨ ∃ n, h.wait = .stopped n) :
    exec (.registerLineFill team tid l) s = .next s := by
  show execRegisterLineFill team tid l s = _
  unfold execRegisterLineFill
  simp only [ht, hh]
  rcases hk with hr | ⟨n, hw⟩
  · rw [if_pos hr]
  · rw [hw]
    exact ite_self _

theorem registerLineFill_fills {s : State} {team tid l : Nat} {t : Team} {h : Thread} (ht : s.team? team = some t)
    (hh : s.thread? team tid = some h) (hr : t.removed = false) (hw : ∀ n, h.wait ≠ .stopped n) (hl : h.absent.contains l = true) :
    exec (.registerLineFill team tid l) s
      = .next (if s.targetsImage team h then s else (s.lineRoom (t.coreOf tid)).fillLine team tid l) := by
  show execRegisterLineFill team tid l s = _
  unfold execRegisterLineFill
  simp only [ht, hh, hr, Bool.false_eq_true, if_false]
  unfold State.bringLine
  simp only [ht, hh, hl, Bool.true_and]
  cases s.targetsImage team h with
  | false => rfl
  | true => rfl

theorem transitResume_ready {s : State} (hc : s.units.shoots.any Shoot.clears = false) (team tid : Nat) :
    exec (.transitResume team tid) s = .next (s.updThread team tid fun h => if h.wait = .transit then { h with wait := .ready } else h) := by
  show execTransitResume team tid s = _
  unfold execTransitResume
  rw [hc]
  rfl

theorem flushMarker_arrives {s : State} {r : Req} (hr : s.req? r.id = some r)
    (hb : (s.flight.reqs.takeWhile fun q => q.id ≠ r.id) = []) (path : Nat) :
    exec (.flushMarkerArrival r.id path) s
      = .next (s.updReqs (fun q => q.id = r.id) fun q => { q with paths := q.paths.filter fun p => p ≠ path }) := by
  show execFlushMarkerArrival r.id path s = _
  unfold execFlushMarkerArrival
  simp only [hr, hb, List.any_nil, Bool.false_eq_true, if_false]

/-! ## Volume allocation and shoot-downs -/

/-- A request for a tile is answered, unless what it reads waits for a store of the asking core (R88, R200). -/
theorem volAllocRequest_answers {s s1 : State} {a : Alloc} {t : Team} {h : Thread} {b : List Byte} {v : Volume}
    (ha : (s.units.allocs.find? fun x => x.id = a.id && x.answer.isNone) = some a) (ht : s.team? a.team = some t)
    (hh : s.thread? a.team a.tid = some h) (hr : volumeRead t h s a.desc = .got b s1) (hv : volumeOf b = some v) :
    let r := allocFrom t h a v s1 4
    exec (.volAllocRequest a.id) s
      = .next (if r.1 = .park && s.coreBusy (t.coreOf h.tid) then s else r.2.answerAlloc a.id r.1) := by
  intro r
  show execVolAllocRequest a.id s = _
  unfold execVolAllocRequest
  simp only [ha, ht, hh, hr, hv]
  rfl

theorem shootDownAcknowledge_answers {s : State} {x : Shoot} {u : Nat}
    (hx : (s.units.shoots.find? fun y => y.id = x.id && y.units.contains u) = some x) :
    let n : Names := { kind := x.kind, vas := x.vas, asid := x.asid }
    let left := x.units.filter fun y => y ≠ u
    s.flight.reqs.any (s.holdsUp n u) = false → s.walk.ctxs.any (s.jobHoldsUp n u) = false →
    exec (.shootDownAcknowledge x.id u) s = .next { s with units := { s.units with
      shoots := if left.isEmpty && x.owner.isNone then s.units.shoots.filter fun y => y.id ≠ x.id
        else updWhere s.units.shoots (fun y => y.id = x.id) fun y => { y with units := left }
      tlb := s.units.tlb.filter fun e => !(e.unit = u && n.hits e)
      windows := s.units.windows.filter fun w => !(w.1 = u && (n.kind = 2 || (n.kind = 1 && w.2.1 = n.asid))) } } := by
  intro n left hreqs hjobs
  have hwaits : s.unitWaits n u = false := by
    unfold State.unitWaits
    rw [hreqs, hjobs]
    rfl
  show execShootDownAcknowledge x.id u s = _
  unfold execShootDownAcknowledge
  rw [hx]
  dsimp only
  rw [hwaits]
  rfl

/-! ## The obligation -/

/-- Settles O45: each event does what its rule says once nothing keeps it. -/
theorem memoryEventsComplete : Obligations.MemoryEventsComplete := by
  intro s r hr
  dsimp only
  have hread : ∀ s1, s.l1Hit r = false → s.upgrades r = false → s.serveRead r = some s1 → exec (.homeRead r.id) s = .next s1 := by
    intro s1 hl hu hs
    show execHomeRead r.id s = _
    unfold execHomeRead
    simp only [hr, hl, hu, hs, Bool.or_self, Bool.false_eq_true, if_false, Option.getD_some]
  have hupgrade : ∀ s1, s.upgrades r = true → s.serveRead r = some s1 → exec (.precisionUpgrade r.id) s = .next s1 := by
    intro s1 hu hs
    show execPrecisionUpgrade r.id s = _
    unfold execPrecisionUpgrade
    simp only [hr, hu, hs, if_true, Option.getD_some]
  refine ⟨hread, hupgrade, ?plainRead, ?plainUpgrade, ?writes, fun o n ho hk ha => loadReturn_delivers ho hk ha,
    fun o ho hk ha => storeAcknowledgement_ends ho hk ha, fun x hx => longLatencyResult_delivers hx,
    fun team tid l t h ht hh => ⟨registerLineFill_kept ht hh, registerLineFill_fills ht hh⟩,
    fun team tid hc => transitResume_ready hc team tid, fun path hb => flushMarker_arrives hr hb path, ?alloc,
    fun x u hx => shootDownAcknowledge_answers hx⟩
  case plainRead =>
    rintro ⟨⟨hb, hl⟩, ho, hd, hk, hst, hnc, hcm, hord, hacq, hearly, hg, hnear, hent, hroom⟩ hhit hup
    have p : PlainLoad s r := ⟨hk, hst, hnc, hcm, hd, hb, hl, ho, hord, hacq, hearly, hg, hnear, hent, hroom⟩
    obtain ⟨hmem, hteams, htags, hreqs, hfill⟩ := serveCoherent_plain p
    exact ⟨_, hread _ hhit hup (serveRead_plain p), hmem, hteams, htags, hreqs, fun h => hfill (.inl h)⟩
  case plainUpgrade =>
    rintro ⟨⟨hb, hl⟩, ho, hd, hk, hst, hnc, hcm, hord, hacq, hearly, hg, hnear, hent, hroom⟩ hup
    have p : PlainLoad s r := ⟨hk, hst, hnc, hcm, hd, hb, hl, ho, hord, hacq, hearly, hg, hnear, hent, hroom⟩
    obtain ⟨hmem, hteams, htags, hreqs, hfill⟩ := serveCoherent_plain p
    exact ⟨_, hupgrade _ hup (serveRead_plain p), hmem, hteams, htags, hreqs, fun h => hfill (.inr ⟨h, hup⟩)⟩
  case writes =>
    rintro ⟨hb, hl⟩ ho hun
    have h : MayWrite s r := ⟨hr, hun, hb, hl, ho⟩
    refine ⟨fun hk hst hp hone hother => ⟨?_, ?_, ?_⟩, fun op ty hk hw hq hm => ?_, fun op ty hk hw hq hp hspace => ?_⟩
    · intro hspace
      rw [homeWrite_store h hk, storeAtHome_alone hst hp hone hother]
      split
      next hs _ => exact absurd hs hspace
      next =>
        rw [coreWrite_home hspace]
        rfl
    · intro hspace hnc
      rw [homeWrite_store h hk, storeAtHome_alone hst hp hone hother, hspace, hnc]
      unfold State.ownCopies
      rw [hnc]
    · intro hspace hnc
      rw [homeWrite_store h hk, storeAtHome_alone hst hp hone hother, hspace, hnc]
      dsimp only
      rw [coreWrite_host hspace]
      unfold State.ownCopies
      rw [hnc]
      rfl
    · rw [homeWrite_rmw h hk, markers_sent hw hq hm]
    · rw [homeWrite_rmw h hk, rmwAtHome_applied hw hq hp hspace]
      dsimp only
      split
      · exact congrArg Host.Outcome.next (coreWrite_home hspace)
      · rfl
  case alloc =>
    intro a t h b v s1 ha ht hh hv hvol
    rw [volAllocRequest_answers ha ht hh hv hvol]
    refine ⟨fun hgo => ?_, fun hpark hbusy => ?_⟩
    · rw [if_neg]
      rcases hgo with hp | hq
      · simp [hp]
      · simp [hq]
    · rw [if_pos]
      simp [hpark, hbusy]

end Sys2Proof.MemoryEvents
end


section
/-! Transfers (R157, R158): a BRX waits for the earlier accesses of its lane before it looks at its index, so that an index beyond DTLEN does
not stop the lane while one of them is under way. -/

namespace Sys2Proof.Transfer

open Sys2Proof Sys2Proof.Machine Sys2Proof.Laws

/-! ## A transfer through the table that waits -/

/-- The lone lane of a bundle is its one active lane. -/
theorem active_of_solo {s : State} {b : Bundle} {t : Team} {f : Form} {x : Nat} {h : Thread} (c : Solo s b t f x h) :
    t.active f b.tids = [x] := by
  unfold Team.active
  simp [c.alone, c.thread, c.active, Team.inOrder, sortBy, insertBy]

/-- A transfer through the dispatch table waits while an earlier access of its lane is not over, whatever its index (R85, R88). -/
theorem brx_waits {w : BWord} {s : State} {b : Bundle} {t : Team} {x : Nat} {h : Thread}
    (c : Solo s b t (transferForm w [spanA w 1] []) x h) (hq : s.quiet t.id x = false) : exec (.brx w) s = .next (s.stall b) := by
  have hwaits : tableWaits (transferForm w [spanA w 1] []) b t (tableGoal w) s = true := by
    unfold tableWaits
    simp [active_of_solo c, c.thread, hq]
  show issueTransfer (transferForm w [spanA w 1] []) (slotOf w) id (tableGoal w) true s = _
  unfold issueTransfer
  simp only [c.clear.issues, clear_gate c.clear, hwaits, Bool.and_self, if_true]

/-- An instruction that makes its bundle wait stops no thread that was not stopped. -/
theorem not_stopsWith_of_stall {i : Instr} {s : State} {b : Bundle} {t : Team} {x code : Nat} {h : Thread}
    (he : exec i s = .next (s.stall b)) (hx : s.thread? t.id x = some h) (hw : h.wait = .ready) : ¬ StopsWith i s t x h code := by
  rintro ⟨s', r, h', hn, -, -, -, -, -, -, -, -, hx', hw'⟩
  rw [he] at hn
  cases hn
  have : h' = h := Option.some.inj (hx'.symm.trans hx)
  rw [this, hw] at hw'
  cases hw'

/-! ## A lane whose load is under way -/

/-- The team of the model's own probe, whose launch has no dispatch table. -/
def team : Team := probeTeam State.reset

def thread : Thread := (team.thread? 0).getD (Thread.fresh 0 0 0 0)

/-- A bundle of its thread 0. -/
def bundle : Bundle :=
  { id := 2, team := team.id, slot := 0, tids := [0], start := 0, count := 1, cls := 0, notBefore := 0, stalled := false }

/-- A load of thread 0 that is still queued. -/
def load : Req :=
  { id := 6, op := 5, team := team.id, tid := 0, core := 0, kind := .load, pa := 0x10000, len := 4, data := [], cmp := [], pos := 0,
    ord := 0, sc := 0, nc := false, cm := 0, va := 0x10000, asid := 0, batch := 3, stage := .queued, paths := [] }

/-- The bundle is about to issue while the load is under way. -/
def loading : State :=
  { State.reset with
    cur := .bundle bundle.id
    nextId := 7
    teams := [team]
    bundles := [bundle]
    flight := { State.reset.flight with reqs := [load] } }

/-- BRX on register x2, which holds 0. -/
def brxWord : BWord := { g := 7, gn := 0, bs := 0, a := 2, md := 0, off := 0 }

def brxForm : Form := transferForm brxWord [spanA brxWord 1] []

theorem loading_clear : Clear loading bundle team brxForm where
  issues := by decide +kernel
  privilege := fun h => nomatch h
  formed := by decide +kernel
  quad := by decide +kernel
  allot := by decide +kernel
  resident := by decide +kernel
  kFree := by decide +kernel
  full := by decide +kernel
  token := fun _ h => nomatch h
  unstepped := by decide +kernel
  noRole := by decide +kernel

theorem loading_solo : Solo loading bundle team brxForm 0 thread :=
  ⟨loading_clear, rfl, by decide +kernel, by decide +kernel⟩

theorem loading_not_quiet : loading.quiet team.id 0 = false := by decide +kernel

theorem index_beyond_table : team.launch.dtLen ≤ thread.reg brxWord.a.toNat := by decide +kernel

/-- Refutes O18: thread 0 of `loading` stands at a BRX whose index is beyond its empty dispatch table, and waits for its load instead of
stopping with BAD_TARGET; the clause on an index beyond DTLEN asks for no quiet lane, as those on an index in the table do. -/
theorem not_transfersComplete : ¬ Obligations.TransfersComplete := by
  intro h
  obtain ⟨-, -, -, -, -, hbeyond, -⟩ := h brxWord loading bundle team 0 thread
  have hready : thread.wait = .ready := by decide +kernel
  have hthread : loading.thread? team.id 0 = some thread := by decide +kernel
  exact not_stopsWith_of_stall (brx_waits loading_solo loading_not_quiet) hthread hready (hbeyond loading_solo index_beyond_table)

end Sys2Proof.Transfer
end

section
/-! The floating-point instructions that write their rounded result at once (R57, R143, R144). -/

namespace Sys2Proof.Rounding

open Sys2Proof Sys2Proof.Machine Sys2Proof.Laws

@[simp] theorem put_tid (h : Thread) (ty d : Nat) (r : Nat × Flag) : (h.put ty d r).tid = h.tid := setTy_tid h ..

@[simp] theorem put_singleStep (h : Thread) (ty d : Nat) (r : Nat × Flag) : (h.put ty d r).singleStep = h.singleStep :=
  setTy_singleStep h ..

/-- Results that are there at once change of a team only its lanes' own threads. -/
theorem keepsCast_actShort {g : List Nat → Thread → Thread} (ht : ∀ draws h, (g draws h).tid = h.tid)
    (hs : ∀ draws h, (g draws h).singleStep = h.singleStep) (t : Team) (lanes : List (Nat × List Nat)) :
    KeepsCast t.id (actShort g t lanes) := by
  unfold actShort State.updEach
  simp only [List.foldl_map]
  exact KeepsCast.foldl (fun p => keepsCast_updThread (ht p.2) (hs p.2)) lanes

/-- An instruction under a rounding mode that writes each lane's result of a type with its flags. -/
theorem put_rounded {i : Instr} {f : Form} {rm n ty d : Nat} {r : List Nat → Thread → Nat × Flag}
    (he : ∀ s, exec i s = issueRounded f rm n (actShort fun draws h => h.put ty d (r draws h)) s) :
    Rounded i f rm n (actShort fun draws h => (h.setTy ty d (r draws h).1).addFlags (r draws h).2) :=
  rounded_of he (keepsCast_actShort (fun _ h => put_tid h ..) fun _ h => put_singleStep h ..)

/-- Settles O7: each instruction issues under the rounding modes and puts its rounded result, with its flags, into its lanes' d. -/
theorem floatArithmeticCompletes : Obligations.FloatArithmeticCompletes := by
  intro w
  dsimp only
  refine ⟨?fadd, ?fsub, ?fmul, ?ffma, ?fdot2⟩
  case fadd | fsub | fmul | ffma | fdot2 => exact put_rounded fun _ => rfl

end Sys2Proof.Rounding
end


section
/-! The noise sources (R76-R81): what each event does with the request that its cluster serves. -/

namespace Sys2Proof.Noise

open Sys2Proof Sys2Proof.Machine

section Events

variable {s : State} {cluster : Nat} {r : DrawReq} {t : Team}

/-- In live mode the request that the arbiter serves gets a fresh draw (R76, R79). -/
theorem noiseDrawDelivery_live (hnext : s.nextLive cluster = some r) (hpass : s.noise.failing.contains cluster = false)
    (hmode : s.drawMode r = 0) : exec (.noiseDrawDelivery cluster) s = .next (s.freshDraw.2.giveDraw r s.freshDraw.1) := by
  show execNoiseDrawDelivery cluster s = _
  unfold execNoiseDrawDelivery
  simp only [hnext, hpass, hmode, ne_eq, not_true_eq_false, decide_false, Bool.or_self, Bool.false_eq_true, if_false]

section Rehearsal

variable {done limit : Nat} {m : State} (hnext : s.nextLive cluster = some r) (hpass : s.noise.failing.contains cluster = false)
  (hteam : s.team? r.team = some t) (hmode : t.rehearsal = 1) (hindices : drawIndices s t (clusterUnit cluster) r = .got (done, limit) m)
include hnext hpass hteam hmode hindices

/-- A draw waits while the done index has reached the limit (R79). -/
theorem rehearsalRecord_full (hfull : limit ≤ done) : exec (.rehearsalRecord cluster) s = .next m := by
  show execRehearsalRecord cluster s = _
  unfold execRehearsalRecord
  simp only [hnext, hteam, hmode, hpass, hindices, hfull, ne_eq, not_true_eq_false, decide_false, Bool.or_self,
    Bool.false_eq_true, if_false, if_true]

/-- A draw is recorded at the done index, which rises, and then given to its request (R78, R79). -/
theorem rehearsalRecord_room {m1 m2 : State} (hroom : done < limit)
    (hrecord : engWrite m.freshDraw.2 (clusterUnit cluster) t.asid (t.ringSlot done)
      (toBytes 8 (drawRecord r.kind r.tid m.freshDraw.1 (look 0 t.draws (tagKey r.kind r.tid)))) [] = .got () m1)
    (hdone : engWrite m1 (clusterUnit cluster) t.asid (t.rehearsalBlock + 16) (toBytes 8 (done + 1)) [] = .got () m2) :
    exec (.rehearsalRecord cluster) s = .next (m2.giveDraw r m.freshDraw.1) := by
  show execRehearsalRecord cluster s = _
  unfold execRehearsalRecord
  simp only [hnext, hteam, hmode, hpass, hindices, Nat.not_le.mpr hroom, hrecord, hdone, ne_eq, not_true_eq_false,
    decide_false, Bool.or_self, Bool.false_eq_true, if_false]

end Rehearsal

/-- A request with one more record of its team's ring: the draw in it and its index (R80). -/
def withRecord (r : DrawReq) (draw i : Nat) : DrawReq := { r with got := r.got ++ [draw], slots := r.slots ++ [i] }

/-- The done index of team `t`'s ring past the leading records that its launch has taken, those of request `r` among them (R80). -/
def doneAfter (s : State) (t : Team) (r : DrawReq) (done room : Nat) : Nat :=
  done + takenFrom (s.noise.taken ++ r.slots.map fun j => (t.grid, j)) t.grid done room

section Replay

variable {b : List Byte} {s1 s2 : State} {done room draw i : Nat} (hreq : s.replayReq cluster r.id = some r)
  (hteam : s.team? r.team = some t) (hmode : t.rehearsal = 2)
  (hread : engRead s (clusterUnit cluster) t.asid (t.rehearsalBlock + 16) 16 [] = .got b s1)
  (hdone : fieldOf b 0 8 = done) (hroom : min t.ringSize (fieldOf b 8 8 - done) = room)
  (hfind : findRecord s1 t (clusterUnit cluster) r.kind r.tid ((look 0 t.draws (tagKey r.kind r.tid) + r.slots.length) % 2 ^ 32) done room
    = .got (some (draw, i)) s2)
include hreq hteam hmode hread hdone hroom hfind

/-- A consumer that needs more draws keeps the record's draw and its index, and nothing counts yet (R80, R81). -/
theorem replayDraw_more (hmore : (withRecord r draw i).ready = false) :
    exec (.replayDraw cluster r.id) s = .next (s2.setDraw (withRecord r draw i)) := by
  show execReplayDraw cluster r.id s = _
  unfold execReplayDraw
  unfold withRecord at hmore ⊢
  simp only [hreq, hteam, hmode, hread, hdone, hroom, hfind, hmore, ne_eq, not_true_eq_false, if_false, Bool.not_false, if_true]

/-- With its last draw the records of a request are taken, the done index stands past the leading taken ones, and the draws count under
their tag (R78, R80). -/
theorem replayDraw_last {s3 : State} (hlast : (withRecord r draw i).ready = true)
    (hwrite : engWrite s2 (clusterUnit cluster) t.asid (t.rehearsalBlock + 16)
      (toBytes 8 (doneAfter s2 t (withRecord r draw i) done room)) [] = .got () s3) :
    exec (.replayDraw cluster r.id) s = .next (((s3.takeRecords t (withRecord r draw i).slots
      (doneAfter s2 t (withRecord r draw i) done room)).setDraw { withRecord r draw i with slots := [] }).countDraws r
        (withRecord r draw i).slots.length) := by
  show execReplayDraw cluster r.id s = _
  unfold execReplayDraw
  unfold doneAfter withRecord at *
  simp only [hreq, hteam, hmode, hread, hdone, hroom, hfind, hlast, hwrite, ne_eq, not_true_eq_false, if_false, Bool.not_true,
    Bool.false_eq_true]

end Replay

end Events

/-- Settles O51: each event serves the request that the arbiter or the replay chooses, by the mode of its team. -/
theorem noiseEventsComplete : Obligations.NoiseEventsComplete := by
  intro s cluster r
  refine ⟨rfl, rfl, noiseDrawDelivery_live, ?rehearsal, ?replay⟩
  case rehearsal =>
    intro t done limit m hnext hpass hteam hmode hindices
    exact ⟨fun _ _ => rehearsalRecord_room hnext hpass hteam hmode hindices, rehearsalRecord_full hnext hpass hteam hmode hindices⟩
  case replay =>
    intro t b s1 s2 draw i hreq hteam hmode _ _ _ hread _ _ hfind _ _
    exact ⟨replayDraw_more hreq hteam hmode hread rfl rfl hfind, fun _ => replayDraw_last hreq hteam hmode hread rfl rfl hfind⟩

end Sys2Proof.Noise
end


section
/-! Prefetch, fences and cache control (R194-R197, R201): one lane that completes at once, with its token cleared again, after checks of an
access that leave its team as it was. -/

namespace Sys2Proof.CacheControl

open Sys2Proof Sys2Proof.Machine Sys2Proof.Laws Sys2Proof.Rounding Sys2Proof.Uniform

/-! ## The lane that issues -/

theorem atIssue_absent (f : Form) (h : Thread) : (f.atIssue h).absent = h.absent := by
  unfold Form.atIssue; dsimp only; split <;> split <;> rfl

section
variable {s s1 m : State} {b : Bundle} {t t1 v : Team} {f : Form} {x : Nat} {h1 : Thread} (c : Lane s b t f x s1 t1 h1)
include c

/-- What an instruction reads of the lane's team at issue is what the team had before, and the thread is the lane's. -/
theorem lane_fields : t1.id = t.id ∧ t1.asid = t.asid ∧ (∀ y, t1.coreOf y = t.coreOf y)
    ∧ (∀ core sc d, inExtent t1 core sc d = inExtent t core sc d) ∧ h1.tid = x := by
  refine ⟨?_, ?_, fun _ => ?_, fun _ _ _ => ?_, thread_tid c.thread⟩ <;> rw [lane_team c] <;> rfl

/-- The lane's thread before its destinations are marked and its token is raised. -/
theorem lane_thread : ∃ h ∈ t.pick b.tids, h1 = f.atIssue h := by
  have hx := c.thread
  rw [lane_team c, thread_updWhere _ _ _ _ (atIssue_tid f)] at hx
  cases hy : t.thread? x with
  | none => simp [hy] at hx
  | some h =>
    have hin : x ∈ t.active f b.tids := by
      rw [c.only]
      exact List.mem_singleton_self x
    rw [Team.active, Team.inOrder, Turns.mem_sortBy] at hin
    refine ⟨h, List.mem_filter.2 ⟨List.mem_of_find?_eq_some hy, ?_⟩, ?_⟩
    · rw [thread_tid hy, List.contains_iff_mem]
      exact (List.mem_filter.1 hin).1
    · simpa [hy, thread_tid hy] using hx.symm

/-- The state line of a lane that issues is resident (R113). -/
theorem lane_resident : h1.absent.contains 0 = false := by
  obtain ⟨h, hh, rfl⟩ := lane_thread c
  rw [atIssue_absent]
  simpa using c.clear.resident h hh 0 List.mem_cons_self

/-- A lane without destinations that come later and without a token issues from the state as it is. -/
theorem lane_unchanged (hl : f.long = false) (hk : f.tok = none) : s1 = s := by
  have hat : f.atIssue = id := by
    funext h; unfold Form.atIssue; rw [hl, hk]; rfl
  rw [c.start, hat]
  unfold State.updThreads State.updTeam updWhere
  simp

/-- An instruction whose one active lane completes and leaves its team its cast. -/
theorem lane_completes {i : Instr} {go : Team → Thread → State → Res} (he : exec i s = issueLanes f (withLane go) s)
    (hg : go t1 h1 s1 = .ok m) (hv : m.team? t.id = some v) (hc : SameCast t1 v) : Completes i s b t m := by
  have hcast : SameCast t t1 := by
    rw [lane_team c]
    exact SameCast.upd t _ (atIssue_tid _) (atIssue_singleStep _)
  unfold Completes
  rw [he]
  refine issueLanes_completes c ?_ hv (fun h hh _ => hc.threads h hh) (hc.groups.trans hcast.groups) (hc.width.trans hcast.width)
  unfold withLane
  simp only [c.team, c.thread, hg]

/-- An instruction whose one active lane waits. -/
theorem lane_stalls {i : Instr} {go : Team → Thread → State → Res} (he : exec i s = issueLanes f (withLane go) s)
    (hg : go t1 h1 s1 = .hold) : exec i s = .next (s.stall b) := by
  have hb : withLane go t.id x s1 = .hold := by
    unfold withLane
    simp only [c.team, c.thread, hg]
  rw [he]
  unfold issueLanes
  rw [c.clear.issues]
  simp only [clear_gate c.clear, c.only, State.runOn, List.map_cons, List.map_nil, List.flatten_cons, List.flatten_nil, List.append_nil,
    ← c.start, runUnits, List.headD_cons, hb, Run.add, Bool.false_eq_true, if_false, if_true, List.foldl_cons, List.foldl_nil, id_eq]

/-! ## Its token -/

/-- A token of the lane that is clear again changes its thread's tokens only. -/
theorem tokenDone_cast (tok : Option Nat) (hm : m.team? t.id = some t1) :
    ∃ v, (m.tokenDone t.id x tok).team? t.id = some v ∧ SameCast t1 v := by
  unfold State.tokenDone
  cases tok with
  | none => exact ⟨t1, hm, SameCast.refl t1⟩
  | some n =>
    have hline : m.updLine0 t.id x (fun h => h.subToken n) = m.updThread t.id x fun h => h.subToken n := by
      unfold State.updLine0
      simp only [hm, c.thread, lane_resident c, Bool.false_eq_true, if_false]
    obtain ⟨v, hv, hc⟩ := keepsCast_updThread (id := t.id) (x := x) (g := fun h => h.subToken n) (fun _ => rfl) (fun _ => rfl) m t1 hm
    refine ⟨v, ?_, hc⟩
    show ((m.updLine0 t.id x fun h => h.subToken n).stir t.id x).team? t.id = some v
    rw [hline]
    exact hv

/-- An instruction whose one active lane completes at once and clears its token. -/
theorem lane_settles {i : Instr} {go : Team → Thread → State → Res} {tok : Option Nat} (he : exec i s = issueLanes f (withLane go) s)
    (hm : m.team? t.id = some t1) (hg : go t1 h1 s1 = .ok (m.tokenDone t.id x tok)) :
    Completes i s b t (m.tokenDone t.id x tok) := by
  obtain ⟨v, hv, hc⟩ := tokenDone_cast c tok hm
  exact lane_completes c he hg hv hc

end

/-! ## Checks of an access -/

theorem checkAccess_looks (s : State) (unit : Nat) (asid : BitVec 16) (priv : Bool) (va : W64) (n : Nat) (u : Use) :
    Looks s (checkAccess s unit asid priv va n u).2 := by
  unfold checkAccess
  split
  · exact .refl s
  · exact checkPage_looks s unit asid priv va n u

theorem readParts_looks (s : State) (unit : Nat) (ps : List Part) : Looks s (s.readParts unit ps).1 := by
  have hfold : ∀ (l : List Part) (a : State × List Byte), Looks a.1 (l.foldl (fun a p =>
      let r := a.1.readPart unit p
      (r.1, a.2 ++ r.2)) a).1 := by
    intro l
    induction l with
    | nil => exact fun a => .refl a.1
    | cons p l ih => exact fun a => (Looks.of_touches (readFor_touches _ _ _ _ _)).trans (ih _)
  exact hfold ps (s, [])

/-- Reading a volume descriptor changes no team. -/
theorem volumeRead_looks {t : Team} {h : Thread} {s m : State} {desc : W64} {d : List Byte} (hr : volumeRead t h s desc = .got d m) :
    Looks s m := by
  have hn := reachNow_looks t s h desc 128 { align := 128, ncStop := true }
  unfold volumeRead at hr
  split at hr
  · cases hr
  · cases hr
  · next he =>
    rw [he] at hn
    dsimp only at hr
    split at hr
    · cases hr
      exact hn
    · cases hr
      exact (hn.trans (readParts_looks _ _ _)).trans (looks_units _ _)

section
variable {s s1 m : State} {b : Bundle} {t t1 : Team} {f : Form} {x : Nat} {h1 : Thread} (c : Lane s b t f x s1 t1 h1)
include c

/-- The checks of an access leave the lane's team as it was. -/
theorem team_checked {unit n : Nat} {asid : BitVec 16} {priv : Bool} {va : W64} {u : Use} {r : Except Stop Xlat}
    (h : checkAccess s1 unit asid priv va n u = (r, m)) : m.team? t.id = some t1 := by
  have hl := checkAccess_looks s1 unit asid priv va n u
  rw [h] at hl
  rw [hl.team, c.team]

/-- The read of a volume descriptor leaves it so too. -/
theorem team_volumeRead {desc : W64} {d : List Byte} (h : volumeRead t1 h1 s1 desc = .got d m) : m.team? t.id = some t1 := by
  rw [(volumeRead_looks h).team, c.team]

end

/-! ## FENCE and WACK (R195, R196) -/

section
variable {w : MWord} {s s1 : State} {b : Bundle} {t t1 : Team} {x : Nat} {h1 : Thread} (c : Lane s b t (w.form [] []) x s1 t1 h1)
include c

/-- FENCE completes once the accesses that its kind waits for are over, those outside this device included at sc 6 and 7. -/
theorem fence_completes (hread : w.w = 0 → s.loadsRead t.id x = true ∧ s.seenOpen t.id x = false)
    (hwrite : w.w = 1 → ∀ r ∈ s.reqsOf t.id x, r.reads = true ∨ r.stage = .done)
    (hall : w.w ≠ 0 → w.w ≠ 1 → s.quiet t.id x = true) (hfar : w.w ≠ 0 → 6 ≤ w.sc.toNat → s.outsideDone t.id x = true) :
    Completes (.fence w) s b t s := by
  obtain rfl := lane_unchanged c rfl rfl
  refine lane_completes c rfl ?_ c.team (SameCast.refl t1)
  have hreach : (decide (w.w = 0) || decide (w.sc.toNat < 6) || s1.outsideDone t.id x) = true := by
    simp only [Bool.or_eq_true, decide_eq_true_eq]
    by_cases h0 : w.w = 0
    · exact .inl (.inl h0)
    · rcases Nat.lt_or_ge w.sc.toNat 6 with h6 | h6
      · exact .inl (.inr h6)
      · exact .inr (hfar h0 h6)
  simp only [lane_fields c, hreach, Bool.and_true]
  rw [if_pos]
  split
  next hl =>
    obtain ⟨hloads, hseen⟩ := hread (BitVec.eq_of_toNat_eq hl)
    simp [hloads, hseen]
  next hs => simpa using hwrite (BitVec.eq_of_toNat_eq hs)
  next hl hs => exact hall (fun h => hl (congrArg BitVec.toNat h)) fun h => hs (congrArg BitVec.toNat h)

/-- WACK completes once every store of the lane is acknowledged at the scope, and no reduction or scatter is open. -/
theorem wack_completes (hacked : ∀ o ∈ s.flight.ops, o.team = t.id → o.tid = x → o.kind.acked = true → w.sc.toNat ≤ 2 ∧ o.kind = .store
      ∧ ∀ r ∈ s.flight.reqs, r.op = o.id → ackedAt (if r.cm = 2 then 7 else w.sc.toNat) r = true) : Completes (.wack w) s b t s := by
  obtain rfl := lane_unchanged c rfl rfl
  refine lane_completes c rfl ?_ c.team (SameCast.refl t1)
  simp only [lane_fields c]
  rw [if_neg]
  simp only [Bool.not_eq_true, List.any_eq_false, List.mem_filter, Bool.and_eq_true, decide_eq_true_eq]
  rintro o ⟨ho, ⟨hteam, htid⟩, hkind⟩
  obtain ⟨hsc, hstore, hreqs⟩ := hacked o ho hteam htid hkind
  simpa [hsc, hstore] using hreqs

/-- At cluster scope and beyond an operation that is not over keeps WACK waiting. -/
theorem wack_stalls (hopen : ∃ o ∈ s.flight.ops, o.team = t.id ∧ o.tid = x ∧ o.kind.acked = true ∧ 2 < w.sc.toNat) :
    exec (.wack w) s = .next (s.stall b) := by
  obtain rfl := lane_unchanged c rfl rfl
  obtain ⟨o, ho, hteam, htid, hkind, hsc⟩ := hopen
  refine lane_stalls c rfl ?_
  simp only [lane_fields c]
  rw [if_pos]
  refine List.any_eq_true.2 ⟨o, List.mem_filter.2 ⟨ho, by simp [hteam, htid, hkind]⟩, ?_⟩
  simp [Nat.not_le.2 hsc]

end

/-! ## PREF (R194) -/

section
variable {w : MWord} {s s1 : State} {b : Bundle} {t t1 : Team} {x : Nat} {h1 : Thread}
  (c : Lane s b t { w.form [w.srcBase] [] with tok := tokenOf w.tk } x s1 t1 h1)
include c

/-- A prefetch whose address fails a check is dropped. -/
theorem pref_fails {e : Stop} {m : State}
    (hr : checkAccess s1 (t.coreOf x) t.asid h1.priv (w.eaPlain h1) 1 .read = (.error e, m)) :
    Completes (.pref w) s b t (m.tokenDone t.id x (tokenOf w.tk)) := by
  refine lane_settles c rfl (team_checked c hr) ?_
  simp only [lane_fields c, hr]

variable {a : Xlat} {m : State} (hr : checkAccess s1 (t.coreOf x) t.asid h1.priv (w.eaPlain h1) 1 .read = (.ok a, m))
include hr

/-- A prefetch is dropped on a page in transit, in a non-coherent window and on a LOST line. -/
theorem pref_drops
    (hd : (attrTi a.attr || nonCoherent m (t.coreOf x) t.asid (w.eaPlain h1) a.pa || isLost m a.pa) = true) :
    Completes (.pref w) s b t (m.tokenDone t.id x (tokenOf w.tk)) := by
  refine lane_settles c rfl (team_checked c hr) ?_
  simp only [lane_fields c, hr, hd, if_true]

/-- A prefetch that passes its checks is posted as a load that returns nothing. -/
theorem pref_sends
    (hd : (attrTi a.attr || nonCoherent m (t.coreOf x) t.asid (w.eaPlain h1) a.pa || isLost m a.pa) = false)
    (hroom : m.tableFull (t.coreOf x) = false) :
    Completes (.pref w) s b t (m.postAccess
      { id := 0, team := t.id, tid := x, core := t.coreOf x, kind := .plain, dst := 0, tok := tokenOf w.tk, bytes := 1, flags := 0 }
      { team := t.id, tid := x, core := t.coreOf x, asid := t.asid, batch := s.nextId, kind := .load, sc := w.sc.toNat }
      [{ va := w.eaPlain h1, pa := a.pa, key := memKey m.ctl a.pa, len := 1, pos := 0, attr := a.attr, nc := false }]) := by
  refine lane_completes c rfl ?_ ((postAccess_team m _ _ _ t.id).trans (team_checked c hr)) (SameCast.refl t1)
  simp only [lane_fields c, hr, hd, hroom, Bool.false_eq_true, if_false]

end

/-! ## CCTL (R197) -/

/-- CCTL at scope `sc` takes copy `k` from the caches of the core's extent: an untracked copy, or one of a managed region. -/
def takes (t : Team) (core sc : Nat) (c : Coh) (k : Copy) : Bool :=
  (match k.who with
    | .l1 d => inExtent t core 1 d
    | .rdc d => decide (4 ≤ sc) && decide (d = coreDie core)
    | _ => false) && (decide (k.st = .loose) || c.managed.contains (k.line / 65536 * 65536))

/-- The same as a proposition. -/
def Taken (t : Team) (core sc : Nat) (c : Coh) (k : Copy) : Prop :=
  (match k.who with
    | .l1 d => inExtent t core 1 d = true
    | .rdc d => 4 ≤ sc ∧ d = coreDie core
    | _ => False) ∧ (k.st = .loose ∨ c.managed.contains (k.line / 65536 * 65536) = true)

/-- The page of an address as the core's TLB holds it, its place in memory and its length, or else the line at `line`. -/
def heldPage (m : State) (core : Nat) (asid : BitVec 16) (ea : W64) (line : Nat) : Nat × Nat :=
  match tlbHit m.units.tlb (unitsOf core) asid.toNat (bitsOf ea.toNat 0 57) with
  | some e => (memKey m.ctl e.pa, e.len)
  | none => (line, 128)

theorem takes_iff {t : Team} {core sc : Nat} {c : Coh} {k : Copy} : takes t core sc c k = true ↔ Taken t core sc c k := by
  unfold takes Taken
  cases k.who <;> simp

theorem mem_kept {t : Team} {core sc : Nat} {c : Coh} {k : Copy} :
    (k ∈ c.copies.filter fun k => !takes t core sc c k) ↔ k ∈ c.copies ∧ ¬Taken t core sc c k := by
  rw [List.mem_filter, Bool.not_eq_true', ← Bool.not_eq_true, takes_iff]

theorem mem_keptLine {t : Team} {core sc line : Nat} {c : Coh} {k : Copy} :
    (k ∈ c.copies.filter fun k => !(decide (k.line = line) && takes t core sc c k))
      ↔ k ∈ c.copies ∧ ¬(k.line = line ∧ Taken t core sc c k) := by
  rw [List.mem_filter, Bool.not_eq_true', ← Bool.not_eq_true, Bool.and_eq_true, decide_eq_true_eq, takes_iff]

section
variable {w : MWord} {s s1 : State} {b : Bundle} {t t1 : Team} {x : Nat} {h1 : Thread}
  (c : Lane s b t { w.form (if w.w = 1 then [] else [w.srcBase]) [] with tok := tokenOf w.tk } x s1 t1 h1)
  (hq : s1.quiet t.id x = true)
include c hq

/-- CCTL.all (R197). -/
theorem cctl_all (hw : w.w = 1) : Completes (.cctl w) s b t ({ s1 with coh := { s1.coh with
    copies := s1.coh.copies.filter fun k => !takes t (t.coreOf x) w.sc.toNat s1.coh k } }.tokenDone t.id x (tokenOf w.tk)) := by
  refine lane_settles c rfl c.team ?_
  simp only [lane_fields c, hq, hw, Bool.not_true, Bool.false_eq_true, if_false, if_true]
  rfl

/-- CCTL does nothing at an address whose page is not present. -/
theorem cctl_absent {e : Stop} {m : State} (hw : w.w ≠ 1)
    (hr : checkAccess s1 (t.coreOf x) t.asid h1.priv (w.eaPlain h1) 1 .read = (.error e, m)) (he : e.code = trapPageFault) :
    Completes (.cctl w) s b t (m.tokenDone t.id x (tokenOf w.tk)) := by
  refine lane_settles c rfl (team_checked c hr) ?_
  simp only [lane_fields c, hq, hw, hr, he, Bool.not_true, Bool.false_eq_true, if_false, if_true]

variable {a : Xlat} {m : State} (hr : checkAccess s1 (t.coreOf x) t.asid h1.priv (w.eaPlain h1) 1 .read = (.ok a, m))
include hr

/-- A line that the team reads coherently needs no invalidation. -/
theorem cctl_coherent (hw : w.w = 0) (hnc : nonCoherent m (t.coreOf x) t.asid (w.eaPlain h1) a.pa = false) :
    Completes (.cctl w) s b t (m.tokenDone t.id x (tokenOf w.tk)) := by
  refine lane_settles c rfl (team_checked c hr) ?_
  simp [lane_fields c, hq, hw, hr, hnc]

/-- CCTL of one line in a non-coherent window. -/
theorem cctl_line (hw : w.w = 0) (hnc : nonCoherent m (t.coreOf x) t.asid (w.eaPlain h1) a.pa = true) :
    Completes (.cctl w) s b t ({ m with coh := { m.coh with copies := m.coh.copies.filter fun k =>
      !(decide (k.line = lineOf (memKey m.ctl a.pa)) && takes t (t.coreOf x) w.sc.toNat m.coh k) } }.tokenDone t.id x (tokenOf w.tk)) := by
  have hm := team_checked c hr
  refine lane_settles c rfl hm ?_
  simp only [lane_fields c, hq, hw, hr, hnc, Bool.not_true, Bool.false_eq_true, if_false, if_true]
  refine congrArg (fun l => Res.ok (({ m with coh := { m.coh with copies := l } } : State).tokenDone t.id x (tokenOf w.tk)))
    (List.filter_congr fun k _ => ?_)
  unfold takes
  by_cases hl : k.line = lineOf (memKey m.ctl a.pa)
  · rw [hl]
    cases k.who <;> simp
  · simp [hl]

/-- CCTL writes a modified copy of the host port back and keeps it. -/
theorem cctl_writes {k : Copy} (hw : w.w = 2) (hk : m.coh.copy? .hostPort (lineOf (memKey m.ctl a.pa)) = some k) (hmod : k.modified = true)
    (hnc : nonCoherent m (t.coreOf x) t.asid (w.eaPlain h1) a.pa = true) :
    Completes (.cctl w) s b t (({ m with
      mem := putBytes m.mem (lineOf (memKey m.ctl a.pa)) k.data
      coh := m.coh.setCopy { k with st := .e } } : State).tokenDone t.id x (tokenOf w.tk)) := by
  have hm := team_checked c hr
  refine lane_settles c rfl hm ?_
  simp [lane_fields c, hq, hw, hr, hnc, hk, hmod]

/-- CCTL has nothing to write back of an unmodified copy, of none, and outside a non-coherent window. -/
theorem cctl_keeps (hw : w.w = 2) (hk : ∀ k, m.coh.copy? .hostPort (lineOf (memKey m.ctl a.pa)) = some k → k.modified = false
      ∨ nonCoherent m (t.coreOf x) t.asid (w.eaPlain h1) a.pa = false) :
    Completes (.cctl w) s b t (m.tokenDone t.id x (tokenOf w.tk)) := by
  refine lane_settles c rfl (team_checked c hr) ?_
  simp only [lane_fields c, hq, hw, hr]
  cases hc : m.coh.copy? .hostPort (lineOf (memKey m.ctl a.pa)) with
  | none => simp
  | some k => rcases hk k hc with h | h <;> simp [h]

/-- CCTL takes the page of its address from the instruction caches of its extent. -/
theorem cctl_icache (hw : 3 ≤ w.w.toNat) :
    Completes (.cctl w) s b t (
      let page := heldPage m (t.coreOf x) t.asid (w.eaPlain h1) (lineOf (memKey m.ctl a.pa))
      ({ m with units := { m.units with icache := m.units.icache.filter fun e =>
        !(inExtent t (t.coreOf x) (max w.sc.toNat 1) e.1 && page.1 ≤ e.2.1 && e.2.1 < page.1 + page.2) } } : State).tokenDone
          t.id x (tokenOf w.tk)) := by
  have hm := team_checked c hr
  refine lane_settles c rfl hm ?_
  have hw1 : w.w ≠ 1 := by rintro h; rw [h] at hw; simp at hw
  obtain ⟨n, hn⟩ := Nat.exists_eq_add_of_le' hw
  simp only [lane_fields c, hq, hw1, hr, hn, Bool.not_true, Bool.false_eq_true, if_false]
  rfl

end

/-! ## VOLINV (R201) -/

/-- A core in the extent of VOLINV at scope `sc`: the core alone at the narrow scopes, whether or not its team has a pair. -/
def reaches (t : Team) (core sc d : Nat) : Bool := if sc ≤ 2 then decide (d = core) else inExtent t core sc d

/-- The CLB entry is one of the volume. -/
def ofVolume (t : Team) (desc : W64) (e : Clb) : Bool := decide (e.asid = t.asid.toNat) && decide (e.desc = desc)

/-- State `m` without the tiles that `hit` picks in the CLBs of VOLINV's extent, and for a whole volume without its descriptor. -/
def dropTiles (w : MWord) (t : Team) (core : Nat) (desc : W64) (hit : Clb → Bool) (m : State) : State :=
  { m with units := { m.units with
    clb := m.units.clb.filter fun e => !(reaches t core w.sc.toNat e.core && hit e)
    volumes := m.units.volumes.filter fun v =>
      !(w.w = 1 && reaches t core w.sc.toNat v.1 && v.2.1 = t.asid.toNat && v.2.2.1 = desc) } }

section
variable {w : MWord} {s s1 : State} {b : Bundle} {t t1 : Team} {x : Nat} {h1 : Thread}
  (c : Lane s b t { w.form (w.srcBase :: if w.w = 0 then mCoords w else []) [] with tok := tokenOf w.tk } x s1 t1 h1)
  (hq : s1.quiet t.id x = true)
include c hq

/-- VOLINV of a whole volume, whose descriptor goes too. -/
theorem volinv_volume (hw : w.w = 1) :
    Completes (.volinv w) s b t ((dropTiles w t (t.coreOf x) (h1.pair w.a.toNat) (ofVolume t (h1.pair w.a.toNat)) s1).tokenDone
      t.id x (tokenOf w.tk)) := by
  refine lane_settles c rfl c.team ?_
  simp only [lane_fields c, hq, hw, Bool.not_true, Bool.false_eq_true, if_false, if_true, decide_true, Bool.true_or, Bool.and_true,
    dropTiles, reaches, ofVolume]

variable {d : List Byte} {m : State} {v : Volume} (hw : w.w ≠ 1) (hr : volumeRead t1 h1 s1 (h1.pair w.a.toNat) = .got d m)
  (hv : volumeOf d = some v)
include hw hr hv

/-- VOLINV of the tile of an element in its volume. -/
theorem volinv_inside (hin : (h1.reg w.b.toNat).toNat < v.dimX ∧ (h1.reg (w.b.toNat + 1)).toNat < v.dimY
      ∧ (h1.reg (w.b.toNat + 2)).toNat < v.dimZ) :
    Completes (.volinv w) s b t ((dropTiles w t (t.coreOf x) (h1.pair w.a.toNat) (fun e => ofVolume t (h1.pair w.a.toNat) e
      && e.tile = tileKey ((h1.reg w.b.toNat).toNat / 8) ((h1.reg (w.b.toNat + 1)).toNat / 8) ((h1.reg (w.b.toNat + 2)).toNat / 8))
      m).tokenDone t.id x (tokenOf w.tk)) := by
  obtain ⟨hx, hy, hz⟩ := hin
  have hm := team_volumeRead c hr
  refine lane_settles c rfl hm ?_
  simp only [lane_fields c, hq, hw, hr, hv, hx, hy, hz, Nat.add_zero, Bool.not_true, Bool.false_eq_true, if_false, decide_true,
    decide_false, Bool.false_or, Bool.and_true, Bool.true_and, dropTiles, reaches, ofVolume]

/-- A tile outside its volume is in no CLB. -/
theorem volinv_outside (hout : ¬((h1.reg w.b.toNat).toNat < v.dimX ∧ (h1.reg (w.b.toNat + 1)).toNat < v.dimY
      ∧ (h1.reg (w.b.toNat + 2)).toNat < v.dimZ)) :
    Completes (.volinv w) s b t ((dropTiles w t (t.coreOf x) (h1.pair w.a.toNat) (fun _ => false) m).tokenDone t.id x
      (tokenOf w.tk)) := by
  have hm := team_volumeRead c hr
  have hin : (decide ((h1.reg w.b.toNat).toNat < v.dimX) && decide ((h1.reg (w.b.toNat + 1)).toNat < v.dimY)
      && decide ((h1.reg (w.b.toNat + 2)).toNat < v.dimZ)) = false := by
    simpa only [← Bool.decide_and, decide_eq_false_iff_not, and_assoc] using hout
  refine lane_settles c rfl hm ?_
  simp only [lane_fields c, hq, hw, hr, hv, hin, Nat.add_zero, Bool.not_true, Bool.false_eq_true, if_false, decide_false, Bool.false_or,
    Bool.and_false, Bool.false_and, dropTiles, reaches]

end

/-- Settles O27: each instruction of the one active lane, case by case of its checks. -/
theorem fencesAndCacheControlComplete : Obligations.FencesAndCacheControlComplete := by
  refine ⟨fun w s b t x s1 t1 h1 => ⟨?fences, ?pref⟩, fun w s b t x s1 t1 h1 => ⟨?cctl, ?volinv⟩⟩
  case fences => exact fun c => ⟨fence_completes c, wack_completes c, wack_stalls c⟩
  case pref => exact fun c => ⟨fun _ _ => pref_fails c, fun _ _ hr => ⟨pref_drops c hr, pref_sends c hr⟩⟩
  case cctl =>
    exact fun c hq => ⟨fun hw => ⟨_, fun _ => mem_kept, cctl_all c hq hw⟩, fun _ _ hw hr he => cctl_absent c hq hw hr he,
      fun _ _ _ hr => ⟨cctl_coherent c hq hr, fun hw hnc => ⟨_, fun _ => mem_keptLine, cctl_line c hq hr hw hnc⟩,
        fun _ => cctl_writes c hq hr, cctl_keeps c hq hr, cctl_icache c hq hr⟩⟩
  case volinv =>
    exact fun c hq => ⟨volinv_volume c hq, fun _ _ _ hw hr hv => ⟨volinv_inside c hq hw hr hv, volinv_outside c hq hw hr hv⟩⟩

end Sys2Proof.CacheControl
end

section
/-! The part after reset (R225, R336, R430): a part to which bring-up has done nothing. -/

namespace Sys2Proof.Reset

open Sys2Proof Sys2Proof.Machine

/-- Until bring-up sets it, each die's trap ring is the unset ring, which counts as full (R220, R430). -/
theorem ring_reset (die : Nat) : State.reset.ring die = State.ringAtReset := by
  have rings : State.reset.traps.rings = List.replicate 8 State.ringAtReset := rfl
  unfold State.ring
  rw [rings, List.getElem?_replicate]
  split <;> rfl

/-- Settles O57: every list of the state is empty after reset but the list of the rings, and those are unset. -/
theorem resetIsEmpty : Obligations.ResetIsEmpty := by
  refine ⟨rfl, rfl, rfl, rfl, rfl, rfl, reset_memory_wf, fun _ => rfl, fun _ => rfl, ?rings, rfl, rfl, rfl⟩
  case rings =>
    intro die _
    rw [ring_reset]
    exact ⟨rfl, rfl, rfl, rfl⟩

end Sys2Proof.Reset
end


section
/-! Trap rings and the team-control port (R219-R227, R330): a command finds its team, its written record or its cue, and then acts on what
it has found. END_TEAM kills the cues of the team before and after it takes the team's passes from the engines, so that a kill must be
known to add no pass. -/

namespace Sys2Proof.Supervisor

open Sys2Proof Sys2Proof.Machine Sys2Proof.Laws

/-! ## Trap rings (R219, R220) -/

section
variable {s : State} {die : Nat}

theorem trapRecordWrite_writes {r : TrapRec} (hr : (s.traps.records.find? fun r => r.die = die && !r.written) = some r)
    (hroom : (s.ring die).full = false) :
    let g := s.ring die
    let m := (s.writeNow (g.base + 64 * (g.produced.toNat % g.size)) r.bytes false).updRing die fun x =>
      { x with produced := x.produced + 1 }
    exec (.trapRecordWrite die) s = .next { m with traps := { m.traps with
      records := (updWhere m.traps.records (fun x => x.sub = r.sub) fun x => { x with written := true }).filter fun x =>
        x.sub ≠ r.sub || r.kind ≤ 1
      raised := keep 0 m.traps.raised g.server (look 0 m.traps.raised g.server + 1) } } := by
  show execTrapRecordWrite die s = _
  unfold execTrapRecordWrite
  simp only [hr, hroom, Bool.false_eq_true, if_false]

theorem consumedIndexWrite_sets {v : W64} (hlo : (s.ring die).consumed ≤ v) (hhi : v ≤ (s.ring die).produced) :
    exec (.consumedIndexWrite die v) s = .next (s.updRing die fun x => { x with consumed := v }) := by
  have inside : ¬(v < (s.ring die).consumed ∨ (s.ring die).produced < v) := by
    simp only [not_or, BitVec.not_lt]
    exact ⟨hlo, hhi⟩
  show execConsumedIndexWrite die v s = _
  unfold execConsumedIndexWrite
  simp only [inside, if_false]

end

/-! ## A stopped stream that goes on (R223, R245) -/

/-- The passes of the engines, and those put away with their teams. -/
def passes (s : State) : List Pass := (s.mx.engines.map Engine.table).flatten ++ s.mx.away

/-- The stopped pass of a team at which a record stands. -/
def stoppedAt (t : Team) (r : TrapRec) (x : Pass) : Bool := x.team = t.id && x.stopped && x.hdr = r.pc && x.idx = r.idx

section
variable {s : State} {t : Team} {r : TrapRec}

theorem unstopStream_records (s : State) (t : Team) (r : TrapRec) :
    (s.unstopStream t r).traps.records = s.traps.records.filter fun x => x.sub ≠ r.sub := by
  unfold State.unstopStream
  dsimp only
  split <;> rfl

/-- Where the record names a pass, the pass and its partners run again. -/
theorem unstopStream_pass {x : Pass} (hx : (passes s).find? (stoppedAt t r) = some x) :
    ∀ y ∈ passes (s.unstopStream t r), y.id = x.id ∨ y.id ∈ x.partners → y.stopped = false := by
  have hgo : passes (s.unstopStream t r) = (passes s).map fun y =>
      if (x.id :: x.partners).contains y.id then { y with stopped := false } else y := by
    unfold passes stoppedAt at hx
    unfold passes State.unstopStream
    simp only [hx, List.map_append, List.map_flatten, List.map_map]
    rfl
  intro y hy hin
  rw [hgo] at hy
  obtain ⟨z, -, rfl⟩ := List.mem_map.1 hy
  by_cases hz : (x.id :: x.partners).contains z.id
  · rw [if_pos hz]
  · rw [if_neg hz] at hin
    exact absurd (by simpa using hin) hz

/-- Where the record names no pass, no context of the team is stopped. -/
theorem unstopStream_context (hx : (passes s).find? (stoppedAt t r) = none) :
    ∀ p ∈ (s.unstopStream t r).mx.ctxs ++ (s.unstopStream t r).mx.awayCtxs, p.team = t.id → p.st ≠ .stopped := by
  have hgo : (s.unstopStream t r).mx.ctxs ++ (s.unstopStream t r).mx.awayCtxs = (s.mx.ctxs ++ s.mx.awayCtxs).map fun p =>
      if p.team = t.id && p.st = .stopped then { p with st := .running } else p := by
    unfold passes stoppedAt at hx
    unfold State.unstopStream
    simp only [hx, List.map_append]
    rfl
  intro p hp hteam
  rw [hgo] at hp
  obtain ⟨q, -, rfl⟩ := List.mem_map.1 hp
  by_cases hq : (q.team = t.id && q.st = .stopped) = true
  · rw [if_pos hq]
    simp
  · rw [if_neg hq] at hteam ⊢
    simpa [hteam] using hq

end

/-! ## A kill adds no pass (R327) -/

theorem foldl_mx {α : Type} {f : State → α → State} (hf : ∀ s a, (f s a).mx = s.mx) (l : List α) (s : State) :
    (l.foldl f s).mx = s.mx := by
  induction l generalizing s with
  | nil => rfl
  | cons a l ih => rw [List.foldl_cons, ih, hf]

theorem writeNow_mx (s : State) (key : Nat) (d : List Byte) (nc : Bool) : (s.writeNow key d nc).mx = s.mx := by
  rw [(writeNow_touches s key d nc).rest]

theorem shootDown_mx (s : State) (n : Names) (ext core : Nat) (owner : Option Nat) (clears : Bool) :
    (s.shootDown n ext core owner clears).mx = s.mx := by
  unfold State.shootDown
  dsimp only
  split <;> rfl

theorem unmark_mx (s : State) (c : Cue) : (s.unmark c).mx = s.mx := by
  unfold State.unmark
  split
  · rfl
  · dsimp only [State.updCue]
    rw [shootDown_mx, foldl_mx fun _ _ => writeNow_mx ..]

theorem endKill_mx (s : State) (c : Cue) (f : W32) : (s.endKill c f).mx = s.mx := by
  unfold State.endKill
  dsimp only [State.updCue, State.fresh]
  rw [unmark_mx]

/-! ## END_TEAM (R222) -/

section
variable {s : State} {t : Team}

theorem killEngines_engines {e : Engine} (he : e ∈ (s.killEngines t).mx.engines) : ∀ x ∈ e.table, x.team ≠ t.id := by
  unfold State.killEngines at he
  dsimp only at he
  rw [foldl_mx fun _ _ => endKill_mx ..] at he
  obtain ⟨e0, -, rfl⟩ := List.mem_map.1 he
  intro x hx
  simpa using (List.mem_filter.1 hx).2

variable {status : Nat}

theorem endTeam_threads {u : Team} (hu : u ∈ (s.endTeam t status).teams) (hid : u.id = t.id) :
    ∀ h ∈ u.threads, h.exited = true ∧ h.wait = .ready ∧ h.held = [] ∧ h.parked = false ∧ h.absent = [] := by
  obtain ⟨v, -, rfl⟩ := List.mem_map.1 hu
  by_cases hv : v.id = t.id
  · intro h hh
    rw [if_pos (by simpa using hv)] at hh
    obtain ⟨g, -, rfl⟩ := List.mem_map.1 hh
    exact ⟨rfl, rfl, rfl, rfl, rfl⟩
  · rw [if_neg (by simpa using hv)] at hid
    exact absurd hid hv

theorem endTeam_bundles {b : Bundle} (hb : b ∈ (s.endTeam t status).bundles) : b.team ≠ t.id := by
  simpa using (List.mem_filter.1 hb).2

theorem endTeam_callees {q : Callee} (hq : q ∈ (s.endTeam t status).callees) : q.team ≠ t.id := by
  simpa using (List.mem_filter.1 hq).2

theorem endTeam_engines {e : Engine} (he : e ∈ (s.endTeam t status).mx.engines) : ∀ x ∈ e.table, x.team ≠ t.id :=
  killEngines_engines (s := s.leaveAll t.id) he

theorem endTeam_grid {g : Grid} (hg : g ∈ (s.endTeam t status).dist.grids) (hid : g.id = t.grid) : g.status = status := by
  obtain ⟨k, -, rfl⟩ := List.mem_map.1 hg
  by_cases hk : k.id = t.grid
  · rw [if_pos (by simpa using hk)]
  · rw [if_neg (by simpa using hk)] at hid
    exact absurd hid hk

end

/-! ## Resume commands (R222, R223) -/

section
variable {s : State} {die : Nat} {handle : W32} {tid : BitVec 16} {mask : W64}

theorem resume_ignored (ha : s.answered die handle tid mask = none) : exec (.resume die handle tid mask) s = .next (s.log 5 die 0 0 0) := by
  show execResume die handle tid mask s = _
  unfold execResume
  rw [ha]
  rfl

variable {t : Team} {r : TrapRec} (ha : s.answered die handle tid mask = some (t, r))
include ha

theorem resume_lanes (hk : r.kind = 0) : exec (.resume die handle tid mask) s = .next (s.resumeLanes t r false) := by
  show execResume die handle tid mask s = _
  unfold execResume
  simp only [ha, hk, Nat.zero_ne_one, if_false]

theorem resumeStepped_lanes (hk : r.kind = 0) : exec (.resumeStepped die handle tid mask) s = .next (s.resumeLanes t r true) := by
  show execResumeStepped die handle tid mask s = _
  unfold execResumeStepped
  simp only [ha, hk, Nat.zero_ne_one, if_false]

/-- The one lane of a sub-group whose instruction is not the last of its clause goes on behind it. -/
theorem skip_lane {x : Nat} {t1 : Team} {h : Thread} {w : W64} (hk : r.kind = 0) (hl : t.parkedIn r.sub = [x])
    (ht : (s.unpark t r id).team? t.id = some t1) (hx : (s.unpark t r id).thread? t.id x = some h)
    (hw : ((s.unpark t r id).fetch (t1.coreOf x) t1.asid h.priv h.pc).1 = .ok w) (hin : h.idx + 1 < (headerOf w).count) :
    exec (.skip die handle tid mask) s
      = .next (((s.unpark t r id).updLine0 t.id x fun y => y.advance (headerOf w).count).arrive t.id [x]) := by
  show execSkip die handle tid mask s = _
  unfold execSkip
  simp only [ha, hk, hl, ht, hx, hw, Nat.not_le.2 hin, Nat.zero_ne_one, if_false, List.foldl_cons, List.foldl_nil]

theorem resume_stream (hk : r.kind = 1) : exec (.resume die handle tid mask) s = .next (s.unstopStream t r) := by
  show execResume die handle tid mask s = _
  unfold execResume
  simp only [ha, hk, if_true]

theorem endTeam_ends : exec (.endTeam die handle tid mask) s = .next ((s.dropRecord r).endTeam t 0x80) := by
  show execEndTeam die handle tid mask s = _
  unfold execEndTeam
  simp only [ha]

end

/-! ## Save areas (R226, R227) -/

section
variable {s : State} {die : Nat} {handle : W32} {t : Team} (ht : s.byHandle die handle = some t)
include ht

/-- An area that is large enough, aligned and inside device memory becomes the team's, and a marked team's is the one that it has. -/
theorem saveAreaCommand_sets {size : W32} {addr : W64} (hmarked : t.marked = true → t.saveArea = some (addr.toNat, size.toNat))
    (hsize : t.saveBytes ≤ size.toNat) (halign : addr.toNat % 4096 = 0) (hend : addr.toNat + size.toNat ≤ 2 ^ 40) :
    exec (.saveAreaCommand die handle size addr) s
      = .next (s.updTeam t.id fun x => { x with saveArea := some (addr.toNat, size.toNat) }) := by
  have hsame : (t.marked && t.saveArea ≠ some (addr.toNat, size.toNat)) = false := by
    cases hm : t.marked with
    | false => rfl
    | true => simp [hmarked hm]
  show execSaveAreaCommand die handle size addr s = _
  unfold execSaveAreaCommand
  simp only [ht, hsame, Nat.not_lt.2 hsize, halign, Nat.not_lt.2 hend, ne_eq, not_true_eq_false, decide_false, Bool.or_self,
    Bool.false_eq_true, if_false]

theorem saveAreaWithdraw_takes (hm : t.marked = false) :
    exec (.saveAreaWithdraw die handle) s = .next (s.updTeam t.id fun x => { x with saveArea := none }) := by
  show execSaveAreaWithdraw die handle s = _
  unfold execSaveAreaWithdraw
  simp only [ht, hm, Bool.false_eq_true, if_false]

end

/-! ## Cue control (R330) -/

/-- State `m` with a cue of `s` that has ended as KILLED and raised flags `f`. -/
def dead (s : State) (c : Cue) (m : State) (f : W32) : State :=
  ({ m with noise := { m.noise with reqs := m.noise.reqs.filter fun r => r.who ≠ Drawer.cue c.core c.slot } }.fresh).updCue c.core c.slot
    fun x => { x with st := .killed, ended := m.nextId, progress := s.cueProgress c, flags := x.flags ||| f, counting := false,
                      killing := false }

section
variable {s : State} {c : Cue}

theorem unmark_unmarked {m : State} {d : Cue} (hd : d.marks = []) : m.unmark d = m := by
  unfold State.unmark
  simp only [hd, List.isEmpty_nil, if_true]

/-- A cue without marks that is killed ends, with the progress that it has made. -/
theorem endKill_dead {m : State} {n : Nat} (hm : c.marks = []) (hp : m.cueProgress { c with progress := n } = s.cueProgress c) (f : W32) :
    m.endKill { c with progress := n } f = dead s c m f := by
  unfold State.endKill dead
  dsimp only
  rw [unmark_unmarked, hp]
  exact hm

/-- No context runs the job of a cue that has lost it. -/
theorem dropJob_context (s : State) (core slot : Nat) :
    ((s.dropJob core slot).walk.ctxs.find? fun x => x.cue = some (core, slot)) = none := by
  rw [List.find?_eq_none]
  intro x hx
  obtain ⟨y, -, rfl⟩ := List.mem_map.1 hx
  by_cases hy : y.cue = some (core, slot)
  · simp [hy, Walker.free]
  · simp [hy]

/-- A cue that has lost its job has the progress that was noted in it. -/
theorem cueProgress_dropJob (hk : c.kind = .walker) (n : Nat) :
    (s.dropJob c.core c.slot).cueProgress { c with progress := n } = n := by
  unfold State.cueProgress
  simp only [hk, dropJob_context, Option.map_none, Option.getD_none]

theorem cueProgress_stream (hk : c.kind = .stream) (m : State) : m.cueProgress c = 0 := by
  unfold State.cueProgress
  rw [hk]

theorem rearm_cue (hc : s.cue? c.core c.slot = some c) : s.rearm c = match c.st with
    | .defined => if c.count = 0 then s.fresh.updCue c.core c.slot fun x => { x with st := .active, order := s.nextId }
                  else s.updCue c.core c.slot fun x => { x with st := .armed }
    | .faulted => if c.restartable then s.updCue c.core c.slot fun x => { x with st := .active } else s
    | _ => s := by
  unfold State.rearm State.arm
  rw [hc]
  rfl

theorem killCue_over (hst : c.st = .done ∨ c.st = .killed) : s.killCue c = s := by
  unfold State.killCue
  rcases hst with h | h <;> rw [h]

theorem killCue_insideWord (hst : c.st = .active) (hk : c.kind = .walker) (hin : s.insideWord c = true) :
    s.killCue c = s.updCue c.core c.slot fun x => { x with killing := true } := by
  unfold State.killCue
  simp only [hst, hk, hin, if_true]

theorem killCue_streamsOn (hst : c.st = .active) (hk : c.kind = .stream) (hon : (s.endStream c.core c.slot).streamsOn c = true) :
    s.killCue c = (s.endStream c.core c.slot).updCue c.core c.slot fun x => { x with killing := true } := by
  unfold State.killCue
  simp only [hst, hk, hon, if_true]

variable (hm : c.marks = [])
include hm

/-- A cue with no engine thread of its own ends at once. -/
theorem killCue_idle (hst : c.st = .defined ∨ c.st = .armed ∨ (c.st = .faulted ∧ c.kind ≠ .walker)
      ∨ (c.st = .active ∧ (c.kind = .copy ∨ c.kind = .launch))) : s.killCue c = dead s c s 0 := by
  have ends : s.endKill c 0 = dead s c s 0 := endKill_dead (n := c.progress) hm rfl 0
  rw [← ends]
  unfold State.killCue
  rcases hst with h | h | ⟨h, hk⟩ | ⟨h, hk | hk⟩
  · simp only [h]
  · simp only [h]
  · simp only [h, hk, if_false]
  · simp only [h, hk]
  · simp only [h, hk]

/-- A walker job between two instructions, or a stopped one, goes with its cue. -/
theorem killCue_job (hk : c.kind = .walker) (hst : c.st = .faulted ∨ (c.st = .active ∧ s.insideWord c = false)) :
    s.killCue c = dead s c (s.dropJob c.core c.slot) 0 := by
  have ends : (s.dropJob c.core c.slot).endKill { c with progress := s.cueProgress c } 0 = dead s c (s.dropJob c.core c.slot) 0 :=
    endKill_dead hm (cueProgress_dropJob hk _) 0
  rw [← ends]
  unfold State.killCue
  rcases hst with h | ⟨h, hout⟩
  · simp only [h, hk, if_true]
  · simp only [h, hk, hout, Bool.false_eq_true, if_false]

/-- A stream none of whose passes is posted ends with the flags that its passes have raised. -/
theorem killCue_stream (hk : c.kind = .stream) (hst : c.st = .active) (hoff : (s.endStream c.core c.slot).streamsOn c = false) :
    s.killCue c = dead s c (s.endStream c.core c.slot) (s.streamFlags c) := by
  have progress : (s.endStream c.core c.slot).cueProgress c = s.cueProgress c := by rw [cueProgress_stream hk, cueProgress_stream hk]
  have ends : (s.endStream c.core c.slot).endKill c (s.streamFlags c) = dead s c (s.endStream c.core c.slot) (s.streamFlags c) :=
    endKill_dead (n := c.progress) hm progress _
  rw [← ends]
  unfold State.killCue
  simp only [hst, hk, hoff, Bool.false_eq_true, if_false]

end

section
variable {s : State} {die : Nat} {handle id : W32} {c : Cue} (hc : s.cueNamed die handle id = some c)
include hc

theorem reArm_named : exec (.reArm die handle id) s = .next (s.rearm c) := by
  show execReArm die handle id s = _
  unfold execReArm
  rw [hc]

theorem kill_named : exec (.kill die handle id) s = .next (s.killCue c) := by
  show execKill die handle id s = _
  unfold execKill
  rw [hc]

end

/-! ## The obligation -/

/-- Settles O48: each command acts on the record, the team or the cue that it names. -/
theorem supervisorEventsComplete : Obligations.SupervisorEventsComplete := by
  intro s die handle tid mask
  refine ⟨fun r => trapRecordWrite_writes, fun v => consumedIndexWrite_sets, fun t r ha => ⟨?lanes, ?stream, ?ends⟩, resume_ignored,
    fun t size addr ht => ⟨saveAreaCommand_sets ht, saveAreaWithdraw_takes ht⟩, fun id c hn hc => ?cue⟩
  case lanes =>
    exact fun hk => ⟨resume_lanes ha hk, resumeStepped_lanes ha hk, fun x t1 h w => skip_lane ha hk⟩
  case stream =>
    refine fun hk => ⟨_, resume_stream ha hk, unstopStream_records s t r, ?_⟩
    split
    case h_1 x hx => exact unstopStream_pass hx
    case h_2 hx => exact unstopStream_context hx
  case ends =>
    exact ⟨_, endTeam_ends ha, fun u => endTeam_threads, fun b => endTeam_bundles, fun q => endTeam_callees, fun e => endTeam_engines,
      fun g => endTeam_grid⟩
  case cue =>
    dsimp only
    rw [reArm_named hn, kill_named hn, rearm_cue hc]
    exact ⟨rfl, fun h => congrArg _ (killCue_over h), fun h hk hin => congrArg _ (killCue_insideWord h hk hin),
      fun h hk hon => congrArg _ (killCue_streamsOn h hk hon), fun hm => ⟨fun h => congrArg _ (killCue_idle hm h),
        fun hk h => congrArg _ (killCue_job hm hk h), fun hk h hoff => congrArg _ (killCue_stream hm hk h hoff)⟩⟩

end Sys2Proof.Supervisor
end


section
/-! The words that become passes (R251, R252, R267-R275): each reads its operand words, and the pass with them goes behind the others of
the table where the table and the context's share of it have room. -/

namespace Sys2Proof.Posting

open Sys2Proof Sys2Proof.Machine Sys2Proof.Laws

/-- A place in the reservation table, and in a context's share of it (R252). -/
def Room (s : State) (p : Prompter) : Prop := (s.engine p.cluster).table.length < 16 ∧ (s.passesOf p.cluster p.ctx).length < 4

theorem not_room {s : State} {p : Prompter} :
    ¬Room s p ↔ 16 ≤ (s.engine p.cluster).table.length ∨ 4 ≤ (s.passesOf p.cluster p.ctx).length := by
  unfold Room
  omega

/-- A stream word that consumes no phase and waits. -/
theorem delayed_of {i : Instr} {s m : State} {p : Prompter} {t : Team} {body : Prompter → Team → State → WordEnd}
    (h : exec i s = issueWord none body s) (w : Prompts s p t) (hb : body p t s = .wait m) : exec i s = .next m := by
  have issuer : s.streamIssuer = some (p, t) := by
    unfold State.streamIssuer
    simp [w.cur, w.ctx, w.team]
  rw [h]
  unfold issueWord
  simp only [w.cur, w.settled, issuer, hb]

section
variable {s : State} {p : Prompter} {t : Team} (hp : Prompts s p t) (i : Instr) (kind : PassKind) (w : PWord) (ka kc km : Team → W64)
include hp

/-- A word that is run by `postWord` posts its pass where there is room, or waits. -/
theorem postWord_posts (h : exec i s = postWord kind w ka kc km s) :
    (Room s p → Prompted i s p (s.fresh.setEngine { s.engine p.cluster with
      table := (s.engine p.cluster).table ++ [newPass s p t kind w (ka t) (kc t) (km t)] }))
    ∧ (¬Room s p → exec i s = .next s) :=
  ⟨fun room => prompted_of h hp (if_neg fun full => not_room.2 full room), fun full => delayed_of h hp (if_pos (not_room.1 full))⟩

end

/-- Settles O38: each of the nine words is one `postWord` with its own operand words. -/
theorem passesArePosted : Obligations.PassesArePosted := by
  intro w s p t hp
  have posts := postWord_posts hp
  let at_ : Team → W64 := placeK w.kind w.ka
  let none_ : Team → W64 := fun _ => 0
  exact ⟨posts (.mma w) .mma w at_ (wordK w.kc) (wordK w.km) rfl,
    posts (.mmac w) .mmac w at_ (wordK w.kc) (wordK w.km) rfl,
    posts (.mzero w) .mzero w none_ (wordK w.kc) none_ rfl,
    posts (.mstc w) .mstc w at_ (wordK w.kc) (wordK w.km) rfl,
    posts (.mturn w) .mturn w at_ (placeK (bitsOf w.md.toNat 2 2) w.kc) (wordK w.km) rfl,
    posts (.mdrain w) .mdrain w (pairK w.ka) (wordK w.kc) (pairK w.km) rfl,
    posts (.msave w) .msave w (pairK w.ka) (wordK w.kc) none_ rfl,
    posts (.mload w) .mload w (pairK w.ka) (wordK w.kc) none_ rfl,
    posts (.mepi w) .mepi w at_ (wordK w.kc) (wordK w.km) rfl⟩

end Sys2Proof.Posting
end


section
/-! Cue starts, completions and faults, walker slots, loads and job starts, and the passes of the matrix engines (R245, R252, R253, R255,
R287, R290, R294, R315, R317, R330). What a grant and a stop leave of a pass is read off the reservation table of its engine; a stop
goes through the members of a chain in turn, so that each fact about it is made by one member and kept by the others. -/

namespace Sys2Proof.EngineEvents

open Sys2Proof Sys2Proof.Machine Sys2Proof.Laws

/-! ## Cues (R315, R317, R330) -/

theorem cue_place {s : State} {core slot : Nat} {c : Cue} (h : s.cue? core slot = some c) : c.core = core ∧ c.slot = slot := by
  have := List.find?_some h
  simpa using this

/-- The state in which a cue has begun. -/
def begun (c : Cue) (m : State) : State := m.updCue c.core c.slot fun y => { y with started := true }

/-- How a cue of a kind begins. -/
def startOf : CueKind → State → Cue → CueStep
  | .copy => startCopy
  | .walker => startWalker
  | .launch => startLaunch
  | .stream => startStreamCue

section
variable {s : State} {c : Cue}

/-- An ACTIVE cue that has not begun, of a team that is there, begins as its kind does. -/
theorem startStep_active {t : Team} (hst : c.st = .active) (hs : c.started = false) (ht : s.team? c.team = some t)
    (hr : t.removed = false) : s.startStep c = startOf c.kind s c := by
  unfold State.startStep
  simp only [hst, hs, ht, hr, ne_eq, not_true_eq_false, decide_false, Option.map_some, Option.getD_some, Bool.or_self,
    Bool.false_eq_true, if_false]
  cases c.kind <;> rfl

theorem startCopy_unmarked (hshoot : c.shoot = none) (hmarks : c.transits = ([], [])) : startCopy s c = .did (begun c s) := by
  unfold startCopy
  simp only [hshoot, hmarks, List.isEmpty_nil, Bool.and_self, if_true]
  rfl

theorem startWalker_joins {b : List Byte} {s1 : State} (hfirst : (s.cues.any fun x => x.kind = .walker && x.st = .active && !x.started &&
      x.cluster = c.cluster && x.order < c.order) = false) (hread : engReadLong s c.unit c.asid c.recA 4 = .got b s1) :
    startWalker s c = .did (begun c { s1 with walk := { s1.walk with jobs := s1.walk.jobs ++
      [{ cluster := c.cluster, ctx := fieldOf b 13 1 % 4, core := c.core, slot := c.slot, record := b, saved := false }] } }) := by
  unfold startWalker
  simp only [hfirst, hread, Bool.false_eq_true, if_false]
  rfl

theorem startLaunch_enqueues {b : List Byte} {s1 : State} (hroom : s.taskRoom (coreDie c.core) = true)
    (hread : engReadLong s c.unit c.asid c.recA 4 = .got b s1) :
    startLaunch s c = .did (begun c (s1.enqueue
      { die := coreDie c.core, addr := c.recA, asid := c.asid, bytes := b, origin := .cue c.core c.slot c.gen, cls := c.cls })) := by
  unfold startLaunch
  simp only [hroom, hread, Bool.not_true, Bool.false_eq_true, if_false]
  rfl

theorem startStreamCue_runs {t : Team} {p : Prompter} (ht : s.team? c.team = some t) (hp : s.context? t = some p) (hidle : p.st = .idle) :
    startStreamCue s c = .did (begun c (s.startStream p c.recA (some (c.core, c.slot)))) := by
  unfold startStreamCue
  simp only [ht, hp, Option.bind_some, Prompter.busy, hidle, ne_eq, not_true_eq_false, decide_false, Bool.false_eq_true, if_false]
  rfl

variable (hc : s.cue? c.core c.slot = some c)
include hc

theorem cueStart_did {m : State} (h : s.startStep c = .did m) : exec (.cueStart c.core c.slot) s = .next m := by
  show execCueStart c.core c.slot s = _
  unfold execCueStart
  simp only [hc, h]

/-- A cue that has performed everything increments its counter and is DONE; its successors count one less. -/
theorem cueCompletion_did {p : Part} {ps : List Part} {m : State} (hst : c.st = .active) (hperf : c.performed = true)
    (hreach : engReach s c.unit c.asid c.counter 8 .rmw c.marks = .got (p :: ps) m) :
    let v := (m.peekLe p.key 8 + 1) % 2 ^ 64
    let m2 := (m.writeNow p.key (toBytes 8 v) ((p :: ps).any Part.nc)).noteJoin
      { key := p.key, value := v, team := c.team, core := c.core, scope := c.scope, flags := c.flags }
    let m3 := (m2.unmark c).fresh.updCue c.core c.slot fun y => { y with st := .done, ended := s.nextId }
    exec (.cueCompletion c.core c.slot) s = .next (c.edges.foldl (fun s e => s.decrement e.1 e.2.1 e.2.2) m3) := by
  show execCueCompletion c.core c.slot s = _
  unfold execCueCompletion State.completeStep
  simp only [hc, hst, hperf, hreach, ne_eq, not_true_eq_false, decide_false, Bool.not_true, Bool.or_self, Bool.false_eq_true, if_false]
  rfl

theorem cueFault_start {x : Stop} {r : Bool} {m : State} (h : s.startStep c = .fault x r m) :
    exec (.cueFault c.core c.slot) s = .next (m.faultCue c x r) := by
  show execCueFault c.core c.slot s = _
  unfold execCueFault
  simp only [hc, h]

end

/-! ## Walkers (R287, R290, R294) -/

section
variable {s : State} {cluster ctx : Nat}

theorem slotRotation_passes (h : 256 ≤ look 0 s.walk.issued cluster) :
    exec (.walkerSlotRotation cluster) s = .next (s.passSlot cluster) := if_pos h

theorem loadReturn_register {c : Walker} {d pa len va : Nat} (hc : s.walker? cluster ctx = some c) (hw : c.wait = .load d pa len va) :
    let r := s.fetchLine c pa va
    exec (.walkerLoadReturn cluster ctx) s = .next (r.1.setWalker
      { r.2 with w := keep 0 r.2.w d (BitVec.ofNat 32 (r.2.arrived pa len)), wait := .none }) := by
  show execWalkerLoadReturn cluster ctx s = _
  unfold execWalkerLoadReturn
  simp only [hc, hw]
  rfl

theorem loadReturn_elements {c : Walker} {l : List (Nat × Nat)} (hc : s.walker? cluster ctx = some c) (hw : c.wait = .elements l) :
    let r := l.foldl (fun a x => a.1.fetchLine a.2 x.1 x.2) (s, c)
    exec (.walkerLoadReturn cluster ctx) s = .next (r.1.setWalker { r.2 with wait := .none }) := by
  show execWalkerLoadReturn cluster ctx s = _
  unfold execWalkerLoadReturn
  simp only [hc, hw]

/-- The state in which a context has taken a job out of its line. -/
def taken (s : State) (j : JobLine) (w : Walker) : State :=
  { s with walk := { s.walk with jobs := s.walk.jobs.filter fun x => !(x.core = j.core && x.slot = j.slot) } }.putWalker w

/-- A free context that can load the job that is next starts it. -/
theorem jobStart_loads {j : JobLine} {q : Cue} {c : Walker} {m : State} (hfree : ((s.walker? cluster ctx).map Walker.running).getD false = false)
    (hj : s.nextJob cluster ctx = some j) (hq : s.cue? j.core j.slot = some q) (hlegal : jobLegal j.record = true)
    (hload : (Walker.start j q cluster ctx).load (taken s j (Walker.start j q cluster ctx)) = .got c m) :
    exec (.walkerJobStart cluster ctx) s = .next (m.setWalker c) := by
  unfold taken at hload
  show execWalkerJobStart cluster ctx s = _
  unfold execWalkerJobStart
  simp only [hfree, hj, hq, hlegal, hload, Bool.not_true, Bool.false_eq_true, if_false]

variable {c : Walker} {prog : List (Nat × W32)} {m : State}
    (hprog : loadProgram s (clusterUnit c.cluster) c.asid c.job.program 0 [] c.job.len = .got prog m)
include hprog

theorem load_new (hs : c.stored = false) : c.load s = .got { c with prog := prog } m := by
  unfold Walker.load
  simp only [hprog, hs, Bool.not_false, if_true]

theorem load_saved {b : List Byte} {m1 : State} (hs : c.stored = true)
    (hread : engReadLong m (clusterUnit c.cluster) c.asid c.job.save 514 = .got b m1) :
    c.load s = .got (({ c with prog := prog } : Walker).restored b) m1 := by
  unfold Walker.load
  simp only [hprog, hs, hread, Bool.not_true, Bool.false_eq_true, if_false]

end

/-! ## Engines and their tables -/

section
variable {s : State}

theorem engine_cluster (s : State) (k : Nat) : (s.engine k).cluster = k := by
  unfold State.engine
  cases h : s.mx.engines.find? fun e => e.cluster = k with
  | none => rfl
  | some e => simpa using List.find?_some h

theorem engine_congr {m : State} (h : m.mx = s.mx) (k : Nat) : m.engine k = s.engine k := by
  unfold State.engine
  rw [h]

theorem engine_setEngine (s : State) (e : Engine) (k : Nat) : (s.setEngine e).engine k = if e.cluster = k then e else s.engine k := by
  unfold State.engine State.setEngine
  by_cases he : e.cluster = k
  · simp [he]
  · have other : ((s.mx.engines.filter fun x => x.cluster ≠ e.cluster).find? fun x => x.cluster = k)
        = s.mx.engines.find? fun x => x.cluster = k := by
      rw [List.find?_filter]
      congr 1
      funext x
      by_cases hx : x.cluster = k
      · simp [hx, Ne.symm he]
      · simp [hx]
    simp only [List.find?_cons, he, decide_false, other, if_false]

theorem table_updPass (s : State) (k id : Nat) (f : Pass → Pass) :
    ((s.updPass k id f).engine k).table = updWhere (s.engine k).table (fun x => x.id = id) f := by
  unfold State.updPass
  rw [engine_setEngine, engine_cluster, if_pos rfl]

theorem table_updPass_other {k l : Nat} (h : k ≠ l) (id : Nat) (f : Pass → Pass) :
    ((s.updPass k id f).engine l).table = (s.engine l).table := by
  unfold State.updPass
  rw [engine_setEngine, engine_cluster, if_neg h]

/-- An entry of a table in which a pass has changed is that pass, changed, or another one as it was. -/
theorem mem_updWhere_id {l : List Pass} {id : Nat} {f : Pass → Pass} {z : Pass} (hz : z ∈ updWhere l (fun x => x.id = id) f) :
    (∃ y, y.id = id ∧ z = f y) ∨ (z.id ≠ id ∧ z ∈ l) := by
  obtain ⟨y, hy, rfl⟩ := List.mem_map.1 hz
  by_cases h : y.id = id
  · exact .inl ⟨y, h, by simp [h]⟩
  · exact .inr (by simp [h, hy])

end

/-! ## Grants (R245, R252) -/

theorem passAging_ages (s : State) (cluster : Nat) : exec (.passAging cluster) s = .next (s.agePasses cluster) := rfl

theorem consumePasses_time (s : State) (k c : Nat) : (s.consumePasses k c).time = s.time := by
  unfold State.consumePasses
  split
  · split
    · rfl
    · split <;> rfl
  · rfl

theorem consumeAll_time (l : List Nat) (s : State) (k : Nat) : (l.foldl (fun s c => s.consumePasses k c) s).time = s.time := by
  induction l generalizing s with
  | nil => rfl
  | cons c l ih => rw [List.foldl_cons, ih, consumePasses_time]

theorem consumed_time {s s1 : State} {cluster : Nat}
    (hs : (List.range 8).foldl (fun s c => s.consumePasses cluster c) (s.agePasses cluster) = s1) : s1.time = s.time := by
  rw [← hs, consumeAll_time]
  rfl

theorem reserve_time (s : State) (k : Nat) (x : Pass) : (s.reserve k x).time = s.time := rfl

/-- A member of a chain stands in a cluster of the chain. -/
theorem matching_cluster {s : State} {x : Pass} {l : List (Nat × Team)} {ms : List (Nat × Prompter × Team × Pass)}
    (h : s.matching x l = some ms) {m : Nat × Prompter × Team × Pass} (hm : m ∈ ms) : m.1 ∈ l.map Prod.fst := by
  unfold State.matching at h
  dsimp only at h
  split at h
  · cases h
    obtain ⟨k, hk, hf⟩ := List.mem_filterMap.1 hm
    refine List.mem_map.2 ⟨k, hk, ?_⟩
    split at hf
    · cases hf
    · split at hf
      · split at hf
        · cases hf
          rfl
        · cases hf
      · cases hf
  · cases h

/-- A pass without partners whose engine is kept for it takes the engine. -/
theorem passGrant_starts {s s1 : State} {cluster : Nat} {x : Pass} {t : Team} {m : Nat × Prompter × Team × Pass}
    (hs : (List.range 8).foldl (fun s c => s.consumePasses cluster c) (s.agePasses cluster) = s1) (hfree : (s1.engine cluster).busy = false)
    (hx : s1.nextPass cluster = some x) (ht : s1.team? x.team = some t) (hchain : s1.chain cluster t x = some [(cluster, t)])
    (hm : (s1.reserve cluster x).matching x [(cluster, t)] = some [m]) (hy : m.2.2.2 = { x with reserved := true })
    (hbusy : ((s1.reserve cluster x).engine m.1).busy = false) (hgood : (s1.reserve cluster x).firstBad [m] = none) :
    exec (.passGrant cluster) s = .next ((s1.reserve cluster x).startPass m true [m.2.2.2.id]) := by
  have all : (s1.reserve cluster x).grantAll x [m] = (s1.reserve cluster x).startPass m true [m.2.2.2.id] := by
    unfold State.grantAll
    simp [hgood, hy, Pass.fmtA, Pass.count]
  show execPassGrant cluster s = _
  unfold execPassGrant
  simp only [hs, hfree, hx, ht, hchain, hm, Bool.false_eq_true, if_false]
  rw [if_neg (by simp [hbusy, hy]), all]

section
variable {s : State} {k : Nat} {p : Prompter} {t : Team} {y z : Pass} {ids : List Nat}

/-- A pass that has latched before runs again as it stands. -/
theorem startPass_again (hl : y.latched = true) (hz : z ∈ ((s.startPass (k, p, t, y) true ids).engine k).table) (hid : z.id = y.id) :
    z.granted = true ∧ z.reserved = false ∧ z.grantedAt = s.time := by
  unfold State.startPass at hz
  simp only [hl, if_true, table_updPass] at hz
  rcases mem_updWhere_id hz with ⟨w, -, rfl⟩ | ⟨other, -⟩
  · exact ⟨rfl, rfl, rfl⟩
  · exact absurd hid other

/-- A pass that is granted for the first time latches the slot and starts at MPROG. -/
theorem startPass_latches (hl : y.latched = false) (hz : z ∈ ((s.startPass (k, p, t, y) true ids).engine k).table) (hid : z.id = y.id) :
    z = { y with
      granted := true, reserved := false, latched := true, weights := if y.isMul then p.slot else none,
      codebook := if y.isMul then p.codebook.getD [] else [], row := p.mprog, partners := ids,
      fromLatch := y.isMul && (match (s.engine k).reuse with
        | some r => decide (r.ctx = y.ctx)
        | none => false),
      capture := y.isMul && decide (y.word.ru = 1) && (s.engine k).reuse.isNone, grantedAt := s.time } := by
  unfold State.startPass at hz
  simp only [hl, Bool.false_eq_true, if_false, engine_setEngine, engine_cluster, if_true] at hz
  rcases mem_updWhere_id hz with ⟨w, -, rfl⟩ | ⟨other, -⟩
  · rfl
  · exact absurd hid other

end

/-! ## Completion (R253) -/

theorem passCompletion_completes {s : State} {cluster : Nat} {x : Pass} {p : Prompter}
    (hx : ((s.engine cluster).table.find? fun x => x.finished && decide (((s.passesOf cluster x.ctx)[0]?).map Pass.id = some x.id)) = some x)
    (hp : (s.mx.ctxs.find? fun p => p.cluster = cluster && p.ctx = x.ctx) = some p) :
    let m := (s.setEngine { s.engine cluster with table := (s.engine cluster).table.filter fun y => y.id ≠ x.id }).updContext cluster x.ctx
      fun q => { q with flags := p.flags ||| x.flags }
    exec (.passCompletion cluster) s = .next ((if x.word.sb = 15 then m
      else m.signal x.team x.word.sb.toNat (p.flags ||| x.flags)).settleIdle cluster x.ctx) := by
  show execPassCompletion cluster s = _
  unfold execPassCompletion
  simp only [hx, hp]

/-! ## Stops (R245, R255) -/

/-- All passes of a number in an engine have stopped. -/
def Halted (s : State) (k id : Nat) : Prop :=
  ∀ z ∈ (s.engine k).table, z.id = id → z.stopped = true ∧ z.halted = true ∧ z.granted = false

/-- A pass that stops (R252, R255). -/
def haltedPass (now : Nat) (y : Pass) : Pass :=
  { y with stopped := true, halted := true, granted := false, reserved := false,
           posted := if y.granted then y.posted + (now - y.grantedAt) else y.posted }

/-- MPROG at the row of a member that stops, but for MLOAD (R255). -/
def markRow (s : State) (k : Nat × Team × Pass) : State :=
  if k.2.2.kind = .mload then s else s.updContext k.1 k.2.2.ctx fun q => { q with mprog := k.2.2.row }

theorem markRow_engine (s : State) (k : Nat × Team × Pass) (l : Nat) : (markRow s k).engine l = s.engine l := by
  unfold markRow
  split <;> rfl

theorem markRow_traps (s : State) (k : Nat × Team × Pass) : (markRow s k).traps = s.traps := by
  unfold markRow
  split <;> rfl

/-- One member of a chain stops, with MPROG at its row. -/
def haltMember (e : Stop) (i : Nat) (s : State) (k : Nat × Team × Pass) (told : Bool) : State :=
  (markRow s k).stopPass k.1 k.2.1 k.2.2 e i told

/-- Members stop in turn; that which is the running pass writes the record. -/
def haltAll (e : Stop) (i : Nat) (x : Pass) (l : List (Nat × Team × Pass)) (s : State) : State :=
  l.foldl (fun s k => haltMember e i s k (k.2.2.id = x.id)) s

/-- The passes that stop with a running one: its chain, or itself. -/
def haltedWith (s : State) (cluster : Nat) (t : Team) (x : Pass) : List (Nat × Team × Pass) :=
  if x.isMul then (s.runners x).getD [] else [(cluster, t, x)]

theorem haltPass_eq_haltAll (s : State) (cluster : Nat) (t : Team) (x : Pass) (e : Stop) :
    ∃ i, s.haltPass cluster t x e = haltAll e i x (haltedWith s cluster t x) s := by
  unfold State.haltPass haltedWith
  refine ⟨((s.runners x).getD []).foldl (fun n m => min n m.2.2.row) x.row, ?_⟩
  split
  · rfl
  · simp [haltAll, haltMember, markRow]

section
variable {s : State} {e : Stop} {i : Nat} {k : Nat × Team × Pass} {told : Bool}

theorem haltMember_mx (s : State) :
    (haltMember e i s k told).mx = ((markRow s k).updPass k.1 k.2.2.id (haltedPass (markRow s k).time)).mx := by
  unfold haltMember State.stopPass
  cases told <;> rfl

/-- An entry of a table after a member has stopped is that member, or another pass as it was. -/
theorem mem_haltMember {l : Nat} {z : Pass} (hz : z ∈ ((haltMember e i s k told).engine l).table) :
    (z.stopped = true ∧ z.halted = true ∧ z.granted = false) ∨ ((l = k.1 → z.id ≠ k.2.2.id) ∧ z ∈ (s.engine l).table) := by
  rw [engine_congr (haltMember_mx s)] at hz
  by_cases hl : k.1 = l
  · subst hl
    rw [table_updPass, markRow_engine] at hz
    rcases mem_updWhere_id hz with ⟨y, -, rfl⟩ | ⟨other, old⟩
    · exact .inl ⟨rfl, rfl, rfl⟩
    · exact .inr ⟨fun _ => other, old⟩
  · rw [table_updPass_other hl, markRow_engine] at hz
    exact .inr ⟨fun h => absurd h.symm hl, hz⟩

theorem haltMember_halts (s : State) : Halted (haltMember e i s k told) k.1 k.2.2.id := by
  intro z hz hid
  rcases mem_haltMember hz with done | ⟨other, -⟩
  · exact done
  · exact absurd hid (other rfl)

theorem haltMember_keeps_halted {l id : Nat} (h : Halted s l id) : Halted (haltMember e i s k told) l id := by
  intro z hz hid
  rcases mem_haltMember hz with done | ⟨-, old⟩
  · exact done
  · exact h z old hid

theorem haltMember_mprog (h : k.2.2.kind ≠ .mload) {q : Prompter} (hq : q ∈ (haltMember e i s k told).mx.ctxs) (hk : q.cluster = k.1)
    (hctx : q.ctx = k.2.2.ctx) : q.mprog = k.2.2.row := by
  rw [haltMember_mx] at hq
  unfold markRow at hq
  rw [if_neg h] at hq
  obtain ⟨q0, -, rfl⟩ := List.mem_map.1 hq
  by_cases own : (q0.cluster = k.1 && q0.ctx = k.2.2.ctx) = true
  · rw [if_pos own]
  · rw [if_neg own] at hk hctx
    exact absurd (by simp [hk, hctx]) own

/-- The record of a pass that has stopped and told so (R219). -/
def Told (s : State) (k : Nat × Team × Pass) (e : Stop) : Prop :=
  ∃ r ∈ s.traps.records, r.kind = 1 ∧ r.team = k.2.1.id ∧ r.code = e.code ∧ r.pc = k.2.2.hdr ∧ r.idx = k.2.2.idx ∧ r.va = e.va
    ∧ r.written = false

theorem haltMember_tells (s : State) : Told (haltMember e i s k true) k e :=
  ⟨_, List.mem_append_right _ (List.mem_singleton_self _), rfl, rfl, rfl, rfl, rfl, rfl, rfl⟩

theorem haltMember_keeps_told {j : Nat × Team × Pass} (h : Told s j e) : Told (haltMember e i s k told) j e := by
  obtain ⟨r, hr, facts⟩ := h
  refine ⟨r, ?_, facts⟩
  unfold haltMember State.stopPass
  cases told
  · exact (markRow_traps s k).symm ▸ hr
  · exact List.mem_append_left _ ((markRow_traps s k).symm ▸ hr)

end

/-- What one turn makes, and every turn keeps, holds after all turns. -/
theorem foldl_makes {α : Type} {P : State → Prop} {f : State → α → State} {l : List α} {a : α} (ha : a ∈ l) (makes : ∀ s, P (f s a))
    (keeps : ∀ s b, P s → P (f s b)) (s : State) : P (l.foldl f s) := by
  induction l generalizing s with
  | nil => cases ha
  | cons b l ih =>
    rw [List.foldl_cons]
    rcases List.mem_cons.1 ha with rfl | hl
    · exact List.foldlRecOn l f (makes s) fun m hm c _ => keeps m c hm
    · exact ih hl (f s b)

/-- A running pass that cannot do its row stops there with its chain. -/
theorem passStop_halts {s m : State} {cluster : Nat} {x : Pass} {p : Prompter} {t : Team} {e : Stop}
    (hrun : s.runningPass cluster = some (x, p, t)) (hrow : rowStep x p t cluster s = .stop e m) :
    exec (.passStop cluster) s = .next (m.haltPass cluster t x e) := by
  show execPassStop cluster s = _
  unfold execPassStop
  simp only [hrun, hrow]

section
variable {s : State} {e : Stop} {i : Nat} {x : Pass} {l : List (Nat × Team × Pass)} {k : Nat × Team × Pass} (hk : k ∈ l)
include hk

theorem haltAll_halts : Halted (haltAll e i x l s) k.1 k.2.2.id :=
  foldl_makes (P := fun s => Halted s k.1 k.2.2.id) hk haltMember_halts (fun _ _ => haltMember_keeps_halted) s

theorem haltAll_tells (hid : k.2.2.id = x.id) : Told (haltAll e i x l s) k e :=
  foldl_makes (P := fun s => Told s k e) hk (fun s => by simpa [hid] using haltMember_tells s) (fun _ _ => haltMember_keeps_told) s

end

/-- Settles O50: each event does what its rule says once nothing keeps it. -/
theorem engineEventsComplete : Obligations.EngineEventsComplete := by
  intro s cluster
  refine ⟨fun core slot c hc => ?cues, slotRotation_passes, fun c hc => ⟨fun d pa len va => loadReturn_register hc,
    fun l => loadReturn_elements hc⟩, fun ctx j q prog m hfree hj hq hlegal hprog => ?jobs, passAging_ages s cluster, ?grant,
    fun x p hx hp => passCompletion_completes hx hp, fun x p t e m hrun hrow => ?stop⟩
  case cues =>
    obtain ⟨rfl, rfl⟩ := cue_place hc
    refine ⟨fun m => cueStart_did hc, fun t hst hs ht hr => ?starts, fun p ps m => cueCompletion_did hc, fun x r m => cueFault_start hc⟩
    have begins {k : CueKind} {m : State} (hk : c.kind = k) (h : startOf k s c = .did m) :
        exec (.cueStart c.core c.slot) s = .next m := cueStart_did hc (by rw [startStep_active hst hs ht hr, hk, h])
    exact ⟨fun hk hshoot hmarks => begins hk (startCopy_unmarked hshoot hmarks),
      fun b s1 hk hfirst hread => begins hk (startWalker_joins hfirst hread),
      fun b s1 hk hroom hread => begins hk (startLaunch_enqueues hroom hread),
      fun p hk hp hidle => begins hk (startStreamCue_runs ht hp hidle)⟩
  case jobs =>
    exact ⟨fun hs => jobStart_loads hfree hj hq hlegal (load_new hprog hs),
      fun b m1 hs hread => jobStart_loads hfree hj hq hlegal (load_saved hprog hs hread)⟩
  case grant =>
    intro x t m s1 hfree hx ht hchain s2 hm hy hbusy hgood
    -- Both states are named and then opaque, so that nothing below computes the eight contexts.
    have hs : (List.range 8).foldl (fun s c => s.consumePasses cluster c) (s.agePasses cluster) = s1 := rfl
    have hs2 : s1.reserve cluster x = s2 := rfl
    clear_value s1 s2
    have time : s2.time = s.time := by rw [← hs2, reserve_time, consumed_time hs]
    subst hs2
    refine ⟨passGrant_starts hs hfree hx ht hchain hm hy hbusy hgood, ?_⟩
    have hk : m.1 = cluster := by simpa using matching_cluster hm (List.mem_singleton_self m)
    obtain ⟨k, p, u, y⟩ := m
    obtain rfl : k = cluster := hk
    obtain rfl : y = { x with reserved := true } := hy
    intro z hz hid
    rw [← time]
    cases hl : x.latched with
    | true =>
      obtain ⟨granted, reserved, at_⟩ := startPass_again (t := u) hl hz hid
      exact ⟨granted, reserved, at_, fun h => by cases h⟩
    | false =>
      obtain rfl := startPass_latches (t := u) hl hz hid
      exact ⟨rfl, rfl, rfl, fun _ => rfl⟩
  case stop =>
    obtain ⟨i, hi⟩ := haltPass_eq_haltAll m cluster t x e
    refine ⟨_, passStop_halts hrun hrow, ?_⟩
    rw [hi]
    refine ⟨fun k hk => haltAll_halts hk, fun hl hload q hq hqk hqc => ?_, fun k hk hid => haltAll_tells hk hid⟩
    rw [show haltedWith m cluster t x = [(cluster, t, x)] from hl] at hq
    exact haltMember_mprog hload hq hqk hqc

end Sys2Proof.EngineEvents
end


section
/-! The words of a stream that its context executes itself (R260, R263-R266, R276-R280): where a word leaves the context once its phase has
been consumed; what each control word does; and a load whose walker buffer lies in the cluster that the team was in before its return. -/

namespace Sys2Proof.Streams

open Sys2Proof Sys2Proof.Machine Sys2Proof.Laws

/-! ## Running a word (R260) -/

/-- The part after a word of a context has come to its end. -/
def landing (p : Prompter) (t : Team) : WordEnd → State
  | .done m => m.updContext p.cluster p.ctx Prompter.advance
  | .wait m => m
  | .stop x m => m.streamStop p t x
  | .illegal m => m.streamIllegal p t
  | .jump h m => m.updContext p.cluster p.ctx fun y => { y with hdr := h, idx := 0, count := 0, wbDone := false }

section
variable {s m : State} {p q : Prompter} {t : Team} {body : Prompter → Team → State → WordEnd} {wb : Nat} (hp : Prompts s p t)
include hp

theorem streamIssuer_of_prompts : s.streamIssuer = some (p, t) := by
  unfold State.streamIssuer
  simp [hp.cur, hp.ctx, hp.team]

theorem issueWord_none : issueWord none body s = .next (landing p t (body p t s)) := by
  unfold issueWord
  simp only [hp.cur, hp.settled, streamIssuer_of_prompts hp]
  cases body p t s <;> rfl

/-- A word whose phase is consumed runs with the context and in the state that the consumption leaves. -/
theorem issueWord_phased (hq : Phased s p t wb q m) : issueWord (some wb) body s = .next (landing q t (body q t m)) := by
  unfold issueWord
  simp only [hp.cur, hp.settled, streamIssuer_of_prompts hp]
  obtain ⟨hnone, rfl, rfl⟩ | ⟨hwb, hdone, hready, rfl, rfl⟩ := hq
  · rw [if_pos hnone]
    cases body q t m <;> rfl
  · have unconsumed : ¬(wb = 15 ∨ p.wbDone = true) := by simp [hwb, hdone]
    have ready : p.phaseReady t wb = true := decide_eq_true hready
    rw [if_neg unconsumed, if_pos ready]
    unfold Prompter.consume
    generalize body _ t _ = e
    cases e <;> rfl

theorem issueWord_waits (hwb : wb ≠ 15) (hdone : p.wbDone = false)
    (hnot : (t.barrier wb).phase.toNat ≤ (look 0 p.consumed wb).toNat) : issueWord (some wb) body s = .next s := by
  have unconsumed : ¬(wb = 15 ∨ p.wbDone = true) := by simp [hwb, hdone]
  have unready : ¬p.phaseReady t wb = true := by simpa [Prompter.phaseReady] using hnot
  unfold issueWord
  simp only [hp.cur, hp.settled, streamIssuer_of_prompts hp]
  rw [if_neg unconsumed, if_neg unready]

end

theorem phased_place {s m : State} {p q : Prompter} {t : Team} {wb : Nat} (hq : Phased s p t wb q m) :
    q.cluster = p.cluster ∧ q.ctx = p.ctx := by
  obtain ⟨-, rfl, -⟩ | ⟨-, -, -, rfl, -⟩ := hq
  · exact ⟨rfl, rfl⟩
  · exact ⟨rfl, rfl⟩

section
variable {i : Instr} {s m m1 : State} {p q : Prompter} {t : Team} {body : Prompter → Team → State → WordEnd}

/-- A stream word that is done once its phase is consumed. -/
theorem prompted_of_phased {wb : Nat} (h : exec i s = issueWord (some wb) body s) (hp : Prompts s p t) (hq : Phased s p t wb q m)
    (hb : body q t m = .done m1) : Prompted i s p m1 := by
  obtain ⟨hcluster, hctx⟩ := phased_place hq
  unfold Prompted
  rw [h, issueWord_phased hp hq, hb, landing, hcluster, hctx]

/-! ## Transfers (R279) -/

/-- A class-2 header at an address, as a context of the team reads it (R50). -/
def HeaderAt (s : State) (p : Prompter) (t : Team) (va : W64) : Prop :=
  ∃ x, (s.fetch (clusterUnit p.cluster) t.asid false va).1 = .ok x ∧ isHeader x = true ∧ (headerOf x).cls = 2

theorem streamJump_header {w : PWord} {act : State → State} (h : HeaderAt s p t (p.hdr + w.off32.signExtend 64)) :
    streamJump w p t s act = .jump (p.hdr + w.off32.signExtend 64) (act s) := by
  obtain ⟨x, hx, hheader, hcls⟩ := h
  unfold streamJump
  simp [hx, hheader, hcls]

/-- A stream word that goes on at another header. -/
theorem exec_of_jump {hdr : W64} (h : exec i s = issueWord none body s) (hp : Prompts s p t) (hb : body p t s = .jump hdr m) :
    exec i s = .next (m.updContext p.cluster p.ctx fun y => { y with hdr := hdr, idx := 0, count := 0, wbDone := false }) := by
  rw [h, issueWord_none hp, hb, landing]

end

/-! ## What runs each word -/

section
variable (w : PWord) (s : State)

theorem exec_mldw : exec (.mldw w) s = execMldw w s := rfl
theorem exec_mnop : exec (.mnop w) s = execMnop w s := rfl
theorem exec_mwait : exec (.mwait w) s = execMwait w s := rfl
theorem exec_msig : exec (.msig w) s = execMsig w s := rfl
theorem exec_mqcfg : exec (.mqcfg w) s = execMqcfg w s := rfl
theorem exec_mprog : exec (.mprog w) s = execMprog w s := rfl
theorem exec_mjmp : exec (.mjmp w) s = execMjmp w s := rfl
theorem exec_mloop : exec (.mloop w) s = execMloop w s := rfl
theorem exec_mend : exec (.mend w) s = execMend w s := rfl
theorem exec_mkadd : exec (.mkadd w) s = execMkadd w s := rfl

end

/-! ## The words of R276-R280 -/

section
variable {s m : State} {p q : Prompter} {t : Team} (w : PWord) (hp : Prompts s p t)
include hp

theorem msig_prompted (hq : Phased s p t w.wb.toNat q m) (hpast : m.passesOf p.cluster p.ctx = []) :
    (w.sb = 15 → Prompted (.msig w) s p m) ∧ (w.sb ≠ 15 → Prompted (.msig w) s p (m.signal t.id w.sb.toNat q.flags)) := by
  obtain ⟨hcluster, hctx⟩ := phased_place hq
  have past : ¬(!(m.passesOf q.cluster q.ctx).isEmpty) = true := by simp [hcluster, hctx, hpast]
  exact ⟨fun hsb => prompted_of_phased (exec_msig w s) hp hq ((if_neg past).trans (if_pos hsb)),
    fun hsb => prompted_of_phased (exec_msig w s) hp hq ((if_neg past).trans (if_neg hsb))⟩

theorem mprog_reads (hmd : w.md = 0) : Prompted (.mprog w) s p (s.updTeam t.id fun u => u.setK w.ka.toNat (BitVec.ofNat 32 p.mprog)) :=
  prompted_of (exec_mprog w s) hp (if_pos hmd)

theorem mprog_writes (hmd : w.md ≠ 0) (hpast : s.passesOf p.cluster p.ctx = []) :
    Prompted (.mprog w) s p (s.updContext p.cluster p.ctx fun y => { y with mprog := (t.kreg w.ka.toNat).toNat }) :=
  prompted_of (exec_mprog w s) hp ((if_neg hmd).trans (if_neg (by simp [hpast])))

theorem mloop_ends (hk : t.kreg (bitsOf w.md.toNat 0 6) = 0) : Prompted (.mloop w) s p s :=
  prompted_of (exec_mloop w s) hp (if_pos hk)

/-- A loop that is not at its end counts down and goes on at its header. -/
theorem mloop_repeats (hk : t.kreg (bitsOf w.md.toNat 0 6) ≠ 0) (hh : HeaderAt s p t (p.hdr + w.off32.signExtend 64)) :
    exec (.mloop w) s = .next ((s.updTeam t.id fun u => u.setK (bitsOf w.md.toNat 0 6) (u.kreg (bitsOf w.md.toNat 0 6) - 1)).updContext
      p.cluster p.ctx fun y => { y with hdr := p.hdr + w.off32.signExtend 64, idx := 0, count := 0, wbDone := false }) :=
  exec_of_jump (exec_mloop w s) hp ((if_neg hk).trans (streamJump_header hh))

theorem mend_ends : exec (.mend w) s =
    .next ((s.updContext p.cluster p.ctx fun y => { y.advance with st := .ending }).settleIdle p.cluster p.ctx) := by
  rw [exec_mend]
  unfold execMend
  rw [streamIssuer_of_prompts hp]

end

/-- Settles O39: each word is one `issueWord` (MEND names its context itself), done or at its jump after its own effect. -/
theorem streamControlCompletes : Obligations.StreamControlCompletes := by
  intro w s p t q m ctx base target jumps header n hp
  refine ⟨prompted_of (exec_mnop w s) hp rfl, fun hq => ⟨?mwait, msig_prompted w hp hq, ?mqcfg⟩, ?unready,
    mprog_reads w hp, mprog_writes w hp, ?mjmp, mloop_ends w hp, mloop_repeats w hp, ⟨_, mend_ends w hp, rfl⟩, prompted_of (exec_mkadd w s) hp rfl⟩
  case mwait => exact prompted_of_phased (exec_mwait w s) hp hq rfl
  case mqcfg =>
    obtain ⟨hcluster, hctx⟩ := phased_place hq
    exact prompted_of_phased (exec_mqcfg w s) hp hq (by rw [hcluster, hctx])
  case unready =>
    intro hwb hdone hnot
    rw [exec_mwait]
    exact issueWord_waits hp (fun h => hwb (BitVec.eq_of_toNat_eq h)) hdone hnot
  case mjmp => exact fun hh => exec_of_jump (exec_mjmp w s) hp (streamJump_header hh)

/-! ## A staged load of a walker's buffer (R264, R298, R306) -/

/-- What a load has read becomes the context's. -/
def committed (p : Prompter) (z : Option Weights × Option (List Nat) × W32) (s : State) : State :=
  s.updContext p.cluster p.ctx fun y =>
    { y with slot := (z.1.map some).getD y.slot, codebook := (z.2.1.map some).getD y.codebook, flags := y.flags ||| z.2.2 }

/-- A staged load behind no halted pass commits, and takes its buffer from the cluster where the job runs, while the buffer is there. -/
theorem loadWord_commits {whole : Bool} {read : Prompter → Team → State → Found Staged} {s : State} {p : Prompter} {t : Team}
    {z : Option Weights × Option (List Nat) × W32} {c : Nat × Nat} (hz : p.staged = some z) (hc : p.stagedFrom = some c)
    (hpast : ((s.passesOf p.cluster p.ctx).any Pass.halted) = false) (hthere : s.tileStands (s.tileCluster t p.cluster c.1) c = true) :
    loadWord whole read p t s = .done ((committed p z s).takeTile (s.tileCluster t p.cluster c.1) c) := by
  unfold loadWord
  simp [hz, hc, hpast, hthere, committed]

/-! ## A team that has returned to another cluster -/

/-- The team of the model's own probe, in cluster 0, with an extent of 64 rows in k22. -/
def team : Team := (probeTeam State.reset).setK 22 64

/-- Its job of destination 0, which runs on in cluster 1, with a ready buffer of E4M3 codes (R306, R331; log 82). -/
def job : Walker :=
  { Walker.idle 1 0 with
      running := true, team := team.id, cue := some (0, 0), tiles := [{ Tile.blank with ready := true }, Tile.blank],
      job := { (Walker.idle 1 0).job with program := 0x10000, len := 1, fmt := 3, rows := 64 } }

/-- Its context, at a load that has staged the tile of that buffer and stands before its commit. -/
def context : Prompter :=
  { Prompter.fresh 0 0 team.id 0x10000 0 with count := 2, staged := some (some (newTile 3 []), none, 0), stagedFrom := some (0, 0) }

/-- The context is about to execute the load. -/
def returned : State :=
  { State.reset with
    cur := .prompter 0 0
    teams := [team]
    mx := { State.reset.mx with ctxs := [context] }
    walk := { State.reset.walk with ctxs := [job] } }

/-- MLDW of format E4M3 from the walker context that k20 names. -/
def load : PWord :=
  { wb := 15, sb := 15, ru := 0, ka := 20, kb := 22, kc := 0, km := 26, fa := 3, fo := 0, sp := 0, ch := 0, tr := 0, md := 2 }

theorem returned_prompts : Prompts returned context team where
  cur := rfl
  ctx := by decide +kernel
  team := by decide +kernel
  settled := rfl

/-- What the context has staged is what the load reads there. -/
theorem staged_is_read : readTile load { context with staged := none, stagedFrom := none } team returned =
    .got { tile := some (newTile 3 []), taken := some (0, 0) } returned := rfl

theorem no_pass_returned : returned.passesOf context.cluster context.ctx = [] := rfl

/-- The buffer stands in cluster 1, where the load takes it, and no such buffer in the team's own cluster. -/
theorem buffer_returned : returned.tileStands (returned.tileCluster team context.cluster 0) (0, 0) = true
    ∧ returned.tileStands context.cluster (0, 0) = false := by decide +kernel

/-- The load commits, and the context stands at its second word. -/
theorem returned_load : ∃ m, exec (.mldw load) returned = .next m ∧ m.mx.ctxs.map Prompter.idx = [1] :=
  ⟨_, prompted_of_phased (exec_mldw load returned) returned_prompts (.inl ⟨.inl rfl, rfl, rfl⟩)
    (loadWord_commits rfl rfl (by rw [no_pass_returned]; rfl) buffer_returned.1), rfl⟩

/-- Refutes O37: in `returned` the buffer that the load has staged is ready in the cluster where the job runs on (`tileCluster`), so that
the load commits; the clause on a killed job looks for the buffer in the context's own cluster, and has the load start again. -/
theorem not_streamLoadsComplete : ¬ Obligations.StreamLoadsComplete := by
  intro h
  obtain ⟨-, -, -, -, hstaged, -⟩ :=
    h load returned context team context returned returned {} returned_prompts (.inl ⟨.inl rfl, rfl, rfl⟩)
  obtain ⟨-, hkilled⟩ := hstaged _ rfl (by simp [no_pass_returned]) (.mldw load) (by simp)
  have hagain := hkilled _ rfl buffer_returned.2
  obtain ⟨m, hm, hidx⟩ := returned_load
  rw [hm] at hagain
  cases hagain
  cases hidx

end Sys2Proof.Streams
end


section
/-! Instructions of the walkers (R287, R291-R301): where an instruction leaves the part, by what it comes to; what the computing, the memory,
the control, the tile and the merge instructions come to. -/

namespace Sys2Proof.Walkers

open Sys2Proof Sys2Proof.Machine Sys2Proof.Laws

/-! ## The meaning of each instruction (R291-R301) -/

section
variable {s : State} {d a b cond : BitVec 4} {i : BitVec 14} {r : BitVec 1} {n : BitVec 5} {k : BitVec 3} {o : BitVec 22} {mask : BitVec 2}

theorem exec_wnop : exec .wnop s = execWnop s := rfl
theorem exec_wmovi : exec (.wmovi d i) s = execWmovi d i s := rfl
theorem exec_wmoviSh : exec (.wmoviSh d i) s = execWmoviSh d i s := rfl
theorem exec_wmov : exec (.wmov d a) s = execWmov d a s := rfl
theorem exec_wadd : exec (.wadd d a b) s = execWadd d a b s := rfl
theorem exec_waddi : exec (.waddi d a i) s = execWaddi d a i s := rfl
theorem exec_wsub : exec (.wsub d a b) s = execWsub d a b s := rfl
theorem exec_wand : exec (.wand d a b) s = execWand d a b s := rfl
theorem exec_wor : exec (.wor d a b) s = execWor d a b s := rfl
theorem exec_wshl : exec (.wshl d a b r n) s = execWshl d a b r n s := rfl
theorem exec_wshr : exec (.wshr d a b r n) s = execWshr d a b r n s := rfl
theorem exec_wmin : exec (.wmin d a b) s = execWmin d a b s := rfl
theorem exec_wpopc : exec (.wpopc d a) s = execWpopc d a s := rfl
theorem exec_wffs : exec (.wffs d a) s = execWffs d a s := rfl
theorem exec_wcmp : exec (.wcmp a b) s = execWcmp a b s := rfl
theorem exec_wcmpi : exec (.wcmpi a i) s = execWcmpi a i s := rfl
theorem exec_wld : exec (.wld d a k i) s = execWld d a k i s := rfl
theorem exec_wldh : exec (.wldh d a k i) s = execWldh d a k i s := rfl
theorem exec_wst : exec (.wst d a k i) s = execWst d a k i s := rfl
theorem exec_wstC : exec (.wstC d a k i) s = execWstC d a k i s := rfl
theorem exec_wbr : exec (.wbr cond o) s = execWbr cond o s := rfl
theorem exec_wjmp : exec (.wjmp o) s = execWjmp o s := rfl
theorem exec_wjmpLink : exec (.wjmpLink o) s = execWjmpLink o s := rfl
theorem exec_wjmpRet : exec .wjmpRet s = execWjmpRet s := rfl
theorem exec_wwait : exec (.wwait mask) s = execWwait mask s := rfl
theorem exec_wyield : exec .wyield s = execWyield s := rfl
theorem exec_whalt : exec .whalt s = execWhalt s := rfl
theorem exec_wprog : exec (.wprog d) s = execWprog d s := rfl
theorem exec_wprogSet : exec (.wprogSet a) s = execWprogSet a s := rfl
theorem exec_wemit : exec (.wemit a b i) s = execWemit a b i s := rfl
theorem exec_wtile : exec (.wtile a) s = execWtile a s := rfl
theorem exec_wmerge : exec (.wmerge a b) s = execWmerge a b s := rfl
theorem exec_wmnext : exec (.wmnext d a) s = execWmnext d a s := rfl
theorem exec_wscan : exec (.wscan d a b k) s = execWscan d a b k s := rfl

end

/-! ## The ends of an instruction (R287, R303) -/

/-- The part after an instruction of a context has come to its end. -/
def landing (c : Walker) : WalkEnd → State
  | .next d m => (tally (m.setWalker { d with pc := c.pc + 1, mid := false }) c.cluster).boundary c
  | .jump t d m =>
    if t < 0 ∨ (c.job.len : Int) ≤ t then m.walkerIllegal c c.pc else tally (m.setWalker { d with pc := t.toNat }) c.cluster
  | .yield d m => (m.setWalker { d with pc := c.pc + 1 }).passSlot c.cluster
  | .again d m => tally (m.setWalker { d with mid := true }) c.cluster
  | .wait x m => (m.setWalker { c with wait := x }).passSlot c.cluster
  | .fault x d m => (m.walkerFault d x).boundary c
  | .illegal m => m.walkerIllegal c c.pc
  | .closes m => m.passSlot c.cluster

section
variable {j : Instr} {s m : State} {c d : Walker} {body : Walker → State → WalkEnd}

/-- The context that issues goes where its instruction's end says. -/
theorem issueWalker_lands (w : Walks s c) : issueWalker body s = .next (landing c (body c s)) := by
  unfold issueWalker
  simp only [w.cur, w.ctx]
  cases body c s with
  | jump t d m =>
    simp only [landing]
    split <;> rfl
  | _ => rfl

variable (h : exec j s = issueWalker body s) (w : Walks s c)
include h w

theorem strayed_of {t : Int} (hb : body c s = .jump t d m) (ht : ¬(0 ≤ t ∧ t < c.job.len)) : exec j s = .next (m.walkerIllegal c c.pc) := by
  rw [h, issueWalker_lands w, hb, landing, if_pos (by omega)]

theorem yielded_of (hb : body c s = .yield d m) : exec j s = .next ((m.setWalker { d with pc := c.pc + 1 }).passSlot c.cluster) := by
  rw [h, issueWalker_lands w, hb, landing]

theorem repeated_of (hb : body c s = .again d m) : exec j s = .next (tally (m.setWalker { d with mid := true }) c.cluster) := by
  rw [h, issueWalker_lands w, hb, landing]

theorem waited_of {x : WalkWait} (hb : body c s = .wait x m) : exec j s = .next ((m.setWalker { c with wait := x }).passSlot c.cluster) := by
  rw [h, issueWalker_lands w, hb, landing]

theorem refused_of (hb : body c s = .illegal m) : exec j s = .next (m.walkerIllegal c c.pc) := by
  rw [h, issueWalker_lands w, hb, landing]

theorem closed_of (hb : body c s = .closes m) : exec j s = .next (m.passSlot c.cluster) := by
  rw [h, issueWalker_lands w, hb, landing]

end

/-! ## Computing (R293) -/

/-- A context whose register takes a result, with the flags of the result. -/
def computed (c : Walker) (d : BitVec 4) (v : W32) (carry : Bool) : Walker :=
  { c with w := keep 0 c.w d.toNat v, z := v = 0, n := v.msb, c := carry }

/-- The place of the lowest set bit of a word, and 32 where it has none. -/
theorem lowestBit_spec (v : W32) : let k := ((List.range 32).find? fun j => v.getLsbD j).getD 32
    (k < 32 ∧ v.getLsbD k = true ∨ k = 32 ∧ v = 0) ∧ ∀ j < k, v.getLsbD j = false := by
  cases hf : (List.range 32).find? fun j => v.getLsbD j with
  | none =>
    have clear : ∀ j < 32, v.getLsbD j = false := by simpa only [List.find?_range_eq_none, Bool.not_eq_true'] using hf
    exact ⟨.inr ⟨rfl, BitVec.eq_of_getLsbD_eq fun j hj => (clear j hj).trans BitVec.getLsbD_zero.symm⟩, clear⟩
  | some k =>
    obtain ⟨hset, hk, hleast⟩ := List.find?_range_eq_some.1 hf
    exact ⟨.inl ⟨List.mem_range.1 hk, hset⟩, fun j hj => by simpa using hleast j hj⟩

theorem difference_zero_iff {x y : W32} : x - y = 0 ↔ x = y :=
  ⟨fun h => by bv_omega, fun h => by bv_omega⟩

section
variable {j : Instr} {s : State} {c : Walker} (w : Walks s c)
include w

theorem walkCompute_keeps_carry {d : BitVec 4} {f : Walker → W32 × Option Bool} {v : W32} (h : exec j s = walkCompute d f s)
    (hf : f c = (v, none)) : Walked j s c (computed c d v c.c) s :=
  walked_of h w (by simp only [hf]; rfl)

theorem walkCompute_writes_carry {d : BitVec 4} {f : Walker → W32 × Option Bool} {v : W32} {carry : Bool} (h : exec j s = walkCompute d f s)
    (hf : f c = (v, some carry)) : Walked j s c (computed c d v carry) s :=
  walked_of h w (by simp only [hf]; rfl)

/-- A comparison marks the difference, which is 0 where the operands are equal. -/
theorem walkCompare_marks {f : Walker → W32 × W32} {x y : W32} (h : exec j s = walkCompare f s) (hf : f c = (x, y)) :
    Walked j s c { c with z := x = y, n := (x - y).msb, c := decide (x.toNat < y.toNat) } s :=
  walked_of h w (by simp only [hf, Walker.marks, difference_zero_iff, BitVec.ult_eq_decide])

end

/-- Settles O40: a computing instruction is one `walkCompute`, a comparison one `walkCompare`, and the moves of an immediate write no flag. -/
theorem walkerArithmeticCompletes : Obligations.WalkerArithmeticCompletes := by
  intro s c d a b i r n w x y old imm put out count
  have keeps {j : Instr} {f : Walker → W32 × Option Bool} {v : W32} (h : exec j s = walkCompute d f s) (hf : f c = (v, none)) :
      Walked j s c (out v c.c) s := walkCompute_keeps_carry w h hf
  have carries {j : Instr} {f : Walker → W32 × Option Bool} {v : W32} {carry : Bool} (h : exec j s = walkCompute d f s)
      (hf : f c = (v, some carry)) : Walked j s c (out v carry) s := walkCompute_writes_carry w h hf
  have least : (if (c.reg a).ult (c.reg b) then c.reg a else c.reg b) = if x.toNat < y.toNat then x else y := by
    simp only [BitVec.ult_eq_decide, decide_eq_true_eq]; rfl
  obtain ⟨hbit, hbelow⟩ := lowestBit_spec x
  exact ⟨walked_of exec_wnop w rfl, walked_of exec_wmovi w rfl, walked_of exec_wmoviSh w rfl, keeps exec_wmov rfl, carries exec_wadd rfl,
    carries exec_waddi rfl, carries exec_wsub rfl, keeps exec_wand rfl, keeps exec_wor rfl, keeps exec_wshl rfl, keeps exec_wshr rfl,
    keeps exec_wmin (congrArg (·, none) least), keeps exec_wpopc rfl, ⟨_, hbit, hbelow, walked_of exec_wffs w rfl⟩,
    walkCompare_marks w exec_wcmp rfl, walkCompare_marks w exec_wcmpi rfl⟩

/-! ## Memory (R294, R295) -/

section
variable {j : Instr} {s m : State} {c : Walker} {d : BitVec 4} {va : Walker → W64} {ps : List Part} (w : Walks s c)
include w

/-- A load that may be made gives the slot up, and its context waits for the data. -/
theorem walkLoad_posts {n : Nat} {p : Part} (h : exec j s = walkLoad d n va s) (hr : c.reach s (va c) n .read = .got (p :: ps) m) :
    exec j s = .next ((m.setWalker { c with wait := .load d.toNat p.key n (va c).toNat, pc := c.pc + 1 }).passSlot c.cluster) := by
  refine yielded_of h w (d := { c with wait := .load d.toNat p.key n (va c).toNat }) ?_
  simp only [hr]
  rfl

/-- A store that may be made goes home, and counts what it counts. -/
theorem walkStore_sends {n : W32} (h : exec j s = walkStore d n va s) (hr : c.reach s (va c) 4 .write = .got ps m) :
    Walked j s c { c with wprog := c.wprog + n } (sendStore m ps (toBytes 4 (c.reg d).toNat)) :=
  walked_of h w (by simp only [hr])

end

/-! ## Control (R287, R292, R296) -/

section
variable {s : State} {c : Walker} (w : Walks s c)
include w

section
variable {cond : BitVec 4} {o : BitVec 22}

theorem wbr_passes (hc : c.holds cond.toNat = false) : Walked (.wbr cond o) s c c s :=
  walked_of exec_wbr w (if_neg (by simp [hc]))

theorem wbr_lands (hc : c.holds cond.toNat = true) (ht : 0 ≤ c.target o ∧ c.target o < c.job.len) :
    exec (.wbr cond o) s = .next (tally (s.setWalker { c with pc := (c.target o).toNat }) c.cluster) :=
  jumped_of exec_wbr w (if_pos hc) ht

theorem wbr_strays (hc : c.holds cond.toNat = true) (ht : ¬(0 ≤ c.target o ∧ c.target o < c.job.len)) :
    exec (.wbr cond o) s = .next (s.walkerIllegal c c.pc) :=
  strayed_of exec_wbr w (if_pos hc) ht

end

theorem wjmpRet_lands (hl : c.job.len ≤ 1024) (hin : (c.reg 15).toNat < c.job.len) :
    exec .wjmpRet s = .next (tally (s.setWalker { c with pc := (c.reg 15).toNat }) c.cluster) :=
  jumped_of exec_wjmpRet w (t := ((c.reg 15).toNat : Int)) (if_neg (by omega)) ⟨by omega, by omega⟩

/-- A return at or beyond the end stops, by its upper bits or by its index. -/
theorem wjmpRet_strays (hout : c.job.len ≤ (c.reg 15).toNat) : exec .wjmpRet s = .next (s.walkerIllegal c c.pc) := by
  by_cases hbig : 1024 ≤ (c.reg 15).toNat
  · exact refused_of exec_wjmpRet w (if_pos hbig)
  · exact strayed_of exec_wjmpRet w (t := ((c.reg 15).toNat : Int)) (if_neg hbig) (by omega)

theorem wwait_passes {mask : BitVec 2} (h : mask.getLsbD 1 = true → c.drained = true) : Walked (.wwait mask) s c c s :=
  walked_of exec_wwait w (if_neg (by simpa using h))

theorem wwait_waits {mask : BitVec 2} (hm : mask.getLsbD 1 = true) (h : c.drained = false) :
    exec (.wwait mask) s = .next ((s.setWalker { c with wait := .tiles }).passSlot c.cluster) :=
  waited_of exec_wwait w (if_pos (by rw [hm, h]; rfl))

theorem whalt_waits (h : c.drained = false) : exec .whalt s = .next ((s.setWalker { c with wait := .halt }).passSlot c.cluster) :=
  waited_of exec_whalt w (if_pos (by rw [h]; rfl))

theorem whalt_frees {q : Nat × Nat} (h : c.drained = true) (hq : c.cue = some q) :
    exec .whalt s = .next (((s.setWalker c.free).updCue q.1 q.2 fun z =>
      { z with counting := true, flags := z.flags ||| c.flags, progress := c.wprog.toNat }).passSlot c.cluster) := by
  refine closed_of exec_whalt w ?_
  simp only [h, hq, Bool.not_true, Bool.false_eq_true, if_false]

end

theorem drained_iff {c : Walker} : c.drained = true ↔ ∀ y ∈ c.tiles, y.ready = false := by
  simp [Walker.drained]

theorem not_drained_iff {c : Walker} : c.drained = false ↔ ∃ y ∈ c.tiles, y.ready = true := by
  simp [Walker.drained]

/-- Settles O41: loads and stores past their checks, and each control instruction by its condition, its target and the buffers. -/
theorem walkerMemoryAndControlComplete : Obligations.WalkerMemoryAndControlComplete := by
  intro s c d a k i cond o mask p ps m w va x loads waits stored target inside jumps illegal
  refine ⟨walkLoad_posts w (va := fun c => c.addr k a i) exec_wld, walkLoad_posts w (va := fun c => c.addr k a i) exec_wldh,
    fun hr => ⟨?plain, walkStore_sends w exec_wstC hr⟩, wbr_passes w,
    fun ht => ⟨fun hc => wbr_lands w hc ht, jumped_of exec_wjmp w rfl ht, jumped_of exec_wjmpLink w rfl ht⟩,
    fun ht => ⟨strayed_of exec_wjmp w rfl ht, fun hc => wbr_strays w hc ht⟩, fun hl => ⟨wjmpRet_lands w hl, wjmpRet_strays w⟩,
    fun hm => wwait_passes w fun h => drained_iff.2 (hm h), fun hm h => wwait_waits w hm (not_drained_iff.2 h), yielded_of exec_wyield w rfl,
    walked_of exec_wprog w rfl, walked_of exec_wprogSet w rfl, fun h => whalt_waits w (not_drained_iff.2 h),
    fun q h => whalt_frees w (drained_iff.2 h)⟩
  case plain =>
    have sent := walkStore_sends w (exec_wst (d := d)) hr
    have same : c.wprog + 0 = c.wprog := BitVec.add_zero c.wprog
    rw [same] at sent
    exact sent

/-! ## Conditions (R292) -/

/-- A word of WBR with a ninth or later condition is none of the walker's. -/
theorem decodeWalker_ninth {w : W32} (hop : w >>> 26 = 0x13) (hcond : 9 ≤ (w >>> 22).toNat % 16) :
    decodeWalker w = .error .walkerIllegal := by
  have op : (w.extractLsb' 26 6).toNat = 0x13 := by
    rw [BitVec.extractLsb'_toNat, ← BitVec.toNat_ushiftRight, hop]
    rfl
  have cond : ¬(w.extractLsb' 22 4).toNat ≤ 8 := by
    rw [BitVec.extractLsb'_toNat, ← BitVec.toNat_ushiftRight]
    omega
  have named : walkerOf w = some (.wbr (w.extractLsb' 22 4) (w.extractLsb' 0 22)) := by simp only [walkerOf, op]
  have illegal : (Instr.wbr (w.extractLsb' 22 4) (w.extractLsb' 0 22)).wellFormed = false := decide_eq_false cond
  simp only [decodeWalker, named, illegal, Bool.false_and, Bool.false_eq_true, if_false]

/-- A ready context at a word that does not decode stops there. -/
theorem walkerReady_undecoded {s : State} {cluster : Nat} {c : Walker} {r : Reject}
    (hw : s.walker? cluster (look 0 s.walk.slot cluster) = some c) (hr : s.walkerCanRun c = true)
    (hi : look 0 s.walk.issued cluster < 256) (hs : c.stopped = false) (hpc : c.pc < c.job.len)
    (hd : decodeWalker (look 0 c.prog c.pc) = .error r) : s.walkerReady cluster = .done (s.walkerIllegal c c.pc) := by
  simp only [State.walkerReady, hw, Option.filter, hr, if_true, Option.isSome_some, Nat.not_le.2 hi, hs, Nat.not_le.2 hpc, hd, if_false,
    Bool.false_eq_true]

/-- Settles O42: WBR goes by `Walker.holds`, whose nine tests are the table's, and no other condition decodes. -/
theorem walkerConditionsFollowTheFlags : Obligations.WalkerConditionsFollowTheFlags := by
  refine ⟨fun s c o w => ?_, fun s s0 cluster c w hturn hw hr hi hs hpc hword hop hcond => ?_⟩
  · intro target takes
    have follows {cond : BitVec 4} {b : Bool} (hb : c.holds cond.toNat = b) : takes cond b :=
      ⟨fun h low high => wbr_lands w (hb.trans h) ⟨low, high⟩, fun h => wbr_passes w (hb.trans h)⟩
    exact ⟨follows rfl, follows rfl, follows rfl, follows rfl, follows rfl, follows rfl, follows rfl, follows rfl,
      follows (Bool.not_or ..).symm⟩
  · subst hword
    simp only [step, hturn, walkerReady_undecoded hw hr hi hs hpc (decodeWalker_ninth hop hcond), runReady]

/-! ## Tiles (R297) -/

section
variable {s : State} {c : Walker} {a : BitVec 4} (w : Walks s c)
include w

theorem wemit_puts {b : BitVec 4} {i : BitVec 14} (hd : c.job.dest ≠ 3) (hp : (c.reg b + i.signExtend 32).toNat < 128 * c.job.rows) :
    Walked (.wemit a b i) s c { c with wprog := c.wprog + 1, tiles := c.tiles.modify c.fill fun z =>
      { z with codes := keep 0 z.codes (c.reg b + i.signExtend 32).toNat ((c.reg a).toNat % 2 ^ codeBits c.job.fmt) } } s :=
  walked_of exec_wemit w ((if_neg hd).trans (if_neg (Nat.not_le.2 hp)))

theorem wtile_waits (hbusy : ((c.tiles[1 - c.fill]?).map Tile.ready).getD false = true) (hd : c.job.dest = 2 ∨ (c.job.dest < 2 ∧ a = 0)) :
    exec (.wtile a) s = .next ((s.setWalker { c with wait := .buffer }).passSlot c.cluster) := by
  have legal : (c.job.dest = 3 || (c.job.dest ≠ 2 && a ≠ 0)) = false := by
    rcases hd with hd | ⟨hd, rfl⟩
    · simp [hd]
    · have to3 : c.job.dest ≠ 3 := by omega
      simp [to3]
  refine waited_of exec_wtile w ?_
  simp only [legal, hbusy, Bool.false_eq_true, if_true, if_false]

variable (hfree : ((c.tiles[1 - c.fill]?).map Tile.ready).getD false = false)
include hfree

theorem wtile_hands (hd : c.job.dest < 2) (ha : a = 0) :
    Walked (.wtile a) s c { c with fill := 1 - c.fill, tiles := (c.tiles.modify c.fill fun z =>
      { z with ready := true, taken := 0, order := s.nextId }).modify (1 - c.fill) fun _ => Tile.blank } s.fresh := by
  have to3 : c.job.dest ≠ 3 := by omega
  have to2 : c.job.dest ≠ 2 := by omega
  refine walked_of exec_wtile w ?_
  simp [hfree, to2, to3, ha]

/-- The rows of a tile that all lie inside the team's allocation are written, and both buffers are blank (log 63). -/
theorem wtile_writes {t : Team} (hd : c.job.dest = 2) (ht : s.team? c.team = some t) :
    let size := 16 * codeBits c.job.fmt
    let place (j : Nat) : Nat := (c.reg a).toNat + j * (if c.job.stride = 0 then size else c.job.stride)
    (∀ j < c.job.rows, place j + size ≤ t.launch.spadBytes) →
    Walked (.wtile a) s c { c with fill := 1 - c.fill, tiles := [Tile.blank, Tile.blank] }
      ((List.range c.job.rows).foldl (fun s j => s.updTeam c.team fun u =>
        u.spadPut (place j) (tileBytes c.job.fmt ((c.tiles[c.fill]?).getD Tile.blank) j)) s) := by
  intro size place hrows
  have fits : ((List.range c.job.rows).find? fun j => t.launch.spadBytes < place j + size) = none :=
    List.find?_eq_none.2 fun j hj => by simpa only [decide_eq_true_eq, Nat.not_lt] using hrows j (List.mem_range.1 hj)
  have own : t.id = c.team := by simpa using List.find?_some ht
  refine walked_of exec_wtile w ?_
  simp only [size, place] at fits ⊢
  simp only [hfree, hd, ht, own, fits, ne_eq, not_true_eq_false, decide_false, Bool.false_and, Bool.or_false, Nat.reduceEqDiff,
    Bool.false_eq_true, if_false]

end

/-! ## The merge unit (R299-R301) -/

/-- The registers of a context after the merge unit has consumed an element of the streams that it names (R300). -/
def positionsPast (c : Walker) (p q : Nat) (one two : Bool) : List (Nat × W32) :=
  let w1 := if one then keep 0 c.w p (look 0 c.w p + 1) else c.w
  if two then keep 0 w1 q (look 0 w1 q + 1) else w1

/-- The context once it has consumed the element, whose addition raises `f`. -/
def consumed (c : Walker) (p q : Nat) (one two : Bool) (f : Flag) : Walker :=
  { c with w := positionsPast c p q one two, flags := c.flags ||| f }

/-- The context that has been delivered the element: its index to `d`, its value to `a`. -/
def delivered (c : Walker) (d a : BitVec 4) (idx v : Nat) : Walker :=
  { c with w := keep 0 (keep 0 c.w d.toNat (BitVec.ofNat 32 idx)) a.toNat (BitVec.ofNat 32 v), z := false, n := false }

section
variable {s m : State} {c : Walker} {d a : BitVec 4}

section
variable {p q v idx : Nat} {f : Flag} {one two : Bool} (hm : c.merge = some (p, q))
  (hr : ∀ r ∈ [p, p + 1, q, q + 1], d.toNat ≠ r ∧ a.toNat ≠ r)

/-- WMNEXT names none of the bound registers (R300). -/
theorem apart_of_ne (hr : ∀ r ∈ [p, p + 1, q, q + 1], d.toNat ≠ r ∧ a.toNat ≠ r) :
    ([p, p + 1, q, q + 1].any fun r => d.toNat = r || a.toNat = r) = false := by
  simpa using hr

include hm hr

theorem wmnext_ends (w : Walks s c) (hu : c.union s p q = .got none m) : Walked (.wmnext d a) s c { c with z := true } m := by
  refine walked_of exec_wmnext w ?_
  simp only [hm, apart_of_ne hr, hu, Bool.false_eq_true, if_false]

variable (hu : c.union s p q = .got (some (idx, v, f, one, two)) m) {out : List (Nat × Nat)}
  (ho : c.missing m (c.unionLoads p q one two) = out)
include hu ho

/-- What WMNEXT comes to at an element of the union: its lines are missing, or it is a zero that is dropped, or it is delivered. -/
theorem wmnext_element :
    ∃ body, exec (.wmnext d a) s = issueWalker body s ∧ body c s =
      if out ≠ [] then .wait (.elements out) m
      else if v % 2 ^ 31 = 0 ∧ c.job.dropZero = true then .again (consumed c p q one two f) m
      else .next (delivered (consumed c p q one two f) d a idx (if v % 2 ^ 31 = 0 ∧ one = true ∧ two = true then 0 else v)) m := by
  refine ⟨_, exec_wmnext, ?_⟩
  rw [hm]
  cases one <;> cases two <;>
    simp only [apart_of_ne hr, hu, ho, Bool.false_eq_true, Bool.not_eq_true', List.isEmpty_eq_false_iff, Bool.and_eq_true, decide_eq_true_eq,
      and_false, and_true, if_false, if_true, consumed, positionsPast, delivered, Walker.setReg, Walker.setRegAt, Walker.regAt]

variable (w : Walks s c)
include w

theorem wmnext_waits (hne : out ≠ []) : exec (.wmnext d a) s = .next ((m.setWalker { c with wait := .elements out }).passSlot c.cluster) := by
  obtain ⟨body, h, hb⟩ := wmnext_element hm hr hu ho
  exact waited_of h w (hb.trans (if_pos hne))

theorem wmnext_drops (hnil : out = []) (hz : v % 2 ^ 31 = 0) (hd : c.job.dropZero = true) :
    exec (.wmnext d a) s = .next (tally (m.setWalker { consumed c p q one two f with mid := true }) c.cluster) := by
  obtain ⟨body, h, hb⟩ := wmnext_element hm hr hu ho
  exact repeated_of h w (hb.trans ((if_neg (Classical.not_not.2 hnil)).trans (if_pos ⟨hz, hd⟩)))

theorem wmnext_delivers (hnil : out = []) (hkept : ¬(v % 2 ^ 31 = 0 ∧ c.job.dropZero = true)) :
    Walked (.wmnext d a) s c
      (delivered (consumed c p q one two f) d a idx (if v % 2 ^ 31 = 0 ∧ one = true ∧ two = true then 0 else v)) m := by
  obtain ⟨body, h, hb⟩ := wmnext_element hm hr hu ho
  exact walked_of h w (hb.trans ((if_neg (Classical.not_not.2 hnil)).trans (if_neg hkept)))

end

variable {b : BitVec 4} {k : BitVec 3} (w : Walks s c)
include w

theorem wscan_ends (hb : c.reg b = 0) : Walked (.wscan d a b k) s c c s := walked_of exec_wscan w (if_pos hb)

variable {v : Nat} (hb : c.reg b ≠ 0) (hv : c.read32 s (c.base k.toNat + 4 * (c.reg a).setWidth 64) = .got v m)
include hb hv

theorem wscan_waits {out : List (Nat × Nat)} (ho : c.missing m [c.base k.toNat + 4 * (c.reg a).setWidth 64] = out) (hne : out ≠ []) :
    exec (.wscan d a b k) s = .next ((m.setWalker { c with wait := .elements out }).passSlot c.cluster) := by
  refine waited_of exec_wscan w ?_
  have missing : (!out.isEmpty) = true := by simpa using hne
  exact (if_neg hb).trans (by simp only [hv, ho, missing, if_true])

/-- One element of the sum: the running sum goes to memory, and the registers go on to the next element. -/
theorem wscan_sums {m1 : State} {ps : List Part} (ho : c.missing m [c.base k.toNat + 4 * (c.reg a).setWidth 64] = [])
    (hs : c.reach m (c.base k.toNat + 4 * (c.reg a).setWidth 64) 4 .write = .got ps m1) :
    let next : Walker := ((c.setReg d (c.reg d + BitVec.ofNat 32 v)).setReg a (c.reg a + 1)).setReg b (c.reg b - 1)
    exec (.wscan d a b k) s = .next (tally ((sendStore m1 ps (toBytes 4 (c.reg d).toNat)).setWalker { next with mid := true }) c.cluster) := by
  refine repeated_of exec_wscan w ?_
  exact (if_neg hb).trans (by simp only [hv, ho, hs, List.isEmpty_nil, Bool.not_true, Bool.false_eq_true, if_false])

end

/-- Settles O43: each instruction by what keeps it, and an element of the union by its lines and its value (`wmnext_element`). -/
theorem walkerTilesAndMergeComplete : Obligations.WalkerTilesAndMergeComplete := by
  intro s c d a b k i t p q v f one two idx m m1 ps w x y blank waits again other size place rows pos
  exact ⟨wemit_puts w, fun hfree => ⟨wtile_hands w hfree, wtile_writes w hfree⟩, wtile_waits w, walked_of exec_wmerge w rfl,
    fun hm hr => ⟨wmnext_ends hm hr w,
      fun hu => ⟨wmnext_waits hm hr hu rfl w, wmnext_drops hm hr hu rfl w, wmnext_delivers hm hr hu rfl w⟩⟩,
    wscan_ends w, fun hb hv => ⟨wscan_waits w hb hv rfl, wscan_sums w hb hv⟩⟩

end Sys2Proof.Walkers
end

section
/-! A lane that leaves its bundle at its instruction and waits (R101, R162, R328, R378): what the end of the issue leaves. -/

namespace Sys2Proof.Waiting

open Sys2Proof Sys2Proof.Machine Sys2Proof.Laws Sys2Proof.Rounding

/-! ## The end of an issue that its only thread leaves -/

/-- A bundle all of whose threads have gone is over, and the other bundles stay as they are. -/
theorem mem_trimBundles_none {id : Nat} {closes : Bool} {bs : List Bundle} {c : Bundle} (h : c ∈ trimBundles [id] [] closes bs) :
    c.id ≠ id ∧ c ∈ bs := by
  unfold trimBundles at h
  rw [List.mem_filter, List.mem_map] at h
  obtain ⟨⟨d, hd, rfl⟩, hsome⟩ := h
  by_cases hid : d.id = id
  · simp [hid] at hsome
  · simpa [hid] using hd

theorem filter_never {α : Type} (l : List α) : (l.filter fun _ => false) = [] := List.filter_eq_nil_iff.2 fun _ _ => Bool.false_ne_true

/-- Without a thread that comes to it no PC set changes. -/
theorem arrive_nil (s : State) (team : Nat) : s.arrive team [] = s := by
  unfold State.arrive
  cases hu : s.team? team with
  | none => rfl
  | some t =>
    simp only [List.contains_nil, Bool.false_and, filter_never, List.map_nil, Team.inOrder, sortBy, List.foldr_nil, List.foldl_nil,
      updThreads_nil]

theorem holdRoles_nil (s : State) (team : Nat) : s.holdRoles team [] = s := holdRoles_none fun _ _ _ hx => nomatch hx

theorem stepStops_nil (s : State) (team : Nat) (ids : List (Nat × W32)) : s.stepStops team [] ids = s := stepStops_none fun _ hx => nomatch hx

theorem noteFall_empty (s : State) (team : Nat) : s.noteFall team [[]] = s := by
  unfold State.noteFall State.updTeam updWhere
  simp

/-- State `m` with thread `x` waiting, out of its bundle. -/
def left (f : Form) (b : Bundle) (team x : Nat) (w : Wait) (closes : Bool) (m : State) : State :=
  { (m.updThreads team [x] fun h => h.touch f.lines m.time).updThread team x fun h => { h with wait := w } with
    bundles := trimBundles [b.id] [] closes m.bundles }

theorem finish_left (f : Form) {b : Bundle} {x : Nat} (hx : b.tids = [x]) (m : State) (team idx : Nat) (w : Wait) :
    m.finish f team [b] idx { s := m, left := [(x, w)] } = left f b team x w (decide (b.count ≤ idx + 1)) m := by
  unfold State.finish
  simp only [List.map_cons, List.map_nil, List.flatten_cons, List.flatten_nil, List.append_nil, hx, List.nil_append, List.filter_cons,
    List.filter_nil, List.contains_cons, List.contains_nil, beq_self_eq_true, Bool.true_or, Bool.not_true, Bool.false_eq_true, if_false,
    List.foldl_cons, List.foldl_nil, Nat.zero_max, updThreads_nil, State.setWaits, noteFall_empty, holdRoles_nil, arrive_nil, ite_self,
    stopLanes_nil, stepStops_nil]
  rfl

/-! ## What the lane's team and the other threads keep -/

theorem updThreads_one (s : State) (team x : Nat) (g : Thread → Thread) : s.updThreads team [x] g = s.updThread team x g := by
  unfold State.updThreads State.updThread Team.updThread
  simp

theorem thread_updThread_other {s : State} {id id' x y : Nat} (h : id' ≠ id ∨ y ≠ x) {f : Thread → Thread} (hf : ∀ h, (f h).tid = h.tid) :
    (s.updThread id x f).thread? id' y = s.thread? id' y := by
  unfold State.thread? State.updThread
  rw [team_updTeam _ _ _ _ (by exact fun _ => rfl)]
  cases hu : s.team? id' with
  | none => rfl
  | some u =>
    simp only [Option.map_some, Option.bind_some, team_id hu]
    split
    next he =>
      have hy : y ≠ x := h.resolve_left fun hne => hne he
      unfold Team.updThread
      rw [thread_updWhere _ _ _ _ hf]
      cases hz : u.thread? y with
      | none => rfl
      | some z => simp [thread_tid hz, hy]
    next => rfl

theorem left_leaves (f : Form) (b : Bundle) (t : Team) (x : Nat) (w : Wait) (closes : Bool) (m : State) :
    Leaves b t x w m (left f b t.id x w closes m) := by
  have hthread : ∀ id y, (left f b t.id x w closes m).thread? id y
      = ((m.updThread t.id x fun h => h.touch f.lines m.time).updThread t.id x fun h => { h with wait := w }).thread? id y := by
    intro id y
    unfold left
    rw [updThreads_one]
    rfl
  refine ⟨rfl, fun h hx => ⟨{ h.touch f.lines m.time with wait := w }, ?_, rfl⟩, fun id y hne => ?_, fun c hc => mem_trimBundles_none hc⟩
  · rw [hthread, thread_updThread _ _ _ _ (by exact fun _ he => he), thread_updThread _ _ _ _ (by exact fun _ he => he), hx]
    rfl
  · rw [hthread, thread_updThread_other hne (by exact fun _ => rfl), thread_updThread_other hne (by exact fun _ => rfl)]

/-! ## One lane of an instruction -/

/-- A form without destinations that come later and without a token changes nothing at issue. -/
theorem atIssue_plain {f : Form} (hl : f.long = false) (hk : f.tok = none) : f.atIssue = id := by
  funext h; unfold Form.atIssue; rw [hl, hk]; rfl

theorem unIssue_plain {f : Form} (hl : f.long = false) (hk : f.tok = none) : f.unIssue = id := by
  funext h; unfold Form.unIssue; rw [hl, hk]; rfl

theorem updThreads_id (s : State) (team : Nat) (l : List Nat) : s.updThreads team l id = s := by
  unfold State.updThreads State.updTeam updWhere
  simp

section
variable {s m : State} {b : Bundle} {t : Team} {f : Form} {x : Nat} {body : List Nat → State → Res} (hl : f.long = false) (hk : f.tok = none)
include hl hk

/-- The one lane of a bundle that an instruction makes wait leaves the bundle. -/
theorem runOn_leaves {w : Wait} (hx : b.tids = [x]) (hb : body [x] s = .leave w m) :
    Leaves b t x w m (s.runOn f t [b] [{ acts := [x], all := [x] }] body) := by
  unfold State.runOn
  simp only [List.map_cons, List.map_nil, List.flatten_cons, List.flatten_nil, List.append_nil, atIssue_plain hl hk, updThreads_id, runUnits,
    hb, Run.add, unIssue_plain hl hk, Bool.false_eq_true, if_false, List.nil_append, finish_left f hx]
  exact left_leaves f b t x w _ m

/-- The one active lane of a clear bundle goes on. -/
theorem runOn_advances {v : Team} (c : Clear s b t f) (hb : body [x] s = .ok m) (hv : m.team? t.id = some v) (hs : SameCast t v) :
    Advances b t m (s.runOn f t [b] [{ acts := [x], all := [x] }] body) := by
  unfold State.runOn
  simp only [List.map_cons, List.map_nil, List.flatten_cons, List.flatten_nil, List.append_nil, atIssue_plain hl hk, updThreads_id, runUnits,
    hb, Run.add, Bool.false_eq_true, if_false, List.foldl_cons, List.foldl_nil, Nat.zero_max]
  exact advances_of_cast c hv hs

end

/-! ## A lane whose state line is resident (R113) -/

/-- The state line of a lane that issues is resident. -/
theorem resident_of_active {s : State} {b : Bundle} {t : Team} {f : Form} {x : Nat} (c : Clear s b t f) (hx : x ∈ t.active f b.tids) {h : Thread}
    (hh : t.thread? x = some h) : h.absent.contains 0 = false := by
  rw [Team.active, Team.inOrder, Turns.mem_sortBy, List.mem_filter] at hx
  have hpick : h ∈ t.pick b.tids := List.mem_filter.2 ⟨List.mem_of_find?_eq_some hh, by rw [thread_tid hh, List.contains_iff_mem]; exact hx.1⟩
  simpa using c.resident h hpick 0 List.mem_cons_self

/-- A change of the state line of such a lane leaves its team its cast. -/
theorem updLine0_cast {m : State} {u : Team} {id x : Nat} {g : Thread → Thread} (hu : m.team? id = some u)
    (hr : ∀ h, u.thread? x = some h → h.absent.contains 0 = false) (ht : ∀ h, (g h).tid = h.tid) (hs : ∀ h, (g h).singleStep = h.singleStep) :
    ∃ v, (m.updLine0 id x g).team? id = some v ∧ SameCast u v := by
  cases hx : u.thread? x with
  | none =>
    have hline : m.updLine0 id x g = m := by unfold State.updLine0; simp only [hu, hx]
    exact ⟨u, by rw [hline, hu], SameCast.refl u⟩
  | some h =>
    have hline : m.updLine0 id x g = m.updThread id x g := by
      unfold State.updLine0; simp only [hu, hx, hr h hx, Bool.false_eq_true, if_false]
    rw [hline]
    exact keepsCast_updThread ht hs m u hu

end Sys2Proof.Waiting
end

section
/-! ENTER, ETRY, ENTERM and LEAVE (R378, R383-R385): where a demand's lane stands, and how a pair is given up. -/

namespace Sys2Proof.Rooms

open Sys2Proof Sys2Proof.Machine Sys2Proof.Laws Sys2Proof.Rounding Sys2Proof.Uniform
  Sys2Proof.CacheControl Sys2Proof.Waiting

/-! ## A demand (R378, R383, R384) -/

/-- A thread with the pairs of its answer, and for ETRY the answer itself. -/
def answered (d : Demand) (a : Bool × W32 × W32) (h : Thread) : Thread :=
  let h1 := if a.1 then { h with held := h.held ++ d.pairs a } else h
  match d.kind with
  | .etry p => h1.setPred p a.1
  | _ => h1

theorem enterDone_eq (s : State) (d : Demand) (a : Bool × W32 × W32) :
    s.enterDone d a = (s.updLine0 d.team d.tid (answered d a)).dropDemand d.team d.tid := rfl

theorem answered_tid (d : Demand) (a : Bool × W32 × W32) (h : Thread) : (answered d a h).tid = h.tid := by
  unfold answered; dsimp only; split <;> split <;> simp

theorem answered_singleStep (d : Demand) (a : Bool × W32 × W32) (h : Thread) : (answered d a h).singleStep = h.singleStep := by
  unfold answered; dsimp only; split <;> split <;> simp

/-- An answer changes of its lane's team only what the lane holds. -/
theorem enterDone_cast {s : State} {u : Team} {id : Nat} {d : Demand} {a : Bool × W32 × W32} (hu : s.team? id = some u) (hid : d.team = id)
    (hr : ∀ h, u.thread? d.tid = some h → h.absent.contains 0 = false) :
    ∃ v, (s.enterDone d a).team? id = some v ∧ SameCast u v := by
  obtain ⟨v, hv, hs⟩ := updLine0_cast (g := answered d a) hu hr (answered_tid d a) (answered_singleStep d a)
  refine ⟨v, ?_, hs⟩
  rw [enterDone_eq, hid]
  exact hv

section
variable {s : State} {b : Bundle} {t : Team} {x : Nat} {f : Form} {ask : Team → Thread → State → Found Demand} (c : Clear s b t f)
  (hx : t.active f b.tids = [x])
include c hx

/-- A lane without a demand sends the one that it asks for. -/
theorem issueDemand_sends {h : Thread} {d : Demand} {m : State} (hnone : s.demand? t.id x = none) (hh : t.thread? x = some h)
    (ha : ask t h s = .got d m) :
    issueDemand f ask s = .next { m.postDemands [d] with bundles := trimBundles [b.id] b.tids false m.bundles } := by
  unfold issueDemand
  rw [c.issues]
  simp only [clear_gate c, hx, List.filterMap_cons, hnone, List.filterMap_nil, List.isEmpty_cons, List.isEmpty_nil, Bool.false_eq_true,
    if_false, if_true, collectDemands, hh, ha, State.setWaits, List.foldl_nil, List.map_nil, List.contains_nil, Bool.not_false, filter_all,
    stopLanes_nil]
  rfl

variable {d : Demand} (hd : s.demand? t.id x = some d)
include hd

/-- Until the Usher has had its demand the lane stays where it is. -/
theorem issueDemand_stalls (hr : d.reached = false) : issueDemand f ask s = .next (s.stall b) := by
  unfold issueDemand
  rw [c.issues]
  simp [clear_gate c, hx, hd, hr]

/-- What the lane comes to once the Usher has had its demand. -/
def reached (t : Team) (x : Nat) (s : State) : Res :=
  match s.demand? t.id x with
  | none => .hold
  | some d =>
    match d.answer with
    | some a => .ok (s.enterDone d a)
    | none => .leave .usher s

theorem issueDemand_reached (hr : d.reached = true) :
    issueDemand f ask s = .next (s.runOn f t [b] [{ acts := [x], all := [x] }] fun l s1 => reached t (l.headD 0) s1) := by
  unfold issueDemand
  rw [c.issues]
  simp [clear_gate c, hx, hd, hr]
  rfl

variable (hl : f.long = false) (hk : f.tok = none)
include hl hk
/-- A lane with its answer goes on with what the answer gives it. -/
theorem issueDemand_completes {a : Bool × W32 × W32} (hr : d.reached = true) (hteam : d.team = t.id) (htid : d.tid = x) (ha : d.answer = some a) :
    ∃ s', issueDemand f ask s = .next s' ∧ Advances b t (s.enterDone d a) s' := by
  obtain ⟨v, hv, hs⟩ := enterDone_cast (d := d) (a := a) (issuer_team c.issues) hteam
    fun h hh => resident_of_active c (by rw [hx, htid]; exact List.mem_singleton_self x) hh
  exact ⟨_, issueDemand_reached c hx hd hr, runOn_advances hl hk c (by simp [reached, hd, ha]) hv hs⟩

/-- One that is not answered leaves its bundle. -/
theorem issueDemand_leaves (hr : d.reached = true) (ha : d.answer = none) (hb : b.tids = [x]) :
    ∃ s', issueDemand f ask s = .next s' ∧ Leaves b t x .usher s s' :=
  ⟨_, issueDemand_reached c hx hd hr, runOn_leaves hl hk hb (by simp [reached, hd, ha])⟩

end

/-! ## LEAVE (R385) -/

/-- The second part of a LEAVE for one lane: its pair is given up and its message is sent. -/
def gives (w : RWord) (t : Team) (h : Thread) (s : State) : Res :=
  match leaving w t h s with
  | .stop x m => .stop x m
  | .park m => .leave .transit m
  | .got (pa, _, e) m =>
    if !m.quiet t.id h.tid then .hold else
    let msg : LeaveMsg := { id := m.nextId, team := t.id, tid := h.tid, desc := pa }
    let n := m.fresh.updThread t.id h.tid fun x => x.dropHeld e
    .ok { n with ushers := { n.ushers with leaves := n.ushers.leaves ++ [msg] } }

/-- The checks of a descriptor leave the teams as they were. -/
theorem roomDesc_looks {t : Team} {h : Thread} {s m : State} {va : W64} {pa : Nat} (hr : roomDesc t h s va = .got pa m) : Looks s m := by
  have hc := checkAccess_looks s (t.coreOf h.tid) t.asid h.priv va 64 .read
  unfold roomDesc at hr
  split at hr
  · cases hr
  · split at hr
    next => cases hr
    next he =>
      rw [he] at hc
      split at hr
      · cases hr
      · split at hr <;> cases hr
        exact hc

theorem leaving_looks {w : RWord} {t : Team} {h : Thread} {s m : State} {z : Nat × Region × Held} (hl : leaving w t h s = .got z m) :
    Looks s m := by
  unfold leaving at hl
  dsimp only at hl
  split at hl
  next => cases hl
  next => cases hl
  next hr => split at hl <;> cases hl; exact roomDesc_looks hr

section
variable {w : RWord} {s s1 : State} {b : Bundle} {t t1 : Team} {x : Nat} {h1 : Thread} (c : Lane s b t (w.form [w.srcA 2] []) x s1 t1 h1)
include c

/-- A LEAVE with slots that are not used fills them first. -/
theorem leave_fills (hf : hasFill w t s x = true) : exec (.leave w) s = .next (s.fillAll w t b [x]) := by
  show execLeave w s = _
  unfold execLeave
  rw [c.clear.issues]
  simp [clear_gate c.clear, c.only, hf]

/-- With nothing to fill it gives its pair up and sends its message. -/
theorem leave_sends {pa : Nat} {r : Region} {e : Held} {m : State} (hf : hasFill w t s x = false) (hl : leaving w t1 h1 s1 = .got (pa, r, e) m)
    (hq : m.quiet t.id x = true) :
    Completes (.leave w) s b t { m.fresh.updThread t.id x (fun y => y.dropHeld e) with
      ushers := { m.ushers with leaves := m.ushers.leaves ++ [{ id := m.nextId, team := t.id, tid := x, desc := pa }] } } := by
  obtain rfl := lane_unchanged c rfl rfl
  have hm : m.team? t.id = some t1 := by rw [(leaving_looks hl).team, c.team]
  obtain ⟨v, hv, hs⟩ := keepsCast_updThread (id := t.id) (x := x) (g := fun y => y.dropHeld e) (fun _ => rfl) (fun _ => rfl) m.fresh t1 hm
  have ht : t1 = t := Option.some.inj (c.team.symm.trans (issuer_team c.clear.issues))
  have hrun : exec (.leave w) s1 = .next (s1.runOn (w.form [w.srcA 2] []) t [b] [{ acts := [x], all := [x] }] fun l s1 =>
      withLane (gives w) t.id (l.headD 0) s1) := by
    show execLeave w s1 = _
    unfold execLeave
    rw [c.clear.issues]
    simp only [clear_gate c.clear, c.only, List.filter_cons, List.filter_nil, hf, Bool.false_eq_true, if_false, List.isEmpty_nil,
      Bool.not_true, List.map_cons, List.map_nil]
    rfl
  refine ⟨_, hrun, runOn_advances rfl rfl c.clear ?_ hv (ht ▸ hs)⟩
  unfold withLane gives
  simp only [List.headD_cons, c.team, c.thread, hl, (lane_fields c).1, thread_tid c.thread, hq, Bool.not_true, Bool.false_eq_true, if_false]
  rfl

end

/-- Settles O32: a demand by where it stands, and a LEAVE by its slots. -/
theorem roomsAreEnteredAndLeft : Obligations.RoomsAreEnteredAndLeft := by
  refine ⟨fun i f ask s b t x hi c hx => ?demand, fun w s b t x s1 t1 h1 c => ⟨leave_fills c, fun pa r e m => leave_sends c⟩⟩
  case demand =>
    obtain ⟨he, hl, hk⟩ : exec i s = issueDemand f ask s ∧ f.long = false ∧ f.tok = none := by
      rcases hi with ⟨w, rfl, rfl, rfl⟩ | ⟨w, rfl, rfl, rfl⟩ | ⟨w, rfl, rfl, rfl⟩ <;> exact ⟨rfl, rfl, rfl⟩
    unfold Completes
    rw [he]
    exact ⟨fun h d m => issueDemand_sends c hx, fun d hd => issueDemand_stalls c hx hd,
      fun d a hd hr hteam htid => issueDemand_completes c hx hd hl hk hr hteam htid,
      fun d hd hr ha hb => issueDemand_leaves c hx hd hl hk hr ha hb⟩

end Sys2Proof.Rooms
end

section
/-! The cue engine's commands (R324-R329): what a group command comes to, and what the cues' own operations leave of the teams. -/

namespace Sys2Proof.Cues

open Sys2Proof Sys2Proof.Machine Sys2Proof.Laws Sys2Proof.Rounding Sys2Proof.Uniform Sys2Proof.CacheControl Sys2Proof.Waiting

/-! ## A lone lane (R328) -/

section
variable {s m : State} {b : Bundle} {t : Team} {f : Form} {x : Nat} {h : Thread} (c : Solo s b t f x h) (hl : f.long = false) (hk : f.tok = none)
include c hl hk

/-- A lone lane whose form marks nothing issues from the state as it is. -/
theorem lane_of_solo : Lane s b t f x s t h where
  clear := c.clear
  only := Transfer.active_of_solo c
  start := by rw [atIssue_plain hl hk, updThreads_id]
  team := issuer_team c.clear.issues
  thread := c.thread

/-- A lone lane that its instruction makes wait leaves its bundle. -/
theorem solo_leaves {i : Instr} {go : Team → Thread → State → Res} {w : Wait} (he : exec i s = issueLanes f (withLane go) s)
    (hg : go t h s = .leave w m) : ∃ s', exec i s = .next s' ∧ Leaves b t x w m s' := by
  refine ⟨_, ?_, runOn_leaves (s := s) (body := fun l s => withLane go t.id (l.headD 0) s) hl hk c.alone ?_⟩
  · rw [he]
    unfold issueLanes
    simp only [c.clear.issues, clear_gate c.clear, Transfer.active_of_solo c, List.map_cons, List.map_nil]
  · unfold withLane
    simp only [List.headD_cons, issuer_team c.clear.issues, c.thread, hg]

end

/-- Flags that enter a thread whose state line is resident leave its team its cast. -/
theorem enterFlags_cast {m : State} {u : Team} {id x : Nat} (g : W32) (hu : m.team? id = some u)
    (hr : ∀ h, u.thread? x = some h → h.absent.contains 0 = false) : ∃ v, (m.enterFlags id x g).team? id = some v ∧ SameCast u v := by
  unfold State.enterFlags
  split
  · exact ⟨u, hu, SameCast.refl u⟩
  · exact updLine0_cast hu hr (fun h => addFlags_tid h g) fun h => addFlags_singleStep h g

/-! ## CUEWAIT and CUEPROG (R328, R329) -/

section
variable {w : IWord} {s m : State} {b : Bundle} {t : Team} {x : Nat} {h : Thread} {p : Part} {ps : List Part}
  (c : Solo s b t (w.form (w.srcA 2 :: if bitOf w.md.toNat 0 then [{ r := w.d.toNat, n := 2 }] else []) []) x h) (hq : s.quiet t.id x = true)
  (hr : t.reach s h (h.pair w.a.toNat) 8 { align := 8 } = (.ok (some (p :: ps)), m)) (hlanded : m.unlanded (t.coreOf x) (p :: ps) = false)
include c hr

/-- Reading the counter leaves the lane's team as it was. -/
theorem team_counter : (m.readNat (t.coreOf x) (p :: ps)).1.team? t.id = some t := by
  have hm := reach_looks t s h (h.pair w.a.toNat) 8 { align := 8 }
  rw [hr] at hm
  have hread : Looks m (m.readNat (t.coreOf x) (p :: ps)).1 := readParts_looks m (t.coreOf x) (p :: ps)
  rw [(hm.trans hread).team, issuer_team c.clear.issues]

include hq hlanded

/-- A counter at its target lets the lane go on, with the flags that it joins. -/
theorem cuewait_goes (hv : (if bitOf w.md.toNat 0 then h.pair w.d.toNat else w.imm.setWidth 64).toNat ≤ (m.readNat (t.coreOf x) (p :: ps)).2) :
    let r := m.readNat (t.coreOf x) (p :: ps)
    Completes (.cuewait w) s b t (r.1.enterFlags t.id x
      (r.1.joinFlags t.id (t.coreOf x) (cueWaitScope w.md.toNat) p.key (toBytes 8 r.2) true)) := by
  intro r
  have hlane := lane_of_solo c rfl rfl
  obtain ⟨v, hv', hs⟩ := enterFlags_cast (r.1.joinFlags t.id (t.coreOf x) (cueWaitScope w.md.toNat) p.key (toBytes 8 r.2) true)
    (team_counter c hr) fun h hh => resident_of_active c.clear (by rw [hlane.only]; exact List.mem_singleton_self x) hh
  refine lane_completes hlane rfl ?_ hv' hs
  simp only [thread_tid c.thread, hq, Bool.not_true, Bool.false_eq_true, if_false, hr, onReach, hlanded, List.map_cons, List.headD_cons]
  rw [if_neg (Nat.not_lt.2 hv)]

/-- A counter below its target keeps it waiting at the instruction. -/
theorem cuewait_waits (hv : (m.readNat (t.coreOf x) (p :: ps)).2 < (if bitOf w.md.toNat 0 then h.pair w.d.toNat else w.imm.setWidth 64).toNat) :
    ∃ s', exec (.cuewait w) s = .next s' ∧ Leaves b t x (.cueWait (h.pair w.a.toNat)
      (if bitOf w.md.toNat 0 then h.pair w.d.toNat else w.imm.setWidth 64)) (m.readNat (t.coreOf x) (p :: ps)).1 s' := by
  refine solo_leaves c rfl rfl rfl ?_
  simp only [thread_tid c.thread, hq, Bool.not_true, Bool.false_eq_true, if_false, hr, onReach, hlanded]
  rw [if_pos hv]

end

/-- Settles O36: CUEWAIT by its counter, and CUEPROG as the result that it sends. -/
theorem cuesAreAwaited : Obligations.CuesAreAwaited := by
  intro w s b t x
  refine ⟨fun h p ps m c hq => ?wait, fun s1 t1 h1 => ?prog⟩
  case wait =>
    intro target hr hlanded r
    exact ⟨cuewait_goes c hq hr hlanded, cuewait_waits c hq hr hlanded⟩
  case prog =>
    intro n c v
    obtain ⟨hid, -, -, -, htid⟩ := lane_fields c
    refine lane_completes c rfl ?_ c.team (SameCast.refl t1)
    rw [hid, htid] <;> rfl

/-! ## The command of one converged group (R43) -/

/-- The threads of an issue that is over are stepped only where they were. -/
theorem seated_unstepped {m : State} {f : Form} {b : Bundle} {t u : Team} (closes : Bool) (q : Quiet m b t.id) (hu : m.team? t.id = some u)
    {x : Nat} (hx : x ∈ b.tids) {y : Thread} (hy : (seated f b t.id closes m).thread? t.id x = some y) : y.singleStep = false := by
  obtain ⟨-, -, -, hteam⟩ := seated_spec f b t.id closes m
  obtain ⟨v, hv, -, hs⟩ := hteam u hu
  rw [State.thread?, hv, Option.bind_some] at hy
  have he := endedTeam_thread f b closes m.time u x
  have hin : b.tids.contains x = true := by simpa using hx
  simp only [hin, if_true] at he
  cases hux : u.thread? x with
  | none =>
    rw [hux] at he
    rw [hs.none x he] at hy
    cases hy
  | some h =>
    rw [hux] at he
    obtain ⟨k, hk, hrest, -⟩ := hs.threads x _ he
    cases hy.symm.trans hk
    rw [hrest]
    exact (endedThread_singleStep f b m.time h).trans (q.unstepped u hu h (List.mem_of_find?_eq_some hux) (by rwa [thread_tid hux]))

/-- What a single-step record would carry changes nothing where no thread is stepped. -/
theorem finish_idents {m : State} {f : Form} {b : Bundle} {t u : Team} (q : Quiet m b t.id) (hu : m.team? t.id = some u) (idx : Nat)
    (ids : List (Nat × W32)) :
    m.finish f t.id [b] idx { s := m, idents := ids } = m.finish f t.id [b] idx { s := m } := by
  have key : m.finish f t.id [b] idx { s := m, idents := ids }
      = ((if decide (b.count ≤ idx + 1) then
            ((ended f b t.id (decide (b.count ≤ idx + 1)) m).holdRoles t.id b.tids).arrive t.id b.tids
          else ended f b t.id (decide (b.count ≤ idx + 1)) m).stopLanes t.id []).stepStops t.id b.tids ids := by
    unfold State.finish
    simp only [List.map_cons, List.map_nil, List.flatten_cons, List.flatten_nil, List.append_nil, List.contains_nil, Bool.not_false,
      filter_all, List.foldl_cons, List.foldl_nil, Nat.zero_max, State.setWaits]
    rfl
  rw [key, ended_noRole q, stopLanes_nil, finish_ended q]
  exact stepStops_none fun x hx y hy => seated_unstepped _ q hu hx hy

section
variable {s s1 m : State} {b : Bundle} {t t1 : Team} {f : Form} {l : List Nat} {h : Thread} (c : OneGroup s b t f l s1 t1) (hc : Converged s b t l)
  (hx : t1.thread? (l.headD 0) = some h) {i : Instr} {act : Team → Thread → List Nat → State → Res} (he : exec i s = issueCommand f act s)
include c

theorem group_cast : SameCast t t1 := by
  have ht := c.team
  rw [c.start, team_updThreads _ _ (issuer_team c.clear.issues), Option.some.injEq] at ht
  rw [← ht]
  exact SameCast.upd t _ (atIssue_tid _) (atIssue_singleStep _)

/-- A group without destinations that come later and without a token issues from the state as it is. -/
theorem group_unchanged (hl : f.long = false) (hk : f.tok = none) : s1 = s ∧ t1 = t := by
  have hs : s1 = s := by rw [c.start, atIssue_plain hl hk, updThreads_id]
  exact ⟨hs, Option.some.inj (c.team.symm.trans (hs ▸ issuer_team c.clear.issues))⟩

theorem mem_headD : l.headD 0 ∈ l := by
  cases l with
  | nil =>
    have hnone : t.groupUnits b.tids [] = [] := List.filterMap_eq_nil_iff.2 fun _ _ => rfl
    exact absurd (hnone.symm.trans c.units) (List.cons_ne_nil _ _).symm
  | cons x l => exact List.mem_cons_self

include hc he in
/-- The command of a converged group that issues alone runs once, for the group. -/
theorem command_runs : exec i s = .next (s.runOn f t [b] [{ acts := l, all := l }] fun l s =>
    withLane (fun t h s => act t h l s) t.id (l.headD 0) s) := by
  obtain ⟨hissue, hconv⟩ := hc
  obtain ⟨hhead, htail⟩ := gate_pass (clear_gate c.clear)
  have hyes : ∀ v, v ≠ .yes → (if f.idle then [] else (s.boundGroups t b).map
      (t.convergence (s.members t b (s.boundGroups t b))
        ((s.members t b (s.boundGroups t b)).filter (s.comes t (s.members t b (s.boundGroups t b)) (b.idx t))) l)).contains v = false := by
    intro v hv
    rw [List.contains_eq_mem, decide_eq_false_iff_not]
    intro hm
    split at hm
    · cases hm
    · obtain ⟨k, hk, rfl⟩ := List.mem_map.1 hm
      exact hv (hconv k hk)
  rw [he]
  unfold issueCommand issueGroups
  rw [c.clear.issues]
  simp only [hissue, ite_self, List.map_cons, List.map_nil, List.flatten_cons, List.flatten_nil, List.append_nil, hhead, c.active,
    hyes .no (by decide), hyes .waits (by decide), htail, Bool.false_eq_true, if_false, c.units]

include hx in
/-- The unit of that run. -/
theorem command_unit : withLane (fun t h s => act t h l s) t.id (l.headD 0) s1 = act t1 h l s1 := by
  unfold withLane
  simp only [c.team, hx]

include hc hx he

/-- A command that goes on, whatever number a stepped thread would report. -/
theorem command_completes {v : Team} (hg : act t1 h l s1 = .ok m ∨ ∃ n, act t1 h l s1 = .okId n m) (hv : m.team? t.id = some v)
    (hs : SameCast t1 v) : Completes i s b t m := by
  have hcast := (group_cast c).trans hs
  have hq : Quiet m b t.id := quiet_of_clear c.clear hv (fun h hh _ => hcast.threads h hh) hcast.groups hcast.width
  have hunit := command_unit (act := act) c hx
  refine ⟨_, command_runs c hc he, ?_⟩
  unfold State.runOn
  simp only [List.map_cons, List.map_nil, List.flatten_cons, List.flatten_nil, List.append_nil, ← c.start, runUnits, hunit,
    Bool.false_eq_true, if_false, List.foldl_cons, List.foldl_nil, Nat.zero_max]
  rcases hg with hok | ⟨n, hok⟩ <;> simp only [hok, Run.add, Bool.false_eq_true, if_false]
  · exact finish_advances hq
  · rw [finish_idents hq hv]
    exact finish_advances hq

/-- A command that is held after a part of its effect keeps its bundle waiting. -/
theorem command_held {g : State → State} (hg : act t1 h l s1 = .holdAfter g) : exec i s = .next ((g s).stall b) := by
  rw [command_runs c hc he]
  unfold State.runOn
  simp only [List.map_cons, List.map_nil, List.flatten_cons, List.flatten_nil, List.append_nil, ← c.start, runUnits,
    command_unit c hx, hg, Run.add, Bool.false_eq_true, if_false, if_true, List.foldl_cons, List.foldl_nil]

/-- One that cannot issue yet does too, and nothing has happened. -/
theorem command_stalls (hg : act t1 h l s1 = .hold) : exec i s = .next (s.stall b) := by
  rw [command_runs c hc he]
  unfold State.runOn
  simp only [List.map_cons, List.map_nil, List.flatten_cons, List.flatten_nil, List.append_nil, ← c.start, runUnits,
    command_unit c hx, hg, Run.add, Bool.false_eq_true, if_false, if_true, List.foldl_cons, List.foldl_nil, id_eq]

end

/-! ## Cues change no team -/

@[simp] theorem updCue_teams (s : State) (core slot : Nat) (f : Cue → Cue) : (s.updCue core slot f).teams = s.teams := rfl
@[simp] theorem activate_teams (s : State) (core slot : Nat) : (s.activate core slot).teams = s.teams := rfl
@[simp] theorem endStream_teams (s : State) (core slot : Nat) : (s.endStream core slot).teams = s.teams := rfl
@[simp] theorem dropJob_teams (s : State) (core slot : Nat) : (s.dropJob core slot).teams = s.teams := rfl

@[simp] theorem arm_teams (s : State) (core slot : Nat) : (s.arm core slot).teams = s.teams := by
  unfold State.arm
  split
  · rfl
  · split <;> rfl

@[simp] theorem decrement_teams (s : State) (core slot gen : Nat) : (s.decrement core slot gen).teams = s.teams := by
  unfold State.decrement
  split
  · rfl
  · split
    · rfl
    · dsimp only
      split <;> rfl

@[simp] theorem rearm_teams (s : State) (c : Cue) : (s.rearm c).teams = s.teams := by
  unfold State.rearm
  split
  · exact arm_teams _ _ _
  · split <;> rfl
  · rfl

theorem shootDown_teams (s : State) (n : Names) (ext core : Nat) (owner : Option Nat) (clears : Bool) :
    (s.shootDown n ext core owner clears).teams = s.teams := by
  unfold State.shootDown
  dsimp only
  split <;> rfl

theorem unmark_teams (s : State) (c : Cue) : (s.unmark c).teams = s.teams := by
  unfold State.unmark
  split
  · rfl
  · dsimp only [State.updCue]
    rw [shootDown_teams]
    exact (Looks.of_touches (touches_foldl (fun _ _ => writeNow_touches _ _ _ _) c.marks s)).teams

@[simp] theorem endKill_teams (s : State) (c : Cue) (f : W32) : (s.endKill c f).teams = s.teams := by
  unfold State.endKill
  dsimp only [State.updCue, State.fresh]
  rw [unmark_teams]

@[simp] theorem killCue_teams (s : State) (c : Cue) : (s.killCue c).teams = s.teams := by
  unfold State.killCue
  split
  case h_1 | h_2 | h_3 => rfl
  case h_4 | h_5 => exact endKill_teams s c 0
  case h_6 => split <;> simp
  case h_7 =>
    split
    case h_1 | h_2 => exact endKill_teams s c 0
    case h_3 => split <;> simp
    case h_4 => dsimp only; split <;> simp

/-! ## CUEDEP, CUEARM and CUEKILL (R325-R327) -/

theorem team_congr {s m : State} (h : m.teams = s.teams) (id : Nat) : m.team? id = s.team? id := by
  unfold State.team?
  rw [h]

/-- A successor that is not armed yet or waits, and that an edge more may reach, breaks no limit of R325. -/
theorem cuedep_legal {x : Cue} (hst : x.st = .defined ∨ x.st = .armed) (hroom : x.reached < x.preds) :
    (!(decide (x.st = .defined) || decide (x.st = .armed)) || decide (x.preds ≤ x.reached)) = false := by
  rcases hst with hst | hst <;> simpa [hst] using hroom

section
variable {w : CWord} {s s1 : State} {b : Bundle} {t t1 : Team} {l : List Nat} {h : Thread}

section
variable {x : Cue} (c : OneGroup s b t (w.form [w.srcA] []) l s1 t1) (hc : Converged s b t l) (hx : t1.thread? (l.headD 0) = some h)
  (hsucc : s1.cueOf t1 (h.reg (w.a.toNat + 1)) = some x) (hst : x.st = .defined ∨ x.st = .armed) (hroom : x.reached < x.preds)
include c hc hx hsucc hst hroom

/-- A predecessor that is stale has served its edge. -/
theorem cuedep_stale (hp : s1.cueOf t1 (h.reg w.a.toNat) = none) :
    Completes (.cuedep w) s b t ((s1.updCue x.core x.slot fun y => { y with reached := y.reached + 1 }).decrement x.core x.slot x.gen) := by
  refine command_completes c hc hx rfl (.inl ?_) (team_congr (by simp) t.id |>.trans c.team) (SameCast.refl t1)
  simp only [hsucc, hp, cuedep_legal hst hroom, Bool.false_or, Option.map_none, Option.getD_none, Bool.false_eq_true, if_false]

/-- The edge of one that is live is recorded with it, and one that is DONE has served it. -/
theorem cuedep_records {p : Cue} (hp : s1.cueOf t1 (h.reg w.a.toNat) = some p) (hother : ¬(p.core = x.core ∧ p.slot = x.slot))
    (hfew : p.edges.length < 8) :
    let s3 := (s1.updCue x.core x.slot fun y => { y with reached := y.reached + 1 }).updCue p.core p.slot fun z =>
      { z with edges := z.edges ++ [(x.core, x.slot, x.gen)] }
    Completes (.cuedep w) s b t (if p.st = .done then s3.decrement x.core x.slot x.gen else s3) := by
  intro s3
  refine command_completes c hc hx rfl (.inl ?_) (team_congr ?_ t.id |>.trans c.team) (SameCast.refl t1)
  · have hdistinct : (decide (p.core = x.core) && decide (p.slot = x.slot)) = false := by simpa using hother
    simp only [hsucc, hp, cuedep_legal hst hroom, hdistinct, Nat.not_le.2 hfew, decide_false, Bool.false_or, Option.map_some, Option.getD_some,
      Bool.false_eq_true, if_false, s3]
  · split <;> simp [s3]

end

section
variable (c : OneGroup s b t (idForm w [{ r := w.d.toNat, n := 1 }]) l s1 t1) (hc : Converged s b t l) (hx : t1.thread? (l.headD 0) = some h)
include c hc hx

/-- A command that gives its lanes a value, after changes to no team, completes. -/
theorem command_gives {i : Instr} {act : Team → Thread → List Nat → State → Res} {m : State} {v : W32} (he : exec i s = issueCommand (idForm w [{ r := w.d.toNat, n := 1 }]) act s)
    (hm : ∃ u, m.team? t.id = some u ∧ SameCast t1 u)
    (hg : act t1 h l s1 = .ok (m.giveAll t.id l w.d.toNat v) ∨ ∃ n, act t1 h l s1 = .okId n (m.giveAll t.id l w.d.toNat v)) :
    Completes i s b t (m.updThreads t.id l fun y => y.setReg w.d.toNat v) := by
  obtain ⟨u, hu, hs⟩ := hm
  obtain ⟨u', hu', hs'⟩ := keepsCast_updThreads (id := t.id) l (g := fun y => y.setReg w.d.toNat v) (fun y => setReg_tid y _ _)
    (fun y => setReg_singleStep y _ _) m u hu
  exact command_completes c hc hx he hg hu' (hs.trans hs')

/-- Arming answers the state that results, and 0 for a stale ID. -/
theorem cuearm_gives (hq : s1.quiet t.id h.tid = true) :
    (s1.cueOf t1 (h.reg w.a.toNat) = none → Completes (.cuearm w) s b t (s1.updThreads t.id l fun y => y.setReg w.d.toNat 0))
    ∧ ∀ x, s1.cueOf t1 (h.reg w.a.toNat) = some x → Completes (.cuearm w) s b t ((s1.rearm x).updThreads t.id l fun y =>
      y.setReg w.d.toNat (BitVec.ofNat 32 (((s1.rearm x).cue? x.core x.slot |>.map fun y => y.st.code).getD 0))) := by
  have hid := team_id c.team
  refine ⟨fun hnone => ?_, fun x hsome => ?_⟩
  · refine command_gives c hc hx rfl ⟨t1, c.team, SameCast.refl t1⟩ (.inr ⟨h.reg w.a.toNat, ?_⟩)
    simp only [hid, hq, hnone, Bool.not_true, Bool.false_eq_true, if_false]
  · refine command_gives c hc hx rfl ⟨t1, team_congr (rearm_teams s1 x) t.id |>.trans c.team, SameCast.refl t1⟩ (.inr ⟨h.reg w.a.toNat, ?_⟩)
    simp only [hid, hq, hsome, Bool.not_true, Bool.false_eq_true, if_false]

/-- Killing a stale ID answers 0. -/
theorem cuekill_stale (hnone : s1.cueOf t1 (h.reg w.a.toNat) = none) :
    Completes (.cuekill w) s b t (s1.updThreads t.id l fun y => y.setReg w.d.toNat 0) := by
  refine command_gives c hc hx rfl ⟨t1, c.team, SameCast.refl t1⟩ (.inl ?_)
  simp only [team_id c.team, hnone]

/-- The state line of the lane that a command acts for is resident. -/
theorem command_resident {h' : Thread} (hh : t1.thread? h.tid = some h') : h'.absent.contains 0 = false := by
  obtain ⟨-, rfl⟩ := group_unchanged c rfl rfl
  refine resident_of_active c.clear ?_ hh
  rw [c.active, thread_tid hx]
  exact mem_headD c

variable {x y : Cue} (hsome : s1.cueOf t1 (h.reg w.a.toNat) = some x) (hy : (s1.killCue x).cue? x.core x.slot = some y)
include hsome hy

/-- A kill that its cue's work keeps waits for the end of that work. -/
theorem cuekill_waits (hk : y.killing = true) : exec (.cuekill w) s = .next ((s.killCue x).stall b) := by
  refine command_held c hc hx (g := fun s => s.killCue x) rfl ?_
  simp only [hsome, hy, hk, if_true]

/-- Another one answers the state that results, with the flags of the work that it joins. -/
theorem cuekill_gives (hk : y.killing = false) :
    Completes (.cuekill w) s b t ((if (x.st = .active ∨ x.st = .faulted ∨ x.st = .killed) ∧ x.kind ≠ .walker
      then (s1.killCue x).enterFlags t.id h.tid y.flags else s1.killCue x).updThreads t.id l fun z =>
        z.setReg w.d.toNat (BitVec.ofNat 32 y.st.code)) := by
  have hteam : (s1.killCue x).team? t.id = some t1 := team_congr (killCue_teams s1 x) t.id |>.trans c.team
  refine command_gives c hc hx rfl ?_ (.inl ?_)
  · split
    · exact enterFlags_cast y.flags hteam fun h' hh => command_resident c hc hx hh
    · exact ⟨t1, hteam, SameCast.refl t1⟩
  · simp only [team_id c.team, hsome, hy, hk, Bool.false_eq_true, if_false, Bool.and_eq_true, Bool.or_eq_true, decide_eq_true_eq, or_assoc]

end

end

/-- Settles O35: an edge by its predecessor, and arming and killing as commands that give their lanes the resulting state. -/
theorem cuesAreCommanded : Obligations.CuesAreCommanded := by
  intro w s b t l s1 t1 h gives code hc hx
  refine ⟨fun x c hsucc hst hroom => ?dep, fun c => ⟨fun hq => cuearm_gives c hc hx hq, cuekill_stale c hc hx, fun x y hsome hy => ?kill⟩⟩
  case dep =>
    intro s2
    refine ⟨cuedep_stale c hc hx hsucc hst hroom, fun p hp hother hfew => ?_⟩
    have hrecords := cuedep_records c hc hx hsucc hst hroom hp hother hfew
    exact ⟨fun hdone => by simpa only [hdone, if_true] using hrecords, fun hopen => by simpa only [hopen, if_false] using hrecords⟩
  case kill =>
    intro joins
    have hgives := cuekill_gives c hc hx hsome hy
    refine ⟨cuekill_waits c hc hx hsome hy, fun hk hj => ?_, fun hk hj => ?_⟩
    · have hg := hgives hk
      rw [if_pos (by exact hj)] at hg
      exact hg
    · have hg := hgives hk
      rw [if_neg (by exact hj)] at hg
      exact hg

end Sys2Proof.Cues
end

section
/-! Definitions of cues (R210, R324): while a shoot-down that clears page marks is under way a definition waits, so that it gives no ID yet. -/

namespace Sys2Proof.Definitions

open Sys2Proof Sys2Proof.Machine Sys2Proof.Laws Sys2Proof.Cues

/-! ## A definition that waits -/

/-- A CUENEW waits for the end of a shoot-down that clears marks, whatever its template says (R210). -/
theorem cuenew_waits {w : CWord} {s s1 : State} {b : Bundle} {t t1 : Team} {l : List Nat} {h : Thread}
    (c : OneGroup s b t { defineForm w with quad := some w.b.toNat } l s1 t1) (hc : Converged s b t l) (hx : t1.thread? (l.headD 0) = some h)
    (hclears : s1.units.shoots.any Shoot.clears = true) : exec (.cuenew w) s = .next (s.stall b) := by
  refine command_stalls c hc hx (act := defineCommand w none w.md.toNat false false) rfl ?_
  unfold defineCommand
  rw [hclears, Bool.or_true, if_pos rfl]

/-- An instruction that makes its bundle wait at the end of a clause does not complete: the bundle is still there. -/
theorem not_completes_of_stall {i : Instr} {s m : State} {b : Bundle} {t : Team} (he : exec i s = .next (s.stall b)) (hb : b ∈ s.bundles)
    (hends : ends b t = true) : ¬ Completes i s b t m := by
  rintro ⟨s', hn, hadv⟩
  rw [he] at hn
  cases hn
  refine hadv.ended hends { b with stalled := true } (List.mem_map.2 ⟨b, hb, ?_⟩) rfl
  rw [if_pos (decide_eq_true rfl)]

/-! ## A group that defines a cue while marks are cleared -/

/-- The team of the model's own probe, whose x2 holds the address of a template. -/
def team : Team :=
  let t := probeTeam State.reset
  { t with threads := t.threads.map fun h => h.setPair 2 0x10000 }

def thread : Thread := (team.thread? 0).getD (Thread.fresh 0 0 0 0)

/-- A bundle of all its threads. -/
def bundle : Bundle :=
  { id := 2, team := team.id, slot := 0, tids := List.range 16, start := 0, count := 1, cls := 0, notBefore := 0, stalled := false }

/-- A shoot-down by which the marks of another cue are cleared, and which core 1 has still to answer (R210, R211). -/
def shoot : Shoot := { id := 3, kind := 0, vas := [], asid := 0, units := [1], owner := none, clears := true }

/-- The bundle is about to issue over a template of a stream at 0x10000 (R316). -/
def defining : State :=
  { State.reset with
    cur := .bundle bundle.id
    nextId := 4
    mem := putLe (putLe [] 0x10000 8 0x403) 0x10008 8 0x10000
    teams := [team]
    bundles := [bundle]
    units := { State.reset.units with tlb := [probeTlb (clusterUnit 0)], windows := [(clusterUnit 0, 0, [])], shoots := [shoot] }
    ctl := State.reset.ctl.open0 (home 0x10000) }

/-- CUENEW with its template at x2, its origin in x4 to x7 and no counter in x12. -/
def cuenew : CWord := { d := 10, a := 2, b := 4, c := 12, g := 7, gn := 0, fe := 0, md := 0, tk := 15, cp := 0 }

def form : Form := { defineForm cuenew with quad := some cuenew.b.toNat }

theorem defining_clear : Clear defining bundle team form where
  issues := by decide +kernel
  privilege := fun h => nomatch h
  formed := by decide +kernel
  quad := by decide +kernel
  allot := by decide +kernel
  resident := by decide +kernel
  kFree := by decide +kernel
  full := by decide +kernel
  token := fun _ h => nomatch h
  unstepped := by decide +kernel
  noRole := by decide +kernel

theorem defining_group : OneGroup defining bundle team form (List.range 16) defining team where
  clear := defining_clear
  paired := by decide +kernel
  active := by decide +kernel
  units := by rfl
  start := by decide +kernel
  team := by decide +kernel

theorem defining_converged : Converged defining bundle team (List.range 16) := by
  unfold Converged
  decide +kernel

def isMade : Defined → Bool
  | .made _ _ => true
  | _ => false

theorem made_of_isMade {x : Defined} (h : isMade x = true) : ∃ c m, x = .made c m := by
  cases x with
  | made c m => exact ⟨c, m, rfl⟩
  | stop | park | full => cases h

/-- The template is legal, and a slot is free. -/
theorem defining_makes : ∃ c m, defineCue cuenew none cuenew.md.toNat team thread defining = .made c m :=
  made_of_isMade (by decide +kernel)

/-- Refutes O34: the group of `defining` has a legal definition and a free slot, and its accesses are over, but its CUENEW waits for the
shoot-down of another cue's pages; the statement asks for no state without such a shoot-down. -/
theorem not_cuesAreDefined : ¬ Obligations.CuesAreDefined := by
  intro h
  obtain ⟨q, m, hmade⟩ := defining_makes
  have hthread : team.thread? ((List.range 16).headD 0) = some thread := by decide +kernel
  have hquiet : defining.quiet team.id thread.tid = true := by decide +kernel
  obtain ⟨hgroup, -⟩ := h cuenew defining bundle team (List.range 16) defining team thread q m defining_converged hthread hquiet
  refine not_completes_of_stall (cuenew_waits defining_group defining_converged hthread rfl) ?_ ?_ ((hgroup defining_group).1 hmade)
  · exact List.mem_singleton_self bundle
  · decide +kernel

end Sys2Proof.Definitions
end

section
/-! The events of the Usher (R374-R376, R378, R383): a demand placed, the state machine of a region, a LEAVE and the curtain, and the answers. -/

namespace Sys2Proof.Ushers

open Sys2Proof Sys2Proof.Machine Sys2Proof.Laws

/-! ## A demand reaches its Usher (R374, R375, R383) -/

section
variable {s : State} {d : Demand} {r : Region}

/-- A demand that arrives alone, while no budget has passed and no LEAVE of its lane is on its way, is placed. -/
theorem usherDemand_places (hfind : (s.ushers.demands.find? fun x => x.id = d.id && !x.placed) = some d)
    (hbudget : ∀ x ∈ s.ushers.demands, s.budgetPassed x s.time = false) (hleaves : s.leavesFirst d = false) (halone : s.arriving d = [d]) :
    exec (.usherDemand d.id) s = .next (s.placeDemand d) := by
  have hdue : s.withdrawDue s.time = s := by
    unfold State.withdrawDue
    rw [List.filter_eq_nil_iff.2 fun x hx => by simp [hbudget x hx]]
    rfl
  show execUsherDemand d.id s = _
  unfold execUsherDemand
  simp only [hdue, hfind, halone, List.any_cons, List.any_nil, hleaves, Bool.or_self, Bool.false_eq_true, if_false, List.foldl_cons,
    List.foldl_nil]

/-- The state in which the region has taken the demand in. -/
def taken (s : State) (d : Demand) (r : Region) : State :=
  ({ s with ushers := { s.ushers with
      demands := updWhere s.ushers.demands (fun x => x.id = d.id) fun x => { x with placed := true, at_ := s.time } } } : State).applyRegion
    (r.demand d.mode s.time { team := d.team, tid := d.tid, count := d.count })

variable (hr : s.region? d.desc = some r)
include hr

theorem placeDemand_full (hfull : r.full d.mode = true) : s.placeDemand d = (s.giveBack d).demandStops d trapRoomWait := by
  unfold State.placeDemand
  simp only [hr, hfull, if_true]

theorem placeDemand_taken (hfull : r.full d.mode = false) (hkind : ∀ n, d.kind ≠ .etry n) : s.placeDemand d = taken s d r := by
  cases hk : d.kind with
  | etry n => exact absurd hk (hkind n)
  | enter | enterm =>
    unfold State.placeDemand
    simp only [hr, hfull, hk, Bool.false_eq_true, if_false]
    rfl

/-- An ETRY without a budget is answered at once. -/
theorem placeDemand_etry {n : Nat} (hfull : r.full d.mode = false) (hkind : d.kind = .etry n) :
    s.placeDemand d = if r.budget = 0 && (((taken s d r).demand? d.team d.tid).map fun x => x.answer.isNone).getD false
      then ((taken s d r).withdrawAt d.desc d.team d.tid).answerDemand d.team d.tid (false, 0, 0) else taken s d r := by
  unfold State.placeDemand
  simp only [hr, hfull, hkind, Bool.false_eq_true, if_false]
  rfl

end

/-! ## The state machine of a region (R374) -/

section
variable {r : Region} {mode now : Nat} {w : Waiter}

/-- A room of any mode has a place for a first occupant. -/
theorem cap_pos (r : Region) (mode : Nat) : 0 < r.cap mode := by
  unfold Region.cap
  split
  · exact Nat.one_pos
  · split <;> omega

/-- A demand at an idle region opens a room for its waiter. -/
theorem demand_opens (hidle : r.mode = none) (hempty : r.occupants = []) :
    let a := r.demand mode now w
    a.1.mode = some mode ∧ a.1.occ = 1 ∧ a.1.opened = now ∧ a.1.closing = false ∧ a.1.occupants = [(w.team, w.tid)]
      ∧ a.2.map (fun x => (x.team, x.tid)) = [(w.team, w.tid)] := by
  simp [Region.demand, hidle, Region.openFor, Region.admitFrom, cap_pos, Region.letIn, hempty]

/-- One for the mode of the open room enters it while it has places and nobody waits. -/
theorem demand_enters (hmode : r.mode = some mode) (hopen : r.closing = false) (hroom : r.occ < r.cap mode) (hline : r.line = []) :
    let a := r.demand mode now w
    a.1.occ = r.occ + 1 ∧ a.1.occupants = r.occupants ++ [(w.team, w.tid)] ∧ a.1.mode = some mode
      ∧ a.2.map (fun x => (x.team, x.tid)) = [(w.team, w.tid)] := by
  simp [Region.demand, hmode, hopen, hroom, hline, Region.letIn]

/-- Else it joins the room's waiting line. -/
theorem demand_lines (hmode : r.mode = some mode) (hopen : r.closing = false) (hfull : r.cap mode ≤ r.occ ∨ r.line ≠ []) :
    r.demand mode now w = ({ r with line := r.line ++ [w] }, []) := by
  have hshut : ¬(decide (r.occ < r.cap mode) && r.line.isEmpty) = true := by
    rw [Bool.and_eq_true, decide_eq_true_eq, List.isEmpty_iff]
    exact fun ⟨hlt, hnil⟩ => hfull.elim (Nat.not_le.2 hlt) fun hne => hne hnil
  unfold Region.demand
  simp only [hmode, hopen, Bool.false_eq_true, if_false, if_true, if_neg hshut]

/-- One for another mode, or at a closing room, waits in Q; at a room past its tenure it makes the room close. -/
theorem demand_queues {o : Nat} (hmode : r.mode = some o) (hother : r.mode ≠ some mode ∨ r.closing = true) :
    r.demand mode now w = (if r.closing = false ∧ r.expired now = true then ({ r with q := joinQ r.q mode [w] } : Region).close
      else { r with q := joinQ r.q mode [w] }, []) := by
  unfold Region.demand
  simp only [hmode]
  cases hclosing : r.closing with
  | true => simp
  | false =>
    have hne : o ≠ mode := fun he => by simp [hmode, he, hclosing] at hother
    cases r.expired now <;> simp [hne]

end

/-- After the curtain nothing waits, and the region is idle. -/
theorem next_idle {r : Region} (now : Nat) (hj : joinQ r.q (r.mode.getD 0) r.line = []) :
    r.next now = ({ r with mode := none, occ := 0, closing := false, line := [], q := [], occupants := [] }, []) := by
  unfold Region.next
  rw [hj]

/-- After the curtain the head of Q opens. -/
theorem next_opens {r : Region} (now : Nat) {e : Nat × List Waiter} {rest : List (Nat × List Waiter)}
    (hj : joinQ r.q (r.mode.getD 0) r.line = e :: rest) :
    r.next now = ({ r with q := rest, occupants := [] } : Region).openFor e.1 now e.2 := by
  unfold Region.next
  rw [hj]

/-! ## A LEAVE at the Usher (R374, R376) -/

section
variable {s : State} {l : LeaveMsg} {r : Region}

/-- The state in which a LEAVE is no longer on its way. -/
def arrived (s : State) (l : LeaveMsg) : State :=
  { s with ushers := { s.ushers with leaves := s.ushers.leaves.filter fun x => x.id ≠ l.id } }

/-- The region without the occupant that leaves. -/
def without (r : Region) (l : LeaveMsg) : Region :=
  { r with occ := r.occ - 1, occupants := r.occupants.filter fun x => x ≠ (l.team, l.tid) }

theorem usherLeave_arrives (hfind : (s.ushers.leaves.find? fun x => x.id = l.id) = some l) :
    exec (.usherLeave l.id) s = .next ((arrived s l).leaveRoom l.desc l.team l.tid) := by
  show execUsherLeave l.id s = _
  unfold execUsherLeave
  simp only [hfind]
  rfl

variable {m : State} (hr : m.region? l.desc = some r)
include hr

/-- A thread that is not in the room changes nothing. -/
theorem leaveRoom_stranger (hout : r.occupants.contains (l.team, l.tid) = false) : m.leaveRoom l.desc l.team l.tid = m := by
  unfold State.leaveRoom
  simp only [hr, hout, Bool.not_false, if_true]

/-- The last occupant draws the curtain, and the next mode opens. -/
theorem leaveRoom_last (honly : r.occupants = [(l.team, l.tid)]) (hocc : r.occ = 1) :
    m.leaveRoom l.desc l.team l.tid = (m.curtain { r with occ := 0, occupants := [] }).2.applyRegion
      ((m.curtain { r with occ := 0, occupants := [] }).1.next m.time) := by
  unfold State.leaveRoom
  simp [hr, honly, hocc]

variable (hin : r.occupants.contains (l.team, l.tid) = true) (hmore : 1 < r.occ)
include hin hmore

/-- Another occupant's place stays free where the room closes, where nobody waits in its line, or where it is full still. -/
theorem leaveRoom_leaves (hstays : r.closing = true ∨ r.line = [] ∨ r.cap (r.mode.getD 0) ≤ r.occ - 1) :
    m.leaveRoom l.desc l.team l.tid = m.setRegion (without r l) := by
  have hocc : r.occ - 1 ≠ 0 := by omega
  have hcap : (without r l).cap ((without r l).mode.getD 0) = r.cap (r.mode.getD 0) := rfl
  unfold State.leaveRoom
  simp only [hr, hin, Bool.not_true, Bool.false_eq_true, if_false, if_neg hocc]
  rw [if_pos]
  · rfl
  · rw [Bool.or_eq_true, Bool.or_eq_true, List.isEmpty_iff, decide_eq_true_eq, or_assoc]
    exact hstays

/-- Else the waiting line is admitted as far as there are places. -/
theorem leaveRoom_admits (hopen : r.closing = false) (hline : r.line ≠ []) (hroom : r.occ - 1 < r.cap (r.mode.getD 0)) :
    let a := ({ without r l with line := [] } : Region).admitFrom r.line
    m.leaveRoom l.desc l.team l.tid = m.applyRegion ({ a.1 with line := a.2.2 }, a.2.1) := by
  have hocc : r.occ - 1 ≠ 0 := by omega
  unfold State.leaveRoom
  simp only [hr, hin, Bool.not_true, Bool.false_eq_true, if_false, if_neg hocc]
  rw [if_neg]
  · rfl
  · rw [Bool.or_eq_true, Bool.or_eq_true, List.isEmpty_iff, decide_eq_true_eq, or_assoc]
    exact fun h => h.elim (by simp [hopen]) fun h => h.elim hline (Nat.not_le.2 hroom)

end

/-! ## Tenures, budgets and answers (R374, R378, R383) -/

/-- An open room that has reached its tenure while other modes wait becomes closing. -/
theorem tenureExpiry_closes {s : State} {r : Region} (hr : s.region? r.desc = some r) (hopened : r.mode.isSome = true)
    (hopen : r.closing = false) (hq : r.q ≠ []) (hterm : r.term ≤ s.time - r.opened) :
    exec (.tenureExpiry r.desc) s = .next (s.setRegion r.close) := by
  have hcheck : r.tenureCheck s.time = r.close := by
    simp [Region.tenureCheck, hopened, hopen, Region.expired, hterm, hq]
  show execTenureExpiry r.desc s = _
  unfold execTenureExpiry
  simp only [hr, hcheck]

/-- An ETRY whose budget has passed is withdrawn and answered with false. -/
theorem etryBudgetExpiry_withdraws {s : State} {d : Demand} {r : Region} {n : Nat} (hd : s.demand? d.team d.tid = some d)
    (hr : s.region? d.desc = some r) (hkind : d.kind = .etry n) (hplaced : d.placed = true) (hanswer : d.answer = none)
    (hbudget : r.budget ≤ s.time - d.at_) :
    exec (.etryBudgetExpiry d.team d.tid) s
      = .next ((s.setRegion (r.withdraw d.team d.tid)).answerDemand d.team d.tid (false, 0, 0)) := by
  have hpassed : s.budgetPassed d s.time = true := by
    simp [State.budgetPassed, hplaced, hanswer, hkind, hr, hbudget]
  show execEtryBudgetExpiry d.team d.tid s = _
  unfold execEtryBudgetExpiry
  simp only [hd, hpassed, if_true, State.withdrawn, State.withdrawAt, hr]

/-- The lane of an answered demand takes its answer and goes on. -/
theorem roomAdmission_resumes {s : State} {d : Demand} {a : Bool × W32 × W32} {t : Team} {h : Thread} (hd : s.demand? d.team d.tid = some d)
    (ha : d.answer = some a) (ht : s.team? d.team = some t) (hh : s.thread? d.team d.tid = some h) (hw : h.wait = .usher)
    (hlive : t.removed = false) : exec (.roomAdmission d.team d.tid) s = .next ((s.enterDone d a).resumePast d.team d.tid 0) := by
  show execRoomAdmission d.team d.tid s = _
  unfold execRoomAdmission
  simp only [hd, ht, hh, ha, hw, hlive, Bool.false_eq_true, if_false]

/-- Settles O49: a demand and a LEAVE by the state of their region, and each expiry and answer as it is due. -/
theorem usherEventsComplete : Obligations.UsherEventsComplete := by
  intro s d r
  refine ⟨?demand, fun mode now w => ⟨demand_opens, demand_enters, demand_lines, ?queues⟩, fun l hfind hr => ?leave,
    tenureExpiry_closes, fun n => etryBudgetExpiry_withdraws, fun a t h => roomAdmission_resumes⟩
  case demand =>
    intro hfind hr hbudget hleaves halone mark m p
    rw [usherDemand_places hfind hbudget hleaves halone]
    exact ⟨fun hfull => by rw [placeDemand_full hr hfull], fun hfull hkind => by rw [placeDemand_taken hr hfull hkind]; rfl,
      fun n hfull hkind => by rw [placeDemand_etry hr hfull hkind]; rfl⟩
  case queues =>
    intro hsome hother
    obtain ⟨o, hmode⟩ := Option.isSome_iff_exists.1 hsome
    rw [demand_queues hmode hother]
    refine ⟨rfl, ?_, ?_, fun hstays => if_neg fun h => ?_, fun hopen hexp => if_pos ⟨hopen, hexp⟩⟩
    · split <;> rfl
    · split <;> rfl
    · obtain ⟨hopen, hexp⟩ := h
      simp [hopen, hexp] at hstays
  case leave =>
    intro m mode head tail written shown left
    have hr' : (arrived s l).region? l.desc = some r := hr
    rw [usherLeave_arrives hfind]
    refine ⟨fun hout => by rw [leaveRoom_stranger hr' hout]; rfl, fun honly hocc => ?last, fun hin hmore => ⟨fun hstays => ?_, ?admits⟩⟩
    case last =>
      rw [leaveRoom_last hr' honly hocc]
      cases hj : joinQ r.q mode r.line with
      | nil => rw [next_idle (r := ((arrived s l).curtain { r with occ := 0, occupants := [] }).1) _ hj]; rfl
      | cons e rest => rw [next_opens (r := ((arrived s l).curtain { r with occ := 0, occupants := [] }).1) _ hj]; rfl
    · rw [leaveRoom_leaves hr' hin hmore hstays]
      rfl
    case admits =>
      intro w ws hopen hline hroom
      rw [leaveRoom_admits hr' hin hmore hopen (by simp [hline]) hroom, hline]
      rfl

end Sys2Proof.Ushers
end

section
/-! The host's queues, the ports, control space, links, sensors and bring-up (R417, R419, R420, R422-R424, R426, R429, R430). -/

namespace Sys2Proof.HostSide

open Sys2Proof Sys2Proof.Machine

/-! ## Host queues (R419, R420) -/

section
variable {s : State} {q : Nat}

theorem hostDoorbell_serves (tail : W32) (hq : q < 16) (hmay : s.ctl.hostMay (queueWord q 1) = true) :
    exec (.hostDoorbell q tail) s = .next (({ s with ctl := s.ctl.setHi32 (queueWord q 1) tail.toNat } : State).serveQueue q) := by
  show execHostDoorbell q tail s = _
  unfold execHostDoorbell
  simp only [Nat.not_le.2 hq, decide_false, hmay, Bool.not_true, Bool.or_self, Bool.false_eq_true, if_false]

/-- The oldest completion of a queue is written where its ring has room. -/
theorem hostCompletionWrite_writes {x : Completion} (hx : (s.ctl.completions.find? fun x => x.queue = q) = some x)
    (hon : s.ctl.queueOn q = true)
    (hroom : (s.ctl.doneTail q + 2 ^ 32 - s.ctl.doneHead q) % 2 ^ 32 < s.ctl.queueSize q)
    (hspace : ringSpace s.ctl ((s.ctl.reg (queueWord q 3)).toNat + 16 * (s.ctl.doneTail q % s.ctl.queueSize q)) = true) :
    let m := s.writeNow ((s.ctl.reg (queueWord q 3)).toNat + 16 * (s.ctl.doneTail q % s.ctl.queueSize q))
      (completionBytes (s.ctl.doneTail q) (s.ctl.queueSize q) x) false
    exec (.hostCompletionWrite q) s = .next { m with
      ctl := ({ m.ctl with completions := m.ctl.completions.erase x } : Ctl).setHi32 (queueWord q 4) (s.ctl.doneTail q + 1) } := by
  show execHostCompletionWrite q s = _
  unfold execHostCompletionWrite
  simp only [hx, hon, Nat.not_le.2 hroom, hspace, decide_false, Bool.not_true, Bool.or_self, Bool.false_eq_true, if_false]

theorem completionHeadWrite_writes (head : W32) (hq : q < 16) (hmay : s.ctl.hostMay (queueWord q 4) = true) :
    exec (.completionHeadWrite q head) s = .next { s with ctl := s.ctl.setLo32 (queueWord q 4) head.toNat } := by
  show execCompletionHeadWrite q head s = _
  unfold execCompletionHeadWrite
  simp only [Nat.not_le.2 hq, decide_false, hmay, Bool.not_true, Bool.or_self, Bool.false_eq_true, if_false]

end

/-! ## Ports (R423) -/

section
variable {s : State} {q port : Nat}

/-- Where a port's descriptor of a queue lies. -/
def descriptorAt (c : Ctl) (port q : Nat) : Nat := (c.reg (0x20 + 8 * port)).toNat + 32 * q

/-- The entry that a port reads out of a queue's descriptor. -/
def entryOf (port q : Nat) (b : List Byte) : PortQueue :=
  { port := port, queue := q, subBase := BitVec.ofNat 64 (fieldOf b 0 8), compBase := BitVec.ofNat 64 (fieldOf b 8 8),
    asid := BitVec.ofNat 16 (fieldOf b 16 2), size := fieldOf b 18 2, done := 0 }

/-- A port that may read a queue's descriptor lets go of the queue, keeps the entry that it has, or takes the entry, by the enable bit. -/
theorem queueEnable_looks (hport : port < 3) (hq : q < 256) (hready : s.ctl.ready = true)
    (hspace : ringSpace s.ctl (descriptorAt s.ctl port q) = true)
    (hmay : accessPasses s.ctl (portClass port) (descriptorAt s.ctl port q) false = true) :
    let m := s.push (lineOf (descriptorAt s.ctl port q))
    let b := m.peekBytes (descriptorAt s.ctl port q) 32
    let mine (p : PortQueue) : Bool := p.port = port && p.queue = q
    exec (.queueEnable port q) s =
      if !bitOf (fieldOf b 20 1) 0 then .next { m with ctl := { m.ctl with ports := m.ctl.ports.filter fun p => !mine p } }
      else if m.ctl.ports.any mine then .next m
      else .next { m with ctl := { m.ctl with ports := entryOf port q b :: m.ctl.ports } } := by
  intro m b mine
  show execQueueEnable port q s = _
  unfold execQueueEnable
  rw [if_neg]
  · rfl
  · unfold descriptorAt at hspace hmay
    simp [hport, hq, hready, hspace, hmay]

/-- A port that has carried out its work writes the work's completion. -/
theorem portWorkCompletion_writes {cells : List (Nat × BitVec 8)} {p : PortQueue} {bad : Bool} {ps : List Part} {s1 s2 : State}
    (hp : (s.ctl.ports.find? fun p => p.port = port && p.queue = q) = some p) (hsize : p.size ≠ 0) (hwork : s.portWork p cells = .got bad s1)
    (hreach : portReach s1 p (p.compBase + BitVec.ofNat 64 (16 * (p.done % p.size))) 16 .write = .got ps s2) :
    let body := workBody s2.choices bad
    let w := ps.foldl (fun s x => s.writeNow x.key ((body.drop x.pos).take x.len) x.nc) { s2 with choices := s2.choices + 16 }
    exec (.portWorkCompletion port q cells) s = .next { w with ctl := { w.ctl with
      ports := updWhere w.ctl.ports (fun x => x.port = port && x.queue = q) fun x => { x with done := x.done + 1 } } } := by
  intro body w
  show execPortWorkCompletion port q cells s = _
  unfold execPortWorkCompletion
  simp only [hp, if_neg hsize, hwork, hreach]
  rfl

end

/-! ## Control space (R417, R424, R426) -/

section
variable {s : State}

/-- A half of an access-table entry is written; of its upper word the low 35 bits. -/
theorem accessTableWrite_puts {n k h : Nat} (v : W64) (hready : s.ctl.ready = true) (hn : n < 516) (hk : k < 6) (hh : h < 32) :
    let off := 0x2000000 + 0x1000 * n + 0x100 * k + 8 * h
    let kept := if h % 2 = 0 then v else BitVec.ofNat 64 (v.toNat % 2 ^ 35)
    exec (.accessTableWrite off v) s = .next { s with ctl := s.ctl.setReg off kept } := by
  intro off kept
  have hlow : (off - 0x2000000) % 16 = 0 ↔ h % 2 = 0 := by omega
  show execAccessTableWrite _ v s = _
  unfold execAccessTableWrite
  rw [if_neg]
  · simp only [hlow, kept]
  · simp only [hready, Bool.not_true, Bool.false_or, Bool.or_eq_true, decide_eq_true_eq]
    omega

/-- A register of the bring-up block that control processors may write. -/
theorem controlRegisterWrite_setting {n : Nat} (v : W64) (hlo : 1 ≤ n) (hhi : n ≤ 6) :
    exec (.controlRegisterWrite (8 * n) v) s = .next { s with ctl := s.ctl.setReg (8 * n) v } := by
  show execControlRegisterWrite (8 * n) v s = _
  unfold execControlRegisterWrite
  rw [if_neg, if_pos (by omega)]
  simp only [hostRegister, Bool.or_eq_true, Bool.and_eq_true, decide_eq_true_eq]
  omega

/-- An aperture keeps the low 15 bits that are written. -/
theorem controlRegisterWrite_aperture {n : Nat} (v : W64) (hn : n < 2048) :
    exec (.controlRegisterWrite (0x1000000 + 8 * n) v) s =
      .next { s with ctl := s.ctl.setReg (0x1000000 + 8 * n) (BitVec.ofNat 64 (v.toNat % 2 ^ 15)) } := by
  show execControlRegisterWrite (0x1000000 + 8 * n) v s = _
  unfold execControlRegisterWrite
  rw [if_neg, if_neg (by omega), if_neg (by omega), if_neg (by omega), if_pos (by omega)]
  simp only [hostRegister, Bool.or_eq_true, Bool.and_eq_true, decide_eq_true_eq]
  omega

/-- The host's request goes to the mailbox and is answered. -/
theorem attestationRequest_answers (nonce : BitVec 256) (hmay : s.ctl.hostMay 0x5000020 = true) :
    let asks := (List.range 4).foldl (fun (c : Ctl) i => c.setReg (0x5000000 + 8 * i) (BitVec.ofNat 64 (nonce.toNat / 2 ^ (64 * i)))) s.ctl
    exec (.attestationRequest nonce) s = .next ({ s with ctl := asks } : State).attest := by
  show execAttestationRequest nonce s = _
  unfold execAttestationRequest
  simp only [hmay, Bool.not_true, Bool.false_eq_true, if_false]

/-! ## Links (R422) -/

theorem pathDown_removes {dev path : Nat} (hpath : path < 16) (hup : s.ctl.down.contains (dev, path) = false) :
    let m := s.updReqs (fun r => r.device s.ctl = some dev) fun r => { r with paths := r.paths.filter fun p => p ≠ path }
    exec (.pathDown dev path) s = .next { m with ctl := { m.ctl with down := (dev, path) :: m.ctl.down } } := by
  show execPathDown dev path s = _
  unfold execPathDown
  simp only [Nat.not_le.2 hpath, decide_false, hup, Bool.or_self, Bool.false_eq_true, if_false]

/-- Without an operation under way no lane is stopped at a request. -/
theorem stopReaders_idle (hops : s.flight.ops = []) (p : Req → Bool) (x : Req → Stop) : s.stopReaders p x = s := by
  unfold State.stopReaders
  simp [hops]

/-- A device without paths, for which nothing is under way, is cut off and loses the lines that it holds. -/
theorem deviceUnreachable_cuts {dev : Nat} (hthere : s.ctl.unreachable.contains dev = false) (hdown : ∀ p < 16, s.ctl.down.contains (dev, p) = true)
    (hreqs : s.flight.reqs = []) (hops : s.flight.ops = []) :
    exec (.deviceUnreachable dev) s = .next ((({ s with ctl := { s.ctl with unreachable := dev :: s.ctl.unreachable } } : State).loseDevice
      dev).log 6 8 0 (BitVec.ofNat 32 dev) 0) := by
  have hall : ((List.range 16).all fun p => s.ctl.down.contains (dev, p)) = true :=
    List.all_eq_true.2 fun p hp => hdown p (List.mem_range.1 hp)
  have hflight : ({ s.flight with ops := [], reqs := [] } : Flight) = s.flight := by rw [← hreqs, ← hops]
  have hnobody : (s.teams.map fun _ => ([] : List (Nat × Nat))).flatten = [] := by simp
  show execDeviceUnreachable dev s = _
  unfold execDeviceUnreachable
  simp only [hthere, hall, Bool.not_true, Bool.or_self, Bool.false_eq_true, if_false, stopReaders_idle hops, hreqs, hops, List.any_nil,
    Bool.false_and, Waiting.filter_never, List.map_nil, List.filter_nil, List.foldl_nil, hnobody, List.eraseDups_nil]
  rw [hflight]

/-! ## Power and bring-up (R429, R430) -/

section
variable {island : Nat} (hi : island < 128)
include hi

theorem thermalTrip_logs :
    exec (.thermalTrip island) s = .next ((s.sense island 1050 none (some 32)).log 8 (Config.islandDie island) island 0 0) := by
  show execThermalTrip island s = _
  unfold execThermalTrip
  rw [if_neg (Nat.not_le.2 hi)]

theorem powerCap_logs (hover : 1000 * (s.ctl.reg 0x18).toNat < s.ctl.power) :
    exec (.powerCap island) s = .next ((s.sense island 0 (some (bitsOf (s.ctl.reg (telemetryOf island)).toNat 48 16)) none).log 7
      (Config.islandDie island) island 0 0) := by
  show execPowerCap island s = _
  unfold execPowerCap
  simp only [Nat.not_le.2 hi, Nat.not_le.2 hover, decide_false, Bool.or_self, Bool.false_eq_true, if_false]

end

/-- A part that is neither up nor halted comes up with firmware that is verified, and halts with other. -/
theorem bringUp_decides (verified : Bool) (block : List (Nat × BitVec 64)) (hready : s.ctl.ready = false) (hhalted : s.ctl.halted = false) :
    exec (.bringUp verified block) s =
      let m := s.bringUpFields block
      if verified then .next ((List.range 16).foldl (fun s q => s.serveQueue q)
        { m with ctl := ({ m.ctl with ready := true, measured := m.ctl.measure } : Ctl).setReg 0 2 })
      else .next (({ s with ctl := ({ s.ctl with halted := true } : Ctl).setReg 0 1 } : State).log 9 8 0 0 0) := by
  show execBringUp verified block s = _
  unfold execBringUp
  simp only [hready, hhalted, Bool.or_self, Bool.false_eq_true, if_false]
  cases verified with
  | true => simp only [Bool.not_true, Bool.false_eq_true, if_false, if_true]
  | false => simp only [Bool.not_false, Bool.false_eq_true, if_false, if_true]

end

/-- Settles O52: each event does what its rule says once nothing keeps it. -/
theorem hostEventsComplete : Obligations.HostEventsComplete := by
  intro s q
  refine ⟨hostDoorbell_serves, fun x hx hon => hostCompletionWrite_writes hx hon, completionHeadWrite_writes, fun port hport hq hready => ?enable,
    fun port cells p bad ps s1 s2 => portWorkCompletion_writes, fun n k h v => accessTableWrite_puts v, attestationRequest_answers,
    fun n v => controlRegisterWrite_setting v, fun n v => controlRegisterWrite_aperture v, fun dev path => pathDown_removes,
    fun dev => deviceUnreachable_cuts, fun hi => ⟨thermalTrip_logs hi, powerCap_logs hi⟩,
    fun block hready hhalted => ⟨bringUp_decides true block hready hhalted, bringUp_decides false block hready hhalted⟩⟩
  case enable =>
    intro at_ m b mine hspace hmay
    rw [queueEnable_looks hport hq hready hspace hmay]
    refine ⟨fun hoff => if_pos ?_, fun hon hnew => (if_neg ?_).trans (if_neg ?_)⟩
    · rw [Bool.not_eq_true']
      exact hoff
    · rw [Bool.not_eq_true', Bool.not_eq_false]
      exact hon
    · rw [Bool.not_eq_true]
      exact hnew

end Sys2Proof.HostSide
end

section
/-! Coherence (R339-R345, R348, R349, R353, R424, R427): probes and their answers, owners and the host, lost lines and failing storage. -/

namespace Sys2Proof.Owners

open Sys2Proof Sys2Proof.Machine Sys2Proof.Laws Sys2Proof.MemoryEvents

/-! ## Probes and their answers (R339-R341, R345, R348) -/

section
variable {s : State} {line : Nat} {t : Txn}

/-- The write to a line with a receiver's answer to its probe. -/
def told (s : State) (line : Nat) (t : Txn) (p : Probe) (who : Sharer) : State :=
  let c := s.coh.applyProbe line p t.elems t.data
  { s with coh := { c with txns := updWhere c.txns (fun x => x.line = line) fun x =>
    { x with probes := updWhere x.probes (fun q => q = p) fun q => { q with reply := some (c.answer line who) } } } }

theorem answerProbe_tells {p : Probe} {who : Sharer} (ht : s.txn? line = some t)
    (hp : (t.probes.find? fun p => p.dest = who && p.reply.isNone) = some p) : s.answerProbe line who = told s line t p who := by
  unfold State.answerProbe
  simp only [ht, hp]
  rfl

theorem probe_tells {p : Probe} {n : Nat} (ht : s.txn? line = some t) (hn : ∀ d, sharerOf n ≠ .rdc d)
    (hp : (t.probes.find? fun p => p.dest = sharerOf n && p.reply.isNone) = some p) :
    exec (.probe line n) s = .next (told s line t p (sharerOf n)) := by
  rw [← answerProbe_tells ht hp]
  show execProbe line n s = _
  unfold execProbe
  split
  next d hd => exact absurd hd (hn d)
  next => rfl

variable {e : DirEntry} (ht : s.txn? line = some t) (hmates : s.mates line = [t]) (he : s.coh.entry? line = some e)
  (hall : ∀ p ∈ t.probes, p.reply ≠ none)
include ht hmates he hall

/-- Some receiver has answered that it holds the other half of the entry's region (R340). -/
def splits (e : DirEntry) (line : Nat) (t : Txn) : Bool :=
  conflicts e line ((t.probes.filter fun p => p.act ≠ .census).filterMap Probe.reply)

/-- The sharers of an entry that a write has not probed. -/
def spared (e : DirEntry) (t : Txn) : List (Sharer × BitVec 9) := e.sharers.filter fun x => !(t.probes.map Probe.dest).contains x.1

omit hmates hall in
/-- A conflict asks a census of every sharer that the write has spared. -/
theorem censuses_eq : s.coh.censuses t = if splits e line t
    then (spared e t).map fun y => { dest := y.1, act := .census, changed := [], reply := none } else [] := by
  have hline : t.line = line := by simpa using List.find?_some ht
  have hasked : (fun (x : Sharer × BitVec 9) => !t.probes.any fun p => p.dest = x.1) = fun x => !(t.probes.map Probe.dest).contains x.1 := by
    funext x
    rw [Bool.eq_iff_iff]
    simp
  unfold Coh.censuses
  rw [hline, he]
  simp only [hasked]
  rfl

omit ht he in
theorem answered_all : (s.mates line).any (fun t => t.probes.any fun p => p.reply.isNone) = false := by
  rw [hmates]
  simpa [List.any_eq_false, Option.isNone_iff_eq_none] using hall

/-- With nobody left to ask the write is over at home. -/
theorem closeTxn_settles (hno : splits e line t = false ∨ spared e t = []) : s.closeTxn line = (s.settle t).endTxn t := by
  have hnone : s.coh.censuses t = [] := by
    rw [censuses_eq ht he]
    rcases hno with h | h <;> simp [h]
  have hans := answered_all hmates hall
  unfold State.closeTxn
  simp only [hans, Bool.false_eq_true, if_false]
  simp only [hmates, List.any_cons, List.any_nil, hnone, List.isEmpty_nil, Bool.not_true, Bool.or_self, Bool.false_eq_true, if_false,
    List.foldl_cons, List.foldl_nil]

/-- Else the censuses of the conflict go out. -/
theorem closeTxn_asks (hsplit : splits e line t = true) (hrest : spared e t ≠ []) :
    s.closeTxn line = { s with coh := { s.coh with txns := s.coh.txns.map fun x =>
      if x = t then { t with probes := t.probes ++ (spared e t).map fun y => { dest := y.1, act := .census, changed := [], reply := none } }
      else x } } := by
  have hcensus := censuses_eq ht he
  rw [hsplit, if_pos rfl] at hcensus
  have hans := answered_all hmates hall
  unfold State.closeTxn
  simp only [hans, Bool.false_eq_true, if_false]
  simp only [hmates, List.any_cons, List.any_nil, hcensus, List.isEmpty_map, Bool.or_false]
  rw [if_pos (by simpa using hrest)]
  congr 3
  funext x
  by_cases hx : x = t <;> simp [hx, hcensus]

omit hmates hall in
/-- What a settled write leaves of its entry: two halves after a conflict, else the entry without those that hold nothing. -/
theorem settle_eq : s.settle t = if splits e line t then s.splitBy e (s.coh.held t)
    else { s with coh := s.coh.leaveEntry line ((t.probes.map Probe.dest).filter fun w => s.coh.held t w = 0) } := by
  have hline : t.line = line := by simpa using List.find?_some ht
  unfold State.settle
  rw [hline, he]
  rfl

end

/-- A quiet entry grows over a sibling that is absent. -/
theorem directoryMerge_grows {s : State} {line level : Nat} {e : DirEntry}
    (he : (s.coh.dir.find? fun e => e.level = level && e.block ≤ line && line < e.block + levelSize level && 1 ≤ level
      && e.slice = home (lineOf line)) = some e) (howner : e.owner = none) (hquiet : 65536 ≤ s.time - e.quiet) (htxns : s.coh.txns = []) :
    let parent := e.block / (2 * levelSize level) * (2 * levelSize level)
    let sib := if e.block = parent then parent + levelSize level else parent
    (∀ x ∈ s.coh.dir, x.slice = e.slice → overlaps x.block (levelSize x.level) sib (levelSize level) = false) →
    exec (.directoryMerge line level) s = .next { s with coh :=
      (s.coh.putEntry e { e with level := level - 1, block := parent, quiet := s.time }).count e.slice 5 1 } := by
  intro parent sib hsib
  have hothers : (s.coh.dir.filter fun x => x.slice = e.slice && overlaps x.block (levelSize x.level) sib (levelSize level)) = [] := by
    refine List.filter_eq_nil_iff.2 fun x hx => ?_
    by_cases hslice : x.slice = e.slice <;> simp [hslice, hsib x hx]
  show execDirectoryMerge line level s = _
  unfold execDirectoryMerge
  simp only [he, howner, htxns, hquiet, Option.isNone_none, decide_true, Bool.and_self, Bool.not_true, List.any_nil, Bool.or_self,
    Bool.false_eq_true, if_false]
  split
  next => rfl
  next heq => exact absurd (hothers.symm.trans heq) (by simp)
  next hnil _ => exact absurd hothers hnil

/-! ## The entry of a line (R338, R339, R343) -/

section
variable {c : Coh} {line : Nat} {e n : DirEntry}

/-- An entry is the only one that covers a line. -/
def Alone (c : Coh) (line : Nat) (e : DirEntry) : Prop := ∀ x ∈ c.dir, x.covers line = true → x = e

/-- No entry that covers a line has an owner. -/
def Unowned (c : Coh) (line : Nat) : Prop := ∀ x ∈ c.dir, x.covers line = true → x.owner = none

theorem entry_mem (h : c.entry? line = some e) : e ∈ c.dir ∧ e.covers line = true := by
  unfold Coh.entry? at h
  split at h
  · exact ⟨List.mem_of_find?_eq_some h, by simpa using List.find?_some h⟩
  · cases h

theorem slice_of_covers (h : e.covers line = true) : e.slice = home line := by
  unfold DirEntry.covers at h
  simp only [Bool.and_eq_true, decide_eq_true_eq] at h
  exact h.1.1

theorem entry_head (hl : isDeviceLine line = true) (hn : n.covers line = true) (dir : List DirEntry) :
    ({ c with dir := n :: dir } : Coh).entry? line = some n := by
  unfold Coh.entry?
  rw [if_pos hl]
  exact List.find?_cons_of_pos hn

theorem Unowned.owner (h : Unowned c line) : c.owner? line = none := by
  unfold Coh.owner?
  cases hx : c.entry? line with
  | none => rfl
  | some x => exact h x (entry_mem hx).1 (entry_mem hx).2

theorem Alone.unowned (h : Alone c line e) (he : e.owner = none) : Unowned c line := by
  intro x hx hc
  rw [h x hx hc, he]

theorem mem_putEntry {x : DirEntry} (h : x ∈ (c.putEntry e n).dir) : x = n ∨ (x ∈ c.dir ∧ x ≠ e) := by
  unfold Coh.putEntry at h
  rcases List.mem_append.1 h with h | h
  · split at h
    · cases h
    · exact .inl (List.mem_singleton.1 h)
  · simpa using Or.inr (List.mem_filter.1 h)

theorem Alone.put (h : Alone c line e) : Alone (c.putEntry e n) line n := by
  intro x hx hc
  rcases mem_putEntry hx with rfl | ⟨hm, hne⟩
  · rfl
  · exact absurd (h x hm hc) hne

theorem Alone.put_unowned (h : Alone c line e) (hn : n.owner = none) : Unowned (c.putEntry e n) line := h.put.unowned hn

theorem Unowned.put (h : Unowned c line) (hn : n.owner = none) : Unowned (c.putEntry e n) line := by
  intro x hx hc
  rcases mem_putEntry hx with rfl | ⟨hm, -⟩
  · exact hn
  · exact h x hm hc

theorem Unowned.leave (h : Unowned c line) (gone : List Sharer) : Unowned (c.leaveEntry line gone) line := by
  unfold Coh.leaveEntry
  split
  next => exact h
  next e he => exact h.put (h e (entry_mem he).1 (entry_mem he).2)

/-- An entry with an owner is not freed. -/
theorem putEntry_owned (hn : n.owner.isSome = true) (e : DirEntry) :
    c.putEntry e n = { c with dir := n :: c.dir.filter fun x => x ≠ e } := by
  unfold Coh.putEntry
  simp [Option.isNone_eq_false_iff.2 hn]

/-! ## Entries in use (R342) -/

theorem entriesLive_without (he : e ∈ c.dir) :
    ((c.dir.filter fun x => x ≠ e).filter fun x => x.slice = e.slice).length + 1 ≤ c.entriesLive e.slice := by
  rw [List.filter_filter, List.filter_congr (fun x _ => Bool.and_comm _ _), ← List.filter_filter]
  exact List.length_filter_lt_length_iff_exists.2 ⟨e, List.mem_filter.2 ⟨he, by simp⟩, by simp⟩

theorem entriesLive_putEntry (he : e ∈ c.dir) : (c.putEntry e n).entriesLive e.slice ≤ c.entriesLive e.slice := by
  have hout := entriesLive_without he
  have hone : ((if n.sharers.isEmpty && n.owner.isNone then [] else [n]).filter fun x => x.slice = e.slice).length ≤ 1 :=
    Nat.le_trans (List.length_filter_le _ _) (by split <;> simp)
  unfold Coh.entriesLive at *
  unfold Coh.putEntry
  rw [List.filter_append, List.length_append]
  omega

theorem entriesLive_leaveEntry (c : Coh) (line : Nat) (gone : List Sharer) :
    (c.leaveEntry line gone).entriesLive (home line) ≤ c.entriesLive (home line) := by
  unfold Coh.leaveEntry
  split
  next => exact Nat.le_refl _
  next e he =>
    obtain ⟨hm, hc⟩ := entry_mem he
    rw [← slice_of_covers hc]
    exact entriesLive_putEntry hm

theorem leaveEntry_dir (c : Coh) (line : Nat) (gone : List Sharer) :
    c.leaveEntry line gone = { c with dir := (c.leaveEntry line gone).dir } := by
  unfold Coh.leaveEntry
  split <;> rfl

end

/-- Two states that differ in the directory and its counters at most. -/
def Regrouped (s m : State) : Prop := m = { s with coh := { s.coh with dir := m.coh.dir, counters := m.coh.counters } }

theorem Regrouped.trans {a b d : State} (h : Regrouped a b) (g : Regrouped b d) : Regrouped a d := by
  unfold Regrouped at *
  rw [h] at g
  exact g

/-- An entry split where its slice has room: at most one more entry, and no copy is lost (R340). -/
theorem splitBy_room {s : State} {e : DirEntry} (he : e ∈ s.coh.dir) (hroom : s.coh.entriesLive e.slice < 16384) (mask : Sharer → Nat) :
    Regrouped s (s.splitBy e mask) ∧ (s.splitBy e mask).coh.entriesLive e.slice ≤ s.coh.entriesLive e.slice + 1 := by
  have hout := entriesLive_without he
  unfold State.splitBy
  simp only [makeRoom_of_room hroom, ite_self]
  refine ⟨rfl, ?_⟩
  unfold Coh.entriesLive Coh.count at *
  simp only [List.filter_append, List.length_append]
  have htwo := Nat.le_trans (List.length_filter_le (fun x : DirEntry => decide (x.slice = e.slice)) (List.filter (fun h : DirEntry => !h.sharers.isEmpty)
    [{ e with level := e.level + 1, block := e.block + 0 * levelSize (e.level + 1), quiet := s.time,
              sharers := e.sharers.filter fun x => bitOf (mask x.1) 0 },
     { e with level := e.level + 1, block := e.block + 1 * levelSize (e.level + 1), quiet := s.time,
              sharers := e.sharers.filter fun x => bitOf (mask x.1) 1 }])) (List.length_filter_le _ _)
  simp only [List.length_cons, List.length_nil] at htwo
  omega

/-- With room for `n` more entries, `n` splits of a line's entry replace no other. -/
theorem isolate_room {line : Nat} (n : Nat) {s : State} (hroom : s.coh.entriesLive (home line) + n ≤ 16384) :
    Regrouped s (s.isolate line n) ∧ (s.isolate line n).coh.entriesLive (home line) ≤ s.coh.entriesLive (home line) + n := by
  induction n generalizing s with
  | zero => exact ⟨rfl, Nat.le_refl _⟩
  | succ n ih =>
    unfold State.isolate
    split
    next e he =>
      split
      · obtain ⟨hm, hc⟩ := entry_mem he
        have hslice := slice_of_covers hc
        obtain ⟨hsplit, hlive⟩ := splitBy_room hm (by rw [hslice]; omega) (s.coh.answer line)
        rw [hslice] at hlive
        obtain ⟨hrest, hmore⟩ := ih (s := s.splitBy e (s.coh.answer line)) (by omega)
        exact ⟨hsplit.trans hrest, by omega⟩
      · exact ⟨rfl, Nat.le_add_right _ _⟩
    next => exact ⟨rfl, Nat.le_add_right _ _⟩

/-! ## A line granted (R343) -/

/-- The other copies of a line gone, with the sharers that hold nothing any more. -/
def invalidated (c : Coh) (who : Sharer) (line : Nat) : Coh :=
  let asked := ((c.entry? line).map fun e => (e.sharers.filter fun x => x.1 ≠ who).length).getD 0
  let c0 := ({ c with copies := c.copies.filter fun (k : Copy) => !(k.line = line && k.st ≠ CopyState.loose) } : Coh).count (home line) 7 asked
  match c0.entry? line with
  | none => c0
  | some e => c0.leaveEntry line ((e.sharers.filter fun (x : Sharer × BitVec 9) => c0.answer line x.1 = 0).map Prod.fst)

/-- A line's entry with its new owner, which a line without an entry gets one for. -/
def owned (s : State) (who : Sharer) (line : Nat) : State :=
  match s.coh.entry? line with
  | some e => { s with coh := s.coh.putEntry e { e with owner := some (who, .e) } }
  | none =>
    let m := s.makeRoom (home line) none
    let block := line / 8192 * 8192
    let e : DirEntry := { slice := home line, block := block, level := 3, sharers := [], owner := some (who, .e),
                          quiet := m.coh.lastWrite (home line) block 3 }
    { m with coh := { m.coh with dir := e :: m.coh.dir } }

theorem invalidated_spec (c : Coh) (who : Sharer) (line : Nat) :
    invalidated c who line = { c with copies := c.copies.filter fun (k : Copy) => !(k.line = line && k.st ≠ CopyState.loose)
                                      dir := (invalidated c who line).dir
                                      counters := (invalidated c who line).counters }
    ∧ (invalidated c who line).entriesLive (home line) ≤ c.entriesLive (home line) := by
  unfold invalidated
  dsimp only
  split
  · exact ⟨rfl, Nat.le_refl _⟩
  · exact ⟨by rw [leaveEntry_dir]; rfl, entriesLive_leaveEntry _ _ _⟩

theorem owned_spec {s : State} {line : Nat} (hl : isDeviceLine line = true) (hroom : s.coh.entriesLive (home line) < 16384) (who : Sharer) :
    Regrouped s (owned s who line) ∧ (owned s who line).coh.owner? line = some (who, .e) := by
  unfold owned Coh.owner?
  split
  next e he =>
    rw [putEntry_owned rfl]
    refine ⟨rfl, ?_⟩
    rw [entry_head hl (by exact (entry_mem he).2)]
    rfl
  next =>
    simp only [makeRoom_of_room hroom]
    refine ⟨rfl, ?_⟩
    rw [entry_head hl]
    · rfl
    · have h := Nat.div_add_mod line 8192
      have hlt := Nat.mod_lt line (show 8192 > 0 by omega)
      unfold DirEntry.covers levelSize
      simp only [Bool.and_eq_true, decide_eq_true_eq]
      exact ⟨⟨trivial, by omega⟩, by omega⟩

theorem writeBack_unowned {s : State} {line : Nat} (h : s.coh.owner? line = none) (cells : List Host.Cell) (after : Option CopyState) :
    s.writeBack line cells after = s := by
  unfold State.writeBack
  rw [h]

section
variable {s : State} {line : Nat} {who : Sharer} (hl : isDeviceLine line = true) (hfree : s.blocked line = false)
  (hkept : s.coh.lost.contains line = false) (hread : s.lets who line false = true) (hwrite : s.lets who line true = true)
  (hnone : s.coh.owner? line = none)
include hl hfree hkept hread hwrite hnone

theorem grant_eq : s.grant who line =
    let m := owned (({ s with coh := invalidated s.coh who line } : State).isolate line 3) who line
    ({ m with coh := m.coh.setCopy { who := who, line := line, st := .e, data := getBytes s.mem line 128 } } : State).hold line := by
  unfold State.grant
  simp only [hl, hfree, hkept, hread, hwrite, Bool.not_true, Bool.or_self, Bool.false_eq_true, if_false, writeBack_unowned hnone]
  rfl

/-- A line that nobody owns goes to its new owner with the home's bytes, and no other tracked copy stays. -/
theorem grant_spec (hroom : s.coh.entriesLive (home line) + 4 ≤ 16384) :
    let m := s.grant who line
    m.mem = s.mem ∧ m.coh.tags = s.coh.tags ∧ m.coh.owner? line = some (who, .e)
      ∧ m.coh.copy? who line = some { who := who, line := line, st := .e, data := getBytes s.mem line 128 }
      ∧ ∀ k ∈ m.coh.copies, k.line = line → k.who ≠ who → k.st = .loose := by
  obtain ⟨hc, hlive⟩ := invalidated_spec s.coh who line
  have hfew : ({ s with coh := invalidated s.coh who line } : State).coh.entriesLive (home line) ≤ s.coh.entriesLive (home line) := hlive
  obtain ⟨hiso, hmore⟩ := isolate_room (s := { s with coh := invalidated s.coh who line }) (line := line) 3 (by omega)
  obtain ⟨hown, howner⟩ := owned_spec hl (Nat.lt_of_le_of_lt hmore (by omega)) who
  have hall := hiso.trans hown
  rw [grant_eq hl hfree hkept hread hwrite hnone]
  dsimp only
  generalize owned (({ s with coh := invalidated s.coh who line } : State).isolate line 3) who line = m at hall howner ⊢
  obtain ⟨hs, hf⟩ := hold_framed { m with coh := m.coh.setCopy { who := who, line := line, st := .e, data := getBytes s.mem line 128 } } line
  unfold Regrouped at hall
  unfold Framed at hf
  have hcopies : m.coh.copies = s.coh.copies.filter fun (k : Copy) => !(k.line = line && k.st ≠ CopyState.loose) := by rw [hall, hc]
  refine ⟨?_, ?_, ?_, ?_, ?_⟩
  · rw [hs, hall]
  · rw [hf, hall, hc]
    rfl
  · rw [hf]
    exact howner
  · rw [hf]
    simp [Coh.copy?, Coh.setCopy]
  · intro k hk hline hwho
    rw [hf] at hk
    have hk' : k ∈ m.coh.copies := by
      rcases List.mem_cons.1 hk with rfl | h
      · exact absurd rfl hwho
      · exact (List.mem_filter.1 h).1
    rw [hcopies] at hk'
    simpa [hline] using (List.mem_filter.1 hk').2

end

/-! ## A line written back (R336, R343) -/

theorem noteWrite_owned {c : Coh} {line : Nat} {e : DirEntry} (hl : isDeviceLine line = true) (he : c.entry? line = some e)
    (howned : e.owner.isSome = true) (now : Nat) :
    c.noteWrite now line = { c with written := keep 0 c.written line now, dir := { e with quiet := now } :: c.dir.filter fun x => x ≠ e } := by
  have he' : ({ c with written := keep 0 c.written line now } : Coh).entry? line = some e := he
  unfold Coh.noteWrite
  simp only [hl, if_true, he']
  exact putEntry_owned (n := { e with quiet := now }) howned e

theorem raiseTag_device {c : Coh} {line : Nat} (hl : isDeviceLine line = true) :
    c.raiseTag line = { c with tags := keep 0 c.tags line ((look 0 c.tags line + 1) % 2 ^ 24)
                               dirty := (c.raiseTag line).dirty, counters := (c.raiseTag line).counters } := by
  unfold Coh.raiseTag
  simp only [hl, Bool.true_or, if_true]
  rfl

section
variable {s : State} {line : Nat} {e : DirEntry} (hl : isDeviceLine line = true) (he : s.coh.entry? line = some e)
  (halone : Alone s.coh line e) (howned : e.owner.isSome = true)
include hl he halone howned

omit halone in
/-- What a write to an owned line records: its tag raised, and a new quiet time in its entry. -/
theorem recorded : ((s.coh.raiseTag line).noteWrite s.time line).tags = keep 0 s.coh.tags line ((s.tag line + 1) % 2 ^ 24)
    ∧ ((s.coh.raiseTag line).noteWrite s.time line).copies = s.coh.copies
    ∧ ((s.coh.raiseTag line).noteWrite s.time line).dir = { e with quiet := s.time } :: s.coh.dir.filter fun x => x ≠ e := by
  have hraise := raiseTag_device (c := s.coh) hl
  have he' : (s.coh.raiseTag line).entry? line = some e := by
    rw [hraise]
    exact he
  rw [noteWrite_owned hl he' howned, hraise]
  exact ⟨rfl, rfl, rfl⟩

/-- A write to an owned line leaves its entry with a new quiet time, its tag raised, and every copy. -/
theorem putLine_spec (data : List Byte) :
    let m := s.putLine line data
    m.mem = putBytes s.mem line data ∧ m.tag line = (s.tag line + 1) % 2 ^ 24 ∧ m.coh.copies = s.coh.copies
      ∧ m.coh.entry? line = some { e with quiet := s.time } ∧ Alone m.coh line { e with quiet := s.time } := by
  obtain ⟨htags, hcopies, hdir⟩ := recorded hl he howned
  obtain ⟨hs, hf⟩ := hold_framed { s with mem := putBytes s.mem line data, coh := (s.coh.raiseTag line).noteWrite s.time line } line
  have halone' : Alone ((s.coh.raiseTag line).noteWrite s.time line) line { e with quiet := s.time } := by
    intro x hx hc
    rw [hdir] at hx
    rcases List.mem_cons.1 hx with rfl | hx
    · rfl
    · exact absurd (halone x (List.mem_filter.1 hx).1 hc) (by simpa using (List.mem_filter.1 hx).2)
  have hentry : ((s.coh.raiseTag line).noteWrite s.time line).entry? line = some { e with quiet := s.time } := by
    unfold Coh.entry?
    rw [if_pos hl, hdir]
    exact List.find?_cons_of_pos (by exact (entry_mem he).2)
  unfold Framed at hf
  unfold State.putLine State.tag
  dsimp only
  refine ⟨by rw [hs], ?_, ?_, ?_, ?_⟩
  · rw [hf]
    show look 0 ((s.coh.raiseTag line).noteWrite s.time line).tags line = _
    rw [htags, look_keep, if_pos rfl]
    rfl
  · rw [hf]
    exact hcopies
  · rw [hf]
    exact hentry
  · rw [hf]
    exact halone'

variable {who : Sharer} {st : CopyState} {k : Copy} (ho : e.owner = some (who, st)) (hk : s.coh.copy? who line = some k)
  (hmod : k.modified = true)
include ho hk hmod

omit halone hl he howned ho hmod in
theorem copy_names : k.who = who ∧ k.line = line := by
  unfold Coh.copy? at hk
  simpa using List.find?_some hk

/-- An owner that keeps a line it has modified holds it shared. -/
theorem writeBack_shares :
    let m := s.writeBack line [] (some .s)
    m.mem = putBytes s.mem line k.data ∧ m.tag line = (s.tag line + 1) % 2 ^ 24 ∧ m.coh.owner? line = none
      ∧ m.coh.copy? who line = some { k with st := .s } := by
  obtain ⟨hmem, htag, hcopies, hentry, hquiet⟩ := putLine_spec hl he halone howned k.data
  have howner : s.coh.owner? line = some (who, st) := by unfold Coh.owner?; rw [he]; exact ho
  obtain ⟨hwho, hline⟩ := copy_names hk
  unfold State.writeBack
  simp only [howner, he, hk, hmod, List.filter_nil, ite_self, List.foldl_nil, Bool.true_or, if_true, hentry]
  refine ⟨hmem, htag, (Alone.put_unowned ?_ rfl).owner, ?_⟩
  · exact hquiet
  · unfold Coh.copy? Coh.putEntry Coh.setCopy
    rw [List.find?_cons_of_pos]
    simp [hwho, hline]

/-- One that gives it up holds nothing. -/
theorem writeBack_leaves :
    let m := s.writeBack line [] none
    m.mem = putBytes s.mem line k.data ∧ m.tag line = (s.tag line + 1) % 2 ^ 24 ∧ m.coh.owner? line = none
      ∧ m.coh.copy? who line = none := by
  obtain ⟨hmem, htag, hcopies, hentry, hquiet⟩ := putLine_spec hl he halone howned k.data
  have howner : s.coh.owner? line = some (who, st) := by unfold Coh.owner?; rw [he]; exact ho
  unfold State.writeBack
  simp only [howner, he, hk, hmod, List.filter_nil, ite_self, List.foldl_nil, Bool.true_or, if_true, hentry]
  refine ⟨hmem, htag, (Alone.put_unowned ?_ rfl).owner, ?_⟩
  · exact hquiet
  · unfold Coh.copy? Coh.putEntry Coh.dropCopy
    simp only [List.find?_eq_none, List.mem_filter]
    rintro x ⟨-, hx⟩ h
    simp [h] at hx

end

/-! ## Lost lines (R353) -/

/-- Nobody stops where no request names what they would wait for. -/
theorem stopReaders_none {s : State} {p : Req → Bool} (h : ∀ r ∈ s.flight.reqs, p r = false) (x : Req → Stop) : s.stopReaders p x = s := by
  have hstuck (o : Op) : s.stuckAt p o = none := by
    have hfind : ((s.flight.reqs.filter fun r => r.op = o.id).find? fun r => p r && r.unapplied) = none :=
      List.find?_eq_none.2 fun r hr => by simp [h r (List.mem_filter.1 hr).1]
    unfold State.stuckAt
    simp only [hfind]
    cases o.kind <;> rfl
  have hops : (s.flight.ops.filter fun o => (s.stuckAt p o).isSome) = [] := List.filter_eq_nil_iff.2 fun o _ => by simp [hstuck o]
  unfold State.stopReaders
  simp only [hops, List.filter_nil, List.foldl_nil]

/-- Coherence with a line that no agent tracks any more, marked LOST. -/
def untracked (c : Coh) (line : Nat) : Coh :=
  { c with copies := c.copies.filter fun (k : Copy) => !(k.line = line && k.st ≠ CopyState.loose)
           frames := framesLess c.frames line
           dirty := c.dirty.filter fun l => l ≠ line
           lost := line :: c.lost }

/-- The same with the line's owner out of its entry. -/
def disowned (c : Coh) (line : Nat) : Coh :=
  match c.entry? line with
  | some e => if e.owner.isSome then c.putEntry e { e with owner := none } else c
  | none => c

theorem disowned_spec {c : Coh} {line : Nat} (h : ∀ x ∈ c.dir, x.covers line = true → c.entry? line = some x) :
    disowned c line = { c with dir := (disowned c line).dir } ∧ Unowned (disowned c line) line := by
  unfold disowned
  split
  next e he =>
    have halone : Alone c line e := fun x hx hc => Option.some_inj.1 ((h x hx hc).symm.trans he)
    split
    · exact ⟨rfl, halone.put_unowned rfl⟩
    next hno => exact ⟨rfl, halone.unowned (by simpa using hno)⟩
  next hnone => exact ⟨rfl, fun x hx hc => absurd (hnone.symm.trans (h x hx hc)) (by simp)⟩

theorem sliceCounter_lost (s : State) (slice : Nat) : s.sliceCounter slice 10 = look 0 s.coh.counters (16 * slice + 10) := rfl

theorem counters_lost (c : Coh) (slice n : Nat) :
    look 0 ((c.count slice 7 n).count slice 10 1).counters (16 * slice + 10) = (look 0 c.counters (16 * slice + 10) + 1) % 2 ^ 64 := by
  unfold Coh.count
  simp [look_keep]

/-- A line marked LOST has no tracked copy and no owner; it keeps its tag, and nobody stops whose requests do not name it. -/
theorem markLost_spec {s : State} {line : Nat} (hl : isDeviceLine line = true) (hkept : s.coh.lost.contains line = false)
    (hreqs : ∀ r ∈ s.flight.reqs, line ∉ s.linesFor r) (honly : ∀ x ∈ s.coh.dir, x.covers line = true → s.coh.entry? line = some x) :
    let m := s.markLost line
    m.mem = s.mem ∧ m.teams = s.teams ∧ m.tag line = s.tag line ∧ m.coh.lost = line :: s.coh.lost ∧ m.coh.owner? line = none
      ∧ (∀ k ∈ m.coh.copies, k.line = line → k.st = .loose) ∧ m.ctl = (s.log 3 (homeDie line) (homeSlice line) 0 line).ctl
      ∧ m.sliceCounter (home line) 10 = (s.sliceCounter (home line) 10 + 1) % 2 ^ 64 := by
  obtain ⟨hdis, hun⟩ := disowned_spec (c := untracked s.coh line) (line := line) honly
  have hmark : ∃ gone n, s.markLost line =
      let c := ((disowned (untracked s.coh line) line).leaveEntry line gone).count (home line) 7 n
      ({ s with coh := c.count (home line) 10 1 } : State).log 3 (homeDie line) (homeSlice line) 0 line := by
    unfold State.markLost
    simp only [hl, hkept, Bool.not_true, Bool.or_self, Bool.false_eq_true, if_false]
    rw [stopReaders_none (by exact fun r hr => by simpa using hreqs r hr)]
    exact ⟨_, _, rfl⟩
  obtain ⟨gone, n, hm⟩ := hmark
  have hleave := leaveEntry_dir (disowned (untracked s.coh line) line) line gone
  rw [hm]
  refine ⟨rfl, rfl, ?_, ?_, (hun.leave gone).owner, ?_, rfl, ?_⟩
  · show look 0 ((disowned (untracked s.coh line) line).leaveEntry line gone).tags line = _
    rw [hleave, hdis]
    rfl
  · show ((disowned (untracked s.coh line) line).leaveEntry line gone).lost = _
    rw [hleave, hdis]
    rfl
  · intro k hk hline
    replace hk : k ∈ ((disowned (untracked s.coh line) line).leaveEntry line gone).copies := hk
    rw [hleave, hdis] at hk
    simpa [hline] using (List.mem_filter.1 hk).2
  · rw [sliceCounter_lost, sliceCounter_lost]
    refine (counters_lost _ _ _).trans ?_
    rw [hleave, hdis]
    rfl

/-! ## Failing storage (R427) -/

theorem eccError_logs (k u line : Nat) (lasting : Bool) (s : State) :
    let s1 := s.log (if lasting then 2 else 1) (storageDie k u line) u (BitVec.ofNat 32 k) (if k ≤ 3 then line else 0)
    exec (.eccError k u line lasting) s = .next (if lasting then s1.lastingError k u line else s1) := by
  cases lasting <;> rfl

/-- A row of which every line has a copy elsewhere loses nothing. -/
theorem rowFails_refilled {s : State} {line : Nat} (h : ∀ l ∈ line :: Config.rowLines line, s.coh.refills (lineOf l) = true) :
    s.rowFails line = { s with coh := s.coh.wear 0 (homeDie line) } := by
  have hkeeps (row : List Nat) (hrow : ∀ l ∈ row, (s.coh.wear 0 (homeDie line)).refills l = true) :
      row.foldl (fun s l => if s.coh.refills l then s else s.markLost l) { s with coh := s.coh.wear 0 (homeDie line) }
        = { s with coh := s.coh.wear 0 (homeDie line) } := by
    induction row with
    | nil => rfl
    | cons l row ih =>
      rw [List.foldl_cons, if_pos (hrow l (List.mem_cons_self ..))]
      exact ih fun x hx => hrow x (List.mem_cons_of_mem _ hx)
  refine hkeeps _ fun l hl => ?_
  obtain ⟨a, ha, rfl⟩ := List.mem_map.1 hl
  refine h a ?_
  rcases List.mem_cons.1 ha with rfl | ha
  · exact List.mem_cons_self ..
  · exact List.mem_cons_of_mem _ (List.mem_filter.1 ha).1

/-- A frame that holds one line is retired with it. -/
theorem frameFails_alone {s : State} {u line : Nat} {f : Frame} (hf : s.coh.frames.find? (fun f => f.lines.contains (lineOf line)) = some f)
    (hlines : f.lines = [lineOf line]) :
    s.lastingError 1 u line =
      (let m := if s.coh.dirty.contains (lineOf line) then s.markLost (lineOf line) else { s with coh := s.coh.leaveFrame (lineOf line) }
       { m with coh := m.coh.wear 1 (home (lineOf line)) }) := by
  unfold State.lastingError
  simp only [hf, Option.map_some, Option.getD_some, hlines, List.foldl_cons, List.foldl_nil]
  rfl

/-! ## The events (R343, R349) -/

section
variable {s : State} {line : Nat}

theorem rfo_control {n : Nat} (h : n < 16) : exec (.readForOwnership (2056 + n) line) s = .next (s.grant (.control n) (lineOf line)) := by
  have hs : sharerOf (2056 + n) = .control n := by
    unfold sharerOf
    rw [if_neg (by omega), if_neg (by omega), if_pos (by omega), Nat.add_sub_cancel_left]
  show execReadForOwnership _ _ _ = _
  unfold execReadForOwnership
  simp only [hs]

theorem rfo_port {n : Nat} (h : n < 2) : exec (.readForOwnership (2072 + n) line) s
    = .next (if s.portMaps n (lineOf line) then s.grant (.port n) (lineOf line) else s) := by
  have hs : sharerOf (2072 + n) = .port n := by
    unfold sharerOf
    rw [if_neg (by omega), if_neg (by omega), if_neg (by omega), if_pos (by omega), Nat.add_sub_cancel_left]
  show execReadForOwnership _ _ _ = _
  unfold execReadForOwnership
  simp only [hs]

theorem rfo_device (d : Nat) : exec (.readForOwnership (2076 + d) line) s
    = .next (if s.ctl.reaches d then s.grant (.device d) (lineOf line) else s) := by
  have hs : sharerOf (2076 + d) = .device d := by
    unfold sharerOf
    rw [if_neg (by omega), if_neg (by omega), if_neg (by omega), if_neg (by omega), if_neg (by omega), if_neg (by omega),
      Nat.add_sub_cancel_left]
  show execReadForOwnership _ _ _ = _
  unfold execReadForOwnership
  simp only [hs]

theorem recall_writesBack {cells : List Host.Cell} (h : s.blocked (lineOf line) = false) :
    exec (.recall line cells) s = .next (s.writeBack (lineOf line) cells (some .s)) := by
  show execRecall _ _ _ = _
  unfold execRecall
  simp [h]

theorem ownerWriteBack_leaves {n : Nat} {st : CopyState} {cells : List Host.Cell} (hn : sharerOf n ≠ .hostPort)
    (h : s.blocked (lineOf line) = false) (ho : s.coh.owner? (lineOf line) = some (sharerOf n, st)) :
    exec (.ownerWriteBack n line cells) s = .next (s.writeBack (lineOf line) cells none) := by
  show execOwnerWriteBack _ _ _ _ = _
  unfold execOwnerWriteBack
  split
  next heq => exact absurd heq hn
  next => simp [h, ho]

theorem hostPort_writesBack {k : Copy} {cells : List Host.Cell} (hk : s.coh.copy? .hostPort (lineOf line) = some k) :
    exec (.ownerWriteBack 2075 line cells) s = .next { s with
      mem := if k.modified then putBytes s.mem (lineOf line) k.data else s.mem, coh := s.coh.dropCopy .hostPort (lineOf line) } := by
  have hs : sharerOf 2075 = .hostPort := rfl
  show execOwnerWriteBack 2075 line cells s = _
  unfold execOwnerWriteBack
  simp only [hs, hk]

/-- A line that the host may reach: device memory, with no write open on it or under its entry, and not LOST. -/
def Reachable (s : State) (ln : Nat) : Prop := isDeviceLine ln = true ∧ s.blocked ln = false ∧ s.coh.lost.contains ln = false

theorem host_reads {s1 : State} (hopen : Reachable s (lineOf line)) (hlets : s.lets .host (lineOf line) false = true)
    (ho : s.ownerForRead (lineOf line) true = some s1) :
    exec (.hostReadShared line) s = .next (s1.takeCopy .host (lineOf line) .s (s1.peekBytes (lineOf line) 128)) := by
  obtain ⟨hl, hfree, hkept⟩ := hopen
  show execHostReadShared _ _ = _
  unfold execHostReadShared
  simp only [hl, not_busy_of_unblocked hfree, hkept, hlets, ho, Bool.not_true, Bool.or_self, Bool.false_eq_true, if_false]

theorem host_read_refused (hlets : s.lets .host (lineOf line) false = false) : exec (.hostReadShared line) s = .next s := by
  show execHostReadShared _ _ = _
  unfold execHostReadShared
  simp only [hlets, Bool.not_false, Bool.or_true, if_true]

theorem not_host_of_device {ln : Nat} (h : isDeviceLine ln = true) : isHostLine ln = false := by
  unfold isDeviceLine at h
  unfold isHostLine
  simp only [decide_eq_true_eq, Bool.and_eq_false_iff, decide_eq_false_iff_not] at *
  omega

theorem host_writes_own {cells : List Host.Cell} (h : isHostLine (lineOf line) = true) :
    exec (.hostWrite line cells) s = .next (s.writeLine (lineOf line)
      ((cells.filter fun x => lineOf line ≤ x.1 && x.1 < lineOf line + 128).map fun x => (x.1 - lineOf line, [x.2])) false) := by
  show execHostWrite _ _ _ = _
  unfold execHostWrite
  simp only [h, if_true]

theorem host_writes_device {cells : List Host.Cell} (hopen : Reachable s (lineOf line))
    (hno : ∀ st, s.coh.owner? (lineOf line) ≠ some (.host, st)) :
    exec (.hostWrite line cells) s = .next (if s.lets .host (lineOf line) true then s.writeLine (lineOf line)
      ((cells.filter fun x => lineOf line ≤ x.1 && x.1 < lineOf line + 128).map fun x => (x.1 - lineOf line, [x.2])) false else s) := by
  obtain ⟨hl, hfree, hkept⟩ := hopen
  show execHostWrite _ _ _ = _
  unfold execHostWrite
  simp only [not_host_of_device hl, hl, hfree, hkept, Bool.not_true, Bool.or_self, Bool.false_eq_true, if_false]
  split <;> rfl

theorem lostMark_marks {n : Nat} {st : CopyState} (ho : s.coh.owner? (lineOf line) = some (sharerOf n, st)) (hst : st = .m ∨ st = .o) :
    exec (.lostMark n line) s = .next (s.markLost (lineOf line)) := by
  show execLostMark _ _ _ = _
  unfold execLostMark
  rcases hst with rfl | rfl <;> simp [ho]

theorem lastingError_row {u : Nat} (h : ∀ l ∈ lineOf line :: Config.rowLines (lineOf line), s.coh.refills (lineOf l) = true) :
    s.lastingError 0 u line = { s with coh := s.coh.wear 0 (homeDie (lineOf line)) } :=
  rowFails_refilled h

end

/-- Settles O46: every event by the rule of its function; the entry of a line is followed through a grant, a write-back and a LOST mark. -/
theorem coherenceEventsComplete : Obligations.CoherenceEventsComplete := by
  unfold Obligations.CoherenceEventsComplete
  intro s line ln open_ only
  refine ⟨?_, ?_, ?_, fun n hn => rfo_control hn, fun n hn => rfo_port hn, fun d => rfo_device d, rfl, fun cells h => recall_writesBack h,
    ?_, fun k cells hk => hostPort_writesBack hk, fun s1 ho hlets hown => host_reads ho hlets hown, ?_, ?_,
    fun n st ho hst => lostMark_marks ho hst, ?_, ?_, ?_, fun k u lasting => eccError_logs k u line lasting s, ?_⟩
  · intro t p n who ht hp c told'
    refine ⟨?_, ?_⟩
    · rintro rfl hrdc
      exact probe_tells ht hrdc hp
    · rintro rfl
      exact congrArg Host.Outcome.next (answerProbe_tells ht hp)
  · intro t e ht hmates he hall split asked rest
    have hexec : exec (.probeAnswer line) s = .next (s.closeTxn line) := rfl
    have hsettle := settle_eq ht he
    refine ⟨fun hno => ?_, fun hyes hrest => ?_, fun hyes hrest => ?_⟩
    · rw [hexec, closeTxn_settles ht hmates he hall (.inl hno), hsettle, if_neg (by exact Bool.eq_false_iff.1 hno)]
    · rw [hexec, closeTxn_settles ht hmates he hall (.inr hrest), hsettle, if_pos (by exact hyes)]
    · rw [hexec, closeTxn_asks ht hmates he hall hyes hrest]
      rfl
  · intro e level he hown hquiet htxns parent sib hsib
    exact directoryMerge_grows he hown hquiet htxns hsib
  · rintro n who st cells rfl hn hfree ho
    exact ownerWriteBack_leaves hn hfree ho
  · rintro cells (hhost | ⟨ho, hlets, hno⟩)
    · exact host_writes_own hhost
    · rw [host_writes_device ho hno, if_pos hlets]
  · intro cells ho
    refine ⟨fun hlets => host_read_refused hlets, fun hlets hno => ?_⟩
    rw [host_writes_device ho hno, if_neg (by exact Bool.eq_false_iff.1 hlets)]
  · intro who ho hread hwrite hnone hroom
    obtain ⟨hl, hfree, hkept⟩ := ho
    exact grant_spec hl hfree hkept hread hwrite hnone hroom
  · intro who st k hl ho hk hmod honly
    obtain ⟨e, he, howner⟩ := Option.bind_eq_some_iff.1 ho
    have halone : Alone s.coh ln e := fun x hx hc => Option.some_inj.1 ((honly x hx hc).symm.trans he)
    exact ⟨writeBack_shares hl he halone (by rw [howner]; rfl) howner hk hmod,
      writeBack_leaves hl he halone (by rw [howner]; rfl) howner hk hmod⟩
  · intro hl hkept hreqs honly
    exact markLost_spec hl hkept hreqs honly
  · intro u row
    exact ⟨lastingError_row, fun f hf hlines => frameFails_alone hf hlines, rfl, rfl, rfl, rfl⟩

end Sys2Proof.Owners
end
